-- ==== Sys2Proof/Word.lean ====
section
/-!
DEFINITION. The plain words of the module and the one keyed table in which sparse storage is kept.

A `Tbl` lists (key, value) pairs in one canonical form: keys strictly rising, and no entry equal to the
value an unlisted key has. Equal contents are then equal data.
-/
namespace Sys2Proof

/-- One byte of any memory of the module. -/
abbrev Byte := BitVec 8

/-- A 32-bit register or word (00_scope.md, Registers). -/
abbrev Word := BitVec 32

/-- A 64-bit register (R13). -/
abbrev DWord := BitVec 64

/-- Sparse storage: pairs of a key and a value, keys strictly rising. -/
abbrev Tbl (α : Type) := List (Nat × α)

/-- What key `k` holds; an unlisted key holds `d`. -/
def Tbl.get {α : Type} (d : α) : Tbl α → Nat → α
  | [], _ => d
  | (j, v) :: t, k => if j = k then v else Tbl.get d t k

/-- Put `v` at key `k` of a rising list (the value is listed whatever it is). -/
def Tbl.put {α : Type} : Tbl α → Nat → α → Tbl α
  | [], k, v => [(k, v)]
  | (j, w) :: t, k, v =>
    if k < j then (k, v) :: (j, w) :: t
    else if j = k then (k, v) :: t
    else (j, w) :: Tbl.put t k v

/-- Unlist key `k`, wherever it is listed. -/
def Tbl.erase {α : Type} : Tbl α → Nat → Tbl α
  | [], _ => []
  | (j, w) :: t, k => if j = k then Tbl.erase t k else (j, w) :: Tbl.erase t k

/-- Store `v` at key `k`: a value equal to the default `d` unlists the key. -/
def Tbl.set {α : Type} [DecidableEq α] (d : α) (t : Tbl α) (k : Nat) (v : α) : Tbl α :=
  if v = d then Tbl.erase t k else Tbl.put t k v

/-- The canonical form: keys strictly rising. -/
def Tbl.rising {α : Type} : Tbl α → Bool
  | [] => true
  | [_] => true
  | (j, _) :: (k, w) :: t => decide (j < k) && Tbl.rising ((k, w) :: t)

/-- The canonical form: keys strictly rising and no entry at the default. -/
def Tbl.wf {α : Type} [DecidableEq α] (d : α) (t : Tbl α) : Bool :=
  Tbl.rising t && t.all (fun e => decide (e.2 ≠ d))

end Sys2Proof
end

