-- ==== Sys2Proof/Syntax.lean ====
section
/-!
DEFINITION. The commands of the module, one constructor per row of spec/opcode_table.json, with the
names of the units they act on. A command is an access by an agent, an instruction that a cluster's
sequencer meets, an event inside a unit, or an event on a pin or a link.
-/
namespace Sys2Proof

/-- The agents that access registers (R13): two PCIe functions and four management processors; SMBus
reaches the BOOT block alone (R504). -/
inductive Agent where
  | fn0 | fn1 | mp0 | mp1 | mp2 | mp3 | smbus
  deriving DecidableEq, Repr

/-- A PCIe function (Table 14.1). -/
inductive Fn where
  | f0 | f1
  deriving DecidableEq, Repr

/-- A logical cluster, by its place 320 × LDIE + 16 × LREGION + LCLUSTER in ascending logical ID (R194). -/
abbrev Cl := Fin 2560
/-- A logical core of a cluster (Table 1.4, LCORE). -/
abbrev Core := Fin 32
/-- A base die or compute die. -/
abbrev Die := Fin 8
/-- A tensor link by its number 8 × ply + DIR (R240). -/
abbrev Link := Fin 32
/-- A tenancy window (R196). -/
abbrev Win := Fin 16
/-- A command ring (R433). -/
abbrev Ring := Fin 8192

/-- The engine of a queue of Table 4.2. -/
inductive Engine where
  | aq | vq | iq | oq
  deriving DecidableEq, Repr

/-- The two stream engines (R182). -/
inductive StreamDir where
  | inn | out
  deriving DecidableEq, Repr

/-- The ledgers of R396: one per physical region, and the device ledger. -/
inductive LedgerId where
  | region (die : Die) (reg : Fin 21)
  | device
  deriving DecidableEq, Repr

/-- The request that a translation or memory command serves: an outstanding sector access of a stream
engine, counted from its oldest, or an access by a unit of a base die. -/
inductive MemReq where
  | stream (q : Cl) (c : Core) (dir : StreamDir) (i : Nat)
  | unit (die : Die) (win : Win) (addr : BitVec 64) (write : Bool)
  deriving DecidableEq, Repr

/-- The request that a DRAM controller serves: an outstanding stream access, or a sector of a stack named
directly, with the bytes, byte enables and stain of a write. -/
inductive SecReq where
  | stream (q : Cl) (c : Core) (dir : StreamDir) (i : Nat)
  | sector (stack : Nat) (sec : Nat) (data : List Byte) (en : BitVec 32) (stain : Bool)
  deriving DecidableEq, Repr

/-- A stream engine's attempt to issue an access: its direction, and the bits of the address or index path that flip in
the stage whose parity is checked (Table 13.2, `PARITY`; log 146). -/
structure StreamIssue where
  dir : StreamDir
  upset : List (Fin 52) := []
  deriving DecidableEq, Repr

/-- What an HBM4 stack reports of a read (R211). -/
inductive EccReport where
  | clean | corrected | uncorrected
  /-- An error of three or more bits that the code corrects wrongly, and reports so, or lets go unreported: the bits of
  the sector that are delivered wrong. -/
  | escaped (reported : Bool) (flips : List (Fin 256))
  deriving DecidableEq, Repr

/-- A 64-bit word of SRAM under SECDED (R213); and, under the same code, a scalar register of a sequencer or a word of
one of its descriptors, as an instruction reads it (R114; log 145). -/
inductive SramPlace where
  | scratch (q : Cl) (c : Core) (word : Fin 8192)
  | buffer (q : Cl) (word : Fin 131072)
  | shelf (die : Die) (word : Fin 25165824)
  | sreg (q : Cl) (r : Fin 64)
  | ldesc (q : Cl) (l : Fin 16) (word : Fin 8)
  deriving DecidableEq, Repr

/-- A DRAM channel: near memory of stack `die`, or HBM4 of base die `die` (R221). -/
inductive Chan where
  | nm (die : Die) (ch : Fin 128)
  | hbm (die : Die) (ch : Fin 64)
  deriving DecidableEq, Repr

/-- A physical unit of a compute die, at one of the three levels of R38. -/
inductive PhysUnit where
  | core (die : Die) (reg : Fin 21) (cl : Fin 17) (core : Fin 34)
  | cluster (die : Die) (reg : Fin 21) (cl : Fin 17)
  | region (die : Die) (reg : Fin 21)
  deriving DecidableEq, Repr

/-- An error inside a column as a step enters it, which its detectors are to find (R74–R76, R108): a flipped bit of the
column register or of the residue; of one of the two copies of an alignment rounder; of an FP32 adder, numbered 0–6 in
the tree of R66 (the pairs of rows from row 0, the two sums of pairs, their sum) and 7 at the column; a wrong answer of one
of the two comparators; a flipped bit of one of the two index registers. -/
inductive ColUpset where
  | reg (bit : Fin 80)
  | residue (bit : Fin 3)
  | rounder (copy : Bool) (bit : Fin 80)
  | adder (node : Fin 8) (bit : Fin 32)
  | comparator (copy : Bool)
  | index (copy : Bool) (bit : Fin 24)
  deriving DecidableEq, Repr

/-- The tuple that names a collective (R318). -/
structure CollKey where
  comm : BitVec 16
  seq : BitVec 16
  epoch : BitVec 8
  deriving DecidableEq, Repr

/-- What a pattern book found of one unit (R407): it differs at nominal voltage, or only when stressed. -/
structure BookDiff where
  src : BitVec 32
  mapped : Bool
  unit : PhysUnit
  nominal : Bool
  point : Fin 16
  deriving DecidableEq, Repr

/-- The readings that the governor takes at a chit boundary (R477, R478), in units of 1/4 °C and µJ, each
list in ascending sensor number; a reading that is missing leaves the sensor's last one. -/
structure Readings where
  junction : List (Nat × Int)
  base : List (Nat × Int)
  near : List (Nat × Int)
  hbm : List (Nat × Int)
  iod : List (Nat × Int)
  energy : List (Nat × Nat)
  deriving DecidableEq, Repr

/-- A logic die of the package (Table 1.1). -/
inductive LogicDie where
  | io
  | base (d : Die)
  | compute (d : Die)
  deriving DecidableEq, Repr

/-- What the checks and trainings of a boot find outside the module's own records (R494). -/
structure BootFinds where
  /-- The die of a die-to-die link that trains no module; R25. -/
  d2dDown : Option Die
  /-- The first die that fails its power-up checks; R20. -/
  dieFails : Option LogicDie
  fwFault : Bool
  /-- Lanes of near-memory channels that training finds bad; R219. -/
  badLanes : List (Die × Fin 128 × Fin 74) := []
  /-- Lanes of HBM4 pseudo-channels that training repairs; R214, R220. -/
  repaired : List (Fin 16 × Fin 64 × Nat) := []
  /-- HBM4 pseudo-channels that training cannot repair; R220. -/
  unrepaired : List (Fin 16 × Fin 64) := []
  deriving DecidableEq, Repr

/-- What a RoCEv2 packet asks: SEND, RDMA WRITE, RDMA READ, or a congestion notification (R452). -/
inductive EthKind where
  | send | write | read | cnp
  deriving DecidableEq, Repr

/-- A RoCEv2 packet or congestion notification as a port receives it (R452). -/
structure EthPacket where
  qpn : BitVec 24
  kind : EthKind
  key : BitVec 32
  addr : BitVec 64
  len : Nat
  data : List Byte
  deriving DecidableEq, Repr

/-- The commands of the module: one constructor per row of the table. An instruction of a sequencer carries
the cluster and bits [127:8] of its word; its opcode is its constructor's. -/
inductive Instr where
  /-- REG_LO_READ_SNAPSHOT (R13): A read of a 64-bit register's _LO half snapshots all 64 bits for the reading agent and returns the low half. -/
  | regLoReadSnapshot (a : Agent) (off : BitVec 32)
  /-- REG_LO_WRITE_HOLD (R13): A write of a 64-bit register's _LO half is held for the writing agent, replacing any value that agent already held. -/
  | regLoWriteHold (a : Agent) (off : BitVec 32) (v : Word)
  /-- REG_HI_WRITE_COMMIT (R13): A write of a 64-bit register's _HI half commits both halves in one cycle, using the held low half, 0, or the current low half. -/
  | regHiWriteCommit (a : Agent) (off : BitVec 32) (v : Word)
  /-- REG_ATOMIC_64_ACCESS (R523): A naturally aligned 8-byte access at a _LO address reads or writes all 64 bits atomically; at any other address it acts as two 4-byte accesses. -/
  | regAtomic64Access (a : Agent) (off : BitVec 32) (write : Option DWord)
  /-- REG_MALFORMED_ACCESS (R523): A register access that is narrower, wider or misaligned completes with no side effect; a read returns zeros and a write is ignored. -/
  | regMalformedAccess (a : Agent) (off : BitVec 32) (bytes : Nat) (write : Bool)
  /-- REG_WRITE (R6): A write to a register that has no row of its own acts by its access code (RW, W1C or W1S), is ignored where not mapped, and obeys the reserved-field and unlisted-encoding rules. -/
  | regWrite (a : Agent) (off : BitVec 32) (v : Word)
  /-- SELECT_REGISTER_WRITE (R15): A write to a select register changes only the writing agent's copy, and that agent's reporting register follows within one cycle. -/
  | selectRegisterWrite (a : Agent) (off : BitVec 32) (v : Word)
  /-- ORG_PATCH_REQ (R33): A write of ORG_PATCH_REQ with GO 1 records the physical unit that backs a named logical unit in the field patch record, or rejects the request. -/
  | orgPatchReq (a : Agent) (v : Word)
  /-- ORG_PATCH_REQ_PHYS (R38): A write of ORG_PATCH_REQ_PHYS with GO 1 records a physically named unit in the field patch record, or rejects the request. -/
  | orgPatchReqPhys (a : Agent) (v : Word)
  /-- PATCH_FLASH_WRITE_COMPLETE (R36): The flash write of a patch request finishes; REQ_BUSY clears, REQ_DONE and PENDING are set, and a waiting warm reset may begin. -/
  | patchFlashWriteComplete
  /-- D2D_FRAME_RECEIVE (R24): A die-to-die frame arrives; it is delivered in order if its CRC holds, and is otherwise replayed. -/
  | d2dFrameReceive (link : Fin 16) (up : Bool) (frame : List Byte)
  /-- D2D_LANE_FAILURE (R25): A UCIe lane fails; its module degrades to x8 or is disabled, and a ledger entry is written. -/
  | d2dLaneFailure (link : Fin 16) (module : Fin 8) (runsAtX8 : Bool)
  /-- NOP (R145): The sequencer executes NOP, which has no effect. -/
  | nop (q : Cl) (w : BitVec 120)
  /-- END (R120): END stops issue, and the cluster then waits for every engine queue to empty. -/
  | endw (q : Cl) (w : BitVec 120)
  /-- ABORT (R145): ABORT starts a job stop and reports IMM[15:0] as the abort code. -/
  | abort (q : Cl) (w : BitVec 120)
  /-- J (R146): J continues execution at the branch target. -/
  | jmp (q : Cl) (w : BitVec 120)
  /-- JAL (R146): JAL writes the link value to RD and then jumps to the branch target. -/
  | jal (q : Cl) (w : BitVec 120)
  /-- JR (R146): JR continues execution at the location held in RA. -/
  | jr (q : Cl) (w : BitVec 120)
  /-- BEQ (R146): BEQ branches when RA equals RB. -/
  | beq (q : Cl) (w : BitVec 120)
  /-- BNE (R146): BNE branches when RA differs from RB. -/
  | bne (q : Cl) (w : BitVec 120)
  /-- BLT (R146): BLT branches when RA is less than RB, compared as signed values. -/
  | blt (q : Cl) (w : BitVec 120)
  /-- BGE (R146): BGE branches when RA is greater than or equal to RB, compared as signed values. -/
  | bge (q : Cl) (w : BitVec 120)
  /-- BLTU (R146): BLTU branches when RA is less than RB, compared as unsigned values. -/
  | bltu (q : Cl) (w : BitVec 120)
  /-- BGEU (R146): BGEU branches when RA is greater than or equal to RB, compared as unsigned values. -/
  | bgeu (q : Cl) (w : BitVec 120)
  /-- BSTN (R145): BSTN branches when the stain bit of RA is set. -/
  | bstn (q : Cl) (w : BitVec 120)
  /-- ADD (R145): ADD writes RA + RB to RD, wrapping in 64 bits. -/
  | add (q : Cl) (w : BitVec 120)
  /-- SUB (R145): SUB writes RA - RB to RD, wrapping in 64 bits. -/
  | sub (q : Cl) (w : BitVec 120)
  /-- MUL (R145): MUL writes the low 64 bits of RA × RB to RD. -/
  | mul (q : Cl) (w : BitVec 120)
  /-- MULHU (R145): MULHU writes the high 64 bits of the unsigned product RA × RB to RD. -/
  | mulhu (q : Cl) (w : BitVec 120)
  /-- AND (R145): AND writes RA AND RB to RD. -/
  | andw (q : Cl) (w : BitVec 120)
  /-- OR (R145): OR writes RA OR RB to RD. -/
  | orw (q : Cl) (w : BitVec 120)
  /-- XOR (R145): XOR writes RA XOR RB to RD. -/
  | xorw (q : Cl) (w : BitVec 120)
  /-- SHL (R145): SHL writes RA shifted left by RB[5:0] to RD. -/
  | shl (q : Cl) (w : BitVec 120)
  /-- SHR (R145): SHR writes RA shifted right by RB[5:0] to RD, with zeros entering. -/
  | shr (q : Cl) (w : BitVec 120)
  /-- SRA (R145): SRA writes RA shifted right by RB[5:0] to RD, with the sign entering. -/
  | sra (q : Cl) (w : BitVec 120)
  /-- SLT (R145): SLT writes 1 to RD when RA is less than RB as signed values, and 0 otherwise. -/
  | slt (q : Cl) (w : BitVec 120)
  /-- SLTU (R145): SLTU writes 1 to RD when RA is less than RB as unsigned values, and 0 otherwise. -/
  | sltu (q : Cl) (w : BitVec 120)
  /-- MIN (R145): MIN writes the signed minimum of RA and RB to RD. -/
  | min (q : Cl) (w : BitVec 120)
  /-- MAX (R145): MAX writes the signed maximum of RA and RB to RD. -/
  | max (q : Cl) (w : BitVec 120)
  /-- ADDI (R145): ADDI writes RA + IMM to RD. -/
  | addi (q : Cl) (w : BitVec 120)
  /-- LI (R145): LI writes IMM to RD, with the result unstained. -/
  | li (q : Cl) (w : BitVec 120)
  /-- FADD (R145): FADD writes the FP32 sum of RA and RB to RD. -/
  | fadd (q : Cl) (w : BitVec 120)
  /-- FMUL (R145): FMUL writes the FP32 product of RA and RB to RD. -/
  | fmul (q : Cl) (w : BitVec 120)
  /-- FMAX (R145): FMAX writes the IEEE maximum of RA and RB to RD. -/
  | fmax (q : Cl) (w : BitVec 120)
  /-- FMIN (R145): FMIN writes the IEEE minimum of RA and RB to RD. -/
  | fmin (q : Cl) (w : BitVec 120)
  /-- FCVT_FI (R145): FCVT.FI rounds the signed 64-bit integer in RA to FP32 and writes it to RD. -/
  | fcvtFi (q : Cl) (w : BitVec 120)
  /-- FCVT_IF (R145): FCVT.IF rounds the FP32 value in RA to a saturating signed 64-bit integer and writes it to RD. -/
  | fcvtIf (q : Cl) (w : BitVec 120)
  /-- RDID (R145): RDID writes the identity that SUB selects (core ID, logical coordinate or job ID) to RD. -/
  | rdid (q : Cl) (w : BitVec 120)
  /-- SSTN (R147): SSTN writes the stain bit of RA to RD as 0 or 1. -/
  | sstn (q : Cl) (w : BitVec 120)
  /-- MSET (R147): MSET writes RA[15:0] to mask register m[SUB[2:0]], carrying RA's stain. -/
  | mset (q : Cl) (w : BitVec 120)
  /-- MGET (R145): MGET writes the zero-extended mask register m[SUB[2:0]] to RD. -/
  | mget (q : Cl) (w : BitVec 120)
  /-- LDW (R153): LDW writes RA to word SUB[2:0] of a loop descriptor. -/
  | ldw (q : Cl) (w : BitVec 120)
  /-- LDLEV (R153): LDLEV sets COUNT_k and STRIDE_k of a loop descriptor from IMM. -/
  | ldlev (q : Cl) (w : BitVec 120)
  /-- LDBASE (R153): LDBASE sets a descriptor's BASE to RA + IMM, modulo 2^52. -/
  | ldbase (q : Cl) (w : BitVec 120)
  /-- LDBUMP (R153): LDBUMP adds RA to a descriptor's BASE, modulo 2^52. -/
  | ldbump (q : Cl) (w : BitVec 120)
  /-- LDMOV (R153): LDMOV copies one loop descriptor to another, including its stain. -/
  | ldmov (q : Cl) (w : BitVec 120)
  /-- LDRD (R153): LDRD reads word SUB[2:0] of a loop descriptor into a scalar register. -/
  | ldrd (q : Cl) (w : BitVec 120)
  /-- FENCE_M (R132): FENCE.M orders each core's later stream device-memory accesses after all its earlier ones. -/
  | fenceM (q : Cl) (w : BitVec 120)
  /-- FENCE_E (R132): FENCE.E stalls the sequencer until every engine queue of all cores is empty. -/
  | fenceE (q : Cl) (w : BitVec 120)
  /-- SIG (R133): SIG sends a count to a named signal counter once every earlier stream-out write has completed. -/
  | sig (q : Cl) (w : BitVec 120)
  /-- WAITS (R132): WAITS stalls the sequencer until the named counter minus v is non-negative. -/
  | waits (q : Cl) (w : BitVec 120)
  /-- SLD (R132): SLD loads 64 bits from one core's scratchpad, or their combination over all cores, into a scalar register. -/
  | sld (q : Cl) (w : BitVec 120)
  /-- NUMF_RD (R132): NUMF.RD reads one core's CORE_NUMF, or the OR of all 32, into a scalar register once earlier array instructions have completed. -/
  | numfRd (q : Cl) (w : BitVec 120)
  /-- NUMF_CLR (R132): NUMF.CLR clears the named CORE_NUMF bits in all cores once earlier array instructions have completed. -/
  | numfClr (q : Cl) (w : BitVec 120)
  /-- CSTART_BARRIER (R318): CSTART with SUB 0x0 starts a barrier, matching or allocating a collective context. -/
  | cstartBarrier (q : Cl) (w : BitVec 120)
  /-- CSTART_ALL_REDUCE (R318): CSTART with SUB 0x1 starts a scalar all-reduce. -/
  | cstartAllReduce (q : Cl) (w : BitVec 120)
  /-- CSTART_REDUCE_SCATTER (R329): CSTART with SUB 0x2 starts a reduce-scatter. -/
  | cstartReduceScatter (q : Cl) (w : BitVec 120)
  /-- CSTART_ALL_GATHER (R330): CSTART with SUB 0x3 starts an all-gather. -/
  | cstartAllGather (q : Cl) (w : BitVec 120)
  /-- CSTART_ALL_TO_ALL (R330): CSTART with SUB 0x4 starts an all-to-all. -/
  | cstartAllToAll (q : Cl) (w : BitVec 120)
  /-- CSTART_GLOBAL_NORM (R331): CSTART with SUB 0x5 starts a fused global norm. -/
  | cstartGlobalNorm (q : Cl) (w : BitVec 120)
  /-- CWAIT (R163): CWAIT stalls the sequencer until the named collective has completed, or completes at once when no such collective is outstanding. -/
  | cwait (q : Cl) (w : BitVec 120)
  /-- MMA (R154): MMA is issued to the AQ of all 32 cores as an array multiply-add instruction. -/
  | mma (q : Cl) (w : BitVec 120)
  /-- MINPLUS (R101): MINPLUS is issued as a tally instruction whose term is a + w, accumulated by min. -/
  | minplus (q : Cl) (w : BitVec 120)
  /-- MAXPLUS (R101): MAXPLUS is issued as a tally instruction whose term is a + w, accumulated by max. -/
  | maxplus (q : Cl) (w : BitVec 120)
  /-- ABSDIFF (R101): ABSDIFF is issued as a tally instruction that sums the absolute differences. -/
  | absdiff (q : Cl) (w : BitVec 120)
  /-- SQDIFF (R101): SQDIFF is issued as a tally instruction that sums the squared differences. -/
  | sqdiff (q : Cl) (w : BitVec 120)
  /-- CMPCNT (R105): CMPCNT is issued as a tally instruction that counts the positions where its predicate holds. -/
  | cmpcnt (q : Cl) (w : BitVec 120)
  /-- ARGMAX (R106): ARGMAX is issued as a tally instruction that keeps the largest term and its smallest index. -/
  | argmax (q : Cl) (w : BitVec 120)
  /-- VADD (R173): VADD is issued as a vector instruction that computes a + b. -/
  | vadd (q : Cl) (w : BitVec 120)
  /-- VSUB (R173): VSUB is issued as a vector instruction that computes a - b. -/
  | vsub (q : Cl) (w : BitVec 120)
  /-- VMUL (R173): VMUL is issued as a vector instruction that computes a × b. -/
  | vmul (q : Cl) (w : BitVec 120)
  /-- VFMA (R173): VFMA is issued as a vector instruction that computes a × b + c with one rounding. -/
  | vfma (q : Cl) (w : BitVec 120)
  /-- VMAX (R173): VMAX is issued as a vector instruction that computes the IEEE maximum. -/
  | vmax (q : Cl) (w : BitVec 120)
  /-- VMIN (R173): VMIN is issued as a vector instruction that computes the IEEE minimum. -/
  | vmin (q : Cl) (w : BitVec 120)
  /-- VABS (R173): VABS is issued as a vector instruction that computes the absolute value. -/
  | vabs (q : Cl) (w : BitVec 120)
  /-- VNEG (R173): VNEG is issued as a vector instruction that computes the negation. -/
  | vneg (q : Cl) (w : BitVec 120)
  /-- VEXP2 (R174): VEXP2 is issued as a vector instruction that computes 2^a, correctly rounded. -/
  | vexp2 (q : Cl) (w : BitVec 120)
  /-- VLOG2 (R174): VLOG2 is issued as a vector instruction that computes log2 a, correctly rounded. -/
  | vlog2 (q : Cl) (w : BitVec 120)
  /-- VRCP (R174): VRCP is issued as a vector instruction that computes 1/a, correctly rounded. -/
  | vrcp (q : Cl) (w : BitVec 120)
  /-- VRSQRT (R174): VRSQRT is issued as a vector instruction that computes 1/√a, correctly rounded. -/
  | vrsqrt (q : Cl) (w : BitVec 120)
  /-- VCVT (R172): VCVT is issued as a vector instruction that converts each element to FMT_D. -/
  | vcvt (q : Cl) (w : BitVec 120)
  /-- VCMP (R173): VCMP is issued as a vector instruction that writes 1.0 where its predicate holds and +0 elsewhere. -/
  | vcmp (q : Cl) (w : BitVec 120)
  /-- VREDMAX (R175): VREDMAX is issued as a vector instruction that reduces each run to its maximum, in a fixed order. -/
  | vredmax (q : Cl) (w : BitVec 120)
  /-- VREDSUM (R175): VREDSUM is issued as a vector instruction that reduces each run to its sum, in a fixed order. -/
  | vredsum (q : Cl) (w : BitVec 120)
  /-- VMXQ (R177): VMXQ is issued as a vector instruction that quantises FP32 blocks to MX elements and E8M0 scales. -/
  | vmxq (q : Cl) (w : BitVec 120)
  /-- VSMERGE (R176): VSMERGE is issued as a vector instruction that merges two partial attention results per row. -/
  | vsmerge (q : Cl) (w : BitVec 120)
  /-- VRAND (R178): VRAND is issued as a vector instruction that writes Philox uniform values and advances the stream's draw counter. -/
  | vrand (q : Cl) (w : BitVec 120)
  /-- VCOPY (R173): VCOPY is issued as a vector instruction that copies bit patterns unchanged. -/
  | vcopy (q : Cl) (w : BitVec 120)
  /-- SI_LD (R159): SI.LD is issued to the IQ as a transfer into the scratchpad. -/
  | siLd (q : Cl) (w : BitVec 120)
  /-- SI_GATH (R159): SI.GATH is issued to the IQ as an indexed gather from device memory into the scratchpad. -/
  | siGath (q : Cl) (w : BitVec 120)
  /-- SI_WLD (R160): SI.WLD is issued to the IQ as a weight-tile or scale load into an array bank. -/
  | siWld (q : Cl) (w : BitVec 120)
  /-- SO_ST (R159): SO.ST is issued to the OQ as a transfer from the scratchpad to device memory. -/
  | soSt (q : Cl) (w : BitVec 120)
  /-- SO_SCAT (R159): SO.SCAT is issued to the OQ as an indexed scatter to device memory. -/
  | soScat (q : Cl) (w : BitVec 120)
  /-- ICACHE_MISS_FILL (R116): An instruction-cache line arrives after a miss, and issue resumes. -/
  | icacheMissFill (q : Cl)
  /-- SIGNAL_ARRIVE (R133): A signal reaches its target counter and adds its count, modulo 2^32. -/
  | signalArrive (src tgt : Cl) (ctr : Fin 16)
  /-- SEQ_CTX_TIMEOUT (R134): A CSTART has stalled for want of a context longer than TIMEOUT µs; CTX_TIMEOUT is set and an event is raised. -/
  | seqCtxTimeout (q : Cl)
  /-- JOB_STOP_REACH_CLUSTER (R136): A job stop reaches a cluster; issue stops, unstarted instructions are discarded and started ones are abandoned at sector boundaries. -/
  | jobStopReachCluster (q : Cl)
  /-- CLUSTER_STOPPED (R136): A stopping cluster finishes its abandonment and reports itself stopped. -/
  | clusterStopped (q : Cl)
  /-- CLUSTER_ENDED (R120): After END, every engine queue is empty and the cluster reports itself ended. -/
  | clusterEnded (q : Cl)
  /-- CLUSTER_START_ISSUE (R385): A cluster begins issue once its base die's counter copy reaches T_s. -/
  | clusterStartIssue (q : Cl)
  /-- ARRAY_INSTR_START (R166): An array or tally instruction begins execution once the scoreboard allows, checking its continue condition and resume records. -/
  | arrayInstrStart (q : Cl) (c : Core)
  /-- ARRAY_FEED_STEP (R83): A row feeds one reduction step to its cells, or stalls under the skew, segment, skid or bank rules. -/
  | arrayFeedStep (q : Cl) (c : Core) (arr : Fin 4) (row : Fin 8) (flips : List (Nat × Nat))
  /-- ARRAY_PRODUCT_ENTER (R91): The products of a fed position enter the column registers six or eight cycles later, updating the sum, the tags and the residue. -/
  | arrayProductEnter (q : Cl) (c : Core) (arr : Fin 4) (upset : Option (Fin 4 × ColUpset))
  /-- ARRAY_DRAIN (R68): A reduction that ends with drain moves its column value into the drain latch with one rounding. -/
  | arrayDrain (q : Cl) (c : Core) (arr col : Fin 4)
  /-- DRAIN_ACCEPT (R91): The stream-out engine accepts a latched drained value, which ends any latch stall. -/
  | drainAccept (q : Cl) (c : Core) (arr col : Fin 4)
  /-- ARRAY_PARK (R99): A row ends by writing a 64-byte park record per column and clearing the column. -/
  | arrayPark (q : Cl) (c : Core) (arr : Fin 4)
  /-- ARRAY_RESUME (R100): A row begins by loading a checked park record into the column, or refuses the record with reason 0x0A. -/
  | arrayResume (q : Cl) (c : Core) (arr : Fin 4)
  /-- WEIGHT_LOAD_START (R88): A weight or scale load into a bank begins once every row reading that bank has passed it. -/
  | weightLoadStart (q : Cl) (c : Core)
  /-- WEIGHT_LOAD_COMPLETE (R87): A weight tile load completes, and rows waiting on the bank may feed. -/
  | weightLoadComplete (q : Cl) (c : Core)
  /-- VECTOR_INSTR_START (R180): A vector instruction begins feeding once its predecessor has fed its last group and the scoreboard allows. -/
  | vectorInstrStart (q : Cl) (c : Core)
  /-- VECTOR_GROUP (R179): The vector engine reads and computes one group of lanes, honouring the mask. -/
  | vectorGroup (q : Cl) (c : Core)
  /-- VECTOR_RESULT_WRITE (R180): The results of a group are written 8 or 12 cycles after its operands were read, carrying their stains. -/
  | vectorResultWrite (q : Cl) (c : Core)
  /-- STREAM_IN_INSTR_START (R188): The stream-in engine begins issuing accesses for an instruction, at the head or second position of its queue. -/
  | streamInInstrStart (q : Cl) (c : Core)
  /-- STREAM_OUT_INSTR_START (R188): The stream-out engine begins issuing accesses for an instruction. -/
  | streamOutInstrStart (q : Cl) (c : Core)
  /-- STREAM_SECTOR_ISSUE (R183): A stream engine issues one merged sector access once it has an outstanding slot and no conflicting access is outstanding. -/
  | streamSectorIssue (q : Cl) (c : Core) (at_ : StreamIssue)
  /-- STREAM_READ_RETURN (R188): A sector read returns and is written into the scratchpad with its stain. -/
  | streamReadReturn (q : Cl) (c : Core) (i : Nat)
  /-- STREAM_WRITE_COMPLETE (R188): A stream-out sector write completes. -/
  | streamWriteComplete (q : Cl) (c : Core) (i : Nat)
  /-- ENGINE_INSTR_COMPLETE (R126): An engine instruction passes its last read or write, releases its regions and frees its queue entry. -/
  | engineInstrComplete (q : Cl) (c : Core) (e : Engine)
  /-- XLAT_LOOKUP (R203): A device access is translated through the tenancy window's table, hitting or missing the translation cache. -/
  | xlatLookup (r : MemReq)
  /-- XLAT_MISS_FILL (R199): A translation-cache miss completes with the entry read from the table. -/
  | xlatMissFill (die : Die) (win : Win) (vframe : BitVec 20) (victim : Nat)
  /-- NM_SECTOR_READ (R210): A near-memory controller reads a sector and decodes its Reed-Solomon symbols. -/
  | nmSectorRead (r : SecReq) (upset : List (Nat × Byte))
  /-- NM_SECTOR_WRITE (R207): A near-memory controller writes a sector, as a read, merge and write when the write is partial. -/
  | nmSectorWrite (r : SecReq) (upset : List (Nat × Byte))
  /-- HBM_SECTOR_READ (R211): An HBM4 controller reads a sector under the stack's on-die ECC and consults the stain map. -/
  | hbmSectorRead (r : SecReq) (rep : EccReport)
  /-- HBM_SECTOR_WRITE (R207): An HBM4 controller writes a sector, merging partial writes. -/
  | hbmSectorWrite (r : SecReq) (rep : EccReport)
  /-- SRAM_ACCESS (R213): A scratchpad, cluster-buffer or shelf word is accessed under SECDED, with correction or staining. -/
  | sramAccess (p : SramPlace) (write : Option (BitVec 64 × BitVec 8)) (flips : List (Fin 72))
  /-- SHELF_CACHE_ACCESS (R230): A sector request passes through the write-back shelf cache of its base die. -/
  | shelfCacheAccess (die : Die) (win : Win) (vframe : BitVec 20) (sector : Fin 65536) (evicts : Bool) (victim : Nat)
  /-- PATROL_SCRUB (R212): Patrol scrub reads a sector, writes back a corrected one, and handles an uncorrectable one. -/
  | patrolScrub (hbm : Bool) (stack sec : Nat) (upset : List (Nat × Byte)) (rep : EccReport)
  /-- HBM_REFRESH_MANAGEMENT (R214): A bank's activation count reaches the stack threshold and a refresh management command is issued. -/
  | hbmRefreshManagement (stack : Fin 16) (pch : Fin 64) (bank : Fin 65536)
  /-- NM_DARN_EPOCH_END (R219): A 1 ms epoch ends and lanes whose corrected errors exceed THR are marked for darning. -/
  | nmDarnEpochEnd (die : Die)
  /-- CHANNEL_TEMP_SAMPLE (R221): A DRAM channel's temperature is read every 10 µs and its calibration band is updated. -/
  | channelTempSample (ch : Chan) (temp : Int)
  /-- MEM_RETRAIN_WINDOW_OPEN (R224): The governor opens a 40 µs retrain window for a memory channel. -/
  | memRetrainWindowOpen (ch : Chan)
  /-- MEM_RETRAIN_WINDOW_CLOSE (R223): A memory retrain window ends, with the band calibrated, darns made and the halved rate ended. -/
  | memRetrainWindowClose (ch : Chan)
  /-- SHELF_CFG_WRITE (R231): A write of SHELF_CFG changes the window size, owner and caching, writing back and emptying the cache as required. -/
  | shelfCfgWrite (a : Agent) (die : Die) (v : Word)
  /-- RESIDENCY_MOVE_COMPLETE (R202): A page mover finishes copying a frame with its stains, and the entry is rewritten. -/
  | residencyMoveComplete (i : Nat)
  /-- TL_LINK_EN_WRITE (R246): A write of TL_LINK_CTL_n.EN enables or disables a tensor link; enabling starts training. -/
  | tlLinkEnWrite (a : Agent) (link : Link) (v : Word)
  /-- TL_LINK_FENCE_WRITE (R291): A write of a FENCE bit fences a link or lifts its fence, in the permitted windows only. -/
  | tlLinkFenceWrite (a : Agent) (link : Link) (v : Word)
  /-- TL_LINK_RETRAIN_WRITE (R263): A write of 1 to TL_LINK_CTL_n.RETRAIN requests a link retrain window. -/
  | tlLinkRetrainWrite (a : Agent) (link : Link) (v : Word)
  /-- TL_SLICE_WRITE (R286): A write of TL_SLICE takes effect only during a phase switch or a slice boot, and is otherwise ignored. -/
  | tlSliceWrite (a : Agent) (die : Die) (v : Word)
  /-- LINK_TRAIN_SIGNAL_DETECT (R246): Signal and clock are recovered on at least four lanes during training. -/
  | linkTrainSignalDetect (link : Link)
  /-- LINK_TRAIN_RESTART (R246): With no signal on four lanes, training restarts every 10 ms and the partner reads ABSENT. -/
  | linkTrainRestart (link : Link)
  /-- LINK_TRAIN_EQUALISED (R246): The transmit equalisers of a training link are set. -/
  | linkTrainEqualised (link : Link)
  /-- LINK_TRAIN_LANES_FOUND (R246): Lane order, polarity, deskew and the usable lanes are found, and the width is set, or the link fails with reason 2. -/
  | linkTrainLanesFound (link : Link) (tx rx : BitVec 9) (permOk : Bool)
  /-- LINK_FLIT_LOCK (R246): The link locks on 64 consecutive flits with zero syndrome. -/
  | linkFlitLock (link : Link)
  /-- BEACON_SEND (R248): An enabled link sends a beacon at least once every 1 µs. -/
  | beaconSend (link : Link)
  /-- BEACON_RECEIVE (R247): A partner's beacon is received and checked; the link goes UP, FENCED or MISWIRED. -/
  | beaconReceive (link : Link) (flit : List Byte)
  /-- DATA_FLIT_RECEIVE (R254): A data flit is decoded and CRC-checked, then accepted in sequence, discarded, or answered with RETRY_REQ. -/
  | dataFlitReceive (link : Link) (flit : List Byte)
  /-- IDLE_FLIT_RECEIVE (R252): An idle flit is received and its ACK and credit returns are applied. -/
  | idleFlitReceive (link : Link) (flit : List Byte)
  /-- RETRY_REQ_RECEIVE (R255): A RETRY_REQ is received and the sender resends every buffered flit from the expected SEQ. -/
  | retryReqReceive (link : Link) (flit : List Byte)
  /-- CREDIT_SYNC_RECEIVE (R258): A CREDIT_SYNC is received and the sender resets its freed-buffer counts. -/
  | creditSyncReceive (link : Link) (flit : List Byte)
  /-- RETRAIN_REQ_RECEIVE (R263): A RETRAIN_REQ is received and the partner schedules the window at count T. -/
  | retrainReqReceive (link : Link) (flit : List Byte)
  /-- FENCED_RETRAIN_START (R384): On a fenced link, the partner begins its retrain window 2 µs after the first RETRAIN_REQ and holds it for 40,000 of its own counts. -/
  | fencedRetrainStart (link : Link)
  /-- FLIT_SLOT_SEND (R259): In each flit slot an output sends the flit that priority and round-robin choose among credited VCs, or an idle flit. -/
  | flitSlotSend (link : Link)
  /-- CREDIT_SYNC_SEND (R258): A receiver sends a CREDIT_SYNC at least once every 256 flit slots. -/
  | creditSyncSend (link : Link)
  /-- REPLAY_TIMEOUT (R256): The oldest unacknowledged flit has waited 1 µs and is replayed. -/
  | replayTimeout (link : Link)
  /-- RETRAIN_REQ_SEND (R263): The requesting end sends RETRAIN_REQ(T), at least eight times in the 2 µs before T. -/
  | retrainReqSend (link : Link)
  /-- LINK_RETRAIN_WINDOW_START (R263): At count T both directions stop carrying flits and are recalibrated, with darns and width changes applied. -/
  | linkRetrainWindowStart (link : Link)
  /-- LINK_RETRAIN_WINDOW_END (R263): At T + 40,000 the link resumes and replays its unacknowledged flits. -/
  | linkRetrainWindowEnd (link : Link)
  /-- TL_LANE_EPOCH_END (R264): A 1 ms epoch ends; lanes over LANE_THR are marked, and width falls or the link fails as spares run out. -/
  | tlLaneEpochEnd (link : Link) (tx rx : List (Fin 9 × Nat))
  /-- LINK_TEMP_SAMPLE (R261): A link's temperature is read every 10 µs and its band is updated. -/
  | linkTempSample (link : Link) (temp : Int)
  /-- ROUTER_HEAD_FLIT (R271): A router checks a head flit and routes the packet in dimension order with dateline VCs. -/
  | routerHeadFlit (link : Link) (vc : Fin 6)
  /-- PACKET_DELIVER (R267): A packet reaches its destination die and is handed to its target unit, or is discarded when its job is unbound. -/
  | packetDeliver
  /-- LINK_LEAVE_UP (R276): A link leaves UP or is fenced; traffic to it is discarded, partial packets are completed stained, and TL_DOWN is raised. -/
  | linkLeaveUp (link : Link)
  /-- PHASE_DRAIN_START (R300): At T_d, or late once the old slice is idle, injection stops and the first drain round begins. -/
  | phaseDrainStart
  /-- PHASE_DRAIN_ROUND_COMPLETE (R301): A drain round's all-reduce completes; equal sums end the drain, and otherwise another round starts. -/
  | phaseDrainRoundComplete (sent delivered : Nat)
  /-- PHASE_RESUME_COMPLETE (R300): The resume barrier over the new slice completes, STEP reads done and LAUNCH is accepted. -/
  | phaseResumeComplete
  /-- PHASE_TIMEOUT (R305): The docket's limit expires before resume; STEP reads failed and PHASE_TIMEOUT is raised. -/
  | phaseTimeout
  /-- SLC_ID_WRITE (R309): A write of SLC_ID takes effect only during a switch or a slice boot. -/
  | slcIdWrite (a : Agent) (v : Word)
  /-- SLC_MAP_WRITE (R309): A write of SLC_MAP takes effect only during a switch or a slice boot. -/
  | slcMapWrite (a : Agent) (v : Word)
  /-- MEM_ACCT_PEAK_RST (R310): Writing PEAK_RST sets both peaks of the selected window and tag to their current counts. -/
  | memAcctPeakRst (a : Agent) (v : Word)
  /-- COLL_BLOCK_READ (R316): The engine reads a collective block, and the receiver sends READY to its senders. -/
  | collBlockRead (k : CollKey)
  /-- COLL_READY_RECEIVE (R322): A READY is received and DATA may be sent to that receiver. -/
  | collReadyReceive
  /-- COLL_ARRIVE_RECEIVE (R325): An ARRIVE is received and counted toward a barrier or start. -/
  | collArriveReceive
  /-- COLL_PART_RECEIVE (R327): A PART is received and folded at its node in the fixed tree order. -/
  | collPartReceive
  /-- COLL_DATA_RECEIVE (R333): A DATA packet is received, written or folded, and its chunk's CRC-32C is checked. -/
  | collDataReceive
  /-- COLL_RELEASE_RECEIVE (R325): A RELEASE is received and passed down the tree to the participating clusters. -/
  | collReleaseReceive
  /-- COLL_NORM_RECEIVE (R331): A NORM message is received and folded into the global sum of squares and flag. -/
  | collNormReceive
  /-- COLL_CONTEXT_WAIT_TIMEOUT (R320): A collective packet has waited for a context past the timeout, and COLL_CTX_EXHAUST is raised once. -/
  | collContextWaitTimeout
  /-- COLL_CONTEXT_FREE (R318): A context is freed after completion and after its last packet leaves; a waiting packet or CSTART may take it. -/
  | collContextFree (k : CollKey)
  /-- COLL_HOLD_EXPIRE (R337): A straggler hold timer expires; the node folds the values present, sets LATE and counts a non-determinism event. -/
  | collHoldExpire (k : CollKey) (chunk : Nat)
  /-- COLL_COMPLETE (R317): A collective completes on a module; results and STATUS are written and DONE_MAP advances. -/
  | collComplete (k : CollKey)
  /-- COLL_CTX_PEAK_RST (R343): Writing COLL_CTX.PEAK_RST sets PEAK to USED. -/
  | collCtxPeakRst (a : Agent) (v : Word)
  /-- PRESS_STEP_APPLY (R352): Once Q and F are delivered and no earlier step is held, the press units apply or skip the step. -/
  | pressStepApply
  /-- PRESS_STEP_COMPLETE (R355): Every press unit has written its versions; the header advances, and the step commits or is held. -/
  | pressStepComplete
  /-- MANGLE_PASS_START (R366): A pass begins by granting steps 1 and 2 to the predecessor once the previous pass's releases are complete. -/
  | manglePassStart
  /-- MANGLE_SEND_OWN (R366): The module's own block is sent as step 1 once GO and the successor's GRANT allow. -/
  | mangleSendOwn
  /-- MANGLE_DATA_RECEIVE (R366): A mangle part is received into the slot, CRC-checked, and ARR is signalled when all eight parts are written. -/
  | mangleDataReceive
  /-- MANGLE_FORWARD (R366): A slot is forwarded as the next step once its GRANT, and under CARRY its releases, are in. -/
  | mangleForward
  /-- MANGLE_GRANT_SEND (R366): A GRANT is sent to the predecessor once the slot is released and forwarded. -/
  | mangleGrantSend
  /-- MANGLE_GRANT_RECEIVE (R366): A GRANT from the successor is received. -/
  | mangleGrantReceive
  /-- MANGLE_PLAN_END (R368): A plan ends after PASSES passes or on a job stop, and its grants are withdrawn. -/
  | manglePlanEnd
  /-- GCT_SYNC_REQ_SEND (R377): A member sends SYNC_REQ to its parent every 1 µs or 10 µs. -/
  | gctSyncReqSend
  /-- GCT_SYNC_REQ_RECEIVE (R378): A parent stamps an arriving SYNC_REQ and returns a SYNC_RSP. -/
  | gctSyncReqReceive
  /-- GCT_SYNC_RSP_RECEIVE (R378): A child computes θ and δ, steps or slews its counter, and updates SYNCED. -/
  | gctSyncRspReceive
  /-- GCT_SYNC_LOSS_TIMEOUT (R381): No SYNC_RSP arrives for 100 µs; SYNCED clears and GCT_LOSS is raised. -/
  | gctSyncLossTimeout
  /-- GCT_WRAP (R390): The counter wraps to 0, setting OVF and firing the overflow interrupt. -/
  | gctWrap
  /-- GCT_COMPARE (R392): The counter reaches GCT_CMP and the compare interrupt fires. -/
  | gctCompare
  /-- GCT_SET_WRITE (R391): A committing write of GCT_SET sets the counter when no job runs, or is rejected with SET_REJECT. -/
  | gctSetWrite (a : Agent) (hi : Bool) (v : Word)
  /-- GCT_CMP_WRITE (R392): A write of GCT_CMP sets the compare value without firing for a value already passed. -/
  | gctCmpWrite (a : Agent) (hi : Bool) (v : Word)
  /-- LEDGER_TAKE_REPORT (R398): A ledger takes one report per cycle, round-robin from its queues, as an entry or into its summary table. -/
  | ledgerTakeReport (l : LedgerId)
  /-- REGION_LEDGER_FORWARD (R399): A region forwards its oldest entry to the device ledger in its turn on the die's forwarding path. -/
  | regionLedgerForward (die : Die)
  /-- LDG_HEAD_WRITE (R401): A write of LDG_HEAD frees the oldest entries and then moves summary entries into the ledger. -/
  | ldgHeadWrite (a : Agent) (v : Word)
  /-- LDG_CLR_FIRST (R428): Writing LDG_CLR.FIRST empties the first-error slot. -/
  | ldgClrFirst (a : Agent) (v : Word)
  /-- LDG_CLR_LOST (R428): Writing LDG_CLR.LOST sets LDG_LOST to 0. -/
  | ldgClrLost (a : Agent) (v : Word)
  /-- PATTERN_BOOK_COMPLETE (R407): A book finishes; units that differ are field-patched or logged as marginal, with PATTERN_FAIL. -/
  | patternBookComplete (diffs : List BookDiff)
  /-- MEND_PACKET_RECEIVE (R416): A parity holder receives a parity delta or END(r) and forms its next parity version. -/
  | mendPacketReceive
  /-- MEND_BARRIER_COMPLETE (R416): The group barrier completes; the next parity becomes current, logs are cleared and the mended step advances. -/
  | mendBarrierComplete
  /-- GUILD_FAULT_RECEIVE (R418): A guild agent receives a FAULT, floods it onward if it is new, and stops the slice's jobs. -/
  | guildFaultReceive
  /-- GUILD_GATHER_EXPIRE (R419): The coordinator's 500 µs gathering ends and it floods a VERDICT. -/
  | guildGatherExpire
  /-- GUILD_VERDICT_RECEIVE (R420): A VERDICT part is received and flooded; a member holding every part adopts it and sends VACK. -/
  | guildVerdictReceive
  /-- GUILD_VACK_RECEIVE (R421): A VACK is received and flooded toward the coordinator. -/
  | guildVackReceive
  /-- GUILD_VACK_TIMEOUT (R421): Missing VACKs at 1.58 ms make the coordinator flood a new VERDICT with ROUND + 1. -/
  | guildVackTimeout
  /-- GUILD_REPORT (R421): A member holding the final verdict writes GUILD_STATUS, writes GUILD_FAULT and signals its host. -/
  | guildReport
  /-- GUILD_PARTIAL_TIMEOUT (R422): With no VERDICT 4.5 ms after its first FAULT, a member reports PARTIAL to its host. -/
  | guildPartialTimeout
  /-- REC_STEP_COMPLETE (R423): A recovery step completes, REC_JOURNAL advances and the next step begins. -/
  | recStepComplete (shards : List (Nat × List Byte))
  /-- APR_UNIT_RECEIVE (R424): In COPY the apprentice receives and checks one 4 KiB unit of the tutor's state. -/
  | aprUnitReceive (unit : Nat) (data : List Byte) (crc : Word) (last : Bool)
  /-- APR_DELTA_RECEIVE (R424): In CATCH the apprentice applies the committed deltas of one step. -/
  | aprDeltaReceive (deltas : List (Nat × Byte)) (caughtUp : Bool)
  /-- APR_SHADOW_STEP (R424): In SHADOW the apprentice applies a press step and compares records with the tutor. -/
  | aprShadowStep (agree : Bool)
  /-- APR_TUTOR_TIMEOUT (R425): The tutor stops responding for 10 ms and the apprentice enters ABORTED. -/
  | aprTutorTimeout
  /-- RING_OPEN_REQUEST (R433): A write of HIF_RING_OPEN_HI requests a ring open, or is dropped when 16 requests are held. -/
  | ringOpenRequest (a : Agent) (v : Word)
  /-- RING_OPEN_COMPLETE (R434): The control block is read and a ring is assigned, or the open fails with a status. -/
  | ringOpenComplete (rcb : List Byte) (hostOk : Bool)
  /-- RING_CLOSE (R436): A write of HIF_RING_CLOSE stops fetching on the ring. -/
  | ringClose (a : Agent) (v : Word)
  /-- RING_CLOSE_COMPLETE (R436): A closing ring completes its accepted dockets and reads closed. -/
  | ringCloseComplete (r : Ring)
  /-- DOORBELL_TAIL (R435): A doorbell write updates TAIL and RHEAD of an owned ring, or is dropped. -/
  | doorbellTail (f : Fn) (r : Ring) (v : DWord)
  /-- DOORBELL_RESUME (R440): A doorbell with RESUME sets the fetch head from the companion word and leaves HALTED or LINKDOWN. -/
  | doorbellResume (f : Fn) (r : Ring) (v : DWord)
  /-- DOORBELL_COMPANION_WRITE (R440): A write of the companion word stores the head for a later RESUME. -/
  | doorbellCompanionWrite (f : Fn) (r : Ring) (v : DWord)
  /-- DOCKET_FETCH (R438): A docket is fetched from pending slots and accepted, or fails and halts its ring. -/
  | docketFetch (r : Ring) (bytes : List Byte)
  /-- DOCKET_START (R482): The dispatcher starts an accepted docket chosen by starvation, class and round-robin, charging its chit. -/
  | docketStart
  /-- DOCKET_COMPLETE (R442): A docket's effect finishes; its reply is written and its vector may be signalled. -/
  | docketComplete (r : Ring)
  /-- NOP_DOCKET (R441): A NOP docket completes at once. -/
  | nopDocket (r : Ring)
  /-- WRITE_DOCKET (R448): A WRITE docket moves host data into device sectors, clearing their stains. -/
  | writeDocket (r : Ring) (data : List Byte) (hostOk : Bool)
  /-- READ_DOCKET (R448): A READ docket moves device data to the host; stained data stops the job. -/
  | readDocket (r : Ring) (hostOk : Bool)
  /-- STREAM_DOCKET (R117): A STREAM docket places an instruction block in its cluster's stream queue. -/
  | streamDocket (r : Ring)
  /-- ALLOC_DOCKET (R447): An ALLOC docket maps consecutive frames of one tier entirely, or refuses or reports a shortfall. -/
  | allocDocket (r : Ring)
  /-- FREE_DOCKET (R448): A FREE docket unmaps frames while no job runs in the window. -/
  | freeDocket (r : Ring)
  /-- LAUNCH_DOCKET (R444): A LAUNCH docket binds a job to its window, loads its clusters and schedules issue at T_s. -/
  | launchDocket (r : Ring)
  /-- STOP_DOCKET (R136): A STOP docket stops the job. -/
  | stopDocket (r : Ring)
  /-- COMM_DOCKET (R312): A COMM docket writes a communicator record. -/
  | commDocket (r : Ring)
  /-- PRESS_DOCKET (R345): A PRESS docket registers a press table and sets PRESS_CFG. -/
  | pressDocket (r : Ring)
  /-- MANGLE_DOCKET (R365): A MANGLE docket registers and runs a ring plan, or is rejected while a plan runs. -/
  | mangleDocket (r : Ring)
  /-- EXPORT_DOCKET (R364): An EXPORT docket writes a manifest of the last committed version. -/
  | exportDocket (r : Ring)
  /-- FITREC_DOCKET (R410): A FITREC docket writes the records of a held step. -/
  | fitrecDocket (r : Ring)
  /-- COMMIT_DOCKET (R358): A COMMIT docket commits a held step, and a waiting step may then be applied. -/
  | commitDocket (r : Ring)
  /-- QP_CREATE_DOCKET (R453): A QP docket with ACTION 0 creates a queue pair. -/
  | qpCreateDocket (r : Ring)
  /-- QP_READY_DOCKET (R453): A QP docket with ACTION 1 moves a queue pair to RTR and RTS. -/
  | qpReadyDocket (r : Ring)
  /-- QP_DESTROY_DOCKET (R453): A QP docket with ACTION 2 destroys a queue pair. -/
  | qpDestroyDocket (r : Ring)
  /-- QP_KEY_CREATE_DOCKET (R453): A QP docket with ACTION 3 creates a memory key over a range of the window. -/
  | qpKeyCreateDocket (r : Ring)
  /-- QP_KEY_DESTROY_DOCKET (R453): A QP docket with ACTION 4 destroys a memory key. -/
  | qpKeyDestroyDocket (r : Ring)
  /-- POST_DOCKET (R454): A POST docket posts RoCEv2 work requests that complete in order per queue pair. -/
  | postDocket (r : Ring)
  /-- WINDOW_DOCKET (R196): A WINDOW docket writes MEM_TW_CFG_n, or refuses a duplicate JOB. -/
  | windowDocket (r : Ring)
  /-- PHASE_DOCKET (R300): A PHASE docket is accepted for a switch at T_d, or rejected during a switch. -/
  | phaseDocket (r : Ring)
  /-- MEND_DOCKET (R411): A MEND docket configures mending and places the parity areas and logs. -/
  | mendDocket (r : Ring)
  /-- REBUILD_DOCKET (R423): A REBUILD docket starts or repeats the recovery steps under a recovery ID. -/
  | rebuildDocket (r : Ring)
  /-- GUILD_DOCKET (R417): A GUILD docket reports a fault, and a FAULT is flooded. -/
  | guildDocket (r : Ring)
  /-- APPRENTICE_DOCKET (R424): An APPRENTICE docket pairs an apprentice with a tutor and enters COPY. -/
  | apprenticeDocket (r : Ring)
  /-- INJECT_DOCKET (R403): An INJECT docket arms an injection point, or is rejected. -/
  | injectDocket (r : Ring)
  /-- PATTERN_DOCKET (R405): A PATTERN docket loads and verifies a pattern book, or rejects it. -/
  | patternDocket (r : Ring) (image : List Byte) (hostOk : Bool)
  /-- JOB_END (R446): Every cluster of a job has ended or stopped; the end-status block is written and ENDVEC is signalled. -/
  | jobEnd (w : Win)
  /-- PCIE_LINK_DOWN (R449): The PCIe link goes down or hot-resets; rings enter LINKDOWN and host transfers are abandoned. -/
  | pcieLinkDown
  /-- PCIE_LINK_UP (R450): The PCIe link returns, and rings report their state for resumption. -/
  | pcieLinkUp (rate : Fin 7) (width : Fin 17) (flit : Bool)
  /-- PCIE_FLR (R449): A Function Level Reset closes the function's rings once their accepted dockets complete. -/
  | pcieFlr (f : Fn)
  /-- PCIE_PERST_ASSERT (R490): PCIE_PERST_L goes low, resetting the port only, which is treated as a link down. -/
  | pciePerstAssert
  /-- ETH_PACKET_RECEIVE (R452): A RoCEv2 packet is received on an Ethernet port, including congestion notifications. -/
  | ethPacketReceive (port : Fin 2) (p : EthPacket)
  /-- ETH_WORK_REQUEST_COMPLETE (R454): A posted work request completes on its queue pair. -/
  | ethWorkRequestComplete (port : Fin 2) (qpn : Fin 4096) (ok : Bool) (data : List Byte)
  /-- ETH_PORT_DOWN (R451): An Ethernet port goes down, including on loss of ETH_REFCLK. -/
  | ethPortDown (port : Fin 2)
  /-- ETH_PORT_UP (R451): An Ethernet port comes up. -/
  | ethPortUp (port : Fin 2)
  /-- IRQ_SOURCE_PENDING (R459): An edge latch or level condition makes an interrupt source pending within 100 ns. -/
  | irqSourcePending (src : Fin 1024)
  /-- IRQ_OFFER_UPDATE (R461): Each I/O cycle the controller recomputes offers to the management processors and sends host-routed sources. -/
  | irqOfferUpdate
  /-- IRQ_CLAIM (R462): A read of IRQ_CLAIM_p claims the offered source, or returns 1,023 or 0. -/
  | irqClaim (a : Agent) (p : Fin 4)
  /-- IRQ_COMPLETE (R463): A write of IRQ_COMPLETE_p ends service of a source. -/
  | irqComplete (a : Agent) (p : Fin 4) (v : Word)
  /-- IRQ_HOLD_EXPIRE (R467): A group's hold-off timer ends and its pending sources become eligible. -/
  | irqHoldExpire (g : Fin 64)
  /-- IRQ_HOST_DONE (R469): A write of IRQ_HOST_DONE ends host service of a level source, which is resent if still asserted. -/
  | irqHostDone (a : Agent) (v : Word)
  /-- IRQ_SWSET (R471): A write of IRQ_SWSET makes a software source pending. -/
  | irqSwset (a : Agent) (v : Word)
  /-- IRQ_SWCLR (R472): A write of IRQ_SWCLR clears a software source's pending state. -/
  | irqSwclr (a : Agent) (v : Word)
  /-- MSIX_VECTOR_UNMASK (R470): A masked MSI-X vector is unmasked and its pending message is sent. -/
  | msixVectorUnmask (f : Fn) (vec : Fin 2048)
  /-- MSIX_ENABLE (R470): A function's MSI-X is enabled again and its held edge sources are sent. -/
  | msixEnable (f : Fn)
  /-- CHIT_BOUNDARY (R479): At each 10 µs boundary the governor updates chits, reads sensors, recomputes caps and sets region clocks. -/
  | chitBoundary (rd : Readings)
  /-- THERMTRIP_ASSERT (R485): Within 1 ms of a trip, every region clock stops, THERMTRIP_L goes low and the trip state is entered. -/
  | thermtripAssert
  /-- REGION_CLOCK_CHANGE_COMPLETE (R475): A region's voltage and clock change completes. -/
  | regionClockChangeComplete (die : Die) (reg : Fin 21)
  /-- MODULE_POWER_CHECK (R483): Every 100 µs the 1 ms module power is compared with LIMIT_W, and every L_d is lowered or raised. -/
  | modulePowerCheck (watts : Nat)
  /-- PWR_BRAKE_ASSERT (R484): PWR_BRAKE_L goes low and every region is brought to step 0 within 10 µs. -/
  | pwrBrakeAssert
  /-- DOCKET_STARVING (R482): A ready docket that has not fitted for STARVE boundaries becomes starving. -/
  | docketStarving (r : Ring)
  /-- DOCKET_STARVE_FORCE (R482): A docket starving for a further STARVE boundaries starts whether it fits or not. -/
  | docketStarveForce (r : Ring)
  /-- COLD_RESET (R490): Power-up or RESET_L held low for 10 µs cold-resets the module outside the always-on domain. -/
  | coldReset
  /-- BOOT_START (R494): RESET_L rises, or a warm reset's stop ends, and the boot sequence runs, failing with a BOOT_WHY code where a check fails. -/
  | bootStart (f : BootFinds)
  /-- BOOT_READY (R494): The boot reaches READY; the counter and BOOT_WHY are cleared and function 0 answers. -/
  | bootReady
  /-- BOOT_TIMEOUT (R494): READY is not reached within 2 s and the boot fails with BOOT_TIMEOUT. -/
  | bootTimeout
  /-- BOOT_RETRY_TIMER (R495): 100 ms after a failed boot, a warm reset is requested with CAUSE 4. -/
  | bootRetryTimer
  /-- BOOT_CTL_WARM (R492): Writing BOOT_CTL.WARM requests a warm reset. -/
  | bootCtlWarm (a : Agent) (v : Word)
  /-- SMBUS_WARM_RESET (R490): The SMBus warm-reset command requests a warm reset. -/
  | smbusWarmReset
  /-- WARM_RESET (R492): A warm reset begins; jobs stop, ledgers are forwarded, caches are written back and DRAM enters self-refresh. -/
  | warmReset
  /-- BOOT_CTL_CLR_COUNT (R502): Writing BOOT_CTL.CLR_COUNT sets the boot counter to 0. -/
  | bootCtlClrCount (a : Agent) (v : Word)
  /-- BOOT_CTL_SETPREF (R500): Writing BOOT_CTL.SETPREF writes PREFER into the flash header. -/
  | bootCtlSetpref (a : Agent) (v : Word)
  /-- BOOT_CTL_RAISE_FLOOR (R500): Writing BOOT_CTL.RAISE_FLOOR blows rollback fuses up to the running image's epoch, unless FALLBACK is 1. -/
  | bootCtlRaiseFloor (a : Agent) (v : Word)
  /-- BOOT_FLASH_PROGRAM (R500): A write of BOOT_FLASH_DATA programs 4 bytes at ADDR where permitted, or sets REJECT. -/
  | bootFlashProgram (a : Agent) (v : Word)
  /-- BOOT_FLASH_DATA_READ (R505): A read of BOOT_FLASH_DATA returns 4 bytes at ADDR and advances ADDR, unless BUSY. -/
  | bootFlashDataRead (a : Agent)
  /-- BOOT_FLASH_ERASE (R500): Writing BOOT_FLASH_CMD.ERASE erases the sector at ADDR where permitted, or sets REJECT. -/
  | bootFlashErase (a : Agent) (v : Word)
  /-- FLASH_OP_COMPLETE (R500): A flash program or erase finishes and BUSY clears. -/
  | flashOpComplete
  /-- VSTBY_LOSS (R491): Loss of VSTBY clears the boot counter, BOOT_WHY and BOOT_LAST. -/
  | vstbyLoss
  /-- RAIL_UNDERVOLTAGE (R510): A rail below tolerance for 5 µs acts as RESET_L low, with a cold reset on its return. -/
  | railUndervoltage (rail : Fin 24)
  /-- REFCLK_LOSS (R512): REFCLK absent for 10 µs acts as RESET_L low. -/
  | refclkLoss
  /-- SMBUS_ALERT_RESPONSE (R515): The module answers the SMBus Alert Response Address while SMB_ALERT_L is low. -/
  | smbusAlertResponse
  /-- FLIT_LOCK_LOSS (R291): A link receiver that is not UP loses its partner's signal or flit lock, the partner reads ABSENT, and a fenced link must train again once it is unfenced. -/
  | flitLockLoss (link : Link)
  /-- MODULE_WIDE_FAILURE (R417): A module-wide failure of the I/O die or a base die in service stops every job, and the guild agent detects it and floods FAULT. -/
  | moduleWideFailure (die : Option Die)
  /-- PWR_BRAKE_RELEASE (R484): PWR_BRAKE_L returns high, so that PWR_MOD_STATUS.BRAKE clears and rung 6 may release at the following boundaries. -/
  | pwrBrakeRelease
  /-- RAIL_RETURN (R510): A rail that fell below tolerance returns to it, and the module performs a cold reset and boots with BOOT_LAST.CAUSE 1. -/
  | railReturn (rail : Fin 24)
  /-- REFCLK_RETURN (R512): REFCLK returns after an absence that acted as RESET_L low, and the module cold-resets and boots as on a rail's return under R510. -/
  | refclkReturn
  /-- CONFIGURATION_REQUEST (R494): A PCIe configuration request to function 0 is answered with Configuration Request Retry Status before READY, and is completed at READY and in shuttered mode. -/
  | configurationRequest
  deriving DecidableEq, Repr

end Sys2Proof
end

