-- ==== Sys2Proof/Decode.lean ====
section
/-!
DEFINITION. Words that spell commands. The table of commands gives no row any bits, so that no word spells
a command; the 128-bit words of the sequencer's instructions reach the module inside the instruction
commands of `Instr`, as bits [127:8] of the word.
-/
namespace Sys2Proof

/-- The command that a word spells by the table's bits: none, since no row of the table has bits. -/
def decodeTableWord (_nbits _w : Nat) : Option Instr := none

end Sys2Proof
end

