-- ==== Sys2Proof/Machine/Bits.lean ====
section
/-!
DEFINITION. Bit ranges and little-endian bytes (00_scope.md, Numbers, units and names: a bit range is written
[msb:lsb], and multi-byte values are little-endian in every memory, register, flit and docket).
-/
namespace Sys2Proof.Machine
open Sys2Proof

/-- Bits [hi:lo] of `n`. -/
def seg (n hi lo : Nat) : Nat := n / 2 ^ lo % 2 ^ (hi + 1 - lo)

/-- Bit `i` of `n`. -/
def bitAt (n i : Nat) : Bool := n / 2 ^ i % 2 == 1

/-- `n` with bits [hi:lo] replaced by the low bits of `v`. -/
def setSeg (n hi lo v : Nat) : Nat :=
  n % 2 ^ lo + 2 ^ lo * (v % 2 ^ (hi + 1 - lo)) + 2 ^ (hi + 1) * (n / 2 ^ (hi + 1))

/-- 0 or 1. -/
def b2n (b : Bool) : Nat := if b then 1 else 0

/-- The low `w` bits of `n` as a two's-complement integer. -/
def sgn (w n : Nat) : Int :=
  if n % 2 ^ w < 2 ^ (w - 1) then (n % 2 ^ w : Nat) else (n % 2 ^ w : Nat) - (2 ^ w : Nat)

/-- The low `w` bits of an integer. -/
def wrap (w : Nat) (x : Int) : Nat := (x % (2 ^ w : Nat)).toNat

/-- A value from its bytes, the lowest-addressed byte first. -/
def leNat : List Byte → Nat
  | [] => 0
  | b :: t => b.toNat + 256 * leNat t

/-- The `n` bytes of `v`, the least significant first. -/
def leBytes : Nat → Nat → List Byte
  | 0, _ => []
  | n + 1, v => BitVec.ofNat 8 v :: leBytes n (v / 256)

/-- Byte `i` of a list, 0 past its end. -/
def byteAt (l : List Byte) (i : Nat) : Byte := l.getD i 0

/-- The value of bytes `i` to `i + n - 1` of a list, absent bytes being 0. -/
def fieldAt (l : List Byte) (i n : Nat) : Nat := leNat ((l.drop i).take n)

/-- `n` bytes of a list from byte `i`, absent bytes being 0. -/
def cut (l : List Byte) (i n : Nat) : List Byte := (List.range n).map fun j => byteAt l (i + j)

/-- The list with bytes `i`, `i + 1`, … replaced by those of `v`. -/
def paste (l : List Byte) (i : Nat) (v : List Byte) : List Byte :=
  (List.range (max l.length (i + v.length))).map fun j =>
    if i ≤ j ∧ j < i + v.length then byteAt v (j - i) else byteAt l j

/-- Every byte of a list is 0. -/
def allZero (l : List Byte) : Bool := l.all (· == 0)

/-- `n` bytes of 0. -/
def zeros (n : Nat) : List Byte := List.replicate n 0

/-- Whether `n` is a power of two from `lo` to `hi`. -/
def powerOfTwoIn (lo hi n : Nat) : Bool := lo ≤ n && n ≤ hi && n == 2 ^ Nat.log2 n

/-- `min n (2 ^ w - 1)`: a count of `w` bits that saturates. -/
def satTo (w n : Nat) : Nat := min n (2 ^ w - 1)

/-- Ceiling of a quotient. -/
def ceilDiv (a b : Nat) : Nat := (a + b - 1) / b

/-- The list with its element `i` changed by `f`. -/
def alter {α : Type} (l : List α) (i : Nat) (f : α → α) : List α :=
  match l, i with
  | [], _ => []
  | a :: t, 0 => f a :: t
  | a :: t, i + 1 => a :: alter t i f

/-- A rising list of naturals with `x` inserted once. -/
def insertUp (x : Nat) : List Nat → List Nat
  | [] => [x]
  | y :: t => if x < y then x :: y :: t else if x = y then y :: t else y :: insertUp x t

end Sys2Proof.Machine
end

