-- ==== Sys2Proof/Machine/Codes.lean ====
section
/-!
DEFINITION. Check codes and the generator: the Reed–Solomon codes over GF(2^8) of R208, R250 and R414, the
CRC-32 of IEEE 802.3 (R24, R250), the CRC-32C (R333), SECDED outcomes (R213) and Philox-4x32-10 (R388).
-/
namespace Sys2Proof.Machine
open Sys2Proof

/-! ### GF(2^8), field polynomial x^8 + x^4 + x^3 + x^2 + 1 (R208) -/

/-- Times α. -/
def gfDouble (a : Byte) : Byte :=
  if a.msb then (a <<< 1) ^^^ 0x1D else a <<< 1

/-- `n` steps of a product: the bits of `b` from the lowest. -/
def gfMulAux : Nat → Byte → Byte → Byte → Byte
  | 0, _, _, acc => acc
  | n + 1, a, b, acc =>
    gfMulAux n (gfDouble a) (b >>> 1) (if b.getLsbD 0 then acc ^^^ a else acc)

/-- Product in the field. -/
def gfMul (a b : Byte) : Byte := gfMulAux 8 a b 0

/-- α^n. -/
def gfPow : Nat → Byte
  | 0 => 1
  | n + 1 => gfDouble (gfPow n)

/-- a^n. -/
def gfExp (a : Byte) : Nat → Byte
  | 0 => 1
  | n + 1 => gfMul a (gfExp a n)

/-- Inverse of an element that is not 0. -/
def gfInv (a : Byte) : Byte := gfExp a 254

/-- Exponent of α that gives `a`, searched from `k`; none for 0. -/
def gfLogFrom : Nat → Nat → Byte → Byte → Option Nat
  | 0, _, _, _ => none
  | f + 1, k, p, a => if p = a then some k else gfLogFrom f (k + 1) (gfDouble p) a

/-- Exponent of α that gives `a`. -/
def gfLog (a : Byte) : Option Nat := gfLogFrom 255 0 1 a

/-- Value at `x` of the polynomial whose coefficients are listed from the constant term. -/
def gfEval (x : Byte) : List Byte → Byte
  | [] => 0
  | c :: t => c ^^^ gfMul x (gfEval x t)

/-- Syndromes at the roots α^0 … α^(n−1). Symbol i is the coefficient of x^i (DEDUCED, log 8: the spec numbers the
symbols and gives the roots alone). -/
def syndromes (n : Nat) (w : List Byte) : List Byte :=
  (List.range n).map fun j => gfEval (gfPow j) w

/-- The check symbols that complete `data` at positions `data.length` …: the `n` values solve the syndrome
equations, found by Lagrange elimination over the check positions. -/
def rsCheck (n : Nat) (data : List Byte) : List Byte :=
  let k := data.length
  -- Values at the check positions: c_i solves Σ c_i x_i^j = S_j with x_i = α^(k+i), for j = 0 … n−1.
  let s := syndromes n data
  let xs := (List.range n).map fun i => gfPow (k + i)
  (List.range n).map fun i =>
    let xi := xs.getD i 0
    let others := (List.range n).filter (· != i) |>.map fun l => xs.getD l 0
    -- Coefficients of Π (x + x_l), from the constant term.
    let poly := others.foldl (fun p x =>
      List.zipWith (· ^^^ ·) (0 :: p) ((p.map (gfMul x)) ++ [0])) [1]
    let num := (List.zipWith gfMul poly s).foldl (· ^^^ ·) 0
    let den := others.foldl (fun d x => gfMul d (xi ^^^ x)) 1
    gfMul num (gfInv den)

/-- Outcome of a decoding: clean; one symbol corrected, at the position and by the error value given; or in
error beyond correction. -/
inductive RsOut where
  | clean
  | corrected (pos : Nat) (err : Byte)
  | bad
  deriving DecidableEq, Repr

/-- Decode with correction of one symbol (R210): the error value is S_0, and S_(j+1)/S_j is α^position. -/
def rsDecode1 (n : Nat) (w : List Byte) : RsOut :=
  let s := syndromes n w
  if s.all (· == 0) then .clean
  else
    let s0 := s.getD 0 0
    let s1 := s.getD 1 0
    if s0 = 0 then .bad
    else
      let x := gfMul s1 (gfInv s0)
      match gfLog x with
      | none => .bad
      | some p =>
        if p < w.length && ((List.range n).all fun j => s.getD j 0 == gfMul s0 (gfExp x j))
        then .corrected p s0 else .bad

/-- The word with symbol `p` corrected by `e`. -/
def fixSym (w : List Byte) (p : Nat) (e : Byte) : List Byte := alter w p (· ^^^ e)

/-- Decode with correction of two symbols, for a code of four check symbols (R250): the corrected word, or none. -/
def rsDecode2 (w : List Byte) : Option (List Byte) :=
  match rsDecode1 4 w with
  | .clean => some w
  | .corrected p e => some (fixSym w p e)
  | .bad =>
    let s := syndromes 4 w
    let g := fun i => s.getD i 0
    let det := gfMul (g 0) (g 2) ^^^ gfMul (g 1) (g 1)
    if det = 0 then none
    else
      let inv := gfInv det
      -- Locator 1 + a x + b x^2 with S_2 = a S_1 + b S_0 and S_3 = a S_2 + b S_1.
      let a := gfMul inv (gfMul (g 0) (g 3) ^^^ gfMul (g 1) (g 2))
      let b := gfMul inv (gfMul (g 1) (g 3) ^^^ gfMul (g 2) (g 2))
      let roots := (List.range w.length).filter fun p =>
        let x := gfPow p
        gfMul x x ^^^ gfMul a x ^^^ b == 0
      match roots with
      | [p, q] =>
        let x := gfPow p
        let y := gfPow q
        let ey := gfMul (g 1 ^^^ gfMul x (g 0)) (gfInv (x ^^^ y))
        let ex := g 0 ^^^ ey
        if ex = 0 || ey = 0 then none
        else some (fixSym (fixSym w p ex) q ey)
      | _ => none

/-! ### Cyclic redundancy checks -/

/-- One byte of a reflected CRC-32 with polynomial `poly`. -/
def crcBits : Nat → Word → Word → Word
  | 0, _, c => c
  | n + 1, poly, c =>
    crcBits n poly (if c.getLsbD 0 then (c >>> 1) ^^^ poly else c >>> 1)

/-- A reflected CRC-32, all ones at the start and inverted at the end. -/
def crcWith (poly : Word) (l : List Byte) : Word :=
  ~~~(l.foldl (fun c b => crcBits 8 poly (c ^^^ b.setWidth 32)) 0xFFFFFFFF)

/-- CRC-32 with the IEEE 802.3 polynomial. -/
def crc32 (l : List Byte) : Word := crcWith 0xEDB88320 l

/-- CRC-32C: polynomial 0x1EDC6F41, reflected. -/
def crc32c (l : List Byte) : Word := crcWith 0x82F63B78 l

/-! ### SECDED (R213) -/

/-- What a SECDED word does with `n` flipped bits: 0 clean, 1 corrected, 2 detected; more escape or not. -/
inductive Secded where
  | clean
  | corrected
  | detected
  | beyond
  deriving DecidableEq, Repr

/-- The outcome by the number of flipped bits. -/
def secded : Nat → Secded
  | 0 => .clean
  | 1 => .corrected
  | 2 => .detected
  | _ => .beyond

/-! ### Philox-4x32-10 (R387, R388) -/

/-- `n` rounds, the first without a key step. -/
def philoxRounds : Nat → Bool → (Nat × Nat × Nat × Nat) → Nat → Nat → (Nat × Nat × Nat × Nat)
  | 0, _, c, _, _ => c
  | n + 1, first, (c0, c1, c2, c3), k0, k1 =>
    let k0 := if first then k0 else (k0 + 0x9E3779B9) % 2 ^ 32
    let k1 := if first then k1 else (k1 + 0xBB67AE85) % 2 ^ 32
    let p0 := 0xD2511F53 * c0
    let p1 := 0xCD9E8D57 * c2
    philoxRounds n false
      ((p1 / 2 ^ 32) ^^^ c1 ^^^ k0, p1 % 2 ^ 32, (p0 / 2 ^ 32) ^^^ c3 ^^^ k1, p0 % 2 ^ 32) k0 k1

/-- The four output words. -/
def philox (c0 c1 c2 c3 k0 k1 : Nat) : Nat × Nat × Nat × Nat :=
  philoxRounds 10 true (c0, c1, c2, c3) k0 k1

/-- Word position `w` of a stream of a core (Table 12.4, R388). -/
def philoxWord (seed gstep stream lcore coord w : Nat) : Nat :=
  let w := w % 2 ^ 58
  let b := w / 4
  let (x0, x1, x2, x3) := philox (b % 2 ^ 32) (b / 2 ^ 32 % 2 ^ 24 + stream % 256 * 2 ^ 24)
    (lcore % 2 ^ 17 + coord % 2 ^ 12 * 2 ^ 17) gstep (seed % 2 ^ 32) (seed / 2 ^ 32 % 2 ^ 32)
  match w % 4 with
  | 0 => x0
  | 1 => x1
  | 2 => x2
  | _ => x3

end Sys2Proof.Machine
end

