-- ==== Sys2Proof/Config.lean ====
section
/-!
DEFINITION. What the spec leaves open and no table of the state holds: free values. Each is opaque, so that no
proof can rest on what it is; a meaning applies it to the number of free values used so far (`State.free`, log 2)
or to the operands it depends on.
-/
namespace Sys2Proof.Config

/-- A free bit. -/
opaque freeBit : Nat → Bool

/-- A free byte, by its number and its place in the value. -/
opaque freeByte : Nat → Nat → BitVec 8

/-- What an operation gives whose selection or operand format is unlisted: a function of the operation and its
operands (R336, R347; log 32). -/
opaque freeFold : Nat → Nat → Nat → Nat → Nat

/-- A free natural number. -/
opaque freeNat : Nat → Nat

/-- How far the copy of the global counter on a base die lies from the I/O die's counter at a count, in 1/64 ns; R375
bounds it. -/
opaque freeSkew : Nat → Nat → Int

/-- The rate correction, in ppm, that a child sets from its old correction, the change in its offset (1/64 ns) and the
time between two exchanges (1/64 ns): R378 gives its use and no formula. -/
opaque freeRate : Int → Int → Nat → Int

/-- Bank and row of an HBM4 sector in its pseudo-channel: R206 gives what they are made of and no layout. -/
opaque hbmBank : Nat → Nat
opaque hbmRow : Nat → Nat

/-- Activations of a bank, above the first, at which an HBM4 stack asks for refresh management (R214): a property of the
stacks fitted. -/
opaque hbmThresholdAbove : Nat → Nat
/-- Activations of a bank at which an HBM4 stack asks for refresh management (R214): at least one. -/
def hbmThreshold (stack : Nat) : Nat := hbmThresholdAbove stack + 1

end Sys2Proof.Config
end

