-- ==== Sys2Proof/Machine/State.lean ====
section
/-!
DEFINITION. The state of the module as plain data, one structure for each block of the spec, each field
with its value at reset, the fault and refusal reasons, and `State.reset`.

A table (`Tbl`) lists only what differs from the reset value of its entries. Fields marked `MODEL` are the
model's own bookkeeping and no register of the spec.
-/
namespace Sys2Proof.Machine
open Sys2Proof

/-! ### Fuses, pins and identity (01_organisation.md, 18_electrical_and_package.md) -/

/-- What the fuses and the straps of the substrate hold. DESIGN CHOICE (log 3): a grade A part of serial 0 with no bad
unit, its dies strapped in order. -/
structure Fuse where
  /-- `ORG_GRADE.GRADE`, 2 bits: 0 is grade A, 1 is grade B; R46, Table 1.9. -/
  grade : BitVec 2 := 0
  /-- `ORG_ID` stepping letter, 4 bits, 1 for B; R46, Table 1.8. -/
  stepMajor : BitVec 4 := 1
  /-- `ORG_ID` stepping number, 4 bits; R46, Table 1.8. -/
  stepMinor : BitVec 4 := 0
  /-- `ORG_ID.PART`, 16 bits; R46, Table 1.8. -/
  part : BitVec 16 := 0x4B57
  /-- `ORG_GRADE.FMAX_10M`, 8 bits; R40, Table 1.9. -/
  fmax : BitVec 8 := 140
  /-- `ORG_GRADE.FMIN_10M`, 8 bits; R40, Table 1.9. -/
  fmin : BitVec 8 := 60
  /-- `ORG_SERIAL`, 64 bits; R46, Table 1.10. -/
  serial : DWord := 0
  /-- Physical cores, clusters and regions marked bad at manufacture; R30. -/
  bad : List PhysUnit := []
  /-- Bad physical near-memory channels (base die, near-memory die × 33 + channel); R217. -/
  badNm : List (Nat × Nat) := []
  /-- Bad HBM4 pseudo-channels (stack, pseudo-channel); R218. -/
  badHbm : List (Nat × Nat) := []
  /-- Positions strapped in the substrate, 3 bits for each base die and each compute die; R45. -/
  basePos : List (BitVec 3) := [0, 1, 2, 3, 4, 5, 6, 7]
  computePos : List (BitVec 3) := [0, 1, 2, 3, 4, 5, 6, 7]
  /-- SHA-384 digests of the four root keys; R498. -/
  rootKey : Tbl (BitVec 384) := []
  /-- Root keys whose revocation fuse is blown, 4 bits; R498. -/
  rootRevoked : BitVec 4 := 0
  /-- Blown fuses of the 64-fuse rollback field; R498, R500. -/
  rollback : Nat := 0
  /-- Fused `NM_COUPLE_n` masks by 24 × die + n, 21 bits; R226, Table 7.15. -/
  couple : Tbl (BitVec 21) := []
  /-- Fused `PWR_DIE_CFG_d.FTARGET_10M`, 8 bits; Table 16.8. -/
  ftarget : BitVec 8 := 110
  /-- Fused supply voltage of step `i` of physical region `r` of die `d`, by 17 × (21 × d + r) + i, in units of 0.1 mV;
  one that is not listed is the bound of R474. -/
  volt : Tbl (Option Nat) := []
  deriving DecidableEq, Repr

/-- The pins and rails of 18_electrical_and_package.md. Input levels at reset: DESIGN CHOICE (log 3). -/
structure Pins where
  /-- Straps `POS_X..W`, 12 bits laid out under R239; R238, R517. -/
  pos : BitVec 12 := 0
  /-- Straps `TSIZE_X..W` (size − 1), 12 bits laid out as `pos`; R238, R517. -/
  tsize : BitVec 12 := 0
  /-- Strap `SMB_ADDR`, 3 bits; R515. -/
  smbAddr : BitVec 3 := 0
  /-- `RESET_L` is high; R490, R515. -/
  resetHigh : Bool := true
  /-- `PCIE_PERST_L` is high; R490. -/
  perstHigh : Bool := true
  /-- `PWR_BRAKE_L` is high; R484, R515. -/
  brakeHigh : Bool := true
  /-- `THERMTRIP_L` is high; R485. -/
  thermtripHigh : Bool := true
  /-- Rails of Table 18.1 below tolerance, one bit each in the table's order (24 rails); R510. -/
  railsLow : BitVec 24 := 0
  /-- REFCLK is present; R512. -/
  refclk : Bool := true
  /-- PCIE_REFCLK is present; R512. -/
  pcieRefclk : Bool := true
  /-- ETH_REFCLK is present; R512. -/
  ethRefclk : Bool := true
  deriving DecidableEq, Repr

/-- One copy of the field patch record in flash (R35). -/
structure PatchCopy where
  /-- Its sequence number; R35. -/
  seq : Nat := 0
  /-- Its checksum holds; R35. -/
  good : Bool := true
  /-- The units recorded; with `chans`, at most 64 entries; R35. -/
  entries : List PhysUnit := []
  /-- The near-memory channels recorded: (stack, physical channel 0–131); R35, R220. -/
  chans : List (Nat × Nat) := []
  deriving DecidableEq, Repr

/-- The ORG block: patch record and the map in force. -/
structure Org where
  /-- The two flash copies of the field patch record, up to 64 entries each; R35. -/
  copy0 : PatchCopy := {}
  copy1 : PatchCopy := {}
  /-- `ORG_PATCH_STATUS.ACTIVE_COPY`, 1 bit: the copy that the record in force was read from; R46, Table 1.11. -/
  active : Bool := false
  /-- The record in force, from which the map was derived at the last reset: units, and near-memory channels; R30,
  R34, R47, R220. -/
  inForce : List PhysUnit := []
  inForceChans : List (Nat × Nat) := []
  /-- The map has been derived since reset; R30, R494. -/
  mapped : Bool := false
  /-- `ORG_PATCH_STATUS.PENDING`, 1 bit, reset 0; R34, Table 1.11. -/
  pending : Bool := false
  /-- `ORG_PATCH_STATUS.REQ_BUSY`, 1 bit: the entry being written, if any adds one; R36. -/
  busy : Bool := false
  /-- The unit whose flash write is under way; R36. -/
  writing : Option PhysUnit := none
  /-- Units that a pattern book found faulty and that the firmware has still to record, the oldest first; R407. -/
  bookPatches : List PhysUnit := []
  /-- `ORG_PATCH_STATUS.REQ_DONE`, 1 bit, reset 0; R37, Table 1.11. -/
  done : Bool := false
  /-- `ORG_PATCH_STATUS.REQ_REJECT`, 1 bit, reset 0; R36, R37, R38, Table 1.11. -/
  reject : Bool := false
  /-- `ORG_MAP_QUERY` of each agent (its own copy), 17 bits, reset 0; R15, Table 1.13. -/
  query : Tbl (BitVec 17) := []
  deriving DecidableEq, Repr


/-! ### Reports and ledgers (13_integrity_and_recovery.md) -/

/-- A report of a detector: the fields of Table 13.3 that the detector gives. -/
structure Report where
  time : DWord := 0
  cls : BitVec 16 := 0
  sev : BitVec 8 := 0
  flags : BitVec 8 := 0
  src : BitVec 32 := 0
  job : BitVec 16 := 0
  win : BitVec 8 := 0xFF
  hi : BitVec 8 := 0
  detail : DWord := 0
  deriving DecidableEq, Repr

/-- A ledger entry (Table 13.3): a report with its number. -/
structure Entry where
  rep : Report := {}
  seqno : Word := 0
  deriving DecidableEq, Repr

/-- A summary entry (Table 13.4). -/
structure Summary where
  src : BitVec 32 := 0
  cls : BitVec 16 := 0
  sev : BitVec 8 := 0
  flags : BitVec 8 := 0
  count : Nat := 0
  first : DWord := 0
  last : DWord := 0
  deriving DecidableEq, Repr

/-- The report queue of one detector, 4 reports at most (R398). -/
structure RepQueue where
  det : Nat := 0
  reps : List Report := []
  deriving DecidableEq, Repr

/-- A region ledger of 256 entries with its summary table of 16 (R399). -/
structure RegLedger where
  /-- Report queues of the detectors, in round-robin order from the next to serve; R398. -/
  queues : List RepQueue := []
  /-- Entries in the order they were written, at most 256; R399. -/
  entries : List Report := []
  /-- Summary table by index, at most 16; R399. -/
  summary : Tbl Summary := []
  /-- Lost-report count; R398, R399. -/
  lost : Nat := 0
  deriving DecidableEq, Repr

/-- The device ledger (R400) and its registers. -/
structure Ldg where
  /-- Report queues of the detectors, and the entries forwarded from the region ledgers as one further queue of
  detector number 2^40, in round-robin order from the next to serve; R398. -/
  queues : List RepQueue := []
  /-- Entries held, at most 4,096; R400, R524. -/
  entries : List Entry := []
  /-- Summary table by index, at most 64; R400, R524. -/
  summary : Tbl Summary := []
  /-- First-error slot, `LDG_STATUS.FIRST_VALID`; R400, Table 13.12. -/
  first : Option Entry := none
  /-- Last-error slot; R400, R524. -/
  last : Option Entry := none
  /-- The next SEQNO, 32 bits, 0 at cold reset; R400, Table 13.3. -/
  nextSeq : Word := 0
  /-- `LDG_STATUS.FULL`, 1 bit, reset 0; Table 13.12. -/
  full : Bool := false
  /-- `LDG_LOST`, 64 bits, reset 0; R398, R400, Table 13.15. -/
  lost : DWord := 0
  deriving DecidableEq, Repr

/-- An armed injection point (R403). -/
structure Inject where
  cls : BitVec 8 := 0
  weight : BitVec 8 := 0
  left : Nat := 0
  src : BitVec 32 := 0
  win : Nat := 0
  deriving DecidableEq, Repr

/-! ### Clusters and cores (03–06) -/

/-- An engine instruction in the queue of a core, with what it read at issue (R113, R122). -/
structure EInst where
  /-- Program order in the cluster since launch; R130. MODEL number. -/
  id : Nat := 0
  word : BitVec 128 := 0
  /-- Device address, or ring, block and word index, of the word; R165. -/
  loc : DWord := 0
  rmask : DWord := 0
  wmask : DWord := 0
  /-- Stained at issue by a register it read; R113, R147. -/
  stain : Bool := false
  d0 : BitVec 512 := 0
  d1 : BitVec 512 := 0
  d2 : BitVec 512 := 0
  d3 : BitVec 512 := 0
  sreg : Word := 0
  mreg : BitVec 16 := 0xFFFF
  started : Bool := false
  readsOut : Bool := false
  writesOut : Bool := false
  /-- Elements, groups or weight elements taken so far. -/
  next : Nat := 0
  /-- A stained value was read under STN halt; R164. -/
  halted : Bool := false
  /-- Bytes written by this instruction in each scratchpad sector, and bit 32 where one was stained; R181, R186. -/
  cover : Tbl Nat := []
  /-- Order of the last fence issued before it; R132. -/
  fence : Nat := 0
  /-- Activation row at which an array check failed: it and the later ones write nothing; R166. -/
  failRow : Option Nat := none
  deriving DecidableEq, Repr

/-- A column of an array (R55, R71, R74, R99, R107). -/
structure Column where
  /-- Column register, 80 bits, or an FP32 value in bits [31:0]; R55, R66. -/
  reg : BitVec 80 := 0
  /-- Residue, 3 bits; R74. -/
  res : BitVec 3 := 0
  nan : Bool := false
  pinf : Bool := false
  ninf : Bool := false
  /-- Segments completed; R61, Table 3.5. -/
  segs : Nat := 0
  /-- Products in the current segment, or in the whole reduction in count form; R61, R100. -/
  inseg : Nat := 0
  /-- Pending values of the auto-split tree, top first, as (level, FP32); R62. -/
  stack : List (Nat × Word) := []
  satd : Bool := false
  has : Bool := false
  /-- ARGMAX index, 24 bits, its duplicate, and whether a term has supplied one; R106, R108. -/
  idx : BitVec 24 := 0
  idx2 : BitVec 24 := 0
  idxSet : Bool := false
  /-- Smallest k of a term that set NAN, and PINF; R107. -/
  nanIdx : Option (BitVec 24) := none
  pinfIdx : Option (BitVec 24) := none
  /-- A stained operand has entered; R90. -/
  stain : Bool := false
  /-- A residue, rounder or comparator check has failed in the reduction; R75, R108. -/
  bad : Bool := false
  /-- Exact sum of the open MX block, in units of 2^-32, and its tags; R60. -/
  blk : Int := 0
  /-- Anchor U of the segment; R58. -/
  anchor : Int := 0
  deriving DecidableEq, Repr

/-- A drained value in a column's latch (R92). -/
structure Latch where
  full : Bool := false
  /-- Instruction and activation row that drained it. MODEL. -/
  id : Nat := 0
  row : Nat := 0
  value : Word := 0
  index : Word := 0
  stain : Bool := false
  /-- It depends on stained data that was read; R164. -/
  dep : Bool := false
  deriving DecidableEq, Repr

/-- An activation position in a feeder queue: its instruction, array row and element, with its pattern and stain (R93). -/
structure Queued where
  id : Nat := 0
  row : Nat := 0
  elem : Nat := 0
  val : Nat := 0
  stain : Bool := false
  deriving DecidableEq, Repr

/-- A fed step of a row (in the FP32 path, of the eight rows) that a column has still to take: in the pipeline, or in the
column's skid (R91, R93). -/
structure Fed where
  /-- Instruction and activation row; array row. -/
  id : Nat := 0
  actRow : Nat := 0
  row : Nat := 0
  /-- First position within the activation row. -/
  pos : Nat := 0
  /-- Activation and weight patterns: for column c, the pairs that enter together. -/
  ops : List (Fin 4 × List (Nat × Nat)) := []
  stains : BitVec 4 := 0
  /-- Anchor U of each column's segment; R58. -/
  anchors : List Int := []
  /-- Columns that have taken it. -/
  taken : BitVec 4 := 0
  deriving DecidableEq, Repr

/-- A weight bank of one array with its scale file (R82, R84, R90). -/
structure Bank where
  /-- Tile bytes by (4 × row + column) × 64 + byte; R82, R160. -/
  tile : Tbl Byte := []
  /-- Scale bytes by 32 × column + block; R84. -/
  scale : Tbl Byte := []
  /-- Format of the tile, none before any load of the job; R111, R157. -/
  fmt : Option (BitVec 4) := none
  /-- Stain bit of each column; R90. -/
  stain : BitVec 4 := 0
  /-- A load is under way; R88. -/
  loading : Bool := false
  deriving DecidableEq, Repr

/-- An array instruction in progress on one array (R88, R92, R93, R95). -/
structure AJob where
  id : Nat := 0
  /-- Tile position at which its activation rows start; R81. -/
  start : Nat := 0
  /-- Steps that have entered each row's feeder queue, and that each row has fed, over all activation rows; R93. -/
  fetched : List Nat := [0, 0, 0, 0, 0, 0, 0, 0]
  fed : List Nat := [0, 0, 0, 0, 0, 0, 0, 0]
  /-- Activation scales with their stains, by activation row, once delivered; R59. -/
  scales : Tbl (List (Nat × Bool)) := []
  /-- For each column: activation rows ended, positions of the next one entered, and whether it is open. -/
  done : List Nat := [0, 0, 0, 0]
  entered : List Nat := [0, 0, 0, 0]
  begun : List Bool := [false, false, false, false]
  deriving DecidableEq, Repr

/-- A matrix array of a core (R80). -/
structure Arr where
  bankA : Bank := {}
  bankB : Bank := {}
  col0 : Column := {}
  col1 : Column := {}
  col2 : Column := {}
  col3 : Column := {}
  lat0 : Latch := {}
  lat1 : Latch := {}
  lat2 : Latch := {}
  lat3 : Latch := {}
  /-- Instructions in progress on the array, in program order; R92. -/
  jobs : List AJob := []
  /-- Feeder queues of the rows, at most 16 positions of each row; R93. -/
  feeder : List Queued := []
  /-- Fed and not yet taken by every column, at most 16 positions of each row for each column; R91, R93. -/
  pipe : List Fed := []
  /-- The reduction that the last instruction started leaves in hold: opcode, FMT_A, FMT_W, PRED and NOSPLIT of its
  opening; R157. -/
  hold : Option (BitVec 8 × BitVec 4 × BitVec 4 × BitVec 3 × Bool) := none
  /-- Bank that it reads, and the tile position after the last one that it takes; R81. -/
  heldBank : Bool := false
  heldPos : Nat := 0
  deriving DecidableEq, Repr

/-- An outstanding sector access of a stream engine (R183, R188). -/
structure SAcc where
  /-- Instruction, and its first piece merged here: an element, or half of one of 64 bytes. -/
  id : Nat := 0
  piece : Nat := 0
  /-- Byte offset in the sector of each piece. -/
  offs : List Nat := []
  /-- Device address of the sector, modulo 2^64. -/
  addr : Nat := 0
  write : Bool := false
  /-- Bytes, byte enables and stain of a write, or the data returned to a read. -/
  data : List Byte := []
  en : Nat := 0
  stain : Bool := false
  /-- 0 issued; 1 awaits a translation miss; 2 translated; 3 done; 4 faulted. -/
  phase : Nat := 0
  /-- DRAM place found by translation (near memory 0 or HBM4 1, stack, sector), and C of the entry. -/
  tier : Nat := 0
  stack : Nat := 0
  place : Nat := 0
  cacheable : Bool := false
  deriving DecidableEq, Repr

/-- Results of a vector group read and not yet written: (D2 or D3 byte address, bytes, stain, unit kept
under STN halt) (R180, R181). -/
structure VRes where
  id : Nat := 0
  writes : List (Nat × List Byte × Bool) := []
  deriving DecidableEq, Repr

/-- The vector engine's progress in its instruction (R168, R175, R176, R177). -/
structure VEng where
  /-- Lane accumulators of a reduction (FP32), by lane, and their stain. -/
  acc : Tbl Word := []
  accStain : Bool := false
  /-- First half of an MX block, and its stain. -/
  half : List Word := []
  halfStain : Bool := false
  /-- `VSMERGE` of the open row: alpha, beta, and the record's stain. -/
  alpha : Word := 0
  beta : Word := 0
  recStain : Bool := false
  /-- Result groups waiting to be written, oldest first. -/
  out : List VRes := []
  deriving DecidableEq, Repr

/-- A logical core (R26, R121). -/
structure CoreSt where
  /-- Scratchpad bytes, 64 KiB; undefined at reset, DESIGN CHOICE 0 (log 5); R192, Table 17.2. -/
  pad : Tbl Byte := []
  /-- Clean sectors: the stain bit of sector i is set unless listed `true`; R192, Table 17.2. -/
  padClean : Tbl Bool := []
  /-- `CORE_NUMF`, 16 bits, reset 0; R77. -/
  numf : BitVec 16 := 0
  aq : List EInst := []
  vq : List EInst := []
  iq : List EInst := []
  oq : List EInst := []
  arr0 : Arr := {}
  arr1 : Arr := {}
  arr2 : Arr := {}
  arr3 : Arr := {}
  veng : VEng := {}
  /-- Outstanding sector reads (at most 128) and writes (at most 64), oldest first; R188. -/
  reads : List SAcc := []
  writes : List SAcc := []
  /-- Draw counters of the 256 generator streams, 64 bits, cleared at launch; R178. -/
  draws : Tbl DWord := []
  deriving DecidableEq, Repr

/-- A signal waiting to be sent or in flight (R132, R133). -/
structure Signal where
  tgt : Nat := 0
  ctr : Nat := 0
  count : Nat := 0
  /-- Stream-out instructions below this number must complete first. -/
  after : Nat := 0
  deriving DecidableEq, Repr

/-- An instruction block of a stream queue (R117). -/
structure Block where
  seq : Word := 0
  words : List (BitVec 128) := []
  deriving DecidableEq, Repr

/-- A logical cluster: its sequencer, its registers of Tables 4.5–4.9 and its cores. -/
structure Cluster where
  /-- s1–s63, 64 bits each (s0 reads 0), cleared at launch; DESIGN CHOICE 0 at reset (log 4); R109, R110. -/
  sreg : Tbl DWord := []
  /-- Stain bits of the scalar registers; R109. -/
  sstain : DWord := 0
  /-- l0–l15, 512 bits each; DESIGN CHOICE 0 at reset (log 4); R109, R148. -/
  ldesc : Tbl (BitVec 512) := []
  /-- Stain bits of the descriptors; R109, R153. -/
  lstain : BitVec 16 := 0
  /-- Words of each descriptor written unstained since it was last stained; R153. -/
  lclean : Tbl (BitVec 8) := []
  /-- c0–c15, 32 bits each; DESIGN CHOICE 0 at reset (log 4); R109. -/
  ctr : Tbl Word := []
  /-- m0–m7, 16 bits each, and their stain bits, kept at launch; DESIGN CHOICE 0 at reset (log 4); R145, R147. -/
  mreg : Tbl (BitVec 16) := []
  mstain : BitVec 8 := 0
  /-- `SEQ_CFG.SRC`, 1 bit, reset 0; Table 4.5. -/
  src : Bool := false
  /-- `SEQ_CFG.RING`, 13 bits, reset 0; Table 4.5. -/
  ring : BitVec 13 := 0
  /-- `SEQ_ENTRY`, 64 bits, reset 0; Table 4.6. -/
  entry : DWord := 0
  /-- `SEQ_CTX_TIMEOUT.TIMEOUT`, 24 bits, reset 0; Table 4.8. -/
  ctxTimeout : BitVec 24 := 0
  /-- `SEQ_STATUS.STATE`, 3 bits, reset 0; Table 4.7. -/
  state : BitVec 3 := 0
  /-- `SEQ_STATUS.STALL_Q`, 2 bits, reset 0; Table 4.7. -/
  stallQ : BitVec 2 := 0
  /-- `SEQ_STATUS.STALL_CORE`, 5 bits, reset 0; Table 4.7. -/
  stallCore : BitVec 5 := 0
  /-- `SEQ_STATUS.MASK_FAULT`, 1 bit, reset 0; R129, Table 4.7. -/
  maskFault : Bool := false
  /-- `SEQ_STATUS.CTX_TIMEOUT`, 1 bit, reset 0; R134, Table 4.7. -/
  ctxTimedOut : Bool := false
  /-- `SEQ_STALL`, 64 bits, reset 0; Table 4.9. -/
  stall : DWord := 0
  /-- Where the sequencer issues: device address of the word, or its index in the block; R116, R118. -/
  pc : DWord := 0
  /-- Stream queue of blocks, at most 8, the first being executed; R117. -/
  blocks : List Block := []
  /-- Lines of the 16 KiB instruction cache, by line address / 64; R116. -/
  icache : Tbl (List Byte) := []
  /-- A fetch has missed and the line is awaited; R116. -/
  missing : Bool := false
  /-- END has been executed; R120. -/
  ending : Bool := false
  /-- Issue has stopped at a word that fails a check of R164 or R165, or at `ABORT`. -/
  halted : Bool := false
  /-- A job stop has been sent to the cluster, or is being carried out; R136. -/
  stopSent : Bool := false
  stopping : Bool := false
  /-- The cluster serves the job of this window; loaded and waiting for T_s; R385, R444. -/
  win : Option (Fin 16) := none
  waiting : Bool := false
  /-- The next program-order number; R130. MODEL number. -/
  nextId : Nat := 0
  /-- Number of the last `FENCE.M` issued; R132. -/
  fence : Nat := 0
  /-- Signals waiting to be sent (at most 4) and on their way, oldest first; R132, R133. -/
  sigs : List Signal := []
  /-- Outstanding collectives, at most 16; R163. -/
  colls : List CollKey := []
  /-- Last bank format issued, per array and bank (8 × format slots); R111, R130, R157. -/
  bankFmt : Tbl (BitVec 5) := []
  core : Tbl CoreSt := []
  deriving DecidableEq, Repr

/-! ### Memory (07_memory_system.md) -/

/-- A near-memory or HBM4 channel (R219–R225, Table 7.13). -/
structure ChanSt where
  /-- BAND, 2 bits; R221. -/
  band : BitVec 2 := 0
  /-- CAL, 4 bits; R222, R223. -/
  cal : BitVec 4 := 0
  /-- Band whose calibration is in use; R223. -/
  usedBand : BitVec 2 := 0
  half : Bool := false
  retrain : Bool := false
  pending : Bool := false
  /-- Band in which the open window began; R225. -/
  winBand : BitVec 2 := 0
  /-- DARNS, 0–2: spare lanes in use; R219. -/
  darns : BitVec 2 := 0
  /-- Lanes darned and lanes marked, by lane number 0–73; R219, R264. -/
  darned : List Nat := []
  marked : List Nat := []
  /-- Corrected errors of each lane in the open epoch; R210, R219. -/
  lane : Tbl Nat := []
  exhausted : Bool := false
  mapoutPend : Bool := false
  /-- Physical channel backing it, on its die, 6 bits; R217. -/
  phys : BitVec 6 := 0
  deriving DecidableEq, Repr

/-- A cached sector of a shelf cache (R230). -/
structure Cached where
  hbm : Bool := false
  stack : Nat := 0
  sec : Nat := 0
  data : List Byte := []
  stain : Bool := false
  dirty : Bool := false
  deriving DecidableEq, Repr

/-- The shelf, channel and NM registers of one base die. -/
structure DieMem where
  /-- `SHELF_CFG.WINDOW`, 3 bits, reset 0; Table 7.11. -/
  shelfWin : BitVec 3 := 0
  /-- `SHELF_CFG.TW`, 4 bits, reset 0; Table 7.11. -/
  shelfTw : BitVec 4 := 0
  /-- `SHELF_CFG.CACHE_NM` and `CACHE_HBM`, reset 1; Table 7.11. -/
  cacheNm : Bool := true
  cacheHbm : Bool := true
  /-- Sectors in the shelf cache; R230. -/
  cache : List Cached := []
  /-- Translation cache: (window × 2^20 + virtual frame, entry), at most 4,096; R199. -/
  xlat : List (Nat × DWord) := []
  /-- Translation misses under way, by the same key; R199. -/
  misses : List Nat := []
  /-- `NM_DARN_THR.THR`, 16 bits, reset 64; Table 7.14. -/
  darnThr : BitVec 16 := 64
  /-- `NM_COUPLE_n` as written, n = 0–23; none keeps the fused mask; Table 7.15. -/
  couple : Tbl (Option (BitVec 21)) := []
  nm : Tbl ChanSt := []
  hbm : Tbl ChanSt := []
  /-- Retrain windows requested, in order; R224. -/
  asked : List Chan := []
  /-- Darn record of the near-memory lanes, by physical channel (33 × near-memory die + channel): lanes; R219. -/
  record : Tbl (List Nat) := []
  deriving DecidableEq, Repr

/-- The memories, tables and MEM registers of the module. -/
structure Mem where
  /-- Near-memory symbols as stored, by (stack × 2^31 + sector) × 36 + symbol; all 0 is a clean zero sector; R208. -/
  nm : Tbl Byte := []
  /-- HBM4 bytes by stack × 2^36 + offset; zeros at cold reset; R211, Table 17.2. -/
  hbm : Tbl Byte := []
  /-- Stain map of HBM4, by stack × 2^31 + sector; R216. -/
  hbmStain : Tbl Bool := []
  /-- Error that an HBM4 sector holds until it is written: what the stack reports of every read of it; R211. -/
  hbmErr : Tbl EccReport := []
  /-- Open row of each HBM4 bank, and its activations since the last refresh management command, by
  (stack × 64 + pseudo-channel) × 2^16 + bank; R214. -/
  hbmRow : Tbl (Option Nat) := []
  hbmActs : Tbl Nat := []
  /-- Cluster-buffer bytes by cluster × 2^20 + offset; undefined at reset, DESIGN CHOICE 0 (log 5); R194. -/
  buf : Tbl Byte := []
  /-- Clean sectors of the cluster buffers (stained unless listed); Table 17.2. -/
  bufClean : Tbl Bool := []
  /-- Shelf-window bytes by die × 2^28 + offset; undefined at reset, DESIGN CHOICE 0 (log 5); R195. -/
  shelf : Tbl Byte := []
  shelfClean : Tbl Bool := []
  /-- Translation tables: entry by window × 2^20 + virtual frame, cleared at cold reset; R197. -/
  table : Tbl DWord := []
  /-- `MEM_TW_CFG_n` (EN, JOB), reset 0; Table 7.8. -/
  twEn : BitVec 16 := 0
  twJob : Tbl (BitVec 16) := []
  /-- `MEM_XLT_FAULT`, 64 bits, reset 0; Table 7.9. -/
  fltAddr : DWord := 0
  /-- `MEM_XLT_FAULT_INFO` fields, reset 0; Table 7.10. -/
  fltKind : BitVec 4 := 0
  fltWin : BitVec 4 := 0
  fltWrite : Bool := false
  fltValid : Bool := false
  fltCount : BitVec 16 := 0
  /-- Peaks per (window × 256 + tag) of near-memory and HBM4 entries, reset 0; R306, Table 9.10. -/
  peakNm : Tbl Nat := []
  peakHbm : Tbl Nat := []
  /-- Near-memory channels whose physical backing changed at a warm reset, as (stack, channel), and the sectors of them
  written since, by stack × 2^31 + sector; Table 17.2. -/
  nmRemade : List (Nat × Nat) := []
  nmDone : Tbl Bool := []
  /-- Groups mapped out: (0 near memory or 1 HBM4, stack, group); R218. -/
  mappedOut : List (Nat × Nat × Nat) := []
  die : Tbl DieMem := []
  /-- Data and stain last returned to a unit of a base die. MODEL response. -/
  resp : Option (List Byte × Bool) := none
  deriving DecidableEq, Repr

/-! ### Tensor links and routers (08_tensor_network.md) -/

/-- A packet: the header of Table 8.8, its data, and the flits of it that are stained (R266, R270). -/
structure Packet where
  cls : BitVec 2 := 0
  mc : Bool := false
  dest : BitVec 12 := 0
  src : BitVec 12 := 0
  tunit : BitVec 4 := 0
  tdie : BitVec 3 := 0
  len : BitVec 13 := 0
  job : BitVec 16 := 0
  mask : Word := 0
  opnd0 : DWord := 0
  opnd1 : DWord := 0
  /-- Reserved bits of the header, which must be 0; R268. -/
  rsv : Bool := false
  data : List Byte := []
  stained : List Nat := []
  /-- Timestamp at which the receive pin took its head flit; R377. -/
  time : DWord := 0
  /-- Virtual channel that it came over; R320. MODEL. -/
  vc : BitVec 3 := 0
  deriving DecidableEq, Repr

/-- A data flit inside the router: its virtual channel, flags, sequence number and 60 payload bytes. -/
structure Flit where
  vc : BitVec 3 := 0
  head : Bool := false
  tail : Bool := false
  stain : Bool := false
  seq : BitVec 9 := 0
  body : List Byte := []
  /-- What a unit of the module sent it for: 0 or the number of its tuple or part. MODEL. -/
  key : Nat := 0
  /-- Timestamp at which the receive pin took it; R377. -/
  time : DWord := 0
  deriving DecidableEq, Repr

/-! ### Die-to-die links (01_organisation.md) -/

/-- A frame that a die has sent, or is to send: its 72 bytes, and the tensor link (32 for none) and time with which the
packet that it carries reached the module (MODEL). -/
structure D2dFrame where
  bytes : List Byte := []
  link : Nat := 32
  time : DWord := 0
  deriving DecidableEq, Repr

/-- One direction of a die-to-die link (R24). -/
structure D2dWay where
  /-- A frame has failed its CRC and its replay is awaited; R24. -/
  replaying : Bool := false
  /-- Frames delivered (header and body), in order of arrival on each virtual channel; R24. -/
  got : Tbl (List (List Byte)) := []
  /-- Frames that failed their CRC and were replayed; R24. -/
  replays : Nat := 0
  /-- The sender's replay buffer, at most 64 frames, oldest first; R24. -/
  sent : List D2dFrame := []
  /-- Frames that wait for room in it; R24. -/
  queue : List D2dFrame := []
  /-- Flits of the packet being received on each virtual channel; R274. -/
  part : Tbl (List Flit) := []
  deriving DecidableEq, Repr

/-- A die-to-die link of Table 1.2: 0–3 partner, 4–7 corner, 8–15 spoke. -/
structure D2d where
  /-- UCIe modules degraded to x8, one bit a module; R25. -/
  half : BitVec 8 := 0
  /-- UCIe modules disabled, one bit a module; R25. -/
  off : BitVec 8 := 0
  /-- From the end that Table 1.2 names first, and toward it. -/
  up : D2dWay := {}
  down : D2dWay := {}
  deriving DecidableEq, Repr

/-- A branch of a packet in progress: its output link and VC, and the flits of the packet it has sent. -/
structure Branch where
  link : Nat := 0
  vc : Nat := 0
  sent : Nat := 0
  deriving DecidableEq, Repr

/-- The route of the packet in progress on an input VC (R271, R279): its branches, whether it is ejected here and
how many flits have been, and how many flits have left the input buffer (R280). -/
structure Route where
  branches : List Branch := []
  eject : Bool := false
  ejected : Nat := 0
  gone : Nat := 0
  deriving DecidableEq, Repr

/-- A tensor link (R238–R265, Tables 8.15, 8.16, 8.18). -/
structure TLink where
  /-- `EN` as written; reset from the straps (1 unless the dimension has size 1); R241, Table 8.15. -/
  en : Option Bool := none
  /-- `FENCE`, reset 1; R290, Table 8.15. -/
  fence : Bool := true
  /-- Own state of Table 8.3, 3 bits; reset DOWN. -/
  state : BitVec 3 := 0
  /-- Partner's beacon state and reason, reset 0; Table 8.16. -/
  pstate : BitVec 3 := 0
  preason : BitVec 8 := 0
  /-- Own reason byte; Table 8.3. -/
  reason : BitVec 8 := 0
  /-- Training reached: 0 not begun, 1 frames sent, 2 signal, 3 equalised, 4 lanes, 5 flit lock; Table 8.2. -/
  train : Nat := 0
  /-- Trained and holding flit lock; R291. -/
  locked : Bool := false
  txHalf : Bool := false
  rxHalf : Bool := false
  /-- Lanes found usable, marked for darning, in each direction, 9 bits; R244, R264. -/
  txLanes : BitVec 9 := 0x1FF
  rxLanes : BitVec 9 := 0x1FF
  /-- Lanes darned out and half widths of the darn record; R265. -/
  recTx : BitVec 9 := 0
  recRx : BitVec 9 := 0
  recTxHalf : Bool := false
  recRxHalf : Bool := false
  txMarked : BitVec 9 := 0
  rxMarked : BitVec 9 := 0
  band : BitVec 2 := 0
  cal : BitVec 4 := 0
  usedBand : BitVec 2 := 0
  slow : Bool := false
  pending : Bool := false
  /-- A window is open, the count at which it began, and the count T granted to it; R263. -/
  window : Bool := false
  began : DWord := 0
  windowT : Option DWord := none
  /-- The counts T of the RETRAIN_REQs received and not yet honoured; R263, R384. -/
  askedT : List DWord := []
  /-- Next SEQ to send, and replay buffer of at most 256 flits, oldest first; R255. -/
  txSeq : BitVec 9 := 0
  replay : List Flit := []
  /-- Flits of the replay buffer still to be sent again; R255. -/
  resend : List Flit := []
  /-- Times each flit of the replay buffer has been replayed, by SEQ; R256. -/
  replays : Tbl Nat := []
  /-- Expected SEQ, and whether a RETRY_REQ is outstanding; R254. -/
  rxSeq : BitVec 9 := 0
  retrying : Bool := false
  /-- Flits freed in the partner's buffers per VC (synced + returned), and flits sent per VC, since UP; R257, R258. -/
  freed : Tbl Nat := []
  sent : Tbl Nat := []
  /-- Own buffers freed per VC since UP, and returns not yet sent; R258. -/
  myFreed : Tbl Nat := []
  owed : Tbl Nat := []
  /-- Input buffers per VC, oldest first; Table 8.7. -/
  inbuf : Tbl (List Flit) := []
  /-- Route of the packet in progress per VC; R260, R271, R279. -/
  route : Tbl (Option Route) := []
  /-- Flits that the packet being received on each VC has in all, and has had; R276. -/
  coming : Tbl (Nat × Nat) := []
  /-- Flits that units of the module have injected, per VC, oldest first; R273. -/
  outq : Tbl (List Flit) := []
  /-- Source of the packet in progress on each output VC: 0 the injected flits, l + 1 the input of link l, and its VC; R266. -/
  owner : Tbl (Option (Nat × Nat)) := []
  /-- Packet being ejected per VC. -/
  eject : Tbl (List Flit) := []
  /-- Control messages waiting for a slot: subtype and bytes 6–23 of the payload; R253. -/
  ctl : List (Nat × List Byte) := []
  /-- Consecutive class 1 flits sent while class 0 was ready; R259. -/
  class1 : Nat := 0
  /-- The dateline bit of the VC of each class, and the source on each output VC (6 × port + input VC, plus 1), that had
  the last turn; R259. -/
  lastBit : Tbl Nat := []
  lastSrc : Tbl Nat := []
  /-- The next slot must be idle; R262. -/
  idleNext : Bool := false
  /-- Counts of `TL_CNT_SEL.KIND` 0–8, 64 bits, reset 0; Table 8.18. -/
  cnt : Tbl DWord := []
  deriving DecidableEq, Repr

/-- A packet at the collective engines: the tensor link that it came over (32 for none), and whether its wait for a
context has raised its event; R320. -/
structure InPacket where
  link : Nat := 32
  pkt : Packet := {}
  raised : Bool := false
  deriving DecidableEq, Repr

/-- The TL registers that the base dies share, and the routers' queues. -/
structure Tl where
  /-- `TL_COORD`, latched from the straps; R238, Table 8.12. -/
  coord : BitVec 12 := 0
  size : BitVec 12 := 0
  /-- `TL_SLICE` (BASE, K_M1) of each base die; reset BASE 0, K_M1 from the straps; R289, Table 8.13. -/
  base : Tbl (BitVec 12) := []
  k : Tbl (Option (BitVec 12)) := []
  /-- `TL_ERR_THR` of each base die: LANE_THR reset 1,000, REPLAY_THR reset 8; Table 8.14. -/
  laneThr : Tbl (BitVec 16) := []
  replayThr : Tbl (BitVec 8) := []
  link : Tbl TLink := []
  /-- Packets at their destination module, waiting to be handed over, oldest first, each with the link it came
  over (32 for none); R273. -/
  arrived : List (Nat × Packet) := []
  /-- Packets handed to the mangle unit, parity engine, collective engine, guild agent and counter sync. -/
  mglIn : List Packet := []
  parIn : List Packet := []
  collIn : List InPacket := []
  guildIn : List Packet := []
  syncIn : List (Packet × DWord) := []
  /-- Packets injected and delivered by the slice's jobs since the last drain; R301. -/
  sent : Nat := 0
  delivered : Nat := 0
  /-- Link windows requested, in order; R486. -/
  asked : List Nat := []
  deriving DecidableEq, Repr

/-! ### Slices and phases (09_slices_mapping_phases.md) -/

/-- One item of a `PHASE` docket (Table 14.10). -/
structure PhaseItem where
  win : BitVec 4 := 0
  vframe : BitVec 20 := 0
  move : Bool := false
  entry : DWord := 0
  moved : Bool := false
  deriving DecidableEq, Repr

/-- The contents of an accepted `PHASE` docket. -/
structure PhaseReq where
  td : DWord := 0
  limit : Word := 0
  slcId : Word := 0
  tlSlice : Word := 0
  slcMap : Word := 0
  fence : Word := 0
  shelf : List Word := []
  items : List PhaseItem := []
  ring : Nat := 0
  late : Bool := false
  /-- The module belonged to no slice and ran no job at acceptance; R503. -/
  bringup : Bool := false
  deriving DecidableEq, Repr

/-- The SLC block. -/
structure Slc where
  /-- The last switch was late, and no job has been launched since; R303. -/
  holdLaunch : Bool := false
  /-- `SLC_ID.SLICE`, 8 bits, reset 0; Table 9.2. -/
  slice : BitVec 8 := 0
  /-- `SLC_ID.MEMBER`, 1 bit, reset 0; Table 9.2. -/
  member : Bool := false
  /-- `SLC_MAP` (PERM reset 0xE4, REFL, ORIGIN reset 0), 24 bits; Table 9.3. -/
  map : BitVec 24 := 0xE4
  /-- `SLC_PHASE_STATUS.STEP`, 3 bits, reset 0; Table 9.5. -/
  step : BitVec 3 := 0
  late : Bool := false
  timeout : Bool := false
  broken : Bool := false
  /-- `SLC_PHASE_STATUS.ROUNDS`, 8 bits, reset 0; Table 9.5. -/
  rounds : BitVec 8 := 0
  /-- `SLC_PHASE_DUR`, 32 bits, reset 0; Table 9.6. -/
  dur : Word := 0
  /-- `SLC_ROLE_n`, 8 bits each, reset 0; Table 9.7. -/
  role : Tbl (BitVec 8) := []
  /-- The switch accepted and not yet completed; R300, R304. -/
  req : Option PhaseReq := none
  /-- A failed switch rejects every `LAUNCH` until another succeeds; R305. -/
  failed : Bool := false
  /-- The rewrite has been done, so that the registers may be written; R286, R309. -/
  drained : Bool := false
  /-- `MEM_ACCT_SEL`, `TL_CNT_SEL`, `NM_CH_SEL`, `HBM_CH_SEL`, `DET_SEL`, `PWR_REG_SEL`, `PWR_TEMP_SEL`,
  `GUILD_LIST_SEL`: each agent's own copy by register offset × 8 + agent, reset 0; R15. -/
  sel : Tbl Word := []
  deriving DecidableEq, Repr

/-! ### Collectives (10_collectives.md) -/

/-- A communicator record (Table 10.2). -/
structure Comm where
  valid : Bool := false
  job : BitVec 16 := 0
  epoch : BitVec 8 := 0
  roles : BitVec 4 := 0
  clsel : BitVec 2 := 0
  cluster : BitVec 12 := 0
  hold : BitVec 16 := 0
  doneBase : BitVec 16 := 0
  doneMap : BitVec 256 := 0
  mask : List Nat := []
  deriving DecidableEq, Repr

/-- A collective block as read (Table 10.3, R347), and whether a field breaks a limit of it. -/
structure CollBlk where
  redop : BitVec 8 := 0
  itype : BitVec 8 := 0
  otype : BitVec 8 := 0
  flags : BitVec 8 := 0
  count : Word := 0
  src : DWord := 0
  dst : DWord := 0
  chunk : Word := 0
  seg : BitVec 16 := 0
  bad : Bool := false
  deriving DecidableEq, Repr

/-- A participating cluster that has started (R314): its place, the address of its block, the block once read,
and its eight values with their stains. -/
structure Started where
  clu : Nat := 0
  addr : DWord := 0
  blk : Option CollBlk := none
  vals : List (Word × Bool) := []
  deriving DecidableEq, Repr

/-- One reduction of the tree at this module (R326, R327): tag 0 a barrier or all-reduce, 1 the norm phase, 2 a chunk
of a shard. The module folds the levels at which it is a node in turn. -/
structure Node where
  tag : Nat := 0
  shard : Nat := 0
  chunk : Nat := 0
  /-- The level being folded, and the value so far: none until the module's own value is there. -/
  level : Nat := 0
  acc : Option (List (Word × Bool)) := none
  /-- Values of children: (level, sender's logical coordinate, values); R327. -/
  got : List (Nat × Nat × List (Word × Bool)) := []
  /-- The hold timer of the level being folded has expired; R337. -/
  expired : Bool := false
  /-- Its value has been sent on, or is final here. -/
  sent : Bool := false
  deriving DecidableEq, Repr

/-- A chunk being received (R332, R333): its sender's logical coordinate, the level, its shard and number, and
its bytes so far with a stain each. -/
structure Incoming where
  sender : Nat := 0
  level : Nat := 0
  shard : Nat := 0
  chunk : Nat := 0
  bytes : List (Byte × Bool) := []
  deriving DecidableEq, Repr

/-- What the firmware's system context serves: a drain round with the counts that the module gives, the resume barrier,
or the barrier of a mending round; R301, R318, R416. -/
inductive SysUse where
  | drain (sent delivered : Nat)
  | resume
  | mend (round : Nat)
  deriving DecidableEq, Repr

/-- A collective context (R318–R337). -/
structure Ctx where
  key : CollKey := ⟨0, 0, 0⟩
  /-- SUB of the local `CSTART`; none while packets alone have allocated the context. -/
  op : Option (BitVec 3) := none
  /-- Local clusters that have started; R314. -/
  starts : List Started := []
  /-- The module's block: the lead cluster's; R314. -/
  blk : Option CollBlk := none
  /-- Bytes read at SRC of an all-gather or all-to-all, with their stains; R330, R335. -/
  src : List (Byte × Bool) := []
  /-- Messages held in the context's staging until the local block is read; R322. -/
  early : List Packet := []
  /-- Members (logical coordinates) whose READY has been received, and those already served; R322. -/
  ready : List Nat := []
  served : List Nat := []
  nodes : List Node := []
  incoming : List Incoming := []
  /-- Chunks received whole of an all-gather or all-to-all: (sender, chunk). -/
  chunksIn : List (Nat × Nat) := []
  /-- Senders in the order in which their first data arrived (FIRST); R330. -/
  arrivals : List Nat := []
  /-- The final shard, by chunk, as FP32 or INT32; R329. -/
  shard : Tbl (List (Word × Bool)) := []
  /-- The value that the engine of each base die gives the package stage, by LDIE; R325. -/
  die : Tbl (List (Word × Bool)) := []
  /-- Members whose messages differ from the module's own fields, and for which nothing waits; R336. -/
  badFrom : List Nat := []
  /-- The released result: of the all-reduce, or the sum of squares and flags of the norm phase. -/
  result : Option (List (Word × Bool)) := none
  /-- STATUS bits of R317. -/
  stained : Bool := false
  crcBad : Bool := false
  late : Bool := false
  mismatch : Bool := false
  missing : Nat := 0
  /-- The press step that it closes has completed; R355. -/
  pressDone : Bool := false
  /-- Completed on the module; R317. -/
  done : Bool := false
  deriving DecidableEq, Repr

/-- The COLL block. -/
structure Coll where
  /-- Communicator records by ID; R312. -/
  comm : Tbl Comm := []
  /-- Contexts allocated, at most 256; R318. -/
  ctx : List Ctx := []
  /-- The system context, with what it serves while it is open; R318. -/
  sys : Option SysUse := none
  /-- `COLL_CTX.PEAK`, 9 bits, reset 0; Table 10.7. -/
  peak : BitVec 9 := 0
  /-- `COLL_CTX.EXHAUST`, 1 bit, reset 0; Table 10.7. -/
  exhaust : Bool := false
  /-- `COLL_STALE_DROP`, 64 bits, reset 0; Table 10.8. -/
  staleDrop : DWord := 0
  /-- `COLL_CRC_ERR`, 32 bits, reset 0; Table 10.9. -/
  crcErr : Word := 0
  deriving DecidableEq, Repr

/-! ### Press and mangle units (11_training_support.md) -/

/-- A segment of a press step (R347, R348). -/
structure HeldSeg where
  key : CollKey := ⟨0, 0, 0⟩
  seg : Nat := 0
  otype : BitVec 8 := 0
  chunk : Nat := 0
  elems : Nat := 0
  /-- The reduced 16-bit values, once the shard is whole, and whether some element is stained. -/
  vals : Option (List (BitVec 16)) := none
  stain : Bool := false
  /-- Sum of squares and non-finite flag; R351. -/
  sumsq : Word := 0
  nonfinite : Bool := false
  /-- For each die whose part goes to spill, its device address; R348. -/
  spill : Tbl Nat := []
  /-- Bytes of each die's window that it takes; R348. -/
  window : Tbl Nat := []
  /-- Bytes of each die's eighth of the spill area that it takes; R348. -/
  spilled : Tbl Nat := []
  /-- A part that must spill finds no room; R349. -/
  noSpace : Bool := false
  deriving DecidableEq, Repr

/-- A press step that has opened and not completed (R344–R359). -/
structure PStep where
  /-- Number of the step in order of opening. MODEL. -/
  no : Nat := 0
  /-- Communicator whose table's header the step changes. -/
  comm : BitVec 16 := 0
  /-- The mode that it opened with; R345. -/
  mode : BitVec 2 := 0
  segs : List HeldSeg := []
  /-- The closing collective, once its block is read. -/
  closing : Option CollKey := none
  /-- Suspect on this module, until it contributes to the closing norm; R408. -/
  suspect : Bool := false
  contributed : Bool := false
  /-- Q, F and the suspect bit, once delivered; R352, R409. -/
  global : Option (Word × Bool × Bool) := none
  /-- The press units have written their versions, or skipped; R352. -/
  applied : Bool := false
  deriving DecidableEq, Repr

/-- A late-ledger entry held (Table 11.4), with the shard it belongs to, the number of the step it missed, its slot in
the ledger, the device address of its values, and whether a step has folded it. -/
structure LateEntry where
  comm : BitVec 16 := 0
  seq : BitVec 16 := 0
  epoch : BitVec 8 := 0
  stain : Bool := false
  seg : BitVec 16 := 0
  rank : BitVec 16 := 0
  offset : Nat := 0
  vals : List Word := []
  shard : Nat := 0
  no : Nat := 0
  slot : Nat := 0
  data : Nat := 0
  folded : Bool := false
  deriving DecidableEq, Repr

/-- The fields of a press table that R360 restores. -/
structure PressHdr where
  step : DWord := 0
  upd : DWord := 0
  scale : Word := 0
  good : Word := 0
  cur : Bool := false
  /-- BP1 and BP2 of each segment. -/
  bp : List (Word × Word) := []
  deriving DecidableEq, Repr

/-- The PRESS block. -/
structure Press where
  /-- `PRESS_CFG.MODE`, 2 bits, reset 0; Table 11.9. -/
  mode : BitVec 2 := 0
  /-- `PRESS_CFG.JOB`, 16 bits, reset 0; Table 11.9. -/
  job : BitVec 16 := 0
  /-- Registered press tables: (communicator, table address); R346. -/
  tables : List (BitVec 16 × DWord) := []
  /-- Steps that have opened and not completed, oldest first; R344, R359. -/
  steps : List PStep := []
  /-- Steps opened so far. MODEL. -/
  opened : Nat := 0
  /-- Late-ledger entries held, oldest first; R362. -/
  late : List LateEntry := []
  /-- The completed step that is held: its communicator and STEP; R358. -/
  held : Option (BitVec 16 × DWord) := none
  /-- `PRESS_STATUS` bits, reset 0; Table 11.10. -/
  spilled : Bool := false
  skipped : Bool := false
  nfOut : Bool := false
  noSpace : Bool := false
  lateLost : Bool := false
  /-- `PRESS_STEP`, 64 bits, reset 0; Table 11.11. -/
  step : DWord := 0
  /-- `PRESS_COMMIT`, 64 bits, reset 0; Table 11.12. -/
  commit : DWord := 0
  /-- `PRESS_SKIP_COUNT`, 32 bits, reset 0; Table 11.13. -/
  skipCount : Word := 0
  /-- `PRESS_SPILL`, 64 bits, reset 0; Table 11.14. -/
  spillElems : DWord := 0
  /-- `PRESS_LATE.LOST`, 16 bits, reset 0; Table 11.15. -/
  lost : BitVec 16 := 0
  /-- Jobs whose next press step to complete is held because of a late application; R303, R386. -/
  holdJobs : List (BitVec 16) := []
  /-- Header copies taken at each commit, by communicator; R360. -/
  saved : Tbl PressHdr := []
  /-- Deltas of the uncommitted step: (logical byte of the protected state, old XOR new); R361. -/
  deltas : List (Nat × Byte) := []
  deriving DecidableEq, Repr

/-- The mangle unit's plan and place (Tables 11.6, 11.7, 11.16). -/
structure Mgl where
  /-- `MGL_STATUS.STATE`, 3 bits, reset 0; Table 11.16. -/
  state : BitVec 3 := 0
  running : Bool := false
  job : BitVec 16 := 0
  comm : BitVec 16 := 0
  carry : Bool := false
  reverse : Bool := false
  relPer : Nat := 0
  partB : Nat := 0
  own : DWord := 0
  slot0 : DWord := 0
  slot1 : DWord := 0
  ncl : Nat := 0
  goC : Nat := 0
  arrC : Nat := 0
  relC : Nat := 0
  passes : Nat := 0
  /-- Current pass p and the last step sent of it; MGL_STATUS.PASS and STEP. -/
  pass : Nat := 0
  sentStep : Nat := 0
  /-- The pass has granted its first two steps; R366. -/
  started : Bool := false
  /-- Steps received whole, and grants sent and received, by global index q. -/
  received : List Nat := []
  grantsIn : List Nat := []
  grantsOut : List Nat := []
  /-- Parts received: (q, part). -/
  parts : List (Nat × Nat) := []
  /-- Data of parts in progress, for the CRC: (q, part, bytes). -/
  open_ : List (Nat × Nat × List Byte) := []
  deriving DecidableEq, Repr

/-! ### Time and determinism (12_determinism_and_time.md) -/

/-- The GCT and DET blocks. -/
structure Gct where
  /-- The global counter, 64 bits, 0 at cold reset; R375, Table 12.5. -/
  count : DWord := 0
  /-- Its fraction, in 1/64 ns, 6 bits; R375. -/
  frac : BitVec 6 := 0
  /-- How far the copy on each base die lies from it, in 1/64 ns, within ±16 (±0.25 ns); R375. -/
  skew : Tbl Int := []
  /-- `GCT_STATUS` bits, reset 0; Table 12.7. -/
  synced : Bool := false
  ovf : Bool := false
  loss : Bool := false
  setReject : Bool := false
  steps : BitVec 8 := 0
  /-- `GCT_OFFSET` THETA and DELTA, 16 bits each, reset 0; Table 12.8. -/
  theta : BitVec 16 := 0
  delta : BitVec 16 := 0
  /-- `GCT_CMP`, 64 bits, both halves reset 0xFFFF_FFFF; Table 12.9. -/
  cmp : DWord := 0xFFFF_FFFF_FFFF_FFFF
  /-- Exchange number, t1 of the open exchange, and good exchanges in a row; R377–R379. -/
  exch : BitVec 8 := 0
  t1 : Option DWord := none
  good : Nat := 0
  /-- θ still to be removed by slewing, in 1/64 ns; R378. -/
  slew : Int := 0
  /-- The rate correction, in ppm, within ±200; R378. -/
  rate : Int := 0
  /-- Parts of 1/64 ns, in millionths, that the trim of θ and the rate correction have gathered. MODEL. -/
  slewAcc : Int := 0
  rateAcc : Int := 0
  /-- θ and t4 of the last exchange, for the change in θ; R378. -/
  lastTheta : Option (Int × DWord) := none
  /-- A member's counter has been set since its last exchange; R391. -/
  setPend : Bool := false
  /-- The parent has been seen SYNCED; R379. -/
  parentSynced : Bool := false
  /-- `DET_JOB_n.DET` and LATE_APPLY, reset 0; Table 12.10. -/
  det : BitVec 16 := 0
  late : BitVec 16 := 0
  /-- `NONDET_COUNT` by window × 4 + class (1–3), 64 bits, reset 0; R374. -/
  nondet : Tbl DWord := []
  /-- Accepted dockets, by ring, generation and SEQ, that waited when the counter passed their apply count and could
  not have been applied then; R303, R386. -/
  missed : List (Nat × BitVec 16 × Word) := []
  deriving DecidableEq, Repr

/-! ### Mending, guild, recovery and apprentices (13_integrity_and_recovery.md) -/

/-- The INJ, FIT, MEND, GUILD, REC and APR blocks. -/
structure Guard where
  /-- `INJ_EN`, 64 bits, reset 0; Table 13.16. -/
  injEn : DWord := 0
  armed : List Inject := []
  /-- An injection is acting: the entries that result carry FLAGS bit 1; R404. MODEL. -/
  injecting : Bool := false
  /-- `FIT_CFG.RATE`, 24 bits, and HOLDALL, reset 0; Table 13.17. -/
  fitRate : BitVec 24 := 0
  holdAll : Bool := false
  /-- `MEND_CFG` EN, ROLE reset 0, INTERVAL reset 1; Table 13.18. -/
  mendEn : Bool := false
  mendRole : BitVec 2 := 0
  interval : BitVec 16 := 1
  /-- `MEND_STATUS.ROUND`, LOG and the mended step; Table 13.19. -/
  roundOpen : Bool := false
  round : Nat := 0
  log1 : Bool := false
  mended : DWord := 0
  /-- Parity areas and logs placed by `MEND`; R416, Table 14.6. -/
  par0 : DWord := 0
  par1 : DWord := 0
  l0 : DWord := 0
  l1 : DWord := 0
  /-- Dirty 4 KiB units of L0 and of L1; R415. -/
  dirtyA : List Nat := []
  dirtyB : List Nat := []
  /-- The parity area in use (area 1 when set), the parity units that contributions of the open round have reached,
  and those in which the areas differ since the last round; R416. -/
  parCur : Bool := false
  parTouched : List Nat := []
  parStale : List Nat := []
  /-- The ENDs that have arrived: the low 8 bits of the round, and the sender's group index; R416. -/
  ends : List (Nat × Nat) := []
  roundStep : DWord := 0
  /-- The round that a commit calls for while another is open: its STEP, and the header copies of that commit; R416. -/
  roundDue : Option (DWord × Tbl PressHdr) := none
  /-- Commits after it, whose deltas wait for a log: STEP, deltas and header copies (log 34). MODEL. -/
  mendQueue : List (DWord × List (Nat × Byte) × Tbl PressHdr) := []
  /-- Contributions of a later round than the open one. MODEL. -/
  parHeld : List Packet := []
  /-- Header copies at the mended step, and at the step of the open round, by communicator; R416. -/
  mendHdr : Tbl PressHdr := []
  roundHdr : Tbl PressHdr := []
  /-- `GUILD_STATUS` fields, reset 0; Table 13.20. -/
  gState : BitVec 2 := 0
  gPartial : Bool := false
  gRound : BitVec 8 := 0
  gCoord : BitVec 12 := 0
  /-- Modules in the verdict held, or named in FAULTs, ascending; R420, R422. -/
  gList : List (BitVec 12) := []
  /-- Modules named failed in FAULTs seen; messages seen (ROUND, ORIGIN, MSG, part); R418, R419. -/
  gFaults : List (BitVec 12) := []
  gSeen : List (Nat × Nat × Nat × Nat) := []
  /-- Parts of the verdict being gathered: (round, coordinator, N, [(part, modules)]); R420. -/
  gParts : List (Nat × List (BitVec 12)) := []
  gFrom : Option (BitVec 8 × BitVec 12 × Nat) := none
  /-- Members whose VACK the coordinator has seen; R421. -/
  gVacks : List (BitVec 12) := []
  gStopped : Bool := false
  /-- `REC_JOURNAL`, reset 0; Table 13.21. -/
  recId : BitVec 16 := 0
  recStep : BitVec 4 := 0
  recFailed : Bool := false
  recRunning : Bool := false
  /-- The step that the restarted recovery has re-completed; R423. -/
  recAt : Nat := 0
  /-- `APR_STATUS` and `APR_CFG` (STEPS reset 16); Tables 13.22, 13.23. -/
  aState : BitVec 3 := 0
  aTutor : Bool := false
  aPeer : BitVec 12 := 0
  aDone : BitVec 16 := 0
  aSteps : BitVec 16 := 16
  /-- Protected state received by an apprentice; R424. -/
  aCopy : Tbl Byte := []
  aRing : Option Nat := none
  /-- A verified pattern book is waiting or running: run limit, power, points, and the ring; R405–R407. -/
  book : Option (Nat × Nat × List (BitVec 128)) := none
  bookRing : Nat := 0
  bookRunning : Bool := false
  deriving DecidableEq, Repr

/-! ### Jobs, rings and Ethernet (14_host_interface_and_commands.md) -/

/-- A docket accepted on a ring (R437, R438). -/
structure Docket where
  bytes : List Byte := []
  seq : Word := 0
  /-- Its apply count had passed when it was accepted (R386, Table 12.3). -/
  late : Bool := false
  deriving DecidableEq, Repr

/-- A reply entry (R442). -/
structure Reply where
  seq : Word := 0
  opcode : BitVec 16 := 0
  status : BitVec 8 := 0
  phase : Bool := true
  tag : DWord := 0
  detail : DWord := 0
  count : DWord := 0
  /-- Its docket asks for the ring's vector; R441. -/
  signal : Bool := false
  deriving DecidableEq, Repr

/-- A command ring (Tables 14.3, 14.16–14.18). -/
structure RingSt where
  /-- STATE, 3 bits; reset 0 closed; Table 14.16. -/
  state : BitVec 3 := 0
  reason : BitVec 8 := 0
  owner : Fn := .f0
  gen : BitVec 16 := 0
  /-- `RING_ACC` and `RING_DONE`, 32 bits, reset 0; Table 14.17. -/
  acc : Word := 0
  done : Word := 0
  /-- HEAD, 16 bits; HELD and LOST; Table 14.18. -/
  head : BitVec 16 := 0
  tail : BitVec 16 := 0
  rhead : BitVec 16 := 0
  rtail : BitVec 16 := 0
  /-- Lap of the reply ring: PHASE of the next reply; R442. -/
  lap : Bool := true
  companion : BitVec 16 := 0
  dbase : DWord := 0
  rbase : DWord := 0
  slots : Nat := 64
  replies : Nat := 64
  job : BitVec 16 := 0
  vector : BitVec 16 := 0
  irq : Bool := false
  /-- Accepted dockets not yet started, oldest first; R441. -/
  queue : List Docket := []
  /-- The docket started and not completed; its effect's status and DETAIL once finished; R441. -/
  running : Option Docket := none
  result : Option (BitVec 8 × DWord) := none
  /-- Its effect has begun; the bytes that it has moved, or the work requests that have completed. -/
  began : Bool := false
  moved : Nat := 0
  /-- A Function Level Reset of the owner closes the ring: its replies are discarded; Table 14.11. -/
  flr : Bool := false
  /-- Boundaries at which the ready docket has not fitted, and starving; R482. -/
  waits : Nat := 0
  starving : Bool := false
  forced : Bool := false
  /-- Replies held while the link is down, at most 64, and LOST; R449. -/
  held : List Reply := []
  lost : BitVec 8 := 0
  deriving DecidableEq, Repr

/-- A job bound to a tenancy window (R444, R446). -/
structure Job where
  running : Bool := false
  job : BitVec 16 := 0
  det : Bool := false
  inj : Bool := false
  late : Bool := false
  seed : DWord := 0
  gstep : Word := 0
  ts : DWord := 0
  endvec : BitVec 16 := 0
  endblk : DWord := 0
  clusters : List Nat := []
  /-- Clusters that have ended or stopped. -/
  clOver : List Nat := []
  stopping : Bool := false
  /-- CAUSE, first reason code, `ABORT` code, class and cluster of the first stop; R446. -/
  cause : BitVec 8 := 0
  reason : BitVec 8 := 0
  abort : BitVec 16 := 0
  aborted : Bool := false
  cls : BitVec 16 := 0
  cluster : BitVec 16 := 0
  ring : Nat := 0
  deriving DecidableEq, Repr

/-- An outstanding work request of a queue pair (R453). -/
structure WorkReq where
  /-- The ring and SEQ of its `POST`. -/
  ring : Nat := 0
  seq : Word := 0
  op : Nat := 0
  addr : DWord := 0
  len : Nat := 0
  /-- Its 64 bytes, and the data that it sends. -/
  bytes : List Byte := []
  data : List Byte := []
  /-- It has left the port. -/
  sent : Bool := false
  deriving DecidableEq, Repr

/-- A queue pair (R453). -/
structure Qp where
  live : Bool := false
  ready : Bool := false
  err : Bool := false
  mtu : BitVec 8 := 0
  prio : BitVec 8 := 0
  rqpn : BitVec 24 := 0
  rgid : BitVec 128 := 0
  lgid : BitVec 128 := 0
  win : Option (Fin 16) := none
  /-- Outstanding work requests. -/
  work : List WorkReq := []
  slowed : Bool := false
  deriving DecidableEq, Repr

/-- A memory key of a window (R453). -/
structure MKey where
  live : Bool := false
  win : Nat := 0
  addr : DWord := 0
  len : DWord := 0
  deriving DecidableEq, Repr

/-- The HIF block, rings, jobs and Ethernet. -/
structure Hif where
  /-- `HIF_STATUS` RATE, WIDTH, FLIT (link down at reset), OPEN_DROP and DB_DROP; Table 14.13. -/
  rate : BitVec 4 := 0
  width : BitVec 5 := 0
  flit : Bool := false
  openDrop : Bool := false
  dbDrop : Bool := false
  /-- Open requests held, at most 16: (function, host address of the block); R433. -/
  opens : List (Fn × DWord) := []
  ring : Tbl RingSt := []
  /-- The ring that last started a docket; R441, R482. DESIGN CHOICE: none, ring 0 goes first (log 12). -/
  lastRing : Option Nat := none
  job : Tbl Job := []
  /-- Ethernet ports down, one bit each. PRESUMED down at reset (log 13); R451. -/
  ethDown : BitVec 2 := 3
  /-- Queue pairs by port × 4096 + QPN; R453. -/
  qp : Tbl Qp := []
  key : Tbl MKey := []
  deriving DecidableEq, Repr

/-! ### Interrupts (15_interrupt_controller.md) -/

/-- The IRQ block and the MSI-X tables. -/
structure Irq where
  /-- `IRQ_SRC_CFG_s` (EN, ROUTE, MPMASK, VECTOR), reset MPMASK 0b0001; Table 15.2. -/
  cfg : Tbl Word := []
  /-- Edge latches set at the origin and not yet seen; R459. -/
  latch : List Nat := []
  /-- Pending edge sources; R457. -/
  pend : List Nat := []
  /-- Sources in service, with 0–3 the processor, 4 function 0, 5 function 1; R462, R469. -/
  service : List (Nat × Nat) := []
  /-- Offers of the last cycle: (processor, source); R461. -/
  offer : List (Nat × Nat) := []
  /-- Inputs asserted since the processor's last claim, one bit each; R462. -/
  seen : BitVec 4 := 0
  /-- `IRQ_HOLD_g.HOLD`, 16 bits, reset 0; timers running; Table 15.5. -/
  hold : Tbl (BitVec 16) := []
  run : DWord := 0
  /-- `IRQ_TPR_p` (TPR, EN), reset EN 1; Table 15.7. -/
  tpr : Tbl (BitVec 5) := []
  /-- `IRQ_MP_STATUS_p` BAD_COMPLETE and SPUR, reset 0; Table 15.8. -/
  badComplete : BitVec 4 := 0
  spur : Tbl (BitVec 8) := []
  /-- MSI-X vectors masked (PRESUMED masked at reset, PCIe, log 14), pending bits, function enables; R470. -/
  unmasked : List (Nat × Nat) := []
  pba : List (Nat × Nat) := []
  msixOff : BitVec 2 := 3
  /-- Address and data words of the MSI-X tables, by function × 8192 + word, 0 at reset (PRESUMED, PCIe, log 14); R470. -/
  msixTab : Tbl Word := []
  deriving DecidableEq, Repr

/-! ### Power (16_power_and_thermal.md) -/

/-- A region's clock (R474–R476). -/
structure RegClk where
  /-- Running step, none when the island is stopped; R39, R475. -/
  step : Option Nat := none
  /-- Step that the clock ran at before the change under way; R475. -/
  was : Option Nat := none
  /-- Cap of rung 3 and of rung 4, step 16 when they limit nothing; R227, R483. -/
  cap3 : Nat := 16
  cap4 : Nat := 16
  changing : Bool := false
  deriving DecidableEq, Repr

/-- The PWR block. -/
structure Pwr where
  /-- `PWR_MOD_CFG.LIMIT_W` reset 5,400 and STARVE reset 100; Table 16.5. -/
  limit : BitVec 13 := 5400
  starve : BitVec 16 := 100
  /-- `PWR_MOD_STATUS` POWER_W, TRIP, EXCURSION; Table 16.6. -/
  power : BitVec 13 := 0
  trip : Bool := false
  excursion : Bool := false
  tripping : Bool := false
  /-- `PWR_CLASS_c.RATE` as written (reset Table 16.3); Table 16.7. -/
  rate : Tbl (Option (BitVec 6)) := []
  /-- `PWR_DIE_CFG_d` LIMIT_W (reset 420) and FTARGET_10M (reset fused); Table 16.8. -/
  dieLimit : Tbl (BitVec 10) := []
  ftarget : Tbl (Option (BitVec 8)) := []
  /-- The limits, targets and rates in force since the last boundary; R488. -/
  limitNow : BitVec 13 := 5400
  rateNow : Tbl (Option (BitVec 6)) := []
  dieLimitNow : Tbl (BitVec 10) := []
  ftargetNow : Tbl (Option (BitVec 8)) := []
  /-- Q_d in µJ (unlisted: 4,200, L_d × τ at cold reset) and R_d; R479, R481. -/
  chit : Tbl Int := []
  reserve : Tbl Nat := []
  /-- Rung 2 steps of 2 per cent taken off every L_d; R483. -/
  rung2 : Nat := 0
  /-- Chit cap of each die, step 16 when it limits nothing; R483. -/
  cap1 : Tbl Nat := []
  /-- Cap of rung 6 on each die, step 16 when it limits nothing; the sensors that hold it, by kind × 1,024 + number; the
  dies on which it was in force at the last boundary; R483, R484. -/
  cap6 : Tbl Nat := []
  hot6 : List Nat := []
  in6 : BitVec 8 := 0
  /-- Rung 5 in force on each HBM4 stack; R483. -/
  rung5 : BitVec 16 := 0
  /-- Regions of each die that rung 4 has stepped down, newest first; R227. -/
  order4 : Tbl (List Nat) := []
  reg : Tbl RegClk := []
  /-- Last readings in 1/4 °C: by die × 32 + region, die × 4 + n, die × 32 + n, stack, n; R477. -/
  tJunction : Tbl Int := []
  tBase : Tbl Int := []
  tNear : Tbl Int := []
  tHbm : Tbl Int := []
  tIod : Tbl Int := []
  /-- Regions granted to a pattern book, by die × 21 + region; R487. -/
  bookGrant : List Nat := []
  deriving DecidableEq, Repr

/-! ### Reset, boot and flash (17_reset_and_boot.md) -/

/-- One copy of the flash header (R497). -/
structure FlashHeader where
  /-- PREFER; R499. -/
  prefer : Bool := false
  /-- Its sequence number; R35, R497. -/
  seq : Nat := 0
  /-- Its CRC-32C holds; R35, R497. -/
  good : Bool := true
  deriving DecidableEq, Repr

/-- The BOOT block and the always-on domain. -/
structure Boot where
  /-- `BOOT_STATUS.STATE`, 3 bits: 0 booting at reset; Table 17.7. -/
  state : BitVec 3 := 0
  /-- IMAGE, FALLBACK, FWVER and the security epoch of the running image; an image runs; Table 17.7, R499. -/
  image : Bool := false
  imageRuns : Bool := false
  fallback : Bool := false
  fwver : BitVec 16 := 0
  epoch : BitVec 8 := 0
  /-- Boot counter, `BOOT_WHY`, `BOOT_LAST` (always-on domain); R491. -/
  count : BitVec 4 := 0
  why : BitVec 8 := 0
  whyDetail : BitVec 8 := 0
  cause : BitVec 4 := 0
  lastWhy : BitVec 8 := 0
  /-- `BOOT_FLASH_ADDR`, 26 bits, reset 0; Table 17.11. -/
  addr : BitVec 26 := 0
  /-- `BOOT_FLASH_CMD.BUSY` and REJECT, reset 0; Table 17.13. -/
  busy : Bool := false
  reject : Bool := false
  /-- The 64 MiB boot flash, 0xFF where erased; R497. -/
  flash : Tbl Byte := []
  /-- The program or erase under way: (address, 4 bytes), or a sector to erase; R500. -/
  op : Option (Nat × Option Word) := none
  /-- VSTBY has been lost, so that the next cold reset is a power-up. MODEL. -/
  standby : Bool := false
  /-- A boot's steps have been run and READY awaits. MODEL. -/
  checked : Bool := false
  /-- Warm reset requested (CAUSE) and not begun; R492, R493. -/
  warmAsked : Option (BitVec 4) := none
  /-- The next boot follows a warm reset. MODEL. -/
  warmBoot : Bool := false
  /-- The key block failed its verification at boot; R499. -/
  keysBad : Bool := false
  /-- The two copies of the flash header; R497, R499, R500. -/
  hdr0 : FlashHeader := {}
  hdr1 : FlashHeader := {}
  /-- Tensor links, compute dies and DRAM are held off by a failed boot or shuttered mode; R495, R501. -/
  computeOff : Bool := true
  /-- The module is held in reset by a pin, rail or clock; R510, R512. -/
  held : Bool := false
  deriving DecidableEq, Repr

/-! ### The whole module -/

/-- What leaves the module (MODEL record, oldest first). -/
inductive Out where
  | msix (f : Fn) (vec : Nat)
  | reply (ring : Nat) (slot : Nat) (r : Reply)
  | ringResult (f : Fn) (rcb : DWord) (status : Nat) (ring : Nat) (gen : Nat)
  | hostWrite (addr : DWord) (bytes : List Byte)
  | endStatus (addr : DWord) (bytes : List Byte)
  | flit (link : Nat) (bytes : List Byte) (lanes : List (Nat × List (BitVec 2)))
  | refresh (stack : Nat) (pch : Nat) (bank : Nat)
  | ethSend (port : Nat) (qpn : Nat) (bytes : List Byte)
  | ethNak (port : Nat) (qpn : Nat)
  | retryStatus
  | configDone
  | smbusAddr (addr : BitVec 7)
  | d2dReplay (link : Nat) (up : Bool)
  | d2dFrame (link : Nat) (up : Bool) (bytes : List Byte)
  deriving DecidableEq, Repr

/-- Why the machine would stop with a fault. No meaning of this module stops: the spec gives every command an
effect (NOTES.md, Stops). Safe: the reason is raised by nobody. -/
inductive Fault where
  /-- Raised by no meaning; it stands so that the type has a name to give. Safe. -/
  | unraised
  deriving DecidableEq, Repr

/-- Why the machine would refuse a command. -/
inductive Refusal where
  /-- Raised by an arm of `exec` whose command has no meaning yet; no arm does so now. Safe. -/
  | notModelled (mnemonic : String)
  deriving DecidableEq, Repr

/-- The state of the module. -/
structure State where
  fuse : Fuse := {}
  pins : Pins := {}
  org : Org := {}
  d2d : Tbl D2d := []
  /-- Logical clusters by their place 0–2,559; R109. -/
  cl : Tbl Cluster := []
  mem : Mem := {}
  tl : Tl := {}
  slc : Slc := {}
  coll : Coll := {}
  press : Press := {}
  mgl : Mgl := {}
  gct : Gct := {}
  /-- Region ledgers by die × 21 + physical region, and the next region of each die to forward; R399. -/
  regLdg : Tbl RegLedger := []
  fwdNext : Tbl Nat := []
  ldg : Ldg := {}
  guard : Guard := {}
  hif : Hif := {}
  irq : Irq := {}
  pwr : Pwr := {}
  boot : Boot := {}
  /-- Snapshot of each 64-bit register for each agent, by offset × 8 + agent, 0 at cold reset; R13, R389. -/
  snap : Tbl DWord := []
  /-- Held low half of each 64-bit register for each agent; R13. -/
  heldLo : Tbl (Option Word) := []
  /-- Data returned by the agent's last read. MODEL response. -/
  rdata : Tbl DWord := []
  /-- What has left the module, oldest first. MODEL record. -/
  out : List Out := []
  /-- Number of the next free value. MODEL field, reset 0 (DESIGN CHOICE, log 2). -/
  free : Nat := 0
  /-- Commands waiting, first in, first out. -/
  pending : List Instr := []
  deriving DecidableEq, Repr

/-- The module right after a cold reset, before its boot runs (Table 17.2). -/
def State.reset : State := {}

end Sys2Proof.Machine
end

