-- ==== Sys2Proof/Machine/Ops.lean ====
section
/-!
DEFINITION. The named operations that every block shares: reading and changing one cluster, core, link, ring or
job; the map of logical onto physical units (R30); integrity events and their reports (R396–R398); interrupt
latches (R459); what leaves the module.
-/
namespace Sys2Proof.Machine
open Sys2Proof

/-- Change what key `k` of a table holds. -/
def upd {α : Type} [DecidableEq α] (d : α) (t : Tbl α) (k : Nat) (f : α → α) : Tbl α :=
  Tbl.set d t k (f (Tbl.get d t k))

/-- What a command answers. -/
abbrev Ans := Host.Outcome State Fault Refusal

/-! ### Access to the parts of the state -/

/-- Set the edge latch of a source (R459); a second event merges. -/
def irqEvent (s : State) (n : Nat) : State :=
  if s.irq.latch.contains n then s else { s with irq := { s.irq with latch := s.irq.latch ++ [n] } }

/-- Logical cluster at place `q`. -/
def State.clu (s : State) (q : Nat) : Cluster := Tbl.get {} s.cl q
/-- Change logical cluster `q`. -/
def State.updClu (s : State) (q : Nat) (f : Cluster → Cluster) : State :=
  { s with cl := upd {} s.cl q f }
/-- Core `c` of a cluster. -/
def Cluster.coreAt (k : Cluster) (c : Nat) : CoreSt := Tbl.get {} k.core c
/-- Change core `c` of a cluster. -/
def Cluster.updCore (k : Cluster) (c : Nat) (f : CoreSt → CoreSt) : Cluster :=
  { k with core := upd {} k.core c f }
/-- Change every one of the 32 cores of a cluster. -/
def Cluster.updCores (k : Cluster) (f : Nat → CoreSt → CoreSt) : Cluster :=
  (List.range 32).foldl (fun k c => k.updCore c (f c)) k
/-- Core `c` of cluster `q`. -/
def State.coreOf (s : State) (q c : Nat) : CoreSt := (s.clu q).coreAt c
/-- Change core `c` of cluster `q`. -/
def State.updCoreOf (s : State) (q c : Nat) (f : CoreSt → CoreSt) : State :=
  s.updClu q (·.updCore c f)
/-- Array `a` of a core. -/
def CoreSt.arr (k : CoreSt) (a : Nat) : Arr :=
  match a with
  | 0 => k.arr0
  | 1 => k.arr1
  | 2 => k.arr2
  | _ => k.arr3
/-- Put array `a` of a core. -/
def CoreSt.setArr (k : CoreSt) (a : Nat) (v : Arr) : CoreSt :=
  match a with
  | 0 => { k with arr0 := v }
  | 1 => { k with arr1 := v }
  | 2 => { k with arr2 := v }
  | _ => { k with arr3 := v }
/-- Column `c` of an array. -/
def Arr.col (r : Arr) (c : Nat) : Column :=
  match c with
  | 0 => r.col0
  | 1 => r.col1
  | 2 => r.col2
  | _ => r.col3
/-- Put column `c` of an array. -/
def Arr.setCol (r : Arr) (c : Nat) (v : Column) : Arr :=
  match c with
  | 0 => { r with col0 := v }
  | 1 => { r with col1 := v }
  | 2 => { r with col2 := v }
  | _ => { r with col3 := v }
/-- Drain latch of column `c`. -/
def Arr.lat (r : Arr) (c : Nat) : Latch :=
  match c with
  | 0 => r.lat0
  | 1 => r.lat1
  | 2 => r.lat2
  | _ => r.lat3
/-- Put the drain latch of column `c`. -/
def Arr.setLat (r : Arr) (c : Nat) (v : Latch) : Arr :=
  match c with
  | 0 => { r with lat0 := v }
  | 1 => { r with lat1 := v }
  | 2 => { r with lat2 := v }
  | _ => { r with lat3 := v }
/-- Weight bank A (false) or B (true). -/
def Arr.bank (r : Arr) (b : Bool) : Bank := if b then r.bankB else r.bankA
/-- Put a weight bank. -/
def Arr.setBank (r : Arr) (b : Bool) (v : Bank) : Arr :=
  if b then { r with bankB := v } else { r with bankA := v }
/-- The queue of an engine. -/
def CoreSt.queue (k : CoreSt) : Engine → List EInst
  | .aq => k.aq
  | .vq => k.vq
  | .iq => k.iq
  | .oq => k.oq
/-- Put the queue of an engine. -/
def CoreSt.setQueue (k : CoreSt) (e : Engine) (l : List EInst) : CoreSt :=
  match e with
  | .aq => { k with aq := l }
  | .vq => { k with vq := l }
  | .iq => { k with iq := l }
  | .oq => { k with oq := l }
/-- Memory registers and caches of base die `d`. -/
def State.dieMem (s : State) (d : Nat) : DieMem := Tbl.get {} s.mem.die d
/-- Change those of base die `d`. -/
def State.updDieMem (s : State) (d : Nat) (f : DieMem → DieMem) : State :=
  { s with mem := { s.mem with die := upd {} s.mem.die d f } }
/-- Tensor link `l`. -/
def State.link (s : State) (l : Nat) : TLink := Tbl.get {} s.tl.link l
/-- Change tensor link `l`; a change of its STATE or PSTATE is an edge of its source (Table 15.1). -/
def State.updLink (s : State) (l : Nat) (f : TLink → TLink) : State :=
  let k := s.link l
  let s' := { s with tl := { s.tl with link := Tbl.set {} s.tl.link l (f k) } }
  if (f k).state = k.state ∧ (f k).pstate = k.pstate then s' else irqEvent s' (96 + l)
/-- Change the guild, recovery and apprentice records; a change of their states is an edge (Table 15.1). -/
def State.updGuard (s : State) (f : Guard → Guard) : State :=
  let g := f s.guard
  let s' := { s with guard := g }
  let s' := if g.gState = s.guard.gState then s' else irqEvent s' 4
  let s' := if g.recStep = s.guard.recStep then s' else irqEvent s' 178
  if g.aState = s.guard.aState then s' else irqEvent s' 179
/-- Set `SLC_PHASE_STATUS.STEP`; done and failed are edges (Table 15.1). -/
def State.setStep (s : State) (n : BitVec 3) : State :=
  let s' := { s with slc := { s.slc with step := n } }
  if (n = 6 ∨ n = 7) ∧ s.slc.step ≠ n then irqEvent s' 176 else s'
/-- Ring `r`. -/
def State.ring (s : State) (r : Nat) : RingSt := Tbl.get {} s.hif.ring r
/-- Change ring `r`. -/
def State.updRing (s : State) (r : Nat) (f : RingSt → RingSt) : State :=
  { s with hif := { s.hif with ring := upd {} s.hif.ring r f } }
/-- The job of window `w`. -/
def State.jobAt (s : State) (w : Nat) : Job := Tbl.get {} s.hif.job w
/-- Change the job of window `w`. -/
def State.updJob (s : State) (w : Nat) (f : Job → Job) : State :=
  { s with hif := { s.hif with job := upd {} s.hif.job w f } }
/-- The communicator record of an ID. -/
def State.commAt (s : State) (id : Nat) : Comm := Tbl.get {} s.coll.comm id
/-- The context of a tuple. -/
def State.ctxAt (s : State) (k : CollKey) : Option Ctx := s.coll.ctx.find? (·.key == k)
/-- Change the context of a tuple. -/
def State.updCtx (s : State) (k : CollKey) (f : Ctx → Ctx) : State :=
  { s with coll := { s.coll with ctx := s.coll.ctx.map fun x => if x.key == k then f x else x } }
/-- The clock of physical region `r` of die `d`. -/
def State.regClk (s : State) (d r : Nat) : RegClk := Tbl.get {} s.pwr.reg (21 * d + r)
/-- Something leaves the module. -/
def State.emit (s : State) (o : Out) : State := { s with out := s.out ++ [o] }
/-- One more free value has been used. -/
def State.useFree (s : State) : State := { s with free := s.free + 1 }

/-! ### Names of units (R27, R28, R194, R432) -/

/-- LDIE of a cluster's place. -/
def clDie (q : Nat) : Nat := q / 320
/-- LREGION of a cluster's place. -/
def clReg (q : Nat) : Nat := q / 16 % 20
/-- LCLUSTER of a cluster's place. -/
def clIdx (q : Nat) : Nat := q % 16
/-- The cluster ID of R432. -/
def clId (q : Nat) : Nat := 512 * clDie q + 16 * clReg q + clIdx q
/-- The place that a cluster ID names, none for LREGION 20 or more. -/
def clOfId (id : Nat) : Option Nat :=
  if id < 4096 ∧ id / 16 % 32 < 20 then some (320 * (id / 512) + 16 * (id / 16 % 32) + id % 16) else none
/-- Logical core ID (Table 1.4). -/
def coreId (q c : Nat) : Nat := 32 * clId q + c

/-- The unit is marked bad in a fuse or in the patch record in force. -/
def unitBad (s : State) (u : PhysUnit) : Bool := s.fuse.bad.contains u || s.org.inForce.contains u
/-- Die of a physical unit. -/
def physDie : PhysUnit → Die
  | .core d _ _ _ => d
  | .cluster d _ _ => d
  | .region d _ => d
/-- Physical region of a physical unit. -/
def physReg : PhysUnit → Fin 21
  | .core _ r _ _ => r
  | .cluster _ r _ => r
  | .region _ r => r
/-- Some unit of the region is marked bad. -/
def regionTouched (s : State) (d : Die) (r : Fin 21) : Bool :=
  (s.fuse.bad ++ s.org.inForce).any fun u => physDie u == d && physReg u == r

/-- Usable cores of a physical cluster, in ascending order (R30). -/
def usableCores (s : State) (d : Die) (r : Fin 21) (k : Fin 17) : List Nat :=
  ((List.finRange 34).filter fun c => !unitBad s (.core d r k c)).map (·.val)
/-- A physical cluster is usable (R30). -/
def clusterUsable (s : State) (d : Die) (r : Fin 21) (k : Fin 17) : Bool :=
  !unitBad s (.cluster d r k) && decide (32 ≤ (usableCores s d r k).length)
/-- Usable clusters of a physical region. -/
def usableClusters (s : State) (d : Die) (r : Fin 21) : List Nat :=
  if regionTouched s d r then ((List.finRange 17).filter fun k => clusterUsable s d r k).map (·.val)
  else List.range 17
/-- A physical region is usable (R30). -/
def regionUsable (s : State) (d : Die) (r : Fin 21) : Bool :=
  !unitBad s (.region d r) && decide (16 ≤ (usableClusters s d r).length)
/-- Usable regions of a compute die. -/
def usableRegions (s : State) (d : Die) : List Nat :=
  ((List.finRange 21).filter fun r => regionUsable s d r).map (·.val)

/-- Physical region that backs a logical region. -/
def physRegion (s : State) (d : Nat) (lr : Nat) : Option Nat := do
  let regs := usableRegions s (Fin.ofNat 8 d)
  if lr < 20 then regs[lr]? else none
/-- Physical cluster that backs a logical cluster. -/
def physCluster (s : State) (d lr lc : Nat) : Option (Nat × Nat) := do
  let r ← physRegion s d lr
  let k ← (usableClusters s (Fin.ofNat 8 d) (Fin.ofNat 21 r))[lc]?
  if lc < 16 then some (r, k) else none
/-- Physical region, cluster and core that back a logical core. -/
def physCore (s : State) (d lr lc c : Nat) : Option (Nat × Nat × Nat) := do
  let (r, k) ← physCluster s d lr lc
  let p ← (usableCores s (Fin.ofNat 8 d) (Fin.ofNat 21 r) (Fin.ofNat 17 k))[c]?
  if c < 32 then some (r, k, p) else none

/-- The physical region of a logical cluster, by die × 21 + region. -/
def clRegion (s : State) (q : Nat) : Option Nat := (physRegion s (clDie q) (clReg q)).map (21 * clDie q + ·)

/-- The clock of the island that holds a logical cluster is stopped: the thermal-trip state has stopped it (R43, R485). No
island of a mapped region stops otherwise (R39, R475). -/
def islandStopped (s : State) (q : Nat) : Bool :=
  s.boot.state == 5 && (clRegion s q).all fun x => (Tbl.get {} s.pwr.reg x).step.isNone

/-- What a clock of the island of cluster `q` does, or what crosses into it: while the clock is stopped nothing happens,
and what would cross waits with its sender (R43). -/
def onClock (q : Cl) (s t : State) : Ans := .next (if islandStopped s q.val then s else t)

/-! ### SOURCE (Table 13.3) -/

/-- SOURCE of a core of a logical cluster. -/
def srcCore (s : State) (q c : Nat) : Nat :=
  match physCore s (clDie q) (clReg q) (clIdx q) c with
  | some (r, k, p) => clDie q + 8 * r + 256 * k + 2 ^ 13 * p
  | none => clDie q + 8 * clReg q + 256 * clIdx q + 2 ^ 13 * c
/-- SOURCE of a sequencer or cluster buffer: core 0 of the entry (log 7). -/
def srcCluster (s : State) (q : Nat) : Nat :=
  match physCluster s (clDie q) (clReg q) (clIdx q) with
  | some (r, k) => clDie q + 8 * r + 256 * k
  | none => clDie q + 8 * clReg q + 256 * clIdx q
/-- SOURCE of unit `u` of base die `d`; the I/O die's units take die 0. -/
def srcUnit (d u : Nat) : Nat := d % 8 + 8 * 31 + 2 ^ 13 * (u % 64)

/-- Unit numbers of a base die and of the I/O die. DESIGN CHOICE (log 7): Table 13.3 gives a unit number of
0–63 and no numbering. -/
def unitNm : Nat := 0
def unitHbm : Nat := 1
def unitShelf : Nat := 2
def unitRouter : Nat := 3
def unitColl : Nat := 4
def unitPress : Nat := 5
def unitMangle : Nat := 6
def unitParity : Nat := 7
def unitD2d : Nat := 8
def unitXlat : Nat := 9
def unitSlice : Nat := 32
def unitCounter : Nat := 33
def unitHost : Nat := 34
def unitGovernor : Nat := 35
def unitGuild : Nat := 36
def unitTest : Nat := 37
def unitMend : Nat := 38

/-! ### Integrity events (R396–R398, R408, R457, R459) -/

/-- Class codes of Table 13.2. -/
def evAccOvf : Nat := 0x01
def evAccResidue : Nat := 0x02
def evArrayWecc : Nat := 0x03
def evSeqEcc : Nat := 0x04
def evSbMask : Nat := 0x05
def evAddrFault : Nat := 0x06
def evIllegal : Nat := 0x07
def evStainCtrl : Nat := 0x08
def evStainHalt : Nat := 0x09
def evSramUe : Nat := 0x0A
def evParity : Nat := 0x0B
def evXlatFault : Nat := 0x10
def evNmUe : Nat := 0x11
def evHbmUe : Nat := 0x12
def evNmHot : Nat := 0x13
def evThrottle : Nat := 0x14
def evTlBadpkt : Nat := 0x18
def evTlDown : Nat := 0x19
def evTlFence : Nat := 0x1A
def evCollBadcomm : Nat := 0x20
def evCollCtxExhaust : Nat := 0x21
def evCollCrc : Nat := 0x22
def evCollMismatch : Nat := 0x23
def evPressNospace : Nat := 0x28
def evPressStain : Nat := 0x29
def evPhaseTimeout : Nat := 0x30
def evSliceBroken : Nat := 0x31
def evGctLoss : Nat := 0x32
def evLateApply : Nat := 0x33
def evStainExit : Nat := 0x34
def evPatternFail : Nat := 0x35
def evGuildFault : Nat := 0x36
def evApprenticeMismatch : Nat := 0x37
def evCorrected : Nat := 0x38
def evMendFail : Nat := 0x39
def evGctStep : Nat := 0x3A

/-- The class is listed in Table 13.2. -/
def classListed (c : Nat) : Bool :=
  (1 ≤ c && c ≤ 0xB) || (0x10 ≤ c && c ≤ 0x14) || (0x18 ≤ c && c ≤ 0x1A) || (0x20 ≤ c && c ≤ 0x23)
    || (0x28 ≤ c && c ≤ 0x29) || (0x30 ≤ c && c ≤ 0x3A)
/-- The class goes to a region ledger when its SOURCE lies in a region (Ledger column of Table 13.2). -/
def classRegional (c : Nat) : Bool := (1 ≤ c && c ≤ 0xB) || c == evCorrected
/-- The Suspect column of Table 13.2. -/
def classSuspect (c : Nat) : Bool :=
  [0x02, 0x03, 0x04, 0x0A, 0x0B, 0x11, 0x12, 0x13, 0x14, 0x18, 0x19, 0x22, 0x31, 0x33, 0x35].contains c

/-- An event as its detector sees it. -/
structure Ev where
  cls : Nat
  src : Nat
  job : Nat := 0
  win : Nat := 0xFF
  sev : Nat := 1
  stained : Bool := false
  injected : Bool := false
  detail : Nat := 0

/-- The time of the global counter in the form of Table 12.2. -/
def timestamp (s : State) : DWord := (s.gct.count <<< 6) ||| s.gct.frac.setWidth 64

/-- The same of the copy on base die `d` (R375). -/
def copyStamp (s : State) (d : Nat) : DWord := timestamp s + BitVec.ofInt 64 (Tbl.get 0 s.gct.skew d)
/-- The count of the copy on base die `d`. -/
def copyCount (s : State) (d : Nat) : Nat :=
  ((64 * s.gct.count.toNat + s.gct.frac.toNat + Tbl.get 0 s.gct.skew d : Int) / 64).toNat

/-- The copy nearest a unit: the I/O die's counter for a unit of the I/O die (units 32–63), and otherwise that of its
base die or of the base die under its compute die (R375). -/
def nearStamp (s : State) (src : Nat) : DWord :=
  if src / 8 % 32 = 31 ∧ 32 ≤ src / 2 ^ 13 % 64 then timestamp s else copyStamp s (src % 8)

/-- The report of an event (Table 13.3). -/
def reportOf (s : State) (e : Ev) : Report :=
  { time := nearStamp s e.src, cls := BitVec.ofNat 16 e.cls, sev := BitVec.ofNat 8 e.sev,
    flags := BitVec.ofNat 8 (b2n e.stained + 2 * b2n (e.injected || s.guard.injecting) + 8 * b2n (!s.press.steps.isEmpty)),
    src := BitVec.ofNat 32 e.src, job := BitVec.ofNat 16 e.job, win := BitVec.ofNat 8 e.win,
    detail := BitVec.ofNat 64 e.detail }

/-- Place a report in its detector's queue of 4; false when the queue is full (R398). A detector is one class of
one SOURCE (DEDUCED, log 11). -/
def enqueue (det : Nat) (r : Report) : List RepQueue → List RepQueue × Bool
  | [] => ([{ det := det, reps := [r] }], true)
  | q :: t =>
    if q.det = det then
      (if q.reps.length < 4 then ({ q with reps := q.reps ++ [r] } :: t, true) else (q :: t, false))
    else
      let (t', ok) := enqueue det r t
      (q :: t', ok)

/-- Key of a region ledger. -/
def ledgerKey (src : Nat) : Nat := 21 * (src % 8) + src / 8 % 32

/-- Queue a report at the ledger of its class and SOURCE; a full queue counts it lost (R396, R398). -/
def queueReport (s : State) (cls src : Nat) (r : Report) : State :=
  let det := 256 * src + cls
  if classRegional cls && src / 8 % 32 != 31 then
    { s with regLdg := upd {} s.regLdg (ledgerKey src) fun l =>
        let (qs, ok) := enqueue det r l.queues
        if ok then { l with queues := qs } else { l with lost := l.lost + 1 } }
  else
    let (qs, ok) := enqueue det r s.ldg.queues
    if ok then { s with ldg := { s.ldg with queues := qs } }
    else { s with ldg := { s.ldg with lost := s.ldg.lost + 1 } }

/-- Every press step that is open and has not contributed to its closing norm is suspect (R408). -/
def suspectSteps (s : State) : State :=
  { s with press := { s.press with
      steps := s.press.steps.map fun p => if p.contributed then p else { p with suspect := true } } }

/-- Raise an integrity event: its report, its interrupt source, and the suspect mark of an open press step
(R396, R408). -/
def raise (s : State) (e : Ev) : State :=
  let s := queueReport s e.cls e.src (reportOf s e)
  let s := if classListed e.cls && e.cls != evGctStep then irqEvent s (16 + e.cls) else s
  if classSuspect e.cls && (e.job == 0 || e.job == s.press.job.toNat) then suspectSteps s else s

/-- Write the ledger entry of a corrected error, a darn or a width change: class 0x38, SEV 0. -/
def corrected (s : State) (src : Nat) (detail : Nat) (inj : Bool := false) : State :=
  raise s { cls := evCorrected, src := src, sev := 0, injected := inj, detail := detail }

/-! ### Injection (R403, R404) -/

/-- The first armed injection of a class, SOURCE and window acts: its weight, and the state with one use less. -/
def takeInject (s : State) (cls src win : Nat) : Option (Nat × State) :=
  let hit := fun (i : Inject) => i.cls.toNat == cls && i.src.toNat == src && i.win == win && i.left > 0
  match s.guard.armed.find? hit with
  | none => none
  | some i =>
    let rest := s.guard.armed.map fun j => if j = i then { j with left := j.left - 1 } else j
    some (i.weight.toNat, { s with guard := { s.guard with armed := rest.filter (·.left > 0) } })

/-- `n` different positions below `m`, free: the places of injected flips. -/
def freePlaces (s : State) (n m : Nat) : List Nat :=
  let p := Config.freeNat s.free % m
  if n < 2 then [p] else [p, (p + 1 + Config.freeNat (s.free + 1) % (m - 1)) % m]

/-- What an injection brings: every entry that results carries FLAGS bit 1. -/
def underInject (f : State → State) (s : State) : State :=
  let t := f { s with guard := { s.guard with injecting := true } }
  { t with guard := { t.guard with injecting := s.guard.injecting } }

/-- A detector of a class that guards no code word is met by a use of what it guards: it reports, by `f`, where its
condition holds or an injection acts, and the use goes on by `g` where neither is so. -/
def detect (s : State) (cls src win : Nat) (cond : Bool) (f g : State → State) : State :=
  match takeInject s cls src win with
  | some (_, s) => underInject f s
  | none => if cond then f s else g s

/-- Window of the first armed injection of a class and SOURCE whose job runs: a detector that guards something of the
whole module is met by every running job (log 88). -/
def armedWin (s : State) (cls src : Nat) : Nat :=
  ((s.guard.armed.find? fun i =>
    i.cls.toNat == cls && i.src.toNat == src && decide (i.left > 0) && (Tbl.get {} s.hif.job i.win).running).map (·.win)).getD 16

/-- The same of a detector of the whole module. -/
def detectAll (s : State) (cls src : Nat) (cond : Bool) (f g : State → State) : State :=
  detect s cls src (armedWin s cls src) cond f g

/-! ### Jobs -/

/-- Window of the running job that a cluster serves. -/
def cluWin (s : State) (q : Nat) : Option Nat := (s.clu q).win.map (·.val)
/-- Job ID of the job of a window, 0 when none runs. -/
def winJob (s : State) (w : Nat) : Nat := let j := s.jobAt w; if j.running then j.job.toNat else 0
/-- Job ID of the job that a cluster serves, 0 for none. -/
def cluJob (s : State) (q : Nat) : Nat := match cluWin s q with | some w => winJob s w | none => 0
/-- WINDOW byte of a report about a cluster. -/
def cluWinByte (s : State) (q : Nat) : Nat := (cluWin s q).getD 0xFF
/-- Some job runs on the module. -/
def anyJob (s : State) : Bool := s.hif.job.any fun e => e.2.running
/-- The lowest enabled window of a job ID (R196). -/
def windowOf (s : State) (job : Nat) : Option Nat :=
  (List.range 16).find? fun w => s.mem.twEn.getLsbD w && (Tbl.get 0 s.mem.twJob w).toNat == job

/-- Raise an event of a unit of a cluster's core, with its job and window. -/
def raiseCore (s : State) (q c cls : Nat) (stained : Bool) (sev detail : Nat) : State :=
  raise s { cls := cls, src := srcCore s q c, job := cluJob s q, win := cluWinByte s q, sev := sev,
            stained := stained, detail := detail }

/-- Raise an event of a cluster's sequencer. -/
def raiseSeq (s : State) (q cls sev detail : Nat) : State :=
  raise s { cls := cls, src := srcCluster s q, job := cluJob s q, win := cluWinByte s q, sev := sev,
            detail := detail }

end Sys2Proof.Machine
end

