-- ==== Sys2Proof/Machine/Mem.lean ====
section
/-!
DEFINITION. The memory tiers of 07_memory_system.md: translation of a device address (R193–R204), placement in a
stack (R205, R206), and sector reads and writes of each tier with their check codes and stains (R207–R213,
R232).
-/
namespace Sys2Proof.Machine
open Sys2Proof

/-- Where a sector of a device address lies. -/
inductive Place where
  | nm (stack sec : Nat)
  | hbm (stack sec : Nat)
  | buf (q sec : Nat)
  | shelf (die sec : Nat)
  deriving DecidableEq, Repr

/-- Result of a translation: a fault of a kind of Table 7.4, or a place and the entry's C. -/
inductive Xlat where
  | fault (kind : Nat)
  | ok (p : Place) (c : Bool)
  deriving DecidableEq, Repr

/-! ### Translation (R193–R203) -/

/-- Entry of a window for a virtual frame. -/
def tableEntry (s : State) (win v : Nat) : DWord := Tbl.get 0 s.mem.table (win * 2 ^ 20 + v)
/-- V of an entry (Table 7.3). -/
def entV (e : DWord) : Bool := bitAt e.toNat 0
/-- W of an entry. -/
def entW (e : DWord) : Bool := bitAt e.toNat 1
/-- C of an entry. -/
def entC (e : DWord) : Bool := bitAt e.toNat 2
/-- LOC of an entry. -/
def entLoc (e : DWord) : Nat := seg e.toNat 8 4
/-- FRAME of an entry. -/
def entFrame (e : DWord) : Nat := seg e.toNat 23 9
/-- ACCT of an entry. -/
def entAcct (e : DWord) : Nat := seg e.toNat 31 24
/-- An entry made of its fields. -/
def mkEntry (w c : Bool) (loc frame acct : Nat) : DWord :=
  BitVec.ofNat 64 (1 + 2 * b2n w + 4 * b2n c + 2 ^ 4 * loc + 2 ^ 9 * frame + 2 ^ 24 * acct)

/-- First frame of the firmware reserve (R216). -/
def reserveFrame : Nat := 32608

/-- The entry's group is mapped out (R218). -/
def groupOut (s : State) (loc frame : Nat) : Bool :=
  if loc < 8 then s.mem.mappedOut.contains (0, loc, frame % 32)
  else s.mem.mappedOut.contains (1, loc - 8, frame % 16)

/-- Kind 4 of Table 7.4 for an entry with V = 1. -/
def entBad (s : State) (e : DWord) : Bool :=
  bitAt e.toNat 3 || seg e.toNat 63 32 != 0 || decide (24 ≤ entLoc e)
    || (if entLoc e < 8 then decide (24576 ≤ entFrame e) else decide (reserveFrame ≤ entFrame e))
    || groupOut s (entLoc e) (entFrame e)

/-- Place of a sector of the frame that an entry names. -/
def entPlace (e : DWord) (page : Nat) : Place :=
  let sec := entFrame e * 2 ^ 16 + page / 32
  if entLoc e < 8 then .nm (entLoc e) sec else .hbm (entLoc e - 8) sec

/-- Translate through an entry (kinds 4, 1 and 2 of Table 7.4, in that order). -/
def xlatEntry (s : State) (e : DWord) (a : Nat) (write : Bool) : Xlat :=
  if entV e && entBad s e then .fault 4
  else if !entV e then .fault 1
  else if write && !entW e then .fault 2
  else .ok (entPlace e (a % 2 ^ 21)) (entC e)

/-- Bytes of a shelf window (R195). -/
def shelfBytes (s : State) (d : Nat) : Nat := (s.dieMem d).shelfWin.toNat * 2 ^ 25

/-- The result that the address alone decides (kinds 3 and 5), none for the translated range. -/
def xlatDirect (s : State) (win : Nat) (a : Int) : Option Xlat :=
  if a < 0 then some (.fault 3)
  else
    let n := a.toNat
    if n < 2 ^ 41 then none
    else if 2 ^ 51 ≤ n ∧ n < 2 ^ 51 + 2560 * 2 ^ 20 then
      let q := (n - 2 ^ 51) / 2 ^ 20
      some (if cluWin s q = some win then .ok (.buf q (n % 2 ^ 20 / 32)) false else .fault 5)
    else if 2 ^ 51 + 2 ^ 32 ≤ n ∧ n < 2 ^ 51 + 2 ^ 32 + 2 ^ 31 then
      let d := n % 2 ^ 31 / 2 ^ 28
      if n % 2 ^ 28 < shelfBytes s d then
        some (if (s.dieMem d).shelfTw.toNat = win then .ok (.shelf d (n % 2 ^ 28 / 32)) false else .fault 5)
      else some (.fault 3)
    else some (.fault 3)

/-- Translate a device address of a window (R203). -/
def xlate (s : State) (win : Nat) (a : Int) (write : Bool) : Xlat :=
  match xlatDirect s win a with
  | some r => r
  | none => xlatEntry s (tableEntry s win (a.toNat / 2 ^ 21)) a.toNat write

/-- The base die whose translation cache serves a unit: that of a core, sequencer or unit of a base die. Units of the I/O
die (numbers 32 and above) have none (R199). -/
def cacheDie (src : Nat) : Option Nat := if src / 8 % 32 = 31 ∧ 32 ≤ src / 2 ^ 13 % 64 then none else some (src % 8)
/-- The entry that a unit's access uses: the one its base die holds, or the table's on a miss (R199; log 17). -/
def entryBy (s : State) (src win v : Nat) : DWord :=
  match (cacheDie src).bind fun d => (s.dieMem d).xlat.find? fun e => e.1 == win * 2 ^ 20 + v with
  | some e => e.2
  | none => tableEntry s win v
/-- Translate a device address for a unit (R199, R203). -/
def xlateBy (s : State) (src win : Nat) (a : Int) (write : Bool) : Xlat :=
  match xlatDirect s win a with
  | some r => r
  | none => xlatEntry s (entryBy s src win (a.toNat / 2 ^ 21)) a.toNat write

/-- Record a translation fault and raise `XLAT_FAULT` (R204, R236, Tables 7.9, 7.10); `stops` for a write or an
instruction fetch, which stops the job. -/
def xlatFault (s : State) (src win : Nat) (a : Int) (kind : Nat) (write stops : Bool) (inj : Bool := false) : State :=
  let addr := wrap 52 a
  let m := s.mem
  let m := if m.fltValid then { m with fltCount := BitVec.ofNat 16 (satTo 16 (m.fltCount.toNat + 1)) }
    else { m with fltValid := true, fltAddr := BitVec.ofNat 64 addr, fltKind := BitVec.ofNat 4 kind,
                  fltWin := BitVec.ofNat 4 win, fltWrite := write,
                  fltCount := BitVec.ofNat 16 (satTo 16 (m.fltCount.toNat + 1)) }
  raise { s with mem := m }
    { cls := evXlatFault, src := src, job := winJob s win, win := win, sev := if stops then 2 else 1, stained := !stops,
      injected := inj, detail := addr }

/-! ### Placement (R205, R206, R221) -/

/-- Where a near-memory sector lies (R205, Table 7.5). -/
structure NmPlace where
  /-- Sector in the 256-byte granule. -/
  sector : Nat
  /-- Logical channel of the stack, and the near-memory die that it lies on. -/
  chan : Nat
  die : Nat
  /-- Granule in the row, bank and row of the channel. -/
  column : Nat
  bank : Nat
  row : Nat
  deriving DecidableEq, Repr

/-- Logical near-memory channel of a sector of a stack (Table 7.5). -/
def nmChan (sec : Nat) : Nat :=
  let o := sec * 32
  4 * seg o 25 21 + (seg o 9 8 ^^^ seg o 14 13)

/-- The decode of Table 7.5, of a sector of a stack. -/
def nmPlaceOf (sec : Nat) : NmPlace :=
  let o := sec * 32
  { sector := seg o 7 5, chan := nmChan sec, die := nmChan sec / 32, column := seg o 12 10
    bank := seg o 16 13 ^^^ seg o 29 26, row := seg o 20 17 + 16 * seg o 35 26 }

/-- Pseudo-channel of a sector of an HBM4 stack (Table 7.6). -/
def hbmPch (sec : Nat) : Nat :=
  let o := sec * 32
  4 * seg o 24 21 + (seg o 9 8 ^^^ seg o 11 10)

/-- State of near-memory channel `c` of die `d`. -/
def nmCh (s : State) (d c : Nat) : ChanSt := Tbl.get {} (s.dieMem d).nm c
/-- Change it. -/
def updNmCh (s : State) (d c : Nat) (f : ChanSt → ChanSt) : State :=
  s.updDieMem d fun m => { m with nm := upd {} m.nm c f }
/-- State of HBM4 channel `c` of die `d`. -/
def hbmCh (s : State) (d c : Nat) : ChanSt := Tbl.get {} (s.dieMem d).hbm c
/-- Change it. -/
def updHbmCh (s : State) (d c : Nat) (f : ChanSt → ChanSt) : State :=
  s.updDieMem d fun m => { m with hbm := upd {} m.hbm c f }

/-! ### Near memory (R208–R210) -/

/-- The code word of a sector: data, metadata with its stain bit, check symbols (R208, R209). -/
def nmEncode (data : List Byte) (stain : Bool) : List Byte :=
  let d := cut data 0 32 ++ [BitVec.ofNat 8 (b2n stain)]
  d ++ rsCheck 3 d
/-- The sector lies in a channel whose backing changed, and has not been written since (Table 17.2). -/
def nmRemadeAt (s : State) (stack sec : Nat) : Bool :=
  s.mem.nmRemade.contains (stack, nmChan sec) && !Tbl.get false s.mem.nmDone (stack * 2 ^ 31 + sec)
/-- The 36 symbols of a sector as stored; a remade sector holds free bytes and its stain. -/
def nmSyms (s : State) (stack sec : Nat) : List Byte :=
  if nmRemadeAt s stack sec then nmEncode ((List.range 32).map fun i => Config.freeByte (stack * 2 ^ 31 + sec) i) true
  else (List.range 36).map fun i => Tbl.get 0 s.mem.nm ((stack * 2 ^ 31 + sec) * 36 + i)
/-- Store the 36 symbols of a sector. -/
def nmPut (s : State) (stack sec : Nat) (w : List Byte) : State :=
  let t := (List.range 36).foldl
    (fun t i => Tbl.set 0 t ((stack * 2 ^ 31 + sec) * 36 + i) (byteAt w i)) s.mem.nm
  let done := if nmRemadeAt s stack sec then Tbl.set false s.mem.nmDone (stack * 2 ^ 31 + sec) true else s.mem.nmDone
  { s with mem := { s.mem with nm := t, nmDone := done } }
/-- Store a sector. -/
def nmStore (s : State) (stack sec : Nat) (data : List Byte) (stain : Bool) : State :=
  nmPut s stack sec (nmEncode data stain)

/-- What a decoded sector is: data, stain, and how it was found. -/
structure Decoded where
  data : List Byte
  stain : Bool
  /-- 0 clean, 1 corrected, 2 uncorrectable. -/
  how : Nat
  pos : Nat := 0
  err : Byte := 0

/-- Decode the symbols read (R209, R210). -/
def nmDecode (w : List Byte) : Decoded :=
  match rsDecode1 3 w with
  | .clean =>
    if (byteAt w 32).toNat ≥ 2 then { data := cut w 0 32, stain := true, how := 2 }
    else { data := cut w 0 32, stain := byteAt w 32 == 1, how := 0 }
  | .corrected p e =>
    let v := fixSym w p e
    if (byteAt v 32).toNat ≥ 2 then { data := cut v 0 32, stain := true, how := 2 }
    else { data := cut v 0 32, stain := byteAt v 32 == 1, how := 1, pos := p, err := e }
  | .bad => { data := cut w 0 32, stain := true, how := 2 }

/-- Lanes that an error value of symbol `i` identifies (log 15): bits [3:0] on lane 2i, [7:4] on lane 2i + 1. -/
def errLanes (i : Nat) (e : Byte) : List Nat :=
  (if e.toNat % 16 ≠ 0 then [2 * i] else []) ++ (if e.toNat / 16 ≠ 0 then [2 * i + 1] else [])

/-- Read a sector of near memory with upsets met on the way, with the effects of R210. -/
def nmReadWith (s : State) (stack sec : Nat) (upset : List (Nat × Byte)) (inj : Bool := false) :
    State × List Byte × Bool :=
  let w := upset.foldl (fun w u => fixSym w u.1 u.2) (nmSyms s stack sec)
  let d := nmDecode w
  let ch := nmChan sec
  match d.how with
  | 0 => (s, d.data, d.stain)
  | 1 =>
    let s := corrected s (srcUnit stack unitNm) (ch + 2 ^ 8 * d.pos + 2 ^ 16 * d.err.toNat) inj
    (updNmCh s stack ch fun c =>
      { c with lane := (errLanes d.pos d.err).foldl (fun t l => upd 0 t l (· + 1)) c.lane }, d.data, d.stain)
  | _ =>
    let s := nmStore s stack sec d.data true
    (raise s { cls := evNmUe, src := srcUnit stack unitNm, stained := true, injected := inj,
               detail := stack * 2 ^ 36 + sec * 32 },
      d.data, true)

/-! ### HBM4 (R211, R216) -/

/-- Bytes of an HBM4 sector. -/
def hbmData (s : State) (stack sec : Nat) : List Byte :=
  (List.range 32).map fun i => Tbl.get 0 s.mem.hbm (stack * 2 ^ 36 + sec * 32 + i)
/-- Store an HBM4 sector and its bit of the stain map; what was stored there, with any error of it, is gone. -/
def hbmStore (s : State) (stack sec : Nat) (data : List Byte) (stain : Bool) : State :=
  { s with mem := { s.mem with
      hbmErr := Tbl.set .clean s.mem.hbmErr (stack * 2 ^ 31 + sec) .clean
      hbm := (List.range 32).foldl (fun t i => Tbl.set 0 t (stack * 2 ^ 36 + sec * 32 + i) (byteAt data i)) s.mem.hbm
      hbmStain := Tbl.set false s.mem.hbmStain (stack * 2 ^ 31 + sec) stain } }
/-- Bit of the stain map. -/
def hbmStained (s : State) (stack sec : Nat) : Bool := Tbl.get false s.mem.hbmStain (stack * 2 ^ 31 + sec)

/-- What the stack reports of a read: an error met now, or the one that the sector holds (log 133). -/
def hbmReport (s : State) (stack sec : Nat) (rep : EccReport) : EccReport :=
  if rep = .clean then Tbl.get .clean s.mem.hbmErr (stack * 2 ^ 31 + sec) else rep
/-- Bytes as an error of three or more bits delivers them. -/
def escapeBytes (rep : EccReport) (d : List Byte) : List Byte :=
  match rep with
  | .escaped _ l => l.foldl (fun b i => alter b (i.val / 8) (· ^^^ BitVec.ofNat 8 (2 ^ (i.val % 8)))) d
  | _ => d

/-- An error met now stays in the sector, because the controller does not write it back on a read (R211; log 133). -/
def hbmNote (s : State) (stack sec : Nat) (rep : EccReport) : State :=
  if rep = .clean then s
  else { s with mem := { s.mem with hbmErr := Tbl.set .clean s.mem.hbmErr (stack * 2 ^ 31 + sec) rep } }

/-- Read an HBM4 sector as the stack reports it (R211). -/
def hbmReadWith (s : State) (stack sec : Nat) (rep : EccReport) (inj : Bool := false) :
    State × List Byte × Bool :=
  let r := hbmReport s stack sec rep
  let d := escapeBytes r (hbmData s stack sec)
  let s := hbmNote s stack sec rep
  match r with
  | .clean | .escaped false _ => (s, d, hbmStained s stack sec)
  | .corrected | .escaped true _ =>
    (corrected s (srcUnit (stack / 2) unitHbm) (stack * 2 ^ 36 + sec * 32) inj, d, hbmStained s stack sec)
  | .uncorrected =>
    let s := { s with mem := { s.mem with hbmStain := Tbl.set false s.mem.hbmStain (stack * 2 ^ 31 + sec) true } }
    (raise s { cls := evHbmUe, src := srcUnit (stack / 2) unitHbm, stained := true, injected := inj,
               detail := stack * 2 ^ 36 + sec * 32 }, d, true)

/-! ### Shelf cache (R230) -/

/-- The cached copy of a DRAM sector, if its base die's shelf holds one. -/
def cachedAt (s : State) (hbm : Bool) (stack sec : Nat) : Option Cached :=
  (s.dieMem (if hbm then stack / 2 else stack)).cache.find? fun c => c.hbm == hbm && c.stack == stack && c.sec == sec

/-- Change a cached copy. -/
def updCached (s : State) (hbm : Bool) (stack sec : Nat) (f : Cached → Cached) : State :=
  s.updDieMem (if hbm then stack / 2 else stack) fun m =>
    { m with cache := m.cache.map fun c => if c.hbm == hbm && c.stack == stack && c.sec == sec then f c else c }

/-! ### Injected errors (R404) -/

/-- Symbol errors that an injection into a near-memory read brings. -/
def freeSymErrs (s : State) (n : Nat) : List (Nat × Byte) :=
  (freePlaces s n 36).map fun p => (p, BitVec.ofNat 8 (1 + (Config.freeByte s.free p).toNat % 255))

/-- Errors met by a near-memory read in a window, with whether they were injected. -/
def nmErrs (s : State) (stack : Nat) (win : Option Nat) (upset : List (Nat × Byte)) :
    State × List (Nat × Byte) × Bool :=
  match win.bind (takeInject s evNmUe (srcUnit stack unitNm)) with
  | some (w, s) => ({ s with free := s.free + 2 }, freeSymErrs s w, true)
  | none => (s, upset, false)

/-- What an HBM4 stack reports of a read in a window. -/
def hbmErrs (s : State) (stack : Nat) (win : Option Nat) (rep : EccReport) : State × EccReport × Bool :=
  match win.bind (takeInject s evHbmUe (srcUnit (stack / 2) unitHbm)) with
  | some (w, s) => (s, if w = 1 then .corrected else .uncorrected, true)
  | none => (s, rep, false)

/-! ### Sectors of any tier -/

/-- Merge enabled bytes over old ones. -/
def mergeBytes (old new : List Byte) (en : Nat) : List Byte :=
  (List.range 32).map fun i => if bitAt en i then byteAt new i else byteAt old i

/-- Every byte of a sector is enabled. -/
def wholeEn : Nat := 2 ^ 32 - 1

/-- Read of a DRAM sector below the shelf, for a window where one is known. -/
def dramRead (s : State) (hbm : Bool) (stack sec : Nat) (upset : List (Nat × Byte)) (rep : EccReport)
    (win : Option Nat := none) : State × List Byte × Bool :=
  if hbm then
    let (s, rep, inj) := hbmErrs s stack win rep
    hbmReadWith s stack sec rep inj
  else
    let (s, upset, inj) := nmErrs s stack win upset
    nmReadWith s stack sec upset inj

/-- Store of a whole DRAM sector below the shelf. -/
def dramStore (s : State) (hbm : Bool) (stack sec : Nat) (data : List Byte) (stain : Bool) : State :=
  if hbm then hbmStore s stack sec data stain else nmStore s stack sec data stain

/-- Write of a DRAM sector below the shelf: a partial write reads, merges and writes the whole sector (R207). -/
def dramWrite (s : State) (hbm : Bool) (stack sec : Nat) (data : List Byte) (en : Nat) (stain : Bool)
    (upset : List (Nat × Byte)) (rep : EccReport) (win : Option Nat := none) : State :=
  if en % 2 ^ 32 = wholeEn then dramStore s hbm stack sec data stain
  else if en % 2 ^ 32 = 0 then s
  else
    let (s, old, st) := dramRead s hbm stack sec upset rep win
    dramStore s hbm stack sec (mergeBytes old data en) (stain || st)

/-- Bytes of a sector of a byte table. -/
def tblSector (t : Tbl Byte) (base : Nat) : List Byte := (List.range 32).map fun i => Tbl.get 0 t (base + i)
/-- Put a sector of a byte table. -/
def tblPutSector (t : Tbl Byte) (base : Nat) (d : List Byte) : Tbl Byte :=
  (List.range d.length).foldl (fun t i => Tbl.set 0 t (base + i) (byteAt d i)) t

/-- Read a sector of any tier: its bytes and its stain. -/
def secRead (s : State) (p : Place) (win : Option Nat := none) : State × List Byte × Bool :=
  match p with
  | .nm stack sec =>
    match cachedAt s false stack sec with
    | some c => (s, c.data, c.stain)
    | none => dramRead s false stack sec [] .clean win
  | .hbm stack sec =>
    match cachedAt s true stack sec with
    | some c => (s, c.data, c.stain)
    | none => dramRead s true stack sec [] .clean win
  | .buf q sec => (s, tblSector s.mem.buf (q * 2 ^ 20 + sec * 32), !Tbl.get false s.mem.bufClean (q * 2 ^ 15 + sec))
  | .shelf d sec =>
    (s, tblSector s.mem.shelf (d * 2 ^ 28 + sec * 32), !Tbl.get false s.mem.shelfClean (d * 2 ^ 23 + sec))

/-- Write a sector of any tier with byte enables: the sector ends stained when the write is stained, or when it
was stained and is not wholly covered (R186, R232). -/
def secWrite (s : State) (p : Place) (data : List Byte) (en : Nat) (stain : Bool) (win : Option Nat := none) : State :=
  let whole := en % 2 ^ 32 = wholeEn
  let inCache := fun (hbm : Bool) (stack sec : Nat) =>
    updCached s hbm stack sec fun c =>
      { c with data := mergeBytes c.data data en, stain := stain || (!whole && c.stain), dirty := true }
  match p with
  | .nm stack sec =>
    match cachedAt s false stack sec with
    | some _ => inCache false stack sec
    | none => dramWrite s false stack sec data en stain [] .clean win
  | .hbm stack sec =>
    match cachedAt s true stack sec with
    | some _ => inCache true stack sec
    | none => dramWrite s true stack sec data en stain [] .clean win
  | .buf q sec =>
    let old := tblSector s.mem.buf (q * 2 ^ 20 + sec * 32)
    let clean := Tbl.get false s.mem.bufClean (q * 2 ^ 15 + sec)
    { s with mem := { s.mem with
        buf := tblPutSector s.mem.buf (q * 2 ^ 20 + sec * 32) (mergeBytes old data en)
        bufClean := Tbl.set false s.mem.bufClean (q * 2 ^ 15 + sec) (!stain && (whole || clean)) } }
  | .shelf d sec =>
    let old := tblSector s.mem.shelf (d * 2 ^ 28 + sec * 32)
    let clean := Tbl.get false s.mem.shelfClean (d * 2 ^ 23 + sec)
    { s with mem := { s.mem with
        shelf := tblPutSector s.mem.shelf (d * 2 ^ 28 + sec * 32) (mergeBytes old data en)
        shelfClean := Tbl.set false s.mem.shelfClean (d * 2 ^ 23 + sec) (!stain && (whole || clean)) } }

/-! ### Scratchpads (R129, R186, R192) -/

/-- Sectors that hold `n` bytes from offset `o` of a sector. -/
def sectorSpan (o n : Nat) : Nat := if n = 0 then 0 else ceilDiv (o + n) 32

/-- `n` bytes of a scratchpad. -/
def padBytes (k : CoreSt) (a n : Nat) : List Byte := (List.range n).map fun i => Tbl.get 0 k.pad (a + i)
/-- The sector is stained. -/
def padStained (k : CoreSt) (sec : Nat) : Bool := !Tbl.get false k.padClean sec
/-- Some sector of the range is stained. -/
def padRangeStained (k : CoreSt) (a n : Nat) : Bool :=
  (List.range (sectorSpan (a % 32) n)).any fun i => padStained k (a / 32 + i)
/-- Write bytes within one sector: the stain rule of R181 and R186. -/
def padPutIn (k : CoreSt) (a : Nat) (b : List Byte) (stain : Bool) : CoreSt :=
  let sec := a / 32
  let clean := !stain && (b.length == 32 || Tbl.get false k.padClean sec)
  { k with pad := tblPutSector k.pad a b, padClean := Tbl.set false k.padClean sec clean }
/-- Write bytes that may span sectors. -/
def padPut (k : CoreSt) (a : Nat) (b : List Byte) (stain : Bool) : CoreSt :=
  (List.range (sectorSpan (a % 32) b.length)).foldl (fun k i =>
    let lo := max a (32 * (a / 32 + i))
    let hi := min (a + b.length) (32 * (a / 32 + i + 1))
    padPutIn k lo (cut b (lo - a) (hi - lo)) stain) k

end Sys2Proof.Machine
end

