-- ==== Sys2Proof/Machine/Topo.lean ====
section
/-!
DEFINITION. The geometry of the torus and of the slice: coordinates (R239), the slice's box and map (R289,
R293–R297), dimension-order directions (R271), datelines (R272), the ply hash (R277), the parent and depth of
counter synchronisation (R376), groups, ranks and the tree of a collective (R313, R326).
-/
namespace Sys2Proof.Machine
open Sys2Proof

/-- Coordinate of dimension `d` (0 X, 1 Y, 2 Z, 3 W) in the layout of R239. -/
def dimOf (c : Nat) (d : Nat) : Nat := seg c (3 * d + 2) (3 * d)
/-- A coordinate with that of dimension `d` replaced. -/
def setDim (c d v : Nat) : Nat := setSeg c (3 * d + 2) (3 * d) v
/-- The module's own coordinate (R238). -/
def myCoord (s : State) : Nat := s.tl.coord.toNat
/-- Torus size in dimension `d`. -/
def torusN (s : State) (d : Nat) : Nat := dimOf s.tl.size.toNat d + 1
/-- Slice base in dimension `d`, as a base die's `TL_SLICE` holds it. -/
def sliceBAt (s : State) (die d : Nat) : Nat := dimOf (Tbl.get 0 s.tl.base die).toNat d
/-- Slice base in dimension `d`, as base die 0 holds it. -/
def sliceB (s : State) (d : Nat) : Nat := sliceBAt s 0 d
/-- `K_M1` of a base die; it resets to the torus size (Table 8.13). -/
def kM1 (s : State) (die : Nat) : Nat := ((Tbl.get none s.tl.k die).getD s.tl.size).toNat
/-- Slice size in dimension `d`, as a base die holds it. -/
def sliceKAt (s : State) (die d : Nat) : Nat := dimOf (kM1 s die) d + 1
/-- Slice size in dimension `d`. -/
def sliceK (s : State) (d : Nat) : Nat := sliceKAt s 0 d
/-- Number of members of the slice. -/
def sliceSize (s : State) : Nat := sliceK s 0 * sliceK s 1 * sliceK s 2 * sliceK s 3

/-- A coordinate lies in the slice's box in one dimension, by a base die's `TL_SLICE` (R288). -/
def inDim (s : State) (die d v : Nat) : Bool :=
  let n := torusN s d
  decide (v < n) && decide ((v + n - sliceBAt s die d % n) % n < sliceKAt s die d)
/-- A coordinate lies in the slice's box, by a base die's `TL_SLICE` (R288). -/
def inSlice (s : State) (die c : Nat) : Bool := (List.range 4).all fun d => inDim s die d (dimOf c d)

/-! ### The slice map (R293–R297) -/

/-- PERM_j. -/
def perm (m j : Nat) : Nat := seg m (2 * j + 1) (2 * j)
/-- REFL_D. -/
def refl (m d : Nat) : Bool := bitAt m (8 + d)
/-- ORIGIN_D. -/
def origin (m d : Nat) : Nat := dimOf (seg m 23 12) d

/-- Logical coordinate of a physical one (R293, R295). -/
def logicalOf (s : State) (p : Nat) : Nat :=
  let m := s.slc.map.toNat
  (List.range 4).foldl (fun l j =>
    let d := perm m j
    let rel := (dimOf p d + torusN s d - sliceB s d % torusN s d) % torusN s d
    let k := sliceK s d
    let v := if refl m d then (origin m d + 8 * k - rel) % k else (rel + 8 * k - origin m d) % k
    setDim l j v) 0

/-- Physical coordinate of a logical one: the inverse of R293 (R296). -/
def physicalOf (s : State) (l : Nat) : Nat :=
  let m := s.slc.map.toNat
  (List.range 4).foldl (fun p j =>
    let d := perm m j
    let k := sliceK s d
    let rel := if refl m d then (origin m d + 8 * k - dimOf l j) % k else (dimOf l j + origin m d) % k
    setDim p d ((sliceB s d + rel) % torusN s d)) 0

/-- Size of logical axis `j`. -/
def axisK (s : State) (j : Nat) : Nat := sliceK s (perm s.slc.map.toNat j)
/-- The module's logical coordinate. -/
def logicalCoord (s : State) : Nat := logicalOf s (myCoord s)
/-- The logical shape of Table 9.4: size minus 1 of each axis. -/
def logicalShape (s : State) : Nat := (List.range 4).foldl (fun a j => setDim a j (axisK s j - 1)) 0
/-- The member at logical coordinate 0 is the slice master. -/
def isMaster (s : State) : Bool := s.slc.member && logicalCoord s == 0

/-- A map is valid for a base and sizes (R294). -/
def mapValid (size base kM1 m : Nat) : Bool :=
  let ps := (List.range 4).map (perm m)
  let _ := base
  (List.range 4).all (fun d => ps.contains d) && (List.range 4).all fun d =>
    let k := dimOf kM1 d + 1
    let n := dimOf size d + 1
    decide (origin m d < k) && (k == n || (origin m d == if refl m d then k - 1 else 0))

/-- The members of the slice, as physical coordinates, by ascending logical coordinate. -/
def members (s : State) : List Nat :=
  ((List.range 4096).filter fun l => (List.range 4).all fun j => decide (dimOf l j < axisK s j)).map (physicalOf s)

/-! ### Directions (R271, R272) -/

/-- The direction from place `c` toward place `t` in dimension `d` by a base die's `TL_SLICE`: some true is plus
(R271). -/
def dirIn (s : State) (die d c t src : Nat) : Option Bool :=
  let n := torusN s d
  if c = t then none
  else if sliceKAt s die d = n then
    let e := (t + n - c) % n
    if 2 * e < n then some true
    else if 2 * e > n then some false
    else some (src % 2 == 0)
  else
    let b := sliceBAt s die d % n
    some (decide ((t + n - b) % n > (c + n - b) % n))

/-- The direction of a packet at `cur` in dimension `d` (R271). -/
def direction (s : State) (die cur dest src d : Nat) : Option Bool :=
  dirIn s die d (dimOf cur d) (dimOf dest d) (dimOf src d)

/-- The first dimension in which a coordinate differs from its destination, with the direction. -/
def nextHop (s : State) (die cur dest src : Nat) : Option (Nat × Bool) :=
  (List.range 4).findSome? fun d => (direction s die cur dest src d).map fun p => (d, p)

/-- The neighbour in a direction (R241). -/
def neighbour (s : State) (c d : Nat) (plus : Bool) : Nat :=
  let n := torusN s d
  setDim c d (if plus then (dimOf c d + 1) % n else (dimOf c d + n - 1) % n)

/-- DIR of Table 8.1. -/
def dirNum (d : Nat) (plus : Bool) : Nat := 2 * d + (if plus then 0 else 1)
/-- The link of a ply in a direction. -/
def linkNum (ply d : Nat) (plus : Bool) : Nat := 8 * ply + dirNum d plus
/-- Dimension of a link. -/
def linkDim (l : Nat) : Nat := l % 8 / 2
/-- The link is a plus link. -/
def linkPlus (l : Nat) : Bool := l % 2 == 0
/-- Base die of a link (Table 8.1). -/
def linkDie (l : Nat) : Nat := l / 8 + (if l % 8 < 4 then 0 else 4)
/-- The link of die `b` with index `n` (R240). -/
def dieLink (b n : Nat) : Nat := 8 * (b % 4) + 4 * (b / 4) + n
/-- The link crosses the dateline at this module (R272). -/
def dateline (s : State) (d : Nat) (plus : Bool) : Bool :=
  dimOf (myCoord s) d == (if plus then torusN s d - 1 else 0)

/-- The ply hash (R277). -/
def plyHash (dest key : Nat) : Nat :=
  let x := dest ^^^ (key % 4096) ^^^ seg key 15 4
  (seg x 1 0 ^^^ seg x 3 2 ^^^ seg x 5 4 ^^^ seg x 7 6 ^^^ seg x 9 8 ^^^ seg x 11 10)

/-! ### Counter tree (R376) -/

/-- `GCT_STATUS.SYNCED`: the slice master is SYNCED whenever it is a member (R379). -/
def gctSynced (s : State) : Bool := isMaster s || s.gct.synced

/-- Physical coordinate of the slice master. -/
def masterCoord (s : State) : Nat := physicalOf s 0
/-- The parent of this member: one link toward the master. -/
def parentCoord (s : State) : Option Nat :=
  (nextHop s 0 (myCoord s) (masterCoord s) (myCoord s)).map fun (d, p) => neighbour s (myCoord s) d p

/-! ### Groups and trees (R313, R326) -/

/-- Group axes of a ROLES field, given the roles of the job's axes: `role` has 2 bits for each logical axis. -/
def groupAxes (role roles : Nat) : List Nat :=
  (List.range 4).filter fun j => bitAt roles (seg role (2 * j + 1) (2 * j))

/-- The group of a logical coordinate, by ascending rank: its members as logical coordinates. -/
def groupMembers (s : State) (axes : List Nat) (l : Nat) : List Nat :=
  axes.foldl (fun ls j => (List.range (axisK s j)).flatMap fun v => ls.map fun c => setDim c j v) [l]

/-- Rank of a logical coordinate in its group (R313). -/
def rankOf (s : State) (axes : List Nat) (l : Nat) : Nat :=
  (axes.foldl (fun (a, w) j => (a + w * dimOf l j, w * axisK s j)) (0, 1)).1

/-- The levels of the tree: the axes that each level folds, plane, line, root (R326). -/
def treeLevels (axes : List Nat) : List (List Nat) :=
  [axes.take 2, (axes.drop 2).take 1, (axes.drop 3).take 1].filter (· ≠ [])

/-- The node of a level: the coordinate with the root's place on the axes of this and the earlier levels. -/
def toRoot (l root : Nat) (axes : List Nat) : Nat := axes.foldl (fun c j => setDim c j (dimOf root j)) l

end Sys2Proof.Machine
end

