-- ==== Sys2Proof/Machine/Operands.lean ====
section
/-!
DEFINITION. The operand forms of an instruction word: fields of the scalar and engine formats (R140, R141), mask
specifiers (R143), scalar, mask and descriptor registers with their stains (R110, R147, R153), loop descriptors
and the addresses they generate (R148–R151).
-/
namespace Sys2Proof.Machine
open Sys2Proof

/-! ### Fields (Tables 5.2, 5.3) -/

/-- The 128-bit word of an opcode and bits [127:8]. -/
def wordOf (op : Nat) (w : BitVec 120) : Nat := op + 256 * w.toNat
/-- OPCODE. -/
def fOp (n : Nat) : Nat := n % 256
/-- RD. -/
def fRd (n : Nat) : Nat := seg n 13 8
/-- RA. -/
def fRa (n : Nat) : Nat := seg n 19 14
/-- RB. -/
def fRb (n : Nat) : Nat := seg n 25 20
/-- SUB. -/
def fSub (n : Nat) : Nat := seg n 31 26
/-- IMM. -/
def fImm (n : Nat) : Nat := seg n 95 32
/-- IMM as a signed value. -/
def fImmS (n : Nat) : Int := sgn 64 (fImm n)
/-- The descriptor register that slot `i` names. -/
def fSlot (n i : Nat) : Nat := seg n (43 + 4 * i) (40 + 4 * i)
/-- The PCO bit of slot `i`. -/
def fPco (n i : Nat) : Bool := bitAt n (56 + i)
/-- STN is halt. -/
def fHalt (n : Nat) : Bool := seg n 37 36 == 1

/-! ### Registers (R109, R110, R147) -/

/-- Value of scalar register `r`; s0 reads 0. -/
def sReg (k : Cluster) (r : Nat) : Nat := if r = 0 then 0 else (Tbl.get 0 k.sreg r).toNat
/-- Stain of scalar register `r`; that of s0 is clear. -/
def sStain (k : Cluster) (r : Nat) : Bool := r != 0 && k.sstain.getLsbD r
/-- Write a scalar register and its stain; a write of s0 is discarded. -/
def putS (k : Cluster) (r v : Nat) (st : Bool) : Cluster :=
  if r = 0 then k
  else { k with sreg := Tbl.set 0 k.sreg r (BitVec.ofNat 64 v)
                sstain := BitVec.ofNat 64 (setSeg k.sstain.toNat r r (b2n st)) }
/-- Value of mask register `m`. -/
def mReg (k : Cluster) (m : Nat) : Nat := (Tbl.get 0 k.mreg m).toNat
/-- Value of descriptor `l`. -/
def lReg (k : Cluster) (l : Nat) : Nat := (Tbl.get 0 k.ldesc l).toNat
/-- Stain of descriptor `l`. -/
def lStain (k : Cluster) (l : Nat) : Bool := k.lstain.getLsbD l

/-- A write of a descriptor from an unstained register: the words it fully writes count toward clearing the stain
(R153); `clears` when it is an `LDW` of word 6 or 7. -/
def putL (k : Cluster) (l v : Nat) (st : Bool) (word : Option Nat) (clears : Bool) : Cluster :=
  let k := { k with ldesc := Tbl.set 0 k.ldesc l (BitVec.ofNat 512 v) }
  if st then
    { k with lstain := BitVec.ofNat 16 (setSeg k.lstain.toNat l l 1), lclean := Tbl.set 0 k.lclean l 0 }
  else
    match word with
    | none => k
    | some i =>
      let m := (Tbl.get 0 k.lclean l).toNat
      let m := setSeg m i i 1
      if lStain k l then
        if clears && m == 255 then
          { k with lstain := BitVec.ofNat 16 (setSeg k.lstain.toNat l l 0), lclean := Tbl.set 0 k.lclean l 0 }
        else { k with lclean := Tbl.set 0 k.lclean l (BitVec.ofNat 8 m) }
      else k

/-! ### Mask specifiers (Table 5.4) -/

/-- The 64-bit mask of a specifier, as registers stand. -/
def maskOf (k : Cluster) (spec : Nat) : Nat :=
  match seg spec 13 12 with
  | 1 =>
    let f := seg spec 11 6
    let l := seg spec 5 0
    if f ≤ l then 2 ^ (l + 1) - 2 ^ f else 0
  | 2 => sReg k (seg spec 5 0)
  | _ => 0
/-- Reason codes of a specifier. -/
def maskReasons (spec : Nat) : List Nat :=
  match seg spec 13 12 with
  | 0 => if seg spec 11 0 = 0 then [] else [0x02]
  | 1 => if seg spec 11 6 ≤ seg spec 5 0 then [] else [0x03]
  | 2 => if seg spec 11 6 = 0 then [] else [0x02]
  | _ => [0x03]
/-- A register-form specifier names a stained register. -/
def maskStain (k : Cluster) (spec : Nat) : Bool := seg spec 13 12 == 2 && sStain k (seg spec 5 0)

/-! ### Loop descriptors (R148–R151) -/

/-- COUNT_k. -/
def dCount (d k : Nat) : Nat := seg d (64 * k + 23) (64 * k)
/-- STRIDE_k. -/
def dStride (d k : Nat) : Int := sgn 32 (seg d (64 * k + 63) (64 * k + 32))
/-- BASE. -/
def dBase (d : Nat) : Nat := seg d 435 384
/-- LEVELS. -/
def dLevels (d : Nat) : Nat := seg d 450 448
/-- SPACE is the scratchpad. -/
def dPad (d : Nat) : Bool := bitAt d 452
/-- CORE_STRIDE. -/
def dCore (d : Nat) : Int := sgn 32 (seg d 511 480)
/-- Iterations of level `k`: 1 in an unused level. -/
def dIter (d k : Nat) : Nat := if k < dLevels d then dCount d k else 1
/-- Number of addresses generated. -/
def dTotal (d : Nat) : Nat := (List.range 6).foldl (fun a k => a * dIter d k) 1
/-- R149 holds. -/
def dOk (d : Nat) : Bool :=
  1 ≤ dLevels d && dLevels d ≤ 6
    && (List.range 6).all (fun k => decide (dLevels d ≤ k) || decide (1 ≤ dCount d k))
    && (List.range 6).all (fun k => seg d (64 * k + 31) (64 * k + 24) == 0)
    && seg d 447 436 == 0 && !bitAt d 451 && seg d 479 453 == 0
    && decide (dTotal d ≤ 2 ^ 40)
/-- Address of element `n` for a core (R150). -/
def dAddr (d : Nat) (pco : Bool) (core n : Nat) : Int :=
  let a : Int := dBase d + (if pco then core * dCore d else 0)
  ((List.range 6).foldl (fun (acc : Int × Nat) k =>
    (acc.1 + (acc.2 % dIter d k : Nat) * dStride d k, acc.2 / dIter d k)) (a, n)).1

/-! ### Stored instructions -/

/-- Descriptor of slot `i` of an engine instruction as read at issue. -/
def eDesc (e : EInst) (i : Nat) : Nat :=
  match i with
  | 0 => e.d0.toNat
  | 1 => e.d1.toNat
  | 2 => e.d2.toNat
  | _ => e.d3.toNat
/-- Address of element `n` of slot `i` for core `c`. -/
def eAddr (e : EInst) (i c n : Nat) : Int := dAddr (eDesc e i) (fPco e.word.toNat i) c n
/-- Opcode of a stored instruction. -/
def eOp (e : EInst) : Nat := fOp e.word.toNat

/-! ### Engine fields (Tables 5.10, 5.12, 5.14) -/

def fFmtA (n : Nat) : Nat := seg n 63 60
def fFmtW (n : Nat) : Nat := seg n 67 64
def fFmtDst (n : Nat) : Nat := seg n 71 68
def fShared (n : Nat) : Bool := bitAt n 72
def fBank (n : Nat) : Bool := bitAt n 73
def fOpen (n : Nat) : Nat := seg n 75 74
def fEnd (n : Nat) : Nat := seg n 77 76
def fNoSplit (n : Nat) : Bool := bitAt n 78
def fSatA (n : Nat) : Bool := bitAt n 79
def fDshift (n : Nat) : Int := sgn 8 (seg n 87 80)
def fM (n : Nat) : Nat := seg n 99 88
def fK (n : Nat) : Nat := seg n 110 100
def fPred (n : Nat) : Nat := seg n 113 111
def fSstride (n : Nat) : Int := sgn 13 (seg n 127 115)
/-- FMT_S and FMT_D of a vector instruction. -/
def fFmtS (n : Nat) : Nat := seg n 63 60
def fFmtD (n : Nat) : Nat := seg n 67 64
def fMreg (n : Nat) : Nat := seg n 70 68
def fMuse (n : Nat) : Bool := bitAt n 71
def fBsrc (n : Nat) : Nat := seg n 73 72
def fSreg (n : Nat) : Nat := seg n 79 74
def fSatV (n : Nat) : Bool := bitAt n 80
def fSubop (n : Nat) : Nat := seg n 89 82
/-- Fields of a stream instruction. -/
def fEsz (n : Nat) : Nat := 2 ^ seg n 62 60
def fIshift (n : Nat) : Nat := seg n 66 63
def fFmtT (n : Nat) : Nat := seg n 70 67
def fLmode (n : Nat) : Nat := seg n 72 71
def fBankS (n : Nat) : Bool := bitAt n 73

/-- Entries per cell per bank D of Table 3.1, by opcode and weight format. -/
def tileDepth (fmt : Nat) : Nat :=
  match fmt with
  | 4 => 128
  | 6 => 32
  | 7 => 32
  | 8 => 16
  | _ => 64
/-- Positions per cell per step g. -/
def perCell (fmt : Nat) : Nat := if fmt = 4 then 2 else 1
/-- Positions per step w. -/
def perStep (fmt : Nat) : Nat := 8 * perCell fmt

end Sys2Proof.Machine
end

