-- ==== Sys2Proof/Machine/Sram.lean ====
section
/-!
DEFINITION. Words of SRAM under SECDED, and sequencer registers under the same code (R114, R213); and ranges of device
addresses as a unit reads and writes them through a window (R199, R204), with the injections that such an access meets
(R404).
-/
namespace Sys2Proof.Machine
open Sys2Proof

/-! ### SRAM words (R213) -/

/-- A sector of SRAM that holds a word: its bytes and stain, none where no sector is held there. -/
def sramSector (s : State) (p : SramPlace) : Option (List Byte × Bool) :=
  match p with
  | .scratch q c w =>
    let k := s.coreOf q.val c.val
    some (padBytes k (w.val / 4 * 32) 32, padStained k (w.val / 4))
  | .buffer q w => let (_, b, st) := secRead s (.buf q.val (w.val / 4)); some (b, st)
  | .shelf d w =>
    if w.val * 8 < shelfBytes s d.val then
      let (_, b, st) := secRead s (.shelf d.val (w.val / 4))
      some (b, st)
    else ((s.dieMem d.val).cache[(w.val * 8 - shelfBytes s d.val) / 32]?).map fun c => (c.data, c.stain)
  | .sreg q r =>
    if r.val = 0 then none else some (leBytes 8 (sReg (s.clu q.val) r.val) ++ zeros 24, sStain (s.clu q.val) r.val)
  | .ldesc q l w =>
    some (cut (leBytes 64 (lReg (s.clu q.val) l.val)) (w.val / 4 * 32) 32, lStain (s.clu q.val) l.val)

/-- Replace that sector. -/
def sramPut (s : State) (p : SramPlace) (b : List Byte) (st : Bool) : State :=
  match p with
  | .scratch q c w =>
    s.updCoreOf q.val c.val fun k =>
      { k with pad := tblPutSector k.pad (w.val / 4 * 32) b, padClean := Tbl.set false k.padClean (w.val / 4) (!st) }
  | .buffer q w => secWrite s (.buf q.val (w.val / 4)) b wholeEn st
  | .shelf d w =>
    if w.val * 8 < shelfBytes s d.val then secWrite s (.shelf d.val (w.val / 4)) b wholeEn st
    else
      s.updDieMem d.val fun m =>
        { m with cache := alter m.cache ((w.val * 8 - shelfBytes s d.val) / 32) fun c =>
            { c with data := b, stain := st, dirty := true } }
  | .sreg q r => s.updClu q.val fun k => putS k r.val (fieldAt b 0 8) st
  | .ldesc q l w =>
    s.updClu q.val fun k =>
      { k with ldesc := Tbl.set 0 k.ldesc l.val (BitVec.ofNat 512 (leNat (paste (leBytes 64 (lReg k l.val)) (w.val / 4 * 32) b)))
               lstain := BitVec.ofNat 16 (setSeg k.lstain.toNat l.val l.val (b2n st))
               lclean := if st then Tbl.set 0 k.lclean l.val 0 else k.lclean }

/-- Number of the word in its SRAM. -/
def sramWord : SramPlace → Nat
  | .scratch _ _ w => w.val
  | .buffer _ w => w.val
  | .shelf _ w => w.val
  | .sreg _ _ => 0
  | .ldesc _ _ w => w.val
/-- The registers of a sequencer are written by its instructions alone. -/
def isSeqReg : SramPlace → Bool
  | .sreg _ _ | .ldesc _ _ _ => true
  | _ => false
/-- Class of an uncorrectable error (R114, R213). -/
def sramCls (p : SramPlace) : Nat := if isSeqReg p then evSeqEcc else evSramUe
/-- What the entries of an error name: the word, or the register and the word in it. -/
def sramDetail : SramPlace → Nat
  | .sreg _ r => r.val
  | .ldesc _ l w => 2 ^ 6 + 8 * l.val + w.val
  | p => sramWord p
/-- SOURCE of the SRAM. -/
def sramSrc (s : State) : SramPlace → Nat
  | .scratch q c _ => srcCore s q.val c.val
  | .buffer q _ => srcCluster s q.val
  | .shelf d _ => srcUnit d.val unitShelf
  | .sreg q _ | .ldesc q _ _ => srcCluster s q.val
/-- Window whose job uses the SRAM. -/
def sramWin (s : State) : SramPlace → Option Nat
  | .scratch q _ _ => cluWin s q.val
  | .buffer q _ => cluWin s q.val
  | .shelf d w => if w.val * 8 < shelfBytes s d.val then some (s.dieMem d.val).shelfTw.toNat else none
  | .sreg q _ | .ldesc q _ _ => cluWin s q.val

/-- The flipped bits of a word: those named an odd number of times. -/
def oddFlips (l : List (Fin 72)) : List Nat :=
  ((List.finRange 72).filter fun i => l.count i % 2 == 1).map (·.val)

/-- A word with data bits flipped. -/
def flipBits (b : List Byte) (l : List Nat) : List Byte :=
  l.foldl (fun b i => if i < 64 then alter b (i / 8) (· ^^^ BitVec.ofNat 8 (2 ^ (i % 8))) else b) b

/-- A checked read of a word of SRAM with bits flipped: the state, the word and whether it is delivered stained.
With three flips or more the code promises nothing: what is found is free. -/
def sramRead (s : State) (p : SramPlace) (sec : List Byte) (st : Bool) (flips : List Nat) (inj : Bool) :
    State × List Byte × Bool :=
  let o := 8 * (sramWord p % 4)
  let word := cut sec o 8
  let src := sramSrc s p
  let ue := fun (s : State) (w : List Byte) =>
    let s := sramPut s p (paste sec o w) true
    let win := sramWin s p
    (raise s { cls := sramCls p, src := src, job := (win.map (winJob s)).getD 0, win := win.getD 0xFF, stained := true,
               injected := inj, detail := sramDetail p }, w, true)
  match secded flips.length with
  | .clean => (s, word, st)
  | .corrected => (corrected s src (sramDetail p) inj, word, st)
  | .detected => ue s (flipBits word flips)
  | .beyond =>
    let w := (List.range 8).map (Config.freeByte s.free)
    let found := Config.freeBit s.free
    let s := s.useFree
    if found then ue s (flipBits word flips) else (sramPut s p (paste sec o w) st, w, st)

/-- Bits that an injection flips in a word as it is read: of its own class, or one bit to be corrected (R404). -/
def sramInject (s : State) (p : SramPlace) : Option (State × List Nat) :=
  (sramWin s p).bind fun w =>
    match takeInject s (sramCls p) (sramSrc s p) w with
    | some (n, s) => some ({ s with free := s.free + 2 }, freePlaces s n 72)
    | none => (takeInject s evCorrected (sramSrc s p) w).map fun x => ({ x.2 with free := s.free + 2 }, freePlaces s 1 72)

/-- A word of SRAM is about to be read by its unit: an injection flips bits of it, with what the check does (R404). -/
def sramMeet (s : State) (p : SramPlace) : State :=
  match sramInject s p, sramSector s p with
  | some (t, l), some (sec, st) => (sramRead t p sec st l true).1
  | _, _ => s

/-- The word of SRAM at which a sector of a place begins; none in DRAM. -/
def placeSram : Place → Option SramPlace
  | .buf q sec => some (.buffer (Fin.ofNat 2560 q) (Fin.ofNat 131072 (4 * sec)))
  | .shelf d sec => some (.shelf (Fin.ofNat 8 d) (Fin.ofNat 25165824 (4 * sec)))
  | _ => none

/-- A unit's read of a sector in a window. -/
def winRead (s : State) (win : Nat) (p : Place) : State × List Byte × Bool :=
  match placeSram p with
  | some w => if sramWin s w = some win then secRead (sramMeet s w) p else secRead s p
  | none => secRead s p (some win)

/-! ### Ranges of device addresses -/

/-- What a read of a range found. -/
structure DevRead where
  bytes : List Byte := []
  stain : Bool := false
  fault : Bool := false

/-- An access of a unit meets its translation, or an injected fault of a free kind (R404). -/
def meetXlat (s : State) (src win : Nat) (r : Xlat) : State × Xlat × Bool :=
  match takeInject s evXlatFault src win with
  | some (_, t) => (t.useFree, .fault (1 + Config.freeNat s.free % 5), true)
  | none => (s, r, false)

/-- Read one sector through a window: a fault delivers stained zeros and is recorded (R204). -/
def devSector (s : State) (src win : Nat) (a : Int) : State × DevRead :=
  match meetXlat s src win (xlateBy s src win a false) with
  | (s, .fault k, inj) => (xlatFault s src win a k false false inj, { bytes := zeros 32, stain := true, fault := true })
  | (s, .ok p _, _) => let (s, b, st) := winRead s win p; (s, { bytes := b, stain := st })

/-- Read `n` sectors from a sector address. -/
def devSectors (src win : Nat) : Nat → State → Int → State × DevRead
  | 0, s, _ => (s, {})
  | n + 1, s, a =>
    let (s, r) := devSector s src win a
    let (s, t) := devSectors src win n s (a + 32)
    (s, { bytes := r.bytes ++ t.bytes, stain := r.stain || t.stain, fault := r.fault || t.fault })

/-- Read `n` bytes from device address `a` of a window. -/
def devRead (s : State) (src win : Nat) (a : Int) (n : Nat) : State × DevRead :=
  let o := (a % 32).toNat
  let (s, r) := devSectors src win (sectorSpan o n) s (a - o)
  (s, { r with bytes := cut r.bytes o n })

/-- The sectors of a write of `b` at `a`: (sector address, data, byte enables). -/
def writeSectors (a : Int) (b : List Byte) : List (Int × List Byte × Nat) :=
  let o := (a % 32).toNat
  (List.range (sectorSpan o b.length)).map fun i =>
    let data := (List.range 32).map fun j => if 32 * i + j < o then 0 else byteAt b (32 * i + j - o)
    let en := (List.range 32).foldl (fun e j =>
      if o ≤ 32 * i + j ∧ 32 * i + j < o + b.length then e + 2 ^ j else e) 0
    (a - o + 32 * i, data, en)

/-- Write bytes at a device address, dropping the sectors that fault; true when some sector faulted. -/
def devPut (s : State) (src win : Nat) (a : Int) (b : List Byte) (stain : Bool) : State × Bool :=
  (writeSectors a b).foldl (fun (s, f) (sa, d, en) =>
    match meetXlat s src win (xlateBy s src win sa true) with
    | (s, .fault k, inj) => (xlatFault s src win sa k true true inj, true)
    | (s, .ok p _, _) => (secWrite s p d en stain (some win), f)) (s, false)

end Sys2Proof.Machine
end

