-- ==== Sys2Proof/Machine/Jobs.lean ====
section
/-!
DEFINITION. Stopping a job: the one shared operation behind every rule that "stops the job under R136" — what it
does at once to the job's press step (R360), collectives (R324), mangle plan (R368), mending round (R416) and
dockets (R446) — and the stop that it sends to each cluster of the job.
-/
namespace Sys2Proof.Machine
open Sys2Proof

/-! ### Dockets and rings -/

/-- OPCODE of a docket (Table 14.5). -/
def dkOp (d : Docket) : Nat := fieldAt d.bytes 0 2
/-- FLAGS of a docket. -/
def dkFlags (d : Docket) : Nat := fieldAt d.bytes 2 1
/-- ECLASS of a docket. -/
def dkClass (d : Docket) : Nat := fieldAt d.bytes 3 1
/-- LEN of a docket. -/
def dkLen (d : Docket) : Nat := fieldAt d.bytes 4 4
/-- JOB of a docket. -/
def dkJob (d : Docket) : Nat := fieldAt d.bytes 14 2
/-- Status codes of Table 14.7. -/
def stOk : Nat := 0x00
def stBadSum : Nat := 0x01
def stBadSeq : Nat := 0x02
def stBadGen : Nat := 0x03
def stBadLen : Nat := 0x04
def stReserved : Nat := 0x05
def stUnlistedOp : Nat := 0x06
def stPriv : Nat := 0x07
def stJob : Nat := 0x08
def stBusy : Nat := 0x09
def stShort : Nat := 0x0A
def stFault : Nat := 0x0B
def stLink : Nat := 0x0C
def stStained : Nat := 0x0D
def stRefused : Nat := 0x0E
def stNoRing : Nat := 0x0F
def stStopped : Nat := 0x10

/-- The running docket of ring `r` has its status and DETAIL; a status given first stays. -/
def finishDocket (s : State) (r status : Nat) (detail : Nat) : State :=
  s.updRing r fun g =>
    if g.running.isSome && g.result.isNone then
      { g with result := some (BitVec.ofNat 8 status, BitVec.ofNat 64 detail) } else g

/-! ### Press tables at a job stop (R360) -/

/-- Put the header and descriptor fields of a press table back (R360, Tables 11.1, 11.2). -/
def restoreTable (s : State) (win : Nat) (tbl : DWord) (h : PressHdr) : State :=
  let src := srcUnit 0 unitPress
  let a : Int := tbl.toNat
  let put := fun s (o : Nat) b => (devPut s src win (a + o) b false).1
  let s := put s 0 (leBytes 8 h.step.toNat ++ leBytes 8 h.upd.toNat ++ leBytes 4 h.scale.toNat ++ leBytes 4 h.good.toNat)
  let s := put s 40 [BitVec.ofNat 8 (b2n h.cur)]
  h.bp.zipIdx.foldl (fun s (b, k) =>
    put s (128 + 128 * k + 40) (leBytes 4 b.1.toNat ++ leBytes 4 b.2.toNat)) s

/-- Abandon the open step of the press units: nothing it wrote counts, its window and spill are freed. -/
def pressAbandon (p : Press) : Press :=
  { p with steps := [], held := none, deltas := [] }

/-- What R360 does when the press job stops: every table of the job is restored from the copy of its last commit. -/
def pressStop (s : State) (win job : Nat) : State :=
  if s.press.job.toNat = job ∧ s.press.tables ≠ [] then
    let s := s.press.tables.foldl (fun s (c, t) =>
      match s.press.saved.find? (·.1 == c.toNat) with
      | some (_, h) => restoreTable s win t h
      | none => s) s
    { s with press := pressAbandon s.press }
  else s

/-! ### The stop -/

/-- Why a job stops (R446): CAUSE, reason code, abort code, event class and cluster. -/
structure StopWhy where
  cause : Nat
  reason : Nat := 0
  abort : Option Nat := none
  cls : Nat := 0
  cluster : Nat := 0

/-- Record the first of each kind of cause in the job (R446). -/
def recordWhy (j : Job) (y : StopWhy) : Job :=
  let j := if j.stopping then j else { j with cause := BitVec.ofNat 8 y.cause }
  let j := if j.reason = 0 then { j with reason := BitVec.ofNat 8 y.reason } else j
  let j := match y.abort with
    | some a => if j.aborted then j else { j with aborted := true, abort := BitVec.ofNat 16 a }
    | none => j
  if j.cls = 0 ∧ y.cls ≠ 0 then
    { j with cls := BitVec.ofNat 16 y.cls, cluster := BitVec.ofNat 16 y.cluster } else j

/-- Contexts and records of a stopped job (R324). -/
def collStop (c : Coll) (job : Nat) : Coll :=
  let mine := fun (x : Ctx) => (Tbl.get {} c.comm x.key.comm.toNat).job.toNat == job
  { c with ctx := c.ctx.filter fun x => !mine x
           comm := c.comm.foldl (fun t e =>
             if e.2.job.toNat == job then upd {} t e.1 (fun m => { m with valid := false }) else t) c.comm }

/-- The plan of a stopped job ends (R368). -/
def mangleStop (m : Mgl) (job : Nat) : Mgl :=
  if m.running ∧ m.job.toNat = job then
    { m with running := false, state := 5, grantsIn := [], grantsOut := [], open_ := [], parts := [] } else m

/-- A mending round that has not reached its barrier is abandoned (R416). -/
def mendStop (s : State) (job : Nat) : State :=
  if s.press.job.toNat = job ∧ s.guard.roundOpen then
    { s with guard := { s.guard with roundOpen := false, roundDue := none, ends := [], parHeld := [], parTouched := []
                                     parStale := s.guard.parTouched.foldl (fun l u => insertUp u l) s.guard.parStale }
             coll := { s.coll with sys := match s.coll.sys with | some (.mend _) => none | u => u } }
  else s

/-- Dockets of the job that are running complete with `STOPPED`, but for `STOP` itself (R446). -/
def docketsStop (s : State) (job : Nat) : State :=
  s.hif.ring.foldl (fun s e =>
    match e.2.running with
    | some d => if dkJob d = job ∧ dkOp d ≠ 0x21 then finishDocket s e.1 stStopped 0 else s
    | none => s) s

/-- Stop the job of window `w` (R136): the stop is sent to each of its clusters that still runs. -/
def jobStop (s : State) (w : Nat) (y : StopWhy) : State :=
  let j := s.jobAt w
  if !j.running then s
  else if j.stopping then s.updJob w (recordWhy · y)
  else
    let job := j.job.toNat
    let s := s.updJob w fun j => { recordWhy j y with stopping := true }
    let s := j.clusters.foldl (fun s q =>
      if j.clOver.contains q then s else s.updClu q fun k => { k with stopSent := true }) s
    let s := pressStop s w job
    let s := mendStop s job
    let s := { s with coll := collStop s.coll job, mgl := mangleStop s.mgl job }
    docketsStop s job

/-- Stop every running job of the module. -/
def stopAll (s : State) (y : StopWhy) : State := (List.range 16).foldl (fun s w => jobStop s w y) s

/-- Stop the job of the cluster. -/
def cluStop (s : State) (q : Nat) (y : StopWhy) : State :=
  match cluWin s q with
  | some w => jobStop s w { y with cluster := clId q }
  | none => s

/-- Write to a device address: a write that faults stops the job (R204). -/
def devStore (s : State) (src win : Nat) (a : Int) (b : List Byte) (stain : Bool) : State :=
  let (s, f) := devPut s src win a b stain
  if f then jobStop s win { cause := 4, cls := evXlatFault } else s

/-- A stain has reached an exit of Table 13.5: the job stops and `STAIN_EXIT` is raised. -/
def stainExit (s : State) (win src detail : Nat) : State :=
  let s := raise s { cls := evStainExit, src := src, job := winJob s win, win := win, sev := 2, stained := true,
                     detail := detail }
  jobStop s win { cause := 4, cls := evStainExit }

/-- Data meets an exit, stained or not: a stain, or an injection of `STAIN_EXIT`, is answered by `f`. -/
def meetExit (s : State) (win src : Nat) (stain : Bool) (f g : State → State) : State :=
  detect s evStainExit src win stain f g

end Sys2Proof.Machine
end

