-- ==== Sys2Proof/Machine/Fp.lean ====
section
/-!
DEFINITION. Numbers of the arrays, the vector engine, the sequencer, the collective engine and the press unit:
the formats of Table 2.1, exact arithmetic on dyadic values, and the single rounding of each result
(02_number_formats.md; R73, R145, R171–R174).
-/
namespace Sys2Proof.Machine
open Sys2Proof

/-- A value: NaN, an infinity of a sign, or (−1)^neg × man × 2^exp. -/
inductive Num where
  | nan
  | inf (neg : Bool)
  | fin (neg : Bool) (man : Nat) (exp : Int)
  deriving DecidableEq, Repr

/-- The shape of a floating-point format: exponent bits, mantissa bits, bias, and how its largest exponent is
used (R48, R49): 0 IEEE infinities and NaNs, 1 the E4M3 NaN alone, 2 neither (E2M1). -/
structure FFmt where
  eb : Nat
  mb : Nat
  bias : Int
  special : Nat
  /-- Mantissa and exponent of the largest finite value. -/
  maxMan : Nat
  maxExp : Int
  /-- Canonical NaN (Table 2.4). -/
  qnan : Nat
  deriving DecidableEq, Repr

/-- FP32 (Table 2.1). -/
def fp32 : FFmt := ⟨8, 23, 127, 0, 2 ^ 24 - 1, 104, 0x7FC00000⟩
/-- BF16. -/
def bf16 : FFmt := ⟨8, 7, 127, 0, 255, 120, 0x7FC0⟩
/-- FP16. -/
def fp16 : FFmt := ⟨5, 10, 15, 0, 2047, 5, 0x7E00⟩
/-- FP8 E5M2. -/
def e5m2 : FFmt := ⟨5, 2, 15, 0, 7, 13, 0x7E⟩
/-- FP8 E4M3. -/
def e4m3 : FFmt := ⟨4, 3, 7, 1, 14, 5, 0x7F⟩
/-- FP4 E2M1. -/
def e2m1 : FFmt := ⟨2, 1, 1, 2, 3, 1, 0⟩

/-- Width of the format in bits. -/
def FFmt.width (f : FFmt) : Nat := 1 + f.eb + f.mb

/-- The value of an encoding (R48, R49, R50). -/
def FFmt.decode (f : FFmt) (bits : Nat) : Num :=
  let s := bitAt bits (f.eb + f.mb)
  let e := seg bits (f.eb + f.mb - 1) f.mb
  let m := seg bits (f.mb - 1) 0
  if e = 2 ^ f.eb - 1 ∧ f.special = 0 then (if m = 0 then .inf s else .nan)
  else if e = 2 ^ f.eb - 1 ∧ f.special = 1 ∧ m = 2 ^ f.mb - 1 then .nan
  else if e = 0 then .fin s m (1 - f.bias - f.mb)
  else .fin s (2 ^ f.mb + m) ((e : Int) - f.bias - f.mb)

/-- The value of an E8M0 scale field (R49). -/
def decodeE8m0 (bits : Nat) : Num :=
  if bits % 256 = 0xFF then .nan else .fin false 1 ((bits % 256 : Nat) - 127)

/-- `m / 2^k` rounded to the nearest integer, ties to even, and whether that lost anything. -/
def rneShr (m k : Nat) : Nat × Bool :=
  let q := m / 2 ^ k
  let r := m % 2 ^ k
  if 2 * r > 2 ^ k ∨ (2 * r = 2 ^ k ∧ q % 2 = 1) then (q + 1, true) else (q, r != 0)

/-- A magnitude `m × 2^e` in units of `2^q`, rounded to nearest even, and whether that lost anything. -/
def rneAt (m : Nat) (e q : Int) : Nat × Bool :=
  if e ≥ q then (m * 2 ^ (e - q).toNat, false) else rneShr m (q - e).toNat

/-- A rounded result: its bits and what the rounding met (R69, R70). -/
structure Rounded where
  bits : Nat := 0
  inexact : Bool := false
  ovf : Bool := false
  ufl : Bool := false
  nan : Bool := false
  inf : Bool := false
  deriving DecidableEq, Repr

/-- Infinity of the format, or its canonical NaN where it has none (R73, Table 2.5). -/
def FFmt.infBits (f : FFmt) (neg : Bool) : Nat :=
  if f.special = 0 then 2 ^ (f.eb + f.mb) * b2n neg + (2 ^ f.eb - 1) * 2 ^ f.mb else f.qnan

/-- The largest finite value of the format. -/
def FFmt.maxBits (f : FFmt) (neg : Bool) : Nat :=
  2 ^ (f.eb + f.mb) * b2n neg + (f.maxExp + f.mb + f.bias).toNat * 2 ^ f.mb + (f.maxMan - 2 ^ f.mb)

/-- `m × 2^e` exceeds `n × 2^d`. -/
def magGt (m : Nat) (e : Int) (n : Nat) (d : Int) : Bool :=
  let lo := min e d
  decide (m * 2 ^ (e - lo).toNat > n * 2 ^ (d - lo).toNat)

/-- One rounding of a value to the format, round-to-nearest-even (R68–R70, R73, Table 2.4). -/
def FFmt.round (f : FFmt) (sat : Bool) : Num → Rounded
  | .nan => { bits := f.qnan, nan := true }
  | .inf s => { bits := f.infBits s, inf := f.special = 0, nan := f.special ≠ 0 }
  | .fin s 0 _ => { bits := 2 ^ (f.eb + f.mb) * b2n s }
  | .fin s m e =>
    let q := max (1 - f.bias - f.mb) ((Nat.log2 m : Int) + e - f.mb)
    let (r, lost) := rneAt m e q
    if magGt r q f.maxMan f.maxExp then
      { bits := if sat then f.maxBits s else f.infBits s, inexact := true, ovf := true }
    else
      let sb := 2 ^ (f.eb + f.mb) * b2n s
      if r < 2 ^ f.mb then { bits := sb + r, inexact := lost, ufl := lost }
      else
        let (r', q') := if r = 2 ^ (f.mb + 1) then (2 ^ f.mb, q + 1) else (r, q)
        { bits := sb + (q' + f.mb + f.bias).toNat * 2 ^ f.mb + (r' - 2 ^ f.mb), inexact := lost }

/-- The value is NaN. -/
def Num.isNan : Num → Bool
  | .nan => true
  | _ => false

/-- The value is infinite. -/
def Num.isInf : Num → Bool
  | .inf _ => true
  | _ => false

/-- The value is zero. -/
def Num.isZero : Num → Bool
  | .fin _ 0 _ => true
  | _ => false

/-- The sign bit of a value. -/
def Num.sign : Num → Bool
  | .nan => false
  | .inf s => s
  | .fin s _ _ => s

/-- An integer times a power of two; zero is +0. -/
def Num.ofInt (n e : Int) : Num := .fin (n < 0) n.natAbs e

/-- A finite value as an integer in units of `2^q`, for `q` no greater than its exponent. -/
def Num.inUnits (q : Int) : Num → Int
  | .fin s m e =>
    let v : Int := ((if e ≥ q then m * 2 ^ (e - q).toNat else m / 2 ^ (q - e).toNat) : Nat)
    if s then -v else v
  | _ => 0

/-- Negation; a NaN stays NaN. -/
def Num.neg : Num → Num
  | .nan => .nan
  | .inf s => .inf !s
  | .fin s m e => .fin (!s) m e

/-- Magnitude. -/
def Num.abs : Num → Num
  | .nan => .nan
  | .inf _ => .inf false
  | .fin _ m e => .fin false m e

/-- Exact sum. An exact zero is +0 unless both operands are −0. -/
def Num.add : Num → Num → Num
  | .nan, _ => .nan
  | _, .nan => .nan
  | .inf s, .inf t => if s = t then .inf s else .nan
  | .inf s, _ => .inf s
  | _, .inf t => .inf t
  | .fin s m e, .fin t n d =>
    if m = 0 ∧ n = 0 then .fin (s && t) 0 0
    else
      let q := min e d
      .ofInt (Num.inUnits q (.fin s m e) + Num.inUnits q (.fin t n d)) q

/-- Exact difference. -/
def Num.sub (x y : Num) : Num := x.add y.neg

/-- Exact product. -/
def Num.mul : Num → Num → Num
  | .nan, _ => .nan
  | _, .nan => .nan
  | .inf s, .inf t => .inf (s != t)
  | .inf s, .fin t n _ => if n = 0 then .nan else .inf (s != t)
  | .fin s m _, .inf t => if m = 0 then .nan else .inf (s != t)
  | .fin s m e, .fin t n d => .fin (s != t) (m * n) (e + d)

/-- The value times `2^k`. -/
def Num.scale (k : Int) : Num → Num
  | .fin s m e => .fin s m (e + k)
  | x => x

/-- Order of two values, none when unordered: −1, 0 or 1 (R105). -/
def Num.cmp (x y : Num) : Option Int :=
  match x, y with
  | .nan, _ => none
  | _, .nan => none
  | .inf s, .inf t => some (if s = t then 0 else if s then -1 else 1)
  | .inf s, _ => some (if s then -1 else 1)
  | _, .inf t => some (if t then 1 else -1)
  | .fin s m e, .fin t n d =>
    let q := min e d
    let a := Num.inUnits q (.fin s m e)
    let b := Num.inUnits q (.fin t n d)
    some (if a < b then -1 else if a = b then 0 else 1)

/-- IEEE 754-2019 maximum: a NaN operand gives NaN, and the maximum of +0 and −0 is +0 (Table 6.2). -/
def Num.fmax (x y : Num) : Num :=
  match x.cmp y with
  | none => .nan
  | some c => if c > 0 then x else if c < 0 then y else if x.sign then y else x

/-- IEEE 754-2019 minimum: the minimum of +0 and −0 is −0. -/
def Num.fmin (x y : Num) : Num :=
  match x.cmp y with
  | none => .nan
  | some c => if c < 0 then x else if c > 0 then y else if x.sign then x else y

/-- The predicate of code 0–5 holds of two values (Table 5.10, R105). -/
def predHolds (pred : Nat) (x y : Num) : Bool :=
  match x.cmp y with
  | none => pred == 5
  | some c =>
    match pred with
    | 0 => decide (c > 0)
    | 1 => decide (c ≥ 0)
    | 2 => decide (c < 0)
    | 3 => decide (c ≤ 0)
    | 4 => decide (c = 0)
    | 5 => decide (c ≠ 0)
    | _ => false

/-- A value rounded to an integer, ties to even, saturated to lo..hi; NaN gives 0 (R70, R145, R172). -/
def Num.toIntSat (lo hi : Int) : Num → Int
  | .nan => 0
  | .inf s => if s then lo else hi
  | .fin s m e =>
    let v : Int := ((rneAt m e 0).1 : Nat)
    let v := if s then -v else v
    if v < lo then lo else if v > hi then hi else v

/-! ### FP32 results -/

/-- The value of an FP32 pattern. -/
def f32 (w : Word) : Num := fp32.decode w.toNat

/-- A value rounded once to FP32 (R171). -/
def toF32 (x : Num) : Word := BitVec.ofNat 32 (fp32.round false x).bits

/-- FP32 sum (R73). -/
def f32Add (x y : Word) : Word := toF32 ((f32 x).add (f32 y))
/-- FP32 difference. -/
def f32Sub (x y : Word) : Word := toF32 ((f32 x).sub (f32 y))
/-- FP32 product. -/
def f32Mul (x y : Word) : Word := toF32 ((f32 x).mul (f32 y))
/-- Fused multiply-add, one rounding. -/
def f32Fma (x y z : Word) : Word := toF32 (((f32 x).mul (f32 y)).add (f32 z))
/-- FP32 maximum. -/
def f32Max (x y : Word) : Word := toF32 ((f32 x).fmax (f32 y))
/-- FP32 minimum. -/
def f32Min (x y : Word) : Word := toF32 ((f32 x).fmin (f32 y))
/-- FP32 zero of either sign. -/
def f32IsZero (x : Word) : Bool := (f32 x).isZero
/-- An FP32 pattern that is neither infinite nor NaN. -/
def f32Finite (x : Word) : Bool := !(f32 x).isNan && !(f32 x).isInf

/-! ### Correctly rounded functions (R174) -/

/-- Newton steps towards the integer square root, from above. -/
def isqrtFrom (n : Nat) : Nat → Nat → Nat
  | 0, y => y
  | k + 1, y => let y' := (y + n / y) / 2; if y' ≥ y then y else isqrtFrom n k y'

/-- Integer square root. -/
def isqrt (n : Nat) : Nat := if n = 0 then 0 else isqrtFrom n 1000 (2 ^ (Nat.log2 n / 2 + 1))

/-- Quotient of two magnitudes to 200 bits beyond the divisor, with a sticky last bit: rounding it to FP32
rounds the exact quotient. -/
def quotSticky (s : Bool) (m n : Nat) (e : Int) : Num :=
  let k := Nat.log2 n + 200
  .fin s (2 * (m * 2 ^ k / n) + b2n (m * 2 ^ k % n != 0)) (e - k - 1)

/-- Exact quotient of two values, rounded nowhere but sticky (press unit and `VRCP`). -/
def Num.div : Num → Num → Num
  | .nan, _ => .nan
  | _, .nan => .nan
  | .inf _, .inf _ => .nan
  | .inf s, .fin t _ _ => .inf (s != t)
  | .fin s _ _, .inf t => .fin (s != t) 0 0
  | .fin s m e, .fin t n d =>
    if n = 0 then (if m = 0 then .nan else .inf (s != t))
    else if m = 0 then .fin (s != t) 0 0 else quotSticky (s != t) m n (e - d)

/-- Square root of a value, sticky. −0 gives −0. -/
def Num.sqrt : Num → Num
  | .nan => .nan
  | .inf s => if s then .nan else .inf false
  | .fin s 0 _ => .fin s 0 0
  | .fin true _ _ => .nan
  | .fin false m e =>
    let (m, e) := if e % 2 = 0 then (m, e) else (2 * m, e - 1)
    let n := m * 2 ^ 400
    let y := isqrt n
    .fin false (2 * y + b2n (y * y != n)) (e / 2 - 200 - 1)

/-- `VRSQRT`: 1/√a (Table 6.3). -/
def Num.rsqrt : Num → Num
  | .nan => .nan
  | .inf s => if s then .nan else .fin false 0 0
  | .fin s 0 _ => .inf s
  | .fin true _ _ => .nan
  | .fin false m e =>
    let (m, e) := if e % 2 = 0 then (m, e) else (2 * m, e - 1)
    let n := 2 ^ (2 * Nat.log2 m + 400) / m
    let y := isqrt n
    let exact : Bool := y * y * m == 2 ^ (2 * Nat.log2 m + 400)
    .fin false (2 * y + b2n (!exact)) (-(Nat.log2 m : Int) - 200 - 1 - e / 2)

/-- Bits of a fraction, the first worth 1/2, multiplied as 2^(1/2), 2^(1/4), …, in fixed point of 256 bits. -/
def exp2Bits : List Bool → Nat → Nat → Nat
  | [], _, acc => acc
  | b :: t, root, acc =>
    let r := isqrt (root * 2 ^ 256)
    exp2Bits t r (if b then acc * r / 2 ^ 256 else acc)

/-- `VEXP2`: 2^a. A finite fraction that is not 0 has an irrational power, so the last bit is sticky; the 256
bits kept are taken to settle every rounding (UNVERIFIED, log 6). -/
def Num.exp2 : Num → Num
  | .nan => .nan
  | .inf s => if s then .fin false 0 0 else .inf false
  | .fin _ 0 _ => .fin false 1 0
  | .fin s m e =>
    if (Nat.log2 m : Int) + e ≥ 8 then (if s then .fin false 1 (-1000) else .inf false)
    else if (Nat.log2 m : Int) + e < -26 then
      (if s then .fin false (2 ^ 60 - 1) (-60) else .fin false (2 ^ 60 + 1) (-60))
    else
      let v := Num.inUnits (min e 0) (.fin s m e)
      let k := (-(min e 0)).toNat
      let n := v / (2 ^ k : Nat)
      let f := (v % (2 ^ k : Nat)).toNat
      if f = 0 then .fin false 1 n
      else
        let bits := (List.range k).map fun i => bitAt f (k - 1 - i)
        .fin false (2 * exp2Bits bits (2 * 2 ^ 256) (2 ^ 256) + 1) (n - 256 - 1)

/-- `n` bits of log2 of `t / 2^400`, for 1 ≤ t / 2^400 < 2, the first worth 1/2. -/
def log2Bits : Nat → Nat → Nat → Nat
  | 0, _, acc => acc
  | k + 1, t, acc =>
    let t2 := t * t / 2 ^ 400
    if t2 ≥ 2 ^ 401 then log2Bits k (t2 / 2) (2 * acc + 1) else log2Bits k t2 (2 * acc)

/-- `VLOG2`: log2 a. Only powers of two have a rational logarithm; otherwise the last bit is sticky, and the
120 bits kept are taken to settle every rounding (UNVERIFIED, log 6). -/
def Num.log2n : Num → Num
  | .nan => .nan
  | .inf s => if s then .nan else .inf false
  | .fin _ 0 _ => .inf true
  | .fin true _ _ => .nan
  | .fin false m e =>
    let k := Nat.log2 m
    if m = 2 ^ k then .ofInt (k + e) 0
    else
      let f := log2Bits 120 (m * 2 ^ 400 / 2 ^ k) 0
      .ofInt (2 * ((k + e) * (2 ^ 120 : Nat) + f) + 1) (-121)

/-- ⌊log2 |x|⌋ of a finite value that is not zero. -/
def Num.floorLog2 : Num → Int
  | .fin _ m e => Nat.log2 m + e
  | _ => 0

/-- The E8M0 field of a value (R172). -/
def toE8m0 (x : Num) : Nat :=
  match x with
  | .nan => 0xFF
  | .inf _ => 0xFF
  | .fin _ 0 _ => 0
  | .fin _ _ _ => (max 0 (min 254 (127 + x.floorLog2))).toNat

/-! ### Format codes (Table 5.5) -/

/-- The floating-point shape of a format code, none for the integer and scale codes. -/
def fmtOf (code : Nat) : Option FFmt :=
  match code with
  | 0x0 => some e4m3
  | 0x1 => some e5m2
  | 0x2 => some e4m3
  | 0x3 => some e5m2
  | 0x4 => some e2m1
  | 0x6 => some bf16
  | 0x7 => some fp16
  | 0x8 => some fp32
  | _ => none

/-- Bytes of an element; FP4 addresses name one byte that holds two (R151). -/
def elemBytes (code : Nat) : Nat :=
  match code with
  | 0x6 => 2
  | 0x7 => 2
  | 0x8 => 4
  | 0x9 => 4
  | _ => 1

/-- The code is one of the MX formats. -/
def isMx (code : Nat) : Bool := code == 2 || code == 3 || code == 4

/-- The value of an element of a format code (R171). -/
def decodeFmt (code bits : Nat) : Num :=
  match fmtOf code with
  | some f => f.decode bits
  | none =>
    if code = 5 then .ofInt (sgn 8 bits) 0
    else if code = 9 then .ofInt (sgn 32 bits) 0
    else decodeE8m0 bits

/-- One rounding of a value to a destination format code, with the flags of R69 and R70. -/
def roundFmt (code : Nat) (sat : Bool) (x : Num) : Rounded :=
  match fmtOf code with
  | some f => f.round sat x
  | none =>
    if code = 0xA then { bits := toE8m0 x }
    else
      let lo : Int := if code = 5 then -128 else -(2 ^ 31 : Nat)
      let hi : Int := if code = 5 then 127 else (2 ^ 31 : Nat) - 1
      let v := x.toIntSat lo hi
      let w := if code = 5 then 8 else 32
      match x with
      | .fin s m e =>
        let r : Int := ((rneAt m e 0).1 : Nat)
        let r := if s then -r else r
        { bits := wrap w v, inexact := (rneAt m e 0).2 || v != r, ovf := v != r }
      | _ => { bits := wrap w v }

end Sys2Proof.Machine
end

