-- ==== Sys2Proof/Machine/SeqCheck.lean ====
section
/-!
DEFINITION. The checks that the sequencer makes of each word at issue (R164, R165): the reason codes of Table
5.18 that a word gives as registers and descriptors stand, and the stained registers that stop the job.
-/
namespace Sys2Proof.Machine
open Sys2Proof

/-- A reason code when a condition holds. -/
def why (b : Bool) (code : Nat) : List Nat := if b then [code] else []

/-! ### Scalar format -/

def uRd : Nat := 0x3F00
def uRd4 : Nat := 0x0F00
def uRa : Nat := 0xFC000
def uRa4 : Nat := 0x3C000
def uRb : Nat := 0x3F00000
/-- The low `n` bits of SUB. -/
def uSub (n : Nat) : Nat := (2 ^ n - 1) * 2 ^ 26
/-- IMM[hi:lo]. -/
def uImm (hi lo : Nat) : Nat := (2 ^ (hi + 1 - lo) - 1) * 2 ^ (32 + lo)

/-- The bits that the entry of a scalar-format opcode uses, none for an unlisted opcode (Tables 5.6–5.9, 5.16). -/
def usedBits (op : Nat) : Option Nat :=
  let rrr := uRd + uRa + uRb
  let imm := uImm 63 0
  if 0x20 ≤ op ∧ op ≤ 0x2D ∨ 0x30 ≤ op ∧ op ≤ 0x33 then some rrr
  else if 0x06 ≤ op ∧ op ≤ 0x0B then some (uRa + uRb + imm)
  else
    match op with
    | 0x00 => some 0
    | 0x01 => some 0
    | 0x02 => some (uImm 15 0)
    | 0x03 => some imm
    | 0x04 => some (uRd + imm)
    | 0x05 => some uRa
    | 0x0C => some (uRa + imm)
    | 0x2E => some (uRd + uRa + imm)
    | 0x2F => some (uRd + imm)
    | 0x34 => some (uRd + uRa)
    | 0x35 => some (uRd + uRa)
    | 0x36 => some (uRd + uSub 6)
    | 0x37 => some (uRd + uRa)
    | 0x38 => some (uRa + uSub 3)
    | 0x39 => some (uRd + uSub 3)
    | 0x40 => some (uRd4 + uRa + uSub 3)
    | 0x41 => some (uRd4 + uSub 3 + uImm 23 0 + uImm 63 32)
    | 0x42 => some (uRd4 + uRa + imm)
    | 0x43 => some (uRd4 + uRa)
    | 0x44 => some (uRd4 + uRa4)
    | 0x45 => some (uRd + uRa4 + uSub 3)
    | 0x60 => some 0
    | 0x61 => some 0
    | 0x62 => some (uImm 23 0)
    | 0x63 => some (uRa + uSub 4)
    | 0x64 => some (uRd + uRa + uImm 23 0)
    | 0x65 => some (uRd + uSub 6)
    | 0x66 => some (uImm 8 0)
    | 0x67 => some (uSub 4 + uRa + uRb)
    | 0x68 => some uRa
    | _ => none

/-- Length of the block being executed. -/
def blockLen (k : Cluster) : Nat := match k.blocks with | b :: _ => b.words.length | [] => 0

/-- The target of a relative branch (R146). -/
def branchTarget (k : Cluster) (n : Nat) : Int :=
  if k.src then k.pc.toNat + fImmS n else wrap 52 (k.pc.toNat + 16 * fImmS n)

/-- A target in streamed mode lies outside the block (R118). -/
def outsideBlock (k : Cluster) (t : Int) : Bool := k.src && (decide (t < 0) || decide ((blockLen k : Int) ≤ t))

/-- The cluster that a `SIG` names, if it serves the job of the issuing cluster (R133). -/
def sigTarget (s : State) (q n : Nat) : Option Nat :=
  let i := fImm n
  match clOfId (512 * seg i 2 0 + 16 * seg i 7 3 + seg i 11 8) with
  | some t => if cluWin s t = cluWin s q then some t else none
  | none => none

/-- Reason codes of a scalar-format word of a listed opcode. -/
def scalarReasons (s : State) (q n used : Nat) : List Nat :=
  let k := s.clu q
  let op := fOp n
  let rsv := why (n / 256 * 256 &&& (2 ^ 128 - 1 - used) != 0) 0x02
  let a := sReg k (fRa n)
  rsv ++
    match op with
    | 0x05 => why (if k.src then outsideBlock k a else a % 16 != 0) 0x08
    | 0x36 => why (decide (2 < fSub n)) 0x03
    | 0x41 => why (decide (5 < fSub n % 8)) 0x03
    | 0x62 => why (seg (fImm n) 23 16 == 0) 0x03 ++ why (sigTarget s q n).isNone 0x0F
    | 0x64 => why (decide (5 < seg (fImm n) 23 21)) 0x03
    | 0x67 => why (decide (5 < fSub n % 16)) 0x03 ++ why (seg a 63 40 != 0) 0x02
    | 0x68 => why (seg a 63 40 != 0) 0x02
    | _ => why ((op == 3 || op == 4 || decide (6 ≤ op ∧ op ≤ 0x0C)) && outsideBlock k (branchTarget k n)) 0x08

/-! ### Engine format -/

/-- Fields common to every engine word: reserved bits, STN and the mask specifiers. -/
def engineReasons (n : Nat) : List Nat :=
  why (seg n 39 38 != 0) 0x02 ++ why (decide (1 < seg n 37 36)) 0x03
    ++ maskReasons (seg n 21 8) ++ maskReasons (seg n 35 22)

/-- A slot with a role: R149, its space and, when its own fields hold, its count. -/
def slotReasons (k : Cluster) (n i : Nat) (space : Option Bool) (count : Option Nat) : List Nat :=
  let d := lReg k (fSlot n i)
  why (space.isSome && space != some (dPad d)) 0x04 ++ why (!dOk d || (count.isSome && count != some (dTotal d))) 0x05

/-- A slot without a role holds 0, with its PCO bit (R142). -/
def emptySlot (n i : Nat) : List Nat := why (fSlot n i != 0 || fPco n i) 0x02

/-- A slot whose role depends on a condition. -/
def slotIf (b : Bool) (k : Cluster) (n i : Nat) (space : Option Bool) (count : Option Nat) : List Nat :=
  if b then slotReasons k n i space count else emptySlot n i

/-- Drain destinations of Table 2.2 for a pair of operand formats, none when the pair is not listed. -/
def mmaDst (a w : Nat) : Option (List Nat) :=
  let fp8 := [8, 6, 7, 0, 1]
  if (a == 0 || a == 1) && (w == 0 || w == 1) then some fp8
  else if (a == 2 || a == 3) && (w == 2 || w == 3) then some fp8
  else if a == 4 && w == 4 then some fp8
  else if a == 5 && w == 5 then some [9, 8]
  else if a == 6 && w == 6 then some [8, 6]
  else if a == 7 && w == 7 then some [8, 7]
  else if a == 8 && w == 8 then some [8, 6]
  else none

/-- Drain destinations of Table 3.7, none when the operands are not listed. -/
def tallyDst (op a w : Nat) : Option (List Nat) :=
  let fp8 := (a == 0 || a == 1) && (w == 0 || w == 1)
  let i8 := a == 5 && w == 5
  let h := (a == 6 && w == 6) || (a == 7 && w == 7)
  if op = 0xA4 then (if fp8 || i8 || h then some [9] else none)
  else if op = 0xA3 then
    (if a == 0 && w == 0 then some [8, 6, 7, 0, 1] else if i8 then some [9, 8] else none)
  else if fp8 then some [8, 6, 7, 0, 1]
  else if i8 then some [9, 8]
  else if h && op != 0xA2 then some [8, 6, 7]
  else none

/-- Reason codes of an array or tally word (R53, R54, R102, R104, R154–R157). -/
def arrayReasons (k : Cluster) (n : Nat) : List Nat :=
  let op := fOp n
  let a := fFmtA n
  let w := fFmtW n
  let d := fFmtDst n
  let m := fM n
  let kk := fK n
  let drain := fEnd n == 1
  let dst := if op = 0x80 then mmaDst a w else tallyDst op a w
  let argmax := op == 0xA5
  engineReasons n
    ++ why (decide (0xA < a) || decide (0xA < w) || decide (0xA < d) || fOpen n == 3 || fEnd n == 3) 0x03
    ++ why (bitAt n 114 || (!drain && (d != 0 || fSatA n || fDshift n != 0)) || (!fShared n && fSstride n != 0)
        || (op != 0xA4 && fPred n != 0)) 0x02
    ++ why (op == 0xA4 && decide (5 < fPred n)) 0x03
    ++ why (match dst with | none => true | some l => drain && !l.contains d) 0x04
    ++ why (op == 0xA4 && drain && (fSatA n || fDshift n != 0)) 0x0B
    ++ why ((isMx a || isMx w) && kk % 32 != 0) 0x06
    ++ why (m == 0 || kk == 0 || decide (8 * tileDepth w < kk)
        || (decide (1 < m) && !((fOpen n == 0 || fOpen n == 2) && (fEnd n == 1 || fEnd n == 2)))) 0x0C
    ++ why ((Tbl.get 0 k.bankFmt (b2n (fBank n))).toNat != w + 1) 0x0E
    ++ slotReasons k n 0 (some true) (some (if a = 4 then m * kk / 2 else m * kk))
    ++ slotIf drain k n 1 (some true) (some (16 * m))
    ++ (if isMx a then slotReasons k n 2 (some true) (some (m * kk / 32))
        else slotIf (argmax && drain) k n 2 (some true) (some (16 * m)))
    ++ slotIf (fOpen n == 2 || fEnd n == 2) k n 3 (some true) (some (16 * m))

/-- A binary vector opcode. -/
def isBinary (op : Nat) : Bool := decide (op ≤ 0xC5) || op == 0xCD || op == 0xD1

/-- A vector opcode that does not use SAT: `VCOPY` converts nothing, `VRAND` writes FP32 values that cannot overflow and
`VMXQ` rounds as R177 says (R173, R177, R178). -/
def satUnused (op : Nat) : Bool := op == 0xD0 || op == 0xD2 || op == 0xD3

/-- Reason codes of a vector word (R141, R158, R167, R170–R178). -/
def vectorReasons (k : Cluster) (n : Nat) : List Nat :=
  let op := fOp n
  let fs := fFmtS n
  let fd := fFmtD n
  let d0 := lReg k (fSlot n 0)
  let t := dTotal d0
  let run := dIter d0 0
  let runs := t / run
  let b := fBsrc n
  let mxq := op == 0xD0
  let rand := op == 0xD2
  let space := some true
  engineReasons n
    ++ why (!([0, 1, 5, 6, 7, 8, 0xA].contains fs) || fd == 9 || decide (0xA < fd)) 0x03
    ++ why (bitAt n 81 || seg n 127 90 != 0 || (b != 1 && fSreg n != 0)
        || (satUnused op && bitAt n 80) || ((mxq || !fMuse n) && fMreg n != 0)
        || (!rand && (if op = 0xCD then decide (7 < fSubop n) else fSubop n != 0))) 0x02
    ++ why (op == 0xCD && decide (5 < fSubop n % 8)) 0x03
    ++ why ((!isBinary op && b != 0) || (op == 0xD1 && b != 0) || (isMx fd && !mxq)
        || (op == 0xD3 && fs != fd) || (rand && (fs != 8 || fd != 8))
        || (mxq && (run % 32 != 0 || fMuse n || !isMx fd))) 0x04
    ++ (if rand then emptySlot n 0 ++ emptySlot n 1 ++ slotReasons k n 2 space none ++ emptySlot n 3
        else
          slotReasons k n 0 space none
          ++ slotIf (isBinary op && b != 1) k n 1 space
              (some (if b = 2 then run else if b = 3 then runs else t))
          ++ slotReasons k n 2 space (some (if mxq && fd == 4 then t / 2 else t))
          ++ (if op = 0xC3 then slotReasons k n 3 space (some t)
              else if op = 0xD1 then slotReasons k n 3 space (some (4 * runs))
              else if mxq then slotReasons k n 3 space (some (t / 32))
              else emptySlot n 3))

/-- Reason codes of a stream word (R129, R159, R160, R182, R191). -/
def streamReasons (k : Cluster) (n : Nat) : List Nat :=
  let op := fOp n
  let wld := op == 0xE2
  let ind := op == 0xE1 || op == 0xF1
  let t := dTotal (lReg k (fSlot n 0))
  let fmt := fFmtT n
  let per := fLmode n == 0 || fLmode n == 2
  let tt := if per then 4 else 1
  let wcount := if fLmode n < 2 then 32 * tt else if fmt = 4 then 2 * tt else 4 * tt
  let wm := maskOf k (seg n 35 22)
  engineReasons n
    ++ why (seg n 127 74 != 0 || (wld && seg n 62 60 != 0) || (!ind && fIshift n != 0)
        || (!wld && seg n 73 67 != 0) || (wld && wm != 0)) 0x02
    ++ why (seg n 62 60 == 7 || (wld && decide (8 < fmt))) 0x03
    ++ why (decide (0xF0 ≤ op) && wm != 0) 0x09
    ++ slotReasons k n 0 (if op = 0xE0 then none else if op = 0xE1 then some false else some true)
        (if wld then some wcount else none)
    ++ (if wld then slotIf (isMx fmt) k n 1 (some true) (some (4 * tt)) else slotIf ind k n 1 (some true) (some t))
    ++ (if wld then emptySlot n 2 else slotReasons k n 2 (some (decide (op < 0xF0))) (some t))
    ++ emptySlot n 3

/-- The opcode is one of Table 5.6, 5.7, 5.9, 5.13, 5.15, 5.16 or of R154. -/
def opListed (op : Nat) : Bool :=
  (usedBits op).isSome || op == 0x80 || decide (0xA0 ≤ op ∧ op ≤ 0xA5) || decide (0xC0 ≤ op ∧ op ≤ 0xD3)
    || decide (0xE0 ≤ op ∧ op ≤ 0xE2) || op == 0xF0 || op == 0xF1

/-- Every reason code that a word gives (R165). -/
def reasons (s : State) (q n : Nat) : List Nat :=
  let op := fOp n
  let k := s.clu q
  match usedBits op with
  | some u => scalarReasons s q n u
  | none =>
    if !opListed op then [0x01]
    else if op < 0xC0 then arrayReasons k n
    else if op < 0xE0 then vectorReasons k n
    else streamReasons k n

/-- The lowest reason code, none when every check holds. -/
def lowest (l : List Nat) : Option Nat :=
  match l with
  | [] => none
  | a :: t => some (t.foldl Nat.min a)

/-! ### Stained registers at issue (Table 5.17) -/

/-- Slots that a word uses. -/
def slotsUsed (n : Nat) : List Nat :=
  let op := fOp n
  if op < 0xC0 then
    0 :: (if fEnd n == 1 then [1] else []) ++ (if isMx (fFmtA n) || (op == 0xA5 && fEnd n == 1) then [2] else [])
      ++ (if fOpen n == 2 || fEnd n == 2 then [3] else [])
  else if op < 0xE0 then
    if op = 0xD2 then [2]
    else 0 :: (if isBinary op && fBsrc n != 1 then [1] else []) ++ [2]
      ++ (if op == 0xC3 || op == 0xD1 || op == 0xD0 then [3] else [])
  else if op = 0xE2 then 0 :: (if isMx (fFmtT n) then [1] else [])
  else if op == 0xE1 || op == 0xF1 then [0, 1, 2]
  else [0, 2]

/-- The word stops the job because a register it would act on is stained (R164). -/
def stainStops (k : Cluster) (n : Nat) : Bool :=
  let op := fOp n
  if 0x80 ≤ op then
    maskStain k (seg n 21 8) || maskStain k (seg n 35 22) || (slotsUsed n).any fun i => lStain k (fSlot n i)
  else if op = 0x05 ∨ op = 0x63 ∨ op = 0x67 ∨ op = 0x68 then sStain k (fRa n)
  else if 0x06 ≤ op ∧ op ≤ 0x0B then sStain k (fRa n) || sStain k (fRb n)
  else false

end Sys2Proof.Machine
end

