-- ==== Sys2Proof/Machine/Sequencer.lean ====
section
/-!
DEFINITION. A sequencer's issue attempt (R109–R120, R164, R165) and the control, scalar and loop-descriptor
instructions (R145–R153). A command of this family is one attempt to issue the word at the issue point; it acts
when that word is the command's (log 19).
-/
namespace Sys2Proof.Machine
open Sys2Proof

/-! ### The issue attempt -/

/-- What the sequencer finds at its issue point. -/
inductive Fetched where
  | word (n : Nat)
  | missing
  | starved
  deriving DecidableEq, Repr

/-- The word at the issue point: from the instruction cache, or from the current block (R116, R117). -/
def fetchAt (k : Cluster) : Fetched :=
  if k.src then
    match k.blocks with
    | [] => .starved
    | b :: _ => .word ((b.words[k.pc.toNat]?).getD 0).toNat
  else
    match Tbl.get [] k.icache (k.pc.toNat / 64) with
    | [] => .missing
    | l => .word (fieldAt l (k.pc.toNat % 64) 16)

/-- The sequencer may issue: running or stalled, its start count reached, and not ended, stopped or halted. -/
def canIssue (k : Cluster) : Bool :=
  decide (1 ≤ k.state.toNat) && decide (k.state.toNat ≤ 5) && !k.waiting && !k.ending && !k.stopping && !k.halted

/-- What an issued word does. -/
inductive Did where
  | go (s : State)
  | jump (s : State) (t : Nat)
  | stall (s : State) (state : Nat)
  | halt (s : State)

/-- One stalled region cycle in STATE `st` (Tables 4.7, 4.9). -/
def stallAt (k : Cluster) (st : Nat) : Cluster := { k with state := BitVec.ofNat 3 st, stall := k.stall + 1 }

/-- Continue with the following word; a block is freed after its last word (R118). -/
def advance (k : Cluster) : Cluster :=
  if k.src then
    if blockLen k ≤ k.pc.toNat + 1 then
      let rest := k.blocks.drop 1
      { k with pc := 0, blocks := rest, state := if rest = [] then 5 else 1 }
    else { k with pc := k.pc + 1, state := 1 }
  else { k with pc := BitVec.ofNat 64 ((k.pc.toNat + 16) % 2 ^ 52), state := 1 }

/-- The word's location (R165): its device address, or its index, docket sequence number and ring (log 21). -/
def wordLoc (k : Cluster) : Nat :=
  if k.src then
    k.pc.toNat % 64 + 2 ^ 6 * (match k.blocks with | b :: _ => b.seq.toNat | [] => 0) + 2 ^ 38 * k.ring.toNat
  else k.pc.toNat % 2 ^ 52

/-- Issue stops and the cluster's job stops. -/
def haltStop (s : State) (q : Nat) (y : StopWhy) : State :=
  cluStop (s.updClu q fun k => { k with halted := true }) q y

/-- A word that fails a check (R165): event `ILLEGAL` with its location and reason code, and the stop. -/
def illegal (s : State) (q loc reason : Nat) : State :=
  haltStop (raiseSeq s q evIllegal 2 (loc + 2 ^ 56 * reason)) q { cause := 3, reason := reason, cls := evIllegal }

/-- A word that a stained register keeps from issue (R164). -/
def stainCtrl (s : State) (q loc : Nat) : State :=
  haltStop (raise s { cls := evStainCtrl, src := srcCluster s q, job := cluJob s q, win := cluWinByte s q, sev := 2,
                      stained := true, detail := loc }) q { cause := 4, cls := evStainCtrl }

/-- Settle an attempt. -/
def settle (q : Nat) : Did → State
  | .go s => s.updClu q advance
  | .jump s t => s.updClu q fun k => { k with pc := BitVec.ofNat 64 t, state := 1 }
  | .stall s st => s.updClu q (stallAt · st)
  | .halt s => s

/-- The word has an unlisted opcode, or is a `CSTART` of an unlisted operation: no command of the table is its. -/
def unlistedWord (n : Nat) : Bool := !opListed (fOp n) || (fOp n == 0x67 && decide (5 < fSub n % 16))

/-- A scalar or control word reads scalar register RA, whose check an injection may make fail (R114, R404). -/
def readRa (s : State) (q n : Nat) : State :=
  if fOp n < 0x80 ∧ fRa n ≠ 0 then sramMeet s (.sreg (Fin.ofNat 2560 q) (Fin.ofNat 64 (fRa n))) else s

/-- The checks of a word at its issue, and what it does where it passes them (R164, R165); where an injection makes the
check of R165 report, the reason code is free. -/
def checkedIssue (s : State) (q n : Nat) (body : State → Did) : State :=
  let loc := wordLoc (s.clu q)
  let src := srcCluster s q
  let win := cluWinByte s q
  detect s evStainCtrl src win (stainStops (s.clu q) n) (fun s => stainCtrl s q loc) fun s =>
    let why := lowest (reasons s q n)
    detect s evIllegal src win why.isSome
      (fun s => illegal s.useFree q loc (why.getD (Config.freeByte s.free 0).toNat)) fun s => settle q (body s)

/-- One issue attempt of cluster `q` for the word `n`. -/
def seqIssue (q n : Nat) (body : State → Did) (s : State) : State :=
  let k := s.clu q
  if !canIssue k || islandStopped s q then s
  else
    match fetchAt k with
    | .missing => s.updClu q fun k => { k with missing := true }
    | .starved => s.updClu q (stallAt · 5)
    | .word m =>
      if m ≠ n then
        if unlistedWord m then illegal s q (wordLoc k) ((lowest (reasons s q m)).getD 1) else s
      else checkedIssue (readRa s q n) q n body

/-- Issue the word of opcode `op`. -/
def seqOp (op : Nat) (q : Cl) (w : BitVec 120) (body : Nat → Nat → State → Did) (s : State) : Ans :=
  .next (seqIssue q.val (wordOf op w) (body q.val (wordOf op w)) s)

/-! ### Control (Table 5.6) -/

/-- Execute with no effect. -/
def doNop (_q _n : Nat) (s : State) : Did := .go s

/-- `NOP`. -/
def execNop (q : Cl) (w : BitVec 120) (s : State) : Ans := seqOp 0x00 q w doNop s

/-- `END` (R120). -/
def execEndw (q : Cl) (w : BitVec 120) (s : State) : Ans :=
  seqOp 0x01 q w (fun q _ s => .halt (s.updClu q fun k => { k with ending := true, state := 1 })) s

/-- `ABORT`. -/
def execAbort (q : Cl) (w : BitVec 120) (s : State) : Ans :=
  seqOp 0x02 q w (fun q n s => .halt (haltStop s q { cause := 2, abort := some (fImm n % 2 ^ 16) })) s

/-- Go to the relative target (R146). -/
def takeBranch (q n : Nat) (s : State) : Did := .jump s (branchTarget (s.clu q) n).toNat

/-- The link value: location of the following word. -/
def linkValue (k : Cluster) : Nat := if k.src then k.pc.toNat + 1 else (k.pc.toNat + 16) % 2 ^ 52

/-- `J`. -/
def execJmp (q : Cl) (w : BitVec 120) (s : State) : Ans := seqOp 0x03 q w takeBranch s

/-- `JAL`. -/
def execJal (q : Cl) (w : BitVec 120) (s : State) : Ans :=
  seqOp 0x04 q w (fun q n s =>
    let t := (branchTarget (s.clu q) n).toNat
    .jump (s.updClu q fun k => putS k (fRd n) (linkValue k) false) t) s

/-- `JR`. -/
def execJr (q : Cl) (w : BitVec 120) (s : State) : Ans :=
  seqOp 0x05 q w (fun q n s => .jump s (sReg (s.clu q) (fRa n))) s

/-- A branch that compares RA with RB. -/
def branchIf (test : Nat → Nat → Bool) (q n : Nat) (s : State) : Did :=
  let k := s.clu q
  if test (sReg k (fRa n)) (sReg k (fRb n)) then takeBranch q n s else .go s

/-- Signed less than, of 64-bit values. -/
def ltS (a b : Nat) : Bool := decide (sgn 64 a < sgn 64 b)

/-- `BEQ`. -/
def execBeq (q : Cl) (w : BitVec 120) (s : State) : Ans := seqOp 0x06 q w (branchIf fun a b => a == b) s
/-- `BNE`. -/
def execBne (q : Cl) (w : BitVec 120) (s : State) : Ans := seqOp 0x07 q w (branchIf fun a b => a != b) s
/-- `BLT`. -/
def execBlt (q : Cl) (w : BitVec 120) (s : State) : Ans := seqOp 0x08 q w (branchIf ltS) s
/-- `BGE`. -/
def execBge (q : Cl) (w : BitVec 120) (s : State) : Ans := seqOp 0x09 q w (branchIf fun a b => !ltS a b) s
/-- `BLTU`. -/
def execBltu (q : Cl) (w : BitVec 120) (s : State) : Ans := seqOp 0x0A q w (branchIf fun a b => decide (a < b)) s
/-- `BGEU`. -/
def execBgeu (q : Cl) (w : BitVec 120) (s : State) : Ans := seqOp 0x0B q w (branchIf fun a b => decide (b ≤ a)) s

/-- `BSTN`. -/
def execBstn (q : Cl) (w : BitVec 120) (s : State) : Ans :=
  seqOp 0x0C q w (fun q n s => if sStain (s.clu q) (fRa n) then takeBranch q n s else .go s) s

/-! ### Scalar instructions (Table 5.7) -/

/-- RD := f RA RB, stained when either is (R147). -/
def alu2 (f : Nat → Nat → Nat) (q n : Nat) (s : State) : Did :=
  .go (s.updClu q fun k =>
    putS k (fRd n) (f (sReg k (fRa n)) (sReg k (fRb n))) (sStain k (fRa n) || sStain k (fRb n)))

/-- RD := f RA, stained when RA is. -/
def alu1 (f : Nat → Nat) (q n : Nat) (s : State) : Did :=
  .go (s.updClu q fun k => putS k (fRd n) (f (sReg k (fRa n))) (sStain k (fRa n)))

/-- RD := v, unstained. -/
def aluConst (v : Nat) (q n : Nat) (s : State) : Did := .go (s.updClu q fun k => putS k (fRd n) v false)

/-- An FP32 operation on bits [31:0], with bits [63:32] of the result 0 (R145). -/
def fp2 (f : Word → Word → Word) (a b : Nat) : Nat := (f (BitVec.ofNat 32 a) (BitVec.ofNat 32 b)).toNat

/-- `ADD`. -/
def execAdd (q : Cl) (w : BitVec 120) (s : State) : Ans := seqOp 0x20 q w (alu2 fun a b => (a + b) % 2 ^ 64) s
/-- `SUB`. -/
def execSub (q : Cl) (w : BitVec 120) (s : State) : Ans := seqOp 0x21 q w (alu2 fun a b => (a + 2 ^ 64 - b) % 2 ^ 64) s
/-- `MUL`. -/
def execMul (q : Cl) (w : BitVec 120) (s : State) : Ans := seqOp 0x22 q w (alu2 fun a b => a * b % 2 ^ 64) s
/-- `MULHU`. -/
def execMulhu (q : Cl) (w : BitVec 120) (s : State) : Ans := seqOp 0x23 q w (alu2 fun a b => a * b / 2 ^ 64) s
/-- `AND`. -/
def execAndw (q : Cl) (w : BitVec 120) (s : State) : Ans := seqOp 0x24 q w (alu2 fun a b => a &&& b) s
/-- `OR`. -/
def execOrw (q : Cl) (w : BitVec 120) (s : State) : Ans := seqOp 0x25 q w (alu2 fun a b => a ||| b) s
/-- `XOR`. -/
def execXorw (q : Cl) (w : BitVec 120) (s : State) : Ans := seqOp 0x26 q w (alu2 fun a b => a ^^^ b) s
/-- `SHL`. -/
def execShl (q : Cl) (w : BitVec 120) (s : State) : Ans :=
  seqOp 0x27 q w (alu2 fun a b => a * 2 ^ (b % 64) % 2 ^ 64) s
/-- `SHR`. -/
def execShr (q : Cl) (w : BitVec 120) (s : State) : Ans := seqOp 0x28 q w (alu2 fun a b => a / 2 ^ (b % 64)) s
/-- `SRA`. -/
def execSra (q : Cl) (w : BitVec 120) (s : State) : Ans :=
  seqOp 0x29 q w (alu2 fun a b => wrap 64 (sgn 64 a / (2 ^ (b % 64) : Nat))) s
/-- `SLT`. -/
def execSlt (q : Cl) (w : BitVec 120) (s : State) : Ans := seqOp 0x2A q w (alu2 fun a b => b2n (ltS a b)) s
/-- `SLTU`. -/
def execSltu (q : Cl) (w : BitVec 120) (s : State) : Ans := seqOp 0x2B q w (alu2 fun a b => b2n (decide (a < b))) s
/-- `MIN`. -/
def execMin (q : Cl) (w : BitVec 120) (s : State) : Ans := seqOp 0x2C q w (alu2 fun a b => if ltS a b then a else b) s
/-- `MAX`. -/
def execMax (q : Cl) (w : BitVec 120) (s : State) : Ans := seqOp 0x2D q w (alu2 fun a b => if ltS a b then b else a) s
/-- `ADDI`. -/
def execAddi (q : Cl) (w : BitVec 120) (s : State) : Ans :=
  seqOp 0x2E q w (fun q n => alu1 (fun a => (a + fImm n) % 2 ^ 64) q n) s
/-- `LI`. -/
def execLi (q : Cl) (w : BitVec 120) (s : State) : Ans := seqOp 0x2F q w (fun q n => aluConst (fImm n) q n) s
/-- `FADD`. -/
def execFadd (q : Cl) (w : BitVec 120) (s : State) : Ans := seqOp 0x30 q w (alu2 (fp2 f32Add)) s
/-- `FMUL`. -/
def execFmul (q : Cl) (w : BitVec 120) (s : State) : Ans := seqOp 0x31 q w (alu2 (fp2 f32Mul)) s
/-- `FMAX`. -/
def execFmax (q : Cl) (w : BitVec 120) (s : State) : Ans := seqOp 0x32 q w (alu2 (fp2 f32Max)) s
/-- `FMIN`. -/
def execFmin (q : Cl) (w : BitVec 120) (s : State) : Ans := seqOp 0x33 q w (alu2 (fp2 f32Min)) s
/-- `FCVT.FI`. -/
def execFcvtFi (q : Cl) (w : BitVec 120) (s : State) : Ans :=
  seqOp 0x34 q w (alu1 fun a => (toF32 (Num.ofInt (sgn 64 a) 0)).toNat) s
/-- `FCVT.IF`. -/
def execFcvtIf (q : Cl) (w : BitVec 120) (s : State) : Ans :=
  seqOp 0x35 q w (alu1 fun a => wrap 64 ((f32 (BitVec.ofNat 32 a)).toIntSat (-(2 ^ 63)) (2 ^ 63 - 1))) s

/-- The identity that SUB of `RDID` selects (Table 5.7). -/
def identity (s : State) (q sub : Nat) : Nat :=
  match sub with
  | 0 => coreId q 0
  | 1 => logicalCoord s
  | _ => cluJob s q

/-- `RDID`. -/
def execRdid (q : Cl) (w : BitVec 120) (s : State) : Ans :=
  seqOp 0x36 q w (fun q n s => aluConst (identity s q (fSub n)) q n s) s

/-- `SSTN`. -/
def execSstn (q : Cl) (w : BitVec 120) (s : State) : Ans :=
  seqOp 0x37 q w (fun q n s => aluConst (b2n (sStain (s.clu q) (fRa n))) q n s) s

/-- `MSET` (R147). -/
def execMset (q : Cl) (w : BitVec 120) (s : State) : Ans :=
  seqOp 0x38 q w (fun q n s => .go (s.updClu q fun k =>
    let m := fSub n % 8
    { k with mreg := Tbl.set 0 k.mreg m (BitVec.ofNat 16 (sReg k (fRa n)))
             mstain := BitVec.ofNat 8 (setSeg k.mstain.toNat m m (b2n (sStain k (fRa n)))) })) s

/-- `MGET`. -/
def execMget (q : Cl) (w : BitVec 120) (s : State) : Ans :=
  seqOp 0x39 q w (fun q n s => .go (s.updClu q fun k =>
    let m := fSub n % 8
    putS k (fRd n) (mReg k m) (k.mstain.getLsbD m))) s

/-! ### Loop-descriptor instructions (Table 5.9, R153) -/

/-- `LDW`. -/
def execLdw (q : Cl) (w : BitVec 120) (s : State) : Ans :=
  seqOp 0x40 q w (fun q n s => .go (s.updClu q fun k =>
    let l := fRd n % 16
    let i := fSub n % 8
    putL k l (setSeg (lReg k l) (64 * i + 63) (64 * i) (sReg k (fRa n))) (sStain k (fRa n)) (some i)
      (decide (6 ≤ i)))) s

/-- `LDLEV`. -/
def execLdlev (q : Cl) (w : BitVec 120) (s : State) : Ans :=
  seqOp 0x41 q w (fun q n s => .go (s.updClu q fun k =>
    let l := fRd n % 16
    let i := fSub n % 8
    let v := setSeg (lReg k l) (64 * i + 23) (64 * i) (seg (fImm n) 23 0)
    putL k l (setSeg v (64 * i + 63) (64 * i + 32) (seg (fImm n) 63 32)) false (some i) false)) s

/-- `LDBASE`. -/
def execLdbase (q : Cl) (w : BitVec 120) (s : State) : Ans :=
  seqOp 0x42 q w (fun q n s => .go (s.updClu q fun k =>
    let l := fRd n % 16
    putL k l (setSeg (lReg k l) 435 384 (sReg k (fRa n) + fImm n)) (sStain k (fRa n)) (some 6) false)) s

/-- `LDBUMP`. -/
def execLdbump (q : Cl) (w : BitVec 120) (s : State) : Ans :=
  seqOp 0x43 q w (fun q n s => .go (s.updClu q fun k =>
    let l := fRd n % 16
    putL k l (setSeg (lReg k l) 435 384 (dBase (lReg k l) + sReg k (fRa n))) (sStain k (fRa n)) none false)) s

/-- `LDMOV`: the stain of the source too. -/
def execLdmov (q : Cl) (w : BitVec 120) (s : State) : Ans :=
  seqOp 0x44 q w (fun q n s => .go (s.updClu q fun k =>
    let l := fRd n % 16
    let a := fRa n % 16
    { k with ldesc := Tbl.set 0 k.ldesc l (BitVec.ofNat 512 (lReg k a))
             lstain := BitVec.ofNat 16 (setSeg k.lstain.toNat l l (b2n (lStain k a)))
             lclean := Tbl.set 0 k.lclean l 0 })) s

/-- `LDRD`. -/
def execLdrd (q : Cl) (w : BitVec 120) (s : State) : Ans :=
  seqOp 0x45 q w (fun q n s => .go (s.updClu q fun k =>
    let a := fRa n % 16
    let i := fSub n % 8
    putS k (fRd n) (seg (lReg k a) (64 * i + 63) (64 * i)) (lStain k a))) s

/-! ### Fetching and the ends of a cluster's run -/

/-- Put a line in the 256-line cache; a full cache loses the line that a free value chooses (log 20). -/
def cacheLine (k : Cluster) (line : Nat) (b : List Byte) (free : Nat) : Cluster :=
  let t := if 256 ≤ k.icache.length then
      Tbl.erase k.icache ((k.icache.map (·.1)).getD (Config.freeNat free % k.icache.length) 0)
    else k.icache
  { k with icache := Tbl.set [] t line b, missing := false }

/-- ICACHE_MISS_FILL: the line is read through the cluster's window; a fetch that faults stops the job (R116,
R204). -/
def execIcacheMissFill (q : Cl) (s : State) : Ans :=
  let k := s.clu q.val
  if k.missing && canIssue k && !islandStopped s q.val then
    let win := (cluWin s q.val).getD 0
    let line := k.pc.toNat / 64
    let a : Int := line * 64
    let src := srcCluster s q.val
    let bad := fun (b : Int) => match xlateBy s src win b false with | .fault f => some f | .ok _ _ => none
    let (s, why, inj) := match takeInject s evXlatFault src win with
      | some (_, t) => (t.useFree, some (1 + Config.freeNat s.free % 5), true)
      | none => (s, (bad a).orElse (fun _ => bad (a + 32)), false)
    match why with
    | some f =>
      .next (haltStop (xlatFault (s.updClu q.val fun k => { k with missing := false }) src win k.pc.toNat f false true inj)
        q.val { cause := 4, cls := evXlatFault })
    | none =>
      let (s, r) := devSectors src win 2 s a
      .next ((s.updClu q.val fun k => cacheLine k line r.bytes s.free).useFree)
  else .next s

/-- Every engine queue of every core of the cluster is empty. -/
def queuesEmpty (k : Cluster) : Bool :=
  k.core.all fun e => e.2.aq.isEmpty && e.2.vq.isEmpty && e.2.iq.isEmpty && e.2.oq.isEmpty

/-- A cluster is over: the job counts it. -/
def clusterOver (s : State) (q : Nat) : State :=
  match cluWin s q with
  | some w => s.updJob w fun j => { j with clOver := insertUp q j.clOver }
  | none => s

/-- CLUSTER_ENDED (R120). -/
def execClusterEnded (q : Cl) (s : State) : Ans :=
  let k := s.clu q.val
  if k.ending && !k.stopping && k.state != 6 && queuesEmpty k && !islandStopped s q.val then
    .next (clusterOver (s.updClu q.val fun k => { k with state := 6 }) q.val)
  else .next s

/-- A started stream or array instruction is abandoned, and an unstarted one discarded: the queues, the engines'
progress and the outstanding accesses are dropped; writes that completed remain (R136). -/
def abandonCore (k : CoreSt) : CoreSt :=
  { k with aq := [], vq := [], iq := [], oq := [], reads := [], writes := [], veng := {} }

/-- JOB_STOP_REACH_CLUSTER (R136): issue stops, unstarted instructions are discarded. -/
def execJobStopReachCluster (q : Cl) (s : State) : Ans :=
  let k := s.clu q.val
  if k.stopSent && !k.stopping && !islandStopped s q.val then
    .next (s.updClu q.val fun k =>
      let k := { k with stopping := true, stopSent := false }
      k.updCores fun _ e => { e with
        aq := e.aq.filter (·.started), vq := e.vq.filter (·.started)
        iq := e.iq.filter (·.started), oq := e.oq.filter (·.started) })
  else .next s

/-- CLUSTER_STOPPED: the abandonment is finished and STATE reads stopped (R136). -/
def execClusterStopped (q : Cl) (s : State) : Ans :=
  let k := s.clu q.val
  if k.stopping && k.state != 7 && !islandStopped s q.val then
    .next (clusterOver (s.updClu q.val fun k =>
      let k := k.updCores fun _ => abandonCore
      { k with state := 7, sigs := [], colls := [] }) q.val)
  else .next s

/-- The `LAUNCH` of the job of window `w` is finished once every cluster has begun issue (Table 14.6). -/
def launchBegun (s : State) (w : Nat) : State :=
  let j := s.jobAt w
  if j.clusters.any fun q => (s.clu q).waiting then s
  else
    match (s.ring j.ring).running with
    | some d => if dkOp d = 0x20 ∧ dkJob d = j.job.toNat then finishDocket s j.ring stOk 0 else s
    | none => s

/-- CLUSTER_START_ISSUE (R385, R386): the die's copy of the counter has reached T_s and the module is SYNCED. -/
def execClusterStartIssue (q : Cl) (s : State) : Ans :=
  match cluWin s q.val with
  | some w =>
    if (s.clu q.val).waiting && !islandStopped s q.val && decide ((s.jobAt w).ts.toNat ≤ copyCount s (clDie q.val)) && gctSynced s then
      .next (launchBegun (s.updClu q.val fun k => { k with waiting := false }) w)
    else .next s
  | none => .next s

end Sys2Proof.Machine
end

