-- ==== Sys2Proof/Machine/Engine.lean ====
section
/-!
DEFINITION. What the engines of a core share: the scoreboard (R125–R130), scratchpad reads and writes under the
masks of an instruction (R129, R152) with their stains (R181, R186), the stain-halt stop (R164) and completion
(R126).
-/
namespace Sys2Proof.Machine
open Sys2Proof

/-! ### Instructions of a core -/

/-- Every instruction of a core. -/
def allInsts (k : CoreSt) : List EInst := k.aq ++ k.vq ++ k.iq ++ k.oq

/-- Put a changed instruction back in its queue. -/
def putInst (k : CoreSt) (e : Engine) (i : EInst) : CoreSt :=
  k.setQueue e ((k.queue e).map fun j => if j.id = i.id then i else j)

/-- Put a changed instruction back in a core of the state. -/
def State.putInst (s : State) (q c : Nat) (e : Engine) (i : EInst) : State :=
  s.updCoreOf q c fun k => Machine.putInst k e i

/-- R127: no earlier instruction of the core holds the instruction back. -/
def scoreOk (k : CoreSt) (j : EInst) : Bool :=
  (allInsts k).all fun i =>
    !decide (i.id < j.id)
      || ((i.writesOut || (j.rmask &&& i.wmask == 0 && j.wmask &&& i.wmask == 0))
          && (i.readsOut || j.wmask &&& i.rmask == 0))

/-! ### Scratchpad accesses -/

/-- How an access fails: 0 not at all, 1 outside the mask, 2 misaligned (R129, R152). -/
def accessFault (mask : DWord) (a : Int) (n : Nat) : Nat :=
  if a % (min n 32 : Nat) ≠ 0 then 2
  else if a < 0 ∨ 65536 < a + n then 1
  else if mask.getLsbD (a.toNat / 1024) && mask.getLsbD ((a.toNat + n - 1) / 1024) then 0
  else 1

/-- Record an access that is not performed (R129, R152). -/
def accessEvent (s : State) (q c fault : Nat) (a : Int) (stained : Bool) : State :=
  let s := s.updClu q fun k => { k with maskFault := true }
  raiseCore s q c (if fault = 2 then evAddrFault else evSbMask) stained 1 (wrap 64 a)

/-- An injection makes an access of the core fail: the state with one use less, and how the access fails (R404). -/
def injectedFault (s : State) (q c : Nat) : Option (State × Nat) :=
  let take := fun cls => (takeInject s cls (srcCore s q c) (cluWinByte s q)).map (·.2)
  ((take evSbMask).map fun s => (s, 1)).orElse fun _ => (take evAddrFault).map fun s => (s, 2)

/-- Read an element of up to 32 bytes: stained zeros where the access is not performed. -/
def readPiece (s : State) (q c : Nat) (i : EInst) (a : Int) (n : Nat) : State × List Byte × Bool :=
  match injectedFault s q c with
  | some (s, f) => (underInject (fun s => accessEvent s q c f a true) s, zeros n, true)
  | none =>
    match accessFault i.rmask a n with
    | 0 =>
      let s := sramMeet s (.scratch (Fin.ofNat 2560 q) (Fin.ofNat 32 c) (Fin.ofNat 8192 (a.toNat / 8)))
      let k := s.coreOf q c
      (s, padBytes k a.toNat n, padRangeStained k a.toNat n)
    | f => (accessEvent s q c f a true, zeros n, true)

/-- Read an element; one of 64 bytes is two sectors. -/
def readElem (s : State) (q c : Nat) (i : EInst) (a : Int) (n : Nat) : State × List Byte × Bool :=
  if n ≤ 32 then readPiece s q c i a n
  else
    match accessFault i.rmask a 32 with
    | 2 => (accessEvent s q c 2 a true, zeros n, true)
    | _ =>
      let (s, b, st) := readPiece s q c i a 32
      let (s, b', st') := readPiece s q c i (a + 32) (n - 32)
      (s, b ++ b', st || st')

/-- Bytes `lo` to `lo + n - 1` of a sector as a mask. -/
def byteMask (lo n : Nat) : Nat := (2 ^ n - 1) * 2 ^ lo

/-- Write bytes within one sector for an instruction: the sector ends stained when the instruction has written a
stained element into it, or when it was stained and the instruction has not covered it (R181, R186). -/
def coverPut (k : CoreSt) (i : EInst) (a : Nat) (b : List Byte) (st : Bool) : CoreSt × EInst :=
  let sec := a / 32
  let m := Tbl.get 0 i.cover sec ||| byteMask (a % 32) b.length ||| (if st then 2 ^ 32 else 0)
  let clean := if bitAt m 32 then false else if m % 2 ^ 32 = wholeEn then true else !padStained k sec
  ({ k with pad := tblPutSector k.pad a b, padClean := Tbl.set false k.padClean sec clean },
    { i with cover := Tbl.set 0 i.cover sec m })

/-- Write an element of up to 32 bytes for an instruction in queue `e`. -/
def writePiece (s : State) (q c : Nat) (e : Engine) (i : EInst) (a : Int) (b : List Byte) (st : Bool) :
    State × EInst :=
  match injectedFault s q c with
  | some (s, f) => (underInject (fun s => accessEvent s q c f a st) s, i)
  | none =>
    match accessFault i.wmask a b.length with
    | 0 =>
      let (k, i) := coverPut (s.coreOf q c) i a.toNat b st
      (s.updCoreOf q c fun _ => putInst k e i, i)
    | f => (accessEvent s q c f a st, i)

/-- Write an element; one of 64 bytes is two sectors. -/
def writeElem (s : State) (q c : Nat) (e : Engine) (i : EInst) (a : Int) (b : List Byte) (st : Bool) :
    State × EInst :=
  if b.length ≤ 32 then writePiece s q c e i a b st
  else
    match accessFault i.wmask a 32 with
    | 2 => (accessEvent s q c 2 a st, i)
    | _ =>
      let (s, i) := writePiece s q c e i a (b.take 32) st
      writePiece s q c e i (a + 32) (b.drop 32) st

/-! ### Completion -/

/-- The stop of STN halt, at the end of the instruction (R164). -/
def stainHalt (s : State) (q c : Nat) (i : EInst) : State :=
  haltStop (raiseCore s q c evStainHalt true 2 i.loc.toNat) q { cause := 4, cls := evStainHalt }

/-- The engine has finished the instruction at the head of its queue: it leaves the queue (R122, R126). An instruction
under STN halt is the use that `STAIN_HALT` guards (R404). -/
def retire (s : State) (q c : Nat) (e : Engine) : State :=
  match (s.coreOf q c).queue e with
  | [] => s
  | i :: rest =>
    let s := s.updCoreOf q c fun k => k.setQueue e rest
    if fHalt i.word.toNat then
      detect s evStainHalt (srcCore s q c) (cluWinByte s q) i.halted (fun s => stainHalt s q c i) id
    else if i.halted then stainHalt s q c i else s

end Sys2Proof.Machine
end

