-- ==== Sys2Proof/Machine/Flags.lean ====
section
/-!
DEFINITION. The flags of `CORE_NUMF` (Table 2.6) and the rounding of a drain, which sets them (R62, R68–R73).
-/
namespace Sys2Proof.Machine
open Sys2Proof

def nfAccOvf : Nat := 0
def nfAccInexact : Nat := 1
def nfNanSeen : Nat := 2
def nfInfSeen : Nat := 3
def nfDrainOvf : Nat := 4
def nfDrainUfl : Nat := 5
def nfDrainInexact : Nat := 6
def nfResErr : Nat := 7
def nfSplit : Nat := 8

/-- A `CORE_NUMF` value with one bit set. -/
def nf (b : Nat) : BitVec 16 := BitVec.ofNat 16 (2 ^ b)
/-- A bit when a condition holds. -/
def nfIf (c : Bool) (b : Nat) : BitVec 16 := if c then nf b else 0

/-- Flags of a rounding of a finite value to a floating-point destination (R69, R70). -/
def roundFlags (r : Rounded) : BitVec 16 :=
  nfIf r.ovf nfDrainOvf ||| nfIf r.ufl nfDrainUfl ||| nfIf (r.inexact || r.ovf) nfDrainInexact

/-- Flags of the final drain: those of its rounding, with `NAN_SEEN` and `INF_SEEN` for a NaN or an infinity that
the column held (R72, R73). -/
def drainFlags (x : Num) (r : Rounded) : BitVec 16 :=
  match x with
  | .fin _ _ _ => roundFlags r
  | _ => nfIf r.nan nfNanSeen ||| nfIf r.inf nfInfSeen

/-- Round a column's value, scaled by 2^DSHIFT, to a destination: its bits and flags (R68–R70, Table 2.4). A value of
zero drains as +0 (R69). An INT32 value of exactly −2^31 is delivered as it is and does not count as an overflow, though
its magnitude is above 2^31 − 1 (DESIGN CHOICE, log 140). -/
def drainTo (fmt : Nat) (sat : Bool) (dshift : Int) (x : Num) : Nat × BitVec 16 :=
  let x := x.scale dshift
  if x.isZero then (0, 0)
  else if fmt = 9 then
    let v := x.toIntSat (-(2 ^ 31)) (2 ^ 31 - 1)
    let exact := (Num.ofInt v 0).cmp x == some 0
    let ovf := decide (x.toIntSat (-(2 ^ 200)) (2 ^ 200) ≠ v)
    (wrap 32 v, nfIf ovf nfDrainOvf ||| nfIf (!exact) nfDrainInexact)
  else
    let r := roundFmt fmt sat x
    (r.bits, drainFlags x r)

/-- An FP32 rounding inside the auto-split tree, with its flags (R62). -/
def treeRound (x : Num) : Word × BitVec 16 :=
  let r := fp32.round false x
  (BitVec.ofNat 32 r.bits, match x with | .fin _ _ _ => roundFlags r | _ => 0)

/-- An FP32 addition of the tree, with its flags. -/
def treeAdd (x y : Word) : Word × BitVec 16 := treeRound ((f32 x).add (f32 y))

end Sys2Proof.Machine
end

