-- ==== Sys2Proof/Machine/Column.lean ====
section
/-!
DEFINITION. What a column of an array computes: products and tally terms (R54–R60, R66, R67, R71, R101–R107),
segments and the auto-split tree (R61–R63), saturation (R65), the residue (R74, R75), the drained value (R68–R72)
and the park record (R99, R100).
-/
namespace Sys2Proof.Machine
open Sys2Proof

/-! ### Forms of a reduction -/

/-- The opcode is `MMA`. -/
def isMma (n : Nat) : Bool := fOp n == 0x80
/-- BF16, FP16 or FP32 multiply-add (R66). -/
def isFpPath (n : Nat) : Bool := isMma n && decide (6 ≤ fFmtA n)
/-- MIN-PLUS, MAX-PLUS or ARGMAX. -/
def isPick (n : Nat) : Bool := fOp n == 0xA0 || fOp n == 0xA1 || fOp n == 0xA5
/-- A tally with an FP32 column register (Table 3.7). -/
def isFpTally (n : Nat) : Bool := isPick n && decide (6 ≤ fFmtA n)
/-- MX operands. -/
def isMxOp (n : Nat) : Bool := isMma n && isMx (fFmtA n)
/-- Auto-split is in force: the split form of R100. -/
def isSplit (n : Nat) : Bool := isMma n && (isMx (fFmtA n) || (decide (fFmtA n ≤ 1) && !fNoSplit n))
/-- Plain FP8 with `NOSPLIT`. -/
def isNoSplit (n : Nat) : Bool := isMma n && decide (fFmtA n ≤ 1) && fNoSplit n
/-- KIND of Table 3.5. -/
def kindOf (n : Nat) : Nat :=
  if isMma n then (if isFpPath n then 2 else if isSplit n then 1 else 5) else if isFpTally n then 4 else 3
/-- Exponent of the register's unit before any anchor: 2^-32, or 2^0 for INT8 and for a count. -/
def unitExp (n : Nat) : Int := if fFmtA n = 5 ∨ fOp n = 0xA4 then 0 else -32

/-- The column register as a signed integer. -/
def Column.val (c : Column) : Int := sgn 80 c.reg.toNat
/-- Put a signed integer in the column register. -/
def Column.setVal (c : Column) (v : Int) : Column := { c with reg := BitVec.ofNat 80 (wrap 80 v) }
/-- Residue of an integer mod 7, 0–6. -/
def mod7 (v : Int) : Nat := (v % 7).toNat
/-- Add an integer to the register and its residue (R74). -/
def Column.addVal (c : Column) (p : Int) : Column :=
  { c.setVal (c.val + p) with res := BitVec.ofNat 3 ((c.res.toNat + mod7 p) % 7) }
/-- Set tags; +∞ and −∞ together set NAN (R71). -/
def Column.tag (c : Column) (nan pinf ninf : Bool) : Column :=
  let p := c.pinf || pinf
  let m := c.ninf || ninf
  { c with nan := c.nan || nan || (p && m), pinf := p, ninf := m }

/-- Products or terms taken: the count of a count-form reduction, or of the open segment. -/
def Column.atLimit (n : Nat) (c : Column) : Bool :=
  if isMxOp n then decide (4096 ≤ c.segs)
  else if isSplit n then decide (4095 ≤ c.segs) && decide (4096 ≤ c.inseg)
  else decide (2 ^ 24 ≤ c.inseg)

/-! ### Segments (R61, R62) -/

/-- Put a value on the tree's stack, adding while the top has its level. -/
def pushTree : List (Nat × Word) → Nat → Word → BitVec 16 → List (Nat × Word) × BitVec 16
  | [], l, v, f => ([(l, v)], f)
  | (k, x) :: t, l, v, f =>
    if k = l then
      let (y, g) := treeAdd x v
      pushTree t (l + 1) y (f ||| g)
    else ((l, v) :: (k, x) :: t, f)

/-- Combine what is left of the tree, from the top. -/
def foldTree : List (Nat × Word) → Word × BitVec 16
  | [] => (0, 0)
  | (_, v) :: t => t.foldl (fun (r, f) (_, x) => let (y, g) := treeAdd x r; (y, f ||| g)) (v, 0)

/-- The exact value of a column's register with its tags (Table 2.5). -/
def Column.num (n : Nat) (c : Column) : Num :=
  if c.nan then .nan
  else if c.pinf then .inf false
  else if c.ninf then .inf true
  else .fin (decide (c.val < 0)) c.val.natAbs (unitExp n + (if isMxOp n then c.anchor else 0))

/-- The residue check of R75: it fails unless the register is saturated or agrees with the residue. -/
def Column.resBad (c : Column) : Bool := !c.satd && mod7 c.val != c.res.toNat

/-- `NAN_SEEN` or `INF_SEEN` of a tagged segment (R72). -/
def Column.tagFlags (c : Column) : BitVec 16 :=
  if c.nan then nf nfNanSeen else nfIf (c.pinf || c.ninf) nfInfSeen

/-- A column after something has acted on it: flags for `CORE_NUMF`, and whether R65 has just saturated it and a check of
R75 has just failed. -/
structure Stepped where
  col : Column
  flags : BitVec 16 := 0
  ovf : Bool := false
  bad : Bool := false

/-- A check fails: the reduction's drained result will be stained (R75). -/
def Stepped.check (r : Stepped) (bad : Bool) : Stepped :=
  { r with col := { r.col with bad := r.col.bad || bad }, bad := r.bad || bad, flags := r.flags ||| nfIf bad nfResErr }

/-- A segment ends: its residue is checked, one rounding to FP32 goes into the tree, and the register, tags and residue
start again (R62, R75). -/
def closeSegment (n : Nat) (c : Column) : Stepped :=
  let (v, f) := treeRound (c.num n)
  let (st, g) := pushTree c.stack 0 v 0
  let r : Stepped :=
    { col := { c with stack := st, segs := c.segs + 1, inseg := 0, reg := 0, res := 0, nan := false, pinf := false
                      ninf := false }
      flags := f ||| g ||| c.tagFlags }
  r.check c.resBad

/-! ### Products (R56–R60, R65–R67, R71) -/

/-- What a product or term does to the register. -/
inductive Term where
  | nan
  | inf (neg : Bool)
  | fin (x : Num)

/-- A value as a term. -/
def termOf (x : Num) : Term :=
  match x with
  | .nan => .nan
  | .inf s => .inf s
  | y => .fin y

/-- A saturated column: the limit of its sign (R65). -/
def saturated (c : Column) : Column :=
  let lim : Int := 2 ^ 76
  { c.setVal (if c.val < 0 then -(lim - 1) else lim - 1) with satd := true }

/-- Saturation of R65 after an addition, with whether it has just happened. -/
def saturate (n : Nat) (c : Column) : Column × Bool :=
  let lim : Int := 2 ^ 76
  if isNoSplit n && !c.satd && (decide (lim ≤ c.val) || decide (c.val ≤ -lim)) then (saturated c, true) else (c, false)

/-- A product enters an exact, unanchored column. -/
def enterPlain (n : Nat) (r : Stepped) (a w : Nat) : Stepped :=
  let r := if isSplit n && r.col.inseg == 4096 then
      let e := closeSegment n r.col
      { e with flags := r.flags ||| e.flags, ovf := r.ovf, bad := r.bad || e.bad }
    else r
  let c := { r.col with inseg := r.col.inseg + 1 }
  match termOf ((decodeFmt (fFmtA n) a).mul (decodeFmt (fFmtW n) w)) with
  | .nan => { r with col := c.tag true false false }
  | .inf s => { r with col := c.tag false (!s) s }
  | .fin x =>
    if c.satd then { r with col := c }
    else
      let (c, o) := saturate n (c.addVal (x.inUnits (unitExp n)))
      { r with col := c, flags := r.flags ||| nfIf o nfAccOvf, ovf := r.ovf || o }

/-- A product of an MX block: into the block's sum, or its tag (R60, R71). -/
def enterMx (n : Nat) (c : Column) (sa sw a w : Nat) : Column :=
  let c := { c with inseg := c.inseg + 1 }
  if sa = 255 ∨ sw = 255 then c.tag true false false
  else
    match termOf ((decodeFmt (fFmtA n) a).mul (decodeFmt (fFmtW n) w)) with
    | .nan => c.tag true false false
    | .inf s => c.tag false (!s) s
    | .fin x => { c with blk := c.blk + x.inUnits (-32) }

/-- One copy of the alignment rounder, with a flipped bit where it is the one upset (R74). -/
def rounderCopy (u : Option ColUpset) (copy : Bool) (p : Int) : Int :=
  match u with
  | some (.rounder c b) => if c = copy then sgn 80 (wrap 80 p ^^^ 2 ^ b.val) else p
  | _ => p

/-- An MX block ends: its sum is shifted right by U − a − b, rounded to nearest even by both rounders, and the first one's
integer is added (R60); the two copies are compared (R74, R75). -/
def closeBlock (r : Stepped) (sa sw : Nat) (u : Option ColUpset) : Stepped :=
  let c := r.col
  if sa = 255 ∨ sw = 255 then { r with col := { c with blk := 0 } }
  else
    let d := (c.anchor - ((sa : Int) - 127) - ((sw : Int) - 127)).toNat
    let (m, lost) := rneShr c.blk.natAbs d
    let p : Int := if c.blk < 0 then -(m : Int) else m
    let p0 := rounderCopy u false p
    let r := { r with col := { c.addVal p0 with blk := 0 }, flags := r.flags ||| nfIf lost nfAccInexact }
    r.check (p0 != rounderCopy u true p)

/-- A significand with its leading bit at bit 23, and the exponent that goes with it: a subnormal is shifted up before it
is sliced, since only so is the error of R67 below 2^-23. -/
def sliceForm (m : Nat) (e : Int) : Nat × Int :=
  if m = 0 then (0, e) else let k := 23 - Nat.log2 m; (m * 2 ^ k, e - k)

/-- FP32 × FP32 from eight-bit slices, without the lowest slice product, rounded once (R67). -/
def slicedMul (a b : Word) : Word :=
  match f32 a, f32 b with
  | .fin s m e, .fin t k d =>
    let (m, e) := sliceForm m e
    let (k, d) := sliceForm k d
    toF32 (.fin (s != t) (m * k - (m % 256) * (k % 256)) (e + d))
  | x, y => toF32 (x.mul y)

/-- One product of the FP32 path. -/
def fpProduct (n a w : Nat) : Word :=
  if fFmtA n = 8 then slicedMul (BitVec.ofNat 32 a) (BitVec.ofNat 32 w)
  else toF32 ((decodeFmt (fFmtA n) a).mul (decodeFmt (fFmtW n) w))

/-- Residue mod 7 of an FP32 value's aligned significand, none where it is not finite (R76). -/
def sumResidue (x : Word) : Option Nat :=
  match f32 x with
  | .fin s m e => let v := m * 2 ^ ((e + 300) % 3).toNat % 7; some (if s then (7 - v) % 7 else v)
  | _ => none

/-- An FP32 addition by adder `node`: its sum, and whether the residue of its significands finds it wrong (R76). -/
def checkedAdd (u : Option ColUpset) (node : Nat) (x y : Word) : Word × Bool :=
  let z := f32Add x y
  match u with
  | some (.adder k b) =>
    if k.val = node then let v := z ^^^ BitVec.ofNat 32 (2 ^ b.val); (v, sumResidue v != sumResidue z) else (z, false)
  | _ => (z, false)

/-- Addition in which an absent product takes no part (log 23). -/
def addOpt (u : Option ColUpset) (node : Nat) (x y : Option (Word × Bool)) : Option (Word × Bool) :=
  match x, y with
  | some (a, p), some (b, q) => let (v, r) := checkedAdd u node a b; some (v, p || q || r)
  | some a, none => some a
  | none, y => y

/-- One step of the FP32 path: the tree of rows 0–7, then the column, every addition checked (R66, R76). -/
def enterFp (n : Nat) (r : Stepped) (ops : List (Nat × Nat)) (u : Option ColUpset) : Stepped :=
  let p := fun r => (ops.find? fun o => o.1 / 2 ^ 32 == r).map fun o => (fpProduct n (o.1 % 2 ^ 32) o.2, false)
  let t := addOpt u 6 (addOpt u 4 (addOpt u 0 (p 0) (p 1)) (addOpt u 1 (p 2) (p 3)))
    (addOpt u 5 (addOpt u 2 (p 4) (p 5)) (addOpt u 3 (p 6) (p 7)))
  match t with
  | some (v, bad) =>
    let (z, bad') := checkedAdd u 7 (BitVec.ofNat 32 r.col.reg.toNat) v
    let c := { r.col with inseg := r.col.inseg + ops.length, reg := z.setWidth 80 }
    { r with col := c }.check (bad || bad')
  | none => r

/-! ### Tally terms (R101–R107) -/

/-- The term of a tally (Tables 3.6, 3.7). -/
def tallyTerm (n a w : Nat) : Term :=
  let x := decodeFmt (fFmtA n) a
  let y := decodeFmt (fFmtW n) w
  match fOp n with
  | 0xA2 =>
    match x.sub y with
    | .nan => .nan
    | .inf _ => .inf false
    | d => .fin d.abs
  | 0xA3 => let d := x.sub y; termOf (d.mul d)
  | 0xA4 => .fin (Num.ofInt (b2n (predHolds (fPred n) x y)) 0)
  | _ => if isFpTally n then termOf (f32 (toF32 (x.add y))) else termOf (x.add y)

/-- The value that a picking tally's register holds. -/
def pickNum (n : Nat) (c : Column) : Num :=
  if isFpTally n then f32 (BitVec.ofNat 32 c.reg.toNat) else Num.ofInt c.val (unitExp n)

/-- A finite term of a picking tally displaces the register's. Of an FP32 tie of +0 and −0, of which the tally rules say
nothing, min keeps −0 and max +0, so that no order of arrival shows (DEDUCED, log 138). -/
def pickBeats (n : Nat) (c : Column) (x : Num) : Bool :=
  if !c.has then true
  else
    match x.cmp (pickNum n c) with
    | none => false
    | some r =>
      if fOp n = 0xA0 then decide (r < 0) || (r == 0 && x.sign && !(pickNum n c).sign)
      else if fOp n = 0xA1 then decide (0 < r) || (r == 0 && !x.sign && (pickNum n c).sign)
      else decide (0 < r)

/-- Put the value of a finite term in the register. -/
def pickPut (n : Nat) (c : Column) (x : Num) : Column :=
  if isFpTally n then { c with reg := (toF32 x).setWidth 80 } else c.setVal (x.inUnits (unitExp n))

/-- The first k of a kind. -/
def firstIdx (o : Option (BitVec 24)) (k : Nat) : Option (BitVec 24) := some (o.getD (BitVec.ofNat 24 k))

/-- The answer of one of two comparators, wrong where it is the one upset (R108). -/
def comparator (u : Option ColUpset) (copy answer : Bool) : Bool :=
  match u with
  | some (.comparator c) => if c = copy then !answer else answer
  | _ => answer

/-- A flipped bit of one of the two index registers (R108). -/
def upsetIndex (u : Option ColUpset) (c : Column) : Column :=
  match u with
  | some (.index copy b) =>
    let m := BitVec.ofNat 24 (2 ^ b.val)
    if copy then { c with idx2 := c.idx2 ^^^ m } else { c with idx := c.idx ^^^ m }
  | _ => c

/-- A finite term of a picking tally: the first comparator chooses for the register and the index, the second for the
duplicate index, and they are compared at every update (R106, R108). -/
def pickTerm (n k : Nat) (c : Column) (x : Num) (u : Option ColUpset) : Stepped :=
  let b0 := comparator u false (pickBeats n c x)
  let b1 := comparator u true (pickBeats n c x)
  let d := if b0 then { pickPut n c x with has := true, idx := BitVec.ofNat 24 k, idxSet := true } else c
  let d := if b1 then { d with idx2 := BitVec.ofNat 24 k } else d
  ({ col := d } : Stepped).check (b0 != b1 || ((b0 || b1) && d.idx != d.idx2))

/-- A term enters a tally column (R101, R106, R107); its k is the count of the terms before it. The residue takes a
count's predicate from the second comparator (R108). -/
def enterTally (n : Nat) (r : Stepped) (a w : Nat) (u : Option ColUpset) : Stepped :=
  let k := r.col.inseg
  let c := { upsetIndex u r.col with inseg := r.col.inseg + 1 }
  match tallyTerm n a w with
  | .nan => { r with col := { c.tag true false false with nanIdx := firstIdx c.nanIdx k } }
  | .inf s =>
    if isPick n then
      if (fOp n == 0xA0) == s then
        { r with col := { c.tag false (!s) s with pinfIdx := if s then c.pinfIdx else firstIdx c.pinfIdx k } }
      else if !c.has && !c.idxSet then
        { r with col := { c with idx := BitVec.ofNat 24 k, idx2 := BitVec.ofNat 24 k, idxSet := true } }
      else { r with col := c }
    else { r with col := c.tag false true false }
  | .fin x =>
    if isPick n then
      let e := pickTerm n k c x u
      { r with col := e.col, flags := r.flags ||| e.flags, bad := r.bad || e.bad }
    else if fOp n = 0xA4 then
      let holds := x.inUnits (unitExp n) == 1
      let p := fun copy => (b2n (comparator u copy holds) : Int)
      { r with col := { c.setVal (c.val + p false) with res := BitVec.ofNat 3 ((c.res.toNat + mod7 (p true)) % 7) } }
    else { r with col := c.addVal (x.inUnits (unitExp n)) }

/-! ### Drain (R62, R68–R72, R75, R104, R107) -/

/-- What a drain delivers: the value, the ARGMAX index, flags, whether a residue check fails now, the stain, and whether
the value depends on stained data that was read (R164). -/
structure Drained where
  value : Nat
  index : Nat
  flags : BitVec 16
  bad : Bool
  stain : Bool
  dep : Bool

/-- The ARGMAX index under the tag that decides the value (R107). -/
def argIndex (c : Column) : Nat :=
  if c.nan then (c.nanIdx.getD 0).toNat else if c.pinf then (c.pinfIdx.getD 0).toNat else c.idx.toNat

/-- The column's value before the final rounding, with flags of the tree, and whether the last segment's residue check
fails. SPLIT is set by this drain of a reduction of several segments, and not before it (DESIGN CHOICE, log 139); an
infinity of the tree sets INF_SEEN whatever the destination makes of it (R62). -/
def drainNum (n : Nat) (c : Column) : Num × BitVec 16 × Bool :=
  if isSplit n then
    if c.segs = 0 then (c.num n, 0, c.resBad)
    else
      let e : Stepped := if c.inseg = 0 then { col := c } else closeSegment n c
      let (v, g) := foldTree e.col.stack
      (f32 v, e.flags ||| g ||| nf nfSplit ||| nfIf (v.toNat % 2 ^ 31 == 0x7F800000) nfInfSeen, e.bad)
  else if isFpPath n then (f32 (BitVec.ofNat 32 c.reg.toNat), 0, false)
  else if isPick n then
    (if c.nan || c.pinf || c.ninf then c.num n
      else if c.has then pickNum n c else .inf (fOp n != 0xA0), 0, false)
  else (c.num n, 0, c.resBad)

/-- Drain a column to the instruction's destination. -/
def drainColumn (n : Nat) (c : Column) : Drained :=
  let (x, f, bad) := drainNum n c
  let (v, g) :=
    if fOp n = 0xA4 then (c.val.toNat % 2 ^ 32, 0) else drainTo (fFmtDst n) (fSatA n) (fDshift n) x
  { value := v, index := argIndex c, flags := f ||| g ||| nfIf bad nfResErr, bad := bad,
    stain := c.stain || c.satd || c.bad || bad, dep := c.stain }

/-! ### Park records (Table 3.5) -/

/-- Value of level `l` of the stack, if pending. -/
def stackAt (c : Column) (l : Nat) : Option Word := (c.stack.find? fun e => e.1 == l).map (·.2)

/-- The record of a column. -/
def parkRecord (n : Nat) (c : Column) : Nat :=
  let pick := isPick n
  let reg := if pick && !c.has then 0 else c.reg.toNat
  let res := if isFpPath n || pick then 0 else c.res.toNat
  let tags := b2n c.nan + 2 * b2n c.pinf + 4 * b2n c.ninf
  let head := reg + 2 ^ 80 * res + 2 ^ 83 * tags + 2 ^ 124 * kindOf n
  if isSplit n then
    head + 2 ^ 86 * (c.segs % 2 ^ 13) + 2 ^ 99 * (c.inseg % 2 ^ 13)
      + (List.range 12).foldl (fun a l =>
          match stackAt c l with
          | some v => a + 2 ^ (112 + l) + 2 ^ (128 + 32 * l) * v.toNat
          | none => a) 0
  else
    head + 2 ^ 86 * (c.inseg % 2 ^ 26) + 2 ^ 112 * b2n c.satd + 2 ^ 113 * b2n (pick && c.has)
      + (if fOp n = 0xA5 then 2 ^ 128 * argIndex c else 0)

/-- The conditions of R100 on a record. -/
def recordOk (n r : Nat) : Bool :=
  let split := isSplit n
  let pick := isPick n
  let fp := isFpPath n || isFpTally n
  let seg' := seg r 98 86
  let ins := seg r 111 99
  let count := seg r 111 86
  decide (seg r 127 124 = kindOf n)
    && (!fp || seg r 79 32 == 0)
    && (!(isFpPath n || pick) || seg r 82 80 == 0)
    && (!(pick && !bitAt r 113) || seg r 79 0 == 0)
    && (if split then
          decide (seg' ≤ 4095) && decide (ins ≤ 4096) && (!isMxOp n || ins == 0)
            && (List.range 12).all fun l => bitAt r (112 + l) || seg r (128 + 32 * l + 31) (128 + 32 * l) == 0
        else
          decide (count ≤ 2 ^ 24) && (isNoSplit n || !bitAt r 112) && (pick || !bitAt r 113)
            && seg r 123 114 == 0 && (if fOp n = 0xA5 then seg r 511 152 == 0 else seg r 511 128 == 0))

/-- The column that a record loads. -/
def loadRecord (n r : Nat) (st : Bool) : Column :=
  let nan := bitAt r 83
  let pinf := bitAt r 84
  let split := isSplit n
  let idx : BitVec 24 := BitVec.ofNat 24 (seg r 151 128)
  let count := seg r 111 86
  let arg := fOp n == 0xA5
  { reg := BitVec.ofNat 80 (seg r 79 0), res := BitVec.ofNat 3 (seg r 82 80)
    nan := nan, pinf := pinf, ninf := bitAt r 85
    segs := if split then seg r 98 86 else 0
    inseg := if split then seg r 111 99 else count
    stack := if split then
        ((List.range 12).filter fun l => bitAt r (112 + l)).map fun l =>
          (l, BitVec.ofNat 32 (seg r (128 + 32 * l + 31) (128 + 32 * l)))
      else []
    satd := !split && bitAt r 112, has := !split && bitAt r 113
    idx := if arg then idx else 0, idx2 := if arg then idx else 0, idxSet := arg && decide (0 < count)
    nanIdx := if arg && nan then some idx else none
    pinfIdx := if arg && pinf && !nan then some idx else none
    stain := st }

end Sys2Proof.Machine
end

