-- ==== Sys2Proof/Machine/Issue.lean ====
section
/-!
DEFINITION. Issue of the array, tally, vector and stream instructions into the engine queues of all 32 cores
(R113, R119, R121–R123).
-/
namespace Sys2Proof.Machine
open Sys2Proof

/-- Number of a queue in `SEQ_STATUS.STALL_Q` (Table 4.7). -/
def queueNum : Engine → Nat
  | .aq => 0
  | .vq => 1
  | .iq => 2
  | .oq => 3

/-- The lowest core whose queue is full (R123). -/
def fullCore (k : Cluster) (e : Engine) : Option Nat :=
  (List.range 32).find? fun c => decide (16 ≤ ((k.coreAt c).queue e).length)

/-- The stored form of a word: masks, descriptors, scalar and mask operands and stain as read at issue (R113). -/
def einstOf (k : Cluster) (n : Nat) : EInst :=
  let op := fOp n
  let vec := decide (0xC0 ≤ op) && decide (op < 0xE0)
  let used := slotsUsed n
  let d := fun i => if used.contains i then BitVec.ofNat 512 (lReg k (fSlot n i)) else 0
  let rm := maskOf k (seg n 21 8)
  let wm := maskOf k (seg n 35 22)
  { id := k.nextId, word := BitVec.ofNat 128 n, loc := BitVec.ofNat 64 (wordLoc k)
    rmask := BitVec.ofNat 64 rm, wmask := BitVec.ofNat 64 wm
    stain := vec && ((fBsrc n == 1 && sStain k (fSreg n)) || (fMuse n && k.mstain.getLsbD (fMreg n)))
    d0 := d 0, d1 := d 1, d2 := d 2, d3 := d 3
    sreg := if vec then BitVec.ofNat 32 (sReg k (fSreg n)) else 0
    mreg := if vec && fMuse n then BitVec.ofNat 16 (mReg k (fMreg n)) else 0xFFFF
    readsOut := rm == 0, writesOut := wm == 0, fence := k.fence }

/-- Put an instruction at the end of a queue of every core. -/
def pushAll (k : Cluster) (e : Engine) (i : EInst) : Cluster :=
  { k.updCores (fun _ c => c.setQueue e (c.queue e ++ [i])) with nextId := k.nextId + 1 }

/-- Issue an engine instruction, or stall on a full queue (R123). -/
def issueTo (e : Engine) (q n : Nat) (s : State) : Did :=
  let k := s.clu q
  match fullCore k e with
  | some c =>
    .stall (s.updClu q fun k =>
      { k with stallQ := BitVec.ofNat 2 (queueNum e), stallCore := BitVec.ofNat 5 c }) 2
  | none => .go (s.updClu q fun k => pushAll k e (einstOf k n))

/-- Issue a weight load: the bank of every array will hold the tile's format (R130, R157). -/
def issueWeight (q n : Nat) (s : State) : Did :=
  match issueTo .iq q n s with
  | .go s => .go (s.updClu q fun k =>
      { k with bankFmt := Tbl.set 0 k.bankFmt (b2n (fBankS n)) (BitVec.ofNat 5 (fFmtT n + 1)) })
  | d => d

/-- `MMA`. -/
def execMma (q : Cl) (w : BitVec 120) (s : State) : Ans := seqOp 0x80 q w (issueTo .aq) s
/-- `MINPLUS`. -/
def execMinplus (q : Cl) (w : BitVec 120) (s : State) : Ans := seqOp 0xA0 q w (issueTo .aq) s
/-- `MAXPLUS`. -/
def execMaxplus (q : Cl) (w : BitVec 120) (s : State) : Ans := seqOp 0xA1 q w (issueTo .aq) s
/-- `ABSDIFF`. -/
def execAbsdiff (q : Cl) (w : BitVec 120) (s : State) : Ans := seqOp 0xA2 q w (issueTo .aq) s
/-- `SQDIFF`. -/
def execSqdiff (q : Cl) (w : BitVec 120) (s : State) : Ans := seqOp 0xA3 q w (issueTo .aq) s
/-- `CMPCNT`. -/
def execCmpcnt (q : Cl) (w : BitVec 120) (s : State) : Ans := seqOp 0xA4 q w (issueTo .aq) s
/-- `ARGMAX`. -/
def execArgmax (q : Cl) (w : BitVec 120) (s : State) : Ans := seqOp 0xA5 q w (issueTo .aq) s
/-- `VADD`. -/
def execVadd (q : Cl) (w : BitVec 120) (s : State) : Ans := seqOp 0xC0 q w (issueTo .vq) s
/-- `VSUB`. -/
def execVsub (q : Cl) (w : BitVec 120) (s : State) : Ans := seqOp 0xC1 q w (issueTo .vq) s
/-- `VMUL`. -/
def execVmul (q : Cl) (w : BitVec 120) (s : State) : Ans := seqOp 0xC2 q w (issueTo .vq) s
/-- `VFMA`. -/
def execVfma (q : Cl) (w : BitVec 120) (s : State) : Ans := seqOp 0xC3 q w (issueTo .vq) s
/-- `VMAX`. -/
def execVmax (q : Cl) (w : BitVec 120) (s : State) : Ans := seqOp 0xC4 q w (issueTo .vq) s
/-- `VMIN`. -/
def execVmin (q : Cl) (w : BitVec 120) (s : State) : Ans := seqOp 0xC5 q w (issueTo .vq) s
/-- `VABS`. -/
def execVabs (q : Cl) (w : BitVec 120) (s : State) : Ans := seqOp 0xC6 q w (issueTo .vq) s
/-- `VNEG`. -/
def execVneg (q : Cl) (w : BitVec 120) (s : State) : Ans := seqOp 0xC7 q w (issueTo .vq) s
/-- `VEXP2`. -/
def execVexp2 (q : Cl) (w : BitVec 120) (s : State) : Ans := seqOp 0xC8 q w (issueTo .vq) s
/-- `VLOG2`. -/
def execVlog2 (q : Cl) (w : BitVec 120) (s : State) : Ans := seqOp 0xC9 q w (issueTo .vq) s
/-- `VRCP`. -/
def execVrcp (q : Cl) (w : BitVec 120) (s : State) : Ans := seqOp 0xCA q w (issueTo .vq) s
/-- `VRSQRT`. -/
def execVrsqrt (q : Cl) (w : BitVec 120) (s : State) : Ans := seqOp 0xCB q w (issueTo .vq) s
/-- `VCVT`. -/
def execVcvt (q : Cl) (w : BitVec 120) (s : State) : Ans := seqOp 0xCC q w (issueTo .vq) s
/-- `VCMP`. -/
def execVcmp (q : Cl) (w : BitVec 120) (s : State) : Ans := seqOp 0xCD q w (issueTo .vq) s
/-- `VREDMAX`. -/
def execVredmax (q : Cl) (w : BitVec 120) (s : State) : Ans := seqOp 0xCE q w (issueTo .vq) s
/-- `VREDSUM`. -/
def execVredsum (q : Cl) (w : BitVec 120) (s : State) : Ans := seqOp 0xCF q w (issueTo .vq) s
/-- `VMXQ`. -/
def execVmxq (q : Cl) (w : BitVec 120) (s : State) : Ans := seqOp 0xD0 q w (issueTo .vq) s
/-- `VSMERGE`. -/
def execVsmerge (q : Cl) (w : BitVec 120) (s : State) : Ans := seqOp 0xD1 q w (issueTo .vq) s
/-- `VRAND`. -/
def execVrand (q : Cl) (w : BitVec 120) (s : State) : Ans := seqOp 0xD2 q w (issueTo .vq) s
/-- `VCOPY`. -/
def execVcopy (q : Cl) (w : BitVec 120) (s : State) : Ans := seqOp 0xD3 q w (issueTo .vq) s
/-- `SI.LD`. -/
def execSiLd (q : Cl) (w : BitVec 120) (s : State) : Ans := seqOp 0xE0 q w (issueTo .iq) s
/-- `SI.GATH`. -/
def execSiGath (q : Cl) (w : BitVec 120) (s : State) : Ans := seqOp 0xE1 q w (issueTo .iq) s
/-- `SI.WLD`. -/
def execSiWld (q : Cl) (w : BitVec 120) (s : State) : Ans := seqOp 0xE2 q w issueWeight s
/-- `SO.ST`. -/
def execSoSt (q : Cl) (w : BitVec 120) (s : State) : Ans := seqOp 0xF0 q w (issueTo .oq) s
/-- `SO.SCAT`. -/
def execSoScat (q : Cl) (w : BitVec 120) (s : State) : Ans := seqOp 0xF1 q w (issueTo .oq) s

end Sys2Proof.Machine
end

