-- ==== Sys2Proof/Machine/Array.lean ====
section
/-!
DEFINITION. The matrix arrays at work (R80–R100, R154–R157, R166): starting an instruction, feeding steps, products
entering the columns, drains, parks and resumes, and weight loads.
-/
namespace Sys2Proof.Machine
open Sys2Proof

/-! ### Bits of an array's state -/

/-- Array `a` of a core of the state. -/
def State.arrOf (s : State) (q c a : Nat) : Arr := (s.coreOf q c).arr a
/-- Change it. -/
def State.updArr (s : State) (q c a : Nat) (f : Arr → Arr) : State :=
  s.updCoreOf q c fun k => k.setArr a (f (k.arr a))
/-- Change every array of a core. -/
def CoreSt.updArrs (k : CoreSt) (f : Arr → Arr) : CoreSt :=
  { k with arr0 := f k.arr0, arr1 := f k.arr1, arr2 := f k.arr2, arr3 := f k.arr3 }
/-- Every array of a core meets a test. -/
def CoreSt.allArrs (k : CoreSt) (p : Arr → Bool) : Bool := p k.arr0 && p k.arr1 && p k.arr2 && p k.arr3
/-- Change every column of an array. -/
def Arr.updCols (r : Arr) (f : Nat → Column → Column) : Arr :=
  { r with col0 := f 0 r.col0, col1 := f 1 r.col1, col2 := f 2 r.col2, col3 := f 3 r.col3 }
/-- Set flags of `CORE_NUMF`. -/
def State.setNumf (s : State) (q c : Nat) (f : BitVec 16) : State :=
  s.updCoreOf q c fun k => { k with numf := k.numf ||| f }
/-- The array instruction of a core with a number. -/
def arrInst (k : CoreSt) (id : Nat) : Option EInst := k.aq.find? fun i => i.id == id

/-- Activation rows that an instruction carries out: those before the row at which a check failed (R166). -/
def rowsOf (i : EInst) : Nat := min (fM i.word.toNat) (i.failRow.getD (fM i.word.toNat))
/-- Steps that each row takes in each activation row of an instruction that starts at position `p`. -/
def rowSteps (n p : Nat) : Nat :=
  let w := perStep (fFmtW n)
  (p + fK n - 1) / w - p / w + 1
/-- Positions within the activation row that array row `row` takes at its step `j`. The steps of an instruction that
starts within a step of the tile stay those of the tile, so that its first and its last may be partial (DESIGN CHOICE,
log 141). -/
def stepPositions (n p row j : Nat) : List Nat :=
  let g := perCell (fFmtW n)
  let b := (p / perStep (fFmtW n) + j) * perStep (fFmtW n) + row * g
  ((List.range g).map (b + ·)).filterMap fun k => if p ≤ k ∧ k < p + fK n then some (k - p) else none

/-- What a reduction left in hold must match (R157). -/
def holdKey (n : Nat) : BitVec 8 × BitVec 4 × BitVec 4 × BitVec 3 × Bool :=
  (BitVec.ofNat 8 (fOp n), BitVec.ofNat 4 (fFmtA n), BitVec.ofNat 4 (fFmtW n), BitVec.ofNat 3 (fPred n), fNoSplit n)

/-! ### Progress of an instruction on an array -/

/-- Steps that a row has fed of a job, and that a job's row has had delivered. -/
def AJob.fedBy (j : AJob) (row : Nat) : Nat := j.fed.getD row 0
def AJob.fetchedBy (j : AJob) (row : Nat) : Nat := j.fetched.getD row 0
/-- Activation rows that a column has ended, positions of the next one that it has taken, and whether that one is open. -/
def AJob.doneBy (j : AJob) (col : Nat) : Nat := j.done.getD col 0
def AJob.enteredBy (j : AJob) (col : Nat) : Nat := j.entered.getD col 0
def AJob.begunBy (j : AJob) (col : Nat) : Bool := j.begun.getD col false

/-- A row has fed every step of a job. -/
def rowFed (i : EInst) (j : AJob) (row : Nat) : Bool :=
  decide (rowsOf i * rowSteps i.word.toNat j.start ≤ j.fedBy row)
/-- Every row of the array has passed its last position of a job. -/
def jobFed (i : EInst) (j : AJob) : Bool := (List.range 8).all (rowFed i j)
/-- A column has ended every activation row of a job. -/
def colOver (i : EInst) (j : AJob) (col : Nat) : Bool := decide (rowsOf i ≤ j.doneBy col)
/-- The array has finished a job. -/
def jobOver (i : EInst) (j : AJob) : Bool := jobFed i j && (List.range 4).all (colOver i j)

/-- The first job of the array for which a test holds, with its instruction. -/
def findJob (k : CoreSt) (r : Arr) (p : EInst → AJob → Bool) : Option (EInst × AJob) :=
  r.jobs.findSome? fun j => (arrInst k j.id).bind fun i => if p i j then some (i, j) else none
/-- The job whose step row `row` feeds next: each row goes on to the next bank by itself (R88). -/
def feedJob (k : CoreSt) (r : Arr) (row : Nat) : Option (EInst × AJob) := findJob k r fun i j => !rowFed i j row
/-- The job whose products column `col` takes next. -/
def colJob (k : CoreSt) (r : Arr) (col : Nat) : Option (EInst × AJob) := findJob k r fun i j => !colOver i j col

/-- Change the job of an instruction on an array. -/
def Arr.updJob (r : Arr) (id : Nat) (f : AJob → AJob) : Arr :=
  { r with jobs := r.jobs.map fun j => if j.id = id then f j else j }
/-- Drop the jobs that the array has finished. -/
def pruneJobs (k : CoreSt) (r : Arr) : Arr :=
  { r with jobs := r.jobs.filter fun j => match arrInst k j.id with | some i => !jobOver i j | none => false }
/-- Drop them from array `a`. -/
def pruneArr (s : State) (q c a : Nat) : State := s.updArr q c a (pruneJobs (s.coreOf q c))

/-- The array is at work on an instruction, or holds a value of it in a latch. -/
def arrBusy (r : Arr) (id : Nat) : Bool :=
  r.jobs.any (fun j => j.id == id) || (List.range 4).any fun c => (r.lat c).full && (r.lat c).id == id

/-- A check of R166 fails in activation row `m`: that row writes nothing, no later row begins, the rows before it
complete, and the job stops. -/
def arrayIllegal (s : State) (q c : Nat) (i : EInst) (m reason : Nat) : State :=
  let s := s.putInst q c .aq { i with failRow := some (min m (i.failRow.getD m)) }
  let s := s.updCoreOf q c (·.updArrs fun r =>
    { r with pipe := r.pipe.filter fun f => f.id != i.id || decide (f.actRow < m)
             feeder := r.feeder.filter fun x => x.id != i.id || decide (x.elem < m * fK i.word.toNat) })
  illegal ((List.range 4).foldl (fun s a => pruneArr s q c a) s) q i.loc.toNat reason

/-! ### Start (R92, R124, R127, R166) -/

/-- The instruction reads the bank while a load issued before it is unfinished (R88, R130). -/
def loadPending (k : CoreSt) (i : EInst) : Bool :=
  k.iq.any fun l => decide (l.id < i.id) && eOp l == 0xE2 && fBankS l.word.toNat == fBank i.word.toNat

/-- The configurations of R92 are the same: operation, operand formats and accumulation path, and sharing mode. -/
def likeInst (n m : Nat) : Bool :=
  fOp n == fOp m && fPred n == fPred m && fFmtA n == fFmtA m && fFmtW n == fFmtW m && fShared n == fShared m
/-- Every product fed in the core's arrays has entered its columns, and no row has a step to feed. -/
def pipesEmpty (k : CoreSt) : Bool :=
  k.allArrs fun r => r.pipe.isEmpty && r.jobs.all fun j => match arrInst k j.id with | some i => jobFed i j | none => true
/-- The next array instruction may start beside those in progress: like instructions overlap (R92), and an unlike one waits
until the pipelines have emptied (R98; log 97). -/
def mayOverlap (k : CoreSt) (i : EInst) : Bool :=
  match (k.aq.filter (·.started)).getLast? with
  | none => true
  | some p => likeInst p.word.toNat i.word.toNat || pipesEmpty k

/-- The reason for which an array instruction may not start on an array (R81, R157). -/
def startReason (n : Nat) (r : Arr) : Option Nat :=
  if fOpen n = 1 then
    if r.hold = some (holdKey n) then
      if r.heldBank = fBank n ∧ 8 * tileDepth (fFmtW n) < r.heldPos + fK n then some 0x0C else none
    else some 0x0D
  else none

/-- Where the rows of an instruction start in the tile (R81). -/
def rowStart (n : Nat) (r : Arr) : Nat := if fOpen n = 1 ∧ r.heldBank = fBank n then r.heldPos else 0
/-- The instruction joins an array's jobs; what it will leave in hold is fixed by its place in program order. -/
def beginJob (i : EInst) (r : Arr) : Arr :=
  let n := i.word.toNat
  let p := rowStart n r
  { r with jobs := r.jobs ++ [{ id := i.id, start := p }], hold := if fEnd n = 0 then some (holdKey n) else none
           heldPos := p + fK n, heldBank := fBank n }

/-- Start the first unstarted instruction of AQ. -/
def arrayStart (s : State) (q c : Nat) : State :=
  let k := s.coreOf q c
  match k.aq.find? fun i => !i.started with
  | none => s
  | some i =>
    if !mayOverlap k i || !scoreOk k i || loadPending k i then s
    else
      let n := i.word.toNat
      match lowest ((List.range 4).filterMap fun a => startReason n (k.arr a)) with
      | some y =>
        illegal ((s.putInst q c .aq { i with started := true, failRow := some 0 }).updCoreOf q c
          (·.updArrs fun r => { r with hold := none })) q i.loc.toNat y
      | none => (s.putInst q c .aq { i with started := true }).updCoreOf q c (·.updArrs (beginJob i))

/-- ARRAY_INSTR_START. -/
def execArrayInstrStart (q : Cl) (c : Core) (s : State) : Ans := onClock q s (arrayStart s q.val c.val)

/-! ### Feeder queues (R59, R93, R96, R155) -/

/-- Address of element `e` of slot `slot`, offset for stream `a` in W-shared mode (R155). -/
def streamAddr (i : EInst) (slot c a e : Nat) : Int :=
  let n := i.word.toNat
  eAddr i slot c e + (if fShared n then a * 16 * fSstride n else 0)

/-- The activation element `e` of array `a`: its pattern and stain. -/
def activation (s : State) (q c a : Nat) (i : EInst) (e : Nat) : State × Nat × Bool :=
  let f := fFmtA i.word.toNat
  let ad := streamAddr i 0 c a (if f = 4 then e / 2 else e)
  let (s, b, st) := readElem s q c i ad (elemBytes f)
  let v := leNat b
  (s, if f = 4 then (if e % 2 = 0 then v % 16 else v / 16) else v, st)

/-- Arrays that a delivery for array `a` reaches: itself in W-shared mode, and every array that has not yet had it in
A-shared mode, where each stream element is read once. -/
def fedArrays (k : CoreSt) (i : EInst) (a : Nat) (lacks : AJob → Bool) : List Nat :=
  if fShared i.word.toNat then [a]
  else (List.range 4).filter fun x => (k.arr x).jobs.any fun j => j.id == i.id && lacks j

/-- Positions of a row in a feeder queue. -/
def queuedOf (r : Arr) (row : Nat) : Nat := (r.feeder.filter (·.row == row)).length
/-- Elements of the instruction's activation stream that row `row` takes at its step `f`, counted over the activation
rows. -/
def stepElems (n p row f : Nat) : List Nat :=
  let st := rowSteps n p
  (stepPositions n p row (f % st)).map (f / st * fK n + ·)

/-- The next step's positions of a row enter the feeder queues; one that is full holds the delivery back (R93, R96). -/
def fetchStep (s : State) (q c a : Nat) (i : EInst) (j : AJob) (row : Nat) : Option State :=
  let k := s.coreOf q c
  let f := j.fetchedBy row
  let es := stepElems i.word.toNat j.start row f
  let dest := fedArrays k i a fun x => x.fetchedBy row == f
  if dest.all fun x => decide (queuedOf (k.arr x) row + es.length ≤ 16) then
    let (s, vs) := es.foldl (fun (s, l) e =>
      let (s, v, st) := activation s q c a i e
      (s, l ++ [({ id := i.id, row := row, elem := e, val := v, stain := st } : Queued)])) (s, [])
    some (dest.foldl (fun s x => s.updArr q c x fun r =>
      { r.updJob i.id fun j => { j with fetched := alter j.fetched row (· + 1) } with feeder := r.feeder ++ vs }) s)
  else none

/-- Activation scales of activation row `m`, with their stains. -/
def readScales (s : State) (q c a : Nat) (i : EInst) (m : Nat) : State × List (Nat × Bool) :=
  let nb := fK i.word.toNat / 32
  (List.range nb).foldl (fun (s, l) b =>
    let (s, v, st) := readElem s q c i (streamAddr i 2 c a (m * nb + b)) 1
    (s, l ++ [(leNat v, st)])) (s, [])
/-- The scales of an activation row are delivered before its elements (R59). -/
def fetchScales (s : State) (q c a : Nat) (i : EInst) (j : AJob) (m : Nat) : State :=
  if isMxOp i.word.toNat && Tbl.get [] j.scales m == [] then
    let dest := fedArrays (s.coreOf q c) i a fun x => Tbl.get [] x.scales m == []
    let (s, l) := readScales s q c a i m
    dest.foldl (fun s x => s.updArr q c x (·.updJob i.id fun j => { j with scales := Tbl.set [] j.scales m l })) s
  else s

/-! ### Feeding (R81, R83, R89, R90, R93–R95, R190) -/

/-- Entry of a cell's weight file for tile position `k` (R81). -/
def weightEntry (fmt k : Nat) : Nat := k / perStep fmt * perCell fmt + k % perCell fmt
/-- Byte of a cell's file that holds an entry. -/
def entryByte (fmt e : Nat) : Nat := if fmt = 4 then e / 2 else e * elemBytes fmt
/-- Weight pattern of a cell. -/
def weightAt (b : Bank) (fmt row col e : Nat) : Nat :=
  let base := (4 * row + col) * 64 + entryByte fmt e
  let v := leNat ((List.range (elemBytes fmt)).map fun j => Tbl.get 0 b.tile (base + j))
  if fmt = 4 then (if e % 2 = 0 then v % 16 else v / 16) else v
/-- Weight scale of block `blk` of column `col`. -/
def weightScale (b : Bank) (col blk : Nat) : Nat := (Tbl.get 0 b.scale (32 * col + blk)).toNat

/-- An upset of a weight word: corrected, or the word as read with the column's stain set (R89). An injection flips 1
or 2 bits of the word as it is read (R404). -/
def weightUpset (s : State) (q c a : Nat) (bank : Bool) (base col : Nat) (bits : List Nat) : State :=
  let report := fun (bits : List Nat) (s : State) =>
  match bits with
  | [] => s
  | [_] => corrected s (srcCore s q c) (0x1000 + 4 * a + col)
  | _ =>
    let s := s.updArr q c a fun r =>
      let b := r.bank bank
      let tile := bits.foldl (fun t i =>
        if i < 64 then upd 0 t (base + i / 8) (· ^^^ BitVec.ofNat 8 (2 ^ (i % 8))) else t) b.tile
      r.setBank bank { b with tile := tile, stain := BitVec.ofNat 4 (setSeg b.stain.toNat col col 1) }
    raiseCore s q c evArrayWecc true 1 (base + 2 ^ 16 * a)
  match takeInject s evArrayWecc (srcCore s q c) (cluWinByte s q) with
  | some (w, s) => underInject (report (freePlaces s w 72)) { s with free := s.free + 2 }
  | none => report bits s

/-- Anchor U of a column for a row's blocks (R58); 0 where no block of the segment has an exponent. -/
def anchorOf (p : Nat) (bank : Bank) (sc : List (Nat × Bool)) (col : Nat) : Int :=
  let ok := sc.zipIdx.filterMap fun ((x, _), b) =>
    let y := weightScale bank col (p / 32 + b)
    if x = 255 ∨ y = 255 then none else some ((x : Int) - 127, (y : Int) - 127)
  match ok with
  | [] => 0
  | (x, y) :: t => (t.map (·.1)).foldl max x + (t.map (·.2)).foldl max y

/-- The fed step that a row's queued positions make, with the operands of each column. -/
def fedStep (r : Arr) (i : EInst) (j : AJob) (m row : Nat) (xs : List Queued) : Fed :=
  let n := i.word.toNat
  let fw := fFmtW n
  let bank := r.bank (fBank n)
  let base := m * fK n
  let pos := (xs.map fun x => x.elem - base).headD 0
  let sc := Tbl.get [] j.scales m
  let blk := sc.getD (pos / 32) (0, false)
  let ops := (List.finRange 4).map fun col =>
    let pairs := xs.map fun x =>
      (if isFpPath n then x.val + 2 ^ 32 * x.row else x.val,
        weightAt bank fw x.row col.val (weightEntry fw (j.start + (x.elem - base))))
    (col, if isMxOp n then (blk.1, weightScale bank col.val ((j.start + pos) / 32)) :: pairs else pairs)
  let st := xs.any (·.stain) || (isMxOp n && blk.2)
  let stains := (List.range 4).foldl (fun b col => if st || bank.stain.getLsbD col then b + 2 ^ col else b) 0
  { id := i.id, actRow := m, row := row, pos := pos, ops := ops, stains := BitVec.ofNat 4 stains
    anchors := if isMxOp n then (List.range 4).map (anchorOf j.start bank sc) else [] }

/-- Rows that feed together: the eight of the FP32 path (R94), else one. -/
def rowGroup (n row : Nat) : List Nat := if isFpPath n then List.range 8 else [row]

/-- Number of positions of a fed step. -/
def Fed.count (f : Fed) : Nat :=
  match f.ops with
  | (_, l) :: _ => if f.anchors = [] then l.length else l.length - 1
  | [] => 0
/-- Positions of a row that wait for a column: in the pipeline, or in its skid. -/
def waitingFor (r : Arr) (row col : Nat) : Nat :=
  (r.pipe.filter fun f => !f.taken.getLsbD col && f.row == row).foldl (fun n f => n + f.count) 0
/-- Every column's skid of the row has room for a step (R93, R95). In the FP32 path a step leaves one position in the
skid of each row. -/
def skidRoom (n : Nat) (r : Arr) (row : Nat) : Bool :=
  (List.range 4).all fun col =>
    if isFpPath n then decide ((r.pipe.filter fun f => !f.taken.getLsbD col).length < 16)
    else decide (waitingFor r row col + perCell (fFmtW n) ≤ 16)

/-- Positions that a row has fed, over the jobs in progress. -/
def fedPositions (k : CoreSt) (r : Arr) (row : Nat) : Nat :=
  r.jobs.foldl (fun n j => n + j.fedBy row * (match arrInst k j.id with | some i => perCell (fFmtW i.word.toNat) | none => 0)) 0
/-- A row is less than 16 positions of its own ahead of every other (R93). -/
def skewOk (k : CoreSt) (r : Arr) (row : Nat) : Bool :=
  (List.range 8).all fun o => decide (fedPositions k r row < fedPositions k r o + 16)

/-- Number in its reduction of the first position of each job from a column's own on, in the column's count (R61). -/
def numbersFrom (k : CoreSt) (c : Column) (col : Nat) : List AJob → Option Nat → List (Nat × Nat)
  | [], _ => []
  | j :: t, before =>
    match arrInst k j.id with
    | none => numbersFrom k c col t before
    | some i =>
      if colOver i j col then numbersFrom k c col t none
      else
        let n := i.word.toNat
        let taken := 4096 * c.segs + c.inseg
        let first := match before with
          | some b => if fOpen n = 1 then b else 0
          | none => if j.begunBy col then taken - j.enteredBy col else if fOpen n = 1 then taken else 0
        (j.id, first) :: numbersFrom k c col t (some (first + fK n))

/-- Each job after the first up to a number continues the reduction before it. -/
def chained (k : CoreSt) (r : Arr) (lo hi : Nat) : Bool :=
  r.jobs.all fun j => !(decide (lo < j.id) && decide (j.id ≤ hi))
    || (match arrInst k j.id with | some i => fOpen i.word.toNat == 1 | none => true)

/-- The next position of a row: its job's number, the activation row and the position within it. -/
def nextPos (k : CoreSt) (r : Arr) (row : Nat) : Option (EInst × AJob × Nat × Nat) :=
  (feedJob k r row).bind fun (i, j) =>
    let st := rowSteps i.word.toNat j.start
    let f := j.fedBy row
    match stepPositions i.word.toNat j.start row (f % st) with
    | p :: _ => some (i, j, f / st, p)
    | [] => none

/-- No row has still to take a position of an earlier segment of the same reduction, in any column (R93). -/
def segmentOk (k : CoreSt) (r : Arr) (row : Nat) : Bool :=
  match nextPos k r row with
  | none => true
  | some (i, j, m, p) =>
    if !isSplit i.word.toNat || isMxOp i.word.toNat then true
    else
      (List.range 4).all fun col =>
        let num := numbersFrom k (r.col col) col r.jobs none
        let seg_ := fun (id p : Nat) => (((num.find? (·.1 == id)).map (·.2)).getD 0 + p) / 4096
        (List.range 8).all fun o =>
          match nextPos k r o with
          | none => true
          | some (_, j', m', p') =>
            !(m' == m || j'.id != j.id) || !chained k r j'.id j.id || decide (seg_ j.id p ≤ seg_ j'.id p')

/-- Every row has fed all of an activation row, counted from a job's start. -/
def fedThrough (i : EInst) (j : AJob) (m : Nat) : Bool :=
  (List.range 8).all fun o => decide (m * rowSteps i.word.toNat j.start ≤ j.fedBy o)
/-- The reduction before activation row `m` of a job does not hold its first step back: one that drains or parks has had
its last step fed by every row (R92), and a resumed row has been loaded (R99). -/
def rowMayBegin (k : CoreSt) (r : Arr) (i : EInst) (j : AJob) (m : Nat) : Bool :=
  (if m = 0 then
      match (r.jobs.takeWhile (·.id != j.id)).getLast? with
      | none => true
      | some p => match arrInst k p.id with
        | some pi => fEnd pi.word.toNat == 0 || jobFed pi p
        | none => true
    else fedThrough i j m)
    && (fOpen i.word.toNat != 2 || (List.range 4).all fun col => j.doneBy col == m && j.begunBy col)

/-- What lets array rows feed their next step of a job, but for their feeder queues (R88, R92–R95). -/
def mayFeed (k : CoreSt) (r : Arr) (i : EInst) (j : AJob) (row : Nat) : Bool :=
  let n := i.word.toNat
  let st := rowSteps n j.start
  !(r.bank (fBank n)).loading
    && (j.fedBy row % st != 0 || rowMayBegin k r i j (j.fedBy row / st))
    && (isFpPath n || (skewOk k r row && segmentOk k r row)) && skidRoom n r row

/-- The last activation position of the instruction has been fed in every array (Table 4.3). -/
def readsFinished (k : CoreSt) (i : EInst) : Bool :=
  i.started && k.allArrs fun r => r.jobs.all fun j => j.id != i.id || jobFed i j

/-- Change the array instructions of a core. -/
def State.mapAq (s : State) (q c : Nat) (f : CoreSt → EInst → EInst) : State :=
  s.updCoreOf q c fun k => { k with aq := k.aq.map (f k) }
/-- Release the reads of each instruction whose last read is made. -/
def releaseArrayReads (s : State) (q c : Nat) : State :=
  s.mapAq q c fun k i => if readsFinished k i then { i with readsOut := true } else i

/-- Under STN halt the instruction remembers that stained data was read (R164). -/
def noteHalt (s : State) (q c : Nat) (i : EInst) (stained : Bool) : State :=
  if fHalt i.word.toNat && stained then
    s.mapAq q c fun _ x => if x.id = i.id then { x with halted := true } else x
  else s

/-- The feeder queues hold the next step of each row of the group, delivered now where they do not. -/
def fillQueues (s : State) (q c a : Nat) (i : EInst) (id : Nat) (rows : List Nat) : Option State :=
  rows.foldl (fun o row => o.bind fun s =>
    match (s.arrOf q c a).jobs.find? (·.id == id) with
    | some j => if j.fedBy row < j.fetchedBy row then some s else fetchStep s q c a i j row
    | none => none) (some s)

/-- One step of a row, or of the eight rows of the FP32 path (R93, R94). -/
def feedStep (s : State) (q c a row : Nat) (flips : List (Nat × Nat)) : State :=
  let k := s.coreOf q c
  let r := s.arrOf q c a
  match feedJob k r row with
  | none => s
  | some (i, j) =>
    let n := i.word.toNat
    let st := rowSteps n j.start
    let f := j.fedBy row
    let rows := rowGroup n row
    if !mayFeed k r i j row then s
    else
      match fillQueues (fetchScales s q c a i j (f / st)) q c a i i.id rows with
      | none => s
      | some s =>
        let e := weightEntry (fFmtW n) ((j.start / perStep (fFmtW n) + f % st) * perStep (fFmtW n))
        let s := (List.range 4).foldl (fun s col =>
          let base := (4 * row + col) * 64 + entryByte (fFmtW n) e / 8 * 8
          weightUpset s q c a (fBank n) base col ((flips.filter (·.1 == col)).map (·.2))) s
        let r := s.arrOf q c a
        let es := rows.flatMap fun o => stepElems n j.start o f
        let xs := es.filterMap fun e => r.feeder.find? fun x => x.id == i.id && x.elem == e
        let x := match r.jobs.find? (·.id == i.id) with
          | some j => fedStep r i j (f / st) row xs
          | none => {}
        let s := s.updArr q c a fun r =>
          { r.updJob i.id fun j => { j with fed := rows.foldl (fun l o => alter l o (· + 1)) j.fed } with
            feeder := r.feeder.filter fun x => !(x.id == i.id && es.contains x.elem)
            pipe := if xs = [] then r.pipe else r.pipe ++ [x] }
        pruneArr (releaseArrayReads (noteHalt s q c i (x.stains != 0)) q c) q c a

/-- ARRAY_FEED_STEP. -/
def execArrayFeedStep (q : Cl) (c : Core) (arr : Fin 4) (row : Fin 8) (flips : List (Nat × Nat)) (s : State) : Ans :=
  onClock q s (feedStep s q.val c.val arr.val row.val flips)

/-! ### Products (R61, R91) -/

/-- Enter the operands of one fed step in a column. -/
def enterColumn (n : Nat) (c : Column) (ops : List (Nat × Nat)) (blockEnd : Bool) (u : Option ColUpset) : Stepped :=
  let r : Stepped := { col := c }
  if isFpPath n then enterFp n r ops u
  else if !isMma n then ops.foldl (fun r o => enterTally n r o.1 o.2 u) r
  else if isMxOp n then
    match ops with
    | [] => r
    | (sa, sw) :: t =>
      let r := { r with col := t.foldl (fun c o => enterMx n c sa sw o.1 o.2) c }
      if blockEnd then closeBlock r sa sw u else r
  else ops.foldl (fun r o => enterPlain n r o.1 o.2) r

/-- Some product of the step would pass the limit of R63, R64 or R103. -/
def passesLimit (n : Nat) (c : Column) (count : Nat) : Bool :=
  if isSplit n then c.atLimit n else decide (2 ^ 24 < c.inseg + count)

/-- The column as its next product of the job finds it: a fresh reduction unless it continues or has resumed (R79). -/
def openColumn (n : Nat) (j : AJob) (col : Nat) (c : Column) : Column :=
  if !j.begunBy col && fOpen n == 0 then {} else c

/-- The last product of an activation row has entered a column: an MX segment ends unless it drains here (R61), and a
reduction left in hold has no more to do in this instruction (R157). -/
def rowEntered (n : Nat) (r : Stepped) : Stepped :=
  if isMxOp n && fEnd n != 1 then
    let e := closeSegment n r.col
    { e with flags := r.flags ||| e.flags, ovf := r.ovf, bad := r.bad || e.bad }
  else r

/-- What a column's step does beside its value: flags, and an event for its own saturation and for its own failed check
(R65, R75, R77). -/
def columnEvents (s : State) (q c a col : Nat) (r : Stepped) : State :=
  let s := s.setNumf q c r.flags
  let s := if r.ovf then raiseCore s q c evAccOvf true 1 (4 * a + col) else s
  if r.bad then raiseCore s q c evAccResidue true 1 (4 * a + col) else s

/-- The same of a column under `NOSPLIT`, whose guard an injection makes report: it saturates (R65, R404). -/
def columnSaturates (s : State) (q c a col : Nat) (r : Stepped) : State :=
  match takeInject s evAccOvf (srcCore s q c) (cluWinByte s q) with
  | some (_, s) =>
    let k := saturated r.col
    underInject (fun s => columnEvents s q c a col { r with col := k, ovf := true, flags := r.flags ||| nf nfAccOvf })
      (s.updArr q c a fun x => x.setCol col k)
  | none => columnEvents s q c a col r

/-- Column `col` has taken fed step `f`. -/
def markTaken (f : Fed) (col : Nat) (x : Fed) : Fed :=
  if x.id = f.id ∧ x.actRow = f.actRow ∧ x.pos = f.pos then
    { x with taken := BitVec.ofNat 4 (setSeg x.taken.toNat col col 1) } else x

/-- Column `col` takes its next fed step in R61 order, unless its reduction has ended and waits to be drained (R95). -/
def columnTake (s : State) (q c a : Nat) (upset : Option (Fin 4 × ColUpset)) (col : Nat) : State :=
  let k := s.coreOf q c
  let r := s.arrOf q c a
  match colJob k r col with
  | none => s
  | some (i, j) =>
    let n := i.word.toNat
    match r.pipe.find? fun f => f.id == i.id && f.actRow == j.doneBy col && f.pos == j.enteredBy col && !f.taken.getLsbD col with
    | none => s
    | some f =>
      let cnt := f.count
      let at_ := openColumn n j col (r.col col)
      if passesLimit n at_ cnt then arrayIllegal s q c i (j.doneBy col) 0x07
      else
        let u := upset.bind fun x => if x.1.val = col then some x.2 else none
        let done := j.enteredBy col + cnt
        let e := enterColumn n { at_ with anchor := f.anchors.getD col 0 } (((f.ops.find? (·.1.val == col)).map (·.2)).getD [])
          (done % 32 == 0) u
        let e := { e with col := { e.col with stain := e.col.stain || f.stains.getLsbD col } }
        let last := done == fK n
        let e := if last then rowEntered n e else e
        let closes := last && fEnd n == 0
        let s := s.updArr q c a fun r =>
          { (r.setCol col e.col).updJob i.id fun j =>
              { j with entered := alter j.entered col fun _ => if closes then 0 else done
                       done := if closes then alter j.done col (· + 1) else j.done
                       begun := alter j.begun col fun _ => !closes } with
            pipe := (r.pipe.map (markTaken f col)).filter (·.taken != 15) }
        if isNoSplit n then columnSaturates s q c a col e else columnEvents s q c a col e

/-- A flipped bit of a column register or a residue. -/
def upsetColumn (c : Column) : ColUpset → Column
  | .reg b => { c with reg := c.reg ^^^ BitVec.ofNat 80 (2 ^ b.val) }
  | .residue b => { c with res := c.res ^^^ BitVec.ofNat 3 (2 ^ b.val) }
  | _ => c

/-- Each column of the array takes its next fed step, if it can. -/
def productEnter (s : State) (q c a : Nat) (upset : Option (Fin 4 × ColUpset)) : State :=
  let s := match upset with
    | some (col, u) => s.updArr q c a fun r => r.setCol col.val (upsetColumn (r.col col.val) u)
    | none => s
  pruneArr ((List.range 4).foldl (fun s col => columnTake s q c a upset col) s) q c a

/-- ARRAY_PRODUCT_ENTER. -/
def execArrayProductEnter (q : Cl) (c : Core) (arr : Fin 4) (upset : Option (Fin 4 × ColUpset)) (s : State) : Ans :=
  onClock q s (productEnter s q.val c.val arr.val upset)

/-! ### Drains (R68, R92, R95) -/

/-- A column register as the drain reads it: an injection of `ACC_RESIDUE` flips 1 or 2 of its bits, or makes the
comparators of MIN-PLUS, MAX-PLUS and ARGMAX and the checked adders of the FP32 path report (R404). With it, whether the
check is so made to fail, and whether an injection acts. -/
def readColumn (s : State) (q c n : Nat) (k : Column) : State × Column × Bool × Bool :=
  match takeInject s evAccResidue (srcCore s q c) (cluWinByte s q) with
  | some (w, s) =>
    if isFpPath n || isPick n then (s, { k with bad := true }, true, true)
    else
      ({ s with free := s.free + 2 },
        (freePlaces s w 80).foldl (fun k b => { k with reg := k.reg ^^^ BitVec.ofNat 80 (2 ^ b) }) k, false, true)
  | none => (s, k, false, false)

/-- The job whose activation row column `col` has wholly taken, and which ends its rows by `fin`. -/
def rowWaits (k : CoreSt) (r : Arr) (fin col : Nat) : Option (EInst × AJob) :=
  (colJob k r col).bind fun (i, j) =>
    if fEnd i.word.toNat = fin ∧ j.begunBy col = true ∧ j.enteredBy col = fK i.word.toNat then some (i, j) else none
/-- A column has ended an activation row of a job. -/
def AJob.endRow (j : AJob) (col : Nat) : AJob :=
  { j with done := alter j.done col (· + 1), entered := alter j.entered col fun _ => 0, begun := alter j.begun col fun _ => false }

/-- A reduction that ends with drain moves into the column's latch; the column stalls while the latch is full. -/
def arrayDrain (s : State) (q c a col : Nat) : State :=
  let r := s.arrOf q c a
  match rowWaits (s.coreOf q c) r 1 col with
  | none => s
  | some (i, j) =>
    if (r.lat col).full then s
    else
      let n := i.word.toNat
      let (s, k, forced, inj) := readColumn s q c n (r.col col)
      let d := drainColumn n k
      let l : Latch := { full := true, id := i.id, row := j.doneBy col, value := BitVec.ofNat 32 d.value,
                         index := BitVec.ofNat 32 d.index, stain := d.stain, dep := d.dep }
      let s := (s.updArr q c a fun r => (r.setLat col l).updJob i.id (·.endRow col)).setNumf q c
        (d.flags ||| nfIf forced nfResErr)
      let s := if d.bad || forced then
          raise s { cls := evAccResidue, src := srcCore s q c, job := cluJob s q, win := cluWinByte s q,
                    stained := true, injected := inj, detail := 4 * a + col }
        else s
      pruneArr s q c a

/-- ARRAY_DRAIN. -/
def execArrayDrain (q : Cl) (c : Core) (arr col : Fin 4) (s : State) : Ans :=
  onClock q s (arrayDrain s q.val c.val arr.val col.val)

/-- The latched value is accepted and written to D1, with an ARGMAX index to D2 (R91, R104, R156); a result of a failing
row (R166), and under STN halt one that depends on stained data (R164), is left unwritten. -/
def drainAccept (s : State) (q c a col : Nat) : State :=
  let l := (s.arrOf q c a).lat col
  if !l.full then s
  else
    let s := s.updArr q c a fun r => r.setLat col {}
    match arrInst (s.coreOf q c) l.id with
    | none => s
    | some i =>
      let n := i.word.toNat
      if rowsOf i ≤ l.row then s
      else if fHalt n && l.dep then s.putInst q c .aq { i with halted := true }
      else
        let e := 16 * l.row + 4 * a + col
        let (s, i) := writeElem s q c .aq i (eAddr i 1 c e) (leBytes (elemBytes (fFmtDst n)) l.value.toNat) l.stain
        if fOp n = 0xA5 then (writeElem s q c .aq i (eAddr i 2 c e) (leBytes 4 l.index.toNat) l.stain).1 else s

/-- DRAIN_ACCEPT. -/
def execDrainAccept (q : Cl) (c : Core) (arr col : Fin 4) (s : State) : Ans :=
  onClock q s (drainAccept s q.val c.val arr.val col.val)

/-! ### Parks and resumes (R99, R100) -/

/-- The four columns of an array wait at the same activation row to be parked. -/
def parkWaits (k : CoreSt) (r : Arr) : Option (EInst × AJob) :=
  (rowWaits k r 2 0).bind fun (i, j) =>
    if (List.range 4).all fun col => match rowWaits k r 2 col with
        | some (x, y) => x.id == i.id && y.doneBy col == j.doneBy 0
        | none => false then some (i, j) else none

/-- ARRAY_PARK: the row's four columns are written as records and cleared; the stain of a record keeps what a failed check
has done to its reduction (R75, R99). -/
def execArrayPark (q : Cl) (c : Core) (arr : Fin 4) (s : State) : Ans :=
  onClock q s (
    let a := arr.val
    let r := s.arrOf q.val c.val a
    match parkWaits (s.coreOf q.val c.val) r with
    | none => s
    | some (i, j) =>
      let n := i.word.toNat
      let (s, _) := (List.range 4).foldl (fun (s, i) col =>
        let k := r.col col
        if fHalt n && k.stain then
          let i := { i with halted := true }
          (s.putInst q.val c.val .aq i, i)
        else
          writeElem s q.val c.val .aq i (eAddr i 3 c.val (16 * j.doneBy 0 + 4 * a + col))
            (leBytes 64 (parkRecord n k)) (k.stain || k.bad)) (s, i)
      pruneArr (s.updArr q.val c.val a fun r =>
        (r.updCols fun _ _ => {}).updJob i.id fun j => (List.range 4).foldl AJob.endRow j) q.val c.val a)

/-- The job whose next activation row the four columns of an array are to resume. -/
def resumeWaits (k : CoreSt) (r : Arr) : Option (EInst × AJob) :=
  (colJob k r 0).bind fun (i, j) =>
    if fOpen i.word.toNat = 2 ∧ ((List.range 4).all fun col => match colJob k r col with
        | some (x, y) => x.id == i.id && y.doneBy col == j.doneBy 0 && !y.begunBy col
        | none => false) = true then some (i, j) else none

/-- ARRAY_RESUME: the records of a row are checked and loaded, or refused with reason 0x0A. -/
def execArrayResume (q : Cl) (c : Core) (arr : Fin 4) (s : State) : Ans :=
  onClock q s (
    let a := arr.val
    match resumeWaits (s.coreOf q.val c.val) (s.arrOf q.val c.val a) with
    | none => s
    | some (i, j) =>
      let n := i.word.toNat
      let (s, recs) := (List.range 4).foldl (fun (s, l) col =>
        let (s, b, st) := readElem s q.val c.val i (eAddr i 3 c.val (16 * j.doneBy 0 + 4 * a + col)) 64
        (s, l ++ [(leNat b, st)])) (s, [])
      if recs.all fun x => recordOk n x.1 then
        let s := s.updArr q.val c.val a fun r =>
          (r.updCols fun j _ => let x := recs.getD j (0, false); loadRecord n x.1 x.2).updJob i.id fun j =>
            { j with begun := [true, true, true, true] }
        noteHalt s q.val c.val i (recs.any (·.2))
      else arrayIllegal s q.val c.val i (j.doneBy 0) 0x0A)

/-! ### Weight loads (R87, R88, R90, R160, R191) -/

/-- The array instruction has passed its last position in the bank on every row of every array. -/
def passedBank (k : CoreSt) (j : EInst) : Bool := readsFinished k j

/-- The first weight load of IQ, when everything before it in the queue has started. -/
def nextLoad (k : CoreSt) : Option EInst :=
  match k.iq.find? (fun i => !i.started) with
  | some i => if eOp i = 0xE2 then some i else none
  | none => none

/-- WEIGHT_LOAD_START. -/
def execWeightLoadStart (q : Cl) (c : Core) (s : State) : Ans :=
  onClock q s (
    let k := s.coreOf q.val c.val
    match nextLoad k with
    | none => s
    | some i =>
      let n := i.word.toNat
      let busy := k.aq.any fun j => decide (j.id < i.id) && fBank j.word.toNat == fBankS n && !passedBank k j
      let loading := k.iq.any fun j => j.started && eOp j == 0xE2
      if busy || loading || !scoreOk k i || decide (2 ≤ (k.iq.filter (·.started)).length) then s
      else
        let s := s.putInst q.val c.val .iq { i with started := true }
        s.updCoreOf q.val c.val (·.updArrs fun r =>
          r.setBank (fBankS n) { r.bank (fBankS n) with loading := true }))

/-- The elements of a load: bytes and stain of each, up to STN halt. -/
def loadElems (s : State) (q c : Nat) (i : EInst) (slot count size : Nat) :
    State × List (List Byte × Bool) :=
  (List.range count).foldl (fun (s, l) e =>
    let (s, b, st) := readElem s q c i (eAddr i slot c e) size
    (s, l ++ [(b, st)])) (s, [])

/-- Pattern of a replicated value of column `j` of stream order. -/
def replValue (fmt : Nat) (els : List (List Byte × Bool)) (j : Nat) : Nat × Bool :=
  if fmt = 4 then
    let (b, st) := els.getD (j / 2) ([], false)
    (if j % 2 = 0 then leNat b % 16 else leNat b / 16, st)
  else
    let (b, st) := els.getD j ([], false)
    (leNat b, st)

/-- The 64 bytes of a cell all of whose entries hold one pattern. -/
def replCell (fmt v : Nat) : List Byte :=
  if fmt = 4 then List.replicate 64 (BitVec.ofNat 8 (v % 16 * 17))
  else ((List.range (64 / elemBytes fmt)).map fun _ => leBytes (elemBytes fmt) v).flatten

/-- Fill a bank of array `a` from the elements of a load. Under STN halt a stained element leaves the cell or the scales that
it would have filled as they were, and every other one is written (R164); what is left so keeps the column's old stain
bit (DESIGN CHOICE, log 142). -/
def fillBank (n a : Nat) (b : Bank) (els scs : List (List Byte × Bool)) (halt : Bool) : Bank :=
  let fmt := fFmtT n
  let mode := fLmode n
  let per := mode == 0 || mode == 2
  let a' := if per then a else 0
  let cell := fun r col =>
    if mode < 2 then els.getD (32 * a' + 4 * r + col) ([], false)
    else let (v, st) := replValue fmt els (4 * a' + col); (replCell fmt v, st)
  let scale := fun col => scs.getD (4 * a' + col) ([], false)
  let stained := fun col => (List.range 8).any (fun r => (cell r col).2) || (isMx fmt && (scale col).2)
  let tile := (List.range 4).foldl (fun t col => (List.range 8).foldl (fun t r =>
    if halt && (cell r col).2 then t else (List.range 64).foldl (fun t j =>
      Tbl.set 0 t ((4 * r + col) * 64 + j) (byteAt (cell r col).1 j)) t) t) b.tile
  let sc := if isMx fmt then
      (List.range 4).foldl (fun t col => if halt && (scale col).2 then t else (List.range 32).foldl (fun t j =>
        Tbl.set 0 t (32 * col + j) (byteAt (scale col).1 j)) t) b.scale
    else b.scale
  let st := (List.range 4).foldl (fun m col =>
    if stained col && (!halt || b.stain.getLsbD col) then m + 2 ^ col else m) 0
  { tile := tile, scale := sc, fmt := some (BitVec.ofNat 4 fmt), stain := BitVec.ofNat 4 st, loading := false }

/-- WEIGHT_LOAD_COMPLETE. -/
def execWeightLoadComplete (q : Cl) (c : Core) (s : State) : Ans :=
  onClock q s (
    let k := s.coreOf q.val c.val
    match k.iq.find? fun i => i.started && eOp i == 0xE2 && i.next == 0 with
    | none => s
    | some i =>
      let n := i.word.toNat
      let fmt := fFmtT n
      let per := fLmode n == 0 || fLmode n == 2
      let t := if per then 4 else 1
      let (s, els) := if fLmode n < 2 then loadElems s q.val c.val i 0 (32 * t) 64
        else loadElems s q.val c.val i 0 (if fmt = 4 then 2 * t else 4 * t) (elemBytes fmt)
      let (s, scs) := if isMx fmt then loadElems s q.val c.val i 1 (4 * t) 32 else (s, [])
      let hit := fHalt n && (els ++ scs).any (·.2)
      let s := s.updCoreOf q.val c.val fun k =>
        { k with
          arr0 := k.arr0.setBank (fBankS n) (fillBank n 0 (k.arr0.bank (fBankS n)) els scs (fHalt n))
          arr1 := k.arr1.setBank (fBankS n) (fillBank n 1 (k.arr1.bank (fBankS n)) els scs (fHalt n))
          arr2 := k.arr2.setBank (fBankS n) (fillBank n 2 (k.arr2.bank (fBankS n)) els scs (fHalt n))
          arr3 := k.arr3.setBank (fBankS n) (fillBank n 3 (k.arr3.bank (fBankS n)) els scs (fHalt n)) }
      s.putInst q.val c.val .iq { i with next := 1, readsOut := true, writesOut := true, halted := hit })

end Sys2Proof.Machine
end

