-- ==== Sys2Proof/Machine/RegBase.lean ====
section
/-!
DEFINITION. What a register of a block is to an agent that accesses it (R6–R10, R13): its value, its width, and
what a write of it does. Each block's file gives the registers that an agent maps; Regs.lean joins them.
-/
namespace Sys2Proof.Machine
open Sys2Proof

/-- A register as one agent meets it. -/
structure Reg where
  /-- The value that a read returns. -/
  val : Nat
  /-- It is the `_LO` half of a 64-bit register (R13). -/
  wide : Bool := false
  /-- It is write-only (a `_HI` write with no held half takes 0 as the low half, R13). -/
  wo : Bool := false
  /-- The state after a write of a 32-bit or 64-bit value, none where a write is ignored. -/
  put : Option (Nat → State) := none
  /-- The state after a read that has an effect (RC). -/
  took : Option State := none

/-- A read-only register. -/
def Reg.ro (v : Nat) : Option Reg := some { val := v }
/-- A read-only 64-bit register. -/
def Reg.ro64 (v : Nat) : Option Reg := some { val := v, wide := true }
/-- A register with a write effect. -/
def Reg.rw (v : Nat) (f : Nat → State) : Option Reg := some { val := v, put := some f }
/-- A 64-bit register with a write effect. -/
def Reg.rw64 (v : Nat) (f : Nat → State) : Option Reg := some { val := v, wide := true, put := some f }
/-- A write-only register. -/
def Reg.wo_ (f : Nat → State) : Option Reg := some { val := 0, wo := true, put := some f }

/-- A register that only some agents may write. -/
def Reg.rwIf (ok : Bool) (v : Nat) (f : Nat → State) : Option Reg :=
  some { val := v, put := if ok then some f else none }
/-- A 64-bit register that only some agents may write. -/
def Reg.rw64If (ok : Bool) (v : Nat) (f : Nat → State) : Option Reg :=
  some { val := v, wide := true, put := if ok then some f else none }

/-- PCIe function 1 or a management processor. -/
def mgmt (a : Agent) : Bool :=
  match a with
  | .fn0 => false
  | .smbus => false
  | _ => true

/-- A management processor. -/
def isMp (a : Agent) : Bool :=
  match a with
  | .mp0 | .mp1 | .mp2 | .mp3 => true
  | _ => false

/-- Number of an agent, for the copies kept per agent. -/
def agNum (a : Agent) : Nat :=
  match a with
  | .fn0 => 0
  | .fn1 => 1
  | .mp0 => 2
  | .mp1 => 3
  | .mp2 => 4
  | .mp3 => 5
  | .smbus => 6

/-- An agent's own copy of a select register (R15). -/
def selOf (s : State) (a : Agent) (off : Nat) : Nat := (Tbl.get 0 s.slc.sel (off * 8 + agNum a)).toNat
/-- Write it. -/
def setSel (s : State) (a : Agent) (off v : Nat) : State :=
  { s with slc := { s.slc with sel := Tbl.set 0 s.slc.sel (off * 8 + agNum a) (BitVec.ofNat 32 v) } }

/-! ### The held low half of a 64-bit write (R13) -/

/-- Hold the low half that an agent wrote. -/
def holdLo (s : State) (a : Agent) (off v : Nat) : State :=
  { s with heldLo := Tbl.set none s.heldLo (off * 8 + agNum a) (some (BitVec.ofNat 32 v)) }
/-- The low half that an agent holds. -/
def heldOf (s : State) (a : Agent) (off : Nat) : Option Nat := (Tbl.get none s.heldLo (off * 8 + agNum a)).map (·.toNat)
/-- It is discarded. -/
def dropLo (s : State) (a : Agent) (off : Nat) : State :=
  { s with heldLo := Tbl.set none s.heldLo (off * 8 + agNum a) none }

/-- A write-only 64-bit register. -/
def Reg.wo64If (ok : Bool) (f : Nat → State) : Option Reg :=
  some { val := 0, wide := true, wo := true, put := if ok then some f else none }

end Sys2Proof.Machine
end

