-- ==== Sys2Proof/Machine/Vector.lean ====
section
/-!
DEFINITION. The vector engine (R167–R181): runs, groups and lanes, the arithmetic of Table 6.2 and its conversion,
reductions, the online-softmax merge, MX quantisation and random numbers.
-/
namespace Sys2Proof.Machine
open Sys2Proof

/-! ### Geometry (R168, R169) -/

/-- The descriptor whose level 0 forms the runs: D0, or D2 of `VRAND`. -/
def runDesc (i : EInst) : Nat := eDesc i (if eOp i = 0xD2 then 2 else 0)
/-- Elements of a run. -/
def runLen (i : EInst) : Nat := dIter (runDesc i) 0
/-- Groups of a run. -/
def runGroups (i : EInst) : Nat := ceilDiv (runLen i) 16
/-- Number of runs. -/
def runCount (i : EInst) : Nat := dTotal (runDesc i) / runLen i
/-- Groups of the instruction. -/
def groupCount (i : EInst) : Nat := runCount i * runGroups i
/-- The existing lanes of group `gi` of a run: (lane, element of the run). -/
def groupLanes (i : EInst) (gi : Nat) : List (Nat × Nat) :=
  (List.range 16).filterMap fun l => if 16 * gi + l < runLen i then some (l, 16 * gi + l) else none
/-- The lane is active. -/
def laneOn (i : EInst) (l : Nat) : Bool := i.mreg.getLsbD l

/-! ### Conversion (R171, R172) -/

/-- An FP32 pattern from a pattern of FMT_S: exact. -/
def toSource (fmt bits : Nat) : Word :=
  match fmt with
  | 8 => if (f32 (BitVec.ofNat 32 bits)).isNan then 0x7FC00000 else BitVec.ofNat 32 bits
  | 0xA => toF32 (decodeE8m0 bits)
  | f => toF32 (decodeFmt f bits)

/-- A pattern of FMT_D from an FP32 result. -/
def toDest (fmt : Nat) (sat : Bool) (x : Word) : Nat :=
  match fmt with
  | 8 => x.toNat
  | 5 => wrap 8 ((f32 x).toIntSat (-128) 127)
  | 0xA => toE8m0 (f32 x)
  | f => (roundFmt f sat (f32 x)).bits

/-! ### Operands -/

/-- Read element `e` of a slot as FP32; a pattern of FMT_S unless a size and format are given. -/
def vread (s : State) (q c : Nat) (i : EInst) (slot e fmt : Nat) : State × Word × Bool :=
  let (s, b, st) := readElem s q c i (eAddr i slot c e) (elemBytes fmt)
  (s, toSource fmt (leNat b), st)

/-- The B operand of element `j` of run `r` (Table 6.1); a scalar's stain is the instruction's. -/
def vreadB (s : State) (q c : Nat) (i : EInst) (r j : Nat) : State × Word × Bool :=
  let n := i.word.toNat
  match fBsrc n with
  | 0 => vread s q c i 1 (r * runLen i + j) (fFmtS n)
  | 1 => (s, toSource 8 i.sreg.toNat, false)
  | 2 => vread s q c i 1 j (fFmtS n)
  | _ => vread s q c i 1 r (fFmtS n)

/-- A result waits to be written: its address, bytes and stain; under STN halt one that depends on stained data is
dropped, and the instruction stops the job at its end (R164). -/
def emitRes (i : EInst) (v : VRes) (a : Int) (b : List Byte) (dataStain : Bool) : EInst × VRes :=
  if fHalt i.word.toNat && dataStain then ({ i with halted := true }, v)
  else (i, { v with writes := v.writes ++ [(wrap 64 a, b, dataStain || i.stain)] })

/-! ### Elementwise operations (Table 6.2) -/

/-- FP32 result of a unary opcode. -/
def unaryOp (op : Nat) (a : Word) : Word :=
  let x := f32 a
  match op with
  | 0xC6 => toF32 x.abs
  | 0xC7 => toF32 x.neg
  | 0xC8 => toF32 x.exp2
  | 0xC9 => toF32 x.log2n
  | 0xCA => toF32 ((Num.fin false 1 0).div x)
  | 0xCB => toF32 x.rsqrt
  | _ => toF32 x

/-- FP32 result of a binary opcode, with the addend of `VFMA`. -/
def binaryOp (op pred : Nat) (a b c : Word) : Word :=
  match op with
  | 0xC0 => f32Add a b
  | 0xC1 => f32Sub a b
  | 0xC2 => f32Mul a b
  | 0xC3 => f32Fma a b c
  | 0xC4 => f32Max a b
  | 0xC5 => f32Min a b
  | _ => if predHolds pred (f32 a) (f32 b) then 0x3F800000 else 0

/-- One element of an elementwise instruction. -/
def elementwise (s : State) (q c : Nat) (i : EInst) (v : VRes) (r j : Nat) : State × EInst × VRes :=
  let n := i.word.toNat
  let op := eOp i
  let e := r * runLen i + j
  let dst := eAddr i 2 c e
  if op = 0xD3 then
    let (s, b, st) := readElem s q c i (eAddr i 0 c e) (elemBytes (fFmtS n))
    let (i, v) := emitRes i v dst b st
    (s, i, v)
  else
    let (s, a, st) := vread s q c i 0 e (fFmtS n)
    let (s, x, st) :=
      if op ≤ 0xC5 ∨ op = 0xCD then
        let (s, b, st') := vreadB s q c i r j
        let (s, d, st'') := if op = 0xC3 then vread s q c i 3 e (fFmtS n) else (s, 0, false)
        (s, binaryOp op (fSubop n % 8) a b d, st || st' || st'')
      else (s, unaryOp op a, st)
    let (i, v) := emitRes i v dst (leBytes (elemBytes (fFmtD n)) (toDest (fFmtD n) (fSatV n) x)) st
    (s, i, v)

/-! ### Reductions (R175) -/

/-- Identity of a reduction: −0 for `VREDSUM`, −∞ for `VREDMAX`. -/
def redIdentity (op : Nat) : Word := if op = 0xCF then 0x80000000 else 0xFF800000
/-- The operation of a reduction. -/
def redOp (op : Nat) (a b : Word) : Word := if op = 0xCF then f32Add a b else f32Max a b
/-- Combine the 16 lane accumulators in halves of 8, 4, 2 and 1. -/
def redTree (op : Nat) (acc : Nat → Word) : Word :=
  let l8 := (List.range 8).map fun l => redOp op (acc l) (acc (l + 8))
  let l4 := (List.range 4).map fun l => redOp op (l8.getD l 0) (l8.getD (l + 4) 0)
  let l2 := (List.range 2).map fun l => redOp op (l4.getD l 0) (l4.getD (l + 2) 0)
  redOp op (l2.getD 0 0) (l2.getD 1 0)

/-- One group of a reduction; the last group of a run writes its value to the run's last element. -/
def reduceGroup (s : State) (q c : Nat) (i : EInst) (v : VRes) (r gi : Nat) : State × EInst × VRes :=
  let n := i.word.toNat
  let op := eOp i
  let id := redIdentity op
  let eng := (s.coreOf q c).veng
  let acc := if gi = 0 then [] else eng.acc
  let st := if gi = 0 then false else eng.accStain
  let (s, acc, st) := (groupLanes i gi).foldl (fun (s, acc, st) (l, j) =>
    if laneOn i l then
      let (s, x, st') := vread s q c i 0 (r * runLen i + j) (fFmtS n)
      (s, upd id acc l (fun y => redOp op y x), st || st')
    else (s, acc, st)) (s, acc, st)
  let s := s.updCoreOf q c fun k => { k with veng := { k.veng with acc := acc, accStain := st } }
  if gi + 1 = runGroups i then
    let x := redTree op fun l => Tbl.get id acc l
    let (i, v) := emitRes i v (eAddr i 2 c (r * runLen i + runLen i - 1))
      (leBytes (elemBytes (fFmtD n)) (toDest (fFmtD n) (fSatV n) x)) st
    (s, i, v)
  else (s, i, v)

/-! ### Online-softmax merge (R176) -/

/-- alpha or beta of a side. -/
def mergeScale (side m : Word) : Word :=
  if side = 0xFF800000 then 0 else toF32 (f32 (f32Sub side m)).exp2

/-- A read of element `e` of a slot would deliver stained data. -/
def peekStain (k : CoreSt) (c : Nat) (i : EInst) (slot e n : Nat) : Bool :=
  let a := eAddr i slot c e
  accessFault i.rmask a n != 0 || padRangeStained k a.toNat n

/-- Some active source element of row `r` is stained (R181). -/
def rowStain (k : CoreSt) (c : Nat) (i : EInst) (r : Nat) : Bool :=
  let sz := elemBytes (fFmtS i.word.toNat)
  (List.range (runLen i)).any fun j =>
    laneOn i (j % 16) && (peekStain k c i 0 (r * runLen i + j) sz || peekStain k c i 1 (r * runLen i + j) sz)

/-- One group of a merge; the first group of a row reads the record and writes it back. -/
def mergeGroup (s : State) (q c : Nat) (i : EInst) (v : VRes) (r gi : Nat) : State × EInst × VRes :=
  let n := i.word.toNat
  let (s, i, v) :=
    if gi = 0 then
      let (s, recs, st) := (List.range 4).foldl (fun (s, l, st) e =>
        let (s, x, st') := vread s q c i 3 (4 * r + e) 8
        (s, l ++ [x], st || st')) (s, [], false)
      let g := fun e => recs.getD e 0
      let m := f32Max (g 0) (g 2)
      let al := mergeScale (g 0) m
      let be := mergeScale (g 2) m
      let l := f32Fma (g 1) al (f32Mul (g 3) be)
      let s := s.updCoreOf q c fun k =>
        { k with veng := { k.veng with alpha := al, beta := be, recStain := st || rowStain k c i r } }
      let (i, v) := emitRes i v (eAddr i 3 c (4 * r)) (leBytes 4 m.toNat) st
      let (i, v) := emitRes i v (eAddr i 3 c (4 * r + 1)) (leBytes 4 l.toNat) st
      (s, i, v)
    else (s, i, v)
  let eng := (s.coreOf q c).veng
  (groupLanes i gi).foldl (fun (s, i, v) (l, j) =>
    if laneOn i l then
      let e := r * runLen i + j
      let (s, a, _) := vread s q c i 0 e (fFmtS n)
      let (s, b, _) := vread s q c i 1 e (fFmtS n)
      let x := f32Fma a eng.alpha (f32Mul b eng.beta)
      let (i, v) := emitRes i v (eAddr i 2 c e) (leBytes (elemBytes (fFmtD n)) (toDest (fFmtD n) (fSatV n) x))
        eng.recStain
      (s, i, v)
    else (s, i, v)) (s, i, v)

/-! ### MX quantisation (R177) -/

/-- e_max of an MX element format. -/
def mxEmax (fmt : Nat) : Nat := if fmt = 2 then 8 else if fmt = 3 then 15 else 2
/-- The largest magnitude of a block, none when some element is an infinity or a NaN. -/
def blockMax (xs : List Word) : Option Num :=
  if xs.any fun x => !f32Finite x then none
  else some (xs.foldl (fun m x => m.fmax (f32 x).abs) (.fin false 0 0))
/-- Scale field of a block. -/
def mxScale (fmt : Nat) (xs : List Word) : Nat :=
  match blockMax xs with
  | none => 255
  | some m => if m.isZero then 0 else (max 0 (min 254 (127 + m.floorLog2 - mxEmax fmt))).toNat
/-- An element of a block with its scale field. -/
def mxElem (fmt sc : Nat) (x : Word) : Nat :=
  if sc = 255 then 0
  else (roundFmt fmt true ((f32 x).scale (127 - sc))).bits

/-- One group of `VMXQ`: the second group of a block writes its elements and its scale. -/
def mxqGroup (s : State) (q c : Nat) (i : EInst) (v : VRes) (r gi : Nat) : State × EInst × VRes :=
  let n := i.word.toNat
  let (s, xs, st) := (groupLanes i gi).foldl (fun (s, xs, st) (_, j) =>
    let (s, x, st') := vread s q c i 0 (r * runLen i + j) (fFmtS n)
    (s, xs ++ [x], st || st')) (s, ([] : List Word), false)
  if gi % 2 = 0 then
    (s.updCoreOf q c fun k => { k with veng := { k.veng with half := xs, halfStain := st } }, i, v)
  else
    let eng := (s.coreOf q c).veng
    let all := eng.half ++ xs
    let st := st || eng.halfStain
    let fmt := fFmtD n
    let sc := mxScale fmt all
    let base := r * runLen i + 16 * (gi - 1)
    let el := fun j => mxElem fmt sc (all.getD j 0)
    let (i, v) :=
      if fmt = 4 then
        (List.range 16).foldl (fun (i, v) j =>
          emitRes i v (eAddr i 2 c (base / 2 + j)) [BitVec.ofNat 8 (el (2 * j) + 16 * el (2 * j + 1))] st) (i, v)
      else
        (List.range 32).foldl (fun (i, v) j => emitRes i v (eAddr i 2 c (base + j)) [BitVec.ofNat 8 (el j)] st) (i, v)
    let (i, v) := emitRes i v (eAddr i 3 c (base / 32)) [BitVec.ofNat 8 sc] st
    (s, i, v)

/-! ### Random numbers (R178, R387) -/

/-- The uniform value of a 32-bit word: (w >> 8) × 2^-24. -/
def uniform (w : Nat) : Word := toF32 (.fin false (w / 256) (-24))

/-- Word at a position of a core's generator stream, under the keying of R387. -/
def randWord (s : State) (q c stream pos : Nat) : Nat :=
  let j := s.jobAt ((cluWin s q).getD 0)
  philoxWord j.seed.toNat j.gstep.toNat stream (coreId q c) (logicalCoord s) pos

/-- One group of `VRAND`; the last advances the draw counter by every element of D2. -/
def randGroup (s : State) (q c : Nat) (i : EInst) (v : VRes) (r gi : Nat) : State × EInst × VRes :=
  let stream := fSubop i.word.toNat
  let d := (Tbl.get 0 (s.coreOf q c).draws stream).toNat
  let (i', v) := (groupLanes i gi).foldl (fun (i, v) (l, j) =>
    if laneOn i l then
      let e := r * runLen i + j
      emitRes i v (eAddr i 2 c e) (leBytes 4 (uniform (randWord s q c stream ((d + e) % 2 ^ 64))).toNat) false
    else (i, v)) (i, v)
  let s := if i.next + 1 = groupCount i then
      s.updCoreOf q c fun k =>
        { k with draws := upd 0 k.draws stream (· + BitVec.ofNat 64 (dTotal (eDesc i 2))) }
    else s
  (s, i', v)

/-! ### The commands -/

/-- Every group has been fed. -/
def vecFed (i : EInst) : Bool := decide (groupCount i ≤ i.next)

/-- VECTOR_INSTR_START: the first unstarted instruction, once those before it have fed their last group and the
scoreboard allows (R180). -/
def execVectorInstrStart (q : Cl) (c : Core) (s : State) : Ans :=
  onClock q s (
    let k := s.coreOf q.val c.val
    match k.vq.find? (fun i => !i.started) with
    | some i =>
      if scoreOk k i && (k.vq.filter (·.started)).all vecFed then
        s.putInst q.val c.val .vq { i with started := true }
      else s
    | none => s)

/-- Read and compute group `g` of an instruction. -/
def vectorGroup (s : State) (q c : Nat) (i : EInst) : State × EInst × VRes :=
  let r := i.next / runGroups i
  let gi := i.next % runGroups i
  let v : VRes := { id := i.id }
  match eOp i with
  | 0xCE => reduceGroup s q c i v r gi
  | 0xCF => reduceGroup s q c i v r gi
  | 0xD0 => mxqGroup s q c i v r gi
  | 0xD1 => mergeGroup s q c i v r gi
  | 0xD2 => randGroup s q c i v r gi
  | _ =>
    (groupLanes i gi).foldl (fun (s, i, v) (l, j) =>
      if laneOn i l then elementwise s q c i v r j else (s, i, v)) (s, i, v)

/-- VECTOR_GROUP. -/
def execVectorGroup (q : Cl) (c : Core) (s : State) : Ans :=
  onClock q s (
    match (s.coreOf q.val c.val).vq.find? (fun i => i.started && !vecFed i) with
    | none => s
    | some i =>
      let (s, i, v) := vectorGroup s q.val c.val i
      let i := { i with next := i.next + 1 }
      let i := { i with readsOut := i.readsOut || vecFed i }
      (s.putInst q.val c.val .vq i).updCoreOf q.val c.val fun k =>
        { k with veng := { k.veng with out := k.veng.out ++ [v] } })

/-- VECTOR_RESULT_WRITE: the oldest group's results are written; the last releases the writes (R126, R180). -/
def execVectorResultWrite (q : Cl) (c : Core) (s : State) : Ans :=
  onClock q s (
    let k := s.coreOf q.val c.val
    match k.veng.out with
    | [] => s
    | v :: rest =>
      let s := s.updCoreOf q.val c.val fun k => { k with veng := { k.veng with out := rest } }
      match k.vq.find? (fun i => i.id == v.id) with
      | none => s
      | some i =>
        let (s, i) := v.writes.foldl (fun (s, i) (a, b, st) =>
          writeElem s q.val c.val .vq i (sgn 64 a) b st) (s, i)
        if vecFed i && !rest.any (fun x => x.id == i.id) then
          s.putInst q.val c.val .vq { i with writesOut := true }
        else s)

end Sys2Proof.Machine
end

