-- ==== Sys2Proof/Machine/Stream.lean ====
section
/-!
DEFINITION. The stream engines (R182–R191): starting an instruction, issuing merged sector accesses, returned reads
and completed writes; and the completion of an instruction of any engine (R122, R126).
-/
namespace Sys2Proof.Machine
open Sys2Proof

/-- Queue of a stream direction. -/
def dirQueue : StreamDir → Engine
  | .inn => .iq
  | .out => .oq
/-- Outstanding accesses of a direction. -/
def CoreSt.accs (k : CoreSt) : StreamDir → List SAcc
  | .inn => k.reads
  | .out => k.writes
/-- Put them. -/
def CoreSt.setAccs (k : CoreSt) (d : StreamDir) (l : List SAcc) : CoreSt :=
  match d with
  | .inn => { k with reads := l }
  | .out => { k with writes := l }
/-- Change access `i` of a stream. -/
def State.updAcc (s : State) (q c : Nat) (d : StreamDir) (i : Nat) (f : SAcc → SAcc) : State :=
  s.updCoreOf q c fun k => k.setAccs d (alter (k.accs d) i f)
/-- Access `i` of a stream, oldest first. -/
def State.acc (s : State) (q c : Nat) (d : StreamDir) (i : Nat) : Option SAcc := ((s.coreOf q c).accs d)[i]?

/-- Pieces of an element: two of an element of 64 bytes (R183). -/
def piecesPer (i : EInst) : Nat := if fEsz i.word.toNat = 64 then 2 else 1
/-- Bytes of a piece. -/
def pieceBytes (i : EInst) : Nat := min 32 (fEsz i.word.toNat)
/-- Pieces of the instruction. -/
def pieceTotal (i : EInst) : Nat := dTotal (eDesc i 0) * piecesPer i
/-- The instruction loads weights, and moves no stream. -/
def isWld (i : EInst) : Bool := eOp i == 0xE2
/-- Every access has been issued. -/
def allIssued (i : EInst) : Bool := isWld i || decide (pieceTotal i ≤ i.next)

/-! ### Start (R124, R188) and fences (R132) -/

/-- The instruction accesses device memory: a weight load and a transfer from the scratchpad do not. -/
def usesDevice (i : EInst) : Bool := !isWld i && !(eOp i == 0xE0 && dPad (eDesc i 0))
/-- The instruction has completed all its device-memory accesses. -/
def devDone (k : CoreSt) (j : EInst) : Bool :=
  !usesDevice j || (allIssued j && !(k.reads ++ k.writes).any fun a => a.id == j.id && decide (a.phase < 3))
/-- The fence before an instruction is passed: every stream instruction issued before it has completed all its
device-memory accesses (R132). -/
def fencePassed (k : CoreSt) (i : EInst) : Bool :=
  (k.iq ++ k.oq).all fun j => decide (i.fence ≤ j.id) || devDone k j

/-- Start the next instruction of a stream engine: at most two are at work, and the second waits until the first
has issued its last access. -/
def streamStart (s : State) (q c : Nat) (d : StreamDir) : State :=
  let k := s.coreOf q c
  let qu := k.queue (dirQueue d)
  match qu.find? (fun i => !i.started) with
  | some i =>
    let before := qu.filter (·.started)
    if !isWld i && decide (before.length < 2) && before.all allIssued && scoreOk k i then
      s.putInst q c (dirQueue d) { i with started := true }
    else s
  | none => s

/-- STREAM_IN_INSTR_START. -/
def execStreamInInstrStart (q : Cl) (c : Core) (s : State) : Ans := onClock q s (streamStart s q.val c.val .inn)
/-- STREAM_OUT_INSTR_START. -/
def execStreamOutInstrStart (q : Cl) (c : Core) (s : State) : Ans := onClock q s (streamStart s q.val c.val .out)

/-! ### Addresses -/

/-- The instruction is a gather or a scatter. -/
def isIndexed (i : EInst) : Bool := eOp i == 0xE1 || eOp i == 0xF1

/-- The index of element `e`, with the state after its read and its stain (R159). -/
def indexOf (s : State) (q c : Nat) (i : EInst) (e : Nat) : State × Nat × Bool :=
  if isIndexed i then
    let (s, b, st) := readElem s q c i (eAddr i 1 c e) 4
    (s, leNat b * 2 ^ fIshift i.word.toNat, st)
  else (s, 0, false)

/-- The slot on the far side of the transfer: the source of a transfer in, the destination of one out. -/
def farSlot (d : StreamDir) : Nat := match d with | .inn => 0 | .out => 2
/-- Far address of piece `p` with its index `x`. -/
def farAddr (i : EInst) (d : StreamDir) (c p x : Nat) : Int :=
  eAddr i (farSlot d) c (p / piecesPer i) + x + 32 * (p % piecesPer i : Nat)
/-- Scratchpad address of piece `p` on the near side. -/
def nearAddr (i : EInst) (d : StreamDir) (c p : Nat) : Int :=
  eAddr i (2 - farSlot d) c (p / piecesPer i) + 32 * (p % piecesPer i : Nat)
/-- Sector address of a far address. -/
def sectorOf (a : Int) : Nat := wrap 64 (a - a % 32)
/-- A far address after an upset of its path. -/
def flipAddr (l : List Nat) (a : Int) : Int :=
  if l = [] then a else (l.foldl (fun x b => x ^^^ 2 ^ b) (wrap 64 a) : Nat)
/-- The far address is aligned (R152). -/
def farAligned (i : EInst) (a : Int) : Bool := a % (pieceBytes i : Nat) == 0

/-! ### Issue -/

/-- An access that is already complete: a piece of the scratchpad, or stained zeros (R152, R187). -/
def localAcc (i : EInst) (p off : Nat) (b : List Byte) (st : Bool) : SAcc :=
  { id := i.id, piece := p, offs := [off], data := paste (zeros 32) off b, stain := st, phase := 3 }

/-- Add an access and count its pieces. -/
def pushAcc (s : State) (q c : Nat) (d : StreamDir) (i : EInst) (a : SAcc) : State :=
  let n := i.next + a.offs.length
  let i := { i with next := n, readsOut := i.readsOut || decide (pieceTotal i ≤ n) }
  (s.putInst q c (dirQueue d) i).updCoreOf q c fun k => k.setAccs d (k.accs d ++ [a])

/-- Pieces pass without an access: they are counted only. -/
def skipPieces (s : State) (q c : Nat) (d : StreamDir) (i : EInst) (n : Nat) : State :=
  let m := i.next + n
  s.putInst q c (dirQueue d) { i with next := m, readsOut := i.readsOut || decide (pieceTotal i ≤ m) }

/-- Further pieces of a read that fall in the same sector: their offsets. -/
def mergeReads (q c : Nat) (i : EInst) (sec : Nat) : Nat → State → Nat → List Nat → State × List Nat
  | 0, s, _, l => (s, l)
  | f + 1, s, p, l =>
    let (s', x, st) := indexOf s q c i (p / piecesPer i)
    let a := farAddr i .inn c p x
    if !st && farAligned i a && sectorOf a == sec then
      mergeReads q c i sec f s' (p + 1) (l ++ [(a % 32).toNat])
    else (s, l)

/-- Issue one access of a transfer in, the bits of `l` flipped in its address. -/
def issueRead (s : State) (q c : Nat) (i : EInst) (l : List Nat) : State :=
  let p := i.next
  let (s, x, st) := indexOf s q c i (p / piecesPer i)
  let a := flipAddr l (farAddr i .inn c p x)
  let off := (a % 32).toNat
  if st then pushAcc s q c .inn i (localAcc i p 0 (zeros 32) true)
  else if !isIndexed i && dPad (eDesc i 0) then
    let (s, b, st) := readPiece s q c i a (pieceBytes i)
    pushAcc s q c .inn i (localAcc i p off b st)
  else if !farAligned i a then
    pushAcc (accessEvent s q c 2 a true) q c .inn i (localAcc i p 0 (zeros 32) true)
  else
    let (s, offs) := mergeReads q c i (sectorOf a) (pieceTotal i - p - 1) s (p + 1) [off]
    pushAcc s q c .inn i { id := i.id, piece := p, offs := offs, addr := sectorOf a }

/-- A write under construction. -/
structure Gather where
  s : State
  inst : EInst
  offs : List Nat := []
  data : List Byte := []
  en : Nat := 0
  stain : Bool := false

/-- Add piece `p`, read from the scratchpad, to a write at offset `off`; under STN halt a stained piece is left out
(R164, R185). -/
def addPiece (q c : Nat) (g : Gather) (p off : Nat) : Gather :=
  let (s, b, st) := readPiece g.s q c g.inst (nearAddr g.inst .out c p) (pieceBytes g.inst)
  if fHalt g.inst.word.toNat && st then
    { g with s := s, inst := { g.inst with halted := true }, offs := g.offs ++ [off] }
  else
    { g with s := s, offs := g.offs ++ [off], data := paste g.data off b,
             en := g.en ||| byteMask off b.length, stain := g.stain || st }

/-- Further pieces of a write that fall in the same sector. -/
def mergeWrites (q c : Nat) (sec : Nat) : Nat → Gather → Nat → Gather
  | 0, g, _ => g
  | f + 1, g, p =>
    let (s', x, st) := indexOf g.s q c g.inst (p / piecesPer g.inst)
    let a := farAddr g.inst .out c p x
    if !st && farAligned g.inst a && sectorOf a == sec then
      mergeWrites q c sec f (addPiece q c { g with s := s' } p (a % 32).toNat) (p + 1)
    else g

/-- Issue one access of a transfer out, the bits of `l` flipped in its address. -/
def issueWrite (s : State) (q c : Nat) (i : EInst) (l : List Nat) : State :=
  let p := i.next
  let (s, x, st) := indexOf s q c i (p / piecesPer i)
  let a := flipAddr l (farAddr i .out c p x)
  if st then
    let s := skipPieces s q c .out i 1
    let s := raiseCore s q c evStainCtrl true 2 i.loc.toNat
    haltStop s q { cause := 4, cls := evStainCtrl }
  else if !farAligned i a then skipPieces (accessEvent s q c 2 a false) q c .out i 1
  else
    let g := addPiece q c { s := s, inst := i, data := zeros 32 } p (a % 32).toNat
    let g := mergeWrites q c (sectorOf a) (pieceTotal i - p - 1) g (p + 1)
    if g.en = 0 then skipPieces g.s q c .out g.inst g.offs.length
    else
      pushAcc g.s q c .out g.inst { id := i.id, piece := p, offs := g.offs, addr := sectorOf a, write := true,
                                    data := g.data, en := g.en, stain := g.stain }

/-- Outstanding accesses that a stream engine may have (R188). -/
def accLimit : StreamDir → Nat
  | .inn => 128
  | .out => 64

/-- The next access names a sector that an outstanding access of an earlier instruction names (R188). -/
def conflicts (s : State) (q c : Nat) (d : StreamDir) (i : EInst) : Bool :=
  let (_, x, _) := indexOf s q c i (i.next / piecesPer i)
  let sec := sectorOf (farAddr i d c i.next x)
  ((s.coreOf q c).accs d).any fun a => a.id != i.id && a.addr == sec && decide (a.phase < 3)

/-- The parity of a stage of the address and index paths: an odd number of flipped bits raises `PARITY`; the access goes
on with the address as it is (Table 13.2; log 146). -/
def parityCheck (s : State) (q c : Nat) (i : EInst) (l : List Nat) : State :=
  if l.length % 2 = 1 then raiseCore s q c evParity false 1 i.loc.toNat else s
/-- The bits that flip in the stage, an injection's or the given ones, and the check's event. -/
def parityStage (s : State) (q c : Nat) (i : EInst) (upset : List Nat) : State × List Nat :=
  match takeInject s evParity (srcCore s q c) (cluWinByte s q) with
  | some (w, s) =>
    let l := freePlaces s w 52
    (underInject (fun s => parityCheck s q c i l) { s with free := s.free + 2 }, l)
  | none => (parityCheck s q c i upset, upset)

/-- STREAM_SECTOR_ISSUE. -/
def execStreamSectorIssue (q : Cl) (c : Core) (at_ : StreamIssue) (s : State) : Ans :=
  let dir := at_.dir
  onClock q s (
    let k := s.coreOf q.val c.val
    match (k.queue (dirQueue dir)).find? (fun i => i.started && !allIssued i) with
    | none => s
    | some i =>
      if decide (accLimit dir ≤ (k.accs dir).length) || conflicts s q.val c.val dir i
          || (usesDevice i && !fencePassed k i) then s
      else
        let (s, l) := parityStage s q.val c.val i
          (((List.finRange 52).filter fun b => at_.upset.count b % 2 == 1).map (·.val))
        match dir with
        | .inn => issueRead s q.val c.val i l
        | .out => issueWrite s q.val c.val i l)

/-! ### Returns and completions -/

/-- Remove element `i` of a list. -/
def dropAt {α : Type} : List α → Nat → List α
  | [], _ => []
  | _ :: t, 0 => t
  | a :: t, i + 1 => a :: dropAt t i

/-- STREAM_READ_RETURN: the pieces of a finished read are written into the scratchpad (R186, R188); under STN halt
a stained one is left unwritten. -/
def execStreamReadReturn (q : Cl) (c : Core) (i : Nat) (s : State) : Ans :=
  onClock q s (
    match s.acc q.val c.val .inn i with
    | none => s
    | some a =>
      if a.phase < 3 then s
      else
        let s := s.updCoreOf q.val c.val fun k => { k with reads := dropAt k.reads i }
        match (s.coreOf q.val c.val).iq.find? fun j => j.id == a.id with
        | none => s
        | some inst =>
          let (s, inst) := a.offs.zipIdx.foldl (fun (s, inst) (off, j) =>
            if fHalt inst.word.toNat && a.stain then
              let inst := { inst with halted := true }
              (s.putInst q.val c.val .iq inst, inst)
            else
              writePiece s q.val c.val .iq inst (nearAddr inst .inn c.val (a.piece + j))
                (cut a.data off (pieceBytes inst)) a.stain) (s, inst)
          if allIssued inst && !(s.coreOf q.val c.val).reads.any fun x => x.id == inst.id then
            s.putInst q.val c.val .iq { inst with writesOut := true }
          else s)

/-- STREAM_WRITE_COMPLETE. -/
def execStreamWriteComplete (q : Cl) (c : Core) (i : Nat) (s : State) : Ans :=
  onClock q s (
    match s.acc q.val c.val .out i with
    | none => s
    | some a =>
      if a.phase < 3 then s else s.updCoreOf q.val c.val fun k => { k with writes := dropAt k.writes i })

/-- The engine has completed the instruction at the head of its queue. -/
def headDone (k : CoreSt) (e : Engine) (i : EInst) : Bool :=
  i.started &&
    match e with
    | .aq => k.allArrs fun r => !arrBusy r i.id
    | .vq => vecFed i && !k.veng.out.any fun v => v.id == i.id
    | .iq => if isWld i then i.next == 1 else allIssued i && !k.reads.any fun a => a.id == i.id
    | .oq => allIssued i && !k.writes.any fun a => a.id == i.id

/-- ENGINE_INSTR_COMPLETE. -/
def execEngineInstrComplete (q : Cl) (c : Core) (e : Engine) (s : State) : Ans :=
  onClock q s (
    let k := s.coreOf q.val c.val
    match k.queue e with
    | i :: _ => if headDone k e i then retire s q.val c.val e else s
    | [] => s)

end Sys2Proof.Machine
end

