-- ==== Sys2Proof/Machine/Memory.lean ====
section
/-!
DEFINITION. The commands of the memory tiers (07_memory_system.md): translation of stream and unit accesses (R199,
R203, R204), sector accesses of the DRAM controllers (R207–R211), SRAM words under SECDED (R213), the shelf cache
(R230), patrol scrub (R212) and refresh management (R214).
-/
namespace Sys2Proof.Machine
open Sys2Proof

/-! ### Translation -/

/-- Key of a translation cache. -/
def xlatKey (win v : Nat) : Nat := win * 2 ^ 20 + v

/-- An earlier access of the stream names the same sector and has not been performed (R185). -/
def behindSame (l : List SAcc) (i : Nat) (addr : Nat) : Bool :=
  (l.take i).any fun a => a.addr == addr && decide (a.phase < 3)

/-- Perform access `i` of a stream on a place that needs no DRAM controller. -/
def performDirect (s : State) (q c : Nat) (d : StreamDir) (i : Nat) (a : SAcc) (p : Place) : State :=
  if a.write then (secWrite s p a.data a.en a.stain).updAcc q c d i fun x => { x with phase := 3 }
  else
    let (s, b, st) := secRead s p
    s.updAcc q c d i fun x => { x with data := b, stain := st, phase := 3 }

/-- The result of a translation of access `i` of a stream: its place, or its fault (R204). -/
def settleAcc (s : State) (q c : Nat) (d : StreamDir) (i win : Nat) (a : SAcc) (r : Xlat) : State :=
  let (s, r, inj) := meetXlat s (srcUnit (clDie q) unitXlat) win r
  match r with
  | .fault k =>
    let s := xlatFault s (srcUnit (clDie q) unitXlat) win a.addr k a.write a.write inj
    if a.write then
      jobStop (s.updAcc q c d i fun x => { x with phase := 4 }) win
        { cause := 4, cls := evXlatFault, cluster := clId q }
    else s.updAcc q c d i fun x => { x with data := zeros 32, stain := true, phase := 4 }
  | .ok (.nm st sec) cc =>
    s.updAcc q c d i fun x => { x with tier := 0, stack := st, place := sec, cacheable := cc, phase := 2 }
  | .ok (.hbm st sec) cc =>
    s.updAcc q c d i fun x => { x with tier := 1, stack := st, place := sec, cacheable := cc, phase := 2 }
  | .ok p _ => performDirect s q c d i a p

/-- A miss is under way at a base die for this key. -/
def addMiss (s : State) (die key : Nat) : State :=
  s.updDieMem die fun m => { m with misses := insertUp key m.misses }

/-- Look access `i` of a stream up in the translation cache of its base die. -/
def lookupAcc (s : State) (q c : Nat) (d : StreamDir) (i : Nat) : State :=
  match s.acc q c d i, cluWin s q with
  | some a, some w =>
    if a.phase ≠ 0 ∨ behindSame ((s.coreOf q c).accs d) i a.addr = true then s
    else
      match xlatDirect s w a.addr with
      | some r => settleAcc s q c d i w a r
      | none =>
        let key := xlatKey w (a.addr / 2 ^ 21)
        match (s.dieMem (clDie q)).xlat.find? fun e => e.1 == key with
        | some e => settleAcc s q c d i w a (xlatEntry s e.2 a.addr a.write)
        | none => addMiss (s.updAcc q c d i fun x => { x with phase := 1 }) (clDie q) key
  | _, _ => s

/-- A fault of a unit of a base die: a read returns stained zeros, a write stops the job (R204). -/
def unitFault (s : State) (die win addr kind : Nat) (write : Bool) : State :=
  let s := xlatFault s (srcUnit die unitXlat) win addr kind write write
  if write then jobStop s win { cause := 4, cls := evXlatFault }
  else { s with mem := { s.mem with resp := some (zeros 32, true) } }

/-- Look an access of a unit of base die `die` up. -/
def lookupUnit (s : State) (die win addr : Nat) (write : Bool) : State :=
  match xlatDirect s win addr with
  | some (.fault k) => unitFault s die win addr k write
  | some (.ok _ _) => s
  | none =>
    let key := xlatKey win (addr / 2 ^ 21)
    match (s.dieMem die).xlat.find? fun e => e.1 == key with
    | some e =>
      match xlatEntry s e.2 addr write with
      | .fault k => unitFault s die win addr k write
      | .ok _ _ => s
    | none => addMiss s die key

/-- XLAT_LOOKUP. -/
def execXlatLookup (r : MemReq) (s : State) : Ans :=
  .next (
    match r with
    | .stream q c dir i => lookupAcc s q.val c.val dir i
    | .unit die win addr write => lookupUnit s die.val win.val addr.toNat write)

/-- Put an entry into a translation cache of 4,096 entries; one of them makes room (R199). -/
def cachePut (l : List (Nat × DWord)) (key : Nat) (e : DWord) (victim : Nat) : List (Nat × DWord) :=
  let l := l.filter fun x => x.1 != key
  let l := if 4096 ≤ l.length then dropAt l (victim % 4096) else l
  l ++ [(key, e)]

/-- The accesses of a base die that await the miss of a window's virtual frame. -/
def awaiting (s : State) (die win v : Nat) : List (Nat × Nat × StreamDir × Nat) :=
  (s.cl.filter fun e => clDie e.1 == die && e.2.win.map (·.val) == some win).flatMap fun e =>
    e.2.core.flatMap fun k =>
      [StreamDir.inn, StreamDir.out].flatMap fun d =>
        (((k.2.accs d).zipIdx).filter fun (a, _) => a.phase == 1 && a.addr / 2 ^ 21 == v).map fun (_, i) =>
          (e.1, k.1, d, i)

/-- XLAT_MISS_FILL: the entry arrives, is cached if V is 1, and every access that awaited it is settled. -/
def execXlatMissFill (die : Die) (win : Win) (vframe : BitVec 20) (victim : Nat) (s : State) : Ans :=
  let key := xlatKey win.val vframe.toNat
  if (s.dieMem die.val).misses.contains key then
    let e := tableEntry s win.val vframe.toNat
    let s := s.updDieMem die.val fun m =>
      { m with misses := m.misses.filter (· != key), xlat := if entV e then cachePut m.xlat key e victim else m.xlat }
    .next ((awaiting s die.val win.val vframe.toNat).foldl (fun s (q, c, d, i) =>
      match s.acc q c d i with
      | some a => settleAcc s q c d i win.val a (xlatEntry s e a.addr a.write)
      | none => s) s)
  else .next s

/-! ### Sector accesses (R207–R211) -/

/-- Stacks of a tier. -/
def stacksOf (hbm : Bool) : Nat := if hbm then 16 else 8
/-- Sectors of a stack. -/
def sectorsOf (hbm : Bool) : Nat := if hbm then 2 ^ 31 else 24576 * 2 ^ 16
/-- The sector exists. -/
def sectorExists (hbm : Bool) (stack sec : Nat) : Bool :=
  decide (stack < stacksOf hbm) && decide (sec < sectorsOf hbm)

/-- Read of a DRAM sector through the shelf cache, for a window where one is known. -/
def ctlRead (s : State) (hbm : Bool) (stack sec : Nat) (win : Option Nat) (upset : List (Nat × Byte))
    (rep : EccReport) : State × List Byte × Bool :=
  match cachedAt s hbm stack sec with
  | some c => (s, c.data, c.stain)
  | none => dramRead s hbm stack sec upset rep win

/-- Write of a DRAM sector through the shelf cache (R186, R207, R232). -/
def ctlWrite (s : State) (hbm : Bool) (stack sec : Nat) (data : List Byte) (en : Nat) (stain : Bool)
    (upset : List (Nat × Byte)) (rep : EccReport) (win : Option Nat := none) : State :=
  match cachedAt s hbm stack sec with
  | some _ =>
    updCached s hbm stack sec fun c =>
      { c with data := mergeBytes c.data data en, dirty := true,
               stain := stain || (!decide (en % 2 ^ 32 = wholeEn) && c.stain) }
  | none => dramWrite s hbm stack sec data en stain upset rep win

/-- The channel of a sector is in its retrain window, so that an access waits in the controller's queue (R224); a sector
that the shelf holds is not an access to the channel. -/
def inWindow (s : State) (hbm : Bool) (stack sec : Nat) : Bool :=
  (cachedAt s hbm stack sec).isNone
    && (if hbm then (hbmCh s (stack / 2) (32 * (stack % 2) + hbmPch sec / 2)).retrain else (nmCh s stack (nmChan sec)).retrain)

/-- Access `i` of a stream that a controller of a tier may perform now. -/
def readyAcc (s : State) (q c : Nat) (d : StreamDir) (i : Nat) (hbm write : Bool) : Option SAcc :=
  match s.acc q c d i with
  | some a =>
    if a.phase == 2 && a.tier == b2n hbm && a.write == write && !behindSame ((s.coreOf q c).accs d) i a.addr
      && !inWindow s hbm a.stack a.place
    then some a else none
  | none => none

/-- The bank of an HBM4 sector is activated where the access opens another row (R206, R214). DESIGN CHOICE (log 89): a
row stays open until another of its bank is opened. -/
def hbmActivate (s : State) (stack sec : Nat) : State :=
  let b := (stack * 64 + hbmPch sec) * 2 ^ 16 + Config.hbmBank sec % 2 ^ 16
  let row := some (Config.hbmRow sec)
  { s with mem := { s.mem with
      hbmRow := Tbl.set none s.mem.hbmRow b row
      hbmActs := if Tbl.get none s.mem.hbmRow b = row then s.mem.hbmActs else upd 0 s.mem.hbmActs b (· + 1) } }
/-- The activation that an access of a controller brings; a sector that the shelf holds brings none. -/
def activate (s : State) (hbm : Bool) (stack sec : Nat) : State :=
  if hbm && (cachedAt s true stack sec).isNone then hbmActivate s stack sec else s

/-- A controller's read. -/
def readReq (s : State) (hbm : Bool) (r : SecReq) (upset : List (Nat × Byte)) (rep : EccReport) : State :=
  match r with
  | .stream q c d i =>
    match readyAcc s q.val c.val d i hbm false with
    | some a =>
      let (s, b, st) := ctlRead (activate s hbm a.stack a.place) hbm a.stack a.place (cluWin s q.val) upset rep
      s.updAcc q.val c.val d i fun x => { x with data := b, stain := st, phase := 3 }
    | none => s
  | .sector stack sec _ _ _ =>
    if sectorExists hbm stack sec && !inWindow s hbm stack sec then
      let (s, b, st) := ctlRead (activate s hbm stack sec) hbm stack sec none upset rep
      { s with mem := { s.mem with resp := some (b, st) } }
    else s

/-- A controller's write. -/
def writeReq (s : State) (hbm : Bool) (r : SecReq) (upset : List (Nat × Byte)) (rep : EccReport) : State :=
  match r with
  | .stream q c d i =>
    match readyAcc s q.val c.val d i hbm true with
    | some a =>
      (ctlWrite (activate s hbm a.stack a.place) hbm a.stack a.place a.data a.en a.stain upset rep (cluWin s q.val)).updAcc q.val c.val d i fun x => { x with phase := 3 }
    | none => s
  | .sector stack sec data en stain =>
    if sectorExists hbm stack sec && !inWindow s hbm stack sec then
      ctlWrite (activate s hbm stack sec) hbm stack sec data en.toNat stain upset rep
    else s

/-- NM_SECTOR_READ. -/
def execNmSectorRead (r : SecReq) (upset : List (Nat × Byte)) (s : State) : Ans :=
  .next (readReq s false r upset .clean)
/-- NM_SECTOR_WRITE. -/
def execNmSectorWrite (r : SecReq) (upset : List (Nat × Byte)) (s : State) : Ans :=
  .next (writeReq s false r upset .clean)
/-- HBM_SECTOR_READ. -/
def execHbmSectorRead (r : SecReq) (rep : EccReport) (s : State) : Ans := .next (readReq s true r [] rep)
/-- HBM_SECTOR_WRITE. -/
def execHbmSectorWrite (r : SecReq) (rep : EccReport) (s : State) : Ans := .next (writeReq s true r [] rep)

/-- PATROL_SCRUB: a correctable sector is written back corrected, an uncorrectable one is handled as by a read
(R212); a stain is never cleared (R233). -/
def execPatrolScrub (hbm : Bool) (stack sec : Nat) (upset : List (Nat × Byte)) (rep : EccReport) (s : State) : Ans :=
  if sectorExists hbm stack sec && !inWindow s hbm stack sec then
    let seen := if hbm then hbmReport s stack sec rep else .corrected
    let (s, b, st) := dramRead s hbm stack sec upset rep
    .next (match seen with
      | .clean | .escaped false _ => s
      | _ => dramStore s hbm stack sec b st)
  else .next s

/-- HBM_REFRESH_MANAGEMENT: once the activations of a bank reach the stack's threshold, the command goes to the bank
(R214). -/
def execHbmRefreshManagement (stack : Fin 16) (pch : Fin 64) (bank : Fin 65536) (s : State) : Ans :=
  let b := (stack.val * 64 + pch.val) * 2 ^ 16 + bank.val
  .next (if Config.hbmThreshold stack.val ≤ Tbl.get 0 s.mem.hbmActs b then
    { s with mem := { s.mem with hbmActs := Tbl.set 0 s.mem.hbmActs b 0 } }.emit (.refresh stack.val pch.val bank.val)
    else s)

/-! ### SRAM words (R213) -/

/-- SRAM_ACCESS: a read, or a write of the enabled bytes of a word; a whole word is written unread. -/
def execSramAccess (p : SramPlace) (write : Option (BitVec 64 × BitVec 8)) (flips : List (Fin 72)) (s : State) :
    Ans :=
  match sramSector s p with
  | none => .next s
  | some (sec, st) =>
    let o := 8 * (sramWord p % 4)
    match write with
    | some (v, en) =>
      if en = 0 ∨ isSeqReg p = true then .next s
      else if en = 0xFF then .next (sramPut s p (paste sec o (leBytes 8 v.toNat)) st)
      else
        let (s, w, st) := sramRead s p sec st (oddFlips flips) false
        let m := (List.range 8).map fun i => if en.getLsbD i then byteAt (leBytes 8 v.toNat) i else byteAt w i
        .next (sramPut s p (paste sec o m) st)
    | none =>
      let (s, l, i) := match sramInject s p with
        | some (s, l) => (s, l, true)
        | none => (s, oddFlips flips, false)
      let (s, w, d) := sramRead s p sec st l i
      .next { s with mem := { s.mem with resp := some (w, d) } }

/-! ### The shelf cache (R230, R231) -/

/-- Write back and drop the cached sectors that `p` picks. -/
def flushCache (s : State) (die : Nat) (p : Cached → Bool) : State :=
  let l := (s.dieMem die).cache
  let s := l.foldl (fun s c =>
    if p c && c.dirty then dramStore s c.hbm c.stack c.sec c.data c.stain else s) s
  s.updDieMem die fun m => { m with cache := m.cache.filter fun c => !p c }

/-- Tags that the staging of early partials takes from the cache of each base die, 16 MiB, while a reduce-scatter or a
fused norm is open (R332; log 143). -/
def stagingTags (s : State) : Nat :=
  if s.coll.ctx.any fun x => (x.op == some 2 || x.op == some 5) && !x.done then 2 ^ 16 else 0
/-- Tags of 256 bytes that the cache of a base die has room for. -/
def shelfRoom (s : State) (m : DieMem) : Nat := (6 - m.shelfWin.toNat) * 2 ^ 17 - stagingTags s
/-- Two sectors stand under one 256-byte tag. -/
def sameTag (c e : Cached) : Bool := c.hbm == e.hbm && c.stack == e.stack && c.sec / 8 == e.sec / 8
/-- The sectors that stand first under each tag of a cache. -/
def tagHeads : List Cached → List Cached
  | [] => []
  | c :: l => c :: (tagHeads l).filter fun e => !sameTag c e

/-- Evict the sectors of tag `i`. -/
def evict (s : State) (die i : Nat) : State :=
  match (tagHeads (s.dieMem die).cache)[i]? with
  | some c => flushCache s die (sameTag c)
  | none => s

/-- The sector is taken into the cache of its base die, where the tier may be cached and it is not there yet. A tag makes
room for a new one where the cache is full, or where the replacement gives one up. -/
def shelfTake (s : State) (die : Nat) (hbm : Bool) (stack sec : Nat) (evicts : Bool) (victim : Nat) : State :=
  let m := s.dieMem die
  if (if hbm then stack / 2 else stack) = die ∧ (if hbm then m.cacheHbm else m.cacheNm) = true
      ∧ (cachedAt s hbm stack sec).isNone ∧ inWindow s hbm stack sec = false then
    let new : Cached := { hbm := hbm, stack := stack, sec := sec }
    let n := (tagHeads m.cache).length
    let s := if m.cache.any (sameTag new) then s
      else if evicts || decide (shelfRoom s m ≤ n) then evict s die (victim % n)
      else s
    let (s, b, st) := dramRead (activate s hbm stack sec) hbm stack sec [] .clean
    s.updDieMem die fun m => { m with cache := m.cache ++ [{ new with data := b, stain := st }] }
  else s

/-- SHELF_CACHE_ACCESS: an access of a window to a sector of a virtual frame passes through the shelf, which takes the
sector in only where the entry has C = 1. -/
def execShelfCacheAccess (die : Die) (win : Win) (vframe : BitVec 20) (sector : Fin 65536) (evicts : Bool) (victim : Nat)
    (s : State) : Ans :=
  .next (match xlate s win.val (vframe.toNat * 2 ^ 21 + sector.val * 32 : Nat) false with
    | .ok (.nm stack sec) true => shelfTake s die.val false stack sec evicts victim
    | .ok (.hbm stack sec) true => shelfTake s die.val true stack sec evicts victim
    | _ => s)

/-- Bytes of the window of a die from `o` on lose their contents: the entries of a table are dropped. -/
def dropFrom {α : Type} (t : Tbl α) (lo hi : Nat) : Tbl α := t.filter fun e => !(decide (lo ≤ e.1) && decide (e.1 < hi))

/-- Set WINDOW and TW of a base die: a change of WINDOW empties the cache; what leaves or enters the window is
undefined and stained (log 5). -/
def setShelfWindow (s : State) (die w tw : Nat) : State :=
  let old := (s.dieMem die).shelfWin.toNat
  let s := if w = old then s else
    let s := flushCache s die fun _ => true
    let lo := min w old * 2 ^ 25
    { s with mem := { s.mem with
        shelf := dropFrom s.mem.shelf (die * 2 ^ 28 + lo) ((die + 1) * 2 ^ 28)
        shelfClean := dropFrom s.mem.shelfClean (die * 2 ^ 23 + lo / 32) ((die + 1) * 2 ^ 23) } }
  s.updDieMem die fun m => { m with shelfWin := BitVec.ofNat 3 w, shelfTw := BitVec.ofNat 4 tw }

/-- Set CACHE_NM and CACHE_HBM: a change from 1 to 0 writes back and drops the tier's sectors. -/
def setShelfCaching (s : State) (die : Nat) (nm hbm : Bool) : State :=
  let s := if nm then s else flushCache s die fun c => !c.hbm
  let s := if hbm then s else flushCache s die fun c => c.hbm
  s.updDieMem die fun m => { m with cacheNm := nm, cacheHbm := hbm }

/-- Write of `SHELF_CFG`; WINDOW and TW stay while `locked`. -/
def shelfWriteWith (s : State) (die v : Nat) (locked : Bool) : State :=
  let m := s.dieMem die
  let w := if seg v 2 0 ≤ 5 then seg v 2 0 else m.shelfWin.toNat
  let s := if locked then s else setShelfWindow s die w (seg v 7 4)
  setShelfCaching s die (bitAt v 8) (bitAt v 9)

/-- Write of `SHELF_CFG` (R231). -/
def shelfWrite (s : State) (die v : Nat) : State :=
  shelfWriteWith s die v ((s.jobAt (s.dieMem die).shelfTw.toNat).running || (s.jobAt (seg v 7 4)).running)

/-- SHELF_CFG_WRITE. -/
def execShelfCfgWrite (a : Agent) (die : Die) (v : Word) (s : State) : Ans :=
  .next (if isMp a then shelfWrite s die.val v.toNat else s)

end Sys2Proof.Machine
end

