-- ==== Sys2Proof/Machine/Org.lean ====
section
/-!
DEFINITION. The commands and registers of 01_organisation.md: field patch requests (R33–R38), the map report
(R47), and the die-to-die links (R24, R25).
-/
namespace Sys2Proof.Machine
open Sys2Proof

/-! ### Field patches (R33–R38) -/

/-- The copy with the higher sequence number whose checksum holds is copy 1 (R35). -/
def Org.newest (o : Org) : Bool :=
  if o.copy0.good && o.copy1.good then decide (o.copy0.seq < o.copy1.seq) else o.copy1.good
/-- That copy of the record. -/
def Org.copy (o : Org) : PatchCopy := if o.newest then o.copy1 else o.copy0
/-- A write updates the older copy. -/
def Org.putCopy (o : Org) (c : PatchCopy) : Org := if o.newest then { o with copy0 := c } else { o with copy1 := c }

/-- Units that the record holds, with the one being written. -/
def Org.recorded (o : Org) : List PhysUnit := o.copy.entries ++ o.writing.toList
/-- Entries of the record, with the one being written. -/
def Org.size (o : Org) : Nat := o.recorded.length + o.copy.chans.length

/-- A request for a physical unit: refused while one is busy or the record is full; a unit that is already
recorded adds nothing (R36, R37). DESIGN CHOICE (log 131): a unit that is recorded already completes with REQ_DONE also
where the record holds 64 entries, where both clauses of R37 apply. -/
def patchUnit (o : Org) (u : PhysUnit) : Org :=
  if o.busy then { o with reject := true }
  else if o.recorded.contains u then { o with busy := true, writing := none }
  else if 64 ≤ o.size then { o with reject := true }
  else { o with busy := true, writing := some u }

/-- The firmware records the next unit that a pattern book found faulty, once no request is busy (R407). -/
def nextBookPatch (o : Org) : Org :=
  match o.bookPatches with
  | [] => o
  | u :: rest => if o.busy then o else patchUnit { o with bookPatches := rest } u

/-- The physical unit that a logical request names (R33, Table 1.12), none where it is refused (R37). DESIGN CHOICE
(log 131): a logical unit that nothing backs is refused too, of which R33 says nothing. -/
def patchTarget (s : State) (v : Nat) : Option PhysUnit :=
  let d := seg v 2 0
  let lr := seg v 7 3
  let lc := seg v 11 8
  let c := seg v 16 12
  if 20 ≤ lr then none
  else
    match seg v 18 17 with
    | 0 => (physCore s d lr lc c).map fun (r, k, p) =>
        .core (Fin.ofNat 8 d) (Fin.ofNat 21 r) (Fin.ofNat 17 k) (Fin.ofNat 34 p)
    | 1 => (physCluster s d lr lc).map fun (r, k) => .cluster (Fin.ofNat 8 d) (Fin.ofNat 21 r) (Fin.ofNat 17 k)
    | 2 => (physRegion s d lr).map fun r => .region (Fin.ofNat 8 d) (Fin.ofNat 21 r)
    | _ => none

/-- The physical unit that `ORG_PATCH_REQ_PHYS` names (R38, Table 1.15), none where it is refused. -/
def patchPhysTarget (v : Nat) : Option PhysUnit :=
  let d := Fin.ofNat 8 (seg v 18 16)
  let r := seg v 15 11
  let k := seg v 10 6
  let c := seg v 5 0
  match seg v 20 19 with
  | 0 => if r < 21 ∧ k < 17 ∧ c < 34 then some (.core d (Fin.ofNat 21 r) (Fin.ofNat 17 k) (Fin.ofNat 34 c)) else none
  | 1 => if r < 21 ∧ k < 17 then some (.cluster d (Fin.ofNat 21 r) (Fin.ofNat 17 k)) else none
  | 2 => if r < 21 then some (.region d (Fin.ofNat 21 r)) else none
  | _ => none

/-- A patch request with its target: nothing without GO, `REQ_REJECT` where it is refused. -/
def patchReq (s : State) (v : Nat) (target : Option PhysUnit) : State :=
  if bitAt v 31 then
    match target with
    | some u => { s with org := patchUnit s.org u }
    | none => { s with org := { s.org with reject := true } }
  else s

/-- Write of `ORG_PATCH_REQ`. -/
def orgPatchWrite (s : State) (v : Nat) : State := patchReq s v (patchTarget s v)
/-- Write of `ORG_PATCH_REQ_PHYS`. -/
def orgPatchPhysWrite (s : State) (v : Nat) : State := patchReq s v (patchPhysTarget v)

/-- ORG_PATCH_REQ. -/
def execOrgPatchReq (a : Agent) (v : Word) (s : State) : Ans :=
  .next (if mgmt a then orgPatchWrite s v.toNat else s)

/-- ORG_PATCH_REQ_PHYS. -/
def execOrgPatchReqPhys (a : Agent) (v : Word) (s : State) : Ans :=
  .next (if mgmt a then orgPatchPhysWrite s v.toNat else s)

/-- The flash write of a request finishes: the older copy holds the new record, which awaits the next reset (R34–R37). -/
def patchWritten (o : Org) : Org :=
  if o.busy then
    match o.writing with
    | none => { o with busy := false, done := true }
    | some u =>
      { o.putCopy { o.copy with seq := o.copy.seq + 1, good := true, entries := o.copy.entries ++ [u] } with
        busy := false, done := true, pending := true, writing := none }
  else o

/-- PATCH_FLASH_WRITE_COMPLETE. -/
def execPatchFlashWriteComplete (s : State) : Ans := .next { s with org := nextBookPatch (patchWritten s.org) }

/-! ### Registers (Tables 1.8–1.15) -/

/-- `ORG_MAP_RESULT` for a query (Table 1.14). DESIGN CHOICE (log 132): between a reset and the derivation of the map
(and in shuttered mode, which derives none) no record is in force, and the map of the fuses alone is reported. -/
def mapResult (s : State) (id : Nat) : Nat :=
  match physCore s (seg id 16 14) (seg id 13 9) (seg id 8 5) (seg id 4 0) with
  | some (r, k, p) => 2 ^ 31 + 2 ^ 16 * seg id 16 14 + 2 ^ 11 * r + 2 ^ 6 * k + p
  | none => 0

/-- `ORG_PATCH_STATUS` (Table 1.11). -/
def patchStatus (o : Org) : Nat :=
  o.inForce.length + o.inForceChans.length + 2 ^ 7 * b2n o.pending + 2 ^ 8 * b2n o.busy + 2 ^ 9 * b2n o.done + 2 ^ 10 * b2n o.reject
    + 2 ^ 11 * b2n (o.copy.entries.length + o.copy.chans.length == 64) + 2 ^ 12 * b2n o.active

/-- Registers of the ORG block. -/
def orgReg (s : State) (a : Agent) (o : Nat) : Option Reg :=
  let f := s.fuse
  match o with
  | 0x00 => Reg.ro (2 ^ 8 * f.stepMinor.toNat + 2 ^ 12 * f.stepMajor.toNat + 2 ^ 16 * f.part.toNat)
  | 0x04 => Reg.ro (f.grade.toNat + 2 ^ 8 * f.fmax.toNat + 2 ^ 16 * f.fmin.toNat)
  | 0x08 => Reg.ro64 f.serial.toNat
  | _ =>
    if mgmt a then
      match o with
      | 0x10 => Reg.rw (patchStatus s.org) fun v =>
          { s with org := { s.org with done := s.org.done && !bitAt v 9, reject := s.org.reject && !bitAt v 10 } }
      | 0x14 => Reg.wo_ (orgPatchWrite s)
      | 0x18 => Reg.rw (Tbl.get 0 s.org.query (agNum a)).toNat fun v =>
          { s with org := { s.org with query := Tbl.set 0 s.org.query (agNum a) (BitVec.ofNat 17 v) } }
      | 0x1C => Reg.ro (mapResult s (Tbl.get 0 s.org.query (agNum a)).toNat)
      | 0x20 => Reg.wo_ (orgPatchPhysWrite s)
      | _ => none
    else none

/-! ### Die-to-die links (R22–R25) -/

/-- UCIe modules of a link (Table 1.2). -/
def d2dModules (l : Nat) : Nat := if l < 4 then 8 else 4
/-- The two dies that a link joins, 8 for the I/O die (Table 1.2). -/
def d2dEnds (l : Nat) : Nat × Nat :=
  if l < 4 then (l, l + 4) else if l < 8 then (l, (l - 3) % 4) else (l - 8, 8)
/-- The base die that Table 1.2 names first of a link's ends. -/
def d2dDie (l : Nat) : Nat := (d2dEnds l).1

/-- D2D_LANE_FAILURE: the module runs at x8, or is disabled; a ledger entry is written (R25). -/
def execD2dLaneFailure (link : Fin 16) (module : Fin 8) (runsAtX8 : Bool) (s : State) : Ans :=
  if module.val < d2dModules link.val && !(Tbl.get {} s.d2d link.val).off.getLsbD module.val then
    let b : BitVec 8 := BitVec.ofNat 8 (2 ^ module.val)
    let s := { s with d2d := upd {} s.d2d link.val fun l =>
      if runsAtX8 then { l with half := l.half ||| b } else { l with off := l.off ||| b, half := l.half &&& ~~~b } }
    .next (corrected s (srcUnit (d2dDie link.val) unitD2d) (link.val + 16 * module.val + 2 ^ 8 * b2n runsAtX8))
  else .next s

end Sys2Proof.Machine
end

