-- ==== Sys2Proof/Machine/Channel.lean ====
section
/-!
DEFINITION. DRAM channels: spares and darns (R217–R220), calibration bands and retrain windows (R221–R225); and the
registers of the MEM, SHELF and NM blocks (R235–R237, Tables 7.8–7.15).
-/
namespace Sys2Proof.Machine
open Sys2Proof

/-! ### Bands (R221, Table 7.7) -/

/-- Lower bound of a band, in units of 1/4 °C. -/
def bandBound : Nat → Int
  | 0 => -10000
  | 1 => 200
  | 2 => 280
  | _ => 340

/-- The highest band whose lower bound a temperature reaches. -/
def bandReached (t : Int) : Nat := if 340 ≤ t then 3 else if 280 ≤ t then 2 else if 200 ≤ t then 1 else 0

/-- The band after a reading: up when a bound is reached, down from a band when the temperature falls 3 °C below its
bound. -/
def bandDown (t : Int) : Nat → Nat
  | 0 => 0
  | b + 1 => if t ≤ bandBound (b + 1) - 12 then bandDown t b else b + 1

/-- The band after a reading of `t` in band `b`. -/
def nextBand (b : Nat) (t : Int) : Nat := bandDown t (max b (bandReached t))

/-! ### Channels -/

/-- State of a channel. -/
def chanAt (s : State) : Chan → ChanSt
  | .nm d c => nmCh s d.val c.val
  | .hbm d c => hbmCh s d.val c.val
/-- Change it. -/
def updChan (s : State) (ch : Chan) (f : ChanSt → ChanSt) : State :=
  match ch with
  | .nm d c => updNmCh s d.val c.val f
  | .hbm d c => updHbmCh s d.val c.val f
/-- Base die of a channel. -/
def chanDie : Chan → Nat
  | .nm d _ => d.val
  | .hbm d _ => d.val
/-- The near-memory die or HBM4 stack of a channel, on which one window at a time is open (R224). -/
def chanGroup : Chan → Nat
  | .nm _ c => c.val / 32
  | .hbm _ c => 4 + c.val / 32

/-- The channel is in a band without a calibration: its rate is halved and a window is requested (R223). -/
def enterUncal (s : State) (ch : Chan) : State :=
  let c := chanAt s ch
  if c.cal.getLsbD c.band.toNat then s
  else
    let s := updChan s ch fun c => { c with half := true, pending := true }
    s.updDieMem (chanDie ch) fun m => if m.asked.contains ch then m else { m with asked := m.asked ++ [ch] }

/-- A reading of a channel's temperature, in units of 1/4 °C. -/
def chanTemp (s : State) (ch : Chan) (t : Int) : State :=
  let c := chanAt s ch
  let b := nextBand c.band.toNat t
  if b = c.band.toNat then s
  else
    let nb : BitVec 2 := BitVec.ofNat 2 b
    let s := updChan s ch fun c =>
      { c with band := nb, usedBand := if c.cal.getLsbD b && !c.retrain then nb else c.usedBand }
    if c.retrain then s else enterUncal s ch

/-- CHANNEL_TEMP_SAMPLE. -/
def execChannelTempSample (ch : Chan) (temp : Int) (s : State) : Ans := .next (chanTemp s ch temp)

/-- Some channel of the same die or stack has its window open. -/
def groupBusy (s : State) (ch : Chan) : Bool :=
  let m := s.dieMem (chanDie ch)
  match ch with
  | .nm _ _ => m.nm.any fun e => e.2.retrain && e.1 / 32 == chanGroup ch
  | .hbm _ _ => m.hbm.any fun e => e.2.retrain && 4 + e.1 / 32 == chanGroup ch

/-- MEM_RETRAIN_WINDOW_OPEN: the oldest request of the die or stack opens its window while none is open (R224). -/
def execMemRetrainWindowOpen (ch : Chan) (s : State) : Ans :=
  let m := s.dieMem (chanDie ch)
  if m.asked.find? (fun x => chanGroup x == chanGroup ch) = some ch ∧ groupBusy s ch = false then
    let s := s.updDieMem (chanDie ch) fun m => { m with asked := m.asked.filter (· != ch) }
    .next (updChan s ch fun c => { c with pending := false, retrain := true, winBand := c.band })
  else .next s

/-! ### Darns (R219, R220) -/

/-- The firmware records a field patch of a near-memory channel, which takes effect at the next reset. -/
def patchChannel (s : State) (d c : Nat) : State :=
  let key := (d, 33 * (c / 32) + (nmCh s d c).phys.toNat)
  let o := s.org
  if o.copy.chans.contains key || decide (64 ≤ o.size) then s
  else
    let o := o.putCopy { o.copy with seq := o.copy.seq + 1, good := true, chans := o.copy.chans ++ [key] }
    updNmCh { s with org := { o with pending := true } } d c fun x => { x with mapoutPend := true }

/-- No spare lane is left for a marked lane. -/
def exhaust (s : State) (d c : Nat) : State :=
  patchChannel (updNmCh s d c fun x => { x with exhausted := true }) d c

/-- Mark a lane for darning. -/
def markLane (s : State) (d c l : Nat) : State :=
  let x := nmCh s d c
  if x.marked.contains l || x.darned.contains l then s
  else if 2 ≤ x.darns.toNat then exhaust s d c
  else updNmCh s d c fun x => { x with marked := x.marked ++ [l] }

/-- Darn the marked lanes of a channel; each darn is recorded and writes a ledger entry. -/
def darnLanes (s : State) (d c : Nat) : State :=
  let s := (nmCh s d c).marked.foldl (fun s l =>
    if 2 ≤ (nmCh s d c).darns.toNat then exhaust s d c
    else
      let s := updNmCh s d c fun x => { x with darns := x.darns + 1, darned := x.darned ++ [l] }
      let s := s.updDieMem d fun m => { m with record := upd [] m.record (33 * (c / 32) + (nmCh s d c).phys.toNat) (· ++ [l]) }
      corrected s (srcUnit d unitNm) (c + 2 ^ 8 * l + 2 ^ 15)) s
  updNmCh s d c fun x => { x with marked := [] }

/-- NM_DARN_EPOCH_END: lanes whose corrected errors exceed THR are marked; the counts start again. -/
def execNmDarnEpochEnd (die : Die) (s : State) : Ans :=
  let m := s.dieMem die.val
  let thr := m.darnThr.toNat
  let s := m.nm.foldl (fun s e =>
    e.2.lane.foldl (fun s l => if thr ≠ 0 ∧ thr < l.2 then markLane s die.val e.1 l.1 else s) s) s
  .next (m.nm.foldl (fun s e => updNmCh s die.val e.1 fun x => { x with lane := [] }) s)

/-- MEM_RETRAIN_WINDOW_CLOSE: the band in which the window opened is calibrated, pending darns are made and the
halved rate ends; a new band without a calibration asks again (R223, R225). -/
def execMemRetrainWindowClose (ch : Chan) (s : State) : Ans :=
  let c := chanAt s ch
  if c.retrain then
    let cal : BitVec 4 := c.cal ||| BitVec.ofNat 4 (2 ^ c.winBand.toNat)
    let s := updChan s ch fun c =>
      { c with cal := cal, retrain := false, half := false,
               usedBand := if cal.getLsbD c.band.toNat then c.band else c.winBand }
    let s := match ch with
      | .nm d c => darnLanes s d.val c.val
      | .hbm _ _ => s
    .next (enterUncal s ch)
  else .next s

/-! ### Registers -/

/-- `NM_CH_STATUS` (Table 7.13). -/
def nmStatus (c : ChanSt) : Nat :=
  c.band.toNat + 2 ^ 2 * c.cal.toNat + 2 ^ 6 * b2n c.half + 2 ^ 7 * b2n c.retrain + 2 ^ 8 * b2n c.pending
    + 2 ^ 9 * c.darns.toNat + 2 ^ 11 * b2n c.exhausted + 2 ^ 12 * b2n c.mapoutPend + 2 ^ 13 * c.phys.toNat

/-- Base of the NM block of die `d` (Table 14.2). -/
def nmBase (d : Nat) : Nat := 0x58000 + 0x1000 * d

/-- `NM_COUPLE_n` of die `d`. -/
def coupleMask (s : State) (d n : Nat) : Nat :=
  ((Tbl.get none (s.dieMem d).couple n).getD (Tbl.get 0 s.fuse.couple (24 * d + n))).toNat

/-- Registers of the NM block of base die `d`. -/
def nmReg (s : State) (a : Agent) (d o : Nat) : Option Reg :=
  if !mgmt a then none
  else if o = 0x00 then
    Reg.rw (selOf s a (nmBase d)) fun v => setSel s a (nmBase d) (v % 128)
  else if o = 0x04 then Reg.ro (nmStatus (nmCh s d (selOf s a (nmBase d))))
  else if o = 0x08 then
    Reg.rwIf (isMp a) (s.dieMem d).darnThr.toNat fun v => s.updDieMem d fun m => { m with darnThr := BitVec.ofNat 16 v }
  else if o = 0x20 then
    Reg.rw (selOf s a (nmBase d + 0x20)) fun v => setSel s a (nmBase d + 0x20) (v % 64)
  else if o = 0x24 then Reg.ro (nmStatus (hbmCh s d (selOf s a (nmBase d + 0x20))) % 2 ^ 9)
  else if 0x40 ≤ o ∧ o < 0x40 + 96 ∧ o % 4 = 0 then
    let n := (o - 0x40) / 4
    Reg.rwIf (isMp a) (coupleMask s d n) fun v =>
      s.updDieMem d fun m => { m with couple := Tbl.set none m.couple n (some (BitVec.ofNat 21 v)) }
  else none

/-- Registers of the SHELF block of base die `d`. -/
def shelfReg (s : State) (a : Agent) (d o : Nat) : Option Reg :=
  let m := s.dieMem d
  if mgmt a && o == 0 then
    Reg.rwIf (isMp a)
      (m.shelfWin.toNat + 2 ^ 4 * m.shelfTw.toNat + 2 ^ 8 * b2n m.cacheNm + 2 ^ 9 * b2n m.cacheHbm) (shelfWrite s d)
  else none

/-- Write of `MEM_TW_CFG_n`. -/
def twCfgWrite (s : State) (n v : Nat) : State :=
  let b : BitVec 16 := BitVec.ofNat 16 (2 ^ n)
  { s with mem := { s.mem with
      twJob := Tbl.set 0 s.mem.twJob n (BitVec.ofNat 16 v)
      twEn := if bitAt v 16 then s.mem.twEn ||| b else s.mem.twEn &&& ~~~b } }

/-- Registers of the MEM block, but for the accounting registers. -/
def memReg (s : State) (a : Agent) (o : Nat) : Option Reg :=
  let m := s.mem
  if !mgmt a then none
  else if o < 0x40 ∧ o % 4 = 0 then
    Reg.rwIf (isMp a) ((Tbl.get 0 m.twJob (o / 4)).toNat + 2 ^ 16 * b2n (m.twEn.getLsbD (o / 4))) (twCfgWrite s (o / 4))
  else if o = 0x40 then Reg.ro64 m.fltAddr.toNat
  else if o = 0x48 then
    Reg.rwIf (isMp a)
      (m.fltKind.toNat + 2 ^ 4 * m.fltWin.toNat + 2 ^ 8 * b2n m.fltWrite + 2 ^ 9 * b2n m.fltValid
        + 2 ^ 10 * m.fltCount.toNat)
      fun v => if bitAt v 9 then { s with mem := { m with fltValid := false, fltCount := 0 } } else s
  else none

end Sys2Proof.Machine
end

