-- ==== Sys2Proof/Machine/Ledger.lean ====
section
/-!
DEFINITION. The ledgers (R397–R401, R427, R428, R524): the taking of reports, summary tables, the forwarding of region
entries, and the registers of the LDG, INJ and FIT blocks.
-/
namespace Sys2Proof.Machine
open Sys2Proof

/-! ### Summaries (R399–R401, Table 13.4) -/

/-- Merge a report into a summary table of `n` entries; none where its key is absent and every entry is in use. -/
def mergeSummary (n : Nat) (t : Tbl Summary) (r : Report) : Option (Tbl Summary) :=
  let flags := r.flags &&& 0x0B
  match t.find? fun e => e.2.src == r.src && e.2.cls == r.cls with
  | some (i, u) => some (Tbl.put t i
      { u with sev := if u.sev.toNat < r.sev.toNat then r.sev else u.sev, flags := u.flags ||| flags
               count := satTo 32 (u.count + 1), last := r.time })
  | none =>
    match (List.range n).find? fun i => !t.any (·.1 == i) with
    | some i => some (Tbl.put t i
        { src := r.src, cls := r.cls, sev := r.sev, flags := flags, count := 1, first := r.time, last := r.time })
    | none => none

/-- The entry that a summary entry becomes (R401). -/
def summaryReport (u : Summary) : Report :=
  { time := u.last, cls := u.cls, sev := u.sev, flags := (u.flags &&& 0x0B) ||| 4, src := u.src, job := 0, win := 0xFF
    detail := BitVec.ofNat 64 (u.count + 2 ^ 32 * (u.first.toNat % 2 ^ 32)) }

/-- The oldest report of the next queue to serve, and the queues with that one last (R398). -/
def serveQueue : List RepQueue → Option (Report × List RepQueue)
  | [] => none
  | q :: t =>
    match q.reps with
    | r :: rest => some (r, t ++ (if rest = [] then [] else [{ q with reps := rest }]))
    | [] => serveQueue t

/-! ### Region ledgers (R399) -/

/-- Move summary entries into a region ledger while it has room. -/
def regionMove (l : RegLedger) : RegLedger :=
  let n := 256 - l.entries.length
  { l with entries := l.entries ++ (l.summary.take n).map fun e => summaryReport e.2, summary := l.summary.drop n }

/-- A region ledger takes one report. -/
def regionTake (l : RegLedger) : RegLedger :=
  let l := regionMove l
  match serveQueue l.queues with
  | none => l
  | some (r, qs) =>
    let l := { l with queues := qs }
    if l.entries.length < 256 then { l with entries := l.entries ++ [r] }
    else
      match mergeSummary 16 l.summary r with
      | some t => { l with summary := t }
      | none => { l with lost := l.lost + 1 }

/-! ### The device ledger (R400, R401) -/

/-- Detector number of the queue of forwarded entries. -/
def fwdDet : Nat := 2 ^ 40

/-- Hold a report as an entry with the next SEQNO. -/
def deviceHold (l : Ldg) (r : Report) : Ldg :=
  { l with entries := l.entries ++ [{ rep := r, seqno := l.nextSeq }], nextSeq := l.nextSeq + 1 }

/-- Move summary entries into the device ledger while it has room (R401). -/
def deviceMove (l : Ldg) : Ldg :=
  let n := 4096 - l.entries.length
  (l.summary.take n).foldl (fun l e => deviceHold l (summaryReport e.2)) { l with summary := l.summary.drop n }

/-- The device ledger accepts a report (R400). -/
def deviceAccept (l : Ldg) (r : Report) : Ldg :=
  let held := decide (l.entries.length < 4096)
  let e : Entry := { rep := if held then r else { r with flags := r.flags ||| 0x10 }, seqno := l.nextSeq }
  let l := { l with first := l.first.orElse fun _ => some e, last := some e }
  if held then deviceHold l r
  else
    let l := { l with full := true }
    match mergeSummary 64 l.summary r with
    | some t => { l with summary := t }
    | none => { l with lost := l.lost + 1 }

/-- The device ledger takes one report. -/
def deviceTake (l : Ldg) : Ldg :=
  match serveQueue l.queues with
  | none => l
  | some (r, qs) => deviceAccept { l with queues := qs } r

/-- LEDGER_TAKE_REPORT. -/
def execLedgerTakeReport (l : LedgerId) (s : State) : Ans :=
  match l with
  | .device => .next { s with ldg := deviceTake s.ldg }
  | .region d r => .next { s with regLdg := upd {} s.regLdg (21 * d.val + r.val) regionTake }

/-- Add an entry to the queue of forwarded entries, which has no limit. -/
def forwardTo (r : Report) : List RepQueue → List RepQueue
  | [] => [{ det := fwdDet, reps := [r] }]
  | q :: t => if q.det = fwdDet then { q with reps := q.reps ++ [r] } :: t else q :: forwardTo r t

/-- Forward the oldest entry of a region, with its lost-report count (R399). -/
def forwardRegion (s : State) (key : Nat) : State :=
  let l := Tbl.get {} s.regLdg key
  match l.entries with
  | [] => s
  | r :: rest =>
    { s with
      regLdg := Tbl.set {} s.regLdg key (regionMove { l with entries := rest, lost := 0 })
      ldg := { s.ldg with queues := forwardTo r s.ldg.queues, lost := s.ldg.lost + BitVec.ofNat 64 l.lost } }

/-- REGION_LEDGER_FORWARD: the next region of the die, round-robin in ascending number, that holds an entry. -/
def execRegionLedgerForward (die : Die) (s : State) : Ans :=
  let start := Tbl.get 0 s.fwdNext die.val
  match ((List.range 21).map fun i => (start + i) % 21).find? fun r =>
      (Tbl.get {} s.regLdg (21 * die.val + r)).entries != [] with
  | some r => .next { forwardRegion s (21 * die.val + r) with fwdNext := Tbl.set 0 s.fwdNext die.val ((r + 1) % 21) }
  | none => .next s

/-! ### Registers (R427, R428, R524) -/

/-- A write of `LDG_HEAD`: the oldest entries are freed, then summary entries move in (R401, R428). -/
def ldgHead (l : Ldg) (v : Nat) : Ldg := deviceMove { l with entries := l.entries.drop (v % 2 ^ 13) }
/-- A write of `LDG_CLR`. -/
def ldgClr (l : Ldg) (v : Nat) : Ldg :=
  { l with first := if bitAt v 0 then none else l.first, lost := if bitAt v 1 then 0 else l.lost }

/-- LDG_HEAD_WRITE: function 1 may write it too (R427). -/
def execLdgHeadWrite (a : Agent) (v : Word) (s : State) : Ans :=
  if mgmt a then .next { s with ldg := ldgHead s.ldg v.toNat } else .next s
/-- LDG_CLR_FIRST. -/
def execLdgClrFirst (a : Agent) (v : Word) (s : State) : Ans :=
  if mgmt a then .next { s with ldg := ldgClr s.ldg v.toNat } else .next s
/-- LDG_CLR_LOST. -/
def execLdgClrLost (a : Agent) (v : Word) (s : State) : Ans :=
  if mgmt a then .next { s with ldg := ldgClr s.ldg v.toNat } else .next s

/-- The 32 bytes of an entry (Table 13.3). -/
def entryBytes (e : Entry) : List Byte :=
  let r := e.rep
  leBytes 8 r.time.toNat ++ leBytes 2 r.cls.toNat ++ leBytes 1 r.sev.toNat ++ leBytes 1 r.flags.toNat
    ++ leBytes 4 r.src.toNat ++ leBytes 2 r.job.toNat ++ leBytes 1 r.win.toNat ++ leBytes 1 r.hi.toNat
    ++ leBytes 4 e.seqno.toNat ++ leBytes 8 r.detail.toNat

/-- The 32 bytes of a summary entry (Table 13.4). -/
def summaryBytes (u : Summary) : List Byte :=
  leBytes 4 u.src.toNat ++ leBytes 2 u.cls.toNat ++ leBytes 1 u.sev.toNat ++ leBytes 1 u.flags.toNat
    ++ leBytes 4 u.count ++ zeros 4 ++ leBytes 8 u.first.toNat ++ leBytes 8 u.last.toNat

/-- A word of 32 bytes that may be absent. -/
def slotWord (b : Option (List Byte)) (o : Nat) : Option Reg := Reg.ro (fieldAt (b.getD []) (o % 32) 4)

/-- `LDG_STATUS`. -/
def ldgStatus (l : Ldg) : Nat :=
  l.entries.length + 2 ^ 13 * l.summary.length + 2 ^ 20 * b2n l.full + 2 ^ 21 * b2n l.first.isSome

/-- Registers of the LDG block. -/
def ldgReg (s : State) (a : Agent) (o : Nat) : Option Reg :=
  let l := s.ldg
  if !mgmt a then none
  else if 0x1000 ≤ o then
    if o < 0x1000 + 32 * 4096 then
      slotWord ((l.entries.find? fun e => e.seqno.toNat % 4096 == (o - 0x1000) / 32).map entryBytes) o
    else none
  else if 0x800 ≤ o then slotWord ((l.summary.find? fun e => e.1 == (o - 0x800) / 32).map fun e => summaryBytes e.2) o
  else if 0x100 ≤ o ∧ o < 0x120 then slotWord (l.first.map entryBytes) o
  else if 0x120 ≤ o ∧ o < 0x140 then slotWord (l.last.map entryBytes) o
  else
    match o with
    | 0x00 => Reg.rwIf (isMp a) (ldgStatus l) fun v => { s with ldg := { l with full := l.full && !bitAt v 20 } }
    | 0x04 => Reg.wo_ fun v => { s with ldg := ldgHead l v }
    | 0x08 => Reg.wo_ fun v => { s with ldg := ldgClr l v }
    | 0x10 => Reg.ro64 l.lost.toNat
    | _ => none

/-- Registers of the INJ block. -/
def injReg (s : State) (a : Agent) (o : Nat) : Option Reg :=
  if mgmt a ∧ o = 0 then
    Reg.rw64 s.guard.injEn.toNat fun v => { s with guard := { s.guard with injEn := BitVec.ofNat 64 v } }
  else none

/-- Registers of the FIT block. -/
def fitReg (s : State) (a : Agent) (o : Nat) : Option Reg :=
  if mgmt a ∧ o = 0 then
    Reg.rw (s.guard.fitRate.toNat + 2 ^ 24 * b2n s.guard.holdAll) fun v =>
      { s with guard := { s.guard with fitRate := BitVec.ofNat 24 v, holdAll := bitAt v 24 } }
  else none

end Sys2Proof.Machine
end

