-- ==== Sys2Proof/Machine/Crypto.lean ====
section
/-!
DEFINITION. SHA-384 and the check of an ECDSA signature over curve P-384, which R405 and R498 name by their
standards. PRESUMED (log 9): the algorithms and constants are those of FIPS 180-4 and FIPS 186-5, whose text the
spec does not repeat.
-/
namespace Sys2Proof.Machine
open Sys2Proof

/-! ### SHA-384 -/

/-- Round constants 0–19. -/
def shaK0 : List (BitVec 64) := [
  0x428A2F98D728AE22, 0x7137449123EF65CD, 0xB5C0FBCFEC4D3B2F, 0xE9B5DBA58189DBBC,
  0x3956C25BF348B538, 0x59F111F1B605D019, 0x923F82A4AF194F9B, 0xAB1C5ED5DA6D8118,
  0xD807AA98A3030242, 0x12835B0145706FBE, 0x243185BE4EE4B28C, 0x550C7DC3D5FFB4E2,
  0x72BE5D74F27B896F, 0x80DEB1FE3B1696B1, 0x9BDC06A725C71235, 0xC19BF174CF692694,
  0xE49B69C19EF14AD2, 0xEFBE4786384F25E3, 0x0FC19DC68B8CD5B5, 0x240CA1CC77AC9C65]

/-- Round constants 20–39. -/
def shaK1 : List (BitVec 64) := [
  0x2DE92C6F592B0275, 0x4A7484AA6EA6E483, 0x5CB0A9DCBD41FBD4, 0x76F988DA831153B5,
  0x983E5152EE66DFAB, 0xA831C66D2DB43210, 0xB00327C898FB213F, 0xBF597FC7BEEF0EE4,
  0xC6E00BF33DA88FC2, 0xD5A79147930AA725, 0x06CA6351E003826F, 0x142929670A0E6E70,
  0x27B70A8546D22FFC, 0x2E1B21385C26C926, 0x4D2C6DFC5AC42AED, 0x53380D139D95B3DF,
  0x650A73548BAF63DE, 0x766A0ABB3C77B2A8, 0x81C2C92E47EDAEE6, 0x92722C851482353B]

/-- Round constants 40–59. -/
def shaK2 : List (BitVec 64) := [
  0xA2BFE8A14CF10364, 0xA81A664BBC423001, 0xC24B8B70D0F89791, 0xC76C51A30654BE30,
  0xD192E819D6EF5218, 0xD69906245565A910, 0xF40E35855771202A, 0x106AA07032BBD1B8,
  0x19A4C116B8D2D0C8, 0x1E376C085141AB53, 0x2748774CDF8EEB99, 0x34B0BCB5E19B48A8,
  0x391C0CB3C5C95A63, 0x4ED8AA4AE3418ACB, 0x5B9CCA4F7763E373, 0x682E6FF3D6B2B8A3,
  0x748F82EE5DEFB2FC, 0x78A5636F43172F60, 0x84C87814A1F0AB72, 0x8CC702081A6439EC]

/-- Round constants 60–79. -/
def shaK3 : List (BitVec 64) := [
  0x90BEFFFA23631E28, 0xA4506CEBDE82BDE9, 0xBEF9A3F7B2C67915, 0xC67178F2E372532B,
  0xCA273ECEEA26619C, 0xD186B8C721C0C207, 0xEADA7DD6CDE0EB1E, 0xF57D4F7FEE6ED178,
  0x06F067AA72176FBA, 0x0A637DC5A2C898A6, 0x113F9804BEF90DAE, 0x1B710B35131C471B,
  0x28DB77F523047D84, 0x32CAAB7B40C72493, 0x3C9EBE0A15C9BEBC, 0x431D67C49C100D4C,
  0x4CC5D4BECB3E42B6, 0x597F299CFC657E2A, 0x5FCB6FAB3AD6FAEC, 0x6C44198C4A475817]

/-- The eighty round constants. -/
def shaK : List (BitVec 64) := shaK0 ++ shaK1 ++ shaK2 ++ shaK3

/-- The eight chaining words of SHA-384 at the start. -/
def shaInit : List (BitVec 64) := [
  0xCBBB9D5DC1059ED8, 0x629A292A367CD507, 0x9159015A3070DD17, 0x152FECD8F70E5939,
  0x67332667FFC00B31, 0x8EB44A8768581511, 0xDB0C2E0D64F98FA7, 0x47B5481DBEFA4FA4]

/-- A value from its bytes, the first the most significant. -/
def beNat (l : List Byte) : Nat := l.foldl (fun a b => 256 * a + b.toNat) 0

/-- The message schedule: each new word from the sixteen before it, which are listed oldest first. -/
def shaSchedule : Nat → List (BitVec 64) → List (BitVec 64)
  | 0, _ => []
  | n + 1, w =>
    let a := w.getD 1 0
    let b := w.getD 14 0
    let s0 := a.rotateRight 1 ^^^ a.rotateRight 8 ^^^ (a >>> 7)
    let s1 := b.rotateRight 19 ^^^ b.rotateRight 61 ^^^ (b >>> 6)
    let x := w.getD 0 0 + s0 + w.getD 9 0 + s1
    w.getD 0 0 :: shaSchedule n (w.drop 1 ++ [x])

/-- One round on the eight working words a–h. -/
def shaRound (h : List (BitVec 64)) (kw : BitVec 64) : List (BitVec 64) :=
  match h with
  | [a, b, c, d, e, f, g, x] =>
    let s1 := e.rotateRight 14 ^^^ e.rotateRight 18 ^^^ e.rotateRight 41
    let t1 := x + s1 + ((e &&& f) ^^^ (~~~e &&& g)) + kw
    let s0 := a.rotateRight 28 ^^^ a.rotateRight 34 ^^^ a.rotateRight 39
    let t2 := s0 + ((a &&& b) ^^^ (a &&& c) ^^^ (b &&& c))
    [t1 + t2, a, b, c, d + t1, e, f, g]
  | _ => h

/-- The chaining words after one block of 128 bytes. -/
def shaBlock (h : List (BitVec 64)) (blk : List Byte) : List (BitVec 64) :=
  let w := (List.range 16).map fun i => BitVec.ofNat 64 (beNat (cut blk (8 * i) 8))
  let kw := List.zipWith (· + ·) shaK (shaSchedule 80 w)
  List.zipWith (· + ·) h (kw.foldl shaRound h)

/-- The chaining words after `n` blocks. -/
def shaBlocks : Nat → List (BitVec 64) → List Byte → List (BitVec 64)
  | 0, h, _ => h
  | n + 1, h, l => shaBlocks n (shaBlock h (l.take 128)) (l.drop 128)

/-- The SHA-384 digest as a number, its first byte the most significant. -/
def sha384 (l : List Byte) : Nat :=
  let bits := l.length * 8
  let padTo := 128 * ((l.length + 17 + 127) / 128)
  let msg := l ++ 0x80 :: zeros (padTo - l.length - 17) ++ (leBytes 16 bits).reverse
  ((shaBlocks (padTo / 128) shaInit msg).take 6).foldl (fun a w => 2 ^ 64 * a + w.toNat) 0

/-! ### ECDSA over P-384 -/

/-- The field prime. -/
def p384 : Nat := 2 ^ 384 - 2 ^ 128 - 2 ^ 96 + 2 ^ 32 - 1
/-- The order of the base point. -/
def n384 : Nat := 0xffffffffffffffffffffffffffffffffffffffffffffffffc7634d81f4372ddf581a0db248b0a77aecec196accc52973
/-- The constant b of the curve y² = x³ − 3x + b. -/
def b384 : Nat := 0xb3312fa7e23ee7e4988e056be3f82d19181d9c6efe8141120314088f5013875ac656398d8a2ed19d2a85c8edd3ec2aef
/-- The base point. -/
def g384 : Nat × Nat × Nat :=
  (0xaa87ca22be8b05378eb1c71ef320ad746e1d3b628ba79b9859f741e082542a385502f25dbf55296c3a545e3872760ab7,
   0x3617de4a96262c6f5d9e98bf9292dc29f8f41dbd289a147ce9da3113b5f0b8c00a60b1ce1d7e819d7a431d7c90ea0e5f, 1)

/-- `a ^ e` modulo `m`, over the `n` low bits of `e`. -/
def powMod : Nat → Nat → Nat → Nat → Nat → Nat
  | 0, _, _, _, acc => acc
  | n + 1, a, e, m, acc => powMod n (a * a % m) (e / 2) m (if e % 2 = 1 then acc * a % m else acc)

/-- Inverse modulo a prime. -/
def invMod (a m : Nat) : Nat := powMod 384 (a % m) (m - 2) m 1

/-- Difference in the field. -/
def subP (a b : Nat) : Nat := (a + p384 - b % p384) % p384

/-- Twice a point in Jacobian coordinates; z = 0 is the point at infinity. -/
def ecDouble (q : Nat × Nat × Nat) : Nat × Nat × Nat :=
  let (x, y, z) := q
  let yy := y * y % p384
  let s := 4 * x * yy % p384
  let zz := z * z % p384
  let m := 3 * subP x zz * (x + zz) % p384
  let x' := subP (m * m) (2 * s)
  (x', subP (m * subP s x') (8 * yy * yy), 2 * y * z % p384)

/-- Sum of two points in Jacobian coordinates. -/
def ecAdd (q r : Nat × Nat × Nat) : Nat × Nat × Nat :=
  let (x1, y1, z1) := q
  let (x2, y2, z2) := r
  if z1 = 0 then r
  else if z2 = 0 then q
  else
    let z1z1 := z1 * z1 % p384
    let z2z2 := z2 * z2 % p384
    let u1 := x1 * z2z2 % p384
    let u2 := x2 * z1z1 % p384
    let s1 := y1 * z2 * z2z2 % p384
    let s2 := y2 * z1 * z1z1 % p384
    if u1 = u2 then (if s1 = s2 then ecDouble q else (1, 1, 0))
    else
      let h := subP u2 u1
      let r' := subP s2 s1
      let hh := h * h % p384
      let hhh := h * hh % p384
      let v := u1 * hh % p384
      let x3 := subP (subP (r' * r') hhh) (2 * v)
      (x3, subP (r' * subP v x3) (s1 * hhh), z1 * z2 * h % p384)

/-- `k` times a point, over the `n` low bits of `k`. -/
def ecMul : Nat → Nat → Nat × Nat × Nat → Nat × Nat × Nat → Nat × Nat × Nat
  | 0, _, _, acc => acc
  | n + 1, k, q, acc => ecMul n (k / 2) (ecDouble q) (if k % 2 = 1 then ecAdd acc q else acc)

/-- The signature (r, s) is valid for the digest and the public key (x, y). -/
def ecdsaOk (x y digest r s : Nat) : Bool :=
  let onCurve := x < p384 && y < p384 && y * y % p384 == (x * x * x + (p384 - 3) * x + b384) % p384
  if onCurve && 1 ≤ r && r < n384 && 1 ≤ s && s < n384 then
    let w := invMod s n384
    let a := ecMul 384 (digest * w % n384) g384 (1, 1, 0)
    let b := ecMul 384 (r * w % n384) (x, y, 1) (1, 1, 0)
    let (px, _, pz) := ecAdd a b
    if pz = 0 then false
    else px * invMod (pz * pz) p384 % p384 % n384 == r
  else false

end Sys2Proof.Machine
end

