-- ==== Sys2Proof/Machine/Packet.lean ====
section
/-!
DEFINITION. Packets and their flits (R252, R266, R267, R270).
-/
namespace Sys2Proof.Machine
open Sys2Proof

/-! ### Packets -/

/-- The 256 bits of a header (Table 8.8). -/
def headerNat (p : Packet) : Nat :=
  p.cls.toNat + 2 ^ 2 * b2n p.mc + 2 ^ 4 * p.dest.toNat + 2 ^ 16 * p.src.toNat + 2 ^ 28 * p.tunit.toNat
    + 2 ^ 32 * p.tdie.toNat + 2 ^ 36 * p.len.toNat + 2 ^ 64 * p.job.toNat + 2 ^ 96 * p.mask.toNat
    + 2 ^ 128 * p.opnd0.toNat + 2 ^ 192 * p.opnd1.toNat

/-- A header read from its bits. -/
def headerOf (n : Nat) : Packet :=
  { cls := BitVec.ofNat 2 n, mc := bitAt n 2, dest := BitVec.ofNat 12 (n / 2 ^ 4), src := BitVec.ofNat 12 (n / 2 ^ 16),
    tunit := BitVec.ofNat 4 (n / 2 ^ 28), tdie := BitVec.ofNat 3 (n / 2 ^ 32), len := BitVec.ofNat 13 (n / 2 ^ 36),
    job := BitVec.ofNat 16 (n / 2 ^ 64), mask := BitVec.ofNat 32 (n / 2 ^ 96),
    opnd0 := BitVec.ofNat 64 (n / 2 ^ 128), opnd1 := BitVec.ofNat 64 (n / 2 ^ 192),
    rsv := bitAt n 3 || bitAt n 35 || seg n 63 49 != 0 || seg n 95 80 != 0 }

/-- Flits of a packet of `len` bytes (R266). -/
def flitCount (len : Nat) : Nat := 1 + ceilDiv (len - 28) 60

/-- The number that the flits of a packet of the collective engine or the mangle unit carry inside the module. -/
def tupleKey (tunit tuple : Nat) : Nat :=
  if tunit = 3 then 1 + 2 * (tuple % 2 ^ 40) else if tunit = 1 then 2 + 2 * (tuple % 2 ^ 40) else 0

/-- Flit `k` of a packet on a virtual channel. -/
def flitOf (p : Packet) (vc k : Nat) : Flit :=
  let n := flitCount p.len.toNat
  { key := tupleKey p.tunit.toNat p.opnd0.toNat, vc := BitVec.ofNat 3 vc, head := k == 0, tail := k + 1 == n, stain := p.stained.contains k,
    time := p.time,
    body := if k = 0 then leBytes 32 (headerNat p) ++ cut p.data 0 28 else cut p.data (28 + 60 * (k - 1)) 60 }

/-- The flits of a packet. -/
def flitsOf (p : Packet) (vc : Nat) : List Flit := (List.range (flitCount p.len.toNat)).map (flitOf p vc)

/-- Flit body (R252): the part of the link word that belongs to the flit, and its payload. -/
def flitWord (x : Flit) : Nat :=
  2 ^ 2 * x.vc.toNat + 2 ^ 5 * b2n x.head + 2 ^ 6 * b2n x.tail + 2 ^ 7 * b2n x.stain

/-- The data flit of a link word and payload of 64 bytes. -/
def dataFlit (w : List Byte) : Flit :=
  let n := fieldAt w 0 4
  { vc := BitVec.ofNat 3 (seg n 4 2), head := bitAt n 5, tail := bitAt n 6, stain := bitAt n 7,
    seq := BitVec.ofNat 9 (seg n 16 8), body := (w.drop 4).take 60 }

/-- Header of a head flit. -/
def flitHeader (f : Flit) : Packet := headerOf (fieldAt f.body 0 32)

/-- The packet that a list of flits carries. -/
def packetOf (l : List Flit) : Packet :=
  match l with
  | [] => {}
  | f :: rest =>
    let h := flitHeader f
    { h with data := ((f.body.drop 32) ++ rest.flatMap (·.body)).take h.len.toNat,
             stained := (l.zipIdx.filter fun (x, _) => x.stain).map (·.2), time := f.time, vc := f.vc }

/-- The flit that carries byte `i` of a packet's data. -/
def flitAt (i : Nat) : Nat := if i < 28 then 0 else 1 + (i - 28) / 60

/-- A stained flit supplies a byte of `[lo, hi)`. -/
def spanStained (p : Packet) (lo hi : Nat) : Bool :=
  p.stained.any fun k => decide (lo < hi) && decide (flitAt lo ≤ k) && decide (k ≤ flitAt (hi - 1))

/-- The class that Table 8.9 gives a target unit. -/
def unitClass (tunit : Nat) : Option Nat :=
  match tunit with
  | 0 | 1 | 2 => some 0
  | 3 => some 1
  | 4 | 5 => some 2
  | _ => none

/-- The virtual channel of a packet: the one that it came over, or the first of its class. -/
def packetVc (p : Packet) : Nat := if p.vc.toNat / 2 = p.cls.toNat then p.vc.toNat else 2 * p.cls.toNat

/-! ### Collective packets at their engine (R318, R320, R323, R341) -/

/-- MSG of a collective packet (Table 10.6). -/
def collMsg (p : Packet) : Nat := seg p.opnd0.toNat 43 40

/-- The tuple that RA of `CSTART` and `CWAIT` names (Table 5.16), laid out as in a packet (Table 10.6). -/
def tupleOf (ra : Nat) : CollKey :=
  ⟨BitVec.ofNat 16 (seg ra 15 0), BitVec.ofNat 16 (seg ra 31 16), BitVec.ofNat 8 (seg ra 39 32)⟩
/-- The tuple of a packet. -/
def packetTuple (p : Packet) : CollKey := tupleOf (p.opnd0.toNat % 2 ^ 40)

/-- Signed distance of a sequence from DONE_BASE. -/
def seqAhead (r : Comm) (seq : BitVec 16) : Int := (seq - r.doneBase).toInt

/-- A packet of a tuple is stale (R323). -/
def collStale (s : State) (k : CollKey) : Bool :=
  let r := s.commAt k.comm.toNat
  let d := seqAhead r k.seq
  !r.valid || r.epoch != k.epoch
    || ((s.ctxAt k).isNone && (decide (d < 0) || decide (256 ≤ d) || r.doneMap.getLsbD d.toNat))

/-- A packet waits for a context: it is not stale, its tuple has none and none is free (R320). A node's own copy of the
release that it multicast needs none. -/
def collWaits (s : State) (p : Packet) : Bool :=
  let k := packetTuple p
  !(collMsg p == 4 && p.src == s.tl.coord) && !collStale s k && (s.ctxAt k).isNone
    && decide (256 ≤ s.coll.ctx.length)

/-- A packet that waits holds the ejection buffer of a virtual channel (R320). -/
def ejectHeld (s : State) (l vc : Nat) : Bool :=
  s.tl.collIn.any fun e => e.link == l && packetVc e.pkt == vc && collWaits s e.pkt

/-- Some packet waits for a context. -/
def anyWaits (s : State) : Bool := s.tl.collIn.any fun e => collWaits s e.pkt

/-- The oldest packet that neither waits nor stands behind one that waits on its virtual channel, and the others;
`held` are the channels held so far. -/
def firstFree (s : State) (held : List (Nat × Nat)) : List InPacket → Option (InPacket × List InPacket)
  | [] => none
  | e :: rest =>
    let ch := (e.link, packetVc e.pkt)
    if held.contains ch || collWaits s e.pkt then
      (firstFree s (ch :: held) rest).map fun (x, l) => (x, e :: l)
    else some (e, rest)

/-- A stained packet: every flit that holds some of `data` is stained. -/
def allFlits (len : Nat) : List Nat := List.range (flitCount len)

end Sys2Proof.Machine
end

