-- ==== Sys2Proof/Machine/Package.lean ====
section
/-!
DEFINITION. The package: frames on the die-to-die links with their replay (R22, R24), and the carriage of a packet
from the base die that ejects it to the die of its target unit (R273, R274).
-/
namespace Sys2Proof.Machine
open Sys2Proof

/-! ### Frames (R24) -/

/-- The frame's CRC holds: header in bytes 0–3, body in bytes 4–67, CRC in bytes 68–71 (log 22). -/
def frameGood (f : List Byte) : Bool :=
  f.length == 72 && crc32 (f.take 68) == BitVec.ofNat 32 (fieldAt f 68 4)

/-- The header of a frame: destination die in [3:0], 8 for the I/O die, class in [5:4], virtual channel in [8:6]
(log 22). -/
def frameHeader (die cls vc : Nat) : Nat := die + 2 ^ 4 * cls + 2 ^ 6 * vc
/-- Virtual channel of a frame. -/
def frameVc (f : List Byte) : Nat := seg (fieldAt f 0 4) 8 6

/-- A frame with its CRC. -/
def frameOf (die cls vc : Nat) (body : List Byte) : List Byte :=
  let b := leBytes 4 (frameHeader die cls vc) ++ cut body 0 64
  b ++ leBytes 4 (crc32 b).toNat

/-- The frame that carries a flit of a packet to a die. -/
def flitFrame (die cls : Nat) (x : Flit) : List Byte :=
  frameOf die cls x.vc.toNat (leBytes 4 (1 + flitWord x) ++ cut x.body 0 60)

/-- A direction of a die-to-die link. -/
def wayOf (s : State) (k : Nat) (up : Bool) : D2dWay :=
  let l := Tbl.get {} s.d2d k
  if up then l.up else l.down
/-- Change it. -/
def updWay (s : State) (k : Nat) (up : Bool) (f : D2dWay → D2dWay) : State :=
  { s with d2d := upd {} s.d2d k fun l => if up then { l with up := f l.up } else { l with down := f l.down } }

/-- Send the waiting frames for which the replay buffer has room (R24). -/
def sendFrames (s : State) (k : Nat) (up : Bool) : State :=
  let w := wayOf s k up
  let go := w.queue.take (64 - w.sent.length)
  let s := updWay s k up fun w => { w with sent := w.sent ++ go, queue := w.queue.drop (64 - w.sent.length) }
  { s with out := s.out ++ go.map fun f => .d2dFrame k up f.bytes }

/-! ### Carriage (R274) -/

/-- The crossings from base die `a` to base die `c`: the partner or corner link that joins them, or two spokes. -/
def packagePath (a c : Nat) : List (Nat × Bool) :=
  if a = c then []
  else
    match (List.range 8).find? fun k => d2dEnds k == (a, c) || d2dEnds k == (c, a) with
    | some k => [(k, (d2dEnds k).1 == a)]
    | none => [(8 + a, true), (8 + c, false)]

/-- Queue the flits of a packet, one to a frame, on a crossing. -/
def queueFrames (s : State) (k : Nat) (up : Bool) (l : Nat) (p : Packet) : State :=
  let die := p.tdie.toNat
  let cls := p.cls.toNat
  let fs := (flitsOf p (packetVc p)).map fun x => { bytes := flitFrame die cls x, link := l, time := x.time : D2dFrame }
  sendFrames (updWay s k up fun w => { w with queue := w.queue ++ fs }) k up

/-- A packet has reached the die of its target unit. -/
def atTarget (s : State) (l : Nat) (p : Packet) : State :=
  { s with tl := { s.tl with arrived := s.tl.arrived ++ [(l, p)] } }

/-- A packet ejected at base die `a` from link `l` is carried over the package to TDIE (R273). -/
def carryPacket (s : State) (a l : Nat) (p : Packet) : State :=
  match packagePath a p.tdie.toNat with
  | [] => atTarget s l p
  | (k, up) :: _ => queueFrames s k up l p

/-- The end of a link that a direction leads to. -/
def wayEnd (k : Nat) (up : Bool) : Nat := if up then (d2dEnds k).2 else (d2dEnds k).1

/-- A frame of a packet is delivered: at the packet's tail it is handed over at TDIE, or crosses the I/O die to TDIE's
spoke. -/
def frameIn (s : State) (k : Nat) (up : Bool) (f : D2dFrame) : State :=
  let x : Flit := { dataFlit ((f.bytes.drop 4).take 64) with time := f.time }
  let vc := frameVc f.bytes
  let all := Tbl.get [] (wayOf s k up).part vc ++ [x]
  let s := updWay s k up fun w => { w with part := Tbl.set [] w.part vc (if x.tail then [] else all) }
  if x.tail then
    let p := packetOf all
    if wayEnd k up = 8 then queueFrames s (8 + p.tdie.toNat) false f.link p else atTarget s f.link p
  else s

/-- A good frame is delivered, in order on its virtual channel. -/
def frameDelivered (w : D2dWay) (f : List Byte) : D2dWay :=
  { w with got := upd [] w.got (frameVc f) (· ++ [f.take 68]), replaying := false }

/-- D2D_FRAME_RECEIVE: a frame that fails its CRC is replayed with those sent after it; until it has come good, and for
a frame that the sender still owes another before, a frame is dropped, so that none is lost, repeated or passed
(R24). -/
def execD2dFrameReceive (link : Fin 16) (up : Bool) (frame : List Byte) (s : State) : Ans :=
  let k := link.val
  let w := wayOf s k up
  if frameGood frame then
    match w.sent with
    | [] => .next (updWay s k up fun w => frameDelivered w frame)
    | f :: rest =>
      if frame = f.bytes then
        let s := updWay s k up fun w => { frameDelivered w frame with sent := rest }
        .next (sendFrames (frameIn s k up f) k up)
      else if w.replaying || rest.any (·.bytes == frame) then .next s
      else .next (updWay s k up fun w => frameDelivered w frame)
  else
    let s := updWay s k up fun w => { w with replaying := true, replays := w.replays + 1 }
    .next { s with out := s.out ++ .d2dReplay k up :: w.sent.map fun f => .d2dFrame k up f.bytes }

end Sys2Proof.Machine
end

