-- ==== Sys2Proof/Machine/Net.lean ====
section
/-!
DEFINITION. Routes and the injection of packets (R268, R271–R273, R277), the branches of a multicast (R278, R279),
the flooding of guild messages and the detection of a fault (R417, R418), and what happens when a link leaves UP
(R276, R308).
-/
namespace Sys2Proof.Machine
open Sys2Proof

/-! ### Links and counts -/

/-- Add to a count of `TL_CNT_SEL.KIND` (Table 8.17). -/
def tlCount (s : State) (l kind n : Nat) : State :=
  s.updLink l fun k => { k with cnt := upd 0 k.cnt kind (· + BitVec.ofNat 64 n) }

/-- The link carries packets: UP, or RETRAIN. -/
def carries (k : TLink) : Bool := k.state == 2 || k.state == 7
/-- SOURCE of a router. -/
def linkSrc (l : Nat) : Nat := srcUnit (linkDie l) unitRouter
/-- The link is enabled (Table 8.15): EN resets to 1 but in a dimension of size 1. -/
def linkEn (s : State) (l : Nat) : Bool :=
  decide (torusN s (linkDim l) ≠ 1) && ((s.link l).en.getD true)
/-- Coordinate of the partner of a link (R241). -/
def partner (s : State) (l : Nat) : Nat := neighbour s (myCoord s) (linkDim l) (linkPlus l)
/-- The link is interior to the slice of its module (R290). -/
def interior (s : State) (l : Nat) : Bool :=
  s.slc.member && decide (torusN s (linkDim l) ≠ 1) && inSlice s 0 (partner s l)

/-- The events of `n` packets discarded at a fenced output. -/
def fenceEntries (s : State) (l n : Nat) : State :=
  (List.range n).foldl (fun s _ => raise s { cls := evTlFence, src := linkSrc l, detail := l }) s

/-- Packets are discarded at an output that is lost or fenced (R276). -/
def discardAt (s : State) (l n : Nat) : State :=
  let s := tlCount s l 3 n
  if (s.link l).state = 3 then fenceEntries s l n else s

/-- A bad packet is discarded (R268). -/
def badPacket (s : State) (l : Nat) (p : Packet) : State :=
  let s := if l < 32 then tlCount s l 4 1 else s
  raise s { cls := evTlBadpkt, src := linkSrc (l % 32), job := p.job.toNat, detail := headerNat p % 2 ^ 64 }

/-! ### Routes (R271, R272, R278, R279) -/

/-- Virtual channel of a packet of a class that leaves on link (d, plus), having dateline bit `bit` in that
dimension. -/
def outVc (s : State) (cls d : Nat) (plus bit : Bool) : Nat := 2 * cls + b2n (bit || dateline s d plus)

/-- Multicast bits of dimension `d`. -/
def mcMask (m d : Nat) : Nat := seg m (8 * d + 7) (8 * d)
/-- Places of the mask of a dimension. -/
def maskPlaces (m d : Nat) : List Nat := (List.range 8).filter fun v => bitAt (mcMask m d) v

/-- The multicast limits of R278 hold at a base die. -/
def mcOk (s : State) (die : Nat) (p : Packet) : Bool :=
  p.cls != 0 && decide (p.len.toNat ≤ 208) && (List.range 4).all fun d =>
    mcMask p.mask.toNat d != 0 && (maskPlaces p.mask.toNat d).all fun v => inDim s die d v

/-- Distance from `e` to `v` in a direction of dimension `d`. -/
def distIn (s : State) (d e v : Nat) (plus : Bool) : Nat :=
  let n := torusN s d
  if plus then (v + n - e) % n else (e + n - v) % n

/-- From entry coordinate `e` of dimension `d`, some member lies in a direction, farther than `far`. -/
def mcHas (s : State) (die d e m far : Nat) (plus : Bool) : Bool :=
  (maskPlaces m d).any fun v => dirIn s die d e v e == some plus && decide (far < distIn s d e v plus)

/-- The branches of a multicast from dimension `d` on, at a module that has not yet moved in it, and whether a copy
is ejected. -/
def mcFrom (s : State) (die cur m : Nat) : Nat → Nat → List (Nat × Bool) × Bool
  | 0, _ => ([], true)
  | f + 1, d =>
    let e := dimOf cur d
    let here := [true, false].filterMap fun p => if mcHas s die d e m 0 p then some (d, p) else none
    if bitAt (mcMask m d) e then
      let (r, ej) := mcFrom s die cur m f (d + 1)
      (here ++ r, ej)
    else (here, false)

/-- The branches of a multicast that arrives moving in a direction of dimension `d`. -/
def mcAlong (s : State) (die cur src m d : Nat) (plus : Bool) : List (Nat × Bool) × Bool :=
  let e := dimOf src d
  let on := if mcHas s die d e m (distIn s d e (dimOf cur d) plus) plus then [(d, plus)] else []
  if bitAt (mcMask m d) (dimOf cur d) then
    let (r, ej) := mcFrom s die cur m (3 - d) (d + 1)
    (on ++ r, ej)
  else (on, false)

/-- Destinations of a packet. -/
def destCount (p : Packet) : Nat :=
  if p.mc then (List.range 4).foldl (fun n d => n * (maskPlaces p.mask.toNat d).length) 1 else 1

/-! ### Ejection and injection (R273) -/

/-- A packet reaches the module that it is for: from a link it is carried from the link's base die to TDIE; one that
never entered a link is at its unit (R273; log 134). -/
def arrive (s : State) (l : Nat) (p : Packet) : State :=
  if l < 32 then carryPacket s (linkDie l) l p else atTarget s l p

/-- A head flit on a virtual channel is bad, by the `TL_SLICE` of a base die (R268, R341). -/
def badHeader (s : State) (die vc : Nat) (p : Packet) : Bool :=
  unitClass p.tunit.toNat != some p.cls.toNat || vc / 2 != p.cls.toNat || decide (4096 < p.len.toNat) || p.rsv
    || (if p.mc then !mcOk s die p else !inSlice s die p.dest.toNat)
    || (p.tunit == 3 && decide (6 ≤ collMsg p))

/-- The base die of a ply that injects a packet: that of the first dimension it moves in (R273). -/
def injectDie (s : State) (ply : Nat) (p : Packet) : Nat :=
  let me := myCoord s
  let xy := if p.mc then (List.range 2).any fun d => (maskPlaces p.mask.toNat d).any (· != dimOf me d)
    else dimOf me 0 != dimOf p.dest.toNat 0 || dimOf me 1 != dimOf p.dest.toNat 1
  let zw := if p.mc then (List.range 2).any fun d => (maskPlaces p.mask.toNat (d + 2)).any (· != dimOf me (d + 2))
    else decide (me ≠ p.dest.toNat)
  if !xy && zw then ply + 4 else ply

/-! ### Guild messages (R417, R418, Table 13.8) -/

/-- Neighbours of the module in its slice with a link UP to each. -/
def upNeighbours (s : State) : List (Nat × Nat) :=
  (List.range 8).foldl (fun acc i =>
    let d := i / 2
    let nb := neighbour s (myCoord s) d (i % 2 == 0)
    if nb == myCoord s || !s.slc.member || !inSlice s 0 nb || acc.any (·.1 == nb) then acc
    else
      match (List.range 4).find? fun ply => (s.link (8 * ply + i)).state == 2 with
      | some ply => acc ++ [(nb, 8 * ply + i)]
      | none => acc) []

/-- A guild packet. -/
def guildPacket (s : State) (msg round origin reason suspect : Nat) (data : List Byte) : Packet :=
  { cls := 2, tunit := 4, tdie := 0, len := BitVec.ofNat 13 data.length, data := data, src := s.tl.coord,
    opnd0 := BitVec.ofNat 64 (msg + 2 ^ 4 * (round % 256) + 2 ^ 12 * origin + 2 ^ 24 * reason + 2 ^ 32 * s.slc.slice.toNat),
    opnd1 := BitVec.ofNat 64 suspect }

/-- Send a guild packet to every neighbour with a link UP. -/
def flood (s : State) (p : Packet) : State :=
  (upNeighbours s).foldl (fun s (nb, l) =>
    let p := { p with dest := BitVec.ofNat 12 nb, src := s.tl.coord }
    let vc := outVc s 2 (linkDim l) (linkPlus l) false
    s.updLink l fun k => { k with outq := upd [] k.outq vc (· ++ flitsOf p vc) }) s

/-- A coordinate among others in ascending order, once. -/
def coordInsert (m : BitVec 12) (l : List (BitVec 12)) : List (BitVec 12) :=
  (insertUp m.toNat (l.map (·.toNat))).map (BitVec.ofNat 12)

/-- The agent notes the module that a FAULT names. -/
def noteFault (g : Guard) (suspect : Nat) : Guard :=
  let m := BitVec.ofNat 12 suspect
  { g with gState := if g.gState = 0 then 1 else g.gState
           gFaults := coordInsert m g.gFaults }

/-- A switch ends, with its duration and its docket's reply; its barriers leave the system context. -/
def phaseEnd (s : State) (step : BitVec 3) : State :=
  match s.slc.req with
  | some r =>
    let s := { s with
      slc := { s.slc with
        req := none, drained := false, dur := BitVec.ofNat 32 (satTo 32 (s.gct.count.toNat - r.td.toNat)) }
      coll := { s.coll with sys := none } }
    finishDocket (s.setStep step) r.ring stOk step.toNat
  | none => s

/-- The guild stops every job of the slice; a switch that the halt reaches ends as failed (R304), its links left as they
are for the guild's own messages (log 137). -/
def guildStop (s : State) : State :=
  let s := stopAll s { cause := 6, cls := evGuildFault }
  let s := s.updGuard fun g => { g with gStopped := true }
  if s.slc.req.isSome then phaseEnd { s with slc := { s.slc with failed := true } } 7 else s

/-- The module's guild agent detects a fault: the slice's jobs stop and a FAULT is flooded (R417). -/
def guildDetect (s : State) (reason suspect : Nat) : State :=
  if s.slc.member then
    let s := guildStop s
    let round := s.guard.gRound.toNat
    let s := s.updGuard fun g =>
      { noteFault g suspect with gSeen := (round, myCoord s, 0, 0) :: g.gSeen }
    flood s (guildPacket s 0 round (myCoord s) reason suspect [])
  else s

/-! ### Input buffers (R258, R260, R280) -/

/-- A flit of the packet being ejected: the packet is whole at its tail. -/
def ejectFlit (s : State) (l vc : Nat) (x : Flit) : State :=
  let all := Tbl.get [] (s.link l).eject vc ++ [x]
  let s := s.updLink l fun k => { k with eject := Tbl.set [] k.eject vc (if x.tail then [] else all) }
  if x.tail then arrive s l (packetOf all) else s

/-- The front flit of an input VC leaves the router: its buffer is free (R258); the route ends at the tail. -/
def freeFront (k : TLink) (vc : Nat) (r : Route) (x : Flit) (rest : List Flit) : TLink :=
  { k with inbuf := Tbl.set [] k.inbuf vc rest
           route := Tbl.set none k.route vc (if x.tail then none else some { r with gone := r.gone + 1 })
           owed := upd 0 k.owed vc (· + 1)
           myFreed := upd 0 k.myFreed vc (· + 1) }

/-- Flit `i` of the packet at the front of a buffer. -/
def packetFlit (l : List Flit) (i : Nat) : Option Flit := if (l.take i).any (·.tail) then none else l[i]?

/-- Eject and free what an input VC can: a flit stays until it has been ejected where it must be and every branch
has sent it; a collective packet that waits for a context holds up the ejection (R320). -/
def drainIn : Nat → State → Nat → Nat → State
  | 0, s, _, _ => s
  | f + 1, s, l, vc =>
    match Tbl.get none (s.link l).route vc, Tbl.get [] (s.link l).inbuf vc with
    | some r, x :: rest =>
      match (if r.eject && !ejectHeld s l vc then packetFlit (x :: rest) (r.ejected - r.gone) else none) with
      | some y =>
        let s := ejectFlit s l vc y
        drainIn f (s.updLink l fun k =>
          { k with route := Tbl.set none k.route vc (some { r with ejected := r.ejected + 1 }) }) l vc
      | none =>
        if r.branches.all (fun b => decide (r.gone < b.sent)) && (!r.eject || decide (r.gone < r.ejected)) then
          drainIn f (s.updLink l fun k => freeFront k vc r x rest) l vc
        else s
    | _, _ => s

/-- Drain an input VC as far as it goes. -/
def drainVc (s : State) (l vc : Nat) : State := drainIn (2 * (Tbl.get [] (s.link l).inbuf vc).length + 2) s l vc

/-! ### A link leaves UP (R276, R308) -/

/-- The flit that stands for a missing one. -/
def syntheticFlit (vc : Nat) (tail : Bool) : Flit :=
  { vc := BitVec.ofNat 3 vc, tail := tail, stain := true, body := zeros 60 }

/-- The packets partly received on a lost input are completed with stained zero flits. -/
def completePartial (s : State) (l : Nat) : State :=
  (List.range 6).foldl (fun s vc =>
    let (all, had) := Tbl.get (0, 0) (s.link l).coming vc
    if had < all then
      let fs := (List.range (all - had)).map fun i => syntheticFlit vc (had + i + 1 == all)
      let s := tlCount (s.updLink l fun k =>
        { k with inbuf := upd [] k.inbuf vc (· ++ fs), coming := Tbl.set (0, 0) k.coming vc (0, 0) }) l 5 fs.length
      drainVc s l vc
    else s) s

/-- Packets among flits queued: each head, and a packet whose head has gone before. -/
def packetCount (t : Tbl (List Flit)) : Nat :=
  t.foldl (fun n e => n + (e.2.filter (·.head)).length
    + b2n (match e.2 with | x :: _ => !x.head | [] => false)) 0

/-- Branches that lead to link `l` are cut; the packets they carried are discarded there. -/
def cutBranches (s : State) (l : Nat) : State :=
  (List.range 32).foldl (fun s i =>
    let r := (s.link i).route
    let n := r.foldl (fun n e =>
      n + (match e.2 with | some x => (x.branches.filter (·.link == l)).length | none => 0)) 0
    if n = 0 then s
    else
      let s := s.updLink i fun k =>
        { k with route := k.route.map fun e =>
            (e.1, e.2.map fun x => { x with branches := x.branches.filter (·.link != l) }) }
      discardAt ((List.range 6).foldl (fun s vc => drainVc s i vc) s) l n) s

/-- The link breaks a running slice: BROKEN, `SLICE_BROKEN`, every job stops (R308), and the guild agent floods. -/
def sliceBroken (s : State) (l reason : Nat) : State :=
  let s := { s with slc := { s.slc with broken := true } }
  let s := raise s { cls := evSliceBroken, src := srcUnit 0 unitSlice, detail := l }
  let s := stopAll s { cause := 7, cls := evSliceBroken }
  guildDetect s reason (partner s l)

/-- The slice runs: no switch has passed its drain. -/
def sliceRuns (s : State) : Bool := s.slc.member && !s.slc.drained

/-- A link that is no longer trained holds no grant and owes no window. -/
def dropWindows (k : TLink) : TLink :=
  { k with windowT := none, askedT := [], pending := k.pending && k.windowT.isNone }

/-- The link leaves UP or RETRAIN for `state`, or is fenced (R276); `why` is the reason of R417 where the loss
breaks a running slice, 0 where the module fenced the link itself. -/
def leaveUp (s : State) (l : Nat) (state : BitVec 3) (reason : BitVec 8) (why : Nat) : State :=
  let was := carries (s.link l)
  let s := s.updLink l fun k =>
    let k := { k with state := state, reason := reason, window := false }
    if state = 3 then k else dropWindows k
  if was then
    let n := packetCount (s.link l).outq
    let s := s.updLink l fun k =>
      { k with outq := [], replay := [], resend := [], replays := [], owner := [], ctl := [], retrying := false }
    let s := if n = 0 then s else discardAt s l n
    let s := completePartial (cutBranches s l) l
    let s := raise s { cls := evTlDown, src := linkSrc l, detail := l }
    if why ≠ 0 ∧ interior s l = true ∧ sliceRuns s = true then sliceBroken s l why else s
  else s

/-! ### Injection of packets (R273) and of faults into them (R404) -/

/-- Window of the job of a packet, 16 for none. -/
def packetWin (s : State) (p : Packet) : Nat := (windowOf s p.job.toNat).getD 16

/-- A head flit's header is met by a router: a bad packet is discarded, and a good one goes on by `g` (R268). -/
def meetHeader (s : State) (l : Nat) (p : Packet) (bad : Bool) (g : State → State) : State :=
  detect s evTlBadpkt (linkSrc (l % 32)) (packetWin s p) bad (fun s => badPacket s l p) g

/-- A packet is to leave by a link: the injections into the link act, and the second answer says that it is to be
discarded as at a fenced output. -/
def meetLink (s : State) (l : Nat) (p : Packet) : State × Bool :=
  let w := packetWin s p
  let s := detect s evTlDown (linkSrc l) w false (fun s => leaveUp s l 0 0 1) id
  let s := detect s evSliceBroken (srcUnit 0 unitSlice) w false (fun s => sliceBroken s l 1) id
  match takeInject s evTlFence (linkSrc l) w with
  | some (_, s) => (underInject (fun s => fenceEntries s l 1) s, true)
  | none => (s, false)

/-- Queue a packet at an output; it is discarded where the link does not carry packets. -/
def queueOut (s : State) (ply : Nat) (p : Packet) (d : Nat) (plus : Bool) : State :=
  let l := linkNum ply d plus
  let (s, fenced) := meetLink s l p
  if carries (s.link l) && !fenced then
    let vc := outVc s p.cls.toNat d plus false
    s.updLink l fun k => { k with outq := upd [] k.outq vc (· ++ flitsOf p vc) }
  else discardAt s l 1

/-- The first link of a ply that a packet of this module leaves by, 32 for none. -/
def firstLink (s : State) (die ply : Nat) (p : Packet) : Nat :=
  let hop := if p.mc then (mcFrom s die (myCoord s) p.mask.toNat 4 0).1.head?
    else nextHop s die (myCoord s) p.dest.toNat (myCoord s)
  match hop with
  | some (d, plus) => linkNum ply d plus
  | none => 32

/-- A unit injects a packet on a ply; the injecting router checks its head flit (R268). -/
def inject (s : State) (ply : Nat) (p : Packet) : State :=
  let p := { p with src := s.tl.coord }
  let s := if p.cls = 0 ∨ p.cls = 1 then { s with tl := { s.tl with sent := s.tl.sent + destCount p } } else s
  let die := injectDie s ply p
  meetHeader s (firstLink s die ply p) p (badHeader s die (2 * p.cls.toNat) p) fun s =>
    if p.mc then
      let (br, ej) := mcFrom s die (myCoord s) p.mask.toNat 4 0
      let s := br.foldl (fun s (d, plus) => queueOut s ply p d plus) s
      if ej then arrive s 32 p else s
    else
      match nextHop s die (myCoord s) p.dest.toNat (myCoord s) with
      | none => arrive s 32 p
      | some (d, plus) => queueOut s ply p d plus

/-- A unit injects a packet on the ply that the hash picks (R277). -/
def injectHash (s : State) (key : Nat) (p : Packet) : State :=
  inject s (plyHash (if p.mc then 0 else p.dest.toNat) key) p

end Sys2Proof.Machine
end

