-- ==== Sys2Proof/Machine/Gct.lean ====
section
/-!
DEFINITION. The global counter (R375–R394): its ticks, steps and slews, synchronisation with the parent, the
compare and overflow interrupts, `GCT_SET` and `GCT_CMP`; and the registers of the GCT and DET blocks.
-/
namespace Sys2Proof.Machine
open Sys2Proof

/-! ### Moving the counter -/

/-- A job waits in a window for T_s. -/
def startWaits (s : State) (j : Job) : Bool := j.running && j.clusters.any fun q => (s.clu q).waiting

/-- A late application of a docket of the job of window `w`: the job's next press step is suspect and is held (R386,
R408). -/
def lateApply (s : State) (job : Nat) (win : Nat) : State :=
  let s := raise s { cls := evLateApply, src := srcUnit 0 unitCounter, job := job, win := win }
  { s with press := { s.press with holdJobs := s.press.holdJobs.filter (·.toNat != job) ++ [BitVec.ofNat 16 job] } }

/-- A `LAUNCH` is applied late (Table 12.3). -/
def lateLaunch (s : State) (w : Nat) : State :=
  let s := s.updJob w fun j => { j with late := true }
  let s := { s with gct := { s.gct with late := s.gct.late ||| BitVec.ofNat 16 (2 ^ w) } }
  lateApply s (winJob s w) w

/-- A job of the slice runs, or a collective context is open (Table 9.1, first row). -/
def sliceBusy (s : State) : Bool := anyJob s || s.coll.ctx != []

/-- A `PHASE` is applied late: the flag and the entry (R303, R386); the first press step of the job launched after the
switch is held. -/
def latePhase (s : State) : State :=
  let s := { s with slc := { s.slc with late := true, holdLaunch := true } }
  raise s { cls := evLateApply, src := srcUnit 0 unitSlice }

/-- Apply count of a docket of Table 12.3. -/
def applyCount (d : Docket) : Option Nat :=
  match fieldAt d.bytes 0 2 with
  | 0x20 => some (fieldAt d.bytes 40 8)
  | 0x81 => some (fieldAt d.bytes 32 8)
  | _ => none
/-- What keeps a docket from being applied at its count: the module is not SYNCED, or for a `PHASE` still busy. -/
def cannotApply (s : State) (d : Docket) : Bool := !gctSynced s || (fieldAt d.bytes 0 2 == 0x81 && sliceBusy s)
/-- The docket is accepted late, or at a count at which it cannot be applied. -/
def acceptsLate (s : State) (d : Docket) : Bool :=
  match applyCount d with
  | some t => decide (t < s.gct.count.toNat) || (t == s.gct.count.toNat && cannotApply s d)
  | none => false
/-- A docket that starts on ring `r` is late (R303, R386). -/
def startsLate (s : State) (r : Nat) (d : Docket) : Bool :=
  d.late || s.gct.missed.contains (r, (s.ring r).gen, d.seq)
    || (applyCount d == some s.gct.count.toNat && cannotApply s d)
/-- The dockets of a ring that wait to take effect. -/
def waitingDockets (g : RingSt) : List Docket := (if g.began then [] else g.running.toList) ++ g.queue
/-- Dockets that wait on a ring, whose apply count is among those passed, and that cannot be applied. -/
def missedOf (s : State) (passed : Nat → Bool) : List (Nat × BitVec 16 × Word) :=
  s.hif.ring.flatMap fun e => ((waitingDockets e.2).filter fun d =>
    ((applyCount d).map passed).getD false && cannotApply s d).map fun d => (e.1, e.2.gen, d.seq)
/-- A docket that has started no longer waits. -/
def notMissed (s : State) (r : Nat) (d : Docket) : State :=
  { s with gct := { s.gct with missed := s.gct.missed.filter (· != (r, (s.ring r).gen, d.seq)) } }

/-- The counter passes apply counts at which a docket cannot be applied (R303, R386). -/
def missedCounts (s : State) (old new : Nat) : State :=
  if new ≤ old then s else
  let passed := fun (t : Nat) => decide (old < t) && decide (t ≤ new)
  let s := { s with gct := { s.gct with missed := s.gct.missed ++ missedOf s passed } }
  let s := if gctSynced s then s else
    (List.range 16).foldl (fun s w =>
      let j := s.jobAt w
      if startWaits s j && passed j.ts.toNat && !j.late then lateLaunch s w else s) s
  match s.slc.req with
  | some r =>
    if s.slc.step = 1 ∧ r.late = false ∧ passed r.td.toNat = true ∧ (sliceBusy s || !gctSynced s) = true then
      latePhase { s with slc := { s.slc with req := some { r with late := true } } }
    else s
  | none => s

/-- The counter takes a new value: the compare interrupt fires when it reaches `GCT_CMP` from below (R392). -/
def moveCount (s : State) (new : DWord) (frac : BitVec 6) : State :=
  let old := s.gct.count
  let s := { s with gct := { s.gct with count := new, frac := frac } }
  let s := if old.toNat < s.gct.cmp.toNat ∧ s.gct.cmp.toNat ≤ new.toNat then irqEvent s 3 else s
  missedCounts s old.toNat new.toNat

/-- The counter has wrapped (R390). -/
def wrapped (s : State) : State := irqEvent { s with gct := { s.gct with ovf := true } } 2

/-- A value saturated to `[-m, m]`. -/
def clampTo (m : Int) (x : Int) : Int := max (-m) (min m x)

/-- The trim, in ppm, that removes θ in a tick: how fast is free, and with the rate correction it stays within ±200 ppm
(R378). -/
def slewTrim (g : Gct) (free : Nat) : Int :=
  if g.slew = 0 then 0
  else
    let x : Int := free % 201
    clampTo 200 (g.rate + if 0 < g.slew then x else -x) - g.rate

/-- Parts gathered in a tick at a trim in ppm, in millionths of 1/64 ns: the steps of 1/64 ns due, and what is left. -/
def trimStep (acc ppm : Int) : Int × Int :=
  if ppm = 0 then (0, acc)
  else
    let a := acc + 64 * ppm
    (a.tdiv 1000000, a.tmod 1000000)

/-- One tick of 1 ns, trimmed by at most 200 ppm (R378): on the count, the trim turns a single tick into a step of 0 or 2
(R382). The copies follow within ±0.25 ns (R375). -/
def tick (s : State) : State :=
  let g := s.gct
  let (take, sacc) := trimStep g.slewAcc (slewTrim g (Config.freeNat s.free))
  let (drift, racc) := trimStep g.rateAcc g.rate
  let s := if g.slew = 0 then s else s.useFree
  let sum : Nat := ((64 * (g.count.toNat : Int) + g.frac.toNat + 64 + take + drift)).toNat
  let s := { s with gct := { s.gct with
    slew := g.slew - take, slewAcc := if g.slew = take then 0 else sacc, rateAcc := racc
    skew := (List.range 8).map fun d => (d, clampTo 16 (Config.freeSkew d (sum / 64))) } }
  let s := if 2 ^ 70 ≤ sum then wrapped s else s
  moveCount s (BitVec.ofNat 64 (sum / 64)) (BitVec.ofNat 6 sum)

/-- The entry of a step of the counter (R382). -/
def stepEntry (s : State) (old : DWord) : State :=
  let src := srcUnit 0 unitCounter
  let r := reportOf s { cls := evGctStep, src := src, sev := 0, detail := old.toNat }
  queueReport s evGctStep src { r with hi := BitVec.ofNat 8 (s.gct.count.toNat / 2 ^ 58) }

/-- A step of the counter while no job runs (R382). -/
def stepCount (s : State) (new : DWord) (frac : BitVec 6) : State :=
  let old := s.gct.count
  let s := moveCount s new frac
  let s := { s with gct := { s.gct with
      steps := BitVec.ofNat 8 (satTo 8 (s.gct.steps.toNat + 1)), slew := 0, slewAcc := 0, lastTheta := none } }
  stepEntry s old

/-- GCT_WRAP: the tick from 2^64 − 1. -/
def execGctWrap (s : State) : Ans :=
  .next (if s.gct.count = 0xFFFFFFFFFFFFFFFF then moveCount (wrapped s) 0 s.gct.frac else s)

/-- GCT_COMPARE: the tick that reaches `GCT_CMP`. -/
def execGctCompare (s : State) : Ans :=
  .next (if s.gct.cmp ≠ 0 ∧ s.gct.count + 1 = s.gct.cmp then moveCount s s.gct.cmp s.gct.frac else s)

/-! ### Synchronisation (R376–R381) -/

/-- Links from the module to the master along the route of R271. -/
def depthFrom (s : State) : Nat → Nat → Nat
  | 0, _ => 0
  | f + 1, c =>
    match nextHop s 0 c (masterCoord s) (myCoord s) with
    | none => 0
    | some (d, p) => 1 + depthFrom s f (neighbour s c d p)

/-- `GCT_STATUS.DEPTH`. -/
def depth (s : State) : Nat := if s.slc.member then depthFrom s 32 (myCoord s) else 0

/-- The member exchanges timestamps with a parent. -/
def hasParent (s : State) : Bool := s.slc.member && !isMaster s

/-- A synchronisation packet (Table 12.2). -/
def syncPacket (dest msg exch opnd1 : Nat) (data : List Byte) : Packet :=
  { cls := 2, tunit := 5, dest := BitVec.ofNat 12 dest, len := BitVec.ofNat 13 data.length, data := data,
    opnd0 := BitVec.ofNat 64 (msg + 2 ^ 8 * (exch % 256)), opnd1 := BitVec.ofNat 64 opnd1 }

/-- GCT_SYNC_REQ_SEND: the request is stamped as it leaves the transmit pin. -/
def execGctSyncReqSend (s : State) : Ans :=
  match parentCoord s with
  | some p =>
    if hasParent s then
      let x := s.gct.exch + 1
      let s := { s with gct := { s.gct with exch := x, t1 := none } }
      .next (inject s 0 (syncPacket p 0 x.toNat 0 (zeros 8)))
    else .next s
  | none => .next s

/-- The oldest synchronisation packet received, if it is of a MSG; one of an unlisted MSG is dropped. -/
def takeSync (s : State) (msg : Nat) : Option ((Packet × DWord) × State) :=
  match s.tl.syncIn with
  | x :: rest =>
    if seg x.1.opnd0.toNat 3 0 = msg then some (x, { s with tl := { s.tl with syncIn := rest } }) else none
  | [] => none

/-- Drop the oldest synchronisation packet where its MSG is unlisted. -/
def dropSync (s : State) : State :=
  match s.tl.syncIn with
  | x :: rest => if 2 ≤ seg x.1.opnd0.toNat 3 0 then { s with tl := { s.tl with syncIn := rest } } else s
  | [] => s

/-- GCT_SYNC_REQ_RECEIVE: the parent returns t1 and t2; t3 and its count are stamped as the response leaves. -/
def execGctSyncReqReceive (s : State) : Ans :=
  match takeSync s 0 with
  | some ((p, t2), s) =>
    .next (inject s 0 (syncPacket p.src.toNat 1 (seg p.opnd0.toNat 15 8) 0
      (cut p.data 0 8 ++ leBytes 8 t2.toNat ++ zeros 8)))
  | none => .next (dropSync s)

/-- The member loses its synchronism (R381). -/
def gctLoss (s : State) : State :=
  let s := { s with gct := { s.gct with synced := false, loss := true, good := 0 } }
  raise s { cls := evGctLoss, src := srcUnit 0 unitCounter }

/-- The counter steps by θ, taking its high bits from the parent's count at t3 (R378). -/
def stepTheta (s : State) (th : Int) (hi : Nat) : State :=
  let low := wrap 64 ((timestamp s).toNat + th)
  let new := low / 64 + seg hi 63 58 * 2 ^ 58
  if new = s.gct.count.toNat ∧ low % 64 = s.gct.frac.toNat then s
  else stepCount s (BitVec.ofNat 64 new) (BitVec.ofNat 6 low)

/-- The rate correction follows the change in θ since the last exchange; its formula is free (R378). -/
def noteTheta (g : Gct) (th : Int) (t4 : DWord) : Gct :=
  { g with lastTheta := some (th, t4)
           rate := match g.lastTheta with
             | some (old, at_) => clampTo 200 (Config.freeRate g.rate (th - old) (t4 - at_).toNat)
             | none => g.rate }

/-- What an exchange with offset `th` (in 1/64 ns) does; `hi` is the parent's count at t3 (R378, R379, R381). The first
exchange after `GCT_SET` steps a member's counter back, SYNCED or not (R391). -/
def applyTheta (s : State) (th : Int) (hi : Nat) (t4 : DWord) : State :=
  let good := if -16 ≤ th ∧ th ≤ 16 then s.gct.good + 1 else 0
  let back := s.gct.setPend
  let s := { s with gct := { s.gct with setPend := false } }
  if s.gct.synced then
    let s := if 512 < th ∨ th < -512 then gctLoss s else { s with gct := { s.gct with good := good } }
    if back && !anyJob s then stepTheta s th hi
    else if 512 < th ∨ th < -512 then s
    else { s with gct := { noteTheta s.gct th t4 with slew := th } }
  else
    let s := { s with gct := { s.gct with good := good } }
    let s := if anyJob s then { s with gct := { noteTheta s.gct th t4 with slew := th } } else stepTheta s th hi
    if s.gct.parentSynced ∧ 8 ≤ s.gct.good then { s with gct := { s.gct with synced := true } } else s

/-- The injections of the counter's detectors act at an exchange: a loss, and the entry of a step. -/
def meetExchange (s : State) : State :=
  let s := detectAll s evGctLoss (srcUnit 0 unitCounter) false gctLoss id
  detectAll s evGctStep (srcUnit 0 unitCounter) false (fun s => stepEntry s s.gct.count) id

/-- GCT_SYNC_RSP_RECEIVE. The packet does not say whether the parent is SYNCED: a parent that is the master is, and
for any other it is free. -/
def execGctSyncRspReceive (s : State) : Ans :=
  match takeSync s 1 with
  | some ((p, t4), s) =>
    match s.gct.t1 with
    | some t1 =>
      if seg p.opnd0.toNat 15 8 = s.gct.exch.toNat ∧ parentCoord s = some p.src.toNat ∧ hasParent s = true then
        let t2 := fieldAt p.data 8 8
        let t3 := fieldAt p.data 16 8
        let th := (sgn 64 (t2 + 2 ^ 64 - t1.toNat) + sgn 64 (t3 + 2 ^ 64 - t4.toNat)) / 2
        let de := ((t4.toNat + 2 ^ 64 - t1.toNat) % 2 ^ 64 : Nat) - ((t3 + 2 ^ 64 - t2) % 2 ^ 64 : Nat) |> fun (x : Int) => x / 2
        let sure := p.src.toNat == masterCoord s
        let ps := sure || Config.freeBit s.free
        let s := if sure then s else s.useFree
        let s := { s with gct := { s.gct with
            t1 := none, parentSynced := ps
            theta := BitVec.ofNat 16 (wrap 16 (clampTo 32767 th))
            delta := BitVec.ofNat 16 (max 0 (min 65535 de)).toNat } }
        .next (meetExchange (applyTheta s th p.opnd1.toNat t4))
      else .next s
    | none => .next s
  | none => .next (dropSync s)

/-- GCT_SYNC_LOSS_TIMEOUT. -/
def execGctSyncLossTimeout (s : State) : Ans := .next (if hasParent s && s.gct.synced then gctLoss s else s)

/-- The master and the parent of the module: none of either while it is a member of no slice (R376). -/
def timeRefs (s : State) : Option Nat × Option Nat :=
  if s.slc.member then (some (masterCoord s), parentCoord s) else (none, none)

/-- A member whose master or parent has changed clears SYNCED (R383); a module that leaves its slice runs free (R376). -/
def reacquire (s : State) (was : Option Nat × Option Nat) : State :=
  if timeRefs s = was then s
  else { s with gct := { s.gct with synced := false, good := 0, t1 := none, slew := 0, slewAcc := 0, lastTheta := none
                                    rate := if s.slc.member then s.gct.rate else 0, parentSynced := false } }

/-! ### Registers (R391–R394) -/

/-- Base of the GCT block (Table 14.2). -/
def gctBase : Nat := 0x5000

/-- A committed write of `GCT_SET`. -/
def gctSet (s : State) (v : Nat) : State :=
  if anyJob s then { s with gct := { s.gct with setReject := true } }
  else
    let s := stepCount s (BitVec.ofNat 64 v) 0
    if hasParent s then { s with gct := { s.gct with setPend := true } } else s

/-- A committed write of `GCT_CMP`. -/
def gctCmp (s : State) (v : Nat) : State := { s with gct := { s.gct with cmp := BitVec.ofNat 64 v } }

/-- GCT_SET_WRITE: the low half is held; the high half commits, with 0 where none is held. -/
def execGctSetWrite (a : Agent) (hi : Bool) (v : Word) (s : State) : Ans :=
  if !isMp a then .next s
  else if hi then
    let lo := (heldOf s a (gctBase + 8)).getD 0
    .next (gctSet (dropLo s a (gctBase + 8)) (lo + 2 ^ 32 * v.toNat))
  else .next (holdLo s a (gctBase + 8) v.toNat)

/-- GCT_CMP_WRITE: the same, with the current low half where none is held. -/
def execGctCmpWrite (a : Agent) (hi : Bool) (v : Word) (s : State) : Ans :=
  if !isMp a then .next s
  else if hi then
    let lo := (heldOf s a (gctBase + 0x18)).getD (s.gct.cmp.toNat % 2 ^ 32)
    .next (gctCmp (dropLo s a (gctBase + 0x18)) (lo + 2 ^ 32 * v.toNat))
  else .next (holdLo s a (gctBase + 0x18) v.toNat)

/-- `GCT_STATUS`. -/
def gctStatus (s : State) : Nat :=
  let g := s.gct
  b2n (gctSynced s) + 2 * b2n (isMaster s) + 2 ^ 2 * b2n g.ovf + 2 ^ 3 * b2n g.loss + 2 ^ 4 * b2n g.setReject
    + 2 ^ 8 * g.steps.toNat + 2 ^ 16 * (depth s % 32)

/-- Registers of the GCT block. -/
def gctReg (s : State) (a : Agent) (o : Nat) : Option Reg :=
  let g := s.gct
  match o with
  | 0x00 => Reg.ro64 g.count.toNat
  | 0x10 =>
    Reg.rwIf (isMp a) (gctStatus s) fun v =>
      { s with gct := { g with ovf := g.ovf && !bitAt v 2, loss := g.loss && !bitAt v 3, setReject := g.setReject && !bitAt v 4 } }
  | _ =>
    if mgmt a then
      match o with
      | 0x08 => Reg.wo64If (isMp a) (gctSet s)
      | 0x14 => Reg.ro (g.theta.toNat + 2 ^ 16 * g.delta.toNat)
      | 0x18 => Reg.rw64If (isMp a) g.cmp.toNat (gctCmp s)
      | _ => none
    else none

/-- `NONDET_COUNT` of a window: a class of Table 12.1, or the total. -/
def nondetCount (s : State) (w c : Nat) : DWord :=
  let n := fun c => Tbl.get 0 s.gct.nondet (w * 4 + c)
  if c = 0 then n 1 + n 2 + n 3 else n c

/-- Count an event of a class in a window (R374). -/
def countNondet (s : State) (w c n : Nat) : State :=
  { s with gct := { s.gct with nondet := upd 0 s.gct.nondet (w * 4 + c) (· + BitVec.ofNat 64 n) } }

/-- Base of the DET block (Table 14.2). -/
def detBase : Nat := 0x6000

/-- Registers of the DET block. -/
def detReg (s : State) (a : Agent) (o : Nat) : Option Reg :=
  if !mgmt a then none
  else if 0x40 ≤ o ∧ o < 0x80 ∧ o % 4 = 0 then
    let w := (o - 0x40) / 4
    Reg.rwIf (isMp a) (b2n (s.gct.det.getLsbD w) + 2 * b2n (s.gct.late.getLsbD w)) fun v =>
      if bitAt v 1 then { s with gct := { s.gct with late := s.gct.late &&& ~~~BitVec.ofNat 16 (2 ^ w) } } else s
  else if o = 0x80 then Reg.rw (selOf s a (detBase + 0x80)) fun v => setSel s a (detBase + 0x80) (v % 64)
  else if o = 0x88 then
    let v := selOf s a (detBase + 0x80)
    Reg.ro64 (nondetCount s (v % 16) (v / 16 % 4)).toNat
  else none

end Sys2Proof.Machine
end

