-- ==== Sys2Proof/Machine/Bulk.lean ====
section
/-!
DEFINITION. Ranges of device memory as the units of the base dies move them: bytes with a stain each, taken from
the sectors that hold them and given back to the sectors that receive them (R186, R204, R335).
-/
namespace Sys2Proof.Machine
open Sys2Proof

/-- Bytes of `n` sectors from a sector address, each with the stain of its sector. -/
def bulkSectors (src win : Nat) : Nat → State → Int → State × List (Byte × Bool)
  | 0, s, _ => (s, [])
  | n + 1, s, a =>
    let (s, r) := devSector s src win a
    let (s, t) := bulkSectors src win n s (a + 32)
    (s, r.bytes.map (fun b => (b, r.stain)) ++ t)

/-- `n` bytes from device address `a`, each with the stain of its sector. -/
def bulkRead (s : State) (src win : Nat) (a n : Nat) : State × List (Byte × Bool) :=
  let o := a % 32
  let (s, l) := bulkSectors src win (sectorSpan o n) s (a - o : Nat)
  (s, (l.drop o).take n)

/-- Write bytes with their stains: each sector takes the stain of any byte that it receives. -/
def bulkWrite (s : State) (src win : Nat) (a : Nat) (l : List (Byte × Bool)) : State :=
  let o := a % 32
  (List.range (sectorSpan o l.length)).foldl (fun s i =>
    let lo := 32 * i - o
    let hi := min l.length (32 * (i + 1) - o)
    let part := (l.drop lo).take (hi - lo)
    devStore s src win (a + lo : Nat) (part.map (·.1)) (part.any (·.2))) s

/-- Stain every sector of a range. -/
def bulkStain (s : State) (src win a n : Nat) : State :=
  if n = 0 then s
  else
    let (s, l) := bulkRead s src win a n
    bulkWrite s src win a (l.map fun x => (x.1, true))

/-- Elements of `w` bytes of a run of bytes: the pattern of each, stained when one of its bytes is. -/
def bulkElems (w : Nat) (l : List (Byte × Bool)) : List (Nat × Bool) :=
  (List.range (l.length / w)).map fun i =>
    let e := (l.drop (w * i)).take w
    (leNat (e.map (·.1)), e.any (·.2))

/-- The bytes of elements of `w` bytes. -/
def elemsBulk (w : Nat) (l : List (Nat × Bool)) : List (Byte × Bool) :=
  l.flatMap fun e => (leBytes w e.1).map fun b => (b, e.2)

end Sys2Proof.Machine
end

