-- ==== Sys2Proof/Machine/Press.lean ====
section
/-!
DEFINITION. What the collectives need of the press units (11_training_support.md): press tables (Tables 11.1, 11.2),
the opening of a step (R344–R347), the space of a segment and the held gradient (R348, R349, R351), and the late
ledger (R362, R363).
-/
namespace Sys2Proof.Machine
open Sys2Proof

/-! ### Press tables (R346) -/

/-- The window of the press job. -/
def pressWin (s : State) : Nat := (windowOf s s.press.job.toNat).getD 0
/-- SOURCE of a press unit. -/
def pressSrc (d : Nat) : Nat := srcUnit d unitPress
/-- The table registered for a communicator. -/
def tableOf (s : State) (comm : BitVec 16) : Option Nat := (s.press.tables.find? (·.1 == comm)).map (·.2.toNat)

/-- Plain bytes of the press job's window. -/
def pressRead (s : State) (a n : Nat) : State × List Byte × Bool :=
  let (s, r) := devRead s (pressSrc 0) (pressWin s) (a : Nat) n
  (s, r.bytes, r.stain)

/-- Header of a table. -/
def readHeader (s : State) (tbl : Nat) : State × List Byte := let (s, b, _) := pressRead s tbl 128; (s, b)
/-- Descriptor of segment `k`. -/
def readDesc (s : State) (tbl k : Nat) : State × List Byte :=
  let (s, b, _) := pressRead s (tbl + 128 + 128 * k) 128; (s, b)

/-- The fields of a table that R360 keeps a copy of. -/
def headerCopy (s : State) (tbl : Nat) : State × PressHdr :=
  let (s, h) := readHeader s tbl
  let (s, bp) := (List.range (min 4096 (fieldAt h 36 4))).foldl (fun (s, l) k =>
    let (s, d) := readDesc s tbl k
    (s, l ++ [(BitVec.ofNat 32 (fieldAt d 40 4), BitVec.ofNat 32 (fieldAt d 44 4))])) (s, [])
  (s, { step := BitVec.ofNat 64 (fieldAt h 0 8), upd := BitVec.ofNat 64 (fieldAt h 8 8),
        scale := BitVec.ofNat 32 (fieldAt h 16 4), good := BitVec.ofNat 32 (fieldAt h 20 4),
        cur := bitAt (fieldAt h 40 1) 0, bp := bp })

/-- Take the copy of every table of the press job (R360). -/
def copyHeaders (s : State) : State :=
  s.press.tables.foldl (fun s (c, t) =>
    let (s, h) := headerCopy s t.toNat
    { s with press := { s.press with saved := Tbl.put s.press.saved c.toNat h } }) s

/-! ### Opening a step (R344–R347) -/

/-- Change step number `no`. -/
def State.updStep (s : State) (no : Nat) (f : PStep → PStep) : State :=
  { s with press := { s.press with steps := s.press.steps.map fun p => if p.no = no then f p else p } }

/-- The step that is open to further segments: opened and not yet closed. -/
def openStep (s : State) : Option PStep := s.press.steps.find? fun p => p.closing.isNone
/-- MODE that a collective with PRESS meets: that of the open step, or `PRESS_CFG.MODE` (R345). -/
def pressMode (s : State) : BitVec 2 := match openStep s with | some p => p.mode | none => s.press.mode

/-- A collective of a job with PRESS set is refused (R344, R346). -/
def pressRefused (s : State) (job : Nat) (comm : BitVec 16) : Bool :=
  s.press.job.toNat != job || pressMode s == 0 || (tableOf s comm).isNone

/-- Elements of a tile; 1 unless the optimiser is factored. -/
def tileElems (d : List Byte) : Nat :=
  if fieldAt d 0 1 = 3 ∨ fieldAt d 0 1 = 4 then 2 ^ (fieldAt d 4 1 % 16 + fieldAt d 5 1 % 16) else 1

/-- The block breaks a condition of R347 against its table and the open step. -/
def pressMismatch (b : CollBlk) (shard : Nat) (hdr desc : List Byte) (carried : List HeldSeg) : Bool :=
  b.redop != 0 || !(b.itype == 6 || b.itype == 7 || b.itype == 8) || !(b.otype == 6 || b.otype == 7)
    || shard * 2 % b.chunk.toNat != 0 || shard != fieldAt desc 8 4 || decide (fieldAt hdr 36 4 ≤ b.seg.toNat)
    || carried.any (·.seg == b.seg.toNat) || shard % tileElems desc != 0

/-- Chunk size in force: one outside the limits of Table 10.3 counts as 4,096 (log 32). -/
def chunkOf (b : CollBlk) : Nat :=
  let c := b.chunk.toNat
  if c % 4096 = 0 ∧ 4096 ≤ c ∧ c ≤ 262144 then c else 4096

/-- Bytes of a shard of `elems` 16-bit values that die `b` holds: its chunks c with c mod 8 = b (R348). -/
def diePart (elems chunk b : Nat) : Nat :=
  (List.range (ceilDiv (2 * elems) chunk)).foldl (fun n c =>
    if c % 8 = b then n + min chunk (2 * elems - chunk * c) else n) 0

/-- Bytes of die `b`'s window taken by the steps in progress. -/
def windowTaken (s : State) (b : Nat) : Nat :=
  s.press.steps.foldl (fun n p => p.segs.foldl (fun n g => n + Tbl.get 0 g.window b) n) 0
/-- Address and length of each part of die `b` that the steps in progress hold in spill. -/
def spillTaken (s : State) (b : Nat) : List (Nat × Nat) :=
  s.press.steps.flatMap fun p => p.segs.filterMap fun g =>
    (g.spill.find? (·.1 == b)).map fun e => (e.2, Tbl.get 0 g.spilled b)

/-- The lowest address of a range `[lo, hi)` from which `n` bytes are free of the parts held there (log 144). -/
def firstRoom (lo hi n : Nat) (held : List (Nat × Nat)) : Option Nat :=
  ((lo :: held.map fun e => e.1 + e.2).filter fun a =>
      decide (lo ≤ a) && decide (a + n ≤ hi) && held.all fun e => decide (a + n ≤ e.1 ∨ e.1 + e.2 ≤ a)).foldl
    (fun best a => some (min a (best.getD a))) none

/-- Give die `b`'s part of a segment its space (R348, R349). -/
def placePart (s : State) (mode : BitVec 2) (hdr : List Byte) (g : HeldSeg) (b : Nat) : HeldSeg :=
  let n := diePart g.elems g.chunk b
  if n = 0 then g
  else if mode ≠ 2 ∧ windowTaken s b + n ≤ shelfBytes s b then { g with window := Tbl.set 0 g.window b n }
  else
    let eighth := fieldAt hdr 64 8 / 8
    let lo := fieldAt hdr 56 8 + b * eighth
    match firstRoom lo (lo + eighth) n (spillTaken s b) with
    | some a => { g with spilled := Tbl.set 0 g.spilled b n, spill := Tbl.put g.spill b a }
    | none => { g with noSpace := true }

/-- The lead cluster's block with PRESS set has been read: its segment joins the open step, or opens one. True when
it breaks R347. -/
def pressJoin (s : State) (k : CollKey) (op : BitVec 3) (b : CollBlk) (shard : Nat) : State × Bool :=
  let tbl := (tableOf s k.comm).getD 0
  let (s, hdr) := readHeader s tbl
  let (s, desc) := readDesc s tbl b.seg.toNat
  let (s, p) :=
    match openStep s with
    | some p => (s, p)
    | none =>
      let p : PStep := { no := s.press.opened + 1, comm := k.comm, mode := s.press.mode }
      ({ s with press := { s.press with opened := s.press.opened + 1, steps := s.press.steps ++ [p] } }, p)
  let bad := pressMismatch b shard hdr desc p.segs
  let g : HeldSeg := { key := k, seg := b.seg.toNat, otype := b.otype, chunk := chunkOf b, elems := shard }
  let g := (List.range 8).foldl (placePart s p.mode hdr) g
  (s.updStep p.no fun p =>
    { p with segs := p.segs ++ [g], closing := if op = 5 then some k else p.closing
             comm := if op = 5 then k.comm else p.comm }, bad)

/-! ### The held gradient (R348, R349, R351) -/

/-- Sum of squares of a shard in the order of R175 with every lane active (R331). -/
def sumSquares (vals : List Word) : Word :=
  let id := redIdentity 0xCF
  let acc := vals.zipIdx.foldl (fun (t : Tbl Word) (x, j) => upd id t (j % 16) (fun y => f32Add y (f32Mul x x))) []
  redTree 0xCF fun l => Tbl.get id acc l

/-- Some element is a NaN or an infinity. -/
def anyNonfinite (vals : List Word) : Bool := vals.any fun x => !f32Finite x

/-- Positions of a shard that die `b` holds. -/
def onDie (chunk b j : Nat) : Bool := 2 * j / chunk % 8 == b

/-- Write the spilled parts of a segment to the spill area. -/
def spillOut (s : State) (g : HeldSeg) (vals : List (BitVec 16)) : State :=
  g.spill.foldl (fun s (b, a) =>
    let mine := (vals.zipIdx.filter fun x => onDie g.chunk b x.2).map fun x => (x.1.toNat, g.stain)
    bulkWrite s (pressSrc b) (pressWin s) a (elemsBulk 2 mine)) s

/-- A segment finds no room: the job stops (R349). -/
def pressNospace (s : State) (seg : Nat) : State :=
  let s := { s with press := { s.press with noSpace := true } }
  let w := pressWin s
  let s := raise s { cls := evPressNospace, src := pressSrc 0, job := s.press.job.toNat, win := w, sev := 2, detail := seg }
  jobStop s w { cause := 4, cls := evPressNospace }

/-- A shard with PRESS set is whole: its segment is held, or finds no room and the job stops. -/
def pressHold (s : State) (k : CollKey) (vals : List (Word × Bool)) : State :=
  match s.press.steps.find? (fun p => p.segs.any (·.key == k)) with
  | none => s
  | some p =>
    let ws := vals.map (·.1)
    let fill := fun (g : HeldSeg) =>
      { g with vals := some (ws.map fun x => BitVec.ofNat 16 (toDest g.otype.toNat false x))
               stain := g.stain || vals.any (·.2), sumsq := sumSquares ws, nonfinite := anyNonfinite ws }
    let s := s.updStep p.no fun p => { p with segs := p.segs.map fun g => if g.key == k then fill g else g }
    match (p.segs.find? (·.key == k)).map fill with
    | none => s
    | some g =>
      detect s evPressNospace (pressSrc 0) (pressWin s) g.noSpace (fun s => pressNospace s g.seg) fun s =>
        spillOut s g (g.vals.getD [])

/-- The step is sampled: the CRC-32C of SEED and the header STEP is 0 modulo RATE (R408). -/
def sampled (s : State) (seed step : Nat) : Bool :=
  s.guard.fitRate != 0 && (crc32c (leBytes 8 seed ++ leBytes 8 step)).toNat % s.guard.fitRate.toNat == 0

/-- What the module contributes to the closing norm of a press step: the folded sum of squares, and the non-finite
bit and suspect bit (R351, R409); none while a segment of the step is not yet whole. -/
def pressContribution (s : State) (k : CollKey) : Option (State × Word × Nat × Bool) :=
  match s.press.steps.find? (fun p => p.closing == some k) with
  | none => none
  | some p =>
    if p.segs.any (·.vals.isNone) then none
    else
      let sum := match p.segs with | [] => 0 | g :: t => t.foldl (fun a g => f32Add a g.sumsq) g.sumsq
      let (s, hdr) := readHeader s ((tableOf s k.comm).getD 0)
      let seed := (s.jobAt (pressWin s)).seed.toNat
      let sus := p.suspect || s.press.holdJobs.contains s.press.job || sampled s seed (fieldAt hdr 0 8)
      let s := s.updStep p.no fun p => { p with suspect := sus, contributed := true }
      some (s, sum, b2n (p.segs.any (·.nonfinite)) + 2 * b2n sus, p.segs.any (·.stain))

/-- Q, F and the suspect bit are delivered to the press units (R352, R409). -/
def pressDeliver (s : State) (k : CollKey) (q : Word) (flags : Nat) : State :=
  match s.press.steps.find? (fun p => p.closing == some k) with
  | none => s
  | some p => s.updStep p.no fun p => { p with global := some (q, bitAt flags 0, bitAt flags 1) }

/-! ### The late ledger (R362, R363) -/

/-- The entries that the ledger of a table holds. -/
def ledgerOf (s : State) (tbl : Nat) : List LateEntry := s.press.late.filter fun e => tableOf s e.comm == some tbl

/-- An entry of Table 11.4. -/
def lateRecord (e : LateEntry) (data : Nat) : List Byte :=
  leBytes 2 e.comm.toNat ++ leBytes 2 e.seq.toNat ++ leBytes 1 e.epoch.toNat ++ leBytes 1 (b2n e.stain)
    ++ leBytes 2 e.seg.toNat ++ leBytes 2 e.rank.toNat ++ zeros 2 ++ leBytes 4 e.offset ++ leBytes 4 e.vals.length
    ++ zeros 4 ++ leBytes 8 data ++ zeros 32

/-- The lowest slot of a ledger that no entry holds. -/
def freeSlot (held : List LateEntry) (cap : Nat) : Option Nat :=
  (List.range (min cap (held.length + 1))).find? fun i => held.all fun e => e.slot != i

/-- Write a late contribution to the ledger of its communicator's table; without a table there is no ledger. Its values
stand at the lowest free place behind the LATE_CAP entries (log 144). -/
def lateWrite (s : State) (e : LateEntry) : State :=
  match tableOf s e.comm with
  | none => s
  | some tbl =>
    let (s, h) := readHeader s tbl
    let cap := fieldAt h 44 4
    let base := fieldAt h 48 8
    let held := ledgerOf s tbl
    match freeSlot held cap with
    | some i =>
      let n := 4 * e.vals.length
      let data := (firstRoom (base + 64 * cap) (2 ^ 64) n (held.map fun x => (x.data, 4 * x.vals.length))).getD
        (base + 64 * cap)
      let e := { e with slot := i, data := data }
      let w := pressWin s
      let s := bulkWrite s (pressSrc 0) w (base + 64 * i) ((lateRecord e data).map fun b => (b, false))
      let s := bulkWrite s (pressSrc 0) w data (elemsBulk 4 (e.vals.map fun x => (x.toNat, e.stain)))
      { s with press := { s.press with late := s.press.late ++ [e] } }
    | none =>
      { s with press := { s.press with lateLost := true
                                       lost := BitVec.ofNat 16 (satTo 16 (s.press.lost.toNat + 1)) } }

/-- Put an entry among others in ascending RANK and then SEQ. -/
def lateInsert (e : LateEntry) : List LateEntry → List LateEntry
  | [] => [e]
  | x :: t => if e.rank.toNat * 2 ^ 16 + e.seq.toNat < x.rank.toNat * 2 ^ 16 + x.seq.toNat then e :: x :: t
    else x :: lateInsert e t

/-- Step `p` of a communicator carries a segment. -/
def carriesSeg (p : PStep) (comm : BitVec 16) (seg : Nat) : Bool :=
  p.segs.any fun g => g.key.comm == comm && g.seg == seg

/-- Entries that the node's value of elements `[lo, lo + n)` of a shard folds (R363): those not yet folded of earlier
steps for the same communicator, segment and shard, where no step between carries the segment. -/
def lateMatches (s : State) (k : CollKey) (seg shard lo n : Nat) : List LateEntry :=
  let now := match s.press.steps.find? (fun p => p.segs.any (·.key == k)) with | some p => p.no | none => 0
  let between := fun (e : LateEntry) => s.press.steps.any fun p =>
    decide (e.no < p.no) && decide (p.no < now) && carriesSeg p k.comm seg
  (s.press.late.filter fun e => e.comm == k.comm && e.seg.toNat == seg && e.shard == shard && decide (lo ≤ e.offset)
    && decide (e.offset < lo + n) && decide (e.no < now) && !e.folded && !between e).foldl (fun l e => lateInsert e l) []

/-- Fold late entries into a node's value by FP32 addition; each counts once (R363, R374). -/
def lateFold (s : State) (win : Nat) (k : CollKey) (seg shard lo : Nat) (vals : List (Word × Bool)) :
    State × List (Word × Bool) :=
  match tableOf s k.comm with
  | none => (s, vals)
  | some tbl =>
    let es := lateMatches s k seg shard lo vals.length
    if es = [] then (s, vals)
    else
      let (s, h) := readHeader s tbl
      if fieldAt h 41 1 ≠ 1 then (s, vals)
      else
        let vals := es.foldl (fun (v : List (Word × Bool)) e =>
          v.zipIdx.map fun (x, j) =>
            let i := lo + j
            if e.offset ≤ i ∧ i < e.offset + e.vals.length then
              (f32Add x.1 (e.vals.getD (i - e.offset) 0), x.2 || e.stain) else x) vals
        ({ s with
            gct := { s.gct with nondet := upd 0 s.gct.nondet (win * 4 + 2) (· + BitVec.ofNat 64 es.length) }
            press := { s.press with late := s.press.late.map fun e => if es.contains e then { e with folded := true } else e } },
          vals)

/-- The entries that the completing step does away with (R363): under LATE 1 those of an earlier step whose segment it
carries, folded or not, and under LATE 0 every one of an earlier step of its communicator. -/
def lateDiscard (s : State) (p : PStep) (late : Bool) : State :=
  let gone := fun (e : LateEntry) => decide (e.no < p.no) &&
    if late then carriesSeg p e.comm e.seg.toNat else e.comm == p.comm || p.segs.any (·.key.comm == e.comm)
  { s with press := { s.press with late := s.press.late.filter fun e => !gone e } }

end Sys2Proof.Machine
end

