-- ==== Sys2Proof/Machine/Links.lean ====
section
/-!
DEFINITION. Tensor links (R240–R265): the wire flit with its check code, training and beacons, retry and credits,
the choice of each flit slot, lane faults and retrain windows; and the registers of the TL blocks (R286, R287).
-/
namespace Sys2Proof.Machine
open Sys2Proof

/-! ### The wire flit (R249, R250, R252, R253) -/

/-- A wire flit of 72 bytes from its link word and its 60 bytes of payload. -/
def wireFlit (word : Nat) (payload : List Byte) : List Byte :=
  let b := leBytes 4 word ++ cut payload 0 60
  let d := b ++ leBytes 4 (crc32 b).toNat
  d ++ rsCheck 4 d

/-- Decode a wire flit: the corrected bytes and the number of symbols corrected, none where it is discarded (R250). -/
def unwire (f : List Byte) : Option (List Byte × Nat) :=
  if f.length ≠ 72 then none
  else
    match rsDecode2 f with
    | none => none
    | some w =>
      if crc32 (w.take 64) = BitVec.ofNat 32 (fieldAt w 64 4) then
        some (w, ((List.range 72).filter fun i => byteAt w i != byteAt f i).length)
      else none

/-- Link word of a decoded flit (Table 8.5). -/
def linkWord (w : List Byte) : Nat := fieldAt w 0 4
/-- KIND. -/
def lwKind (n : Nat) : Nat := seg n 1 0
/-- Subtype of a control flit: payload byte 4 of the flit. -/
def ctlSub (w : List Byte) : Nat := (byteAt w 4).toNat

/-- Flits acknowledged through `a` leave the replay buffer (R255). -/
def ackThrough (k : TLink) (a : Nat) : TLink :=
  if k.replay.any (fun x => x.seq.toNat == a) then
    let rest := (k.replay.dropWhile fun x => x.seq.toNat != a).drop 1
    { k with replay := rest, replays := k.replays.filter (fun e => rest.any fun x => x.seq.toNat == e.1)
             resend := k.resend.filter fun x => rest.contains x }
  else k

/-- What a good flit that is not discarded brings: its ACK and its credits (R252, R258). -/
def applyWord (k : TLink) (n : Nat) : TLink :=
  let k := ackThrough k (seg n 25 17)
  let crn := seg n 31 29
  if crn = 0 then k else { k with freed := upd 0 k.freed (seg n 28 26) (fun x => (x + crn) % 2 ^ 16) }

/-- Count the corrected symbols of a good flit. -/
def countFixed (s : State) (l fixed : Nat) : State := if fixed = 0 then s else tlCount s l 0 fixed

/-- Count corrected symbols and apply the link word of a good flit. -/
def goodFlit (s : State) (l : Nat) (w : List Byte) (fixed : Nat) : State :=
  (countFixed s l fixed).updLink l fun k => applyWord k (linkWord w)

/-- The receiver of the link has flit lock, or carries packets, and no window is open. -/
def hears (k : TLink) : Bool := (k.locked || k.state == 2) && !k.window

/-! ### Training (R246, Table 8.2) -/

/-- Training begins from time 0: frames are sent on all lanes. -/
def startTraining (k : TLink) : TLink :=
  { dropWindows k with state := 0, reason := 0, train := 1, locked := false, pstate := 0, preason := 0 }

/-- LINK_TRAIN_SIGNAL_DETECT: a failed boot holds every link DOWN (R495). -/
def execLinkTrainSignalDetect (link : Link) (s : State) : Ans :=
  .next (if linkEn s link.val && s.boot.state != 2 && (s.link link.val).train == 1 then
    s.updLink link.val fun k => { k with train := 2, state := 1 } else s)

/-- LINK_TRAIN_RESTART: no signal on four lanes; STATE stays DOWN and PSTATE reads ABSENT. -/
def execLinkTrainRestart (link : Link) (s : State) : Ans :=
  .next (if linkEn s link.val && (s.link link.val).train == 1 then s.updLink link.val startTraining else s)

/-- LINK_TRAIN_EQUALISED. -/
def execLinkTrainEqualised (link : Link) (s : State) : Ans :=
  .next (if (s.link link.val).train == 2 then s.updLink link.val fun k => { k with train := 3 } else s)

/-- Lanes of a mask, ascending. -/
def lanesOf (m : BitVec 9) : List Nat := (List.range 9).filter fun i => m.getLsbD i
/-- How many they are. -/
def laneCount (m : BitVec 9) : Nat := (lanesOf m).length

/-- Logical lanes of a direction (R244). -/
def laneWidth (half : Bool) : Nat := if half then 4 else 8

/-- The physical lanes that carry logical lanes 0, 1, …: the usable lanes by rank (R244). -/
def carriers (m : BitVec 9) (half : Bool) : List Nat := (lanesOf m).take (laneWidth half)

/-- A spare is in use in place of a failed lane: some logical lane is not on the physical lane of its number (R244). -/
def darnInUse (m : BitVec 9) (half : Bool) : Bool := carriers m half != List.range (laneWidth half)

/-- The symbols of a byte, least significant bits first, two bits to a symbol (R251). -/
def byteSymbols (b : Byte) : List (BitVec 2) := (List.range 4).map fun i => BitVec.ofNat 2 (b.toNat / 4 ^ i)

/-- The bytes of a wire flit on logical lane `j` of `n`, in order (R251). -/
def laneBytes (n j : Nat) (f : List Byte) : List Byte := (f.zipIdx.filter fun x => x.2 % n == j).map (·.1)

/-- What each physical lane carries of a wire flit (R244, R251). -/
def spreadFlit (m : BitVec 9) (half : Bool) (f : List Byte) : List (Nat × List (BitVec 2)) :=
  (carriers m half).zipIdx.map fun (p, j) => (p, (laneBytes (laneWidth half) j f).flatMap byteSymbols)

/-- A byte of its four symbols. -/
def symbolByte (l : List (BitVec 2)) : Byte :=
  BitVec.ofNat 8 ((List.range 4).foldl (fun n i => n + 4 ^ i * (l[i]?.getD 0).toNat) 0)

/-- The wire flit that the physical lanes of a direction carry (R244, R251). -/
def gatherFlit (m : BitVec 9) (half : Bool) (lanes : List (Nat × List (BitVec 2))) : List Byte :=
  let n := laneWidth half
  (List.range 72).map fun i =>
    match (carriers m half)[i % n]? with
    | some p => symbolByte ((((lanes.find? (·.1 == p)).map (·.2)).getD []).drop (4 * (i / n)))
    | none => 0

/-- LINK_TRAIN_LANES_FOUND: lane permutation, usable lanes and width (R244–R246), with the darns and widths on
record applied (R265). -/
def execLinkTrainLanesFound (link : Link) (tx rx : BitVec 9) (permOk : Bool) (s : State) : Ans :=
  let k := s.link link.val
  if k.train ≠ 3 then .next s
  else if !permOk then .next (s.updLink link.val fun k => { k with state := 5, reason := 4 })
  else
    let t := tx &&& ~~~k.recTx
    let r := rx &&& ~~~k.recRx
    if laneCount t < 4 ∨ laneCount r < 4 then .next (s.updLink link.val fun k => { k with state := 6, reason := 2, train := 0 })
    else
      .next (s.updLink link.val fun k =>
        { k with train := 4, txLanes := t, rxLanes := r, txHalf := k.recTxHalf || decide (laneCount t < 8),
                 rxHalf := k.recRxHalf || decide (laneCount r < 8),
                 cal := k.cal ||| BitVec.ofNat 4 (2 ^ k.band.toNat), usedBand := k.band })

/-- LINK_FLIT_LOCK. -/
def execLinkFlitLock (link : Link) (s : State) : Ans :=
  .next (if (s.link link.val).train == 4 then s.updLink link.val fun k => { k with train := 5, locked := true } else s)

/-! ### Beacons (R247, R248, R291) -/

/-- The module is in shuttered mode. -/
def shuttered (s : State) : Bool := s.boot.state == 3

/-- State byte of the link's beacon: its own state; a module in shuttered mode says so once the beacon exchange has
passed (R248). -/
def beaconState (s : State) (k : TLink) : Nat :=
  if shuttered s && !(k.state == 1 || k.state == 5 || k.state == 6) then 4 else k.state.toNat

/-- Payload of a beacon from byte 4 of the flit on (Table 8.6). -/
def beaconBytes (s : State) (l : Nat) : List Byte :=
  let k := s.link l
  let reason := if beaconState s k = 4 then s.boot.why else k.reason
  [3, 0, 0, 0] ++ leBytes 2 (myCoord s) ++ [BitVec.ofNat 8 (l / 8 + 4 * (l % 8)), BitVec.ofNat 8 (beaconState s k), reason]
    ++ leBytes 2 s.tl.size.toNat ++ [0] ++ leBytes 8 s.fuse.serial.toNat

/-- BEACON_SEND: an enabled link that is not DOWN queues its beacon. -/
def execBeaconSend (link : Link) (s : State) : Ans :=
  .next (if linkEn s link.val && (s.link link.val).state != 0 then
    s.updLink link.val fun k => { k with ctl := k.ctl ++ [(3, beaconBytes s link.val)] } else s)

/-- The check of a beacon (R247): 0 where it passes, or the reason. -/
def beaconCheck (s : State) (l : Nat) (w : List Byte) : Nat :=
  let b := (byteAt w 10).toNat
  if fieldAt w 8 2 ≠ partner s l then 1
  else if b % 4 ≠ l / 8 ∨ b / 4 % 8 ≠ (if l % 2 = 0 then l % 8 + 1 else l % 8 - 1) then 2
  else if fieldAt w 13 2 ≠ s.tl.size.toNat then 3
  else 0

/-- The link reaches UP: SEQ is 0, the credits are synchronised (Table 8.2, R258, R291). -/
def goUp (k : TLink) : TLink :=
  { k with state := 2, reason := 0, txSeq := 0, rxSeq := 0, replay := [], resend := [], replays := [], retrying := false,
           freed := [], sent := [], myFreed := [], owed := [], ctl := k.ctl ++ [(2, [])] }

/-- Why a partner's state breaks a slice (R417): 1 absent, 2 shuttered, 3 failed. -/
def whyOf (p : Nat) : Nat := if p = 4 then 2 else if p = 0 then 1 else 3

/-- The partner is not in a state in which the link may be UP. -/
def partnerLost (p : Nat) : Bool := p == 4 || p == 5 || p == 6

/-- The partner's FENCE bit is 1, by its beacon in state `p` that follows one in state `was`. A beacon of UP says that
it is 0. A beacon of FENCED that takes the place of one of UP says that it is 1. Any other leaves it open whose bit holds
the link, and the answer is free (log 27). -/
def partnerFence (s : State) (was p : Nat) : Bool :=
  if p = 2 ∨ p = 7 then false else if p = 3 ∧ was = 2 then true else Config.freeBit s.free

/-- A checked beacon of a partner that is not MISWIRED, SHUTTERED or FAILED: the link is UP while the FENCE bit of
neither end is 1, and FENCED otherwise (Table 8.2, R291). -/
def fenceMove (s : State) (l was p : Nat) : State :=
  let held := partnerFence s was p
  let s := if (p = 2 ∨ p = 7) ∨ (p = 3 ∧ was = 2) then s else s.useFree
  if carries (s.link l) then (if p = 3 ∧ held = true then leaveUp s l 3 0 3 else s)
  else s.updLink l fun k => if k.fence || held then { k with state := 3, reason := 0 } else goUp k

/-- What a checked beacon in partner state `p`, after one in state `was`, makes of the link. -/
def beaconMove (s : State) (l was p : Nat) (reason : BitVec 8) : State :=
  let k := s.link l
  let up := carries k
  if p = 5 then
    if up then leaveUp s l 5 reason 3 else s.updLink l fun k => { k with state := 5, reason := reason }
  else if partnerLost p then
    if up then leaveUp s l 1 0 (whyOf p)
    else if shuttered s && (k.state == 1 || k.state == 5) then s.updLink l fun k => { k with state := 4, reason := 0 } else s
  else if up || k.state == 1 || k.state == 3 || k.state == 5 then
    if shuttered s && !up then s.updLink l fun k => { k with state := 4, reason := 0 } else fenceMove s l was p
  else s

/-- A beacon is received on a link that trains or is trained. -/
def beaconIn (s : State) (l : Nat) (w : List Byte) : State :=
  let p := (byteAt w 11).toNat
  if p < 8 then
    let was := (s.link l).pstate.toNat
    let s := s.updLink l fun k => { k with pstate := BitVec.ofNat 3 p, preason := byteAt w 12 }
    match beaconCheck s l w with
    | 0 => beaconMove s l was p (byteAt w 12)
    | r =>
      if carries (s.link l) then leaveUp s l 5 (BitVec.ofNat 8 r) 3
      else s.updLink l fun k => { k with state := 5, reason := BitVec.ofNat 8 r }
  else s

/-- A flit of a kind and subtype arrives at a link that hears it. -/
def flitIn (s : State) (l : Nat) (flit : List Byte) (kind sub : Nat) (f : State → List Byte → State) : State :=
  if linkEn s l && hears (s.link l) then
    match unwire flit with
    | some (w, fixed) =>
      if lwKind (linkWord w) = kind ∧ (kind = 2 → ctlSub w = sub) then f (goodFlit s l w fixed) w else s
    | none => s
  else s

/-- BEACON_RECEIVE. -/
def execBeaconReceive (link : Link) (flit : List Byte) (s : State) : Ans :=
  .next (flitIn s link.val flit 2 3 fun s w => beaconIn s link.val w)

/-- FLIT_LOCK_LOSS: a receiver that is not UP loses its partner; PSTATE reads ABSENT. A link that its own FENCE bit holds
stays FENCED until it is unfenced; any other trains again (R291). -/
def execFlitLockLoss (link : Link) (s : State) : Ans :=
  let k := s.link link.val
  if linkEn s link.val && !carries k && k.train != 0 then
    .next (s.updLink link.val fun k =>
      if k.state = 3 ∧ k.fence = true then { k with locked := false, pstate := 0, preason := 0 } else startTraining k)
  else .next s

/-- LINK_LEAVE_UP: the link loses its partner, and trains again. -/
def execLinkLeaveUp (link : Link) (s : State) : Ans :=
  if carries (s.link link.val) then
    .next ((leaveUp s link.val 0 0 1).updLink link.val startTraining)
  else .next s

/-! ### Link control (Table 8.15) -/

/-- The FENCE bits and the slice registers may be written now (R286, R309). -/
def mayRewrite (s : State) : Bool := s.slc.drained

/-- Set EN: 0 holds the link DOWN and silent; 1 starts training. -/
def setEn (s : State) (l : Nat) (v : Bool) : State :=
  if torusN s (linkDim l) = 1 ∨ v = linkEn s l then s
  else if v then s.updLink l fun k => startTraining { k with en := some true }
  else
    let s := if carries (s.link l) then leaveUp s l 0 0 3 else s
    s.updLink l fun k => { startTraining k with en := some false, train := 0, ctl := [] }

/-- Set FENCE: a link that is UP becomes FENCED; one that is unfenced returns at its partner's beacons, or trains
again where it has lost flit lock (R291). -/
def setFence (s : State) (l : Nat) (v : Bool) : State :=
  let k := s.link l
  if k.fence = v then s
  else
    let s := s.updLink l fun k => { k with fence := v }
    if v then
      if carries k then leaveUp s l 3 0 0
      else if k.state = 1 ∧ k.locked = true then s.updLink l fun k => { k with state := 3 } else s
    else if k.state = 3 ∧ k.locked = false then s.updLink l startTraining else s

/-- Request a retrain window, at the head of the queue where the link asks so (R256, R263). -/
def askWindow (s : State) (l : Nat) (head : Bool) : State :=
  let s := s.updLink l fun k => { k with pending := true }
  if head then { s with tl := { s.tl with asked := l :: s.tl.asked.filter (· != l) } }
  else if s.tl.asked.contains l then s
  else { s with tl := { s.tl with asked := s.tl.asked ++ [l] } }

/-- Write of `TL_LINK_CTL_n`. -/
def linkCtlWrite (s : State) (l v : Nat) : State :=
  let s := setEn s l (bitAt v 0)
  let s := if mayRewrite s then setFence s l (bitAt v 1) else s
  if bitAt v 2 then askWindow s l false else s

/-- TL_LINK_EN_WRITE. -/
def execTlLinkEnWrite (a : Agent) (link : Link) (v : Word) (s : State) : Ans :=
  .next (if isMp a then linkCtlWrite s link.val v.toNat else s)
/-- TL_LINK_FENCE_WRITE. -/
def execTlLinkFenceWrite (a : Agent) (link : Link) (v : Word) (s : State) : Ans :=
  .next (if isMp a then linkCtlWrite s link.val v.toNat else s)
/-- TL_LINK_RETRAIN_WRITE. -/
def execTlLinkRetrainWrite (a : Agent) (link : Link) (v : Word) (s : State) : Ans :=
  .next (if isMp a then linkCtlWrite s link.val v.toNat else s)

/-- Put `TL_SLICE` of a base die. -/
def putSlice (s : State) (die v : Nat) : State :=
  { s with tl := { s.tl with base := Tbl.set 0 s.tl.base die (BitVec.ofNat 12 v)
                             k := Tbl.set none s.tl.k die (some (BitVec.ofNat 12 (v / 2 ^ 12))) } }

/-- Write of `TL_SLICE`. -/
def tlSliceWrite (s : State) (die v : Nat) : State := if mayRewrite s then putSlice s die v else s

/-- TL_SLICE_WRITE. -/
def execTlSliceWrite (a : Agent) (die : Die) (v : Word) (s : State) : Ans :=
  .next (if isMp a then tlSliceWrite s die.val v.toNat else s)

/-! ### Retry (R254–R256) -/

/-- `TL_ERR_THR` of a base die. -/
def laneThr (s : State) (die : Nat) : Nat := (Tbl.get 1000 s.tl.laneThr die).toNat
/-- REPLAY_THR of a base die. -/
def replayThr (s : State) (die : Nat) : Nat := (Tbl.get 8 s.tl.replayThr die).toNat

/-- Resend every buffered flit from SEQ `e` (R255). Each counts its replays, and one that reaches the threshold asks for
a window (R256). -/
def replayFrom (s : State) (l e : Nat) : State :=
  let k := s.link l
  let rest := k.replay.dropWhile fun x => x.seq.toNat != e
  if rest = [] then s
  else
    let s := tlCount s l 2 1
    let s := s.updLink l fun k =>
      { k with resend := rest, replays := rest.foldl (fun t x => upd 0 t x.seq.toNat (· + 1)) k.replays }
    if rest.any fun x => Tbl.get 0 k.replays x.seq.toNat + 1 == replayThr s (linkDie l) then askWindow s l true else s

/-- REPLAY_TIMEOUT. -/
def execReplayTimeout (link : Link) (s : State) : Ans :=
  let k := s.link link.val
  match k.replay with
  | x :: _ => .next (if k.state = 2 then replayFrom s link.val x.seq.toNat else s)
  | [] => .next s

/-- RETRY_REQ_RECEIVE. -/
def execRetryReqReceive (link : Link) (flit : List Byte) (s : State) : Ans :=
  .next (flitIn s link.val flit 2 1 fun s w =>
    if (s.link link.val).state = 2 then replayFrom s link.val (fieldAt w 6 2) else s)

/-- IDLE_FLIT_RECEIVE. -/
def execIdleFlitReceive (link : Link) (flit : List Byte) (s : State) : Ans :=
  .next (flitIn s link.val flit 0 0 fun s _ => s)

/-- CREDIT_SYNC_RECEIVE: the counts of freed buffers take the synced values (R258). -/
def execCreditSyncReceive (link : Link) (flit : List Byte) (s : State) : Ans :=
  .next (flitIn s link.val flit 2 2 fun s w =>
    s.updLink link.val fun k =>
      { k with freed := (List.range 6).foldl (fun t i => Tbl.set 0 t i (fieldAt w (8 + 2 * i) 2)) k.freed })

/-- CREDIT_SYNC_SEND: the counts are those of the slot in which the message goes. -/
def execCreditSyncSend (link : Link) (s : State) : Ans :=
  .next (if (s.link link.val).state = 2 then s.updLink link.val fun k => { k with ctl := k.ctl ++ [(2, [])] } else s)

/-- A data flit fails its check: it is discarded and RETRY_REQ(e) goes in the next slot, once until a flit with SEQ = e is
accepted or 1 µs has passed (R254; whether it has passed is free). -/
def failedFlit (s : State) (l : Nat) : State :=
  let k := s.link l
  let send := !k.retrying || Config.freeBit s.free
  let s := if k.retrying then s.useFree else s
  if send then
    let s := tlCount s l 1 1
    s.updLink l fun k => { k with retrying := true, ctl := (1, []) :: k.ctl }
  else s

/-- The flits that a packet has in all, from its head, and those had with this one (R276). -/
def comingAfter (t : Tbl (Nat × Nat)) (vc : Nat) (x : Flit) : Tbl (Nat × Nat) :=
  if x.tail then Tbl.set (0, 0) t vc (0, 0)
  else if x.head then Tbl.set (0, 0) t vc (flitCount (flitHeader x).len.toNat, 1)
  else upd (0, 0) t vc fun (a, h) => (a, h + 1)

/-- A data flit with SEQ = e is accepted into its buffer (R254). -/
def acceptFlit (s : State) (l : Nat) (x : Flit) : State :=
  let s := tlCount s l 8 1
  let vc := x.vc.toNat
  let s := s.updLink l fun k => { k with rxSeq := k.rxSeq + 1, retrying := false }
  if vc < 6 then
    drainVc (s.updLink l fun k =>
      { k with inbuf := upd [] k.inbuf vc (· ++ [x]), coming := comingAfter k.coming vc x }) l vc
  else s

/-- An injection of class 0x38 into a flit that opens a packet of a window's job: 1 or 2 symbols, which the code
corrects (R404). -/
def injectFlit (s : State) (l : Nat) (x : Flit) : State :=
  if x.head then
    match (windowOf s (flitHeader x).job.toNat).bind (takeInject s evCorrected (linkSrc l)) with
    | some (n, s) => tlCount s l 0 n
    | none => s
  else s

/-- DATA_FLIT_RECEIVE: a good flit out of sequence is discarded, with the credits that it returns (R254, R258). -/
def execDataFlitReceive (link : Link) (flit : List Byte) (s : State) : Ans :=
  let l := link.val
  if (s.link l).state ≠ 2 then .next s
  else
    match unwire flit with
    | none => .next (failedFlit s l)
    | some (w, fixed) =>
      if lwKind (linkWord w) ≠ 1 then .next s
      else
        let x : Flit := { dataFlit (w.take 64) with time := copyStamp s (linkDie l) }
        .next (if x.seq = (s.link l).rxSeq then acceptFlit (injectFlit (goodFlit s l w fixed) l x) l x
          else countFixed s l fixed)

/-! ### The flit slot (R255, R257–R260, R262) -/

/-- Buffers of a virtual channel (Table 8.7). -/
def vcBuffers (vc : Nat) : Nat := if vc < 2 then 160 else if vc < 4 then 24 else 8

/-- A credit is held for a virtual channel. -/
def hasCredit (k : TLink) (vc : Nat) : Bool :=
  decide ((Tbl.get 0 k.sent vc + 2 ^ 16 - Tbl.get 0 k.freed vc % 2 ^ 16) % 2 ^ 16 < vcBuffers vc)

/-- The sources that hold a flit for output VC `vc` of link `l`: the injected flits (0) and the inputs (link + 1, VC),
each with the flit. -/
def sources (s : State) (l vc : Nat) : List ((Nat × Nat) × Flit) :=
  let own := match Tbl.get [] (s.link l).outq vc with
    | x :: _ => [((0, vc), x)]
    | [] => []
  own ++ (List.range 32).flatMap fun i =>
    (List.range 6).filterMap fun v =>
      match Tbl.get none (s.link i).route v with
      | some r =>
        match r.branches.find? fun b => b.link == l && b.vc == vc with
        | some b => (packetFlit (Tbl.get [] (s.link i).inbuf v) (b.sent - r.gone)).map fun x => ((i + 1, v), x)
        | none => none
      | none => none

/-- The number of a source in the round of an output VC. -/
def srcNum (src : Nat × Nat) : Nat := 6 * src.1 + src.2 + 1

/-- The flit that output VC `vc` may send: of the packet in progress, or of the next source in turn. -/
def vcReady (s : State) (l vc : Nat) : Option ((Nat × Nat) × Flit) :=
  let k := s.link l
  if !hasCredit k vc then none
  else
    let c := sources s l vc
    match Tbl.get none k.owner vc with
    | some o => c.find? (·.1 == o)
    | none =>
      let heads := c.filter (·.2.head)
      (heads.find? fun x => decide (Tbl.get 0 k.lastSrc vc < srcNum x.1)).orElse fun _ => heads.head?

/-- The VC of a class that goes now: the two take turns. -/
def classPick (s : State) (l cls : Nat) : Option (Nat × (Nat × Nat) × Flit) :=
  let a := (vcReady s l (2 * cls)).map fun x => (2 * cls, x)
  let b := (vcReady s l (2 * cls + 1)).map fun x => (2 * cls + 1, x)
  if Tbl.get 1 (s.link l).lastBit cls = 1 then a.orElse fun _ => b else b.orElse fun _ => a

/-- The data flit of this slot (R259): class 0 after 15 consecutive flits of class 1 while it was ready, and otherwise
the highest class. -/
def slotPick (s : State) (l : Nat) : Option (Nat × (Nat × Nat) × Flit) :=
  let c0 := classPick s l 0
  if 15 ≤ (s.link l).class1 ∧ c0.isSome = true then c0
  else (classPick s l 2).orElse fun _ => (classPick s l 1).orElse fun _ => c0

/-- The source of a flit moves on. -/
def takeSource (s : State) (l vc : Nat) (src : Nat × Nat) : State :=
  if src.1 = 0 then s.updLink l fun k => { k with outq := upd [] k.outq vc (·.drop 1) }
  else
    let i := src.1 - 1
    let s := s.updLink i fun k =>
      { k with route := upd none k.route src.2 fun o => o.map fun r =>
          { r with branches := r.branches.map fun b =>
              if b.link = l ∧ b.vc = vc then { b with sent := b.sent + 1 } else b } }
    drainVc s i src.2

/-- Link word of a flit that leaves now, with its ACK and the credits it returns. -/
def outWord (k : TLink) (kind : Nat) (x : Flit) : Nat × TLink :=
  let vc := ((List.range 6).find? fun v => decide (0 < Tbl.get 0 k.owed v)).getD 0
  let n := min 7 (Tbl.get 0 k.owed vc)
  let w := kind + (if kind = 1 then flitWord x else 0)
    + 2 ^ 8 * (if kind = 1 then x.seq.toNat else k.txSeq.toNat) + 2 ^ 17 * (k.rxSeq - 1).toNat
    + 2 ^ 26 * vc + 2 ^ 29 * n
  (w, { k with owed := upd 0 k.owed vc (· - n) })

/-- Send a flit in this slot. -/
def putWire (s : State) (l kind : Nat) (x : Flit) (payload : List Byte) : State :=
  let (w, k) := outWord (s.link l) kind x
  let f := wireFlit w payload
  (s.updLink l fun _ => k).emit (.flit l f (spreadFlit k.txLanes k.txHalf f))

/-- Payload of a control message, from byte 4 of the flit, with what it holds at the slot in which it goes. -/
def ctlPayload (k : TLink) (m : Nat × List Byte) : List Byte :=
  match m.1 with
  | 1 => [1, 0] ++ leBytes 2 k.rxSeq.toNat
  | 2 => [2, 0, 0, 0] ++ (List.range 6).flatMap fun v => leBytes 2 (Tbl.get 0 k.myFreed v % 2 ^ 16)
  | _ => m.2

/-- Send a control message; a CREDIT_SYNC holds every credit owed. -/
def sendCtl (s : State) (l : Nat) (m : Nat × List Byte) (rest : List (Nat × List Byte)) : State :=
  let s := s.updLink l fun k => { k with ctl := rest, owed := if m.1 = 2 then [] else k.owed }
  putWire s l 2 {} (ctlPayload (s.link l) m)

/-- Send an idle flit. -/
def sendIdle (s : State) (l : Nat) : State := putWire s l 0 {} []

/-- A synchronisation packet's head flit leaves at the transmit pin: a request is stamped t1, and a response t3 with the
parent's count (R377, R378). -/
def stampOut (s : State) (l : Nat) (x : Flit) : State × Flit :=
  if x.head = true ∧ (flitHeader x).tunit = 5 ∧ (flitHeader x).src = s.tl.coord then
    let t := copyStamp s (linkDie l)
    let msg := seg (flitHeader x).opnd0.toNat 3 0
    if msg = 0 then
      ({ s with gct := { s.gct with t1 := some t } }, { x with body := cut x.body 0 32 ++ leBytes 8 t.toNat ++ x.body.drop 40 })
    else if msg = 1 then
      (s, { x with body := cut x.body 0 24 ++ leBytes 8 (copyCount s (linkDie l)) ++ cut x.body 32 16 ++ leBytes 8 t.toNat
                           ++ x.body.drop 56 })
    else (s, x)
  else (s, x)

/-- Send a new data flit: it takes the next SEQ, a credit and a place in the replay buffer. -/
def sendData (s : State) (l vc : Nat) (src : Nat × Nat) (x : Flit) : State :=
  let k := s.link l
  let c0 := (classPick s l 0).isSome
  let (s, x) := stampOut s l { x with seq := k.txSeq, vc := BitVec.ofNat 3 vc }
  let s := tlCount (takeSource s l vc src) l 7 1
  let s := s.updLink l fun k =>
    { k with txSeq := k.txSeq + 1, replay := k.replay ++ [x], sent := upd 0 k.sent vc (fun n => (n + 1) % 2 ^ 16),
             owner := Tbl.set none k.owner vc (if x.tail then none else some src),
             lastSrc := Tbl.set 0 k.lastSrc vc (srcNum src), lastBit := Tbl.set 1 k.lastBit (vc / 2) (vc % 2),
             class1 := if vc / 2 = 1 ∧ c0 = true then k.class1 + 1 else 0,
             idleNext := k.slow }
  putWire s l 1 x x.body

/-- One flit slot of a link that carries packets: control first, then replays, then the flit that R259 chooses. -/
def dataSlot (s : State) (l : Nat) : State :=
  let k := s.link l
  match k.ctl with
  | m :: rest => sendCtl s l m rest
  | [] =>
    if k.idleNext then sendIdle (s.updLink l fun k => { k with idleNext := false }) l
    else
      match k.resend with
      | x :: rest => putWire (s.updLink l fun k => { k with resend := rest, idleNext := k.slow }) l 1 x x.body
      | [] =>
        match (if k.replay.length < 256 then slotPick s l else none) with
        | some (vc, src, x) => sendData s l vc src x
        | none => sendIdle s l

/-- FLIT_SLOT_SEND: an enabled link that is not DOWN fills its slot; no flit goes in a window (R263). -/
def execFlitSlotSend (link : Link) (s : State) : Ans :=
  let k := s.link link.val
  if !linkEn s link.val || k.state == 0 || k.window then .next s
  else if k.state = 2 then .next (dataSlot s link.val)
  else
    match k.ctl with
    | m :: rest => .next (sendCtl s link.val m rest)
    | [] => .next (sendIdle s link.val)

/-! ### Bands, lanes and windows (R261–R265, R384) -/

/-- The link enters a band without a calibration (R262). -/
def slowMode (s : State) (l : Nat) : State :=
  let k := s.link l
  if k.cal.getLsbD k.band.toNat then s
  else askWindow (s.updLink l fun k => { k with slow := true }) l false

/-- A reading of a link's temperature, in units of 1/4 °C. -/
def linkTemp (s : State) (l : Nat) (t : Int) : State :=
  let k := s.link l
  let b := nextBand k.band.toNat t
  if b = k.band.toNat then s
  else
    let nb : BitVec 2 := BitVec.ofNat 2 b
    let s := s.updLink l fun k =>
      { k with band := nb, usedBand := if k.cal.getLsbD b && !k.window then nb else k.usedBand }
    if k.window then s else slowMode s l

/-- LINK_TEMP_SAMPLE. -/
def execLinkTempSample (link : Link) (temp : Int) (s : State) : Ans := .next (linkTemp s link.val temp)

/-- Lanes that a direction keeps after its marked ones. -/
def keptLanes (lanes marked : BitVec 9) : BitVec 9 := lanes &&& ~~~marked

/-- Lanes of a list of counts that exceed a threshold. -/
def overThr (thr : Nat) (l : List (Fin 9 × Nat)) : BitVec 9 :=
  l.foldl (fun m x => if thr ≠ 0 ∧ thr < x.2 then m ||| BitVec.ofNat 9 (2 ^ x.1.val) else m) 0

/-- Fewer than four lanes of a direction remain: the link is FAILED with reason 1 (R264). -/
def failLanes (s : State) (l : Nat) : State :=
  let k := s.link l
  if laneCount (keptLanes k.txLanes k.txMarked) < 4 ∨ laneCount (keptLanes k.rxLanes k.rxMarked) < 4 then
    if carries k then leaveUp s l 6 1 3 else s.updLink l fun k => { k with state := 6, reason := 1 }
  else s

/-- TL_LANE_EPOCH_END. -/
def execTlLaneEpochEnd (link : Link) (tx rx : List (Fin 9 × Nat)) (s : State) : Ans :=
  let k := s.link link.val
  if k.state = 0 ∨ k.state = 1 ∨ k.state = 6 then .next s
  else
    let thr := laneThr s (linkDie link.val)
    let s := s.updLink link.val fun k =>
      { k with txMarked := k.txMarked ||| (overThr thr tx &&& k.txLanes),
               rxMarked := k.rxMarked ||| (overThr thr rx &&& k.rxLanes) }
    .next (failLanes s link.val)

/-- Lanes that marks take out of service and whose place a spare takes: at most the spares that the width leaves
(R244, R264). -/
def darnCount (lanes marked : BitVec 9) (half : Bool) : Nat :=
  min ((carriers lanes half).filter fun i => marked.getLsbD i).length
    ((lanesOf (keptLanes lanes marked)).length - ((carriers lanes half).filter fun i => !marked.getLsbD i).length)

/-- Pending darns and width changes of a link are applied and recorded; each writes a ledger entry. -/
def applyDarns (s : State) (l : Nat) : State :=
  let k := s.link l
  let t := keptLanes k.txLanes k.txMarked
  let r := keptLanes k.rxLanes k.rxMarked
  let th := k.txHalf || decide (laneCount t < 8)
  let rh := k.rxHalf || decide (laneCount r < 8)
  let s := s.updLink l fun k =>
    { k with txLanes := t, rxLanes := r, txHalf := th, rxHalf := rh, recTx := k.recTx ||| k.txMarked,
             recRx := k.recRx ||| k.rxMarked, recTxHalf := th, recRxHalf := rh, txMarked := 0, rxMarked := 0 }
  let note := fun (s : State) (n d : Nat) => (List.range n).foldl (fun s _ => corrected s (linkSrc l) (l + 2 ^ 8 * d)) s
  let s := note s (darnCount k.txLanes k.txMarked k.txHalf) 0
  let s := note s (darnCount k.rxLanes k.rxMarked k.rxHalf) 1
  let s := note s (b2n (th && !k.txHalf)) 2
  note s (b2n (rh && !k.rxHalf)) 3

/-- A window begins at count `t`: no flits are carried; the current band is calibrated; darns and widths are
applied. -/
def beginWindow (s : State) (l : Nat) (t : DWord) : State :=
  let s := tlCount s l 6 1
  let s := s.updLink l fun k =>
    { k with window := true, began := t, pending := false, state := if k.state = 2 then 7 else k.state,
             cal := k.cal ||| BitVec.ofNat 4 (2 ^ k.band.toNat), usedBand := k.band }
  applyDarns s l

/-- The link is trained and may hold a window. -/
def trained (k : TLink) : Bool := (k.state == 2 || k.state == 3) && k.locked && !k.window

/-- The counts T at which the link is to begin a window: the one granted, and on a link that is UP those that its
partner has asked for (R263, R384). -/
def windowCounts (k : TLink) : List DWord := k.windowT.toList ++ (if k.state = 2 then k.askedT else [])

/-- The earliest of them that has come. -/
def dueCount (s : State) (k : TLink) : Option DWord :=
  ((windowCounts k).filter fun t => decide (t.toNat ≤ s.gct.count.toNat)).foldl
    (fun a t => some (match a with | some b => if t.toNat < b.toNat then t else b | none => t)) none

/-- LINK_RETRAIN_WINDOW_START: a count T granted or asked for has come. -/
def execLinkRetrainWindowStart (link : Link) (s : State) : Ans :=
  let k := s.link link.val
  match (if trained k then dueCount s k else none) with
  | some t => .next (beginWindow (s.updLink link.val fun k => { k with askedT := k.askedT.filter (· != t) }) link.val t)
  | none => .next s

/-- FENCED_RETRAIN_START: the partner of a request on a FENCED link begins its window, whatever T it holds (R384). -/
def execFencedRetrainStart (link : Link) (s : State) : Ans :=
  let k := s.link link.val
  .next (if trained k && k.state == 3 && k.askedT != [] then
    beginWindow (s.updLink link.val fun k => { k with askedT := [] }) link.val s.gct.count else s)

/-- LINK_RETRAIN_WINDOW_END: 40,000 counts on, the link resumes and replays its unacknowledged flits. -/
def execLinkRetrainWindowEnd (link : Link) (s : State) : Ans :=
  let k := s.link link.val
  if k.window ∧ k.began.toNat + 40000 ≤ s.gct.count.toNat then
    let s := s.updLink link.val fun k =>
      { k with window := false, state := if k.state = 7 then 2 else k.state, slow := false, idleNext := false,
               windowT := if k.windowT = some k.began then none else k.windowT, resend := k.replay }
    .next (slowMode s link.val)
  else .next s

/-- RETRAIN_REQ_SEND: the requesting end sends RETRAIN_REQ(T). -/
def execRetrainReqSend (link : Link) (s : State) : Ans :=
  let k := s.link link.val
  match k.windowT with
  | some t =>
    .next (if trained k then
      s.updLink link.val fun k => { k with ctl := k.ctl ++ [(4, [4, 0, 0, 0] ++ leBytes 8 t.toNat)] } else s)
  | none => .next s

/-- RETRAIN_REQ_RECEIVE: the partner honours the request; the repetitions of one T are one request. -/
def execRetrainReqReceive (link : Link) (flit : List Byte) (s : State) : Ans :=
  .next (flitIn s link.val flit 2 4 fun s w =>
    s.updLink link.val fun k =>
      { k with askedT := if k.askedT.contains (BitVec.ofNat 64 (fieldAt w 8 8)) then k.askedT
                 else k.askedT ++ [BitVec.ofNat 64 (fieldAt w 8 8)] })

/-! ### Registers (Tables 8.12–8.18) -/

/-- `TL_LINK_STATUS_n`. -/
def linkStatus (k : TLink) : Nat :=
  k.state.toNat + 2 ^ 3 * k.pstate.toNat + 2 ^ 6 * k.preason.toNat + 2 ^ 14 * b2n k.txHalf + 2 ^ 15 * b2n k.rxHalf
    + 2 ^ 16 * b2n (darnInUse k.txLanes k.txHalf) + 2 ^ 17 * b2n (darnInUse k.rxLanes k.rxHalf) + 2 ^ 18 * k.band.toNat
    + 2 ^ 20 * k.cal.toNat + 2 ^ 24 * b2n k.slow + 2 ^ 25 * b2n k.pending

/-- Base of the TL block of die `d` (Table 14.2). -/
def tlBase (d : Nat) : Nat := 0x60000 + 0x1000 * d

/-- Write of `TL_CNT_SEL`: an unlisted KIND leaves that field (R10). -/
def cntSelWrite (s : State) (a : Agent) (d v : Nat) : State :=
  let old := selOf s a (tlBase d + 0x30)
  setSel s a (tlBase d + 0x30) (v % 4 + 4 * (if seg v 5 2 < 9 then seg v 5 2 else old / 4))

/-- Registers of the TL block of base die `d`. -/
def tlReg (s : State) (a : Agent) (d o : Nat) : Option Reg :=
  if !mgmt a then none
  else if o = 0x00 then Reg.ro (s.tl.coord.toNat + 2 ^ 12 * s.tl.size.toNat)
  else if o = 0x04 then
    Reg.rwIf (isMp a) ((Tbl.get 0 s.tl.base d).toNat + 2 ^ 12 * kM1 s d) (tlSliceWrite s d)
  else if o = 0x08 then
    Reg.rwIf (isMp a) (laneThr s d + 2 ^ 16 * replayThr s d) fun v =>
      { s with tl := { s.tl with
          laneThr := Tbl.set 1000 s.tl.laneThr d (BitVec.ofNat 16 v)
          replayThr := if seg v 23 16 = 0 then s.tl.replayThr else Tbl.set 8 s.tl.replayThr d (BitVec.ofNat 8 (v / 2 ^ 16)) } }
  else if 0x10 ≤ o ∧ o < 0x20 ∧ o % 4 = 0 then
    let l := dieLink d ((o - 0x10) / 4)
    Reg.rwIf (isMp a) (b2n (linkEn s l) + 2 * b2n (s.link l).fence) (linkCtlWrite s l)
  else if 0x20 ≤ o ∧ o < 0x30 ∧ o % 4 = 0 then Reg.ro (linkStatus (s.link (dieLink d ((o - 0x20) / 4))))
  else if o = 0x30 then Reg.rw (selOf s a (tlBase d + 0x30)) (cntSelWrite s a d)
  else if o = 0x38 then
    let v := selOf s a (tlBase d + 0x30)
    Reg.ro64 (Tbl.get 0 (s.link (dieLink d (v % 4))).cnt (v / 4)).toNat
  else none

end Sys2Proof.Machine
end

