-- ==== Sys2Proof/Machine/Router.lean ====
section
/-!
DEFINITION. The routers: the check and the route of a head flit (R268, R271, R272, R275, R279), and the delivery of a
packet to its target unit (R267, R268, R270, R341).
-/
namespace Sys2Proof.Machine
open Sys2Proof

/-- Where a good packet goes that arrived on VC `vc` of link `l`: its next directions, and whether it is ejected. -/
def directions (s : State) (l : Nat) (p : Packet) : List (Nat × Bool) × Bool :=
  let die := linkDie l
  let me := myCoord s
  if p.mc then mcAlong s die me p.src.toNat p.mask.toNat (linkDim l) (!linkPlus l)
  else
    match nextHop s die me p.dest.toNat p.src.toNat with
    | some h => ([h], false)
    | none => ([], true)

/-- A unicast packet that came over link `l` could go on only by a turn that no router makes: into an earlier dimension,
or back (R275). -/
def noTurn (s : State) (l : Nat) (p : Packet) : Bool :=
  !p.mc && match nextHop s (linkDie l) (myCoord s) p.dest.toNat p.src.toNat with
    | some (d, plus) => decide (d < linkDim l) || (d == linkDim l && plus == linkPlus l)
    | none => false

/-- The branches of a packet: a direction whose link carries no packets discards it (R276). -/
def branchesOf (s : State) (l vc : Nat) (p : Packet) (ds : List (Nat × Bool)) : State × List Branch :=
  ds.foldl (fun (s, bs) (d, plus) =>
    let o := linkNum (l / 8) d plus
    let (s, fenced) := meetLink s o p
    if carries (s.link o) && !fenced then
      (s, bs ++ [{ link := o, vc := outVc s p.cls.toNat d plus (d == linkDim l && vc % 2 == 1) }])
    else (discardAt s o 1, bs)) (s, [])

/-- ROUTER_HEAD_FLIT: the head flit at the front of an input VC is checked and its packet routed. A packet that could go
on only by a turn that R275 rules out is discarded as a bad packet (DESIGN CHOICE, log 135). -/
def execRouterHeadFlit (link : Link) (vc : Fin 6) (s : State) : Ans :=
  let l := link.val
  let put := fun (s : State) (r : Route) =>
    drainVc (s.updLink l fun k => { k with route := Tbl.set none k.route vc.val (some r) }) l vc.val
  match Tbl.get none (s.link l).route vc.val, Tbl.get [] (s.link l).inbuf vc.val with
  | none, x :: _ =>
    let p := flitHeader x
    if !x.head then .next (put s {})
    else
      let bad := badHeader s (linkDie l) vc.val p || noTurn s l p
      let (ds, ej) := directions s l p
      .next (detect s evTlBadpkt (linkSrc l) (packetWin s p) bad (fun s => put (badPacket s l p) {}) fun s =>
        let (s, bs) := branchesOf s l vc.val p ds
        put s { branches := bs, eject := ej })
  | _, _ => .next s

/-! ### Delivery -/

/-- Write a packet's data into memory: a sector is stained when a flit that supplies one of its bytes is (R270). -/
def packetWrite (s : State) (src win : Nat) (a : Int) (p : Packet) : State :=
  let o := (a % 32).toNat
  (List.range (sectorSpan o p.data.length)).foldl (fun s i =>
    let lo := 32 * i - o
    let hi := min p.data.length (32 * (i + 1) - o)
    devStore s src win (a + lo) (cut p.data lo (hi - lo)) (spanStained p lo hi)) s

/-- A packet of class 0 or 1 has been delivered (R301). -/
def countDelivered (s : State) (p : Packet) : State :=
  if p.cls = 0 ∨ p.cls = 1 then { s with tl := { s.tl with delivered := s.tl.delivered + 1 } } else s

/-- Hand a packet that came over link `l` to its target unit. -/
def handOver (s : State) (l : Nat) (p : Packet) (win : Nat) : State :=
  match p.tunit.toNat with
  | 0 => packetWrite s (srcUnit p.tdie.toNat unitRouter) win (p.opnd0.toNat % 2 ^ 52 : Nat) p
  | 1 => { s with tl := { s.tl with mglIn := s.tl.mglIn ++ [p] } }
  | 2 => { s with tl := { s.tl with parIn := s.tl.parIn ++ [p] } }
  | 3 => { s with tl := { s.tl with collIn := s.tl.collIn ++ [{ link := l, pkt := p }] } }
  | 4 => { s with tl := { s.tl with guildIn := s.tl.guildIn ++ [p] } }
  | _ => { s with tl := { s.tl with syncIn := s.tl.syncIn ++ [(p, p.time)] } }

/-- PACKET_DELIVER: the oldest packet at its destination is handed over; one of a job that no window binds is
discarded. An alarm packet of JOB 0 concerns no job (log 28). -/
def execPacketDeliver (s : State) : Ans :=
  match s.tl.arrived with
  | [] => .next s
  | (l, p) :: rest =>
    let s := { s with tl := { s.tl with arrived := rest } }
    let s := countDelivered s p
    if p.cls = 2 ∧ p.job = 0 then .next (handOver s l p 0)
    else
      match windowOf s p.job.toNat with
      | some w => .next (handOver s l p w)
      | none => .next (badPacket s l p)

end Sys2Proof.Machine
end

