-- ==== Sys2Proof/Machine/Sync.lean ====
section
/-!
DEFINITION. The synchronisation instructions of Tables 4.4 and 5.16 that the sequencer finishes itself (R131–R135,
R161–R163), the arrival of signals, the context timeout, and the registers of the SEQ block (Tables 4.5–4.9).
-/
namespace Sys2Proof.Machine
open Sys2Proof

/-- Some core's queue holds an instruction issued before `id`. -/
def earlierIn (k : Cluster) (e : Engine) (id : Nat) : Bool :=
  k.core.any fun c => (c.2.queue e).any fun i => decide (i.id < id)

/-- Every stream-out instruction numbered below `id` has completed, in all cores. -/
def outDone (k : Cluster) (id : Nat) : Bool := !earlierIn k .oq id

/-- `FENCE.M`: stream instructions issued later carry the fence (R132). -/
def execFenceM (q : Cl) (w : BitVec 120) (s : State) : Ans :=
  seqOp 0x60 q w (fun q _ s => .go (s.updClu q fun k => { k with fence := k.nextId })) s

/-- `FENCE.E`. -/
def execFenceE (q : Cl) (w : BitVec 120) (s : State) : Ans :=
  seqOp 0x61 q w (fun q _ s => if queuesEmpty (s.clu q) then .go s else .stall s 3) s

/-- Signals that still wait for stream-out writes. -/
def sigsWaiting (k : Cluster) : Nat := (k.sigs.filter fun g => !outDone k g.after).length

/-- `SIG` (R133). -/
def execSig (q : Cl) (w : BitVec 120) (s : State) : Ans :=
  seqOp 0x62 q w (fun q n s =>
    let k := s.clu q
    if 4 ≤ sigsWaiting k then .stall s 3
    else
      let g : Signal := { tgt := (sigTarget s q n).getD q, ctr := seg (fImm n) 15 12,
                          count := seg (fImm n) 23 16, after := k.nextId }
      .go (s.updClu q fun k => { k with sigs := k.sigs ++ [g] })) s

/-- Remove the first element that meets a test. -/
def takeFirst {α : Type} (p : α → Bool) : List α → Option (α × List α)
  | [] => none
  | a :: t => if p a then some (a, t) else (takeFirst p t).map fun (x, r) => (x, a :: r)

/-- A signal from `src` may reach `tgt`: both serve one job still, so that no job reaches the counters of another (R133). -/
def sameJob (s : State) (src tgt : Nat) : Bool := (cluWin s src).isSome && cluWin s src == cluWin s tgt

/-- SIGNAL_ARRIVE: the oldest signal of `src` to that counter, once its writes have completed (R133). -/
def execSignalArrive (src tgt : Cl) (ctr : Fin 16) (s : State) : Ans :=
  let k := s.clu src.val
  match takeFirst (fun (g : Signal) => g.tgt == tgt.val && g.ctr == ctr.val) k.sigs with
  | some (g, rest) =>
    if outDone k g.after && !islandStopped s tgt.val then
      let s := s.updClu src.val fun k => { k with sigs := rest }
      .next (if sameJob s src.val tgt.val then
        s.updClu tgt.val fun k => { k with ctr := upd 0 k.ctr ctr.val (· + BitVec.ofNat 32 g.count) } else s)
    else .next s
  | none => .next s

/-- `WAITS`. -/
def execWaits (q : Cl) (w : BitVec 120) (s : State) : Ans :=
  seqOp 0x63 q w (fun q n s =>
    let k := s.clu q
    let c := (Tbl.get 0 k.ctr (fSub n % 16)).toNat
    if decide (0 ≤ sgn 32 (c + 2 ^ 32 - sReg k (fRa n) % 2 ^ 32)) then .go s else .stall s 3) s

/-- Some instruction of a core holds unreleased writes on a region. -/
def writesHeld (c : CoreSt) (region : Nat) : Bool :=
  (c.aq ++ c.vq ++ c.iq ++ c.oq).any fun i => !i.writesOut && i.wmask.getLsbD region

/-- Combine two 64-bit values under IMM[23:21] of `SLD`. -/
def sldCombine (how a b : Nat) : Nat :=
  match how with
  | 1 => (a + b) % 2 ^ 64
  | 2 => a ||| b
  | 3 => a &&& b
  | 4 => max a b
  | 5 => min a b
  | _ => a

/-- `SLD` (R132, R162). -/
def execSld (q : Cl) (w : BitVec 120) (s : State) : Ans :=
  seqOp 0x64 q w (fun q n s =>
    let k := s.clu q
    let a := (sReg k (fRa n) + seg (fImm n) 15 0) % 2 ^ 64
    let core := seg (fImm n) 20 16
    let how := seg (fImm n) 23 21
    let st := sStain k (fRa n)
    let fail := fun (s : State) =>
      raiseCore (s.updClu q fun k => putS { k with maskFault := true } (fRd n) 0 true) q core evAddrFault true 1 a
    match takeInject s evAddrFault (srcCore s q core) (cluWinByte s q) with
    | some (_, s) => .go (underInject fail s)
    | none =>
    if 65536 ≤ a ∨ a % 8 ≠ 0 then .go (fail s)
    else
      let cores := if how = 0 then [core] else List.range 32
      if cores.any fun c => writesHeld (k.coreAt c) (a / 1024) then .stall s 3
      else
        let vals := cores.map fun c => leNat (padBytes (k.coreAt c) a 8)
        let v := match vals with | [] => 0 | x :: t => t.foldl (sldCombine how) x
        let st := st || cores.any fun c => padStained (k.coreAt c) (a / 32)
        .go (s.updClu q fun k => putS k (fRd n) v st)) s

/-- Every array instruction has completed, in all cores. -/
def arraysDone (k : Cluster) : Bool := k.core.all fun c => c.2.aq.isEmpty

/-- `NUMF.RD`. -/
def execNumfRd (q : Cl) (w : BitVec 120) (s : State) : Ans :=
  seqOp 0x65 q w (fun q n s =>
    let k := s.clu q
    if !arraysDone k then .stall s 3
    else
      let v := if bitAt (fSub n) 5 then
          (List.range 32).foldl (fun a c => a ||| (k.coreAt c).numf.toNat) 0
        else (k.coreAt (fSub n % 32)).numf.toNat
      .go (s.updClu q fun k => putS k (fRd n) v false)) s

/-- `NUMF.CLR`. -/
def execNumfClr (q : Cl) (w : BitVec 120) (s : State) : Ans :=
  seqOp 0x66 q w (fun q n s =>
    let k := s.clu q
    if !arraysDone k then .stall s 3
    else
      let m : BitVec 16 := BitVec.ofNat 16 (fImm n % 2 ^ 9)
      .go (s.updClu q fun k => k.updCores fun _ c => { c with numf := c.numf &&& ~~~m })) s

/-- A sequencer has waited `SEQ_CTX_TIMEOUT` cycles for a context (R134). -/
def ctxTimeout (s : State) (q : Nat) : State :=
  raiseSeq (s.updClu q fun k => { k with ctxTimedOut := true }) q evCollCtxExhaust 1 0

/-- SEQ_CTX_TIMEOUT (R134). -/
def execSeqCtxTimeout (q : Cl) (s : State) : Ans :=
  let k := s.clu q.val
  if k.state == 4 && k.ctxTimeout != 0 && !islandStopped s q.val && decide (k.colls.length < 16) then
    .next (ctxTimeout s q.val)
  else .next s

/-- Registers of the SEQ block of one cluster (R137). -/
def seqReg (s : State) (q o : Nat) : Option Nat :=
  let k := s.clu q
  match o with
  | 0x00 => some (b2n k.src + 2 ^ 4 * k.ring.toNat)
  | 0x08 => some k.entry.toNat
  | 0x10 => some (k.state.toNat + 2 ^ 3 * k.stallQ.toNat + 2 ^ 5 * k.stallCore.toNat + 2 ^ 10 * b2n k.maskFault
      + 2 ^ 11 * b2n k.ctxTimedOut)
  | 0x14 => some k.ctxTimeout.toNat
  | 0x18 => some k.stall.toNat
  | _ => none

end Sys2Proof.Machine
end

