-- ==== Sys2Proof/Machine/CollTree.lean ====
section
/-!
DEFINITION. The machinery of the collectives (10_collectives.md): groups and participants (R313, R314), the fixed
order of a reduction (R326–R328), the packets (R332, R341), and the progress of a context: its nodes, its release,
its norm phase (R325, R331).
-/
namespace Sys2Proof.Machine
open Sys2Proof

/-! ### Records, groups and participants -/

/-- Window of a communicator's job. -/
def recWin (s : State) (r : Comm) : Nat := (windowOf s r.job.toNat).getD 0
/-- SOURCE of the collective engine of base die `d`. -/
def collSrc (d : Nat) : Nat := srcUnit d unitColl
/-- The record of a tuple. -/
def recOf (s : State) (k : CollKey) : Comm := s.commAt k.comm.toNat
/-- The tuple as a number. -/
def tupleNat (k : CollKey) : Nat := k.comm.toNat + 2 ^ 16 * k.seq.toNat + 2 ^ 32 * k.epoch.toNat

/-- Participating clusters, in ascending logical cluster ID (R314). -/
def partClusters (s : State) (r : Comm) : List Nat :=
  match r.clsel.toNat with
  | 0 => (s.jobAt (recWin s r)).clusters
  | 1 => (clOfId r.cluster.toNat).toList
  | 2 => r.mask
  | _ => []
/-- The lead cluster. -/
def leadCluster (s : State) (r : Comm) : Option Nat := (partClusters s r).head?

/-- Group axes of a communicator (R313). -/
def recAxes (s : State) (r : Comm) : List Nat :=
  groupAxes (Tbl.get 0 s.slc.role (recWin s r)).toNat r.roles.toNat
/-- The group, by rank, as logical coordinates. -/
def recMembers (s : State) (r : Comm) : List Nat := groupMembers s (recAxes s r) (logicalCoord s)
/-- Rank of a member. -/
def recRank (s : State) (r : Comm) (l : Nat) : Nat := rankOf s (recAxes s r) l
/-- Levels of the tree. -/
def recLevels (s : State) (r : Comm) : List (List Nat) := treeLevels (recAxes s r)

/-- Leading levels at which a member has the root's coordinates: it is a node of each (R326). -/
def nodeLevels (me root : Nat) : List (List Nat) → Nat
  | [] => 0
  | ax :: t => if ax.all fun j => dimOf me j == dimOf root j then 1 + nodeLevels me root t else 0

/-- Children of a node at a level, in the order of their offsets (R327). -/
def kids (s : State) (me : Nat) (ax : List Nat) : List Nat :=
  ((List.range (ax.foldl (fun n j => n * axisK s j) 1)).drop 1).map fun o =>
    (ax.foldl (fun (c, o) j => (setDim c j ((dimOf me j + o % axisK s j) % axisK s j), o / axisK s j)) (me, o)).1

/-- The module exchanges data with these members in a vector operation (R322). -/
def vectorPeers (s : State) (r : Comm) (op : Nat) : List Nat :=
  let me := logicalCoord s
  if op = 3 ∨ op = 4 then (recMembers s r).filter (· != me)
  else (recLevels s r).flatMap fun ax => kids s me ax

/-! ### Values (R327, R328) -/

/-- One fold of two values. -/
def foldWord (redop itype : Nat) (a b : Word) : Word :=
  if itype = 9 then
    match redop with
    | 0 => a + b
    | 1 => if a.toInt < b.toInt then b else a
    | 2 => if a.toInt < b.toInt then a else b
    | 3 => a ||| b
    | 4 => a &&& b
    | _ => BitVec.ofNat 32 (Config.freeFold redop itype a.toNat b.toNat)
  else if 6 ≤ itype ∧ itype ≤ 8 ∧ redop ≤ 2 then
    if redop = 0 then f32Add a b else if redop = 1 then f32Max a b else f32Min a b
  else BitVec.ofNat 32 (Config.freeFold redop itype a.toNat b.toNat)

/-- Fold the values of a child into those of a node; tag 1 folds the sum of squares and the flags (R331, R409). -/
def foldVals (tag redop itype : Nat) (a b : List (Word × Bool)) : List (Word × Bool) :=
  a.zipIdx.map fun (x, i) =>
    let y := b.getD i (0, false)
    (if tag = 1 then (if i = 0 then f32Add x.1 y.1 else x.1 ||| y.1) else foldWord redop itype x.1 y.1, x.2 || y.2)

/-- An input pattern as FP32 or INT32. -/
def inWord (itype bits : Nat) : Word :=
  match itype with
  | 6 => toSource 6 (bits % 2 ^ 16)
  | 7 => toSource 7 (bits % 2 ^ 16)
  | 8 => toSource 8 bits
  | 9 => BitVec.ofNat 32 bits
  | _ => BitVec.ofNat 32 (Config.freeFold 16 itype bits 0)

/-- Bytes of an element of a type. -/
def typeBytes (t : Nat) : Nat := if t = 6 ∨ t = 7 then 2 else 4

/-- A final value as a pattern of OTYPE (R328). -/
def outBits (itype otype : Nat) (x : Word) : Nat :=
  if otype = 9 ∧ itype = 9 then x.toNat
  else if 6 ≤ otype ∧ otype ≤ 8 then
    if itype = 9 then (roundFmt otype false (Num.ofInt x.toInt 0)).bits
    else toDest otype false x
  else Config.freeFold 17 (16 * itype + otype) x.toNat 0

/-! ### Blocks (Table 10.3) -/

/-- A field of a block breaks a limit of Table 10.3 for an operation over `n` members. -/
def blockBad (op n : Nat) (b : CollBlk) : Bool :=
  let fp := fun (t : BitVec 8) => t == 6 || t == 7 || t == 8
  let red := (fp b.itype || b.itype == 9) && (fp b.otype || (b.otype == 9 && b.itype == 9))
    && (decide (b.redop.toNat ≤ 2) || (decide (b.redop.toNat ≤ 4) && b.itype == 9))
  let none_ := b.redop == 0 && b.itype == 0 && b.otype == 0
  let chunk := decide (chunkOf b = b.chunk.toNat)
  decide (8 ≤ b.flags.toNat) ||
    (match op with
    | 1 => !red || b.count == 0 || decide (8 < b.count.toNat) || !chunk
    | 2 => !red || b.count.toNat % n != 0 || !chunk
    | 5 => !red || b.redop != 0 || b.count.toNat % n != 0 || !chunk
    | _ => !none_ || b.count.toNat % 32 != 0 || !chunk)

/-- The block that 64 bytes hold. -/
def parseBlock (op n : Nat) (l : List Byte) : CollBlk :=
  let f := fieldAt l
  let b : CollBlk :=
    { redop := BitVec.ofNat 8 (f 0 1), itype := BitVec.ofNat 8 (f 1 1), otype := BitVec.ofNat 8 (f 2 1),
      flags := BitVec.ofNat 8 (f 3 1), count := BitVec.ofNat 32 (f 4 4), src := BitVec.ofNat 64 (f 8 8),
      dst := BitVec.ofNat 64 (f 16 8), chunk := BitVec.ofNat 32 (f 24 4), seg := BitVec.ofNat 16 (f 40 2) }
  { b with bad := blockBad op n b }

/-- The job runs in deterministic mode, in which STRAG and FIRST have no effect (R337, R373). -/
def recDet (s : State) (r : Comm) : Bool := (s.jobAt (recWin s r)).det
/-- STRAG and FIRST of a block. -/
def blkStrag (s : State) (r : Comm) (b : CollBlk) : Bool := b.flags.getLsbD 0 && !recDet s r
def blkFirst (s : State) (r : Comm) (b : CollBlk) : Bool := b.flags.getLsbD 1 && !recDet s r
/-- PRESS of a block; only a reduce-scatter or a fused norm hands a shard to the press units (R329, R344). -/
def blkFlagPress (b : CollBlk) : Bool := b.flags.getLsbD 2
def blkPress (op : Nat) (b : CollBlk) : Bool := blkFlagPress b && (op == 2 || op == 5)
/-- Elements of a shard. -/
def shardLen (b : CollBlk) (n : Nat) : Nat := b.count.toNat / n
/-- Chunks of a contribution of bytes. -/
def byteChunks (b : CollBlk) : Nat := ceilDiv b.count.toNat (chunkOf b)
/-- Elements of a contribution that a whole chunk holds (R332). -/
def chunkElems (b : CollBlk) : Nat := chunkOf b / typeBytes b.itype.toNat
/-- The elements `[lo, hi)` of shard `i` in chunk `c` of a contribution (log 30). -/
def pieceLo (b : CollBlk) (n i c : Nat) : Nat := max (shardLen b n * i) (chunkElems b * c)
def pieceHi (b : CollBlk) (n i c : Nat) : Nat := min (shardLen b n * (i + 1)) (chunkElems b * (c + 1))
/-- The chunks that hold elements of shard `i`. -/
def shardChunks (b : CollBlk) (n i : Nat) : List Nat :=
  (List.range (ceilDiv (shardLen b n * (i + 1)) (chunkElems b))).filter fun c =>
    decide (pieceLo b n i c < pieceHi b n i c)

/-! ### Packets (R332, R341) -/

/-- Flits of a packet that hold a stained byte (R270). -/
def stainedFlits (data : List (Byte × Bool)) : List Nat :=
  (List.range (flitCount data.length)).filter fun k =>
    let lo := if k = 0 then 0 else 28 + 60 * (k - 1)
    let n := if k = 0 then 28 else 60
    ((data.drop lo).take n).any (·.2)

/-- Bytes of a packet, each with the stain of its flit. -/
def packetBytes (p : Packet) : List (Byte × Bool) :=
  p.data.zipIdx.map fun (b, i) => (b, p.stained.contains (flitAt i))

/-- A collective packet (Table 10.6), its destination still to be given. -/
def collPacket (s : State) (x : Ctx) (msg level : Nat) (data : List (Byte × Bool)) : Packet :=
  let b := x.blk.getD {}
  { cls := 1, tunit := 3, len := BitVec.ofNat 13 data.length, job := (recOf s x.key).job,
    data := data.map (·.1), stained := stainedFlits data,
    opnd0 := BitVec.ofNat 64 (tupleNat x.key + 2 ^ 40 * msg + 2 ^ 44 * (x.op.getD 0).toNat + 2 ^ 48 * b.redop.toNat
      + 2 ^ 56 * (b.itype.toNat % 16) + 2 ^ 60 * level) }

/-- Send a message to a member; its ply comes from the hash keyed by the communicator. -/
def sendMsg (s : State) (x : Ctx) (msg level dest : Nat) (data : List (Byte × Bool)) : State :=
  injectHash s x.key.comm.toNat { collPacket s x msg level data with dest := BitVec.ofNat 12 (physicalOf s dest) }

/-- Send data of chunk `c` to a member, in packets of at most 4,096 bytes; OFFSET counts bytes of the contribution from
`off` on, `w` of them for each 4 bytes sent (R332, R333). -/
def sendChunk (s : State) (x : Ctx) (level dest c off w : Nat) (data : List (Byte × Bool)) : State :=
  let n := ceilDiv data.length 4096
  let crc := (crc32c (data.map (·.1))).toNat
  (List.range n).foldl (fun s i =>
    let part := (data.drop (4096 * i)).take 4096
    let p := collPacket s x 3 level part
    let last := decide (i + 1 = n)
    inject s (c % 4) { p with
      dest := BitVec.ofNat 12 (physicalOf s dest), tdie := BitVec.ofNat 3 c,
      opnd0 := p.opnd0 ||| BitVec.ofNat 64 (2 ^ 47 * b2n last),
      opnd1 := BitVec.ofNat 64 (off + 1024 * w * i + (if last then 2 ^ 32 * crc else 0)) }) s

/-- Multicast mask of the members of one level about this module (R279, R326). -/
def levelMask (s : State) (ax : List Nat) : Nat :=
  let m := s.slc.map.toNat
  (List.range 4).foldl (fun acc j =>
    let d := perm m j
    let places :=
      if ax.contains j then
        (List.range (axisK s j)).foldl (fun t v =>
          t ||| 2 ^ dimOf (physicalOf s (setDim (logicalCoord s) j v)) d) 0
      else 2 ^ dimOf (myCoord s) d
    acc + 2 ^ (8 * d) * places) 0

/-- Pass a release down every level at which the module is a node, the highest first (R326). -/
def sendRelease (s : State) (x : Ctx) (vals : List (Word × Bool)) : State :=
  let r := recOf s x.key
  let levels := recLevels s r
  let root := (recMembers s r).headD 0
  let mine := (levels.take (nodeLevels (logicalCoord s) root levels)).reverse
  mine.foldl (fun s ax =>
    if kids s (logicalCoord s) ax = [] then s
    else
      let p := collPacket s x 4 3 (elemsBulk 4 (vals.map fun v => (v.1.toNat, v.2)))
      injectHash s x.key.comm.toNat { p with mc := true, mask := BitVec.ofNat 32 (levelMask s ax) }) s

/-! ### Events of a context -/

/-- The collective mismatches here (R336). -/
def collMismatch (s : State) (k : CollKey) : State :=
  match s.ctxAt k with
  | none => s
  | some x =>
    let s := s.updCtx k fun x => { x with mismatch := true, stained := true }
    let r := recOf s k
    if x.mismatch then s
    else raise s { cls := evCollMismatch, src := collSrc 0, job := r.job.toNat, win := recWin s r, stained := true,
                   detail := tupleNat k }

/-- A chunk has failed its check (R334); its result is stained where it is written or folded. -/
def crcFailed (s : State) (k : CollKey) (die chunk : Nat) (inj : Bool) : State :=
  let r := recOf s k
  let s := s.updCtx k fun x => { x with crcBad := true }
  let s := { s with coll := { s.coll with crcErr := BitVec.ofNat 32 (satTo 32 (s.coll.crcErr.toNat + 1)) } }
  raise s { cls := evCollCrc, src := collSrc die, job := r.job.toNat, win := recWin s r, stained := true,
            injected := inj, detail := chunk }

/-- Put a node, changing the one that stands for the same reduction. -/
def putNode (x : Ctx) (tag shard chunk : Nat) (f : Node → Node) : Ctx :=
  let same := fun (n : Node) => n.tag == tag && n.shard == shard && n.chunk == chunk
  if x.nodes.any same then { x with nodes := x.nodes.map fun n => if same n then f n else n }
  else { x with nodes := x.nodes ++ [f { tag := tag, shard := shard, chunk := chunk }] }

/-- Give a reduction the module's own value. -/
def giveOwn (x : Ctx) (tag shard chunk : Nat) (v : List (Word × Bool)) : Ctx :=
  putNode x tag shard chunk fun n => if n.acc.isNone then { n with acc := some v } else n

/-- The released result of a collective is here: it goes down the tree and, for the norm phase of a press step, to
the press units (R325, R352). -/
def setResult (s : State) (k : CollKey) (vals : List (Word × Bool)) : State :=
  match s.ctxAt k with
  | none => s
  | some x =>
    if x.result.isSome then s
    else
      let s := sendRelease s x vals
      let s := s.updCtx k fun x => { x with result := some vals, stained := x.stained || vals.any (·.2) }
      if blkPress (x.op.getD 0).toNat (x.blk.getD {}) then
        pressDeliver s k (vals.getD 0 (0, false)).1 (vals.getD 1 (0, false)).1.toNat
      else s

/-- A reduction is complete at its root. -/
def finalNode (s : State) (k : CollKey) (n : Node) (v : List (Word × Bool)) : State :=
  match n.tag with
  | 2 => s.updCtx k fun x => { x with shard := Tbl.put x.shard n.chunk v, stained := x.stained || v.any (·.2) }
  | 1 =>
    let q := v.getD 0 (0, false)
    let f := v.getD 1 (0, false)
    setResult s k [q, (f.1 ||| (if f32Finite q.1 then 0 else 1), f.2)]
  | _ => setResult s k v

/-- The value of a node goes to its own node: ARRIVE, PART, NORM, or a chunk of DATA (R325–R327). -/
def sendUp (s : State) (x : Ctx) (n : Node) (lv dest : Nat) (v : List (Word × Bool)) : State :=
  let data := elemsBulk 4 (v.map fun e => (e.1.toNat, e.2))
  match n.tag with
  | 2 =>
    let b := x.blk.getD {}
    let m := (recMembers s (recOf s x.key)).length
    let w := typeBytes b.itype.toNat
    sendChunk s x lv dest n.chunk (w * pieceLo b m n.shard n.chunk) w data
  | 1 => sendMsg s x 5 lv dest data
  | _ => sendMsg s x (if x.op = some 0 then 1 else 2) lv dest data

/-- Late entries that the node folds in, under PRESS (R363). -/
def foldLate (s : State) (x : Ctx) (n : Node) (v : List (Word × Bool)) : State × List (Word × Bool) :=
  let b := x.blk.getD {}
  let r := recOf s x.key
  if n.tag = 2 ∧ blkPress (x.op.getD 0).toNat b = true ∧ recDet s r = false then
    let m := (recMembers s r).length
    lateFold s (recWin s r) x.key b.seg.toNat n.shard (pieceLo b m n.shard n.chunk - shardLen b m * n.shard) v
  else (s, v)

/-- Advance one reduction as far as it goes: fold each level whose children are in, then pass the value on. -/
def nodeAdvance : Nat → State → CollKey → Nat → State
  | 0, s, _, _ => s
  | f + 1, s, k, i =>
    match s.ctxAt k with
    | none => s
    | some x =>
      match x.nodes[i]? with
      | none => s
      | some n =>
        match n.acc with
        | none => s
        | some v =>
          if n.sent then s
          else
            let r := recOf s k
            let me := logicalCoord s
            let levels := recLevels s r
            let root := (recMembers s r).getD (if n.tag = 2 then n.shard else 0) me
            let lv := nodeLevels me root levels
            let set := fun (s : State) (g : Node → Node) => s.updCtx k fun x => { x with nodes := alter x.nodes i g }
            if n.level < lv then
              let ks := kids s me (levels.getD n.level [])
              let at_ := fun c => (n.got.find? fun e => e.1 == n.level && e.2.1 == c).map (·.2.2)
              if n.expired || ks.all (fun c => (at_ c).isSome || x.badFrom.contains c) then
                let b := x.blk.getD {}
                let v := ks.foldl (fun v c =>
                  match at_ c with
                  | some w => foldVals n.tag b.redop.toNat b.itype.toNat v w
                  | none => v) v
                nodeAdvance f (set s fun n => { n with level := n.level + 1, acc := some v, expired := false }) k i
              else s
            else if lv = levels.length then
              let (s, v) := foldLate s x n v
              finalNode (set s fun n => { n with acc := some v, sent := true }) k n v
            else
              let dest := toRoot me root (levels.getD lv [])
              if n.tag = 2 ∧ x.ready.contains dest = false then s
              else
                let (s, v) := foldLate s x n v
                sendUp (set s fun n => { n with acc := some v, sent := true }) x n lv dest v

/-- Every chunk of the module's own shard is final. -/
def shardWhole (s : State) (x : Ctx) : Bool :=
  match x.blk with
  | none => false
  | some b =>
    let r := recOf s x.key
    (shardChunks b (recMembers s r).length (recRank s r (logicalCoord s))).all fun c => x.shard.any (·.1 == c)

/-- The reduced shard (R329). -/
def shardVals (x : Ctx) : List (Word × Bool) :=
  (x.shard.flatMap (·.2)).map fun v => (v.1, v.2 || x.mismatch)

/-- Sum of squares and flag that a module gives to a norm without PRESS (R331). -/
def ownNorm (x : Ctx) : List (Word × Bool) :=
  let b := x.blk.getD {}
  let v := shardVals x
  let ws := v.map (·.1)
  let st := v.any (·.2)
  if b.itype = 9 then [(BitVec.ofNat 32 (Config.freeFold 18 9 0 0), st), (0, st)]
  else [(sumSquares ws, st), (BitVec.ofNat 32 (b2n (anyNonfinite ws)), st)]

/-- Advance every reduction of a context. -/
def advanceAll (s : State) (k : CollKey) : State :=
  match s.ctxAt k with
  | none => s
  | some x => (List.range x.nodes.length).foldl (fun s i => nodeAdvance 5 s k i) s

/-- The module contributes to the closing norm of a press step once every segment of it is whole (R351). -/
def pressNorm (s : State) : State :=
  match s.press.steps.find? fun p => p.closing.isSome && !p.contributed && p.segs.all (·.vals.isSome) with
  | none => s
  | some p =>
    let k := p.closing.getD ⟨0, 0, 0⟩
    match pressContribution s k with
    | none => s
    | some (s, q, flags, st) =>
      advanceAll (s.updCtx k fun x => giveOwn x 1 0 0 [(q, st), (BitVec.ofNat 32 flags, st)]) k

/-- The shard is whole: it is held for the press units, or the norm phase begins. -/
def shardDone (s : State) (k : CollKey) : State :=
  match s.ctxAt k with
  | none => s
  | some x =>
    let op := (x.op.getD 0).toNat
    if !(op == 2 || op == 5) || !shardWhole s x then s
    else if blkPress op (x.blk.getD {}) then
      if s.press.steps.any fun p => p.segs.any fun g => g.key == k && g.vals.isNone then
        pressNorm (pressHold s k (shardVals x))
      else s
    else if op = 5 then advanceAll (s.updCtx k fun x => giveOwn x 1 0 0 (ownNorm x)) k
    else s

end Sys2Proof.Machine
end

