-- ==== Sys2Proof/Machine/Coll.lean ====
section
/-!
DEFINITION. The collectives (10_collectives.md): `CSTART` and `CWAIT` (R315, R318), the reading of a block (R316,
R322), the receipt of each message (R320–R337), completion and the freeing of a context (R317, R318, R323), and the
registers of the COLL block (R342, R343).
-/
namespace Sys2Proof.Machine
open Sys2Proof

/-! ### Own values and the block (R316, R329–R331) -/

/-- The context knows its own operation and fields, so that messages can be compared and folded. -/
def ctxKnown (x : Ctx) : Bool := x.op == some 0 || x.blk.isSome

/-- Every participating cluster has started. -/
def allStarted (s : State) (x : Ctx) : Bool :=
  (partClusters s (recOf s x.key)).all fun q => x.starts.any (·.clu == q)

/-- Fold values in order. -/
def foldAll (x : Ctx) (l : List (List (Word × Bool))) : Option (List (Word × Bool)) :=
  let b := x.blk.getD {}
  match l with
  | [] => none
  | v :: t => some (t.foldl (foldVals 0 b.redop.toNat b.itype.toNat) v)

/-- Participating clusters of compute die `d`. -/
def dieClusters (s : State) (r : Comm) (d : Nat) : List Nat := (partClusters s r).filter fun q => clDie q == d

/-- The engine of base die `d` folds the values of its clusters, in ascending logical cluster ID, once all have started
(Table 10.4). -/
def dieStage (s : State) (x : Ctx) (d : Nat) : Option (List (Word × Bool)) :=
  let l := dieClusters s (recOf s x.key) d
  if l.all fun q => x.starts.any (·.clu == q) then
    foldAll x (l.filterMap fun q => (x.starts.find? (·.clu == q)).map (·.vals))
  else none

/-- The package stage of the I/O die folds the values of the base dies in ascending LDIE (Table 10.4). -/
def packageStage (x : Ctx) : List (Word × Bool) := (foldAll x (x.die.map (·.2))).getD []

/-- The die stage of a barrier or all-reduce hands its values to the package stage, which gives the module's value once
every start, with its block, is in. -/
def giveScalar (s : State) (k : CollKey) : State :=
  match s.ctxAt k with
  | none => s
  | some x =>
    if x.op == some 0 || (x.op == some 1 && x.starts.all (·.blk.isSome)) then
      let dies := (List.range 8).foldl (fun (t : Tbl (List (Word × Bool))) d =>
        match dieStage s x d with
        | some v => Tbl.put t d v
        | none => t) x.die
      let s := s.updCtx k fun x => { x with die := dies }
      if allStarted s x then advanceAll (s.updCtx k fun x => giveOwn x 0 0 0 (packageStage x)) k else s
    else s

/-! ### Receipt of messages (R322–R337) -/

/-- The sender's OP, REDOP or ITYPE differs from the module's own (R336). -/
def senderDiffers (x : Ctx) (p : Packet) : Bool :=
  let o := p.opnd0.toNat
  let b := x.blk.getD {}
  decide (seg o 46 44 ≠ (x.op.getD 0).toNat) || decide (seg o 55 48 ≠ b.redop.toNat)
    || decide (seg o 59 56 ≠ b.itype.toNat % 16)

/-- Nothing more is awaited from a member whose messages differ from the module's own (R336). -/
def noWait (s : State) (k : CollKey) (sender : Nat) : State :=
  advanceAll (s.updCtx k fun x =>
    { x with badFrom := if x.badFrom.contains sender then x.badFrom else x.badFrom ++ [sender] }) k

/-- The operation of a member differs: nothing is awaited from it, nor is it owed bytes that it will not ask for. -/
def otherOp (s : State) (k : CollKey) (x : Ctx) (p : Packet) (sender : Nat) : State :=
  let own := (x.op.getD 0).toNat
  let its := seg p.opnd0.toNat 46 44
  let bytes := fun o => o == 3 || o == 4
  if own = its ∨ (bytes own && bytes its) = true then s
  else
    noWait (s.updCtx k fun x =>
      { x with served := if bytes own && !x.served.contains sender then x.served ++ [sender] else x.served }) k sender

/-- Values of a message, with their stains. -/
def packetVals (p : Packet) : List (Word × Bool) :=
  (bulkElems 4 (packetBytes p)).map fun e => (BitVec.ofNat 32 e.1, e.2)

/-- The value of a child arrives at a reduction (R327). -/
def childValue (s : State) (k : CollKey) (tag shard chunk level sender : Nat) (v : List (Word × Bool)) : State :=
  advanceAll (s.updCtx k fun x => putNode x tag shard chunk fun n =>
    if n.got.any fun e => e.1 == level && e.2.1 == sender then n
    else { n with got := n.got ++ [(level, sender, v)] }) k

/-- A partial arrives after its node has folded that level without it (R337, R362). -/
def lateChunk (s : State) (x : Ctx) (i : Incoming) (v : List (Word × Bool)) : State :=
  let b := x.blk.getD {}
  let r := recOf s x.key
  if blkStrag s r b then
    let no := match s.press.steps.find? (fun p => p.segs.any (·.key == x.key)) with
      | some p => p.no
      | none => s.press.opened
    let m := (recMembers s r).length
    lateWrite s { comm := x.key.comm, seq := x.key.seq, epoch := x.key.epoch, stain := v.any (·.2), seg := b.seg
                  rank := BitVec.ofNat 16 (recRank s r i.sender)
                  offset := pieceLo b m i.shard i.chunk - shardLen b m * i.shard, vals := v.map (·.1), shard := i.shard, no := no }
  else s

/-- A chunk of partials is whole at a node (R332–R334). -/
def partialChunk (s : State) (k : CollKey) (i : Incoming) (bad : Bool) : State :=
  match s.ctxAt k with
  | none => s
  | some x =>
    let v := (bulkElems 4 i.bytes).map fun e => (BitVec.ofNat 32 e.1, e.2 || bad)
    let passed := x.nodes.any fun n => n.tag == 2 && n.shard == i.shard && n.chunk == i.chunk &&
      (n.sent || decide (i.level < n.level))
    if passed then lateChunk s x i v
    else shardDone (childValue s k 2 i.shard i.chunk i.level i.sender v) k

/-- Place at DST of the contribution of a sender: its rank, or with FIRST its order of arrival (R330). -/
def bulkPlace (s : State) (x : Ctx) (sender : Nat) : Nat :=
  let r := recOf s x.key
  if x.op = some 4 ∧ blkFirst s r (x.blk.getD {}) = true then x.arrivals.idxOf sender else recRank s r sender

/-- A sender's first data arrives: with FIRST, its rank is written behind the blocks (R330). -/
def noteArrival (s : State) (k : CollKey) (sender : Nat) : State :=
  match s.ctxAt k with
  | none => s
  | some x =>
    if x.arrivals.contains sender then s
    else
      let s := s.updCtx k fun x => { x with arrivals := x.arrivals ++ [sender] }
      let r := recOf s k
      let b := x.blk.getD {}
      if x.op = some 4 ∧ blkFirst s r b = true then
        bulkWrite s (collSrc 0) (recWin s r)
          (b.dst.toNat + (recMembers s r).length * b.count.toNat + 2 * x.arrivals.length)
          ((leBytes 2 (recRank s r sender)).map fun y => (y, false))
      else s

/-- Data of an all-gather or all-to-all is written at DST (R330, R335). -/
def gatherWrite (s : State) (k : CollKey) (die sender off : Nat) (data : List (Byte × Bool)) : State :=
  let s := noteArrival s k sender
  match s.ctxAt k with
  | none => s
  | some x =>
    let b := x.blk.getD {}
    let s := s.updCtx k fun x => { x with stained := x.stained || data.any (·.2) }
    bulkWrite s (collSrc die) (recWin s (recOf s k)) (b.dst.toNat + bulkPlace s x sender * b.count.toNat + off) data

/-- The chunk being received that a packet continues, with the packet's bytes added, and the others. -/
def addIncoming (x : Ctx) (sender level shard chunk : Nat) (data : List (Byte × Bool)) : Incoming × List Incoming :=
  let same := fun (i : Incoming) => i.sender == sender && i.level == level && i.shard == shard && i.chunk == chunk
  let i := (x.incoming.find? same).getD { sender := sender, level := level, shard := shard, chunk := chunk }
  ({ i with bytes := i.bytes ++ data }, x.incoming.filter fun i => !same i)

/-- The bytes of a packet as they are read at the check, an injection flipping 1 or 2 bits of them (R404). -/
def injectChunk (s : State) (k : CollKey) (die : Nat) (last : Bool) (data : List (Byte × Bool)) :
    State × List (Byte × Bool) × Bool :=
  if last then
    match takeInject s evCollCrc (collSrc die) (recWin s (recOf s k)) with
    | some (w, s) => (s, alter data 0 fun x => (x.1 ^^^ (if w = 1 then 1 else 3), x.2), true)
    | none => (s, data, false)
  else (s, data, false)

/-- The piece of a contribution that a DATA packet belongs to. -/
structure Piece where
  /-- OFFSET, and the room that the packet takes from there, within the receiver's range `full`: elements of a reduction,
  bytes of an all-gather or all-to-all. -/
  at_ : Nat := 0
  size : Nat := 0
  full : Nat := 0
  shard : Nat := 0
  chunk : Nat := 0
  /-- Bytes of DATA that the whole piece comes to. -/
  whole : Nat := 0

/-- Read OFFSET and length of a DATA packet by the module's own block (R329, R330, R332). -/
def pieceOf (b : CollBlk) (n : Nat) (vector : Bool) (off len : Nat) : Piece :=
  if vector then
    let e := off / typeBytes b.itype.toNat
    let i := e / shardLen b n
    let c := e / chunkElems b
    { at_ := e, size := len / 4, full := shardLen b n * n, shard := i, chunk := c
      whole := 4 * (pieceHi b n i c - pieceLo b n i c) }
  else
    let c := off / chunkOf b
    { at_ := off, size := len, full := b.count.toNat, chunk := c, whole := min (chunkOf b) (b.count.toNat - chunkOf b * c) }

/-- A DATA packet (R329, R330, R332–R337). A packet outside the receiver's range is discarded; from a member whose chunk
ends outside it, or comes to another length than the receiver's own, nothing more is awaited (R336). -/
def dataPacket (s : State) (k : CollKey) (x : Ctx) (p : Packet) (sender : Nat) : State :=
  let b := x.blk.getD {}
  let r := recOf s k
  let n := (recMembers s r).length
  let die := p.tdie.toNat
  let last := bitAt p.opnd0.toNat 47
  let level := seg p.opnd0.toNat 61 60
  let vector := x.op == some 2 || x.op == some 5
  let pc := pieceOf b n vector (seg p.opnd1.toNat 31 0) p.data.length
  if !(vector || x.op == some 3 || x.op == some 4) || decide (pc.full < pc.at_ + pc.size) || pc.at_ == pc.full then
    let s := collMismatch s k
    if last then noWait s k sender else s
  else
    let (s, data, inj) := injectChunk s k die last (packetBytes p)
    let off := pc.at_
    let shard := pc.shard
    let chunk := pc.chunk
    let (i, rest) := addIncoming x sender level shard chunk data
    let s := s.updCtx k fun x => { x with incoming := if last then rest else rest ++ [i] }
    let s := if vector then s else gatherWrite s k die sender off data
    if !last then s
    else
      let bad := (crc32c (i.bytes.map (·.1))).toNat != seg p.opnd1.toNat 63 32
      let s := if bad then crcFailed s k die chunk inj else s
      let s := if i.bytes.length = pc.whole then s else noWait (collMismatch s k) k sender
      if vector then partialChunk s k i bad
      else
        let s := if bad then
            match s.ctxAt k with
            | some x => bulkStain (s.updCtx k fun x => { x with stained := true }) (collSrc die) (recWin s r)
                (b.dst.toNat + bulkPlace s x sender * b.count.toNat + chunkOf b * chunk) i.bytes.length
            | none => s
          else s
        s.updCtx k fun x => { x with chunksIn := x.chunksIn ++ [(sender, chunk)] }

/-- A member's READY is in: an all-gather or all-to-all sends it its bytes; a reduction may pass chunks up (R322,
R330, R332). -/
def serveReady (s : State) (k : CollKey) (member : Nat) : State :=
  match s.ctxAt k with
  | none => s
  | some x =>
    match x.blk with
    | none => s
    | some b =>
      if x.op = some 3 ∨ x.op = some 4 then
        if x.served.contains member then s
        else
          let n := b.count.toNat
          let mine := if x.op = some 4 then (x.src.drop (recRank s (recOf s k) member * n)).take n else x.src
          let s := (List.range (byteChunks b)).foldl (fun s c =>
            sendChunk s x 0 member c (chunkOf b * c) 4 ((mine.drop (chunkOf b * c)).take (chunkOf b))) s
          s.updCtx k fun x => { x with served := x.served ++ [member] }
      else shardDone (advanceAll s k) k

/-- Take one message into a context that knows its own operation, but for READY. -/
def takeMessage (s : State) (k : CollKey) (p : Packet) : State :=
  match s.ctxAt k with
  | none => s
  | some x =>
    let sender := logicalOf s p.src.toNat
    let level := seg p.opnd0.toNat 61 60
    let msg := collMsg p
    let s := if msg = 1 ∨ msg = 2 ∨ msg = 3 then
        detect s evCollMismatch (collSrc 0) (recWin s (recOf s k)) (senderDiffers x p)
          (fun s => otherOp (collMismatch s k) k x p sender) id
      else s
    match msg with
    | 1 => childValue s k 0 0 0 level sender (packetVals p)
    | 2 => childValue s k 0 0 0 level sender (packetVals p)
    | 3 => dataPacket s k x p sender
    | 4 => setResult s k (packetVals p)
    | 5 => childValue s k 1 0 0 level sender (packetVals p)
    | _ => s

/-- Messages held in the staging of a context are taken once it knows its own operation (R322). -/
def takeEarly (s : State) (k : CollKey) : State :=
  match s.ctxAt k with
  | none => s
  | some x =>
    if ctxKnown x then
      let s := s.updCtx k fun x => { x with early := [] }
      x.early.foldl (fun s p => takeMessage s k p) s
    else s

/-- A stale packet is dropped: it is counted, and an entry of SEV 0 is written (R323, R367; log 31). -/
def dropStale (s : State) (tuple : Nat) (unit : Nat) : State :=
  let s := { s with coll := { s.coll with staleDrop := BitVec.ofNat 64 (satTo 64 (s.coll.staleDrop.toNat + 1)) } }
  queueReport s evCollBadcomm unit (reportOf s { cls := evCollBadcomm, src := unit, sev := 0, detail := tuple })

/-- Allocate a context (R318); PEAK follows USED (R343). -/
def newCtx (s : State) (x : Ctx) : State :=
  let l := s.coll.ctx ++ [x]
  { s with coll := { s.coll with ctx := l, peak := BitVec.ofNat 9 (max s.coll.peak.toNat l.length) } }

/-- A context is needed in a window: an injection reports that one has been waited for too long. -/
def meetCtx (s : State) (win : Nat) : State :=
  detect s evCollCtxExhaust (collSrc 0) win false
    (fun s => raise { s with coll := { s.coll with exhaust := true } } { cls := evCollCtxExhaust, src := collSrc 0 }) id

/-- The receipt of a packet: taken out of the buffer, its virtual channel ejects again as far as it can. -/
def collTaken (s : State) (e : InPacket) (rest : List InPacket) : State :=
  let s := { s with tl := { s.tl with collIn := rest } }
  if e.link < 32 then drainVc s e.link (packetVc e.pkt) else s

/-- Receive the oldest packet that no wait holds, if it is of a MSG; `EXHAUST` is set while one waits (R320). A node's
own copy of the release that it multicast is taken when it sends it, and is passed over here. -/
def collReceive (s : State) (msg : Nat) : State :=
  let s := if anyWaits s then { s with coll := { s.coll with exhaust := true } } else s
  match firstFree s [] s.tl.collIn with
  | none => s
  | some (e, rest) =>
    let p := e.pkt
    if collMsg p ≠ msg then s
    else
      let k := packetTuple p
      let s := collTaken s e rest
      if msg = 4 ∧ p.src = s.tl.coord then s
      else if collStale s k then dropStale s (tupleNat k) (collSrc p.tdie.toNat)
      else
        let s := if (s.ctxAt k).isNone then newCtx (meetCtx s (recWin s (recOf s k))) { key := k } else s
        if msg = 0 then
          let m := logicalOf s p.src.toNat
          serveReady (s.updCtx k fun x => { x with ready := if x.ready.contains m then x.ready else x.ready ++ [m] }) k m
        else
          match s.ctxAt k with
          | some x =>
            if ctxKnown x then shardDone (takeMessage s k p) k
            else s.updCtx k fun x => { x with early := x.early ++ [p] }
          | none => s

/-- COLL_READY_RECEIVE (R322). -/
def execCollReadyReceive (s : State) : Ans := .next (collReceive s 0)
/-- COLL_ARRIVE_RECEIVE (R325). -/
def execCollArriveReceive (s : State) : Ans := .next (collReceive s 1)
/-- COLL_PART_RECEIVE (R327). -/
def execCollPartReceive (s : State) : Ans := .next (collReceive s 2)
/-- COLL_DATA_RECEIVE (R333). -/
def execCollDataReceive (s : State) : Ans := .next (collReceive s 3)
/-- COLL_RELEASE_RECEIVE (R325). -/
def execCollReleaseReceive (s : State) : Ans := .next (collReceive s 4)
/-- COLL_NORM_RECEIVE (R331). -/
def execCollNormReceive (s : State) : Ans := .next (collReceive s 5)

/-- The oldest wait that has not raised its event is marked as having done so. -/
def markWait (s : State) : List InPacket → Option (List InPacket)
  | [] => none
  | e :: rest =>
    if collWaits s e.pkt && !e.raised then some ({ e with raised := true } :: rest)
    else (markWait s rest).map (e :: ·)

/-- COLL_CONTEXT_WAIT_TIMEOUT: the event is raised once for the oldest wait that has not raised it (R320). -/
def execCollContextWaitTimeout (s : State) : Ans :=
  match markWait s s.tl.collIn with
  | some l =>
    .next (raise { s with tl := { s.tl with collIn := l }, coll := { s.coll with exhaust := true } }
      { cls := evCollCtxExhaust, src := collSrc 0 })
  | none => .next s

/-! ### The reading of a block (R316, R322) -/

/-- A start is refused: `COLL_BADCOMM`, and the job stops (R315). -/
def refuseStart (s : State) (q : Nat) (detail : Nat) : State :=
  haltStop (raiseSeq s q evCollBadcomm 2 detail) q { cause := 4, cls := evCollBadcomm }

/-- Read the block of a start. -/
def readStart (s : State) (r : Comm) (op n : Nat) (st : Started) : State × Started :=
  let (s, l) := bulkRead s (collSrc (clDie st.clu)) (recWin s r) st.addr.toNat 64
  let b := parseBlock op n (l.map (·.1))
  let vals := (bulkElems 4 (l.drop 32)).take (min 8 b.count.toNat)
  (s, { st with blk := some b, vals := vals.map fun e => (inWord b.itype.toNat e.1, e.2) })

/-- The module's contribution to a reduce-scatter: a reduction for each chunk of each shard (R329, R332). -/
def giveShards (s : State) (k : CollKey) (b : CollBlk) (n : Nat) : State :=
  let w := typeBytes b.itype.toNat
  let (s, l) := bulkRead s (collSrc 0) (recWin s (recOf s k)) b.src.toNat (w * b.count.toNat)
  let el := (bulkElems w l).map fun e => (inWord b.itype.toNat e.1, e.2)
  let own := (List.range n).flatMap fun i => (shardChunks b n i).map fun c =>
    (i, c, (el.drop (pieceLo b n i c)).take (pieceHi b n i c - pieceLo b n i c))
  s.updCtx k fun x => own.foldl (fun x (i, c, v) => giveOwn x 2 i c v) x

/-- The module's contribution to an all-gather or all-to-all; its own part is copied here (R330). -/
def giveBytes (s : State) (k : CollKey) (op : Nat) (b : CollBlk) (n : Nat) : State :=
  let (s, l) := bulkRead s (collSrc 0) (recWin s (recOf s k)) b.src.toNat (if op = 4 then n * b.count.toNat else b.count.toNat)
  let s := s.updCtx k fun x => { x with src := l }
  let me := logicalCoord s
  let own := if op = 4 then (l.drop (recRank s (recOf s k) me * b.count.toNat)).take b.count.toNat else l
  gatherWrite s k 0 me 0 own

/-- The lead block of a vector operation has been read (R316, R322, R347). -/
def vectorBlock (s : State) (k : CollKey) (op : Nat) (b : CollBlk) : State :=
  let r := recOf s k
  let n := (recMembers s r).length
  let s := s.updCtx k fun x => { x with blk := some b }
  let (s, bad) := if blkPress op b then pressJoin s k (BitVec.ofNat 3 op) b (shardLen b n) else (s, false)
  let s := if b.bad || bad then collMismatch s k else s
  let s := if op = 2 ∨ op = 5 then giveShards s k b n else giveBytes s k op b n
  match s.ctxAt k with
  | none => s
  | some x =>
    let s := (vectorPeers s r op).foldl (fun s m => sendMsg s x 0 0 m []) s
    let s := takeEarly s k
    let s := x.ready.foldl (fun s m => serveReady s k m) s
    shardDone (advanceAll s k) k

/-- COLL_BLOCK_READ. -/
def execCollBlockRead (k : CollKey) (s : State) : Ans :=
  match s.ctxAt k with
  | none => .next s
  | some x =>
    let r := recOf s k
    let n := (recMembers s r).length
    let op := (x.op.getD 0).toNat
    let lead := leadCluster s r
    if op = 0 then .next s
    else if op = 1 then
      let (s, starts) := x.starts.foldl (fun (s, l) st =>
        if st.blk.isSome then (s, l ++ [st]) else let (s, st) := readStart s r op n st; (s, l ++ [st])) (s, [])
      match starts.find? fun st => blkFlagPress (st.blk.getD {}) && pressRefused s r.job.toNat k.comm with
      | some st => .next (refuseStart s st.clu (tupleNat k))
      | none =>
      let s := s.updCtx k fun x =>
        { x with starts := starts, blk := ((starts.find? fun st => some st.clu == lead).bind (·.blk)).orElse fun _ => x.blk }
      let differs := match (s.ctxAt k).bind (·.blk) with
        | some b => starts.any fun st => match st.blk with
          | some c => c.bad || c.redop != b.redop || c.itype != b.itype || c.count != b.count
          | none => false
        | none => false
      let s := if differs then collMismatch s k else s
      .next (giveScalar (takeEarly s k) k)
    else
      match x.starts.find? fun st => some st.clu == lead && st.blk.isNone with
      | none => .next s
      | some st =>
        let (s, st) := readStart s r op n st
        let b := st.blk.getD {}
        if blkFlagPress b && pressRefused s r.job.toNat k.comm then .next (refuseStart s st.clu (tupleNat k))
        else
          let s := s.updCtx k fun x =>
            { x with starts := x.starts.map fun t => if t.clu = st.clu then st else t }
          .next (vectorBlock s k op b)

/-! ### `CSTART` and `CWAIT` (R315, R318) -/

/-- The first four cases of R315. -/
def tupleRefused (s : State) (q : Nat) (k : CollKey) : Bool :=
  let r := recOf s k
  !r.valid || r.job.toNat != cluJob s q || !(partClusters s r).contains q || r.epoch != k.epoch

/-- A cluster joins the context of its tuple. -/
def joinCtx (s : State) (k : CollKey) (op q : Nat) (addr : Nat) : State :=
  let differs := match s.ctxAt k with
    | some x => match x.op with | some o => o.toNat != op | none => false
    | none => false
  let s := s.updCtx k fun x =>
    { x with op := some (x.op.getD (BitVec.ofNat 3 op))
             starts := x.starts ++ [{ clu := q, addr := BitVec.ofNat 64 addr }] }
  let s := if differs then collMismatch s k else s
  let s := s.updClu q fun c => { c with colls := c.colls ++ [k] }
  giveScalar (takeEarly s k) k

/-- A tuple is met by `CSTART` or `CWAIT`: an injection refuses it (R404). -/
def meetTuple (s : State) (q : Nat) (k : CollKey) (g : State → Did) : Did :=
  match takeInject s evCollBadcomm (srcCluster s q) (cluWinByte s q) with
  | some (_, s) => .halt (underInject (fun s => refuseStart s q (tupleNat k)) s)
  | none => g s

/-- A start takes a context: an injection reports that it has waited too long for one (R134). -/
def meetWait (s : State) (q : Nat) : State :=
  detect s evCollCtxExhaust (srcCluster s q) (cluWinByte s q) false (fun s => ctxTimeout s q) id

/-- `CSTART` of operation `op` (R132, R134, R163, R315, R318). -/
def cstart (op q n : Nat) (s : State) : Did :=
  let c := s.clu q
  let k := tupleOf (sReg c (fRa n))
  if fSub n % 16 ≠ op then .halt s
  else if !outDone c c.nextId then .stall s 3
  else
    meetTuple s q k fun s =>
      if tupleRefused s q k || decide (256 ≤ (k.seq - (recOf s k).doneBase).toNat) || c.colls.contains k then
        .halt (refuseStart s q (tupleNat k))
      else if 16 ≤ c.colls.length then .stall s 4
      else if (s.ctxAt k).isSome then .go (joinCtx s k op q (sReg c (fRb n)))
      else if 256 ≤ s.coll.ctx.length then .stall { s with coll := { s.coll with exhaust := true } } 4
      else .go (joinCtx (newCtx (meetWait s q) { key := k }) k op q (sReg c (fRb n)))

/-- `CSTART`, SUB 0x0. -/
def execCstartBarrier (q : Cl) (w : BitVec 120) (s : State) : Ans := seqOp 0x67 q w (cstart 0) s
/-- `CSTART`, SUB 0x1. -/
def execCstartAllReduce (q : Cl) (w : BitVec 120) (s : State) : Ans := seqOp 0x67 q w (cstart 1) s
/-- `CSTART`, SUB 0x2. -/
def execCstartReduceScatter (q : Cl) (w : BitVec 120) (s : State) : Ans := seqOp 0x67 q w (cstart 2) s
/-- `CSTART`, SUB 0x3. -/
def execCstartAllGather (q : Cl) (w : BitVec 120) (s : State) : Ans := seqOp 0x67 q w (cstart 3) s
/-- `CSTART`, SUB 0x4. -/
def execCstartAllToAll (q : Cl) (w : BitVec 120) (s : State) : Ans := seqOp 0x67 q w (cstart 4) s
/-- `CSTART`, SUB 0x5. -/
def execCstartGlobalNorm (q : Cl) (w : BitVec 120) (s : State) : Ans := seqOp 0x67 q w (cstart 5) s

/-- `CWAIT` (R132, R163, R315). -/
def execCwait (q : Cl) (w : BitVec 120) (s : State) : Ans :=
  seqOp 0x68 q w (fun q n s =>
    let c := s.clu q
    let k := tupleOf (sReg c (fRa n))
    meetTuple s q k fun s =>
      if tupleRefused s q k then .halt (refuseStart s q (tupleNat k))
      else if c.colls.contains k then .stall s 3
      else .go s) s

/-! ### Stragglers (R337) -/

/-- COLL_HOLD_EXPIRE: the hold timer of the first node that holds its own value of a chunk and waits for children. -/
def execCollHoldExpire (k : CollKey) (chunk : Nat) (s : State) : Ans :=
  match s.ctxAt k with
  | none => .next s
  | some x =>
    let r := recOf s k
    let b := x.blk.getD {}
    let members := recMembers s r
    let me := logicalCoord s
    let levels := recLevels s r
    let missing := fun (n : Node) => ((kids s me (levels.getD n.level [])).filter fun c =>
      !n.got.any fun e => e.1 == n.level && e.2.1 == c).length
    match x.nodes.find? fun n => n.tag == 2 && n.chunk == chunk && n.acc.isSome && !n.sent
        && decide (n.level < nodeLevels me (members.getD n.shard me) levels) && decide (0 < missing n) with
    | none => .next s
    | some n =>
      let missing := missing n
      if blkStrag s r b then
        let s := countNondet s (recWin s r) 1 1
        let s := s.updCtx k fun x =>
          { putNode x 2 n.shard n.chunk (fun n => { n with expired := true }) with
            late := true, missing := satTo 16 (x.missing + missing) }
        .next (shardDone (advanceAll s k) k)
      else .next s

/-! ### Completion (R317, R318, R323) -/

/-- Every condition of completion holds on the module (R317, R325, R355). -/
def collReady (s : State) (x : Ctx) : Bool :=
  let r := recOf s x.key
  let op := (x.op.getD 0).toNat
  let b := x.blk.getD {}
  let reduced := x.blk.isSome && shardWhole s x && x.nodes.all fun m => m.tag != 2 || m.sent
  x.op.isSome && !x.done && allStarted s x &&
    (match op with
    | 0 => x.result.isSome
    | 1 => x.result.isSome && x.starts.all (·.blk.isSome)
    | 2 => reduced
    | 5 => reduced && x.result.isSome && (!blkPress op b || x.pressDone)
    | _ => x.blk.isSome && (vectorPeers s r op).all fun m =>
        x.served.contains m && (x.badFrom.contains m || (List.range (byteChunks b)).all fun c => x.chunksIn.contains (m, c)))

/-- STATUS (R317). -/
def collStatus (x : Ctx) (nonfinite : Bool) : Nat :=
  1 + 2 * b2n x.stained + 4 * b2n x.crcBad + 8 * b2n x.late + 16 * b2n nonfinite + 32 * b2n x.mismatch
    + 2 ^ 16 * x.missing

/-- Write the results of a collective. -/
def writeResults (s : State) (x : Ctx) : State :=
  let r := recOf s x.key
  let w := recWin s r
  let op := (x.op.getD 0).toNat
  let b := x.blk.getD {}
  let res := x.result.getD []
  let out := fun (v : Word × Bool) => (outBits b.itype.toNat b.otype.toNat v.1, v.2 || x.mismatch)
  let each := fun (s : State) (l : List (Byte × Bool)) =>
    x.starts.foldl (fun s st => bulkWrite s (collSrc (clDie st.clu)) w (st.addr.toNat + 32) l) s
  let s :=
    if (op = 2 ∨ op = 5) ∧ blkPress op b = false then
      bulkWrite s (collSrc 0) w b.dst.toNat (elemsBulk (typeBytes b.otype.toNat) ((shardVals x).map out))
    else s
  match op with
  | 1 => each s (elemsBulk 4 (res.map out))
  | 5 =>
    let q := res.getD 0 (0, false)
    let f := res.getD 1 (0, false)
    each s (elemsBulk 4 [(q.1.toNat, q.2 || x.mismatch), (f.1.toNat % 2, f.2 || x.mismatch)])
  | 3 | 4 =>
    if x.mismatch then bulkStain s (collSrc 0) w b.dst.toNat ((recMembers s r).length * b.count.toNat) else s
  | _ => s

/-- DONE_BASE advances past each set bit at the bottom of the map (R323). -/
def advanceBase : Nat → Comm → Comm
  | 0, r => r
  | f + 1, r =>
    if r.doneMap.getLsbD 0 then advanceBase f { r with doneBase := r.doneBase + 1, doneMap := r.doneMap >>> 1 } else r

/-- A sequence has completed (R323). -/
def markDone (r : Comm) (seq : BitVec 16) : Comm :=
  let d := (seq - r.doneBase).toNat
  if d < 256 then advanceBase 256 { r with doneMap := r.doneMap ||| BitVec.ofNat 256 (2 ^ d) } else r

/-- COLL_COMPLETE. -/
def execCollComplete (k : CollKey) (s : State) : Ans :=
  match s.ctxAt k with
  | none => .next s
  | some x =>
    if !collReady s x then .next s
    else
      let r := recOf s k
      let op := (x.op.getD 0).toNat
      let nonfinite := op == 5 && ((x.result.getD []).getD 1 (0, false)).1.getLsbD 0
      let s := writeResults s x
      let s := if op = 0 then s else
        x.starts.foldl (fun s st =>
          bulkWrite s (collSrc (clDie st.clu)) (recWin s r) (st.addr.toNat + 28)
            ((leBytes 4 (collStatus x nonfinite)).map fun b => (b, false))) s
      if (s.ctxAt k).isNone then .next s
      else
        let s := if op = 4 ∧ blkFirst s r (x.blk.getD {}) = true then countNondet s (recWin s r) 3 1 else s
        let s := x.starts.foldl (fun s st =>
          s.updClu st.clu fun c => { c with colls := c.colls.filter (· != k) }) s
        let s := { s with coll := { s.coll with comm := upd {} s.coll.comm k.comm.toNat fun r => markDone r k.seq } }
        .next (s.updCtx k fun x => { x with done := true })

/-- Packets of a tuple have still to leave the module (R318). -/
def owesPackets (s : State) (key : Nat) : Bool :=
  s.tl.link.any fun l => l.2.outq.any fun v => v.2.any fun f => f.key == key

/-- COLL_CONTEXT_FREE (R318). -/
def execCollContextFree (k : CollKey) (s : State) : Ans :=
  match s.ctxAt k with
  | none => .next s
  | some x =>
    if x.done && !owesPackets s (tupleKey 3 (tupleNat k)) then
      .next { s with coll := { s.coll with ctx := s.coll.ctx.filter fun x => !(x.key == k) } }
    else .next s

/-! ### Registers (R342, R343) -/

/-- A write of `COLL_CTX`. -/
def collCtxWrite (s : State) (v : Nat) : State :=
  let c := s.coll
  { s with coll := { c with peak := if bitAt v 18 then BitVec.ofNat 9 c.ctx.length else c.peak
                            exhaust := c.exhaust && !bitAt v 19 } }

/-- COLL_CTX_PEAK_RST. -/
def execCollCtxPeakRst (a : Agent) (v : Word) (s : State) : Ans :=
  if isMp a then .next (collCtxWrite s v.toNat) else .next s

/-- `COLL_CTX.EXHAUST` (R320). -/
def collExhaust (s : State) : Bool := s.coll.exhaust || anyWaits s

/-- Registers of the COLL block. -/
def collReg (s : State) (a : Agent) (o : Nat) : Option Reg :=
  if !mgmt a then none
  else
    match o with
    | 0x00 => Reg.rwIf (isMp a) (s.coll.ctx.length + 2 ^ 9 * s.coll.peak.toNat + 2 ^ 19 * b2n (collExhaust s)) (collCtxWrite s)
    | 0x08 => Reg.ro64 s.coll.staleDrop.toNat
    | 0x10 => Reg.ro s.coll.crcErr.toNat
    | _ => none

end Sys2Proof.Machine
end

