-- ==== Sys2Proof/Machine/Mend.lean ====
section
/-!
DEFINITION. Mending (R411–R416) and recovery (R423): groups, the protected state, stripes and their code, the two
logs, rounds, and the steps of Table 13.9.
-/
namespace Sys2Proof.Machine
open Sys2Proof

/-! ### The group (R411, R299) -/

/-- Logical axes of a role in the press job's window. -/
def roleAxes (s : State) (role : Nat) : List Nat :=
  let r := (Tbl.get 0 s.slc.role (pressWin s)).toNat
  (List.range 4).filter fun j => seg r (2 * j + 1) (2 * j) == role
/-- Axes of the mending role. -/
def mendAxes (s : State) : List Nat := roleAxes s s.guard.mendRole.toNat
/-- Size of a role. -/
def roleSize (s : State) (role : Nat) : Nat := (roleAxes s role).foldl (fun n j => n * axisK s j) 1
/-- The member's index in the mending role. -/
def mendPlace (s : State) : Nat := rankOf s (mendAxes s) (logicalCoord s)
/-- Group index i. -/
def mendIndex (s : State) : Nat := mendPlace s % 16
/-- Logical coordinate of group index `i`. -/
def mendMember (s : State) (i : Nat) : Nat :=
  ((mendAxes s).foldl (fun (c, n) j => (setDim c j (n % axisK s j), n / axisK s j))
    (logicalCoord s, mendPlace s / 16 * 16 + i)).1

/-! ### The protected state (R412) -/

/-- Areas of a segment: bytes, and the address of each version (Tables 11.2, 11.3). -/
def segAreas (d : List Byte) : List (Nat × Nat × Nat) :=
  let f := fieldAt d
  let opt := f 0 1
  let n := f 8 4
  let m := if f 1 1 = 6 then 2 else 4
  let r := 2 ^ (f 4 1 % 16)
  let c := 2 ^ (f 5 1 % 16)
  let tiles := n / (r * c)
  let p := (4 * n, f 48 8, f 56 8)
  let mo := (m * n, f 64 8, f 72 8)
  match opt with
  | 1 => [p, mo]
  | 2 => [p, mo, (m * n, f 80 8, f 88 8)]
  | 3 => [p, mo, (4 * r * tiles, f 80 8, f 88 8), (4 * c * tiles, f 96 8, f 104 8)]
  | 4 => [p, (4 * r * tiles, f 80 8, f 88 8), (4 * c * tiles, f 96 8, f 104 8)]
  | _ => [p]

/-- A protected area: its first logical byte, its size, and the address of each version. -/
structure Area where
  comm : BitVec 16
  seg : Nat
  base : Nat
  size : Nat
  a0 : Nat
  a1 : Nat

/-- Lay the areas of one table out from logical byte `base`. -/
def tableAreas (s : State) (comm : BitVec 16) (tbl base : Nat) : State × List Area × Nat :=
  let (s, h) := readHeader s tbl
  (List.range (min 4096 (fieldAt h 36 4))).foldl (fun (s, l, b) k =>
    let (s, d) := readDesc s tbl k
    let (l, b) := (segAreas d).foldl (fun (l, b) (n, a0, a1) =>
      (l ++ [{ comm := comm, seg := k, base := b, size := n, a0 := a0, a1 := a1 }], b + ceilDiv n 4096 * 4096)) (l, b)
    (s, l, b)) (s, [], base)

/-- Every area of the press job's tables, and B, which is a multiple of 28 KiB. -/
def protectedAreas (s : State) : State × List Area × Nat :=
  let (s, l, b) := s.press.tables.foldl (fun (s, l, b) (c, t) =>
    let (s, l', b) := tableAreas s c t.toNat b
    (s, l ++ l', b)) (s, ([] : List Area), 0)
  (s, l, ceilDiv b 28672 * 28672)

/-! ### Stripes (R413, R414) -/

/-- Stripe of data unit `u` of member `i`. -/
def stripeOf (i u : Nat) : Nat :=
  let c := u / 7
  let r := u % 7
  if r < i / 2 then 8 * c + r else 8 * c + r + 1
/-- Unit of member `i` in stripe `st`. -/
def unitOf (i st : Nat) : Nat :=
  let j := st % 8
  7 * (st / 8) + j - b2n (decide (i / 2 < j))
/-- Position of data holder `i` in a stripe. -/
def holderPos (i st : Nat) : Nat := if i < 2 * (st % 8) then i else i - 2
/-- Data holder at position `k`. -/
def holderAt (k st : Nat) : Nat := if k < 2 * (st % 8) then k else k + 2
/-- Byte `c` times every byte. -/
def scaleBytes (c : Byte) (l : List Byte) : List Byte := l.map (gfMul c)
/-- XOR of two runs of bytes, as long as the first. -/
def xorBytes (a b : List Byte) : List Byte := a.zipIdx.map fun (x, i) => x ^^^ byteAt b i
/-- The same of bytes with their stains: a byte is stained when either is (R186). -/
def xorBulk (a b : List (Byte × Bool)) : List (Byte × Bool) :=
  a.zipIdx.map fun (x, i) => let y := b[i]?.getD (0, false); (x.1 ^^^ y.1, x.2 || y.2)

/-- Parity `q` of the data units of a stripe, listed by position. -/
def stripeParity (q : Nat) (data : List (Nat × List Byte)) : List Byte :=
  data.foldl (fun p (k, d) => xorBytes p (if q = 0 then d else scaleBytes (gfPow k) d)) (zeros 4096)

/-- Decode data position `k` of a stripe from surviving shards, listed by group index (R414). -/
def decodeUnit (st k : Nat) (shards : List (Nat × List Byte)) : List Byte :=
  let p0 := 2 * (st % 8)
  let data := shards.filterMap fun (i, d) => if i / 2 = st % 8 then none else some (holderPos i st, d)
  let par := fun q => (shards.find? (·.1 == p0 + q)).map (·.2)
  let lost := (List.range 14).filter fun j => !data.any (·.1 == j)
  let s0 := (par 0).map fun p => xorBytes p (stripeParity 0 data)
  let s1 := (par 1).map fun p => xorBytes p (stripeParity 1 data)
  match lost.filter (· != k), s0, s1 with
  | [], some a, _ => a
  | [], none, some b => scaleBytes (gfInv (gfPow k)) b
  | [j], some a, some b =>
    scaleBytes (gfInv (gfPow k ^^^ gfPow j)) (xorBytes b (scaleBytes (gfPow j) a))
  | _, _, _ => zeros 4096

/-! ### Logs (R415) -/

/-- SOURCE of the parity engines. -/
def mendSrc : Nat := srcUnit 0 unitParity
/-- Bytes of the press job's window with their stains, and their writing, by the parity engines. -/
def mendRead (s : State) (a n : Nat) : State × List (Byte × Bool) := bulkRead s mendSrc (pressWin s) a n
def mendPut (s : State) (a : Nat) (b : List (Byte × Bool)) : State := bulkWrite s mendSrc (pressWin s) a b
def mendWrite (s : State) (a : Nat) (b : List Byte) : State := mendPut s a (b.map fun x => (x, false))

/-- Address of a log. -/
def logBase (g : Guard) (second : Bool) : Nat := (if second then g.l1 else g.l0).toNat
/-- Dirty units of a log. -/
def logDirty (g : Guard) (second : Bool) : List Nat := if second then g.dirtyB else g.dirtyA
/-- Put them. -/
def setDirty (g : Guard) (second : Bool) (l : List Nat) : Guard :=
  if second then { g with dirtyB := l } else { g with dirtyA := l }

/-- XOR a step's deltas into the log in use, marking the units they touch. -/
def logDeltas (s : State) (ds : List (Nat × Byte)) : State :=
  let units := ds.foldl (fun l d => insertUp (d.1 / 4096) l) []
  let log := s.guard.log1
  units.foldl (fun s u =>
    let a := logBase s.guard log + 4096 * u
    let (s, old) := mendRead s a 4096
    let new := ds.foldl (fun b d => if d.1 / 4096 = u then alter b (d.1 % 4096) (fun x => (x.1 ^^^ d.2, x.2)) else b) old
    let s := mendPut s a new
    { s with guard := setDirty s.guard log (insertUp u (logDirty s.guard log)) }) s

/-- Clear a log: its dirty units return to 0. -/
def clearLog (s : State) (log : Bool) : State :=
  let s := (logDirty s.guard log).foldl (fun s u => mendWrite s (logBase s.guard log + 4096 * u) (zeros 4096)) s
  { s with guard := setDirty s.guard log [] }

/-! ### Rounds (R416) -/

/-- The number of the round of a commit: all members of a group count the same (DESIGN CHOICE, log 33). -/
def roundNum (g : Guard) (step : DWord) : Nat := step.toNat / g.interval.toNat

/-- A parity-engine packet. The spec gives its use and no operands; DESIGN CHOICE (log 33): OPND0 holds MSG (0 delta,
1 END) in [3:0], the sender's group index in [7:4], the round in [15:8] and the stripe in [63:16]. -/
def mendPacket (s : State) (msg dest stripe : Nat) (data : List (Byte × Bool)) : Packet :=
  { cls := 0, tunit := 2, dest := BitVec.ofNat 12 (physicalOf s dest), len := BitVec.ofNat 13 data.length,
    data := data.map (·.1), stained := stainedFlits data, job := s.press.job, tdie := BitVec.ofNat 3 stripe,
    opnd0 := BitVec.ofNat 64 (msg + 2 ^ 4 * mendIndex s + 2 ^ 8 * (s.guard.round % 256) + 2 ^ 16 * stripe) }

/-- Send the contributions of a dirty unit of a log: flits of stained bytes carry STAIN (R270). -/
def sendUnit (s : State) (log : Bool) (u : Nat) : State :=
  let i := mendIndex s
  let st := stripeOf i u
  let (s, d) := mendRead s (logBase s.guard log + 4096 * u) 4096
  let p0 := 2 * (st % 8)
  let s := inject s (st % 4) (mendPacket s 0 (mendMember s p0) st d)
  inject s (st % 4) (mendPacket s 0 (mendMember s (p0 + 1)) st (d.map fun x => (gfMul (gfPow (holderPos i st)) x.1, x.2)))

/-- ENDs of the open round that have arrived. -/
def roundEnds (g : Guard) : List (Nat × Nat) := g.ends.filter fun e => e.1 == g.round % 256

/-- With END(r) from all 15, the member joins the barrier on the system context. -/
def joinRound (s : State) : State :=
  if s.guard.roundOpen && decide (15 ≤ (roundEnds s.guard).length) then
    { s with coll := { s.coll with sys := some (.mend s.guard.round) } }
  else s

/-- A round begins: new deltas go to the other log, the closed one is sent, then END(r), on the ply that the hash picks
for the job (R277). -/
def startRound (s : State) (step : DWord) (hdr : Tbl PressHdr) : State :=
  let closed := s.guard.log1
  let s := { s with guard := { s.guard with
      log1 := !closed, roundOpen := true, round := roundNum s.guard step, roundStep := step, roundHdr := hdr } }
  let s := (logDirty s.guard closed).foldl (fun s u => sendUnit s closed u) s
  joinRound ((List.range 16).foldl (fun s i =>
    if i = mendIndex s then s else injectHash s s.press.job.toNat (mendPacket s 1 (mendMember s i) 0 [])) s)

/-- Log the commits that wait, and begin the rounds that they call for. The round of a commit that finds one open waits
for its end, and the deltas of later commits wait with it: both logs are taken (log 34). -/
def runCommits : Nat → State → State
  | 0, s => s
  | f + 1, s =>
    match s.guard.roundDue, s.guard.mendQueue with
    | none, (step, ds, hdr) :: rest =>
      let s := logDeltas { s with guard := { s.guard with mendQueue := rest } } ds
      let due := decide (s.guard.interval ≠ 0) && decide (step.toNat % s.guard.interval.toNat = 0)
      runCommits f (if !due then s
        else if s.guard.roundOpen then { s with guard := { s.guard with roundDue := some (step, hdr) } }
        else startRound s step hdr)
    | _, _ => s

/-- What a commit of STEP does to mending: the step's deltas enter the log in use, and a round may begin. -/
def mendCommit (s : State) (step : DWord) : State :=
  let ds := s.press.deltas
  let s := { s with press := { s.press with deltas := [] } }
  if !s.guard.mendEn then s
  else
    let q := s.guard.mendQueue ++ [(step, ds, s.press.saved)]
    runCommits q.length { s with guard := { s.guard with mendQueue := q } }

/-- Deltas that still wait for a log when a job has stopped enter the log in use (R416). -/
def flushDeltas (s : State) : State :=
  let q := s.guard.mendQueue
  q.foldl (fun s c => logDeltas s c.2.1) { s with guard := { s.guard with mendQueue := [] } }

/-- Address of a parity unit in the area in use, or in the other. -/
def parityAt (g : Guard) (next : Bool) (x : Nat) : Nat :=
  (if g.parCur != next then g.par1 else g.par0).toNat + 4096 * x

/-- Bring a parity unit of the other area up to that in use. -/
def copyParity (s : State) (x : Nat) : State :=
  let (s, b) := mendRead s (parityAt s.guard false x) 4096
  mendPut s (parityAt s.guard true x) b

/-- Fold a contribution into the next parity version of its stripe: its stains travel with it (R270). -/
def foldParity (s : State) (p : Packet) : State :=
  let x := seg p.opnd0.toNat 63 16 / 8
  let s := if s.guard.parTouched.contains x then s else
    let s := copyParity s x
    { s with guard := { s.guard with parTouched := insertUp x s.guard.parTouched } }
  let a := parityAt s.guard true x
  let (s, b) := mendRead s a 4096
  mendPut s a (xorBulk b (packetBytes p))

/-- MEND_PACKET_RECEIVE: END(r), or a contribution; one of a later round than the open one waits for that round's end. -/
def execMendPacketReceive (s : State) : Ans :=
  match s.tl.parIn with
  | [] => .next s
  | p :: rest =>
    let s := { s with tl := { s.tl with parIn := rest } }
    let o := p.opnd0.toNat
    let r := seg o 15 8
    if !s.guard.mendEn then .next s
    else if seg o 3 0 = 1 then
      let e := (r, seg o 7 4)
      .next (joinRound { s with guard := { s.guard with
        ends := if s.guard.ends.contains e then s.guard.ends else s.guard.ends ++ [e] } })
    else if s.guard.roundOpen ∧ r ≠ s.guard.round % 256 then
      .next { s with guard := { s.guard with parHeld := s.guard.parHeld ++ [p] } }
    else .next (foldParity s p)

/-- The barrier of the open round is complete: the round can no longer be abandoned. The next parity version is the
current one, the closed log is clear and the mended step follows. -/
def closeRound (s : State) : State :=
  let g := s.guard
  let s := { s with coll := { s.coll with sys := none }, guard := { g with roundOpen := false } }
  let s := (g.parStale.filter fun x => !g.parTouched.contains x).foldl copyParity s
  let s := clearLog s (!g.log1)
  let s := irqEvent s 180
  { s with guard := { s.guard with
      ends := g.ends.filter (fun e => e.1 != g.round % 256), parCur := !g.parCur
      parStale := g.parTouched, parTouched := [], mended := g.roundStep, mendHdr := g.roundHdr, roundHdr := [] } }

/-- After a round, the contributions that waited are folded in, the round that waited begins, and the commits that
waited are logged. -/
def afterRound (s : State) : State :=
  let s := s.guard.parHeld.foldl foldParity { s with guard := { s.guard with parHeld := [] } }
  let s := match s.guard.roundDue with
    | some (step, hdr) => startRound { s with guard := { s.guard with roundDue := none } } step hdr
    | none => s
  runCommits s.guard.mendQueue.length s

/-- MEND_BARRIER_COMPLETE: the barrier that the member has joined on the system context completes. -/
def execMendBarrierComplete (s : State) : Ans :=
  if s.guard.roundOpen && s.coll.sys == some (.mend s.guard.round) then .next (afterRound (closeRound s)) else .next s

/-! ### Recovery (R423, Table 13.9) -/

/-- The member is a replacement: it keeps no copy of the mended step (log 35). -/
def isReplacement (s : State) : Bool := s.guard.mendHdr.isEmpty

/-- CUR of a table. -/
def tableCur (s : State) (tbl : Nat) : State × Bool :=
  let (s, h) := readHeader s tbl
  (s, bitAt (fieldAt h 40 1) 0)

/-- Address of the committed version of an area, and of the other. -/
def areaVersions (s : State) (a : Area) : State × Nat × Nat :=
  let (s, cur) := tableCur s ((tableOf s a.comm).getD 0)
  (s, if cur then (a.a1, a.a0) else (a.a0, a.a1))

/-- Step 2: the version 1 − CUR of an area is CUR XOR L0 XOR L1. -/
def rewindArea (s : State) (a : Area) : State :=
  let (s, cur, other) := areaVersions s a
  let (s, b) := mendRead s cur a.size
  let (s, x) := mendRead s (logBase s.guard false + a.base) a.size
  let (s, y) := mendRead s (logBase s.guard true + a.base) a.size
  mendPut s other (xorBulk (xorBulk b x) y)

/-- Step 2: header fields return to the mended step's, but CUR, which step 3 turns. -/
def rewindHeader (s : State) (comm : BitVec 16) (tbl : Nat) : State :=
  match s.guard.mendHdr.find? (·.1 == comm.toNat) with
  | none => s
  | some (_, h) =>
    let (s, cur) := tableCur s tbl
    restoreTable s (pressWin s) (BitVec.ofNat 64 tbl) { h with cur := cur }

/-- Write bytes at a logical byte of the protected state, in the version in use. -/
def protectedWrite (s : State) (areas : List Area) (at_ : Nat) (b : List Byte) : State :=
  areas.foldl (fun s a =>
    let lo := max a.base at_
    let hi := min (a.base + a.size) (at_ + b.length)
    if lo < hi then
      let (s, cur, _) := areaVersions s a
      mendWrite s (cur + (lo - a.base)) (cut b (lo - at_) (hi - lo))
    else s) s

/-- The shards of a stripe among those received, numbered 16 × stripe + group index. -/
def shardsOf (l : List (Nat × List Byte)) (st : Nat) : List (Nat × List Byte) :=
  l.filterMap fun (n, d) => if n / 16 = st then some (n % 16, d) else none

/-- Stripes named by the shards received. -/
def stripesIn (l : List (Nat × List Byte)) : List Nat := l.foldl (fun a e => insertUp (e.1 / 16) a) []

/-- Step 6: the compute copies follow from the parameters (R353, R412). -/
def remakeCopies (s : State) : State :=
  s.press.tables.foldl (fun s (_, t) =>
    let (s, h) := readHeader s t.toNat
    let v := bitAt (fieldAt h 40 1) 0
    (List.range (min 4096 (fieldAt h 36 4))).foldl (fun s k =>
      let (s, d) := readDesc s t.toNat k
      let fmt := fieldAt d 2 1
      if fmt = 0 then s
      else
        let (s, b) := mendRead s (fieldAt d (if v then 56 else 48) 8) (4 * fieldAt d 8 4)
        let out := (bulkElems 4 b).map fun e => (toDest fmt true (BitVec.ofNat 32 e.1), e.2)
        bulkWrite s mendSrc (pressWin s) (fieldAt d (if v then 120 else 112) 8) (elemsBulk (elemBytes fmt) out)) s) s

/-- What a step of Table 13.9 does on this member, given the shards that reach it; false when it fails. -/
def recoveryStep (s : State) (step : Nat) (shards : List (Nat × List Byte)) : State × Bool :=
  let i := mendIndex s
  match step with
  | 1 => (s, decide ((shards.map (·.1)).eraseDups.length ≤ 2))
  | 2 =>
    if isReplacement s then (s, true)
    else
      let (s, l, _) := protectedAreas (flushDeltas s)
      let s := l.foldl rewindArea s
      (s.press.tables.foldl (fun s (c, t) => rewindHeader s c t.toNat) s, true)
  | 3 =>
    if isReplacement s then (s, true)
    else
      let s := s.press.tables.foldl (fun s (_, t) =>
        let (s, cur) := tableCur s t.toNat
        mendWrite s (t.toNat + 40) [BitVec.ofNat 8 (b2n (!cur))]) s
      (clearLog (clearLog s false) true, true)
  | 4 =>
    if isReplacement s then
      let (s, l, _) := protectedAreas s
      ((stripesIn shards).foldl (fun s st =>
        if st % 8 = i / 2 then s
        else protectedWrite s l (4096 * unitOf i st) (decodeUnit st (holderPos i st) (shardsOf shards st))) s, true)
    else (s, true)
  | 5 =>
    if isReplacement s then
      ((stripesIn shards).foldl (fun s st =>
        if st % 8 = i / 2 then
          let data := (shardsOf shards st).filterMap fun (m, d) =>
            if m / 2 = i / 2 then none else some (holderPos m st, d)
          mendWrite s (parityAt s.guard false (st / 8)) (stripeParity (i % 2) data)
        else s) s, true)
    else (s, true)
  | 6 => (if isReplacement s then remakeCopies s else s, true)
  | 7 =>
    let own := !isReplacement s
    let step := if own then s.guard.mended else BitVec.ofNat 64 (Config.freeNat s.free)
    let s := copyHeaders (if own then s else s.useFree)
    ({ s with press := { s.press with commit := step } }, true)
  | _ => (s, true)

/-- `REC_JOURNAL` (Table 13.21). -/
def recJournal (s : State) : Nat :=
  s.guard.recId.toNat + 2 ^ 16 * s.guard.recStep.toNat + 2 ^ 20 * b2n s.guard.recFailed

/-- Finish every docket of an opcode that has been performed and whose effect goes on. -/
def finishOp (s : State) (op status detail : Nat) : State :=
  s.hif.ring.foldl (fun s e =>
    match e.2.running with
    | some d => if dkOp d = op ∧ e.2.began = true then finishDocket s e.1 status detail else s
    | none => s) s

/-- A recovery step fails. -/
def recoveryFails (s : State) : State :=
  let s := s.updGuard fun g => { g with recFailed := true, recRunning := false }
  let s := raise s { cls := evMendFail, src := srcUnit 0 unitMend, job := s.press.job.toNat }
  finishOp s 0x83 stOk (recJournal s)

/-- REC_STEP_COMPLETE: a step already completed under the ID completes again at once, with no write. -/
def execRecStepComplete (shards : List (Nat × List Byte)) (s : State) : Ans :=
  if !s.guard.recRunning then .next s
  else
    let n := s.guard.recAt + 1
    if n ≤ s.guard.recStep.toNat then
      let s := s.updGuard fun g => { g with recAt := n, recRunning := n != 8 }
      .next (if n = 8 then finishOp s 0x83 stOk (recJournal s) else s)
    else
      let (s, ok) := recoveryStep s n shards
      .next (detectAll s evMendFail (srcUnit 0 unitMend) (!ok) recoveryFails fun s =>
        let s := s.updGuard fun g => { g with recAt := n, recStep := BitVec.ofNat 4 n, recRunning := n != 8 }
        if n = 8 then finishOp s 0x83 stOk (recJournal s) else s)

end Sys2Proof.Machine
end

