-- ==== Sys2Proof/Machine/PressStep.lean ====
section
/-!
DEFINITION. The application of a press step (R352–R357), its completion, holding and commit (R355, R356, R358–R361),
the manifest of a table (R364, R410), and the registers of the PRESS block (R369).
-/
namespace Sys2Proof.Machine
open Sys2Proof

/-! ### Arithmetic of R353 -/

/-- FP32 division and square root, correctly rounded. -/
def f32Div (x y : Word) : Word := toF32 ((f32 x).div (f32 y))
def f32Sqrt (x : Word) : Word := toF32 (f32 x).sqrt
/-- FP32 1.0. -/
def f32One : Word := 0x3F800000
/-- A count as FP32. -/
def f32Nat (n : Nat) : Word := toF32 (.fin false n 0)
/-- A sequential FP32 sum in ascending order. -/
def f32Sum : List Word → Word
  | [] => 0
  | x :: t => t.foldl f32Add x

/-- The step constants of a segment (R353). -/
structure Consts where
  k : Word
  lr : Word
  b1 : Word
  b2 : Word
  eps : Word
  eps1 : Word
  decay : Word
  dclip : Word
  bp1 : Word
  bp2 : Word
  a1 : Word
  a2 : Word
  c1 : Word
  c2 : Word

/-- An FP32 field of a header or descriptor. -/
def fpField (l : List Byte) (i : Nat) : Word := BitVec.ofNat 32 (fieldAt l i 4)

/-- `step_constants`. -/
def stepConstants (h d : List Byte) (q : Word) : Consts :=
  let u := f32Div f32One (fpField h 16)
  let clip := fpField h 28
  let nrm := f32Mul (f32Sqrt q) u
  let k := if !f32IsZero clip && (f32 nrm).cmp (f32 clip) == some 1 then f32Mul (f32Div clip nrm) u else u
  let b1 := fpField d 12
  let b2 := fpField d 16
  let bp1 := f32Mul (fpField d 40) b1
  let bp2 := f32Mul (fpField d 44) b2
  { k := k, lr := f32Mul (fpField h 32) (fpField d 32), b1 := b1, b2 := b2, eps := fpField d 20, eps1 := fpField d 24
    decay := fpField d 28, dclip := fpField d 36, bp1 := bp1, bp2 := bp2, a1 := f32Sub f32One b1
    a2 := f32Sub f32One b2, c1 := f32Sub f32One bp1, c2 := f32Sub f32One bp2 }

/-- The parameter after a step of size w. -/
def newParam (c : Consts) (p w : Word) : Word := f32Sub p (f32Mul c.lr (f32Fma c.decay p w))

/-- What a segment holds after its step, as FP32. -/
structure SegNew where
  p : List Word := []
  m : List Word := []
  v : List Word := []
  col : List Word := []

/-- OPT 1 and 2, and every other code of OPT, whose update the spec does not state (log 32). -/
def applyPlain (opt : Nat) (nest : Bool) (c : Consts) (g p m v : List Word) : SegNew :=
  let e := fun (l : List Word) j => l.getD j 0
  let one := fun (j : Nat) =>
    let gj := f32Mul (e g j) c.k
    match opt with
    | 1 =>
      let m1 := f32Fma c.b1 (e m j) gj
      let w := if nest then f32Fma c.b1 m1 gj else m1
      (newParam c (e p j) w, m1, (0 : Word))
    | 2 =>
      let m1 := f32Fma c.b1 (e m j) (f32Mul c.a1 gj)
      let v1 := f32Fma c.b2 (e v j) (f32Mul c.a2 (f32Mul gj gj))
      let w := f32Div (f32Div m1 c.c1) (f32Add (f32Sqrt (f32Div v1 c.c2)) c.eps)
      (newParam c (e p j) w, m1, v1)
    | _ => (BitVec.ofNat 32 (Config.freeFold 19 opt (e p j).toNat gj.toNat), e m j, e v j)
  let all := (List.range g.length).map one
  { p := all.map (·.1), m := all.map (·.2.1), v := all.map (·.2.2) }

/-- One tile of OPT 3 or 4: `tile_second_moment`, then the update. -/
def applyTile (opt r cc : Nat) (c : Consts) (g p m row col : List Word) : SegNew :=
  let gk := fun (i j : Nat) => f32Mul (g.getD (i * cc + j) 0) c.k
  let sq := fun (i j : Nat) => f32Fma (gk i j) (gk i j) c.eps1
  let rs := fun (i : Nat) => f32Sum ((List.range cc).map fun j => sq i j)
  let cs := fun (j : Nat) => f32Sum ((List.range r).map fun i => sq i j)
  let row1 := (List.range r).map fun i =>
    f32Fma c.b2 (row.getD i 0) (f32Mul c.a2 (f32Div (rs i) (f32Nat cc)))
  let col1 := (List.range cc).map fun j =>
    f32Fma c.b2 (col.getD j 0) (f32Mul c.a2 (f32Div (cs j) (f32Nat r)))
  let rm := f32Div (f32Sum row1) (f32Nat r)
  let vh := fun (i j : Nat) => f32Div (f32Mul (row1.getD i 0) (col1.getD j 0)) rm
  let ix := (List.range r).flatMap fun i => (List.range cc).map fun j => (i, j)
  if opt = 3 then
    let ms := ix.map fun (i, j) => f32Fma c.b1 (m.getD (i * cc + j) 0) (f32Mul c.a1 (gk i j))
    let ps := ix.map fun (i, j) =>
      let m1 := ms.getD (i * cc + j) 0
      newParam c (p.getD (i * cc + j) 0) (f32Div (f32Div m1 c.c1) (f32Add (f32Sqrt (f32Div (vh i j) c.c2)) c.eps))
    { p := ps, m := ms, v := row1, col := col1 }
  else
    let w0 := ix.map fun (i, j) => f32Div (gk i j) (f32Sqrt (f32Div (vh i j) c.c2))
    let rms := f32Sqrt (f32Div (f32Sum (w0.map fun x => f32Mul x x)) (f32Nat (r * cc)))
    let den := f32Max f32One (f32Div rms c.dclip)
    { p := w0.zipIdx.map fun (x, n) => newParam c (p.getD n 0) (f32Div x den), v := row1, col := col1 }

/-- Elements `[t × n, t × n + n)`. -/
def tileOf (l : List Word) (t n : Nat) : List Word := (l.drop (t * n)).take n

/-- The update of a whole segment (Table 11.3). -/
def applySeg (d : List Byte) (c : Consts) (g p m v col : List Word) : SegNew :=
  let opt := fieldAt d 0 1
  if opt = 3 ∨ opt = 4 then
    let r := 2 ^ (fieldAt d 4 1 % 16)
    let cc := 2 ^ (fieldAt d 5 1 % 16)
    (List.range (g.length / (r * cc))).foldl (fun (a : SegNew) t =>
      let x := applyTile opt r cc c (tileOf g t (r * cc)) (tileOf p t (r * cc)) (tileOf m t (r * cc)) (tileOf v t r)
        (tileOf col t cc)
      { p := a.p ++ x.p, m := a.m ++ x.m, v := a.v ++ x.v, col := a.col ++ x.col }) {}
  else applyPlain opt (bitAt (fieldAt d 3 1) 0) c g p m v

/-! ### Applying (R352, R354, R357, R361) -/

/-- Values of a version: as FP32, as the bytes that hold them, and whether some byte is stained. -/
structure PressVals where
  vals : List Word := []
  raw : List Byte := []
  stain : Bool := false

/-- Elements of `w` bytes at an address. -/
def pressVals (s : State) (a n w : Nat) : State × PressVals :=
  let (s, l) := bulkRead s (pressSrc 0) (pressWin s) a (n * w)
  (s, { vals := (bulkElems w l).map fun e => toSource (if w = 2 then 6 else 8) e.1
        raw := l.map (·.1), stain := l.any (·.2) })

/-- The held gradient, its spilled parts read from the spill area, and its stain (R348, R357). -/
def heldGradient (s : State) (g : HeldSeg) : State × List (BitVec 16) × Bool :=
  let vals := g.vals.getD []
  g.spill.foldl (fun (s, vals, st) (b, a) =>
    let at_ := (List.range vals.length).filter (onDie g.chunk b)
    let (s, l) := bulkRead s (pressSrc b) (pressWin s) a (2 * at_.length)
    let el := bulkElems 2 l
    let vals := vals.zipIdx.map fun (x, j) =>
      if onDie g.chunk b j then BitVec.ofNat 16 (el.getD (at_.idxOf j) (x.toNat, false)).1 else x
    (s, vals, st || l.any (·.2))) (s, vals, g.stain)

/-- A write of a new version: its address, bytes, and where the protected state holds it, with the old bytes. -/
structure NewBytes where
  addr : Nat
  bytes : List Byte
  area : Option (Nat × List Byte) := none

/-- Bytes of FP32 values stored in a moment format. -/
def momentBytes (w : Nat) (l : List Word) : List Byte :=
  l.flatMap fun x => leBytes w (if w = 2 then toDest 6 false x else x.toNat)

/-- The outcome of computing one segment: what to write, a stain met, a parameter that is not finite. -/
structure SegOut where
  writes : List NewBytes := []
  stain : Bool := false
  nf : Bool := false

/-- Logical byte of area `i` of a segment of a table. -/
def areaBase (areas : List Area) (comm : BitVec 16) (seg i : Nat) : Option Nat :=
  ((areas.filter fun a => a.comm == comm && a.seg == seg)[i]?).map (·.base)

/-- Compute one segment of a step: read version CUR, give version 1 − CUR. -/
def computeSeg (s : State) (areas : List Area) (h : List Byte) (q : Word) (g : HeldSeg) : State × SegOut :=
  let (s, d) := readDesc s ((tableOf s g.key.comm).getD 0) g.seg
  let cur := bitAt (fieldAt h 40 1) 0
  let n := g.elems
  let w := if fieldAt d 1 1 = 6 then 2 else 4
  let opt := fieldAt d 0 1
  let old := fun i => fieldAt d (i + (if cur then 8 else 0)) 8
  let new := fun i => fieldAt d (i + (if cur then 0 else 8)) 8
  let tiles := n / tileElems d
  let rn := 2 ^ (fieldAt d 4 1 % 16) * tiles
  let cn := 2 ^ (fieldAt d 5 1 % 16) * tiles
  let fact := opt == 3 || opt == 4
  let (s, gr, st0) := heldGradient s g
  let (s, p) := pressVals s (old 48) n 4
  let (s, m) := if opt = 4 then (s, {}) else pressVals s (old 64) n w
  let (s, v) := if fact then pressVals s (old 80) rn 4 else if opt = 2 then pressVals s (old 80) n w else (s, {})
  let (s, col) := if fact then pressVals s (old 96) cn 4 else (s, {})
  let x := applySeg d (stepConstants h d q) (gr.map fun y => toSource g.otype.toNat y.toNat) p.vals m.vals v.vals col.vals
  let fmt := fieldAt d 2 1
  let vw := if fact then 4 else w
  let at_ := areaBase areas g.key.comm g.seg
  let put := fun (a : Nat) (width : Nat) (now : List Word) (was : PressVals) (i : Nat) =>
    ({ addr := a, bytes := momentBytes width now, area := (at_ i).map fun b => (b, was.raw) } : NewBytes)
  let iv := if opt = 4 then 1 else 2
  let writes := [put (new 48) 4 x.p p 0]
    ++ (if opt = 4 then [] else [put (new 64) w x.m m 1])
    ++ (if fact ∨ opt = 2 then [put (new 80) vw x.v v iv] else [])
    ++ (if fact then [put (new 96) 4 x.col col (iv + 1)] else [])
    ++ (if fmt = 0 then [] else
      [{ addr := new 112, bytes := x.p.flatMap fun y => leBytes (elemBytes fmt) (toDest fmt true y) }])
  (s, { writes := writes, stain := st0 || p.stain || m.stain || v.stain || col.stain, nf := anyNonfinite x.p })

/-- The bytes that a write changes, as deltas of the protected state (R361, R415). -/
def writeDeltas (x : NewBytes) : List (Nat × Byte) :=
  match x.area with
  | none => []
  | some (b, was) => x.bytes.zipIdx.filterMap fun (y, i) =>
      let d := y ^^^ byteAt was i
      if d = 0 then none else some (b + i, d)

/-- Stained input reaches a press unit: the step is not applied and the job stops (R357). -/
def pressStained (s : State) : State :=
  let w := pressWin s
  let s := raise s { cls := evPressStain, src := pressSrc 0, job := s.press.job.toNat, win := w, sev := 2, stained := true }
  jobStop s w { cause := 4, cls := evPressStain }

/-- A press unit meets its input, stained or not: a stain, or an injection of `PRESS_STAIN`, ends the step. -/
def meetStain (s : State) (stain : Bool) (g : State → State) : State :=
  detect s evPressStain (pressSrc 0) (pressWin s) stain pressStained g

/-- Step number `no` has been abandoned: a write of it has stopped the job (R204, R360). -/
def stepGone (s : State) (no : Nat) : Bool := s.press.steps.all fun p => p.no != no

/-- Compute every segment of a step. -/
def computeStep (s : State) (p : PStep) (q : Word) : State × List SegOut :=
  let (s, h) := readHeader s ((tableOf s p.comm).getD 0)
  let (s, areas, _) := protectedAreas s
  p.segs.foldl (fun (s, l) g =>
    let (s, o) := computeSeg s areas h q g
    (s, l ++ [o])) (s, [])

/-- Apply a step whose F is 0. -/
def applyStep (s : State) (p : PStep) (q : Word) : State :=
  let (s, outs) := computeStep s p q
  meetStain s (outs.any (·.stain)) fun s =>
    let writes := outs.flatMap (·.writes)
    let s := writes.foldl (fun s x => bulkWrite s (pressSrc 0) (pressWin s) x.addr (x.bytes.map fun b => (b, false))) s
    if stepGone s p.no then s
    else
    let s := { s with press := { s.press with deltas := s.press.deltas ++ writes.flatMap writeDeltas } }
    let s :=
      if outs.any (·.nf) then
        queueReport { s with press := { s.press with nfOut := true } } evCorrected (pressSrc 0)
          (reportOf s { cls := evCorrected, src := pressSrc 0, job := s.press.job.toNat, win := pressWin s, sev := 0 })
      else s
    s.updStep p.no fun p => { p with applied := true }

/-- The oldest step has its Q and F and waits for the commit of a held one (R359). -/
def pressWaits (p : Press) : Bool :=
  p.held.isSome && match p.steps with | x :: _ => x.global.isSome && !x.applied | [] => false

/-- PRESS_STEP_APPLY: the oldest step whose Q and F are delivered is applied or skipped, or waits for a held one
(R352, R356, R359). A stained gradient stops the job, skip or not (R357). -/
def execPressStepApply (s : State) : Ans :=
  match s.press.steps with
  | [] => .next s
  | p :: _ =>
    match p.global with
    | none => .next s
    | some (q, f, _) =>
      if p.applied || s.press.held.isSome then .next s
      else if f then
        .next (meetStain s (p.segs.any (·.stain)) fun s => s.updStep p.no fun p => { p with applied := true })
      else .next (applyStep s p q)

/-! ### Completion and commit (R355, R356, R358, R360) -/

/-- Write bytes of a table. -/
def tablePut (s : State) (a : Nat) (b : List Byte) : State :=
  bulkWrite s (pressSrc 0) (pressWin s) a (b.map fun x => (x, false))

/-- The header and descriptor fields after an applied step (R355). -/
def headerApplied (s : State) (tbl : Nat) (h : List Byte) (p : PStep) (q : Word) : State :=
  let f := fieldAt h
  let good := (f 20 4 + 1) % 2 ^ 32
  let grow := f 24 4
  let dbl := grow ≠ 0 ∧ good = grow
  let scale := fpField h 16
  let two24 : Word := 0x4B800000
  let scale := if dbl then f32Min (f32Mul scale 0x40000000) two24 else scale
  let s := tablePut s tbl (leBytes 8 (f 0 8 + 1) ++ leBytes 8 (f 8 8 + 1) ++ leBytes 4 scale.toNat
    ++ leBytes 4 (if dbl then 0 else good))
  let s := p.segs.foldl (fun s g =>
    let t := (tableOf s g.key.comm).getD 0
    let (s, d) := readDesc s t g.seg
    let c := stepConstants h d q
    tablePut s (t + 128 + 128 * g.seg + 40) (leBytes 4 c.bp1.toNat ++ leBytes 4 c.bp2.toNat)) s
  tablePut s (tbl + 40) [BitVec.ofNat 8 (1 - f 40 1 % 2)]

/-- The header after a skipped step (R356). -/
def headerSkipped (s : State) (tbl : Nat) (h : List Byte) : State :=
  let scale := f32Max (f32Mul (fpField h 16) 0x3F000000) f32One
  let s := tablePut s tbl (leBytes 8 (fieldAt h 0 8 + 1))
  tablePut s (tbl + 16) (leBytes 4 scale.toNat ++ zeros 4)

/-- A step commits (R358, R360, R361, R415, R416). -/
def commitStep (s : State) (step : DWord) : State :=
  let s := copyHeaders s
  mendCommit { s with press := { s.press with commit := step, held := none } } step

/-- PRESS_STEP_COMPLETE: every press unit has written its versions, or the step is skipped. Before a step that will be
held, the tables stand as committed, and their copy is taken (R360; log 35). -/
def execPressStepComplete (s : State) : Ans :=
  match s.press.steps with
  | [] => .next s
  | p :: _ =>
    match p.global with
    | none => .next s
    | some (q, f, sus) =>
      if !p.applied then .next s
      else
        let tbl := (tableOf s p.comm).getD 0
        let (s, h) := readHeader s tbl
        let step : DWord := BitVec.ofNat 64 (fieldAt h 0 8 + 1)
        let hold := !f && (sus || s.guard.holdAll || s.press.holdJobs.contains s.press.job)
        let s := if hold then copyHeaders s else s
        let s := if f then headerSkipped s tbl h else headerApplied s tbl h p q
        if stepGone s p.no then .next s
        else
        let spill := p.segs.foldl (fun n g => g.spilled.foldl (fun n e => n + e.2 / 2) n) 0
        let s := { s with press := { s.press with
            steps := s.press.steps.filter fun x => x.no != p.no
            step := step, spilled := decide (0 < spill), spillElems := BitVec.ofNat 64 spill, skipped := f
            skipCount := if f then BitVec.ofNat 32 (satTo 32 (s.press.skipCount.toNat + 1)) else s.press.skipCount } }
        let s := if f then irqEvent s 162 else s
        let s := lateDiscard s p (fieldAt h 41 1 == 1)
        let s := match p.closing with
          | some k => s.updCtx k fun x => { x with pressDone := true }
          | none => s
        let s := { s with press := { s.press with holdJobs := s.press.holdJobs.filter (· != s.press.job) } }
        .next (if hold then { s with press := { s.press with held := some (p.comm, step) } }
          else commitStep s step)

/-- What a `COMMIT` of a step of a communicator does (R358). -/
def commitNamed (s : State) (comm : BitVec 16) (step : Nat) : State :=
  match s.press.held with
  | some (c, st) => if c = comm ∧ st.toNat ≤ step then commitStep s st else s
  | none => s

/-! ### Manifests (R364, R410) -/

/-- CRC-32C of bytes of a version, and their stain. -/
def versionCrc (s : State) (l : List (Nat × Nat)) : State × Nat × Bool :=
  let (s, b) := l.foldl (fun (s, b) (a, n) =>
    let (s, x) := bulkRead s (pressSrc 0) (pressWin s) a n
    (s, b ++ x)) (s, [])
  (s, if l = [] then 0 else (crc32c (b.map (·.1))).toNat, b.any (·.2))

/-- The record of a segment (Table 11.5). -/
def manifestRecord (s : State) (comm : BitVec 16) (tbl k : Nat) (step : Nat) (ver : Bool) : State × List Byte × Bool :=
  let (s, d) := readDesc s tbl k
  let areas := (segAreas d).map fun (n, a0, a1) => (if ver then a1 else a0, n)
  let opt := fieldAt d 0 1
  let hasM := opt != 4 && decide (2 ≤ areas.length)
  let (s, cp, s1) := versionCrc s (areas.take 1)
  let (s, cm, s2) := versionCrc s (if hasM then (areas.drop 1).take 1 else [])
  let (s, cv, s3) := versionCrc s (areas.drop (if hasM then 2 else 1))
  let r := recOf s ⟨comm, 0, 0⟩
  let rank := recRank s r (logicalCoord s)
  let n := fieldAt d 8 4
  (s, leBytes 2 k ++ cut d 0 2 ++ leBytes 2 (logicalCoord s) ++ leBytes 2 rank ++ leBytes 4 n ++ leBytes 4 (rank * n)
    ++ leBytes 8 step ++ [BitVec.ofNat 8 (b2n ver)] ++ zeros 3 ++ leBytes 4 cp ++ leBytes 4 cm ++ leBytes 4 cv
    ++ zeros 24, s1 || s2 || s3)

/-- The records of a table for a version. -/
def manifest (s : State) (comm : BitVec 16) (tbl step : Nat) (ver : Bool) : State × List Byte × Bool :=
  let (s, h) := readHeader s tbl
  (List.range (min 4096 (fieldAt h 36 4))).foldl (fun (s, l, st) k =>
    let (s, b, st') := manifestRecord s comm tbl k step ver
    (s, l ++ b, st || st')) (s, [], false)

/-! ### Registers (R369) -/

/-- `PRESS_STATUS`. -/
def pressStatus (p : Press) : Nat :=
  b2n (!p.steps.isEmpty) + 2 * b2n (pressWaits p) + 4 * b2n p.held.isSome + 8 * b2n p.spilled + 16 * b2n p.skipped
    + 32 * b2n p.nfOut + 64 * b2n p.noSpace + 128 * b2n p.lateLost

/-- A job with press tables runs (R345, R369). -/
def pressJobRuns (s : State) : Bool :=
  s.press.tables != [] && s.hif.job.any fun j => j.2.running && j.2.job == s.press.job

end Sys2Proof.Machine
end

