-- ==== Sys2Proof/Machine/Mangle.lean ====
section
/-!
DEFINITION. The mangle unit (R365–R368): the ring, the passes of Table 11.7, parts with their CRC-32C, grants, and
the end of a plan.
-/
namespace Sys2Proof.Machine
open Sys2Proof

/-! ### The ring (R365, R366) -/

/-- The plan's communicator record. -/
def mglRec (s : State) : Comm := s.commAt s.mgl.comm.toNat
/-- Members of the ring. -/
def mglN (s : State) : Nat := (recMembers s (mglRec s)).length
/-- Steps of a pass. -/
def mglM (s : State) : Nat := if s.mgl.carry then mglN s else mglN s - 1
/-- Logical coordinate of the member `d` places on from this module, against the ring's direction for `back`. -/
def mglPeer (s : State) (back : Bool) : Nat :=
  let n := mglN s
  let r := recRank s (mglRec s) (logicalCoord s)
  (recMembers s (mglRec s)).getD (if back != s.mgl.reverse then (r + n - 1) % n else (r + 1) % n) 0
/-- Global index of step `st` of the current pass. -/
def mglQ (s : State) (st : Nat) : Nat := s.mgl.pass * mglM s + st
/-- A counter of the plan's cluster. -/
def mglCtr (s : State) (c : Nat) : Nat := (Tbl.get 0 (s.clu s.mgl.ncl).ctr c).toNat
/-- (counter − target) ≥ 0 as a signed 32-bit value. -/
def ctrMet (c target : Nat) : Bool := decide (0 ≤ sgn 32 (c + 2 ^ 32 - target % 2 ^ 32))
/-- GO for the current pass. -/
def goMet (s : State) : Bool := ctrMet (mglCtr s s.mgl.goC) (s.mgl.pass + 1)
/-- The releases of every step up to global index `q` are in. -/
def relMet (s : State) (q : Nat) : Bool := ctrMet (mglCtr s s.mgl.relC) (q * s.mgl.relPer)
/-- A GRANT for global index `q` is in. -/
def grantIn (s : State) (q : Nat) : Bool := s.mgl.grantsIn.contains (q % 2 ^ 16)
/-- Device address into which step `st` of the current pass is received: its slot, or under CARRY for step m the own
block (log 36). -/
def mglTarget (s : State) (st q : Nat) : Nat :=
  if s.mgl.carry ∧ st = mglM s then s.mgl.own.toNat
  else (if q % 2 = 0 then s.mgl.slot0 else s.mgl.slot1).toNat

/-- `MGL_STATUS.STATE`. -/
def mglState (s : State) : Nat :=
  let m := s.mgl
  if !m.running then m.state.toNat
  else if m.sentStep = 0 then
    if !goMet s then 1 else if !grantIn s (mglQ s 1) then 2 else 3
  else if m.sentStep < mglM s then
    let q := mglQ s m.sentStep
    if !m.received.contains q then 3
    else if m.carry && !relMet s q then 4
    else if !grantIn s (q + 1) then 2 else 3
  else 4

/-! ### Packets (Table 11.8) -/

/-- Tuple bits of the plan's packets for a global index. -/
def mglTuple (s : State) (q : Nat) : Nat :=
  s.mgl.comm.toNat + 2 ^ 16 * (q % 2 ^ 16) + 2 ^ 32 * (mglRec s).epoch.toNat
/-- SOURCE of the mangle unit of a base die. -/
def mglSrc (d : Nat) : Nat := srcUnit d unitMangle
/-- Window of the plan's job. -/
def mglWin (s : State) : Nat := (windowOf s s.mgl.job.toNat).getD 0

/-- Send a block of eight parts to the successor as global index `q`. -/
def sendBlock (s : State) (a q : Nat) : State :=
  let dest := physicalOf s (mglPeer s false)
  (List.range 8).foldl (fun s d =>
    let (s, l) := bulkRead s (mglSrc d) (mglWin s) (a + d * s.mgl.partB) s.mgl.partB
    let crc := (crc32c (l.map (·.1))).toNat
    let n := ceilDiv l.length 4096
    (List.range n).foldl (fun s i =>
      let part := (l.drop (4096 * i)).take 4096
      let last := decide (i + 1 = n)
      inject s (d % 4)
        { cls := 0, tunit := 1, dest := BitVec.ofNat 12 dest, tdie := BitVec.ofNat 3 d, job := s.mgl.job,
          len := BitVec.ofNat 13 part.length, data := part.map (·.1), stained := stainedFlits part,
          opnd0 := BitVec.ofNat 64 (mglTuple s q + 2 ^ 44 * d + 2 ^ 47 * b2n last),
          opnd1 := BitVec.ofNat 64 (4096 * i + (if last then 2 ^ 32 * crc else 0)) }) s) s

/-- Grant a step to the predecessor. -/
def sendGrant (s : State) (q : Nat) : State :=
  let s := injectHash s s.mgl.comm.toNat
    { cls := 0, tunit := 1, dest := BitVec.ofNat 12 (physicalOf s (mglPeer s true)), job := s.mgl.job,
      opnd0 := BitVec.ofNat 64 (mglTuple s q + 2 ^ 40) }
  { s with mgl := { s.mgl with grantsOut := s.mgl.grantsOut ++ [q] } }

/-! ### The events of a pass (Table 11.7) -/

/-- The current pass is over: step m has been received, and sent. -/
def passOver (s : State) : Bool :=
  s.mgl.started && (mglM s == 0 || (decide (mglM s ≤ s.mgl.sentStep) && s.mgl.received.contains (mglQ s (mglM s))))

/-- MANGLE_PASS_START: the first pass, or the next once the releases of the one before are in. -/
def execManglePassStart (s : State) : Ans :=
  let m := s.mgl
  let next := if m.started then m.pass + 1 else 0
  if m.running && (!m.started || (passOver s && decide (next < m.passes))) && relMet s (next * mglM s) then
    let s := { s with mgl := { m with pass := next, started := true, sentStep := 0 } }
    .next (([1, 2].filter fun st => decide (st ≤ mglM s)).foldl (fun s st => sendGrant s (mglQ s st)) s)
  else .next s

/-- MANGLE_SEND_OWN. -/
def execMangleSendOwn (s : State) : Ans :=
  let q := mglQ s 1
  if s.mgl.running && s.mgl.started && s.mgl.sentStep == 0 && decide (1 ≤ mglM s) && goMet s && grantIn s q then
    let s := sendBlock s s.mgl.own.toNat q
    .next { s with mgl := { s.mgl with sentStep := 1, grantsIn := s.mgl.grantsIn.filter (· != q % 2 ^ 16) } }
  else .next s

/-- MANGLE_FORWARD: the slot of the last step sent goes on as the next. -/
def execMangleForward (s : State) : Ans :=
  let st := s.mgl.sentStep
  let q := mglQ s st
  if s.mgl.running && decide (1 ≤ st) && decide (st < mglM s) && s.mgl.received.contains q && grantIn s (q + 1)
      && (!s.mgl.carry || relMet s q) then
    let s := sendBlock s (mglTarget s st q) (q + 1)
    .next { s with mgl := { s.mgl with sentStep := st + 1, grantsIn := s.mgl.grantsIn.filter (· != (q + 1) % 2 ^ 16) } }
  else .next s

/-- A slot has been received, released, and forwarded with every packet gone. -/
def slotFree (s : State) (st : Nat) : Bool :=
  let q := mglQ s st
  s.mgl.received.contains q && relMet s q && decide (st < s.mgl.sentStep)
    && !owesPackets s (tupleKey 1 (mglTuple s (q + 1)))

/-- MANGLE_GRANT_SEND: the first step not yet granted two beyond a free slot. -/
def execMangleGrantSend (s : State) : Ans :=
  if !s.mgl.running then .next s
  else
    match (List.range (mglM s)).find? fun i =>
        let st := i + 1
        decide (st + 2 ≤ mglM s) && slotFree s st && !s.mgl.grantsOut.contains (mglQ s (st + 2)) with
    | some i => .next (sendGrant s (mglQ s (i + 3)))
    | none => .next s

/-! ### Receipt (R366, R367) -/

/-- MSG of a mangle packet. -/
def mglMsg (p : Packet) : Nat := seg p.opnd0.toNat 43 40

/-- A packet that R367 drops. -/
def mglStale (s : State) (p : Packet) : Bool :=
  let o := p.opnd0.toNat
  let r := s.commAt (seg o 15 0)
  !r.valid || r.epoch.toNat != seg o 39 32 || !s.mgl.running || s.mgl.comm.toNat != seg o 15 0

/-- The global index near the current pass that a STEP field names. -/
def fullIndex (s : State) (step : Nat) : Nat :=
  let base := s.mgl.pass * mglM s
  base + (step + 2 ^ 16 - base % 2 ^ 16) % 2 ^ 16

/-- A part of a block is whole (R333, R366, R367). -/
def partWhole (s : State) (q d a : Nat) (bytes : List Byte) (crc : Nat) (inj : Bool) : State :=
  let bad := (crc32c bytes).toNat != crc
  let s :=
    if bad then
      let s := bulkStain s (mglSrc d) (mglWin s) a bytes.length
      let s := { s with coll := { s.coll with crcErr := BitVec.ofNat 32 (satTo 32 (s.coll.crcErr.toNat + 1)) } }
      raise s { cls := evCollCrc, src := mglSrc d, job := s.mgl.job.toNat, win := mglWin s, stained := true,
                injected := inj, detail := d }
    else s
  let parts := (if s.mgl.parts.contains (q, d) then s.mgl.parts else s.mgl.parts ++ [(q, d)])
  if (List.range 8).all fun i => parts.contains (q, i) then
    let s := { s with mgl := { s.mgl with
        parts := parts.filter fun e => e.1 != q, received := s.mgl.received ++ [q] } }
    s.updClu s.mgl.ncl fun k => { k with ctr := upd 0 k.ctr s.mgl.arrC (· + 1) }
  else { s with mgl := { s.mgl with parts := parts } }

/-- Receive one DATA packet of the running plan. -/
def mglData (s : State) (p : Packet) : State :=
  let o := p.opnd0.toNat
  let d := seg o 46 44
  let last := bitAt o 47
  let q := fullIndex s (seg o 31 16)
  let a := mglTarget s (q - s.mgl.pass * mglM s) q + d * s.mgl.partB
  let (s, data, inj) :=
    match (if last then takeInject s evCollCrc (mglSrc d) (mglWin s) else none) with
    | some (w, s) => (s, alter (packetBytes p) 0 fun x => (x.1 ^^^ (if w = 1 then 1 else 3), x.2), true)
    | none => (s, packetBytes p, false)
  let s := bulkWrite s (mglSrc d) (mglWin s) (a + seg p.opnd1.toNat 31 0) data
  let so := (s.mgl.open_.find? fun e => e.1 == q && e.2.1 == d).map (·.2.2)
  let bytes := so.getD [] ++ data.map (·.1)
  let rest := s.mgl.open_.filter fun e => !(e.1 == q && e.2.1 == d)
  let s := { s with mgl := { s.mgl with open_ := if last then rest else rest ++ [(q, d, bytes)] } }
  if last then partWhole s q d a bytes (seg p.opnd1.toNat 63 32) inj else s

/-- Receive the oldest mangle packet, if it is of a MSG; one of an unlisted MSG is discarded. -/
def mglReceive (s : State) (msg : Nat) (f : State → Packet → State) : State :=
  match s.tl.mglIn with
  | [] => s
  | p :: rest =>
    let t := { s with tl := { s.tl with mglIn := rest } }
    if 2 ≤ mglMsg p then badPacket t 32 p
    else if mglMsg p ≠ msg then s
    else if mglStale s p then dropStale t (p.opnd0.toNat % 2 ^ 40) (mglSrc p.tdie.toNat)
    else f t p

/-- MANGLE_DATA_RECEIVE. -/
def execMangleDataReceive (s : State) : Ans := .next (mglReceive s 0 mglData)

/-- MANGLE_GRANT_RECEIVE. -/
def execMangleGrantReceive (s : State) : Ans :=
  .next (mglReceive s 1 fun s p =>
    let q := seg p.opnd0.toNat 31 16
    { s with mgl := { s.mgl with grantsIn := if s.mgl.grantsIn.contains q then s.mgl.grantsIn else s.mgl.grantsIn ++ [q] } })

/-! ### The end of a plan (R368) -/

/-- MANGLE_PLAN_END: after PASSES passes. (A job stop ends the plan at once.) -/
def execManglePlanEnd (s : State) : Ans :=
  if s.mgl.running && passOver s && decide (s.mgl.passes ≤ s.mgl.pass + 1) then
    let s := { s with mgl := { s.mgl with running := false, state := 5, grantsIn := [], grantsOut := [], open_ := [], parts := [] } }
    .next (finishOp s 0x32 stOk 0)
  else .next s

/-- Start a plan given in 64 bytes (Table 11.6). -/
def mglStart (s : State) (job : Nat) (l : List Byte) : State :=
  let f := fieldAt l
  { s with mgl :=
      { running := true, job := BitVec.ofNat 16 job, comm := BitVec.ofNat 16 (f 0 2), carry := bitAt (f 2 1) 0,
        reverse := bitAt (f 2 1) 1, relPer := f 3 1, partB := f 4 4, own := BitVec.ofNat 64 (f 8 8),
        slot0 := BitVec.ofNat 64 (f 16 8), slot1 := BitVec.ofNat 64 (f 24 8), ncl := (clOfId (f 32 2)).getD 0,
        goC := f 34 1 % 16, arrC := f 34 1 / 16, relC := f 35 1 % 16, passes := f 36 4 } }

/-! ### Registers (R369) -/

/-- `MGL_STATUS`. -/
def mglStatus (s : State) : Nat :=
  mglState s + 2 ^ 3 * min 8191 s.mgl.sentStep + 2 ^ 16 * (s.mgl.pass % 2 ^ 16)

/-- Registers of the PRESS block. -/
def pressReg (s : State) (a : Agent) (o : Nat) : Option Reg :=
  let p := s.press
  match o with
  | 0x04 => Reg.rwIf (isMp a) (pressStatus p) fun v =>
      { s with press := { p with nfOut := p.nfOut && !bitAt v 5, noSpace := p.noSpace && !bitAt v 6
                                 lateLost := p.lateLost && !bitAt v 7 } }
  | 0x08 => Reg.ro64 p.step.toNat
  | 0x18 => Reg.ro p.skipCount.toNat
  | _ =>
    if !mgmt a then none
    else
      match o with
      | 0x00 => Reg.rwIf (isMp a) (p.mode.toNat + 2 ^ 16 * p.job.toNat) fun v =>
          if pressJobRuns s then s
          else { s with press := { p with mode := if v % 4 = 3 then p.mode else BitVec.ofNat 2 v
                                          job := BitVec.ofNat 16 (v / 2 ^ 16) } }
      | 0x10 => Reg.ro64 p.commit.toNat
      | 0x20 => Reg.ro64 p.spillElems.toNat
      | 0x28 => Reg.ro (satTo 16 p.late.length + 2 ^ 16 * p.lost.toNat)
      | 0x40 => Reg.ro (mglStatus s)
      | _ => none

end Sys2Proof.Machine
end

