-- ==== Sys2Proof/Machine/Guild.lean ====
section
/-!
DEFINITION. The guild protocol (R417–R422), pattern books (R405–R407), apprentices (R424, R425), and the registers of
the MEND, GUILD, REC and APR blocks (R427).
-/
namespace Sys2Proof.Machine
open Sys2Proof

/-! ### Apprentices (R424, R425) -/

/-- `APR_STATUS` (Table 13.22). -/
def aprStatus (g : Guard) : Nat := g.aState.toNat + 8 * b2n g.aTutor + 2 ^ 4 * g.aPeer.toNat + 2 ^ 16 * g.aDone.toNat

/-- The pair's state changes; in PASSED, FAILED or ABORTED its docket completes. -/
def aprMove (s : State) (n : BitVec 3) : State :=
  let s := s.updGuard fun g => { g with aState := n }
  if 4 ≤ n.toNat then finishOp s 0x85 stOk (aprStatus s.guard) else s

/-- The apprentice gives up everything it has received (R425). -/
def aprAbort (s : State) : State :=
  if s.guard.aTutor = false ∧ 1 ≤ s.guard.aState.toNat ∧ s.guard.aState.toNat ≤ 3 then
    aprMove { s with guard := { s.guard with aCopy := [] } } 6
  else s

/-- The apprentice keeps bytes at logical bytes of the protected state, and writes them to the same logical areas of
its own press tables, where it has any (R424, log 77). -/
def aprKeep (s : State) (l : List (Nat × Byte)) : State :=
  let s := { s with guard := { s.guard with aCopy := l.foldl (fun t (i, b) => Tbl.set 0 t i b) s.guard.aCopy } }
  if s.press.tables = [] then s
  else
    let (s, areas, _) := protectedAreas s
    l.foldl (fun s (i, b) => protectedWrite s areas i [b]) s

/-- APR_UNIT_RECEIVE: a unit with a good CRC is written to its logical place; the last one ends COPY. -/
def execAprUnitReceive (unit : Nat) (data : List Byte) (crc : Word) (last : Bool) (s : State) : Ans :=
  if s.guard.aState = 1 ∧ crc32c data = crc then
    let s := if s.guard.aTutor then s
      else aprKeep s ((data.take 4096).zipIdx.map fun (b, i) => (4096 * unit + i, b))
    .next (if last then aprMove s 2 else s)
  else .next s

/-- APR_DELTA_RECEIVE. -/
def execAprDeltaReceive (deltas : List (Nat × Byte)) (caughtUp : Bool) (s : State) : Ans :=
  if s.guard.aState = 2 then
    let s := if s.guard.aTutor then s
      else deltas.foldl (fun s (i, b) => aprKeep s [(i, Tbl.get 0 s.guard.aCopy i ^^^ b)]) s
    .next (if caughtUp then aprMove s 3 else s)
  else .next s

/-- APR_SHADOW_STEP. -/
def execAprShadowStep (agree : Bool) (s : State) : Ans :=
  if s.guard.aState = 3 then
    .next (detectAll s evApprenticeMismatch (srcUnit 0 unitTest) (!agree)
      (fun s => aprMove (raise s { cls := evApprenticeMismatch, src := srcUnit 0 unitTest, detail := s.guard.aPeer.toNat }) 5)
      fun s =>
        let s := { s with guard := { s.guard with aDone := s.guard.aDone + 1 } }
        if s.guard.aSteps.toNat ≤ s.guard.aDone.toNat then aprMove s 4 else s)
  else .next s

/-- APR_TUTOR_TIMEOUT. -/
def execAprTutorTimeout (s : State) : Ans := .next (aprAbort s)

/-! ### The guild protocol (R417–R422, Tables 13.7, 13.8) -/

/-- Fields of a guild packet. -/
def gMsg (p : Packet) : Nat := seg p.opnd0.toNat 3 0
def gRoundOf (p : Packet) : Nat := seg p.opnd0.toNat 11 4
def gOrigin (p : Packet) : Nat := seg p.opnd0.toNat 23 12
/-- Part index of a VERDICT; 0 of another message. -/
def gPart (p : Packet) : Nat := if gMsg p = 1 then fieldAt p.data 2 2 else 0

/-- Receive the oldest guild packet, if it is of a MSG: a message seen before, of another slice or of an unlisted
MSG is dropped; a new one is flooded onward and acted on (R418). -/
def guildReceive (s : State) (msg : Nat) (f : State → Packet → State) : State :=
  match s.tl.guildIn with
  | [] => s
  | p :: rest =>
    let t := { s with tl := { s.tl with guildIn := rest } }
    let key := (gRoundOf p, gOrigin p, gMsg p, gPart p)
    if 3 ≤ gMsg p then t
    else if gMsg p ≠ msg then s
    else if s.guard.gSeen.contains key || seg p.opnd0.toNat 39 32 != s.slc.slice.toNat || !s.slc.member then t
    else
      let t := t.updGuard fun g => { g with gSeen := key :: g.gSeen }
      f (flood t p) p

/-- GUILD_FAULT_RECEIVE. -/
def execGuildFaultReceive (s : State) : Ans :=
  .next (guildReceive s 0 fun s p =>
    let s := s.updGuard fun g => noteFault g (seg p.opnd1.toNat 11 0)
    if s.guard.gStopped then s else guildStop s)

/-- The coordinator that the agent chooses: the member of lowest logical coordinate that no FAULT names (R419). -/
def guildChoice (s : State) : Option Nat :=
  (members s).find? fun c => !s.guard.gFaults.contains (BitVec.ofNat 12 c)

/-- The parts of a verdict (R420). -/
def verdictParts (s : State) (round : Nat) (l : List (BitVec 12)) : List Packet :=
  (List.range (ceilDiv l.length 6)).map fun j =>
    let names := (l.drop (6 * j)).take 6
    let data := leBytes 2 l.length ++ leBytes 2 j ++ names.flatMap fun c => leBytes 2 c.toNat
    guildPacket s 1 round (myCoord s) 0 0 (data ++ zeros (16 - data.length))

/-- The coordinator floods a verdict and holds it. -/
def giveVerdict (s : State) (round : Nat) (l : List (BitVec 12)) : State :=
  let parts := verdictParts s round l
  let s := s.updGuard fun g =>
    { g with gState := 2, gRound := BitVec.ofNat 8 round, gCoord := s.tl.coord, gList := l, gVacks := [s.tl.coord]
             gFrom := some (BitVec.ofNat 8 round, s.tl.coord, l.length), gParts := []
             gSeen := (List.range parts.length).map (fun j => (round, myCoord s, 1, j)) ++ g.gSeen }
  parts.foldl flood s

/-- GUILD_GATHER_EXPIRE. -/
def execGuildGatherExpire (s : State) : Ans :=
  if s.slc.member && s.guard.gState == 1 && guildChoice s == some (myCoord s) then
    .next (giveVerdict s s.guard.gRound.toNat s.guard.gFaults)
  else .next s

/-- The agent holds a whole verdict: it adopts it and floods its VACK (R420, R425). -/
def holdVerdict (s : State) (round : Nat) (coord : BitVec 12) (l : List (BitVec 12)) : State :=
  let me := myCoord s
  let s := s.updGuard fun g =>
    { g with gState := 2, gRound := BitVec.ofNat 8 round, gCoord := coord, gList := l
             gSeen := (round, me, 2, 0) :: g.gSeen }
  let s := flood s (guildPacket s 2 round me 0 0 [])
  if l.contains s.guard.aPeer then aprAbort s else s

/-- Lower logical coordinate, or the same. -/
def coordLe (s : State) (a b : Nat) : Bool := decide (logicalOf s a ≤ logicalOf s b)

/-- GUILD_VERDICT_RECEIVE. -/
def execGuildVerdictReceive (s : State) : Ans :=
  .next (guildReceive s 1 fun s p =>
    let o := gOrigin p
    let round := gRoundOf p
    let n := fieldAt p.data 0 2
    let chosen := match s.guard.gFrom with | some (_, c, _) => some c.toNat | none => guildChoice s
    let older := match s.guard.gFrom with
      | some (r, c, _) => c.toNat == o && decide (128 ≤ (round + 256 - r.toNat) % 256)
      | none => false
    if older || !(match chosen with | some c => coordLe s o c | none => true) then s
    else
      let same := s.guard.gFrom == some (BitVec.ofNat 8 round, BitVec.ofNat 12 o, n)
      let names := (List.range (min 6 (n - 6 * gPart p))).map fun i => BitVec.ofNat 12 (fieldAt p.data (4 + 2 * i) 2)
      let old := if same then s.guard.gParts else []
      let parts := if old.any (·.1 == gPart p) then old else old ++ [(gPart p, names)]
      let s := s.updGuard fun g =>
        { g with gFrom := some (BitVec.ofNat 8 round, BitVec.ofNat 12 o, n), gParts := parts
                 gState := if g.gState = 0 then 1 else g.gState }
      let count := ceilDiv n 6
      if (List.range count).all fun j => parts.any (·.1 == j) then
        let l := (List.range count).flatMap fun j => ((parts.find? (·.1 == j)).map (·.2)).getD []
        holdVerdict s round (BitVec.ofNat 12 o) l
      else s)

/-- GUILD_VACK_RECEIVE. -/
def execGuildVackReceive (s : State) : Ans :=
  .next (guildReceive s 2 fun s p =>
    if s.guard.gCoord = s.tl.coord ∧ gRoundOf p = s.guard.gRound.toNat ∧ 2 ≤ s.guard.gState.toNat then
      s.updGuard fun g => { g with gVacks := coordInsert (BitVec.ofNat 12 (gOrigin p)) g.gVacks }
    else s)

/-- GUILD_VACK_TIMEOUT: the coordinator names every member whose VACK is missing, under ROUND + 1. -/
def execGuildVackTimeout (s : State) : Ans :=
  let g := s.guard
  if s.slc.member && g.gState == 2 && g.gCoord == s.tl.coord then
    let missing := ((members s).map (BitVec.ofNat 12)).filter fun c => !g.gVacks.contains c && !g.gList.contains c
    if missing = [] then .next s
    else .next (giveVerdict s ((g.gRound.toNat + 1) % 256) (missing.foldl (fun l c => coordInsert c l) g.gList))
  else .next s

/-- The report to the host: the state, a `GUILD_FAULT` entry, and its interrupt (R421, R422). -/
def guildReport (s : State) (partly : Bool) : State :=
  let s := s.updGuard fun g => { g with gState := 3, gPartial := g.gPartial || partly }
  raise s { cls := evGuildFault, src := srcUnit 0 unitGuild
            detail := if partly then s.guard.gFaults.length else s.guard.gList.length }

/-- GUILD_REPORT. -/
def execGuildReport (s : State) : Ans :=
  .next (detectAll s evGuildFault (srcUnit 0 unitGuild) (s.guard.gState == 2) (fun s => guildReport s false) id)

/-- GUILD_PARTIAL_TIMEOUT. -/
def execGuildPartialTimeout (s : State) : Ans := .next (if s.guard.gState = 1 then guildReport s true else s)

/-- MODULE_WIDE_FAILURE: every job stops, and the guild agent floods FAULT with reason 4 (R417). -/
def execModuleWideFailure (_die : Option Die) (s : State) : Ans :=
  .next (guildDetect (stopAll s { cause := 6 }) 4 (myCoord s))

/-! ### Pattern books (R32, R406, R407) -/

/-- Mapped physical regions of a die. -/
def mappedRegions (s : State) (d : Nat) : List Nat := (usableRegions s (Fin.ofNat 8 d)).take 20
/-- Regions that a book's points name, on every compute die. -/
def bookRegions (pts : List (BitVec 128)) : List Nat :=
  (List.range 168).filter fun i => pts.any fun p => p.getLsbD (64 + i % 21)
/-- Change a region's clock record. -/
def State.updReg (s : State) (d r : Nat) (f : RegClk → RegClk) : State :=
  { s with pwr := { s.pwr with reg := upd {} s.pwr.reg (21 * d + r) f } }
/-- Regions of a list that no logical region of their die maps to. -/
def unmappedOf (s : State) (l : List Nat) : List Nat := l.filter fun i => !(mappedRegions s (i / 21)).contains (i % 21)
/-- Clock and power of the regions of a list, none where they are gated. -/
def setSteps (s : State) (l : List Nat) (f : Nat → Option Nat) : State :=
  l.foldl (fun s i => s.updReg (i / 21) (i % 21) fun k => { k with step := f i }) s
/-- Step of the clock of the first point that names a region. -/
def pointStep (pts : List (BitVec 128)) (i : Nat) : Nat :=
  ((pts.find? fun p => p.getLsbD (64 + i % 21)).map fun p => (p.toNat % 2 ^ 16 - 60) / 5).getD 0
/-- A book begins to run on the regions granted to it; an unmapped one is powered and clocked for the length of the run
(R32). DESIGN CHOICE (log 149): its clock is that of the first point that names it. -/
def bookStart (s : State) (pts : List (BitVec 128)) (l : List Nat) : State :=
  let s := { s with guard := { s.guard with bookRunning := true }, pwr := { s.pwr with bookGrant := l } }
  setSteps s (unmappedOf s l) fun i => some (pointStep pts i)
/-- A running book gives its regions back, and the unmapped ones are gated again. -/
def bookYield (s : State) : State :=
  let l := s.pwr.bookGrant
  let s := { s with guard := { s.guard with bookRunning := false }, pwr := { s.pwr with bookGrant := [] } }
  setSteps s (unmappedOf s l) fun _ => none

/-- What a book found of one unit. -/
def bookFound (s : State) (d : BookDiff) : State :=
  let s :=
    if d.nominal then { s with org := nextBookPatch { s.org with bookPatches := s.org.bookPatches ++ [d.unit] } }
    else queueReport s evCorrected d.src.toNat
      (reportOf s { cls := evCorrected, src := d.src.toNat, sev := 0, detail := d.point.val })
  raise s { cls := evPatternFail, src := d.src.toNat, detail := 3 + 2 ^ 8 * d.point.val }

/-- PATTERN_BOOK_COMPLETE. -/
def execPatternBookComplete (diffs : List BookDiff) (s : State) : Ans :=
  if s.guard.bookRunning then
    let s := diffs.foldl bookFound s
    .next (finishOp ((bookYield s).updGuard fun g => { g with book := none }) 0x87 stOk 0)
  else .next s

/-! ### Registers (R427) -/

/-- Registers of the MEND block. -/
def mendReg (s : State) (a : Agent) (o : Nat) : Option Reg :=
  let g := s.guard
  if !mgmt a then none
  else
    match o with
    | 0x00 => Reg.rwIf (isMp a) (b2n g.mendEn + 2 * g.mendRole.toNat + 2 ^ 16 * g.interval.toNat) fun v =>
        { s with guard := { g with
            mendEn := bitAt v 0 && roleSize s (seg v 2 1) % 16 == 0, mendRole := BitVec.ofNat 2 (v / 2)
            interval := if v / 2 ^ 16 = 0 then g.interval else BitVec.ofNat 16 (v / 2 ^ 16) } }
    | 0x04 => Reg.ro (mendIndex s + 16 * b2n g.roundOpen + 32 * b2n g.log1 + 2 ^ 6 * (g.mended.toNat % 2 ^ 26))
    | _ => none

/-- `GUILD_STATUS` (Table 13.20). -/
def guildStatus (g : Guard) : Nat :=
  g.gState.toNat + 4 * b2n g.gPartial + 2 ^ 3 * g.gRound.toNat + 2 ^ 11 * min 7 g.gList.length + 2 ^ 14 * g.gCoord.toNat
/-- The list that `GUILD_LIST` reads. -/
def guildList (g : Guard) : List (BitVec 12) := if g.gPartial then g.gFaults else g.gList

/-- Base of the GUILD block. -/
def guildBase : Nat := 0xA000

/-- Registers of the GUILD block. -/
def guildReg (s : State) (a : Agent) (o : Nat) : Option Reg :=
  let g := s.guard
  if !mgmt a then none
  else
    match o with
    | 0x00 => Reg.rwIf (isMp a) (guildStatus g) fun v =>
        { s with guard := { g with gPartial := g.gPartial && !bitAt v 2 } }
    | 0x04 => Reg.ro (min 4096 (guildList g).length)
    | 0x08 => Reg.rw (selOf s a (guildBase + 8)) fun v => setSel s a (guildBase + 8) (v % 2 ^ 12)
    | 0x0C =>
      Reg.ro (match (guildList g)[selOf s a (guildBase + 8)]? with
        | some c => c.toNat + 2 ^ 12
        | none => 0)
    | _ => none

/-- Registers of the REC block. -/
def recReg (s : State) (a : Agent) (o : Nat) : Option Reg :=
  if mgmt a ∧ o = 0 then Reg.ro (recJournal s) else none

/-- Registers of the APR block. -/
def aprReg (s : State) (a : Agent) (o : Nat) : Option Reg :=
  let g := s.guard
  if !mgmt a then none
  else
    match o with
    | 0x00 => Reg.ro (aprStatus g)
    | 0x04 => Reg.rwIf (isMp a) g.aSteps.toNat fun v =>
        if v % 2 ^ 16 = 0 then s else { s with guard := { g with aSteps := BitVec.ofNat 16 v } }
    | _ => none

end Sys2Proof.Machine
end

