-- ==== Sys2Proof/Machine/Irq.lean ====
section
/-!
DEFINITION. The interrupt controller (R456–R472): sources and their latches, offers, claims and completions, hold-off,
delivery to the host by MSI-X, and the registers of the IRQ block.
-/
namespace Sys2Proof.Machine
open Sys2Proof

/-! ### What an agent's read returns -/

/-- The agent's read returns `v`. -/
def respond (s : State) (a : Agent) (v : Nat) : State :=
  { s with rdata := Tbl.set 0 s.rdata (agNum a) (BitVec.ofNat 64 v) }

/-! ### MSI-X (R470) -/

/-- Number of a function. -/
def fnNum : Fn → Nat
  | .f0 => 0
  | .f1 => 1
/-- MSI-X vectors of a function (Table 14.1). -/
def fnVectors : Fn → Nat
  | .f0 => 2048
  | .f1 => 64
/-- Messages of a function can be sent: its MSI-X is enabled and the link is up. -/
def msixOn (s : State) (f : Fn) : Bool := !s.irq.msixOff.getLsbD (fnNum f) && s.hif.rate != 0

/-- Send the message of a vector: a masked vector's waits in the PBA, and none is sent while the link is down or the
function's MSI-X is off. -/
def msixSend (s : State) (f : Fn) (vec : Nat) : State :=
  if !msixOn s f || decide (fnVectors f ≤ vec) then s
  else if s.irq.unmasked.contains (fnNum f, vec) then s.emit (.msix f vec)
  else if s.irq.pba.contains (fnNum f, vec) then s
  else { s with irq := { s.irq with pba := s.irq.pba ++ [(fnNum f, vec)] } }

/-! ### Sources (R456–R458, Table 15.1) -/

/-- A level source. -/
def levelSource (n : Nat) : Bool :=
  n == 80 || n == 81 || (128 ≤ n && n ≤ 135) || n == 160 || n == 161 || n == 177 || (192 ≤ n && n ≤ 194)
    || n == 208 || n == 209
/-- An edge source. -/
def edgeSource (n : Nat) : Bool :=
  (1 ≤ n && n ≤ 4) || (16 ≤ n && n ≤ 79) || (96 ≤ n && n ≤ 127) || (144 ≤ n && n ≤ 159) || n == 162 || n == 176
    || (178 ≤ n && n ≤ 180) || n == 210 || n == 211 || (768 ≤ n && n ≤ 1022)

/-- A retrain window is pending on a base die. -/
def retrainPending (s : State) (d : Nat) : Bool :=
  (s.dieMem d).nm.any (fun c => c.2.pending) || (s.dieMem d).hbm.any (fun c => c.2.pending)
    || s.tl.link.any fun l => linkDie l.1 == d && l.2.pending

/-- The condition of a level source. -/
def levelHolds (s : State) (n : Nat) : Bool :=
  if n = 80 then s.ldg.entries != []
  else if n = 81 then s.ldg.full
  else if 128 ≤ n ∧ n ≤ 135 then retrainPending s (n - 128)
  else if n = 160 then collExhaust s
  else if n = 161 then s.press.held.isSome
  else if n = 177 then s.slc.broken
  else if n = 192 then s.hif.rate == 0
  else if n = 193 then s.hif.ring.any fun r => r.2.state == 3
  else if n = 194 then s.hif.openDrop || s.hif.dbDrop
  else if n = 208 then s.hif.ethDown.getLsbD 0
  else if n = 209 then s.hif.ethDown.getLsbD 1
  else false

/-- The source is pending. -/
def pendingSrc (s : State) (n : Nat) : Bool := if levelSource n then levelHolds s n else s.irq.pend.contains n
/-- `IRQ_SRC_CFG_s`, but for TYPE. -/
def srcCfg (s : State) (n : Nat) : Nat := (Tbl.get 0x10 s.irq.cfg n).toNat
/-- ROUTE. -/
def srcRoute (s : State) (n : Nat) : Nat := seg (srcCfg s n) 2 1
/-- VECTOR. -/
def srcVector (s : State) (n : Nat) : Nat := seg (srcCfg s n) 18 8
/-- The source is in service. -/
def inService (s : State) (n : Nat) : Bool := s.irq.service.any (·.1 == n)
/-- The hold-off timer of a group runs. -/
def holdRuns (s : State) (g : Nat) : Bool := s.irq.run.getLsbD g
/-- The source is eligible (R458). -/
def eligible (s : State) (n : Nat) : Bool :=
  1 ≤ n && n ≤ 1022 && pendingSrc s n && !inService s n && bitAt (srcCfg s n) 0 && !holdRuns s (n / 16)
/-- Start the group's timer (R467). -/
def startHold (s : State) (g : Nat) : State :=
  if Tbl.get 0 s.irq.hold g = 0 then s
  else { s with irq := { s.irq with run := s.irq.run ||| BitVec.ofNat 64 (2 ^ g) } }
/-- An edge source stops being pending. -/
def unpend (s : State) (n : Nat) : State := { s with irq := { s.irq with pend := s.irq.pend.filter (· != n) } }
/-- An edge source becomes pending. -/
def pendSrc (s : State) (n : Nat) : State := { s with irq := { s.irq with pend := insertUp n s.irq.pend } }

/-- IRQ_SOURCE_PENDING: the latch of an edge source is cleared as the source becomes pending. A level source is
pending while its condition holds. -/
def execIrqSourcePending (src : Fin 1024) (s : State) : Ans :=
  if s.irq.latch.contains src.val then
    let s := { s with irq := { s.irq with latch := s.irq.latch.filter (· != src.val) } }
    .next (if edgeSource src.val then pendSrc s src.val else s)
  else .next s

/-! ### Offers and sends (R461, R469) -/

/-- TPR of a processor, with EN in bit 4. -/
def tprOf (s : State) (p : Nat) : Nat := (Tbl.get 0x10 s.irq.tpr p).toNat
/-- Source in service on a processor. -/
def onProc (s : State) (p : Nat) : Option Nat := (s.irq.service.find? (·.2 == p)).map (·.1)
/-- Source offered to a processor. -/
def offeredTo (s : State) (p : Nat) : Option Nat := (s.irq.offer.find? (·.1 == p)).map (·.2)

/-- The processor that a source goes to, given the offers made so far. -/
def pickProc (s : State) (n : Nat) (made : List (Nat × Nat)) : Option Nat :=
  let ok := (List.range 4).filter fun p =>
    bitAt (srcCfg s n) (4 + p) && bitAt (tprOf s p) 4 && (onProc s p).isNone && !made.any (·.1 == p)
  ok.foldl (fun b p => match b with
    | none => some p
    | some q => if tprOf s p % 16 < tprOf s q % 16 then some p else some q) none

/-- Every source that may be pending, in ascending number. -/
def liveSources (s : State) : List Nat :=
  ((List.range 210).filter levelSource).foldl (fun l n => insertUp n l) s.irq.pend

/-- The offers of this cycle. -/
def newOffers (s : State) : List (Nat × Nat) :=
  (liveSources s).foldl (fun made n =>
    if eligible s n && srcRoute s n == 0 then
      match pickProc s n made with
      | some p => made ++ [(p, n)]
      | none => made
    else made) []

/-- Function that a source is routed to. -/
def routeFn (s : State) (n : Nat) : Option Fn :=
  match srcRoute s n with
  | 1 => some .f0
  | 2 => some .f1
  | _ => none

/-- Send one source to the host when it is eligible and its function can take messages. -/
def sendSource (s : State) (n : Nat) : State :=
  match routeFn s n with
  | some f =>
    if eligible s n && msixOn s f then
      let t := msixSend s f (srcVector s n)
      let t := startHold t (n / 16)
      if levelSource n then { t with irq := { t.irq with service := t.irq.service ++ [(n, 4 + fnNum f)] } }
      else unpend t n
    else s
  | none => s

/-- IRQ_OFFER_UPDATE: one I/O cycle of the controller. -/
def execIrqOfferUpdate (s : State) : Ans :=
  let made := newOffers s
  let seen := made.foldl (fun b (p, _) => b ||| BitVec.ofNat 4 (2 ^ p)) s.irq.seen
  .next ((liveSources s).foldl sendSource { s with irq := { s.irq with offer := made, seen := seen } })

/-! ### Claims and completions (R462–R466) -/

/-- Processor number of an agent. -/
def procOf : Agent → Option Nat
  | .mp0 => some 0
  | .mp1 => some 1
  | .mp2 => some 2
  | .mp3 => some 3
  | _ => none

/-- Value and effect of a read of `IRQ_CLAIM_p`. -/
def claimRead (s : State) (a : Agent) (p : Nat) : Nat × State :=
  if procOf a ≠ some p then (0, s)
  else
    let t := { s with irq := { s.irq with seen := s.irq.seen &&& ~~~ BitVec.ofNat 4 (2 ^ p) } }
    match onProc s p with
    | some n => (n, t)
    | none =>
      match offeredTo s p with
      | some n =>
        let t := { t with irq := { t.irq with
            offer := t.irq.offer.filter (·.1 != p), service := t.irq.service ++ [(n, p)] } }
        let t := startHold t (n / 16)
        (n, if levelSource n then t else unpend t n)
      | none =>
        if s.irq.seen.getLsbD p then
          (1023, { t with irq := { t.irq with
              spur := upd 0 t.irq.spur p fun c => if c = 255 then c else c + 1 } })
        else (0, t)

/-- IRQ_CLAIM. -/
def execIrqClaim (a : Agent) (p : Fin 4) (s : State) : Ans :=
  let (v, t) := claimRead s a p.val
  .next (respond t a v)

/-- A write of `IRQ_COMPLETE_p`. -/
def completeWrite (s : State) (a : Agent) (p v : Nat) : State :=
  if procOf a ≠ some p then s
  else if s.irq.service.contains (v % 1024, p) then
    { s with irq := { s.irq with service := s.irq.service.filter (· != (v % 1024, p)) } }
  else { s with irq := { s.irq with badComplete := s.irq.badComplete ||| BitVec.ofNat 4 (2 ^ p) } }

/-- IRQ_COMPLETE. -/
def execIrqComplete (a : Agent) (p : Fin 4) (v : Word) (s : State) : Ans := .next (completeWrite s a p.val v.toNat)

/-- IRQ_HOLD_EXPIRE. -/
def execIrqHoldExpire (g : Fin 64) (s : State) : Ans :=
  .next { s with irq := { s.irq with run := s.irq.run &&& ~~~ BitVec.ofNat 64 (2 ^ g.val) } }

/-- A write of `IRQ_HOST_DONE`. -/
def hostDone (s : State) (a : Agent) (v : Nat) : State :=
  match a with
  | .fn0 => { s with irq := { s.irq with service := s.irq.service.filter (· != (v % 1024, 4)) } }
  | .fn1 => { s with irq := { s.irq with service := s.irq.service.filter (· != (v % 1024, 5)) } }
  | _ => s

/-- IRQ_HOST_DONE. -/
def execIrqHostDone (a : Agent) (v : Word) (s : State) : Ans := .next (hostDone s a v.toNat)

/-- A software source. -/
def softSource (v : Nat) : Bool := 768 ≤ v % 1024 && v % 1024 ≤ 1022
/-- A write of `IRQ_SWSET`. -/
def swSet (s : State) (v : Nat) : State := if softSource v then pendSrc s (v % 1024) else s
/-- A write of `IRQ_SWCLR`. -/
def swClr (s : State) (v : Nat) : State := if softSource v then unpend s (v % 1024) else s

/-- IRQ_SWSET: function 1 and the management processors (R471). -/
def execIrqSwset (a : Agent) (v : Word) (s : State) : Ans := .next (if mgmt a then swSet s v.toNat else s)
/-- IRQ_SWCLR: the management processors. -/
def execIrqSwclr (a : Agent) (v : Word) (s : State) : Ans := .next (if isMp a then swClr s v.toNat else s)

/-- A vector is unmasked: its pending message is sent (R470). -/
def unmaskVector (s : State) (f : Fn) (v : Nat) : State :=
  let key := (fnNum f, v)
  if s.irq.unmasked.contains key || decide (fnVectors f ≤ v) then s
  else
    let t := { s with irq := { s.irq with unmasked := s.irq.unmasked ++ [key] } }
    if s.irq.pba.contains key && msixOn s f then
      { t with irq := { t.irq with pba := t.irq.pba.filter (· != key) } }.emit (.msix f v)
    else t

/-- MSIX_VECTOR_UNMASK. -/
def execMsixVectorUnmask (f : Fn) (vec : Fin 2048) (s : State) : Ans := .next (unmaskVector s f vec.val)

/-- Once a function can send again, the messages that pend for vectors no longer masked are sent. -/
def sendPended (s : State) (f : Fn) : State :=
  if msixOn s f then
    s.irq.pba.foldl (fun s key =>
      if key.1 = fnNum f ∧ s.irq.unmasked.contains key = true then
        { s with irq := { s.irq with pba := s.irq.pba.filter (· != key) } }.emit (.msix f key.2)
      else s) s
  else s

/-- MSIX_ENABLE: the messages that pend and the sources held for the function are sent. -/
def execMsixEnable (f : Fn) (s : State) : Ans :=
  let s := { s with irq := { s.irq with msixOff := s.irq.msixOff &&& ~~~ BitVec.ofNat 2 (2 ^ fnNum f) } }
  let s := sendPended s f
  .next ((liveSources s).foldl (fun s n => if routeFn s n = some f then sendSource s n else s) s)

/-! ### Registers (R471, Tables 15.2–15.8) -/

/-- A word of the pending or in-service bits. -/
def srcWord (f : Nat → Bool) (w : Nat) : Nat :=
  (List.range 32).foldl (fun n i => if f (32 * w + i) then n + 2 ^ i else n) 0

/-- A write of `IRQ_SRC_CFG_s`: ROUTE 3 and a vector that its route does not have are unlisted (R10). -/
def srcCfgWrite (s : State) (n v : Nat) : State :=
  let old := srcCfg s n
  let route := if seg v 2 1 = 3 then seg old 2 1 else seg v 2 1
  let vec := if route = 2 ∧ 64 ≤ seg v 18 8 then seg old 18 8 else seg v 18 8
  { s with irq := { s.irq with
      cfg := Tbl.set 0x10 s.irq.cfg n (BitVec.ofNat 32 (v % 2 + 2 * route + 2 ^ 4 * seg v 7 4 + 2 ^ 8 * vec)) } }

/-- `IRQ_MP_STATUS_p`. -/
def mpStatus (s : State) (p : Nat) : Nat :=
  (onProc s p).getD 0 + 2 ^ 10 * b2n (offeredTo s p).isSome + 2 ^ 11 * b2n (s.irq.badComplete.getLsbD p)
    + 2 ^ 12 * (Tbl.get 0 s.irq.spur p).toNat

/-- Registers of one processor, at `k` of its 16 bytes. -/
def procReg (s : State) (a : Agent) (p k : Nat) : Option Reg :=
  match k with
  | 0x0 => some { val := (claimRead s a p).1, took := some (claimRead s a p).2 }
  | 0x4 => some { val := 0, wo := true, put := if isMp a then some (completeWrite s a p) else none }
  | 0x8 => Reg.rwIf (isMp a) (tprOf s p) fun v =>
      { s with irq := { s.irq with tpr := Tbl.set 0x10 s.irq.tpr p (BitVec.ofNat 5 v) } }
  | 0xC => Reg.rwIf (isMp a) (mpStatus s p) fun v =>
      if bitAt v 11 then
        { s with irq := { s.irq with badComplete := s.irq.badComplete &&& ~~~ BitVec.ofNat 4 (2 ^ p) } }
      else s
  | _ => none

/-- Registers of the IRQ block. -/
def irqReg (s : State) (a : Agent) (o : Nat) : Option Reg :=
  if o = 0x1108 then some { val := 0, wo := true, put := some (hostDone s a) }
  else if !mgmt a then none
  else if o % 4 ≠ 0 then none
  else if o < 0x1000 then
    let n := o / 4
    if n = 0 ∨ n = 1023 then none
    else Reg.rwIf (isMp a) (srcCfg s n + 8 * b2n (edgeSource n)) (srcCfgWrite s n)
  else if o < 0x1080 then Reg.ro (srcWord (pendingSrc s) ((o - 0x1000) / 4))
  else if o < 0x1100 then Reg.ro (srcWord (inService s) ((o - 0x1080) / 4))
  else if o = 0x1100 then some { val := 0, wo := true, put := some (swSet s) }
  else if o = 0x1104 then some { val := 0, wo := true, put := if isMp a then some (swClr s) else none }
  else if 0x1200 ≤ o ∧ o < 0x1300 then
    let g := (o - 0x1200) / 4
    Reg.rwIf (isMp a) ((Tbl.get 0 s.irq.hold g).toNat + 2 ^ 16 * b2n (holdRuns s g)) fun v =>
      { s with irq := { s.irq with hold := Tbl.set 0 s.irq.hold g (BitVec.ofNat 16 v) } }
  else if 0x1400 ≤ o ∧ o < 0x1440 then procReg s a ((o - 0x1400) / 16) (o % 16)
  else none

/-- The MSI-X table of a function, at `o` of its 32 KiB: words 0–2 of an entry are kept as written, and bit 0 of
word 3 masks the vector. -/
def msixTableReg (s : State) (f : Fn) (o : Nat) : Option Reg :=
  let v := o / 16
  if fnVectors f ≤ v ∨ o % 4 ≠ 0 then none
  else if o % 16 = 12 then
    Reg.rw (b2n !s.irq.unmasked.contains (fnNum f, v)) fun x =>
      if bitAt x 0 then
        { s with irq := { s.irq with unmasked := s.irq.unmasked.filter (· != (fnNum f, v)) } }
      else unmaskVector s f v
  else
    let k := fnNum f * 8192 + o / 4
    Reg.rw (Tbl.get 0 s.irq.msixTab k).toNat fun x =>
      { s with irq := { s.irq with msixTab := Tbl.set 0 s.irq.msixTab k (BitVec.ofNat 32 x) } }

/-- The Pending Bit Array of a function. -/
def pbaReg (s : State) (f : Fn) (o : Nat) : Option Reg :=
  if o % 4 ≠ 0 ∨ fnVectors f ≤ 8 * o then none
  else Reg.ro (srcWord (fun v => s.irq.pba.contains (fnNum f, v)) (o / 4))

end Sys2Proof.Machine
end

