-- ==== Sys2Proof/Machine/Chits.lean ====
section
/-!
DEFINITION. Chits and the dispatcher's choice (R441, R479–R482): limits and class rates in force, the cost of a docket
on each die, whether it fits, and the ring whose docket starts next.
-/
namespace Sys2Proof.Machine
open Sys2Proof

/-! ### Limits and rates (R479, R480, R483 rung 2) -/

/-- Configured limit of a die in force, in W. -/
def dieLimitOf (s : State) (d : Nat) : Nat := (Tbl.get 420 s.pwr.dieLimitNow d).toNat
/-- L_d in hundredths of a watt, after rung 2. -/
def effLimit (s : State) (d : Nat) : Nat := dieLimitOf s d * (100 - 2 * s.pwr.rung2)
/-- L_d × τ in µJ. -/
def lTau (s : State) (d : Nat) : Nat := effLimit s d / 10
/-- Q_d in µJ. -/
def chitOf (s : State) (d : Nat) : Int := Tbl.get 4200 s.pwr.chit d
/-- R_d in µJ. -/
def reserveOf (s : State) (d : Nat) : Nat := Tbl.get 0 s.pwr.reserve d

/-- Rates at reset (Table 16.3). -/
def rateReset : List Nat := [0, 3, 6, 9, 13, 17, 21, 27]
/-- A rate as the register reads. -/
def rateOf (t : Tbl (Option (BitVec 6))) (c : Nat) : Nat :=
  if c = 0 then 0 else ((Tbl.get none t c).map (·.toNat)).getD (rateReset.getD c 0)
/-- r_c in force, 0 for a class that is not listed. -/
def classRate (s : State) (c : Nat) : Nat := rateOf s.pwr.rateNow c

/-! ### Cost of a docket (R481) -/

/-- Cluster records of a `LAUNCH`: (cluster ID, SRC, RING, reserved bits) (Table 14.8). -/
def launchRecords (d : Docket) : List (Nat × Bool × Nat × Nat) :=
  (List.range (min 2560 (fieldAt d.bytes 34 2))).map fun i =>
    let w := fieldAt d.bytes (160 + 4 * i) 4
    (seg w 11 0, bitAt w 12, seg w 25 13, seg w 31 26)
/-- Clusters of a `LAUNCH`, by place. -/
def launchPlaces (d : Docket) : List Nat := (launchRecords d).filterMap fun x => clOfId x.1

/-- The cluster of a running job that a ring feeds (R117). -/
def fedCluster (s : State) (r : Nat) : Option Nat :=
  (s.cl.find? fun e => e.2.src && e.2.ring.toNat == r &&
    match e.2.win with
    | some w => (s.jobAt w.val).running
    | none => false).map (·.1)

/-- n_d of a docket on ring `r`. -/
def regionsCharged (s : State) (r : Nat) (d : Docket) (die : Nat) : Nat :=
  if dkOp d = 0x20 then (((launchPlaces d).filter fun q => clDie q = die).map (· / 16)).eraseDups.length
  else if dkOp d = 0x03 then
    match fedCluster s r with
    | some q => if clDie q = die then 1 else 0
    | none => 0
  else 0
/-- Cost on a die in µJ. -/
def dkCost (s : State) (r : Nat) (d : Docket) (die : Nat) : Nat :=
  regionsCharged s r d die * classRate s (dkClass d) * 10
/-- Dies that a docket charges. -/
def diesCharged (s : State) (r : Nat) (d : Docket) : List Nat :=
  (List.range 8).filter fun die => regionsCharged s r d die != 0
/-- A cost fits on a die. -/
def fitsOn (s : State) (die cost : Nat) : Bool :=
  decide ((cost : Int) ≤ chitOf s die - reserveOf s die)
    || (decide (2 * lTau s die < cost) && decide ((2 * lTau s die : Int) ≤ chitOf s die))
/-- The docket fits. -/
def dkFits (s : State) (r : Nat) (d : Docket) : Bool :=
  (diesCharged s r d).all fun die => fitsOn s die (dkCost s r d die)

/-! ### The dispatcher's choice (R441, R442, R482) -/

/-- Reply entries that the host has not consumed. -/
def unconsumed (g : RingSt) : Nat := (g.rtail.toNat + g.replies - g.rhead.toNat % g.replies) % g.replies
/-- The docket of a ring that is ready to start. -/
def readyDocket (g : RingSt) : Option Docket :=
  if g.running.isSome || decide (g.replies ≤ unconsumed g + 1) then none else g.queue.head?
/-- Rings with a ready docket. -/
def readyRings (s : State) : List (Nat × RingSt × Docket) :=
  s.hif.ring.filterMap fun e => (readyDocket e.2).map fun d => (e.1, e.2, d)

/-- Dies of the dockets that starve. -/
def starvedDies (s : State) : List Nat :=
  ((readyRings s).filter fun x => x.2.1.starving).flatMap fun x => diesCharged s x.1 x.2.2
/-- A ready docket may start now. -/
def mayStart (s : State) (x : Nat × RingSt × Docket) : Bool :=
  (x.2.1.forced || dkFits s x.1 x.2.2)
    && (x.2.1.starving || !(diesCharged s x.1 x.2.2).any fun d => (starvedDies s).contains d)
/-- Order of the choice: starving first, then the higher class, then round-robin after the last ring. -/
def startKey (s : State) (x : Nat × RingSt × Docket) : Nat :=
  let cls := if dkClass x.2.2 < 8 then dkClass x.2.2 else 0
  let turn := (x.1 + 8192 - (s.hif.lastRing.getD 8191 + 1)) % 8192
  (b2n x.2.1.starving * 8 + cls) * 8192 + (8191 - turn)
/-- The ring whose docket starts. -/
def startChoice (s : State) : Option (Nat × RingSt × Docket) :=
  ((readyRings s).filter (mayStart s)).foldl (fun b x => match b with
    | none => some x
    | some y => if startKey s y < startKey s x then some x else b) none

end Sys2Proof.Machine
end

