-- ==== Sys2Proof/Machine/Slices.lean ====
section
/-!
DEFINITION. Slices and phase switches (R288–R310): translation entries with their accounts, the drain, the rewrite,
residency moves and the resume; and the registers of the SLC block and of memory accounting.
-/
namespace Sys2Proof.Machine
open Sys2Proof

/-! ### Accounts (R201, R306) -/

/-- The entry names a frame of HBM4. -/
def entHbm (e : DWord) : Bool := decide (8 ≤ entLoc e)

/-- Entries with V = 1 of a window and tag that name frames of a tier. -/
def acctCount (s : State) (win tag : Nat) (hbm : Bool) : Nat :=
  (s.mem.table.filter fun e =>
    e.1 / 2 ^ 20 == win && entV e.2 && entAcct e.2 == tag && entHbm e.2 == hbm).length

/-- The peak of a window's tag rises to its count. -/
def raisePeak (s : State) (win tag : Nat) (hbm : Bool) : State :=
  let n := acctCount s win tag hbm
  let up := fun (t : Tbl Nat) => upd 0 t (win * 256 + tag) (max n)
  if hbm then { s with mem := { s.mem with peakHbm := up s.mem.peakHbm } }
  else { s with mem := { s.mem with peakNm := up s.mem.peakNm } }

/-- The firmware writes a translation entry. -/
def setEntry (s : State) (win v : Nat) (e : DWord) : State :=
  let s := { s with mem := { s.mem with table := Tbl.set 0 s.mem.table (win * 2 ^ 20 + v) e } }
  if entV e then raisePeak s win (entAcct e) (entHbm e) else s

/-- Every translation cache is invalidated; a miss under way stays so, and its fill reads the table as it then is. -/
def dropXlat (s : State) : State :=
  (List.range 8).foldl (fun s d => s.updDieMem d fun m => { m with xlat := [] }) s

/-! ### The rewrite (R300) -/

/-- Base dies of a FENCE word: bit 4b + n is link n of base die b (Table 14.10). -/
def fenceBit (w : Nat) (l : Nat) : Bool := bitAt w (4 * linkDie l + l % 4)

/-- Put the FENCE bits of every link. -/
def putFences (s : State) (w : Nat) : State := (List.range 32).foldl (fun s l => setFence s l (fenceBit w l)) s

/-- Put `SLC_ID`. -/
def putSlcId (s : State) (v : Nat) : State :=
  { s with slc := { s.slc with slice := BitVec.ofNat 8 v, member := bitAt v 8 } }
/-- Put `SLC_MAP`. -/
def putSlcMap (s : State) (v : Nat) : State := { s with slc := { s.slc with map := BitVec.ofNat 24 v } }

/-- The resume begins: its barrier takes the slice's system context (R301, R318). -/
def beginResume (s : State) : State := { s with coll := { s.coll with sys := some .resume } }.setStep 5

/-- The rewrite step of a switch: the slice registers, FENCE bits, `SHELF_CFG` and entries are written, and every
translation cache is invalidated; a member whose master or parent changed acquires its time afresh (R383). -/
def phaseRewrite (s : State) (r : PhaseReq) : State :=
  let was := timeRefs s
  let s := { s with slc := { s.slc with drained := true } }
  let s := putSlcId s r.slcId.toNat
  let s := putSlcMap s r.slcMap.toNat
  let s := (List.range 8).foldl (fun s d => putSlice s d r.tlSlice.toNat) s
  let s := putFences s r.fence.toNat
  let s := r.shelf.zipIdx.foldl (fun s (v, d) => shelfWriteWith s d v.toNat false) s
  let s := r.items.foldl (fun s i => if i.move then s else setEntry s i.win.toNat i.vframe.toNat i.entry) s
  let s := reacquire (dropXlat s) was
  if r.items.any (·.move) then s.setStep 4 else beginResume s

/-! ### Steps of a switch -/

/-- The module gives its counts to a drain round, in the slice's system context (R301, R318). -/
def joinDrain (s : State) : State :=
  { s with coll := { s.coll with sys := some (.drain s.tl.sent s.tl.delivered) } }

/-- PHASE_DRAIN_START: T_d is reached, the module is SYNCED, and the first row of Table 9.1 holds. -/
def execPhaseDrainStart (s : State) : Ans :=
  match s.slc.req with
  | some r =>
    if s.slc.step = 1 ∧ sliceBusy s = false ∧ r.td.toNat ≤ s.gct.count.toNat ∧ gctSynced s = true then
      .next ((joinDrain { s with slc := { s.slc with rounds := 0 } }).setStep 2)
    else .next s
  | none => .next s

/-- PHASE_DRAIN_ROUND_COMPLETE: the sums over the slice are what the module gave to the round and what the other
members gave, `sent` and `delivered`; equal sums end the drain and the rewrite follows, others start a further round
(R301). -/
def execPhaseDrainRoundComplete (sent delivered : Nat) (s : State) : Ans :=
  match s.slc.req, s.coll.sys with
  | some r, some (.drain mySent myDelivered) =>
    if s.slc.step = 2 then
      let s := { s with slc := { s.slc with rounds := BitVec.ofNat 8 (satTo 8 (s.slc.rounds.toNat + 1)) } }
      if mySent + sent = myDelivered + delivered then
        let s := { s with tl := { s.tl with sent := 0, delivered := 0 }, coll := { s.coll with sys := none } }
        .next (phaseRewrite (s.setStep 3) r)
      else .next (joinDrain s)
    else .next s
  | _, _ => .next s

/-- First and last sector of a frame. -/
def frameSec (f : Nat) : Nat := f * 2 ^ 16

/-- Sectors of a near-memory frame whose channel was remade and which have not been written since. -/
def remadeSectors (s : State) (loc f : Nat) : List Nat :=
  if s.mem.nmRemade.any (·.1 == loc) then (List.range (2 ^ 16)).filter fun k => nmRemadeAt s loc (frameSec f + k) else []

/-- Sectors of a frame that differ from clean zeros, counted from its start. -/
def frameSectors (s : State) (loc f : Nat) : List Nat :=
  let lo := frameSec f
  let inF := fun (x : Nat) => decide (lo ≤ x) && decide (x < lo + 2 ^ 16)
  if loc < 8 then
    let kept := (((s.mem.nm.filter fun e => e.1 / 36 / 2 ^ 31 == loc).map fun e => e.1 / 36 % 2 ^ 31).filter inF).eraseDups
    (kept.map (· - lo)).filter (fun k => !nmRemadeAt s loc (lo + k)) ++ remadeSectors s loc f
  else
    let a := (s.mem.hbm.filter fun e => e.1 / 2 ^ 36 == loc - 8).map fun e => e.1 % 2 ^ 36 / 32
    let b := (s.mem.hbmStain.filter fun e => e.1 / 2 ^ 31 == loc - 8).map fun e => e.1 % 2 ^ 31
    ((a ++ b).filter inF).eraseDups.map (· - lo)

/-- A frame's sectors become clean zeros. -/
def clearFrame (s : State) (loc f : Nat) : State :=
  let lo := frameSec f
  if loc < 8 then
    { s with mem := { s.mem with
        nm := dropFrom s.mem.nm ((loc * 2 ^ 31 + lo) * 36) ((loc * 2 ^ 31 + lo + 2 ^ 16) * 36)
        nmDone := (remadeSectors s loc f).foldl (fun t k => Tbl.set false t (loc * 2 ^ 31 + lo + k) true) s.mem.nmDone } }
  else
    let st := loc - 8
    { s with mem := { s.mem with
        hbm := dropFrom s.mem.hbm (st * 2 ^ 36 + lo * 32) (st * 2 ^ 36 + (lo + 2 ^ 16) * 32)
        hbmStain := dropFrom s.mem.hbmStain (st * 2 ^ 31 + lo) (st * 2 ^ 31 + lo + 2 ^ 16) } }

/-- Stack of a LOC within its tier. -/
def locStack (loc : Nat) : Nat := if loc < 8 then loc else loc - 8
/-- Base die of a LOC. -/
def locDie (loc : Nat) : Nat := if loc < 8 then loc else (loc - 8) / 2

/-- Write back and drop a frame's cached sectors. -/
def flushFrame (s : State) (loc f : Nat) : State :=
  flushCache s (locDie loc) fun c =>
    c.hbm == decide (8 ≤ loc) && c.stack == locStack loc && c.sec / 2 ^ 16 == f

/-- A page mover copies a frame with its stains (R202). -/
def copyFrame (s : State) (l1 f1 l2 f2 : Nat) : State :=
  if l1 = l2 ∧ f1 = f2 then s
  else
    let s := flushFrame (flushFrame s l1 f1) l2 f2
    let s := clearFrame s l2 f2
    (frameSectors s l1 f1).foldl (fun s k =>
      let (s, b, st) := dramRead s (decide (8 ≤ l1)) (locStack l1) (frameSec f1 + k) [] .clean
      dramStore s (decide (8 ≤ l2)) (locStack l2) (frameSec f2 + k) b st) s

/-- RESIDENCY_MOVE_COMPLETE: item `i` of the switch is copied and its entry rewritten; after the last one the caches
are invalidated and the resume begins. -/
def execResidencyMoveComplete (i : Nat) (s : State) : Ans :=
  match s.slc.req with
  | some r =>
    match r.items[i]? with
    | some it =>
      if s.slc.step = 4 ∧ it.move = true ∧ it.moved = false then
        let old := tableEntry s it.win.toNat it.vframe.toNat
        let s := if entV old && !entBad s old && entV it.entry && !entBad s it.entry then
          copyFrame s (entLoc old) (entFrame old) (entLoc it.entry) (entFrame it.entry) else s
        let s := dropXlat (setEntry s it.win.toNat it.vframe.toNat it.entry)
        let items := alter r.items i fun x => { x with moved := true }
        let s := { s with slc := { s.slc with req := some { r with items := items } } }
        .next (if items.all fun x => !x.move || x.moved then beginResume s else s)
      else .next s
    | none => .next s
  | none => .next s

/-- Every link interior to the slice is UP. -/
def interiorUp (s : State) : Bool := (List.range 32).all fun l => !interior s l || (s.link l).state == 2

/-- The guild agent forgets the fault: a `PHASE` has rebuilt the slice (R422). -/
def guildClear (s : State) : State :=
  s.updGuard fun g =>
    { g with gState := 0, gPartial := false, gRound := 0, gCoord := 0, gList := [], gFaults := [], gSeen := [], gParts := [],
             gFrom := none, gVacks := [], gStopped := false }

/-- The module may join the resume barrier: one being brought up only once it is SYNCED (R503). -/
def mayResume (s : State) (r : PhaseReq) : Bool := !r.bringup || !s.slc.member || gctSynced s

/-- PHASE_RESUME_COMPLETE: the resume barrier completes once every interior link is UP (R307). -/
def execPhaseResumeComplete (s : State) : Ans :=
  match s.slc.req with
  | some r =>
    if s.slc.step = 5 ∧ mayResume s r = true ∧ interiorUp s = true then
      .next (phaseEnd (guildClear { s with slc := { s.slc with failed := false } }) 6)
    else .next s
  | none => .next s

/-- The switch fails: every link of the new slice stays fenced and `LAUNCH` is rejected (R305). -/
def phaseFail (s : State) : State :=
  let s := (List.range 32).foldl (fun s l => setFence s l true) s
  phaseEnd { s with slc := { s.slc with failed := true } } 7

/-- A switch has passed its limit (R305). -/
def phaseTimedOut (s : State) : State :=
  let s := { s with slc := { s.slc with timeout := true } }
  phaseFail (raise s { cls := evPhaseTimeout, src := srcUnit 0 unitSlice })

/-- PHASE_TIMEOUT. -/
def execPhaseTimeout (s : State) : Ans :=
  match s.slc.req with
  | some r =>
    .next (detectAll s evPhaseTimeout (srcUnit 0 unitSlice)
      (decide (r.td.toNat + 1000 * r.limit.toNat ≤ s.gct.count.toNat)) phaseTimedOut id)
  | none => .next s

/-! ### Registers (R309, R310) -/

/-- Write of `SLC_ID`. -/
def slcIdWrite (s : State) (v : Nat) : State := if mayRewrite s then putSlcId s v else s
/-- Write of `SLC_MAP`. -/
def slcMapWrite (s : State) (v : Nat) : State := if mayRewrite s then putSlcMap s v else s

/-- SLC_ID_WRITE. -/
def execSlcIdWrite (a : Agent) (v : Word) (s : State) : Ans := .next (if isMp a then slcIdWrite s v.toNat else s)
/-- SLC_MAP_WRITE. -/
def execSlcMapWrite (a : Agent) (v : Word) (s : State) : Ans := .next (if isMp a then slcMapWrite s v.toNat else s)

/-- `SLC_LCOORD` (Table 9.4). -/
def slcLcoord (s : State) : Nat := (if s.slc.member then logicalCoord s else 0) + 2 ^ 12 * logicalShape s

/-- Registers of the SLC block. -/
def slcReg (s : State) (a : Agent) (o : Nat) : Option Reg :=
  let c := s.slc
  match o with
  | 0x00 =>
    Reg.rwIf (isMp a) (c.slice.toNat + 2 ^ 8 * b2n c.member + 2 ^ 9 * b2n (isMaster s)) (slcIdWrite s)
  | 0x08 => Reg.ro (slcLcoord s)
  | _ =>
    if !mgmt a then none
    else if o = 0x04 then Reg.rwIf (isMp a) c.map.toNat (slcMapWrite s)
    else if o = 0x0C then
      Reg.rwIf (isMp a)
        (c.step.toNat + 2 ^ 3 * b2n c.late + 2 ^ 4 * b2n c.timeout + 2 ^ 5 * b2n c.broken + 2 ^ 6 * c.rounds.toNat)
        fun v =>
          { s with slc := { c with late := c.late && !bitAt v 3, timeout := c.timeout && !bitAt v 4,
                                   broken := c.broken && !bitAt v 5 } }
    else if o = 0x10 then Reg.ro c.dur.toNat
    else if 0x40 ≤ o ∧ o < 0x80 ∧ o % 4 = 0 then
      let n := (o - 0x40) / 4
      Reg.rwIf (isMp a) (Tbl.get 0 c.role n).toNat fun v =>
        { s with slc := { c with role := Tbl.set 0 c.role n (BitVec.ofNat 8 v) } }
    else none

/-- Offset of `MEM_ACCT_SEL` in the register space. -/
def acctSel : Nat := 0x1050

/-- Write of `MEM_ACCT_SEL`: the selection, and for a management processor PEAK_RST (R310). -/
def acctWrite (s : State) (a : Agent) (v : Nat) : State :=
  let s := setSel s a acctSel (v % 2 ^ 12)
  if isMp a && bitAt v 12 then
    let w := v % 16
    let t := seg v 11 4
    { s with mem := { s.mem with
        peakNm := Tbl.set 0 s.mem.peakNm (w * 256 + t) (acctCount s w t false)
        peakHbm := Tbl.set 0 s.mem.peakHbm (w * 256 + t) (acctCount s w t true) } }
  else s

/-- MEM_ACCT_PEAK_RST. -/
def execMemAcctPeakRst (a : Agent) (v : Word) (s : State) : Ans := .next (if mgmt a then acctWrite s a v.toNat else s)

/-- The accounting registers of the MEM block. -/
def acctReg (s : State) (a : Agent) (o : Nat) : Option Reg :=
  if !mgmt a then none
  else
    let v := selOf s a acctSel
    let w := v % 16
    let t := v / 16 % 256
    match o with
    | 0x50 => Reg.rw v (acctWrite s a)
    | 0x54 => Reg.ro (acctCount s w t false)
    | 0x58 => Reg.ro (acctCount s w t true)
    | 0x5C => Reg.ro (Tbl.get 0 s.mem.peakNm (w * 256 + t))
    | 0x60 => Reg.ro (Tbl.get 0 s.mem.peakHbm (w * 256 + t))
    | _ => none

end Sys2Proof.Machine
end

