-- ==== Sys2Proof/Machine/DkCheck.lean ====
section
/-!
DEFINITION. What a docket's bytes must be (R12, R443, Tables 14.5–14.12): its opcode, its reserved bytes, and the
encodings that its fields list.
-/
namespace Sys2Proof.Machine
open Sys2Proof

/-- Field of `n` bytes at byte `i`. -/
def dkF (d : Docket) (i n : Nat) : Nat := fieldAt d.bytes i n

/-- Opcodes of Table 14.6. -/
def opcodeListed (op : Nat) : Bool :=
  op ≤ 3 || op == 0x10 || op == 0x11 || op == 0x20 || op == 0x21 || (0x30 ≤ op && op ≤ 0x35) || op == 0x40 || op == 0x41
    || (0x80 ≤ op && op ≤ 0x87)
/-- Opcodes that Table 14.6 marks 1. -/
def opcodePriv (op : Nat) : Bool := 0x80 ≤ op && op ≤ 0x87

/-- Payload bytes outside the spans of an opcode's fields are 0. -/
def restZero (d : Docket) (spans : List (Nat × Nat)) : Bool :=
  d.bytes.zipIdx.all fun (b, i) => b == 0 || decide (i < 32) || spans.any fun (a, n) => decide (a ≤ i) && decide (i < a + n)

/-- The header's reserved fields and ECLASS (Table 14.5). -/
def headerOk (d : Docket) : Bool := dkFlags d < 2 && dkClass d < 8 && dkF d 24 4 == 0

/-- `WRITE` and `READ`. -/
def moveOk (d : Docket) : Bool :=
  restZero d [(40, 24)] && dkF d 40 8 % 32 == 0 && dkF d 48 8 % 32 == 0 && dkF d 56 8 % 32 == 0
/-- `STREAM`. -/
def streamOk (d : Docket) : Bool :=
  let n := dkF d 32 2
  1 ≤ n && n ≤ 64 && 64 + 16 * n ≤ dkLen d && restZero d [(32, 2), (64, 16 * n)]
/-- A range of virtual frames lies in the translated range. -/
def framesOk (vaddr frames : Nat) : Bool := vaddr % 2 ^ 21 == 0 && decide (vaddr / 2 ^ 21 + frames ≤ 2 ^ 20)
/-- `ALLOC` (Table 14.9). -/
def allocOk (d : Docket) : Bool :=
  let tier := dkF d 32 1
  let stack := dkF d 33 1
  restZero d [(32, 16)] && tier ≤ 1 && (stack == 0xFF || decide (stack < if tier = 0 then 8 else 16)) && dkF d 34 1 < 4
    && 1 ≤ dkF d 36 4 && dkF d 36 4 ≤ 2 ^ 20 && framesOk (dkF d 40 8) (dkF d 36 4)
/-- `FREE`. -/
def freeOk (d : Docket) : Bool := restZero d [(36, 12)] && framesOk (dkF d 40 8) (dkF d 36 4)
/-- `LAUNCH` (Table 14.8), but for what depends on the module's state. -/
def launchOk (d : Docket) : Bool :=
  let n := dkF d 34 2
  let recs := launchRecords d
  1 ≤ n && n ≤ 2560 && 160 + 4 * n ≤ dkLen d
    && restZero d [(32, 30), (64, 16), (96, 64), (160, 4 * n)]
    && dkF d 32 1 < 4 && dkF d 36 4 < 2 ^ 24 && dkF d 60 2 < 2048 && dkF d 64 8 % 64 == 0
    && recs.all (fun x => (clOfId x.1).isSome && x.2.2.2 == 0)
    && (recs.map (·.1)).eraseDups.length == recs.length
    && ((recs.filter (·.2.1)).map (·.2.2.1)).eraseDups.length == (recs.filter (·.2.1)).length
    && (recs.all (·.2.1) || (dkF d 72 8 % 16 == 0 && decide (dkF d 72 8 < 2 ^ 52)))
/-- `COMM`. -/
def commOk (d : Docket) : Bool :=
  let b := dkF d 35 1
  let sel := seg b 5 4
  restZero d ((32, 10) :: (if sel = 2 then [(64, 320)] else [])) && b < 128 && sel != 3 && (sel != 2 || 384 ≤ dkLen d)
    && dkF d 38 2 != 0 && dkF d 36 2 < 4096 && (sel != 1 || (clOfId (dkF d 36 2)).isSome)
/-- `PRESS`. -/
def pressOk (d : Docket) : Bool := restZero d [(32, 3), (40, 8)] && dkF d 34 1 ≤ 2 && dkF d 40 8 % 32 == 0
/-- `MANGLE` (Table 11.6). -/
def mangleOk (d : Docket) : Bool :=
  restZero d [(32, 40)] && 96 ≤ dkLen d && dkF d 34 1 < 4 && 1 ≤ dkF d 35 1 && dkF d 36 4 % 32 == 0
    && (clOfId (dkF d 64 2)).isSome && dkF d 67 1 < 16 && 1 ≤ dkF d 68 4
/-- `EXPORT`, `FITREC` and `COMMIT`. -/
def commAddrOk (d : Docket) : Bool := restZero d [(32, 2), (40, 8)]
/-- `QP` (Table 14.12). DESIGN CHOICE (log 147): the table gives its fields for every ACTION, and one that the ACTION
does not use is ignored, not reserved. -/
def qpOk (d : Docket) : Bool :=
  let act := dkF d 32 1
  restZero d [(32, 12), (48, 48)] && 96 ≤ dkLen d && act ≤ 4 && dkF d 33 1 ≤ 1 && dkF d 34 1 ≤ 2 && dkF d 35 1 ≤ 7
    && dkF d 40 4 < 2 ^ 24 && (!(act == 1 || act == 2) || (1 ≤ dkF d 36 4 && dkF d 36 4 ≤ 4095))
    && (act != 3 || dkF d 88 8 % 4096 == 0)
/-- `POST`. -/
def postOk (d : Docket) : Bool :=
  let n := dkF d 32 2
  1 ≤ n && n ≤ 1000 && 64 + 64 * n ≤ dkLen d && restZero d [(32, 2), (64, 64 * n)]
/-- `WINDOW`. -/
def windowOk (d : Docket) : Bool := restZero d [(32, 4)] && dkF d 32 1 < 16 && dkF d 33 1 < 2
/-- A translation entry holds no reserved bit and, when it maps a frame, a listed place (Table 7.3). -/
def entryOk (e : Nat) : Bool :=
  !bitAt e 3 && decide (e < 2 ^ 32)
    && (!bitAt e 0 || (seg e 8 4 < 24 && (8 ≤ seg e 8 4 || seg e 23 9 < 24576)))
/-- `PHASE` (Table 14.10). -/
def phaseOk (d : Docket) : Bool :=
  let n := dkF d 60 4
  n ≤ 4088 && 96 + 16 * n ≤ dkLen d && restZero d [(32, 64), (96, 16 * n)]
    && dkF d 44 4 < 2 ^ 10 && dkF d 48 4 < 2 ^ 24 && dkF d 52 4 < 2 ^ 24
    && (List.range 8).all (fun b =>
      let w := dkF d (64 + 4 * b) 4
      w < 2 ^ 10 && !bitAt w 3 && w % 8 ≤ 5)
    && (List.range n).all fun i => dkF d (96 + 16 * i) 8 < 2 ^ 25 && entryOk (dkF d (104 + 16 * i) 8)
/-- `MEND`. -/
def mendOk (d : Docket) : Bool :=
  restZero d [(36, 36)] && 72 ≤ dkLen d && seg (dkF d 36 4) 15 3 == 0 && seg (dkF d 36 4) 31 16 != 0
/-- `GUILD`. -/
def guildOk (d : Docket) : Bool :=
  restZero d [(32, 1), (34, 2)] && 1 ≤ dkF d 32 1 && dkF d 32 1 ≤ 5 && dkF d 34 2 < 4096
/-- `APPRENTICE`. -/
def apprenticeOk (d : Docket) : Bool :=
  restZero d [(32, 1), (34, 12)] && dkF d 32 1 ≤ 1 && dkF d 34 2 < 4096 && 1 ≤ dkF d 36 4 && dkF d 36 4 ≤ 4095
    && dkF d 40 4 < 2 ^ 24 && dkF d 44 2 != 0
/-- `INJECT`. -/
def injectOk (d : Docket) : Bool :=
  restZero d [(32, 9)] && classListed (dkF d 32 1) && (dkF d 33 1 == 1 || dkF d 33 1 == 2) && dkF d 34 2 != 0
    && dkF d 36 4 < 2 ^ 19 && dkF d 40 1 < 16

/-- The docket has no non-zero reserved field and no unlisted encoding. -/
def docketOk (d : Docket) : Bool :=
  headerOk d &&
    match dkOp d with
    | 0x01 | 0x02 => moveOk d
    | 0x03 => streamOk d
    | 0x10 => allocOk d
    | 0x11 => freeOk d
    | 0x20 => launchOk d
    | 0x30 => commOk d
    | 0x31 => pressOk d
    | 0x32 => mangleOk d
    | 0x33 | 0x34 | 0x35 => commAddrOk d
    | 0x40 => qpOk d
    | 0x41 => postOk d
    | 0x80 => windowOk d
    | 0x81 => phaseOk d
    | 0x82 => mendOk d
    | 0x83 => restZero d [(32, 2)]
    | 0x84 => guildOk d
    | 0x85 => apprenticeOk d
    | 0x86 => injectOk d
    | 0x87 => restZero d [(36, 12)]
    | _ => restZero d []

/-- The status with which a docket is refused as it starts, if any (R443). -/
def docketRefusal (g : RingSt) (d : Docket) : Option Nat :=
  if g.owner = .f0 ∧ opcodePriv (dkOp d) = true then some stPriv
  else if g.owner = .f0 ∧ dkJob d ≠ g.job.toNat then some stJob
  else if !opcodeListed (dkOp d) then some stUnlistedOp
  else if !docketOk d then some stReserved
  else none

end Sys2Proof.Machine
end

