-- ==== Sys2Proof/Machine/Rings.lean ====
section
/-!
DEFINITION. Command rings (R433–R443): opening and closing, doorbells, fetching, starting and completing dockets, their
replies; the PCIe link and its events (R449, R450); and the registers of the HIF and RING blocks (R455).
-/
namespace Sys2Proof.Machine
open Sys2Proof

/-! ### Replies (R442, R449) -/

/-- The PCIe link is up. -/
def pcieUp (s : State) : Bool := s.hif.rate != 0

/-- Write a reply into the reply ring, and signal the vector if it asks for it. -/
def putReply (s : State) (r : Nat) (p : Reply) : State :=
  let g := s.ring r
  let p := { p with phase := g.lap }
  let s := s.emit (.reply r (g.rtail.toNat % g.replies) p)
  let next := (g.rtail.toNat + 1) % g.replies
  let s := s.updRing r fun g => { g with rtail := BitVec.ofNat 16 next, lap := if next = 0 then !g.lap else g.lap }
  if p.signal && g.irq then msixSend s g.owner g.vector.toNat else s

/-- A reply is due: it is discarded after a Function Level Reset, held while the link is down, at most 64 of them, or
written. -/
def giveReply (s : State) (r : Nat) (p : Reply) : State :=
  let g := s.ring r
  if g.flr then s
  else if !pcieUp s || g.state == 4 then
    s.updRing r fun g =>
      if g.held.length < 64 then { g with held := g.held ++ [p] }
      else { g with lost := if g.lost = 255 then 255 else g.lost + 1 }
  else putReply s r p

/-- The reply to a docket. -/
def replyTo (s : State) (d : Docket) (status : Nat) (detail : DWord) : Reply :=
  { seq := d.seq, opcode := BitVec.ofNat 16 (dkOp d), status := BitVec.ofNat 8 status,
    tag := BitVec.ofNat 64 (fieldAt d.bytes 16 8), detail := detail, count := s.gct.count,
    signal := bitAt (dkFlags d) 0 }

/-- Held replies are written in SEQ order. -/
def writeHeld (s : State) (r : Nat) : State :=
  let l := (s.ring r).held
  l.foldl (fun s p => putReply s r p) (s.updRing r fun g => { g with held := [] })

/-! ### Opening and closing (R433, R434, R436) -/

/-- The function that an agent is. -/
def agFn : Agent → Option Fn
  | .fn0 => some .f0
  | .fn1 => some .f1
  | _ => none
/-- Offset of `HIF_RING_OPEN_LO` in the register space. -/
def hifOpenOff : Nat := 0x20008

/-- Request the open of a ring with its control block at a host address; none can be opened before READY or in
shuttered mode (R494, R501). -/
def ringOpen (s : State) (a : Agent) (rcb : Nat) : State :=
  match agFn a with
  | some f =>
    if s.boot.state ≠ 1 then s
    else if 16 ≤ s.hif.opens.length then { s with hif := { s.hif with openDrop := true } }
    else { s with hif := { s.hif with opens := s.hif.opens ++ [(f, BitVec.ofNat 64 rcb)] } }
  | none => s

/-- RING_OPEN_REQUEST: the write of `HIF_RING_OPEN_HI` with the low half held (R13). -/
def execRingOpenRequest (a : Agent) (v : Word) (s : State) : Ans :=
  .next (ringOpen (dropLo s a hifOpenOff) a (v.toNat * 2 ^ 32 + (heldOf s a hifOpenOff).getD 0))

/-- The lowest-numbered closed ring from `n` on. -/
def firstClosed : Tbl RingSt → Nat → Nat
  | [], n => n
  | (k, g) :: t, n => if n < k then n else if g.state = 0 then n else firstClosed t (n + 1)

/-- A control block has a non-zero reserved field or an unlisted size (R434). -/
def rcbBad (f : Fn) (b : List Byte) : Bool :=
  let slots := fieldAt b 16 4
  let reps := fieldAt b 20 4
  !powerOfTwoIn 64 65536 slots || !powerOfTwoIn 64 65536 reps || fieldAt b 28 1 / 2 != 0 || fieldAt b 29 3 != 0
    || fieldAt b 33 1 != 0 || !allZero (cut b 38 26) || (f == .f1 && fieldAt b 24 2 != 0)

/-- The status of an open, 0 when it succeeds. -/
def openStatus (s : State) (f : Fn) (b : List Byte) : Nat :=
  if 8192 ≤ firstClosed s.hif.ring 0 then stNoRing
  else if rcbBad f b then stReserved
  else if f = .f0 ∧ windowOf s (fieldAt b 24 2) = none then stJob
  else stOk

/-- RING_OPEN_COMPLETE: the block of the oldest request has been read. -/
def execRingOpenComplete (rcb : List Byte) (hostOk : Bool) (s : State) : Ans :=
  match s.hif.opens with
  | [] => .next s
  | (f, addr) :: rest =>
    if !pcieUp s then .next s
    else
      let s := { s with hif := { s.hif with opens := rest } }
      if !hostOk then .next (s.emit (.ringResult f addr stFault 0 0))
      else
        let st := openStatus s f rcb
        if st ≠ stOk then .next (s.emit (.ringResult f addr st 0 0))
        else
          let r := firstClosed s.hif.ring 0
          let gen := (s.ring r).gen + 1
          let s := s.updRing r fun g =>
            { state := 1, reason := g.reason, owner := f, gen := gen
              dbase := BitVec.ofNat 64 (fieldAt rcb 0 8), rbase := BitVec.ofNat 64 (fieldAt rcb 8 8)
              slots := fieldAt rcb 16 4, replies := fieldAt rcb 20 4, job := BitVec.ofNat 16 (fieldAt rcb 24 2)
              vector := BitVec.ofNat 16 (fieldAt rcb 26 2), irq := bitAt (fieldAt rcb 28 1) 0 }
          .next (s.emit (.ringResult f addr stOk r gen.toNat))

/-- A write of `HIF_RING_CLOSE`: the ring stops fetching. -/
def ringCloseWrite (s : State) (a : Agent) (v : Nat) : State :=
  let r := v % 8192
  let g := s.ring r
  let may := match agFn a with | some f => g.owner == f | none => isMp a
  if may && g.state != 0 && g.gen.toNat == seg v 28 13 then s.updRing r fun g => { g with state := 5 } else s

/-- RING_CLOSE. -/
def execRingClose (a : Agent) (v : Word) (s : State) : Ans := .next (ringCloseWrite s a v.toNat)

/-- RING_CLOSE_COMPLETE: the accepted dockets have completed and their replies are written. -/
def execRingCloseComplete (r : Ring) (s : State) : Ans :=
  let g := s.ring r.val
  if g.state = 5 ∧ g.queue = [] ∧ g.running = none ∧ g.held = [] then
    .next (s.updRing r.val fun g =>
      { g with state := 0, flr := false, gen := if g.flr then g.gen + 1 else g.gen })
  else .next s

/-! ### Doorbells (R435, R440) -/

/-- The doorbell is taken: the ring is the function's, open, of its generation, and no reserved bit is set. -/
def doorbellOk (f : Fn) (g : RingSt) (v : DWord) : Bool :=
  g.owner == f && g.state != 0 && g.gen.toNat == seg v.toNat 47 32 && seg v.toNat 63 49 == 0

/-- A doorbell write. -/
def doorbell (s : State) (f : Fn) (r : Nat) (v : DWord) : State :=
  let g := s.ring r
  if !doorbellOk f g v then { s with hif := { s.hif with dbDrop := true } }
  else
    let n := v.toNat
    let resume := bitAt n 48 && g.state != 5
    let s := s.updRing r fun g =>
      { g with tail := BitVec.ofNat 16 (seg n 15 0 % g.slots), rhead := BitVec.ofNat 16 (seg n 31 16 % g.replies)
               head := if resume then BitVec.ofNat 16 (g.companion.toNat % g.slots) else g.head
               state := if resume then 1 else g.state }
    if resume then writeHeld s r else s

/-- DOORBELL_TAIL. -/
def execDoorbellTail (f : Fn) (r : Ring) (v : DWord) (s : State) : Ans := .next (doorbell s f r.val v)
/-- DOORBELL_RESUME. -/
def execDoorbellResume (f : Fn) (r : Ring) (v : DWord) (s : State) : Ans := .next (doorbell s f r.val v)
/-- DOORBELL_COMPANION_WRITE. -/
def execDoorbellCompanionWrite (f : Fn) (r : Ring) (v : DWord) (s : State) : Ans :=
  let g := s.ring r.val
  if g.owner = f ∧ g.state ≠ 0 then
    .next (s.updRing r.val fun g => { g with companion := BitVec.ofNat 16 v.toNat })
  else .next s

/-! ### Fetching (R437–R439) -/

/-- Slots that are pending. -/
def pendingSlots (g : RingSt) : Nat := (g.tail.toNat + g.slots - g.head.toNat % g.slots) % g.slots
/-- LEN is out of range for the ring. -/
def lenBad (g : RingSt) (n : Nat) : Bool := n % 64 != 0 || n < 64 || 65536 < n || decide (64 * (g.slots - 1) < n)
/-- Bytes of dockets accepted ahead of the one being executed. -/
def aheadBytes (g : RingSt) : Nat := g.queue.foldl (fun n d => n + d.bytes.length) 0
/-- The status of a docket whose bytes have all been fetched, 0 when it is accepted. -/
def fetchStatus (g : RingSt) (b : List Byte) : Nat :=
  if crc32c (paste b 28 (zeros 4)) ≠ BitVec.ofNat 32 (fieldAt b 28 4) then stBadSum
  else if BitVec.ofNat 32 (fieldAt b 8 4) ≠ g.acc + 1 then stBadSeq
  else if fieldAt b 12 2 ≠ g.gen.toNat then stBadGen
  else stOk

/-- A docket that is not accepted: its reply, and the ring halts (R439). -/
def fetchFail (s : State) (r : Nat) (d : Docket) (status : Nat) : State :=
  let s := s.updRing r fun g => { g with state := 3, reason := BitVec.ofNat 8 status }
  giveReply s r (replyTo s d status 0)

/-- DOCKET_FETCH: `bytes` are those of the docket at the head of the ring. -/
def execDocketFetch (r : Ring) (bytes : List Byte) (s : State) : Ans :=
  let g := s.ring r.val
  if g.state ≠ 1 ∨ pcieUp s = false ∨ pendingSlots g = 0 ∨ bytes.length < 64 then .next s
  else
    let len := fieldAt bytes 4 4
    let b := bytes.take len
    let d : Docket := { bytes := b, seq := BitVec.ofNat 32 (fieldAt bytes 8 4) }
    if lenBad g len then .next (fetchFail s r.val { d with bytes := bytes } stBadLen)
    else if 64 * pendingSlots g < len ∨ bytes.length < len ∨ 65536 < aheadBytes g + len then .next s
    else
      let st := fetchStatus g b
      if st ≠ stOk then .next (fetchFail s r.val d st)
      else .next (s.updRing r.val fun g =>
        { g with acc := d.seq, queue := g.queue ++ [{ d with late := acceptsLate s d }]
                 head := BitVec.ofNat 16 ((g.head.toNat + len / 64) % g.slots) })

/-! ### Starting and completing (R441–R443, R482) -/

/-- DOCKET_START: the dispatcher starts one docket; a docket that R443 refuses takes no effect. -/
def execDocketStart (s : State) : Ans :=
  match startChoice s with
  | none => .next s
  | some (r, g, d) =>
    let reserve := (diesCharged s r d).foldl (fun t die => upd 0 t die (· + dkCost s r d die)) s.pwr.reserve
    let s := s.updRing r fun g =>
      { g with running := some d, queue := g.queue.drop 1, result := none, began := false, moved := 0
               waits := 0, starving := false, forced := false }
    let s := { s with hif := { s.hif with lastRing := some r } }
    .next (match docketRefusal g d with
      | some st => finishDocket s r st 0
      | none => { s with pwr := { s.pwr with reserve := reserve } })

/-- The running docket of a ring whose effect is finished completes, and its reply is due. -/
def completeDocket (s : State) (r : Nat) : State :=
  let g := s.ring r
  match g.running, g.result with
  | some d, some (st, detail) =>
    let s := s.updRing r fun g => { g with running := none, result := none, began := false, moved := 0, done := d.seq }
    giveReply s r (replyTo s d st.toNat detail)
  | _, _ => s

/-- DOCKET_COMPLETE. -/
def execDocketComplete (r : Ring) (s : State) : Ans := .next (completeDocket s r.val)

/-- DOCKET_STARVING. -/
def execDocketStarving (r : Ring) (s : State) : Ans :=
  let g := s.ring r.val
  if (readyDocket g).isSome = true ∧ g.starving = false ∧ s.pwr.starve.toNat ≤ g.waits then
    .next (s.updRing r.val fun g => { g with starving := true, waits := 0 })
  else .next s

/-- DOCKET_STARVE_FORCE. -/
def execDocketStarveForce (r : Ring) (s : State) : Ans :=
  let g := s.ring r.val
  if (readyDocket g).isSome = true ∧ g.starving = true ∧ s.pwr.starve.toNat ≤ g.waits then
    .next (s.updRing r.val fun g => { g with forced := true })
  else .next s

/-! ### The PCIe link (R429, R449, R450, R490) -/

/-- Bytes of a `WRITE` that have not been written are stained (Table 14.11). -/
def abandonWrite (s : State) (d : Docket) (moved : Nat) : State :=
  match windowOf s (dkJob d) with
  | some w => bulkStain s (srcUnit 0 unitHost) w (fieldAt d.bytes 48 8 + moved) (fieldAt d.bytes 56 8 - moved)
  | none => s

/-- The host transfer of a running docket is abandoned. -/
def abandonHost (s : State) (r : Nat) (g : RingSt) : State :=
  match g.running, g.result with
  | some d, none =>
    match dkOp d with
    | 0x01 => finishDocket (abandonWrite s d g.moved) r stLink g.moved
    | 0x02 | 0x41 => finishDocket s r stLink g.moved
    | 0x87 =>
      let s := if s.guard.bookRing = r ∧ s.guard.bookRunning = false then
        { s with guard := { s.guard with book := none } } else s
      finishDocket s r stLink 0
    | _ => s
  | _, _ => s

/-- The link goes down: rings enter LINKDOWN and host transfers are abandoned. -/
def linkDown (s : State) : State :=
  let s := { s with hif := { s.hif with rate := 0, width := 0, flit := false } }
  s.hif.ring.foldl (fun s e =>
    let s := abandonHost s e.1 e.2
    s.updRing e.1 fun g => if g.state = 1 ∨ g.state = 3 then { g with state := 4 } else g) s

/-- PCIE_LINK_DOWN. -/
def execPcieLinkDown (s : State) : Ans := .next (linkDown s)

/-- PCIE_LINK_UP: a closing ring writes the replies it held; the others wait for RESUME. -/
def execPcieLinkUp (rate : Fin 7) (width : Fin 17) (flit : Bool) (s : State) : Ans :=
  if rate.val ≠ 0 ∧ width.val ≠ 0 ∧ flit = decide (rate.val = 6) ∧ s.pins.pcieRefclk = true ∧ s.boot.held = false then
    let s := { s with
      hif := { s.hif with rate := BitVec.ofNat 4 rate.val, width := BitVec.ofNat 5 width.val, flit := flit }
      pins := { s.pins with perstHigh := true } }
    let s := sendPended (sendPended s .f0) .f1
    .next (s.hif.ring.foldl (fun s e => if e.2.state = 5 then writeHeld s e.1 else s) s)
  else .next s

/-- PCIE_FLR: every ring of the function closes once its accepted dockets complete. -/
def execPcieFlr (f : Fn) (s : State) : Ans :=
  let s := s.hif.ring.foldl (fun s e =>
    if e.2.owner = f ∧ e.2.state ≠ 0 then
      (abandonHost s e.1 e.2).updRing e.1 fun g => { g with state := 5, flr := true, held := [] }
    else s) s
  let k := fnNum f
  .next { s with
    hif := { s.hif with opens := s.hif.opens.filter (·.1 != f) }
    irq := { s.irq with msixOff := s.irq.msixOff ||| BitVec.ofNat 2 (2 ^ k)
                        unmasked := s.irq.unmasked.filter (·.1 != k), pba := s.irq.pba.filter (·.1 != k) } }

/-- PCIE_PERST_ASSERT: the port alone is reset. -/
def execPciePerstAssert (s : State) : Ans :=
  .next (linkDown { s with pins := { s.pins with perstHigh := false } })

/-! ### Registers (R455, Tables 14.13–14.18) -/

/-- The agent sees the fields of a ring. -/
def seesRing (a : Agent) (g : RingSt) : Bool :=
  match agFn a with
  | some f => g.owner == f
  | none => isMp a
/-- STATE of a ring as it reads. -/
def ringState (g : RingSt) : Nat :=
  if g.state = 1 ∧ (g.queue ≠ [] ∨ g.running ≠ none) then 2 else g.state.toNat

/-- Registers of the HIF block. -/
def hifReg (s : State) (a : Agent) (o : Nat) : Option Reg :=
  let h := s.hif
  match o with
  | 0x00 =>
    Reg.rw (h.rate.toNat + 2 ^ 4 * h.width.toNat + 2 ^ 9 * b2n h.flit
        + 2 ^ 10 * (h.ring.filter fun e => e.2.state != 0 && seesRing a e.2).length
        + 2 ^ 24 * b2n h.openDrop + 2 ^ 25 * b2n h.dbDrop) fun v =>
      { s with hif := { h with openDrop := h.openDrop && !bitAt v 24, dbDrop := h.dbDrop && !bitAt v 25 } }
  | 0x08 => Reg.wo64If true fun v => ringOpen s a v
  | 0x10 => Reg.wo_ (ringCloseWrite s a)
  | _ => none

/-- Words of the RING block. -/
def ringReg (s : State) (a : Agent) (o : Nat) : Option Reg :=
  let g := s.ring (o / 16)
  if !seesRing a g then none
  else
    match o % 16 with
    | 0x0 => Reg.ro (ringState g + 2 ^ 3 * g.reason.toNat + 2 ^ 11 * fnNum g.owner + 2 ^ 16 * g.gen.toNat)
    | 0x4 => Reg.ro g.acc.toNat
    | 0x8 => Reg.ro g.done.toNat
    | 0xC => Reg.ro (g.head.toNat + 2 ^ 16 * g.held.length + 2 ^ 24 * g.lost.toNat)
    | _ => none

end Sys2Proof.Machine
end

