-- ==== Sys2Proof/Machine/Dockets.lean ====
section
/-!
DEFINITION. What each docket does (R443–R448, Table 14.6): transfers, streams, memory, jobs, collectives, training
support and the dockets of function 1; and the end of a job (R446).
-/
namespace Sys2Proof.Machine
open Sys2Proof

/-- Perform the running docket of a ring, if it is of the opcode, is not finished, and has not been performed. -/
def dkDo (s : State) (r op : Nat) (f : State → Docket → State) : State :=
  match (s.ring r).running with
  | some d =>
    if dkOp d = op ∧ (s.ring r).result = none ∧ (s.ring r).began = false then
      f s d
    else s
  | none => s

/-- The docket is performed and its effect goes on. -/
def dkBegan (s : State) (r : Nat) : State := s.updRing r fun g => { g with began := true }

/-- Perform a docket of a job in its window: `JOB` when no enabled window is bound to its JOB. -/
def dkInWindow (s : State) (r op : Nat) (f : State → Docket → Nat → State) : State :=
  dkDo s r op fun s d =>
    match windowOf s (dkJob d) with
    | some w => f s d w
    | none => finishDocket s r stJob 0

/-- SOURCE of the host unit. -/
def hostSrc : Nat := srcUnit 0 unitHost

/-! ### NOP, WRITE, READ, STREAM -/

/-- NOP_DOCKET. -/
def execNopDocket (r : Ring) (s : State) : Ans := .next (dkDo s r.val 0x00 fun s _ => finishDocket s r.val stOk 0)

/-- Write whole sectors, unstained, up to the first that faults: the bytes written, and whether one faulted. -/
def moveIn (win : Nat) : Nat → State → Nat → List Byte → State × Nat × Bool
  | 0, s, _, _ => (s, 0, false)
  | n + 1, s, a, b =>
    match meetXlat s hostSrc win (xlate s win a true) with
    | (s, .fault k, inj) => (xlatFault s hostSrc win a k true true inj, 0, true)
    | (s, .ok p _, _) =>
      let (s, m, f) := moveIn win n (secWrite s p (b.take 32) wholeEn false) (a + 32) (b.drop 32)
      (s, m + 32, f)

/-- WRITE_DOCKET: `data` is what the host has returned since the last one; a fault completes the docket with `FAULT`
and, as every faulting write does, stops the job (R204, R448). -/
def execWriteDocket (r : Ring) (data : List Byte) (hostOk : Bool) (s : State) : Ans :=
  .next (dkInWindow s r.val 0x01 fun s d w =>
    if !pcieUp s then s
    else
      let total := dkF d 56 8
      let old := (s.ring r.val).moved
      let n := min (data.length / 32) ((total - old) / 32)
      let (s, m, f) := moveIn w n s (dkF d 48 8 + old) data
      let now := old + m
      let s := s.updRing r.val fun g => { g with moved := now }
      if f then jobStop (finishDocket s r.val stFault now) w { cause := 4, cls := evXlatFault }
      else if now = total then finishDocket s r.val stOk now
      else if !hostOk then finishDocket s r.val stFault now
      else s)

/-- Read whole sectors up to the first that faults: the bytes, whether one was stained, and whether one faulted. -/
def moveOut (win : Nat) : Nat → State → Nat → State × List Byte × Bool × Bool
  | 0, s, _ => (s, [], false, false)
  | n + 1, s, a =>
    match meetXlat s hostSrc win (xlate s win a false) with
    | (s, .fault k, inj) => (xlatFault s hostSrc win a k false false inj, [], false, true)
    | (s, .ok p _, _) =>
      let (s, b, st) := winRead s win p
      let (s, t, st', f) := moveOut win n s (a + 32)
      (s, b ++ t, st || st', f)

/-- READ_DOCKET: a transfer of stained data is performed, completes with `STAINED` and stops the job (R448). -/
def execReadDocket (r : Ring) (hostOk : Bool) (s : State) : Ans :=
  .next (dkInWindow s r.val 0x02 fun s d w =>
    if !pcieUp s then s
    else if !hostOk then finishDocket s r.val stFault 0
    else
      let (s, b, st, f) := moveOut w (dkF d 56 8 / 32) s (dkF d 48 8)
      let s := if b = [] then s else s.emit (.hostWrite (BitVec.ofNat 64 (dkF d 40 8)) b)
      if f then finishDocket s r.val stFault b.length
      else meetExit s w hostSrc st (fun s => stainExit (finishDocket s r.val stStained b.length) w hostSrc (dkF d 48 8))
        fun s => finishDocket s r.val stOk b.length)

/-- STREAM_DOCKET: the block waits until the stream queue has room (R117) and the cluster's island runs (R43). -/
def execStreamDocket (r : Ring) (s : State) : Ans :=
  .next (dkDo s r.val 0x03 fun s d =>
    match fedCluster s r.val with
    | none => finishDocket s r.val stJob 0
    | some q =>
      if decide (8 ≤ (s.clu q).blocks.length) || islandStopped s q then s
      else
        let words := (List.range (dkF d 32 2)).map fun i => BitVec.ofNat 128 (dkF d (64 + 16 * i) 16)
        finishDocket (s.updClu q fun k => { k with blocks := k.blocks ++ [{ seq := d.seq, words := words }] })
          r.val stOk 0)

/-! ### ALLOC, FREE, WINDOW (R447, R448, R196) -/

/-- Frames of a stack of a tier. -/
def framesOf (tier : Nat) : Nat := if tier = 0 then 24576 else reserveFrame
/-- LOC of a stack of a tier. -/
def locOf (tier stack : Nat) : Nat := if tier = 0 then stack else 8 + stack
/-- An entry of some window maps the frame. -/
def frameMapped (s : State) (loc f : Nat) : Bool :=
  s.mem.table.any fun e => entV e.2 && entLoc e.2 == loc && entFrame e.2 == f
/-- A switch under way is to map the frame, or to move a page there. -/
def framePromised (s : State) (loc f : Nat) : Bool :=
  match s.slc.req with
  | some q => q.items.any fun i => entV i.entry && entLoc i.entry == loc && entFrame i.entry == f
  | none => false
/-- Frames of a stack that can be mapped: none that a switch under way is about to map, since it could then lie in two
windows (R198, R234). -/
def freeFrames (s : State) (tier stack : Nat) : List Nat :=
  let loc := locOf tier stack
  (List.range (framesOf tier)).filter fun f => !groupOut s loc f && !frameMapped s loc f && !framePromised s loc f
/-- Stack of frame `i` of a request. -/
def allocStack (tier sel i : Nat) : Nat := if sel = 0xFF then i % (if tier = 0 then 8 else 16) else sel
/-- Frames that a request of `n` wants of a stack. -/
def allocShare (tier sel n stack : Nat) : Nat := ((List.range n).filter fun i => allocStack tier sel i = stack).length

/-- The stacks that fall short, with the frames that each lacks. -/
def allocShort (s : State) (tier sel n : Nat) : List (Nat × Nat) :=
  (List.range (if tier = 0 then 8 else 16)).filterMap fun k =>
    let want := allocShare tier sel n k
    let have_ := (freeFrames s tier k).length
    if have_ < want then some (k, want - have_) else none

/-- Map one frame of a stack: which of the free frames is taken is open (log 37). -/
def mapOne (s : State) (win v tier stack : Nat) (w c : Bool) (acct : Nat) : State :=
  let l := freeFrames s tier stack
  let f := l.getD (Config.freeNat s.free % l.length) 0
  (setEntry s win v (mkEntry w c (locOf tier stack) f acct)).useFree

/-- ALLOC_DOCKET. -/
def execAllocDocket (r : Ring) (s : State) : Ans :=
  .next (dkInWindow s r.val 0x10 fun s d w =>
    let tier := dkF d 32 1
    let sel := dkF d 33 1
    let flags := dkF d 34 1
    let n := dkF d 36 4
    let v := dkF d 40 8 / 2 ^ 21
    if (List.range n).any fun i => entV (tableEntry s w (v + i)) then finishDocket s r.val stRefused 0
    else
      match allocShort s tier sel n with
      | [] =>
        let s := (List.range n).foldl (fun s i =>
          mapOne s w (v + i) tier (allocStack tier sel i) (bitAt flags 0) (bitAt flags 1) (dkF d 35 1)) s
        finishDocket s r.val stOk 0
      | short =>
        let lack := short.foldl (fun n x => n + x.2) 0
        let who := match short with | [x] => x.1 | _ => 31
        finishDocket s r.val stShort (lack * 2 ^ 21 % 2 ^ 48 + 2 ^ 48 * tier + 2 ^ 52 * who))

/-- FREE_DOCKET. -/
def execFreeDocket (r : Ring) (s : State) : Ans :=
  .next (dkInWindow s r.val 0x11 fun s d w =>
    if (s.jobAt w).running then finishDocket s r.val stBusy 0
    else
      let v := dkF d 40 8 / 2 ^ 21
      let s := (List.range (dkF d 36 4)).foldl (fun s i => setEntry s w (v + i) 0) s
      finishDocket (dropXlat s) r.val stOk 0)

/-- WINDOW_DOCKET. -/
def execWindowDocket (r : Ring) (s : State) : Ans :=
  .next (dkDo s r.val 0x80 fun s d =>
    let w := dkF d 32 1
    let en := dkF d 33 1 = 1
    let job := dkF d 34 2
    if (s.jobAt w).running then finishDocket s r.val stBusy 0
    else if en ∧ ((List.range 16).any fun i =>
        i != w && s.mem.twEn.getLsbD i && (Tbl.get 0 s.mem.twJob i).toNat == job) = true then
      finishDocket s r.val stRefused 0
    else
      let bit := BitVec.ofNat 16 (2 ^ w)
      finishDocket { s with mem := { s.mem with
          twEn := if en then s.mem.twEn ||| bit else s.mem.twEn &&& ~~~bit
          twJob := Tbl.set 0 s.mem.twJob w (BitVec.ofNat 16 job) } } r.val stOk 0)

/-! ### LAUNCH and STOP (R444, R445, R111, R136) -/

/-- A ring of a streamed-mode record: of function 0, open, of the JOB, and feeding no other running cluster (R445). -/
def streamRingOk (s : State) (ring job : Nat) : Bool :=
  let g := s.ring ring
  g.owner == .f0 && g.state != 0 && g.state != 5 && g.job.toNat == job && (fedCluster s ring).isNone

/-- The clusters of a running job. -/
def servingClusters (s : State) : List Nat := s.hif.job.flatMap fun e => if e.2.running then e.2.clusters else []

/-- Load one cluster for a job (R111, R137): the scratchpads, the mask registers and the signals on their way stay as
they are; everything else is cleared. -/
def loadCluster (old : Cluster) (src : Bool) (ring : Nat) (entry : DWord) (ctxto : Nat) (args : Tbl DWord) (w : Nat) :
    Cluster :=
  { (Cluster.updCores { core := old.core : Cluster } fun _ k => { pad := k.pad, padClean := k.padClean }) with
    sreg := args, mreg := old.mreg, src := src, ring := BitVec.ofNat 13 ring
    entry := if src then old.entry else entry, pc := if src then 0 else entry
    ctxTimeout := BitVec.ofNat 24 ctxto, state := 1, win := some (Fin.ofNat 16 w), waiting := true }

/-- The arguments s1–s8 of a `LAUNCH`. -/
def launchArgs (d : Docket) : Tbl DWord :=
  (List.range 8).foldl (fun t i => Tbl.set 0 t (i + 1) (BitVec.ofNat 64 (dkF d (96 + 8 * i) 8))) []

/-- The job that a `LAUNCH` starts. -/
def launchJob (d : Docket) (r : Nat) : Job :=
  let f := dkF d 32 1
  { running := true, job := BitVec.ofNat 16 (dkJob d), det := bitAt f 0, inj := bitAt f 1
    seed := BitVec.ofNat 64 (dkF d 48 8), gstep := BitVec.ofNat 32 (dkF d 56 4), ts := BitVec.ofNat 64 (dkF d 40 8)
    endvec := BitVec.ofNat 16 (dkF d 60 2), endblk := BitVec.ofNat 64 (dkF d 64 8)
    clusters := (launchPlaces d).foldl (fun l q => insertUp q l) [], ring := r }

/-- Start a job in window `w`; a pattern book that runs on a region of it yields (R406). -/
def launch (s : State) (r : Nat) (d : Docket) (w : Nat) : State :=
  let s := if ((launchPlaces d).filterMap (clRegion s)).any s.pwr.bookGrant.contains then bookYield s else s
  let late := startsLate s r d
  let s := notMissed s r d
  let j := launchJob d r
  let bit := BitVec.ofNat 16 (2 ^ w)
  let s := s.cl.foldl (fun s e =>
    if e.2.win.map (·.val) = some w then s.updClu e.1 fun k => { k with win := none } else s) s
  let s := s.updJob w fun _ => j
  let s := { s with
    slc := { s.slc with role := Tbl.set 0 s.slc.role w (BitVec.ofNat 8 (dkF d 33 1)) }
    gct := { s.gct with det := if j.det then s.gct.det ||| bit else s.gct.det &&& ~~~bit
                        nondet := [1, 2, 3].foldl (fun t c => Tbl.set 0 t (w * 4 + c) 0) s.gct.nondet } }
  let args := launchArgs d
  let entry := BitVec.ofNat 64 (dkF d 72 8)
  let s := (launchRecords d).foldl (fun s x =>
    match clOfId x.1 with
    | some q => s.updClu q fun k => loadCluster k x.2.1 x.2.2.1 entry (dkF d 36 4) args w
    | none => s) s
  let held := s.slc.holdLaunch
  let s := { s with slc := { s.slc with holdLaunch := false }
                    press := { s.press with
                      holdJobs := (s.press.holdJobs.filter (· != j.job)) ++ if held then [j.job] else []
                      saved := if s.press.job = j.job then [] else s.press.saved } }
  if late then lateLaunch s w else s

/-- A `LAUNCH` has to wait for the end of a switch (R304), or is rejected with a status. -/
inductive LaunchGate where
  | go | wait | reject (status : Nat)
  deriving DecidableEq, Repr

/-- What the slice allows (R292, R304, R305, R422): during a switch to a slice that the module belongs to, the
`LAUNCH` is taken as one for the new slice (log 38). -/
def launchGate (s : State) : LaunchGate :=
  match s.slc.req with
  | some q => if bitAt q.slcId.toNat 8 then .wait else .reject stBusy
  | none => if s.slc.failed || s.guard.gStopped || !s.slc.member then .reject stJob else .go

/-- LAUNCH_DOCKET. -/
def execLaunchDocket (r : Ring) (s : State) : Ans :=
  .next (dkInWindow s r.val 0x20 fun s d w =>
    if (s.jobAt w).running then finishDocket s r.val stBusy 0
    else if (launchPlaces d).any (fun q => (servingClusters s).contains q)
        || (launchRecords d).any (fun x => x.2.1 && !streamRingOk s x.2.2.1 (dkJob d)) then
      finishDocket s r.val stReserved 0
    else
      match launchGate s with
      | .wait => s
      | .reject st => finishDocket s r.val st 0
      | .go => launch (dkBegan s r.val) r.val d w)

/-- STOP_DOCKET. -/
def execStopDocket (r : Ring) (s : State) : Ans :=
  .next (dkInWindow s r.val 0x21 fun s _ w =>
    if (s.jobAt w).running then jobStop (dkBegan s r.val) w { cause := 5 } else finishDocket s r.val stJob 0)

/-! ### COMM, PRESS, MANGLE, EXPORT, FITREC, COMMIT -/

/-- The record that a `COMM` writes (Table 10.2). -/
def commRecord (d : Docket) : Comm :=
  let b := dkF d 35 1
  { valid := bitAt b 6, job := BitVec.ofNat 16 (dkJob d), epoch := BitVec.ofNat 8 (dkF d 34 1), roles := BitVec.ofNat 4 b
    clsel := BitVec.ofNat 2 (seg b 5 4), cluster := BitVec.ofNat 12 (dkF d 36 2), hold := BitVec.ofNat 16 (dkF d 38 2)
    doneBase := BitVec.ofNat 16 (dkF d 40 2)
    mask := if seg b 5 4 = 2 then (List.range 2560).filter fun q => (byteAt d.bytes (64 + q / 8)).getLsbD (q % 8) else [] }

/-- COMM_DOCKET. -/
def execCommDocket (r : Ring) (s : State) : Ans :=
  .next (dkDo s r.val 0x30 fun s d =>
    finishDocket { s with coll := { s.coll with comm := Tbl.set {} s.coll.comm (dkF d 32 2) (commRecord d) } } r.val stOk 0)

/-- PRESS_DOCKET (R345, R346). A table that is registered anew has no copy of a commit yet (R360). -/
def execPressDocket (r : Ring) (s : State) : Ans :=
  .next (dkDo s r.val 0x31 fun s d =>
    let job := BitVec.ofNat 16 (dkJob d)
    if s.press.job ≠ job ∧ pressJobRuns s = true then finishDocket s r.val stBusy 0
    else
      let comm := BitVec.ofNat 16 (dkF d 32 2)
      let p := s.press
      let p := if p.job = job then p else { p with tables := [], saved := [] }
      let tbl := BitVec.ofNat 64 (dkF d 40 8)
      let same := pressJobRuns s && p.tables.contains (comm, tbl)
      finishDocket { s with press := { p with
          job := job, mode := BitVec.ofNat 2 (dkF d 34 1), saved := if same then p.saved else Tbl.erase p.saved comm.toNat
          tables := p.tables.filter (·.1 != comm) ++ [(comm, tbl)] } } r.val stOk 0)

/-- MANGLE_DOCKET: the docket completes when the plan ends (R368). -/
def execMangleDocket (r : Ring) (s : State) : Ans :=
  .next (dkInWindow s r.val 0x32 fun s d _ =>
    let c := s.commAt (dkF d 32 2)
    if s.mgl.running then finishDocket s r.val stBusy 0
    else if !c.valid || c.job.toNat != dkJob d then finishDocket s r.val stJob 0
    else mglStart (dkBegan s r.val) (dkJob d) (cut d.bytes 32 64))

/-- Write a manifest of the docket's communicator at its address. -/
def putManifest (s : State) (r : Nat) (d : Docket) (w : Nat) (b : List Byte) (st : Bool) : State :=
  let (s, f) := devPut s hostSrc w (dkF d 40 8 : Nat) b st
  if f then jobStop (finishDocket s r stFault 0) w { cause := 4, cls := evXlatFault } else finishDocket s r stOk 0

/-- A step of a communicator's table is being applied; one that waits for a commit is not (R359, R364). -/
def stepApplying (s : State) (comm : BitVec 16) : Bool :=
  s.press.steps.any fun p => (p.comm == comm || p.segs.any (·.key.comm == comm)) && p.global.isSome
    && (p.applied || s.press.held.isNone)

/-- STEP and version of the last committed step of a table: those of the copy taken at the last commit while a step of
it is held, and the header's otherwise. -/
def committedOf (s : State) (comm : BitVec 16) (tbl : Nat) : State × Nat × Bool :=
  let (s, h) := headerCopy s tbl
  let held := match s.press.held with | some (c, _) => c == comm | none => false
  match held, s.press.saved.find? (·.1 == comm.toNat) with
  | true, some (_, p) => (s, p.step.toNat, p.cur)
  | true, none => (s, h.step.toNat - 1, !h.cur)
  | false, _ => (s, h.step.toNat, h.cur)

/-- EXPORT_DOCKET: a stain in the committed version is an exit, and the export is not performed (R364, Table 13.5). -/
def execExportDocket (r : Ring) (s : State) : Ans :=
  .next (dkInWindow s r.val 0x33 fun s d w =>
    let comm := BitVec.ofNat 16 (dkF d 32 2)
    match tableOf s comm with
    | none => finishDocket s r.val stJob 0
    | some tbl =>
      if s.press.job.toNat ≠ dkJob d then finishDocket s r.val stJob 0
      else if stepApplying s comm then s
      else
        let (s, step, ver) := committedOf s comm tbl
        let (s, b, st) := manifest s comm tbl step ver
        meetExit s w (pressSrc 0) st (fun s => finishDocket (stainExit s w (pressSrc 0) tbl) r.val stStopped 0)
          fun s => putManifest s r.val d w b false)

/-- FITREC_DOCKET (R410). -/
def execFitrecDocket (r : Ring) (s : State) : Ans :=
  .next (dkInWindow s r.val 0x34 fun s d w =>
    let comm := BitVec.ofNat 16 (dkF d 32 2)
    match tableOf s comm, s.press.held with
    | some tbl, some (c, step) =>
      if c ≠ comm ∨ s.press.job.toNat ≠ dkJob d then finishDocket s r.val stJob 0
      else
        let (s, h) := headerCopy s tbl
        let (s, b, st) := manifest s comm tbl step.toNat h.cur
        putManifest s r.val d w b st
    | _, _ => finishDocket s r.val stJob 0)

/-- COMMIT_DOCKET: a `COMMIT` that names a step already committed has no effect (R358). -/
def execCommitDocket (r : Ring) (s : State) : Ans :=
  .next (dkInWindow s r.val 0x35 fun s d _ =>
    if s.press.job.toNat = dkJob d then
      finishDocket (commitNamed s (BitVec.ofNat 16 (dkF d 32 2)) (dkF d 40 8)) r.val stOk 0
    else finishDocket s r.val stJob 0)

/-! ### PHASE (R300, R303, R304, R503) -/

/-- The request of a `PHASE` docket. -/
def phaseReq (s : State) (r : Nat) (d : Docket) (bringup : Bool) : PhaseReq :=
  { td := if bringup then s.gct.count else BitVec.ofNat 64 (dkF d 32 8), limit := BitVec.ofNat 32 (dkF d 40 4)
    slcId := BitVec.ofNat 32 (dkF d 44 4), tlSlice := BitVec.ofNat 32 (dkF d 48 4), slcMap := BitVec.ofNat 32 (dkF d 52 4)
    fence := BitVec.ofNat 32 (dkF d 56 4), shelf := (List.range 8).map fun b => BitVec.ofNat 32 (dkF d (64 + 4 * b) 4)
    items := (List.range (dkF d 60 4)).map fun i =>
      let a := dkF d (96 + 16 * i) 8
      { win := BitVec.ofNat 4 a, vframe := BitVec.ofNat 20 (a / 16), move := bitAt a 24
        entry := BitVec.ofNat 64 (dkF d (104 + 16 * i) 8) }
    ring := r, bringup := bringup }

/-- The slice that a request names is one that the module can belong to: its map is valid (R294), its box lies in the
torus, and a member lies in its box (R288). -/
def phaseMapOk (s : State) (q : PhaseReq) : Bool :=
  let size := s.tl.size.toNat
  let base := seg q.tlSlice.toNat 11 0
  let k := seg q.tlSlice.toNat 23 12
  mapValid size base k q.slcMap.toNat
    && (List.range 4).all (fun d => decide (dimOf k d ≤ dimOf size d) && decide (dimOf base d ≤ dimOf size d))
    && (!bitAt q.slcId.toNat 8 || (List.range 4).all fun d =>
      let n := dimOf size d + 1
      decide ((dimOf (myCoord s) d + n - dimOf base d) % n ≤ dimOf k d))

/-- The entry names a frame of the firmware reserve, which is never in a window (R216). -/
def entReserved (e : DWord) : Bool := entV e && decide (8 ≤ entLoc e) && decide (reserveFrame ≤ entFrame e)

/-- The items would map a frame of the reserve (R216), or a frame into two windows (R198, R234): a frame that another
window holds is free of it only by an item that the rewrite carries out, since a move may never complete (log 136). -/
def phaseClash (s : State) (q : PhaseReq) : Bool :=
  let key := fun (i : PhaseItem) => i.win.toNat * 2 ^ 20 + i.vframe.toNat
  let same := fun (a b : DWord) => entLoc a == entLoc b && entFrame a == entFrame b
  q.items.any fun i => entReserved i.entry || entV i.entry &&
    ((q.items.any fun j => entV j.entry && i.win != j.win && same i.entry j.entry)
      || s.mem.table.any fun e => entV e.2 && e.1 / 2 ^ 20 != i.win.toNat && same i.entry e.2
          && !q.items.any fun j => !j.move && key j == e.1)

/-- The docket brings a module of no slice and no job into a slice that it names the module a member of (R503). -/
def phaseBrings (s : State) (d : Docket) : Bool := !s.slc.member && !anyJob s && bitAt (dkF d 44 4) 8

/-- PHASE_DOCKET: one that brings a module up performs the rewrite at once (R503, log 39). -/
def execPhaseDocket (r : Ring) (s : State) : Ans :=
  .next (dkDo s r.val 0x81 fun s d =>
    if s.slc.req.isSome then finishDocket s r.val stBusy 0
    else
      let bringup := phaseBrings s d
      let q := phaseReq s r.val d bringup
      if !phaseMapOk s q || phaseClash s q then finishDocket s r.val stRefused 0
      else
        let late := startsLate s r.val d
        let s := dkBegan (notMissed s r.val d) r.val
        if bringup then phaseRewrite ({ s with slc := { s.slc with req := some q, rounds := 0 } }.setStep 3) q
        else
          let s := { s with slc := { s.slc with req := some { q with late := late }, rounds := 0 } }.setStep 1
          detectAll s evLateApply (srcUnit 0 unitSlice) late latePhase id)

/-! ### MEND, REBUILD, GUILD, APPRENTICE, INJECT -/

/-- MEND_DOCKET (R411). -/
def execMendDocket (r : Ring) (s : State) : Ans :=
  .next (dkDo s r.val 0x82 fun s d =>
    let cfg := dkF d 36 4
    if bitAt cfg 0 ∧ roleSize s (seg cfg 2 1) % 16 ≠ 0 then finishDocket s r.val stRefused 0
    else
      finishDocket { s with guard := { s.guard with
          mendEn := bitAt cfg 0, mendRole := BitVec.ofNat 2 (seg cfg 2 1), interval := BitVec.ofNat 16 (seg cfg 31 16)
          par0 := BitVec.ofNat 64 (dkF d 40 8), par1 := BitVec.ofNat 64 (dkF d 48 8)
          l0 := BitVec.ofNat 64 (dkF d 56 8), l1 := BitVec.ofNat 64 (dkF d 64 8) } } r.val stOk 0)

/-- REBUILD_DOCKET: the recovery restarts from step 1; under a new ID nothing is completed (R423). -/
def execRebuildDocket (r : Ring) (s : State) : Ans :=
  .next (dkDo s r.val 0x83 fun s d =>
    let id := BitVec.ofNat 16 (dkF d 32 2)
    let s := dkBegan s r.val
    s.updGuard fun g =>
      { g with recId := id, recAt := 0, recRunning := true, recFailed := false
               recStep := if g.recId = id then g.recStep else 0 })

/-- GUILD_DOCKET. -/
def execGuildDocket (r : Ring) (s : State) : Ans :=
  .next (dkDo s r.val 0x84 fun s d =>
    finishDocket (guildDetect s (dkF d 32 1) (dkF d 34 2)) r.val stOk 0)

/-- APPRENTICE_DOCKET: an apprentice enters COPY once it has run every pattern book in force (R425). -/
def execApprenticeDocket (r : Ring) (s : State) : Ans :=
  .next (dkDo s r.val 0x85 fun s d =>
    if dkF d 32 1 ≠ 1 ∧ s.guard.book.isSome then s
    else
      let s := dkBegan s r.val
      s.updGuard fun g =>
        { g with aState := 1, aTutor := dkF d 32 1 == 1, aPeer := BitVec.ofNat 12 (dkF d 34 2), aDone := 0
                 aSteps := BitVec.ofNat 16 (dkF d 44 2), aCopy := [], aRing := some r.val })

/-- INJECT_DOCKET (R403). -/
def execInjectDocket (r : Ring) (s : State) : Ans :=
  .next (dkDo s r.val 0x86 fun s d =>
    let cls := dkF d 32 1
    let j := s.jobAt (dkF d 40 1)
    if s.guard.injEn.getLsbD cls && j.running && j.inj then
      finishDocket { s with guard := { s.guard with armed := s.guard.armed ++
          [{ cls := BitVec.ofNat 8 cls, weight := BitVec.ofNat 8 (dkF d 33 1), left := dkF d 34 2
             src := BitVec.ofNat 32 (dkF d 36 4), win := dkF d 40 1 }] } } r.val stOk 0
    else finishDocket s r.val stRefused 0)

/-! ### PATTERN (R405, R406, Tables 13.6, 17.5) -/

/-- Bytes of the boot flash. -/
def flashBytes (s : State) (a n : Nat) : List Byte := (List.range n).map fun i => Tbl.get 0xFF s.boot.flash (a + i)
/-- Offset of the key block, and of its body. -/
def keyBlock : Nat := 0x60000
def keyBody : Nat := keyBlock + 128
/-- A pattern-book key, its revocation bit and its lowest version. The block's body is DESIGN CHOICE (log 40): four keys
of 96 bytes, a byte of revocation bits, three bytes of 0, and four versions of 4 bytes. -/
def bookKey (s : State) (k : Nat) : Nat × Nat :=
  (beNat (flashBytes s (keyBody + 96 * k) 48), beNat (flashBytes s (keyBody + 96 * k + 48) 48))
def bookKeyRevoked (s : State) (k : Nat) : Bool := bitAt (leNat (flashBytes s (keyBody + 384) 1)) k
def bookLowest (s : State) (k : Nat) : Nat := leNat (flashBytes s (keyBody + 388 + 4 * k) 4)

/-- The signature over bytes 0 to LEN − 97 of an image. -/
def signedBy (key : Nat × Nat) (b : List Byte) : Bool :=
  let n := b.length - 96
  ecdsaOk key.1 key.2 (sha384 (b.take n)) (beNat (cut b n 48)) (beNat (cut b (n + 48) 48))

/-- A book passes every check of R405. -/
def bookGood (s : State) (b : List Byte) : Bool :=
  let k := fieldAt b 8 1
  let pts := fieldAt b 24 4
  416 ≤ b.length && fieldAt b 0 4 == 0x4B425046 && fieldAt b 12 4 == b.length && k < 4 && fieldAt b 9 3 == 0
    && allZero (cut b 28 36) && 1 ≤ fieldAt b 16 4 && fieldAt b 16 4 ≤ 10000 && 1 ≤ pts && pts ≤ 16
    && !s.boot.keysBad && !bookKeyRevoked s k && bookLowest s k ≤ fieldAt b 4 4 && signedBy (bookKey s k) b

/-- A stress point lies within the limits of R406. The entry's layout is DESIGN CHOICE (log 40): the clock in bytes
0–1, the offset in 2–3, the temperature in 4–5, the mask in 8–11, the flags in 12–15. -/
def pointOk (s : State) (p : List Byte) : Bool :=
  let off := sgn 16 (fieldAt p 2 2)
  s.fuse.fmin.toNat ≤ fieldAt p 0 2 && fieldAt p 0 2 ≤ s.fuse.fmax.toNat && decide (-60 ≤ off) && decide (off ≤ 30)
    && decide (sgn 16 (fieldAt p 4 2) ≤ 100)

/-- `PATTERN_FAIL` with a reason. -/
def patternFail (s : State) (detail : Nat) : State :=
  raise s { cls := evPatternFail, src := srcUnit 0 unitTest, detail := detail }

/-- PATTERN_DOCKET: a book that passes waits for the governor's grant; the docket completes when it has run, at once
where every point has been skipped. -/
def execPatternDocket (r : Ring) (image : List Byte) (hostOk : Bool) (s : State) : Ans :=
  .next (dkDo s r.val 0x87 fun s d =>
    if !pcieUp s || s.guard.book.isSome then s
    else if !hostOk then finishDocket s r.val stFault 0
    else
      let b := image.take (dkF d 36 4)
      detectAll s evPatternFail (srcUnit 0 unitTest) (!bookGood s b)
        (fun s => finishDocket (patternFail s 1) r.val stRefused 0) fun s =>
        let pts := (List.range (fieldAt b 24 4)).map fun i => cut b (64 + 16 * i) 16
        let s := pts.foldl (fun s p => if pointOk s p then s else patternFail s 2) s
        let ok := (pts.filter (pointOk s)).map fun p => BitVec.ofNat 128 (leNat p)
        if bookRegions ok = [] then finishDocket s r.val stOk 0
        else
          let s := dkBegan s r.val
          { s with guard := { s.guard with
              book := some (fieldAt b 16 4, fieldAt b 20 4, ok), bookRing := r.val, bookRunning := false } })

/-! ### The end of a job (R446) -/

/-- The end-status block. -/
def endBlock (s : State) (w : Nat) (j : Job) : List Byte :=
  let n := fun c => (nondetCount s w c).toNat
  leBytes 2 j.job.toNat ++ leBytes 1 (if j.stopping then j.cause.toNat else 1) ++ leBytes 1 j.reason.toNat
    ++ leBytes 2 j.abort.toNat ++ leBytes 1 (b2n j.det + 2 * b2n j.late) ++ zeros 1 ++ leBytes 8 s.gct.count.toNat
    ++ leBytes 8 (n 0) ++ leBytes 4 (satTo 32 (n 1)) ++ leBytes 4 (satTo 32 (n 2)) ++ leBytes 4 (satTo 32 (n 3))
    ++ leBytes 2 j.cls.toNat ++ leBytes 2 j.cluster.toNat ++ zeros 24

/-- Dockets of the job still running complete: `STOP` is finished, the others end with `STOPPED`. -/
def endDockets (s : State) (job : Nat) : State :=
  docketsStop (s.hif.ring.foldl (fun s e =>
    match e.2.running with
    | some d => if dkJob d = job ∧ dkOp d = 0x21 ∧ e.2.began = true then finishDocket s e.1 stOk 0 else s
    | none => s) s) job

/-- The job of a window ends: its block is written, ENDVEC is signalled, and its dockets complete. -/
def endJob (s : State) (w : Nat) : State :=
  let j := s.jobAt w
  let s := if pcieUp s then s.emit (.endStatus j.endblk (endBlock s w j)) else s
  let s := msixSend s .f0 j.endvec.toNat
  let s := s.updJob w fun j => { j with running := false }
  let s := irqEvent s (144 + w)
  let s := s.updGuard fun g => { g with armed := g.armed.filter fun i => i.win != w }
  endDockets { s with mgl := mangleStop s.mgl j.job.toNat } j.job.toNat

/-- JOB_END: every cluster has ended or stopped. -/
def execJobEnd (w : Win) (s : State) : Ans :=
  let j := s.jobAt w.val
  .next (if j.running && j.clusters.all (fun q => j.clOver.contains q) then endJob s w.val else s)

end Sys2Proof.Machine
end

