-- ==== Sys2Proof/Machine/Eth.lean ====
section
/-!
DEFINITION. The Ethernet ports (R451–R454): queue pairs and memory keys, posted work requests, received packets, and the
ports' state. The layout of a work request beyond its opcode is DESIGN CHOICE (log 41).
-/
namespace Sys2Proof.Machine
open Sys2Proof

/-! ### Queue pairs and keys (R453, Table 14.12) -/

/-- Queue pair `qpn` of a port. -/
def State.qpAt (s : State) (port qpn : Nat) : Qp := Tbl.get {} s.hif.qp (port * 4096 + qpn)
/-- Put it. -/
def State.setQp (s : State) (port qpn : Nat) (q : Qp) : State :=
  { s with hif := { s.hif with qp := Tbl.set {} s.hif.qp (port * 4096 + qpn) q } }

/-- The tenancy window of the docket's job. -/
def qpWin (s : State) (d : Docket) : Option (Fin 16) := (windowOf s (dkJob d)).map (Fin.ofNat 16)
/-- The addresses and settings that a `QP` docket gives a queue pair. -/
def qpSet (q : Qp) (d : Docket) : Qp :=
  { q with mtu := BitVec.ofNat 8 (dkF d 34 1), prio := BitVec.ofNat 8 (dkF d 35 1), rqpn := BitVec.ofNat 24 (dkF d 40 4)
           rgid := BitVec.ofNat 128 (dkF d 48 16), lgid := BitVec.ofNat 128 (dkF d 64 16) }
/-- The unused number that a create takes: which one is open (log 41). -/
def freeQpn (s : State) (port : Nat) : Option Nat :=
  ((List.range 4095).map fun i => 1 + (Config.freeNat s.free + i) % 4095).find? fun n => !(s.qpAt port n).live

/-- Perform a `QP` docket of one ACTION. -/
def qpDo (s : State) (r act : Nat) (f : State → Docket → State) : State :=
  dkDo s r 0x40 fun s d => if dkF d 32 1 = act then f s d else s

/-- QP_CREATE_DOCKET. -/
def execQpCreateDocket (r : Ring) (s : State) : Ans :=
  .next (qpDo s r.val 0 fun s d =>
    let port := dkF d 33 1
    match freeQpn s port with
    | none => finishDocket s r.val stShort 1
    | some n => finishDocket (s.setQp port n (qpSet { live := true, win := qpWin s d } d)).useFree r.val stOk n)

/-- The queue pair that a docket names, if it is live and of the docket's job. -/
def namedQp (s : State) (d : Docket) (port qpn : Nat) : Option Qp :=
  let q := s.qpAt port qpn
  if 1 ≤ qpn ∧ qpn ≤ 4095 ∧ q.live = true ∧ q.win = qpWin s d then some q else none

/-- QP_READY_DOCKET. -/
def execQpReadyDocket (r : Ring) (s : State) : Ans :=
  .next (qpDo s r.val 1 fun s d =>
    let port := dkF d 33 1
    let n := dkF d 36 4
    match namedQp s d port n with
    | some q =>
      if q.err then finishDocket s r.val stJob 0
      else finishDocket (s.setQp port n { qpSet q d with ready := true }) r.val stOk n
    | none => finishDocket s r.val stJob 0)

/-- The outstanding work requests of a queue pair end unsuccessfully: their `POST`s complete with `FAULT`. -/
def flushWork (s : State) (l : List WorkReq) : State :=
  l.foldl (fun s w =>
    let g := s.ring w.ring
    match g.running with
    | some d => if dkOp d = 0x41 ∧ d.seq = w.seq then finishDocket s w.ring stFault g.moved else s
    | none => s) s

/-- QP_DESTROY_DOCKET. -/
def execQpDestroyDocket (r : Ring) (s : State) : Ans :=
  .next (qpDo s r.val 2 fun s d =>
    let port := dkF d 33 1
    let n := dkF d 36 4
    match namedQp s d port n with
    | some q => finishDocket (flushWork (s.setQp port n {}) q.work) r.val stOk n
    | none => finishDocket s r.val stJob 0)

/-- Keys of a window. -/
def winKeys (s : State) (w : Nat) : Nat := (s.hif.key.filter fun e => e.2.live && e.2.win == w).length
/-- The unused key that a create takes: which one is open (log 41). -/
def freeKey (s : State) : Nat :=
  ((List.range (s.hif.key.length + 1)).map fun i => (Config.freeNat s.free + i) % 2 ^ 32).find?
    (fun n => !(Tbl.get {} s.hif.key n).live) |>.getD 0

/-- QP_KEY_CREATE_DOCKET. -/
def execQpKeyCreateDocket (r : Ring) (s : State) : Ans :=
  .next (qpDo s r.val 3 fun s d =>
    match windowOf s (dkJob d) with
    | none => finishDocket s r.val stJob 0
    | some w =>
      if 1024 ≤ winKeys s w then finishDocket s r.val stShort 3
      else
        let k := freeKey s
        let key : MKey :=
          { live := true, win := w, addr := BitVec.ofNat 64 (dkF d 80 8), len := BitVec.ofNat 64 (dkF d 88 8) }
        finishDocket { s.useFree with hif := { s.hif with key := Tbl.set {} s.hif.key k key } } r.val stOk k)

/-- QP_KEY_DESTROY_DOCKET. -/
def execQpKeyDestroyDocket (r : Ring) (s : State) : Ans :=
  .next (qpDo s r.val 4 fun s d =>
    let k := dkF d 80 8 % 2 ^ 32
    let key := Tbl.get {} s.hif.key k
    if key.live ∧ windowOf s (dkJob d) = some key.win then
      finishDocket { s with hif := { s.hif with key := Tbl.set {} s.hif.key k {} } } r.val stOk k
    else finishDocket s r.val stJob 0)

/-! ### Work requests (R454) -/

/-- A work request of 64 bytes (log 41): PORT at byte 1, the QPN in bytes 4–7, the local address in 8–15, the length in
16–19, the remote key in 20–23, the remote address in 24–31. The opcode is 0 SEND, 1 WRITE or 2 READ. -/
def workReq (r : Nat) (d : Docket) (b : List Byte) : WorkReq :=
  { ring := r, seq := d.seq, op := fieldAt b 0 1, addr := BitVec.ofNat 64 (fieldAt b 8 8), len := fieldAt b 16 4, bytes := b }
/-- PORT and QPN of a work request. -/
def reqQp (b : List Byte) : Nat × Nat := (fieldAt b 1 1, fieldAt b 4 4)
/-- The work requests of a `POST`. -/
def postReqs (d : Docket) : List (List Byte) := (List.range (dkF d 32 2)).map fun i => cut d.bytes (64 + 64 * i) 64

/-- Bytes of a range of a window, whether one was stained, and whether the range faulted. -/
def ethRead (s : State) (w a n : Nat) : State × List Byte × Bool × Bool :=
  let o := a % 32
  let (s, b, st, f) := moveOut w (sectorSpan o n) s (a - o)
  (s, (b.drop o).take n, st, f)

/-- Path MTU of a queue pair (R452, Table 14.12). -/
def mtuOf (q : Qp) : Nat := 1024 * 2 ^ q.mtu.toNat
/-- A message's packets, each of at most `n` bytes; an empty message has one. -/
def mtuCut (n : Nat) (b : List Byte) : List (List Byte) :=
  (List.range (max 1 (ceilDiv b.length n))).map fun i => (b.drop (n * i)).take n
/-- A message leaves a port in packets of at most the path MTU (R452), the first with its work request. -/
def ethOut (s : State) (port qpn : Nat) (head data : List Byte) : State :=
  (mtuCut (mtuOf (s.qpAt port qpn)) data).zipIdx.foldl (fun s (b, i) =>
    s.emit (.ethSend port qpn ((if i = 0 then head else []) ++ b))) s

/-- The port is up. -/
def portUp (s : State) (port : Nat) : Bool := !s.hif.ethDown.getLsbD port
/-- Send the requests of a queue pair that have not left the port. -/
def sendWork (s : State) (port qpn : Nat) : State :=
  let q := s.qpAt port qpn
  if portUp s port then
    (q.work.filter (!·.sent)).foldl (fun s w => ethOut s port qpn w.bytes w.data)
      (s.setQp port qpn { q with work := q.work.map fun w => { w with sent := true } })
  else s

/-- Post requests in turn, up to one whose local data is stained or faults. -/
def postAll (r w : Nat) (d : Docket) : State → List (List Byte) → State
  | s, [] => s
  | s, b :: rest =>
    let (port, qpn) := reqQp b
    let req := workReq r d b
    let (s, data, st, f) := if req.op = 2 then (s, [], false, false) else ethRead s w req.addr.toNat req.len
    let done := (s.ring r).moved
    if f then finishDocket s r stFault done
    else meetExit s w hostSrc st (fun s => stainExit (finishDocket s r stStained done) w hostSrc req.addr.toNat) fun s =>
      let q := s.qpAt port qpn
      postAll r w d (sendWork (s.setQp port qpn { q with work := q.work ++ [{ req with data := data }] }) port qpn) rest

/-- Some queue pair would hold more than 4,096 outstanding requests. -/
def postOver (s : State) (l : List (List Byte)) : Bool :=
  l.any fun b => decide (4096 < (s.qpAt (reqQp b).1 (reqQp b).2).work.length + (l.filter fun c => reqQp c == reqQp b).length)

/-- A request names a ready queue pair of the job. -/
def postable (s : State) (d : Docket) (b : List Byte) : Bool :=
  match namedQp s d (reqQp b).1 (reqQp b).2 with
  | some q => q.ready && !q.err
  | none => false

/-- POST_DOCKET. -/
def execPostDocket (r : Ring) (s : State) : Ans :=
  .next (dkInWindow s r.val 0x41 fun s d w =>
    let l := postReqs d
    if l.any fun b => decide (2 < fieldAt b 0 1) || decide (1 < fieldAt b 1 1) then finishDocket s r.val stReserved 0
    else if !l.all (postable s d) then finishDocket s r.val stJob 0
    else if postOver s l then finishDocket s r.val stShort 2
    else postAll r.val w d (dkBegan s r.val) l)

/-- One more request of a `POST` has completed. -/
def postCount (s : State) (w : WorkReq) : State :=
  match (s.ring w.ring).running with
  | some d =>
    if dkOp d = 0x41 ∧ d.seq = w.seq then
      let s := s.updRing w.ring fun g => { g with moved := g.moved + 1 }
      if (s.ring w.ring).moved = dkF d 32 2 then finishDocket s w.ring stOk (s.ring w.ring).moved else s
    else s
  | none => s

/-- ETH_WORK_REQUEST_COMPLETE: the oldest request of the queue pair completes; `data` is what an RDMA READ returns. One
that fails puts the queue pair in the error state. -/
def execEthWorkRequestComplete (port : Fin 2) (qpn : Fin 4096) (ok : Bool) (data : List Byte) (s : State) : Ans :=
  let q := s.qpAt port.val qpn.val
  match q.work with
  | [] => .next s
  | w :: rest =>
    if !w.sent then .next s
    else if !ok then
      let s := s.setQp port.val qpn.val { q with work := [], err := true }
      .next (irqEvent (flushWork s q.work) (210 + port.val))
    else
      let s := s.setQp port.val qpn.val { q with work := rest }
      let s := match q.win with
        | some win =>
          if w.op = 2 then bulkWrite s hostSrc win.val w.addr.toNat ((cut data 0 w.len).map fun b => (b, false)) else s
        | none => s
      .next (postCount s w)

/-! ### Received packets (R452, R453) -/

/-- The range lies in the key, and the key is of the queue pair's window. -/
def keyCovers (s : State) (q : Qp) (p : EthPacket) : Bool :=
  let k := Tbl.get {} s.hif.key p.key.toNat
  k.live && q.win.map (·.val) == some k.win && k.addr.toNat ≤ p.addr.toNat
    && p.addr.toNat + p.len ≤ k.addr.toNat + k.len.toNat

/-- ETH_PACKET_RECEIVE: a request whose key check fails, and a SEND, for which no receive buffer is described, are
answered with an error (log 41). -/
def execEthPacketReceive (port : Fin 2) (p : EthPacket) (s : State) : Ans :=
  let n := p.qpn.toNat
  let q := s.qpAt port.val n
  if !portUp s port.val || 4095 < n || !q.ready || q.err then .next s
  else
    match p.kind with
    | .cnp => .next (s.setQp port.val n { q with slowed := true })
    | .send => .next (s.emit (.ethNak port.val n))
    | .write =>
      match q.win with
      | some w =>
        if keyCovers s q p then
          .next (bulkWrite s hostSrc w.val p.addr.toNat ((cut p.data 0 p.len).map fun b => (b, false)))
        else .next (s.emit (.ethNak port.val n))
      | none => .next (s.emit (.ethNak port.val n))
    | .read =>
      match q.win with
      | some w =>
        if keyCovers s q p then
          let (s, b, st, f) := ethRead s w.val p.addr.toNat p.len
          .next (if f then s.emit (.ethNak port.val n)
            else meetExit s w.val hostSrc st (fun s => stainExit s w.val hostSrc p.addr.toNat) fun s =>
              ethOut s port.val n [] b)
        else .next (s.emit (.ethNak port.val n))
      | none => .next (s.emit (.ethNak port.val n))

/-! ### The ports (R451) -/

/-- ETH_PORT_DOWN. -/
def execEthPortDown (port : Fin 2) (s : State) : Ans :=
  .next { s with hif := { s.hif with ethDown := s.hif.ethDown ||| BitVec.ofNat 2 (2 ^ port.val) } }

/-- ETH_PORT_UP: the requests that wait are sent. -/
def execEthPortUp (port : Fin 2) (s : State) : Ans :=
  if s.pins.ethRefclk = true ∧ s.boot.held = false then
    let s := { s with hif := { s.hif with ethDown := s.hif.ethDown &&& ~~~ BitVec.ofNat 2 (2 ^ port.val) } }
    .next (s.hif.qp.foldl (fun s e => if e.1 / 4096 = port.val then sendWork s port.val (e.1 % 4096) else s) s)
  else .next s

end Sys2Proof.Machine
end

