-- ==== Sys2Proof/Machine/Power.lean ====
section
/-!
DEFINITION. The governor (R226–R228, R473–R489): the chit boundary, the throttle ladder and region clocks, trips, the
brake, the grants of retrain windows and pattern books, and the registers of the PWR block.
-/
namespace Sys2Proof.Machine
open Sys2Proof

/-! ### Clocks (R474–R476) -/

/-- DVFS step of a clock in units of 10 MHz. -/
def stepOf (f : Nat) : Nat := (f - 60) / 5
/-- Clock of a step in units of 10 MHz. -/
def clockOf (i : Nat) : Nat := 60 + 5 * i
/-- A target as the register reads. -/
def targetOf (s : State) (t : Tbl (Option (BitVec 8))) (d : Nat) : Nat := ((Tbl.get none t d).getD s.fuse.ftarget).toNat
/-- Step of the target in force. -/
def targetStep (s : State) (d : Nat) : Nat := stepOf (min (targetOf s s.pwr.ftargetNow d) s.fuse.fmax.toNat)
/-- Chit cap of a die. -/
def chitCap (s : State) (d : Nat) : Nat := Tbl.get 16 s.pwr.cap1 d
/-- Granted step of a die's regions. -/
def grantedStep (s : State) (d : Nat) : Nat := min (targetStep s d) (chitCap s d)
/-- Cap of rung 6 on a die. -/
def cap6Of (s : State) (d : Nat) : Nat := Tbl.get 16 s.pwr.cap6 d
/-- Put it. -/
def setCap6 (s : State) (d v : Nat) : State := { s with pwr := { s.pwr with cap6 := Tbl.set 16 s.pwr.cap6 d v } }
/-- A cap one step up: none once it reaches the granted step. -/
def capUp (granted c : Nat) : Nat := if granted ≤ c + 1 then 16 else c + 1
/-- The running step of a region, step 0 where it is stopped. -/
def runStep (s : State) (d r : Nat) : Nat := (s.regClk d r).step.getD 0
/-- The step that a region issues at: the lower of the old and the new one while its clock changes (R475). -/
def issueStep (k : RegClk) : Option Nat :=
  k.step.map fun i => if k.changing then min i (k.was.getD i) else i
/-- Highest supply voltage of a step, in units of 0.1 mV (R474). -/
def voltBound (i : Nat) : Nat := 6200 + 175 * i
/-- Supply voltage of a region, in units of 0.1 mV: that of the higher of the old and the new step while its clock
changes, since a step up raises the voltage first and a step down lowers it last (R474, R475). -/
def regVolt (s : State) (d r : Nat) : Option Nat :=
  let k := s.regClk d r
  k.step.map fun i =>
    let j := if k.changing then max i (k.was.getD i) else i
    min (voltBound j) ((Tbl.get none s.fuse.volt (17 * (21 * d + r) + j)).getD (voltBound j))
/-- Every mapped region. -/
def overRegions (s : State) (f : State → Nat → Nat → State) : State :=
  (List.range 8).foldl (fun s d => (mappedRegions s d).foldl (fun s r => f s d r) s) s

/-! ### Readings (R477) -/

/-- Last readings, in 1/4 °C. -/
def tempJ (s : State) (d r : Nat) : Int := Tbl.get 0 s.pwr.tJunction (32 * d + r)
def tempB (s : State) (d n : Nat) : Int := Tbl.get 0 s.pwr.tBase (4 * d + n)
def tempN (s : State) (d n : Nat) : Int := Tbl.get 0 s.pwr.tNear (32 * d + n)
def tempH (s : State) (k : Nat) : Int := Tbl.get 0 s.pwr.tHbm k
def tempI (s : State) (n : Nat) : Int := Tbl.get 0 s.pwr.tIod n

/-- New readings replace the last ones. -/
def takeTemps (t : Tbl Int) (l : List (Nat × Int)) : Tbl Int := l.foldl (fun t x => Tbl.set 0 t x.1 x.2) t
/-- The readings of a boundary. -/
def takeReadings (s : State) (rd : Readings) : State :=
  let p := s.pwr
  { s with pwr := { p with
      tJunction := takeTemps p.tJunction rd.junction, tBase := takeTemps p.tBase rd.base
      tNear := takeTemps p.tNear rd.near, tHbm := takeTemps p.tHbm rd.hbm, tIod := takeTemps p.tIod rd.iod } }

/-- A sensor: its number for `hot6`, its reading, and its rung 6, release and trip temperatures in 1/4 °C. -/
structure Sensor where
  id : Nat
  temp : Int
  hot : Int
  cool : Int
  trip : Int

/-- Sensors that govern compute die `d`. -/
def dieSensors (s : State) (d : Nat) : List Sensor :=
  (mappedRegions s d).map (fun r => ⟨32 * d + r, tempJ s d r, 420, 388, 460⟩)
    ++ (List.range 4).map (fun n => ⟨1024 + 4 * d + n, tempB s d n, 420, 388, 460⟩)
    ++ (List.range 24).map (fun n => ⟨2048 + 32 * d + n, tempN s d n, 400, 368, 420⟩)
    ++ [2 * d, 2 * d + 1].map (fun k => ⟨3072 + k, tempH s k, 400, 368, 420⟩)
/-- Sensors of the I/O die. -/
def iodSensors (s : State) : List Sensor := [0, 1].map fun n => ⟨4096 + n, tempI s n, 420, 388, 460⟩
/-- Every sensor of the ladder. -/
def allSensors (s : State) : List Sensor := (List.range 8).flatMap (dieSensors s) ++ iodSensors s

/-! ### Chits at a boundary (R479) -/

/-- Limits, targets and rates take effect (R488). -/
def takeLimits (s : State) : State :=
  let p := s.pwr
  { s with pwr := { p with limitNow := p.limit, rateNow := p.rate, dieLimitNow := p.dieLimit, ftargetNow := p.ftarget } }

/-- Q_d after a boundary. -/
def nextChit (s : State) (d energy : Nat) : Int :=
  max (-32768) (min (2 * lTau s d : Nat) (chitOf s d + lTau s d - energy))

/-- Set every chit, and every reservation to 0. -/
def takeChits (s : State) (energy : List (Nat × Nat)) : State :=
  let q := (List.range 8).foldl (fun t d =>
    Tbl.set 4200 t d (nextChit s d (((energy.find? (·.1 == d)).map (·.2)).getD 0))) s.pwr.chit
  { s with pwr := { s.pwr with chit := q, reserve := [] } }

/-! ### The ladder (R226–R228, R483, R484) -/

/-- Rung 1: the chit cap of a die. -/
def rung1Die (s : State) (d : Nat) : State :=
  let t := targetStep s d
  let c := min (chitCap s d) t
  let c := if chitOf s d < 0 then c - 1 else if (lTau s d : Int) ≤ 2 * chitOf s d then c + 1 else c
  let v := if t ≤ c then 16 else c
  { s with pwr := { s.pwr with cap1 := Tbl.set 16 s.pwr.cap1 d v } }

/-- Rung 3: a region at 100 °C goes one step lower; at 97 °C its cap goes one step higher. -/
def rung3Region (s : State) (d r : Nat) : State :=
  s.updReg d r fun k =>
    if 400 ≤ tempJ s d r then { k with cap3 := min k.cap3 (k.step.getD (grantedStep s d) - 1) }
    else if tempJ s d r ≤ 388 then { k with cap3 := capUp (grantedStep s d) k.cap3 }
    else k

/-- Step of a region under the caps of rung 4 taken so far at this boundary. -/
def step4 (s : State) (d r : Nat) : Nat := min (runStep s d r) (s.regClk d r).cap4
/-- The region that a sensor steps down: the highest clock, then the lowest index. -/
def coupleTarget (s : State) (d n : Nat) : Option Nat :=
  ((mappedRegions s d).filter (bitAt (coupleMask s d n))).foldl (fun b r => match b with
    | none => some r
    | some q => if step4 s d q < step4 s d r then some r else b) none
/-- Step one region of a die down; one at the lowest clock stays. -/
def down4 (s : State) (d r : Nat) : State :=
  if step4 s d r = 0 then s
  else
    let c := step4 s d r - 1
    let s := s.updReg d r fun k => { k with cap4 := c }
    { s with pwr := { s.pwr with order4 := upd [] s.pwr.order4 d (r :: ·) } }
/-- Every sensor whose mask holds the region reads 92 °C or less. -/
def cool4 (s : State) (d r : Nat) : Bool :=
  (List.range 24).all fun n => !bitAt (coupleMask s d n) r || decide (tempN s d n ≤ 368)
/-- Remove the first element that holds. -/
def dropFirst (p : Nat → Bool) : List Nat → List Nat
  | [] => []
  | x :: t => if p x then t else x :: dropFirst p t
/-- Step the region stepped down last that has cooled one step up; it leaves the list at its granted clock. -/
def up4 (s : State) (d : Nat) : State :=
  let l := Tbl.get [] s.pwr.order4 d
  match l.find? (cool4 s d) with
  | none => s
  | some r =>
    let c := capUp (grantedStep s d) (s.regClk d r).cap4
    let rest := dropFirst (· == r) l
    let rest := if c = 16 then l.filter (· != r) else if rest.contains r then rest else l
    let s := s.updReg d r fun k => { k with cap4 := c }
    { s with pwr := { s.pwr with order4 := Tbl.set [] s.pwr.order4 d rest } }
/-- Rung 4 on a die. -/
def rung4Die (s : State) (d : Nat) : State :=
  let s := up4 s d
  (List.range 24).foldl (fun s n =>
    if 380 ≤ tempN s d n then
      match coupleTarget s d n with
      | some r => down4 s d r
      | none => s
    else s) s

/-- Rung 5 on an HBM4 stack. -/
def rung5Stack (s : State) (k : Nat) : State :=
  let b := BitVec.ofNat 16 (2 ^ k)
  if 380 ≤ tempH s k then { s with pwr := { s.pwr with rung5 := s.pwr.rung5 ||| b } }
  else if tempH s k ≤ 368 then { s with pwr := { s.pwr with rung5 := s.pwr.rung5 &&& ~~~b } }
  else s

/-- The sensors that hold rung 6. -/
def hotSensors (s : State) : List Nat :=
  ((allSensors s).filter fun x => decide (x.hot ≤ x.temp)
    || (s.pwr.hot6.contains x.id && decide (x.cool < x.temp))).map (·.id)
/-- Rung 6 is held on every die. -/
def allHeld (s : State) : Bool := !s.pins.brakeHigh || s.pwr.hot6.any fun i => decide (4096 ≤ i)
/-- Rung 6 is held on a die. -/
def dieHeld (s : State) (d : Nat) : Bool := allHeld s || (dieSensors s d).any fun x => s.pwr.hot6.contains x.id
/-- Rung 6 on a die: step 0 while it is held, and one step up at each boundary after. -/
def rung6Die (s : State) (d : Nat) : State :=
  if dieHeld s d then setCap6 s d 0
  else if cap6Of s d = 16 then s
  else setCap6 s d (capUp (grantedStep s d) (cap6Of s d))
/-- Near-memory sensors of a list. -/
def nearSensors (l : List Nat) : List Nat := l.filter fun x => decide (2048 ≤ x) && decide (x < 3072)
/-- A near-memory sensor reaches 100 °C (R228; Table 13.1 has the event of every such sensor). -/
def nmHotEvent (s : State) (x : Nat) : State :=
  raise s { cls := evNmHot, src := srcUnit ((x - 2048) / 32) unitNm, detail := x % 32 }
/-- The event of an excursion's first boundary on a die: `THROTTLE`, where no near-memory sensor of it has raised
`NM_HOT`. -/
def excursionEvent (s : State) (d : Nat) : State :=
  if (nearSensors s.pwr.hot6).any fun x => (x - 2048) / 32 == d then s
  else raise s { cls := evThrottle, src := srcUnit d unitGovernor, detail := d }
/-- The injections of the thermal detectors act at a boundary: the event of a die, its regions at step 0, EXCURSION. -/
def meetThermal (s : State) : State :=
  let hot := fun (s : State) d => { setCap6 s d 0 with pwr := { (setCap6 s d 0).pwr with excursion := true } }
  (List.range 8).foldl (fun s d =>
    let s := detectAll s evNmHot (srcUnit d unitNm) false (fun s => nmHotEvent (hot s d) (2048 + 32 * d)) id
    detectAll s evThrottle (srcUnit d unitGovernor) false (fun s =>
      raise (hot s d) { cls := evThrottle, src := srcUnit d unitGovernor, detail := d }) id) s
/-- Rung 6 on every die; the first boundary of an excursion raises its event, and sets EXCURSION. -/
def rung6All (s : State) : State :=
  let reached := (nearSensors (hotSensors s)).filter fun x => !s.pwr.hot6.contains x
  let s := { s with pwr := { s.pwr with hot6 := hotSensors s } }
  let s := (List.range 8).foldl rung6Die s
  let now := (List.range 8).filter fun d => cap6Of s d != 16
  let fresh := now.filter fun d => !s.pwr.in6.getLsbD d
  let s := { s with pwr := { s.pwr with
      in6 := now.foldl (fun (b : BitVec 8) d => b ||| BitVec.ofNat 8 (2 ^ d)) 0
      excursion := s.pwr.excursion || fresh != [] } }
  let s := reached.foldl nmHotEvent s
  match fresh with
  | [] => s
  | _ :: _ =>
    if allHeld s || s.pwr.hot6.isEmpty then raise s { cls := evThrottle, src := srcUnit 0 unitGovernor, detail := 31 }
    else fresh.foldl excursionEvent s

/-- Rung 7: a trip stops every job, sets TRIP and signals source 1 (R485). -/
def rung7 (s : State) : State :=
  if (allSensors s).any (fun x => decide (x.trip ≤ x.temp)) ∧ s.pwr.tripping = false then
    let s := guildDetect (stopAll s { cause := 4 }) 4 (myCoord s)
    irqEvent { s with pwr := { s.pwr with trip := true, tripping := true } } 1
  else s

/-- Set a mapped region's running clock once from its caps (R476). -/
def setClock (s : State) (d r : Nat) : State :=
  let k := s.regClk d r
  let n := min (grantedStep s d) (min k.cap3 (min k.cap4 (cap6Of s d)))
  if k.step = some n then s else s.updReg d r fun k => { k with step := some n, was := k.step, changing := true }

/-! ### Grants (R486, R487) -/

/-- A link of the die holds a window that it asked for. -/
def dieWindow (s : State) (d : Nat) : Bool := s.tl.link.any fun e => linkDie e.1 == d && e.2.windowT.isSome
/-- The link is trained, so that a window can be held on it. -/
def mayRetrain (k : TLink) : Bool := k.state == 2 || k.state == 3 || k.state == 7
/-- Grant the window of the first trained link of the die's queue, at the boundary's count + 10,000. -/
def grantLink (s : State) (d : Nat) : State :=
  if dieWindow s d then s
  else
    match s.tl.asked.find? fun l => linkDie l == d && mayRetrain (s.link l) with
    | none => s
    | some l =>
      let s := s.updLink l fun k => { k with windowT := some (s.gct.count + 10000) }
      { s with tl := { s.tl with asked := s.tl.asked.filter (· != l) } }

/-- Regions that running jobs use. -/
def usedRegions (s : State) : List Nat := (servingClusters s).filterMap (clRegion s)
/-- Regions that a docket charges. -/
def dkRegions (s : State) (r : Nat) (d : Docket) : List Nat :=
  if dkOp d = 0x20 then (launchPlaces d).filterMap (clRegion s)
  else if dkOp d = 0x03 then ((fedCluster s r).toList).filterMap (clRegion s)
  else []
/-- A rung above 2 is in force on a die. -/
def rungAbove2 (s : State) (d : Nat) : Bool :=
  s.pwr.tripping || cap6Of s d != 16 || s.pwr.rung5.getLsbD (2 * d) || s.pwr.rung5.getLsbD (2 * d + 1)
    || (mappedRegions s d).any fun r => (s.regClk d r).cap3 != 16 || (s.regClk d r).cap4 != 16
/-- Dies that a book uses. -/
def bookDies (l : List Nat) : List Nat := (List.range 8).filter fun d => l.any fun i => i / 21 == d
/-- The grant ends at this boundary: a ready docket that charges its regions would fit, or a rung above 2 is in force. -/
def bookEnds (s : State) (l : List Nat) : Bool :=
  (bookDies l).any (rungAbove2 s)
    || (readyRings s).any fun x => (dkRegions s x.1 x.2.2).any l.contains && dkFits s x.1 x.2.2
/-- The governor grants a waiting book's regions. -/
def bookMayRun (s : State) (maxW : Nat) (l : List Nat) : Bool :=
  l != [] && !l.any (usedRegions s).contains
    && (bookDies l).all fun d => decide ((maxW * 10 : Nat) ≤ chitOf s d - reserveOf s d) && !rungAbove2 s d
/-- A book's reservation on its dies. -/
def bookReserve (s : State) (maxW : Nat) (l : List Nat) : State :=
  { s with pwr := { s.pwr with reserve := (bookDies l).foldl (fun t d => upd 0 t d (· + maxW * 10)) s.pwr.reserve } }
/-- Grants of a boundary to the pattern book. -/
def grantBook (s : State) : State :=
  match s.guard.book with
  | none => s
  | some (_, maxW, pts) =>
    let l := bookRegions pts
    let yield_ := s.guard.bookRunning && bookEnds s l
    if yield_ then bookYield s
    else if s.guard.bookRunning then bookReserve s maxW l
    else if bookMayRun s maxW l && !bookEnds s l then
      bookReserve (bookStart s pts l) maxW l
    else s

/-- Boundaries for which each ready docket has not fitted, or has starved (R482). -/
def countWaits (s : State) : State :=
  s.hif.ring.foldl (fun t e =>
    t.updRing e.1 fun g =>
      match readyDocket e.2 with
      | some d => { g with waits := if e.2.starving || !dkFits s e.1 d then g.waits + 1 else 0 }
      | none => { g with waits := 0 }) s

/-- The ladder of one boundary, and the clocks that follow from it. -/
def ladder (s : State) : State :=
  let s := (List.range 8).foldl rung1Die s
  let s := overRegions s rung3Region
  let s := (List.range 8).foldl rung4Die s
  let s := (List.range 16).foldl rung5Stack s
  let s := rung7 (meetThermal (rung6All s))
  if s.boot.computeOff || s.boot.state == 5 then s else overRegions s setClock

/-- CHIT_BOUNDARY. -/
def execChitBoundary (rd : Readings) (s : State) : Ans :=
  let s := takeChits (takeReadings (takeLimits s) rd) rd.energy
  let s := (List.range 8).foldl grantLink (ladder s)
  .next (countWaits (grantBook s))

/-! ### Trip, brake, clocks and module power -/

/-- Every region clock stops. -/
def stopClocks (s : State) : State :=
  { s with pwr := { s.pwr with reg := s.pwr.reg.foldl (fun t e =>
      upd {} t e.1 fun k => { k with step := none, changing := false }) s.pwr.reg } }

/-- THERMTRIP_ASSERT: the trip is carried out (R485, R493). -/
def execThermtripAssert (s : State) : Ans :=
  if s.pwr.tripping then
    let s := stopClocks { s with pins := { s.pins with thermtripHigh := false } }
    let cause := if s.boot.state = 0 ∨ s.boot.state = 4 then 5 else s.boot.cause
    .next { s with boot := { s.boot with state := 5, cause := cause, warmAsked := none } }
  else .next s

/-- REGION_CLOCK_CHANGE_COMPLETE. -/
def execRegionClockChangeComplete (die : Die) (reg : Fin 21) (s : State) : Ans :=
  .next (s.updReg die.val reg.val fun k => { k with changing := false })

/-- MODULE_POWER_CHECK: rung 2. -/
def execModulePowerCheck (watts : Nat) (s : State) : Ans :=
  let limit := s.pwr.limitNow.toNat
  let n := s.pwr.rung2
  let n := if limit < watts then min 50 (n + 1) else if 100 * watts < 98 * limit then n - 1 else n
  .next { s with pwr := { s.pwr with power := BitVec.ofNat 13 (satTo 13 watts), rung2 := n } }

/-- PWR_BRAKE_ASSERT: every region goes to step 0 without waiting for a boundary (R484). -/
def execPwrBrakeAssert (s : State) : Ans :=
  let s := { s with pins := { s.pins with brakeHigh := false } }
  let s := (List.range 8).foldl (fun s d => setCap6 s d 0) s
  .next (overRegions s fun s d r => if (s.regClk d r).step.isSome then setClock s d r else s)

/-- PWR_BRAKE_RELEASE. -/
def execPwrBrakeRelease (s : State) : Ans := .next { s with pins := { s.pins with brakeHigh := true } }

/-! ### Registers (R488, Tables 16.5–16.13) -/

/-- The highest rung in force. -/
def topRung (s : State) : Nat :=
  let p := s.pwr
  if p.tripping then 7
  else if (List.range 8).any (fun d => cap6Of s d != 16) then 6
  else if p.rung5 ≠ 0 then 5
  else if p.reg.any (fun e => e.2.cap4 != 16) then 4
  else if p.reg.any (fun e => e.2.cap3 != 16) then 3
  else if p.rung2 ≠ 0 then 2
  else if (List.range 8).any (fun d => chitCap s d != 16) then 1
  else 0

/-- A target clock that the register lists. -/
def targetListed (s : State) (f : Nat) : Bool :=
  60 ≤ f && f ≤ 140 && f % 5 == 0 && s.fuse.fmin.toNat ≤ f && f ≤ s.fuse.fmax.toNat

/-- A ready docket that charges the die does not fit. -/
def dieWaits (s : State) (d : Nat) : Bool :=
  (readyRings s).any fun x => (diesCharged s x.1 x.2.2).contains d && !dkFits s x.1 x.2.2

/-- `PWR_DIE_STATUS_d`. -/
def dieStatus (s : State) (d : Nat) : Nat :=
  wrap 16 (chitOf s d) + 2 ^ 16 * (effLimit s d / 100 % 1024) + 2 ^ 26 * b2n (dieWaits s d)
    + 2 ^ 27 * b2n (decide (chitCap s d < targetStep s d))

/-- Base of the PWR block (Table 14.2). -/
def pwrBase : Nat := 0xE000

/-- `PWR_REG_STATUS` of the selected region. -/
def regStatus (s : State) (d r : Nat) : Nat :=
  let k := s.regClk d r
  let g := grantedStep s d
  let f := match issueStep k with | some i => clockOf i | none => 0
  f + 2 ^ 8 * clockOf g + 2 ^ 16 * b2n (decide (k.cap4 < g)) + 2 ^ 17 * b2n (decide (k.cap3 < g))
    + 2 ^ 18 * b2n (decide (cap6Of s d < g)) + 2 ^ 19 * b2n (s.pwr.bookGrant.contains (21 * d + r))
    + 2 ^ 20 * wrap 10 (tempJ s d r)

/-- The reading that `PWR_TEMP` selects, none where the selection names no powered sensor. -/
def tempSelected (s : State) (sel : Nat) : Option Int :=
  let d := seg sel 5 3
  let i := seg sel 10 6
  match sel % 8 with
  | 0 => if (mappedRegions s d).contains i then some (tempJ s d i) else none
  | 1 => if i < 4 then some (tempB s d i) else none
  | 2 => if i < 24 then some (tempN s d i) else none
  | 3 => if i < 2 then some (tempH s (2 * d + i)) else none
  | 4 => if i < 2 then some (tempI s i) else none
  | _ => none

/-- A write of `PWR_REG_SEL` or `PWR_TEMP_SEL`: an unlisted REGION or KIND leaves that field. -/
def pwrSelWrite (s : State) (a : Agent) (o v : Nat) : State :=
  let old := selOf s a (pwrBase + o)
  if o = 0x80 then setSel s a (pwrBase + o) (v % 8 + 8 * (if seg v 7 3 ≤ 20 then seg v 7 3 else seg old 7 3))
  else setSel s a (pwrBase + o) ((if v % 8 ≤ 4 then v % 8 else old % 8) + 8 * seg v 10 3)

/-- Registers that function 0 does not map. -/
def pwrMgmtReg (s : State) (a : Agent) (o : Nat) : Option Reg :=
  let p := s.pwr
  let mp := isMp a
  if o = 0x00 then
    Reg.rwIf mp (p.limit.toNat + 2 ^ 16 * p.starve.toNat) fun v =>
      { s with pwr := { p with
          limit := BitVec.ofNat 13 v, starve := if v / 2 ^ 16 = 0 then p.starve else BitVec.ofNat 16 (v / 2 ^ 16) } }
  else if 0x20 ≤ o ∧ o < 0x40 ∧ o % 4 = 0 then
    let c := (o - 0x20) / 4
    Reg.rwIf (mp && c != 0) (rateOf p.rate c) fun v =>
      { s with pwr := { p with rate := Tbl.set none p.rate c (some (BitVec.ofNat 6 v)) } }
  else if 0x40 ≤ o ∧ o < 0x80 ∧ o % 8 = 0 then
    let d := (o - 0x40) / 8
    Reg.rwIf mp ((Tbl.get 420 p.dieLimit d).toNat + 2 ^ 10 * targetOf s p.ftarget d) fun v =>
      { s with pwr := { p with
          dieLimit := Tbl.set 420 p.dieLimit d (BitVec.ofNat 10 v)
          ftarget := if targetListed s (seg v 17 10) then
            Tbl.set none p.ftarget d (some (BitVec.ofNat 8 (seg v 17 10))) else p.ftarget } }
  else
    match o with
    | 0x80 | 0x90 => Reg.rw (selOf s a (pwrBase + o)) (pwrSelWrite s a o)
    | 0x84 => Reg.ro (regStatus s (selOf s a (pwrBase + 0x80) % 8) (seg (selOf s a (pwrBase + 0x80)) 7 3))
    | 0x94 =>
      match tempSelected s (selOf s a (pwrBase + 0x90)) with
      | some t => Reg.ro (wrap 11 t + 2 ^ 11)
      | none => Reg.ro 0
    | _ => none

/-- Registers of the PWR block. -/
def pwrReg (s : State) (a : Agent) (o : Nat) : Option Reg :=
  let p := s.pwr
  if o = 0x04 then
    Reg.rwIf (isMp a) (p.power.toNat + 2 ^ 13 * topRung s + 2 ^ 16 * b2n p.trip + 2 ^ 17 * b2n p.excursion
        + 2 ^ 18 * b2n (!s.pins.brakeHigh)) fun v =>
      { s with pwr := { p with trip := p.trip && !bitAt v 16, excursion := p.excursion && !bitAt v 17 } }
  else if 0x44 ≤ o ∧ o < 0x84 ∧ o % 8 = 4 then Reg.ro (dieStatus s ((o - 0x44) / 8))
  else if mgmt a then pwrMgmtReg s a o
  else none

end Sys2Proof.Machine
end

