-- ==== Sys2Proof/Machine/Boot.lean ====
section
/-!
DEFINITION. Resets and boot (R490–R505): the always-on domain, cold and warm resets, the boot sequence and its codes,
firmware images, the boot flash, shuttered mode, and the registers of the BOOT block.
-/
namespace Sys2Proof.Machine
open Sys2Proof

/-- Every value of a table changed by `f`. -/
def remake {α : Type} [DecidableEq α] (d : α) (f : α → α) (t : Tbl α) : Tbl α :=
  (t.map fun e => (e.1, f e.2)).filter fun e => decide (e.2 ≠ d)

/-- `f` applied `n` times. -/
def times {α : Type} : Nat → (α → α) → α → α
  | 0, _, a => a
  | n + 1, f, a => times n f (f a)

/-! ### The flash header (R497, R499) -/

/-- Copy 1 of the header is the one in use: that of the higher sequence number whose checksum holds (R35). -/
def hdrNewest (b : Boot) : Bool := if b.hdr0.good && b.hdr1.good then decide (b.hdr0.seq < b.hdr1.seq) else b.hdr1.good
/-- The header in use. -/
def hdrCopy (b : Boot) : FlashHeader := if hdrNewest b then b.hdr1 else b.hdr0
/-- PREFER. -/
def preferred (b : Boot) : Bool := (hdrCopy b).prefer
/-- A write of the header updates the older copy (R35). -/
def setPreferred (b : Boot) (p : Bool) : Boot :=
  let h : FlashHeader := { prefer := p, seq := (hdrCopy b).seq + 1 }
  if hdrNewest b then { b with hdr0 := h } else { b with hdr1 := h }

/-! ### What a reset keeps (Table 17.2) -/

/-- Bytes of the flash whose program or erase was cut short are open. -/
def garble (s : State) (t : Tbl Byte) : Tbl Byte :=
  match s.boot.op with
  | none => t
  | some (a, w) =>
    (List.range (if w.isSome then 4 else 65536)).foldl (fun t i => Tbl.set 0xFF t (a + i) (Config.freeByte s.free i)) t

/-- The patch records in flash. A write that a cold reset cuts short leaves either the complete new record or an older
copy whose checksum fails, and so the complete old record: which is open (R35), a free choice. -/
def keptRecord (o : Org) (cut_ whole : Bool) : Org :=
  let o := if !cut_ || o.writing.isNone then o
    else if whole then patchWritten o
    else o.putCopy { (if o.newest then o.copy0 else o.copy1) with good := false }
  { copy0 := o.copy0, copy1 := o.copy1 }

/-- A DRAM channel's darns and, at a warm reset, its calibrations; the band is that of its temperature. -/
def keptChan (warm : Bool) (c : ChanSt) : ChanSt :=
  { band := c.band, cal := if warm then c.cal else 0, usedBand := if warm then c.usedBand else 0, phys := c.phys }

/-- The channels and darn record of a base die. -/
def keptDie (warm : Bool) (m : DieMem) : DieMem :=
  { nm := remake {} (keptChan warm) m.nm, hbm := remake {} (keptChan warm) m.hbm, record := m.record }

/-- A link's darn record and, at a warm reset, its calibrations and its counts, which run since cold reset. -/
def keptLink (warm : Bool) (k : TLink) : TLink :=
  { recTx := k.recTx, recRx := k.recRx, recTxHalf := k.recTxHalf, recRxHalf := k.recRxHalf, band := k.band
    cal := if warm then k.cal else 0, usedBand := if warm then k.usedBand else 0, cnt := if warm then k.cnt else [] }

/-- UCIe modules stay degraded. -/
def keptD2d (l : D2d) : D2d := { half := l.half, off := l.off }

/-- The always-on domain and the flash. -/
def keptBoot (b : Boot) : Boot :=
  { count := b.count, why := b.why, whyDetail := b.whyDetail, cause := b.cause, lastWhy := b.lastWhy, flash := b.flash
    hdr0 := b.hdr0, hdr1 := b.hdr1 }

/-- What every reset keeps: fuses, records, degraded modules and the model's own fields. -/
def keptState (s : State) (warm : Bool) : State :=
  { State.reset with
    fuse := s.fuse, pins := s.pins, org := keptRecord s.org (!warm) (Config.freeBit s.free), d2d := remake {} keptD2d s.d2d
    mem := { die := remake {} (keptDie warm) s.mem.die }, tl := { link := remake {} (keptLink warm) s.tl.link }
    boot := keptBoot s.boot, rdata := s.rdata, out := s.out, pending := s.pending
    free := if !warm && s.org.writing.isSome then s.free + 1 else s.free }

/-- The module after a cold reset with a cause (R490, Table 17.2). -/
def coldState (s : State) (cause : BitVec 4) : State :=
  let t := keptState s false
  let t := if s.boot.op.isSome then { t with boot := { t.boot with flash := garble s t.boot.flash } }.useFree else t
  { t with pins := { t.pins with resetHigh := false, thermtripHigh := true }
           boot := { t.boot with cause := if s.boot.standby then 0 else cause, held := s.boot.held } }

/-- COLD_RESET: a power-up after a loss of VSTBY leaves CAUSE 0. -/
def execColdReset (s : State) : Ans := .next (coldState s 1)

/-! ### Warm resets (R492, R493) -/

/-- A warm reset is requested: ignored during a boot, a warm reset or the thermal-trip state. -/
def askWarm (s : State) (cause : BitVec 4) : State :=
  if s.boot.state = 0 ∨ s.boot.state = 4 ∨ s.boot.state = 5 then s
  else if s.boot.warmAsked.isSome then s
  else { s with boot := { s.boot with warmAsked := some cause } }

/-- SMBUS_WARM_RESET. -/
def execSmbusWarmReset (s : State) : Ans := .next (askWarm s 3)
/-- BOOT_RETRY_TIMER: 100 ms after a failed boot. -/
def execBootRetryTimer (s : State) : Ans := .next (if s.boot.state = 2 then askWarm s 4 else s)

/-- Every job stops and ends, and the dockets that have completed are answered. -/
def stopForReset (s : State) : State :=
  let s := stopAll s { cause := 4 }
  let s := (List.range 16).foldl (fun s w =>
    if (s.jobAt w).running then endJob (s.updJob w fun j => { j with clOver := j.clusters }) w else s) s
  s.hif.ring.foldl (fun s e => completeDocket s e.1) s

/-- Every report of a region ledger is forwarded to the device ledger. -/
def forwardAll (s : State) : State :=
  s.regLdg.foldl (fun s e =>
    let n := e.2.queues.foldl (fun n q => n + q.reps.length) 0
    let s := { s with regLdg := upd {} s.regLdg e.1 (times n regionTake) }
    times (n + 256 + 16) (fun s => forwardRegion s e.1) s) s

/-- The shelf caches are written back. -/
def writeBackAll (s : State) : State := (List.range 8).foldl (fun s d => flushCache s d fun _ => true) s

/-- A ring after a warm reset: closed, the generation of an open one advanced. -/
def warmRing (g : RingSt) : RingSt := { gen := if g.state = 0 then g.gen else g.gen + 1 }

/-- The module after the stop of a warm reset (Table 17.2). A field whose description counts since cold reset goes on:
it names its reset type, which R7 has decide (DEDUCED, log 130). -/
def warmState (s : State) (cause : BitVec 4) : State :=
  let t := keptState s true
  let m := s.mem
  { t with
    mem := { t.mem with nm := m.nm, hbm := m.hbm, hbmStain := m.hbmStain, nmRemade := m.nmRemade, nmDone := m.nmDone
                        table := m.table, twEn := m.twEn, twJob := m.twJob, mappedOut := m.mappedOut
                        peakNm := m.peakNm, peakHbm := m.peakHbm }
    tl := { t.tl with coord := s.tl.coord, size := s.tl.size }
    coll := { peak := s.coll.peak, staleDrop := s.coll.staleDrop, crcErr := s.coll.crcErr }
    press := { skipCount := s.press.skipCount, lost := s.press.lost }
    gct := { count := s.gct.count, frac := s.gct.frac, steps := s.gct.steps }
    ldg := s.ldg, pwr := { trip := s.pwr.trip }
    hif := { rate := s.hif.rate, width := s.hif.width, flit := s.hif.flit, ring := remake {} warmRing s.hif.ring }
    boot := { t.boot with state := 4, cause := cause, warmBoot := true, busy := s.boot.busy, op := s.boot.op } }

/-- WARM_RESET: it begins once REQ_BUSY is clear. -/
def execWarmReset (s : State) : Ans :=
  match s.boot.warmAsked with
  | some cause =>
    .next (if s.org.busy || s.boot.held then s
      else warmState (writeBackAll (forwardAll (stopForReset s))) cause)
  | none => .next s

/-! ### Firmware images (R497–R499, Table 17.6) -/

/-- Offset of an image slot. -/
def slotBase (b : Bool) : Nat := if b then 0x1100000 else 0x100000

/-- A signed block of the flash verifies. -/
def imageGood (s : State) (base magic : Nat) : Bool :=
  let h := flashBytes s base 128
  let n := fieldAt h 12 4
  let k := fieldAt h 8 1
  fieldAt h 0 4 == magic && 224 ≤ n && n ≤ 12 * 2 ^ 20 && fieldAt h 9 3 == 0 && allZero (cut h 112 16) && k < 4
    && sha384 (cut h 16 96) == (Tbl.get 0 s.fuse.rootKey k).toNat && !s.fuse.rootRevoked.getLsbD k
    && s.fuse.rollback ≤ fieldAt h 7 1 && signedBy (beNat (cut h 16 48), beNat (cut h 64 48)) (flashBytes s base n)

/-- The image that runs, if any verifies: the preferred one, then the other. -/
def chooseImage (s : State) : Option Bool :=
  let p := preferred s.boot
  if imageGood s (slotBase p) 0x4B574657 then some p
  else if imageGood s (slotBase !p) 0x4B574657 then some !p
  else none

/-- The image runs; the key block is verified. -/
def runImage (s : State) (b : Bool) : State :=
  let h := flashBytes s (slotBase b) 8
  { s with boot := { s.boot with
      image := b, imageRuns := true, fallback := b != preferred s.boot, fwver := BitVec.ofNat 16 (fieldAt h 4 2)
      epoch := BitVec.ofNat 8 (fieldAt h 7 1), keysBad := !imageGood s keyBlock 0x4B574B42 } }

/-! ### The boot sequence (R494–R496, Tables 17.3, 17.4) -/

/-- A boot fails with a code and the die concerned: compute dies are gated and links are held DOWN (R495). -/
def bootFail (s : State) (code : BitVec 8) (die : Nat) : State :=
  { s with
    boot := { s.boot with state := 2, why := code, whyDetail := BitVec.ofNat 8 die, lastWhy := code, computeOff := true
                          checked := false }
    tl := { s.tl with link := remake {} (fun k => { k with state := 0, train := 0, locked := false }) s.tl.link } }

/-- The straps are latched (R238). -/
def latchStraps (s : State) : State :=
  if s.boot.warmBoot then s else { s with tl := { s.tl with coord := s.pins.pos, size := s.pins.tsize } }
/-- A coordinate is not below the size of its dimension. -/
def strapsBad (s : State) : Bool :=
  (List.range 4).any fun d => decide (dimOf s.tl.size.toNat d < dimOf s.tl.coord.toNat d)

/-- The die of a die-to-die link with no working module. -/
def d2dDead (s : State) : Option Nat :=
  ((List.range 16).find? fun l => (List.range (d2dModules l)).all fun m =>
    (Tbl.get {} s.d2d l).off.getLsbD m).map d2dDie

/-- The lowest die at which the check of positions fails: a base die that reports another's position, or a compute die
that does not report that of its base die (R45). -/
def positionBad (s : State) : Option Nat :=
  let p := fun (d : Nat) => s.fuse.basePos.getD d 0
  (List.range 8).find? fun d => s.fuse.computePos.getD d 0 != p d || (List.range d).any fun e => p e == p d

/-- The patch tables are derived from the newer good copy of the record (R30, R34, R35). -/
def deriveMap (s : State) : State :=
  let o := s.org
  { s with org := { o with
      active := o.newest, inForce := o.copy.entries, inForceChans := o.copy.chans, mapped := true, pending := false } }
/-- A compute die with fewer than 20 usable regions. -/
def dieShort (s : State) : Option Nat := (List.range 8).find? fun d => (usableRegions s (Fin.ofNat 8 d)).length < 20

/-- Usable physical channels of near-memory die `k` of a stack. -/
def usableChans (s : State) (d k : Nat) : List Nat :=
  (List.range 33).filter fun p =>
    !s.fuse.badNm.contains (d, 33 * k + p) && !s.org.inForceChans.contains (d, 33 * k + p)
/-- Physical channel that backs a logical channel, if any (R217). -/
def chanBacking (s : State) (d c : Nat) : Option Nat := (usableChans s d (c / 32))[c % 32]?
/-- Groups that cannot be backed: of a channel without a backing, and of a pseudo-channel that is bad or that training
cannot repair (R218, R220). -/
def groupsOut (s : State) (f : BootFinds) : List (Nat × Nat × Nat) :=
  let near := (List.range 8).flatMap fun d =>
    (((List.range 128).filter fun c => (chanBacking s d c).isNone).map (· / 4)).eraseDups.map fun g => (0, d, g)
  let hbm := ((s.fuse.badHbm ++ f.unrepaired.map fun b => (b.1.val, b.2.val)).map fun b => (1, b.1, b.2 / 4)).eraseDups
  near ++ hbm
/-- The die of a stack with more than 8 groups mapped out. -/
def stackShort (l : List (Nat × Nat × Nat)) : Option Nat :=
  (l.find? fun x => decide (8 < (l.filter fun y => y.1 == x.1 && y.2.1 == x.2.1).length)).map fun x =>
    if x.1 = 0 then x.2.1 else x.2.1 / 2

/-- A near-memory channel once it is trained, with its darns on record. -/
def trainedNm (s : State) (d c : Nat) : ChanSt :=
  let k := nmCh s d c
  let p := (chanBacking s d c).getD 0
  let l := (Tbl.get [] (s.dieMem d).record (33 * (c / 32) + p)).take 2
  { k with phys := BitVec.ofNat 6 p, cal := k.cal ||| BitVec.ofNat 4 (2 ^ k.band.toNat)
           usedBand := k.band, darns := BitVec.ofNat 2 l.length, darned := l }
/-- An HBM4 channel once it is trained, with the lane repairs that training makes (R214). -/
def trainedHbm (s : State) (f : BootFinds) (d c : Nat) : ChanSt :=
  let k := hbmCh s d c
  let mine := f.repaired.filter fun r => r.1.val == 2 * d + c / 32 && r.2.1.val / 2 == c % 32
  { k with cal := k.cal ||| BitVec.ofNat 4 (2 ^ k.band.toNat), usedBand := k.band
           darned := mine.map fun r => 128 * (r.2.1.val % 2) + r.2.2 }
/-- A near-memory lane that training finds bad is darned at once (R219). -/
def darnFound (s : State) (d c l : Nat) : State :=
  if (nmCh s d c).darned.contains l then s
  else darnLanes (updNmCh s d c fun x => { x with marked := [l] }) d c
/-- Near-memory channels in use before the reset whose backing is not what it was. -/
def remadeChans (s : State) : List (Nat × Nat) :=
  (List.range 8).flatMap fun d => ((List.range 128).filter fun c =>
    match chanBacking s d c with
    | some p => (nmCh s d c).cal != 0 && p != (nmCh s d c).phys.toNat
    | none => false).map fun c => (d, c)
/-- The DRAM channels are trained and the groups mapped out; a channel newly backed is stained (R217–R222). -/
def trainDram (s : State) (f : BootFinds) : State :=
  let fresh := if s.boot.warmBoot then remadeChans s else []
  let s := (List.range 8).foldl (fun s d =>
    let nm := (List.range 128).map fun c => (c, trainedNm s d c)
    let hbm := (List.range 64).map fun c => (c, trainedHbm s f d c)
    s.updDieMem d fun m => { m with nm := nm, hbm := hbm }) s
  let s := f.badLanes.foldl (fun s b => darnFound s b.1.val b.2.1.val b.2.2.val) s
  { s with mem := { s.mem with
      mappedOut := groupsOut s f
      nmRemade := fresh.foldl (fun l x => if l.contains x then l else l ++ [x]) s.mem.nmRemade
      nmDone := s.mem.nmDone.filter fun e => !fresh.contains (e.1 / 2 ^ 31, nmChan (e.1 % 2 ^ 31)) } }

/-- Every enabled link begins to train. -/
def startLinks (s : State) : State :=
  (List.range 32).foldl (fun s l => if linkEn s l then s.updLink l startTraining else s) s

/-- The rest of the boot, from the memories on. -/
def bootMemory (s : State) (f : BootFinds) : State :=
  match stackShort (groupsOut s f) with
  | some d => bootFail s 0x08 d
  | none =>
    let s := trainDram s f
    if f.fwFault then bootFail s 0x09 0 else { s with boot := { s.boot with checked := true, computeOff := false } }

/-- The boot from the patch tables on: they are derived, and the compute dies are powered and checked. -/
def bootRegions (s : State) (f : BootFinds) : State :=
  let s := deriveMap s
  match dieShort s with
  | some d => bootFail s 0x05 d
  | none =>
    match f.dieFails with
    | some (.compute d) => bootFail s 0x07 d.val
    | _ => bootMemory (startLinks s) f

/-- The boot from the dies on. The I/O die and the base dies are checked before their links are trained (log 110). -/
def bootDies (s : State) (f : BootFinds) : State :=
  match f.dieFails with
  | some .io => bootFail s 0x07 0
  | some (.base d) => bootFail s 0x07 d.val
  | _ =>
    match f.d2dDown, d2dDead s, positionBad s with
    | some d, _, _ => bootFail s 0x06 d.val
    | none, some d, _ => bootFail s 0x06 d
    | none, none, some d => bootFail s 0x04 d
    | none, none, none => bootRegions s f

/-- Shuttered mode (R501). -/
def enterShuttered (s : State) : State :=
  let s := { s with boot := { s.boot with state := 3, computeOff := true, checked := false } }
  startLinks (match chooseImage s with
    | some b => runImage s b
    | none => s)

/-- BOOT_START: the checks of a boot in the order of Table 17.3, or shuttered mode. -/
def execBootStart (f : BootFinds) (s : State) : Ans :=
  if s.boot.held ∨ (s.boot.state ≠ 0 ∧ s.boot.state ≠ 4) ∨ s.boot.checked = true then .next s
  else
    let s := latchStraps { s with pins := { s.pins with resetHigh := true } }
    if 3 ≤ s.boot.count.toNat then .next (enterShuttered s)
    else
      let s := { s with boot := { s.boot with count := s.boot.count + 1, state := 0 } }
      if strapsBad s then .next (bootFail s 0x03 0)
      else
        match chooseImage s with
        | none => .next (bootFail s 0x02 0)
        | some b => .next (bootDies (runImage s b) f)

/-- BOOT_READY: the counter and `BOOT_WHY` are cleared. -/
def execBootReady (s : State) : Ans :=
  .next (if s.boot.state = 0 ∧ s.boot.checked = true then
    { s with boot := { s.boot with state := 1, count := 0, why := 0, whyDetail := 0, checked := false, warmBoot := false } }
    else s)

/-- BOOT_TIMEOUT. -/
def execBootTimeout (s : State) : Ans := .next (if s.boot.state = 0 then bootFail s 0x01 0 else s)

/-- CONFIGURATION_REQUEST to function 0: retried before READY, and completed from READY and in shuttered mode. -/
def execConfigurationRequest (s : State) : Ans :=
  .next (if pcieUp s then
      (if s.boot.state = 1 ∨ s.boot.state = 3 ∨ s.boot.state = 5 then s.emit .configDone else s.emit .retryStatus)
    else s)

/-- VSTBY_LOSS (R491). -/
def execVstbyLoss (s : State) : Ans :=
  .next { s with boot := { s.boot with
      count := 0, why := 0, whyDetail := 0, cause := 0, lastWhy := 0, standby := true } }

/-! ### The boot flash (R500, R505) -/

/-- The bytes may be programmed or erased: the slot of an image that is not running, and the key block. -/
def flashOpen (s : State) (a : Nat) : Bool :=
  let slot := fun (b : Bool) => decide (slotBase b ≤ a) && decide (a < slotBase b + 2 ^ 24)
  (keyBlock ≤ a && a < keyBlock + 0x10000)
    || (slot false && !(s.boot.imageRuns && !s.boot.image)) || (slot true && !(s.boot.imageRuns && s.boot.image))

/-- A program or erase begins, or sets REJECT. -/
def flashBegin (s : State) (a : Nat) (w : Option Word) : State × Bool :=
  if s.boot.busy || !flashOpen s a then ({ s with boot := { s.boot with reject := true } }, false)
  else ({ s with boot := { s.boot with busy := true, op := some (a, w) } }, true)

/-- Write of `BOOT_FLASH_DATA`. -/
def flashDataWrite (s : State) (v : Nat) : State :=
  let (s, ok) := flashBegin s s.boot.addr.toNat (some (BitVec.ofNat 32 v))
  if ok then { s with boot := { s.boot with addr := s.boot.addr + 4 } } else s

/-- The value and effect of a read of `BOOT_FLASH_DATA`. The records below the key block are kept apart from the bytes
of the flash, and read as free bytes (log 16). -/
def flashDataRead (s : State) : Nat × State :=
  if s.boot.busy then (0xFFFFFFFF, s)
  else
    let a := s.boot.addr.toNat
    let t := { s with boot := { s.boot with addr := s.boot.addr + 4 } }
    if a < keyBlock then (leNat ((List.range 4).map (Config.freeByte s.free)), t.useFree)
    else (leNat (flashBytes s a 4), t)

/-- Write of `BOOT_FLASH_CMD`: REJECT is cleared, then the erase begins or is rejected (R505). -/
def flashCmdWrite (s : State) (v : Nat) : State :=
  let s := if bitAt v 2 then { s with boot := { s.boot with reject := false } } else s
  if bitAt v 0 then (flashBegin s (s.boot.addr.toNat / 65536 * 65536) none).1 else s

/-- The agents that map the BOOT block whole. -/
def bootAgent (a : Agent) : Bool := a != .fn0

/-- BOOT_FLASH_PROGRAM. -/
def execBootFlashProgram (a : Agent) (v : Word) (s : State) : Ans :=
  .next (if bootAgent a then flashDataWrite s v.toNat else s)
/-- BOOT_FLASH_DATA_READ. -/
def execBootFlashDataRead (a : Agent) (s : State) : Ans :=
  .next (if bootAgent a then respond (flashDataRead s).2 a (flashDataRead s).1 else respond s a 0)
/-- BOOT_FLASH_ERASE. -/
def execBootFlashErase (a : Agent) (v : Word) (s : State) : Ans :=
  .next (if bootAgent a then flashCmdWrite s v.toNat else s)

/-- FLASH_OP_COMPLETE: a program clears bits of the bytes, and an erase sets every byte of the sector to 0xFF. -/
def execFlashOpComplete (s : State) : Ans :=
  let b := { s.boot with busy := false, op := none }
  match s.boot.op with
  | some (a, some w) =>
    .next { s with boot := { b with flash := (List.range 4).foldl (fun t i =>
      Tbl.set 0xFF t (a + i) (Tbl.get 0xFF t (a + i) &&& w.extractLsb' (8 * i) 8)) b.flash } }
  | some (a, none) =>
    .next { s with boot := { b with flash := b.flash.filter fun e => decide (e.1 < a) || decide (a + 65536 ≤ e.1) } }
  | none => .next s

/-! ### `BOOT_CTL` and the registers (R504, Tables 17.7–17.13) -/

/-- Write of `BOOT_CTL`: CLR_COUNT, SETPREF and RAISE_FLOOR first, then WARM (R502). -/
def bootCtlWrite (s : State) (v : Nat) : State :=
  let b := s.boot
  let b := if bitAt v 1 then { b with count := 0 } else b
  let b := if bitAt v 2 then (if b.busy then { b with reject := true } else setPreferred b (bitAt v 3)) else b
  let floor := if bitAt v 4 && b.imageRuns && !b.fallback then max s.fuse.rollback (min 64 b.epoch.toNat) else s.fuse.rollback
  let s := { s with boot := b, fuse := { s.fuse with rollback := floor } }
  if bitAt v 0 then askWarm s 2 else s

/-- BOOT_CTL_WARM. -/
def execBootCtlWarm (a : Agent) (v : Word) (s : State) : Ans := .next (if bootAgent a then bootCtlWrite s v.toNat else s)
/-- BOOT_CTL_CLR_COUNT. -/
def execBootCtlClrCount (a : Agent) (v : Word) (s : State) : Ans :=
  .next (if bootAgent a then bootCtlWrite s v.toNat else s)
/-- BOOT_CTL_SETPREF. -/
def execBootCtlSetpref (a : Agent) (v : Word) (s : State) : Ans := .next (if bootAgent a then bootCtlWrite s v.toNat else s)
/-- BOOT_CTL_RAISE_FLOOR. -/
def execBootCtlRaiseFloor (a : Agent) (v : Word) (s : State) : Ans :=
  .next (if bootAgent a then bootCtlWrite s v.toNat else s)

/-- Registers of the BOOT block. -/
def bootReg (s : State) (a : Agent) (o : Nat) : Option Reg :=
  let b := s.boot
  match o with
  | 0x00 =>
    Reg.ro (b.state.toNat + 2 ^ 3 * b2n b.image + 2 ^ 4 * b2n b.fallback + 2 ^ 8 * b.count.toNat + 2 ^ 16 * b.fwver.toNat)
  | 0x04 => Reg.ro (b.why.toNat + 2 ^ 8 * b.whyDetail.toNat)
  | _ =>
    if bootAgent a then
      match o with
      | 0x08 => Reg.ro (b.cause.toNat + 2 ^ 4 * b.lastWhy.toNat)
      | 0x0C => Reg.wo_ (bootCtlWrite s)
      | 0x10 => Reg.rw b.addr.toNat fun v => { s with boot := { b with addr := BitVec.ofNat 26 (v / 4 * 4) } }
      | 0x14 => some { val := (flashDataRead s).1, put := some (flashDataWrite s), took := some (flashDataRead s).2 }
      | 0x18 => Reg.rw (2 * b2n b.busy + 4 * b2n b.reject) (flashCmdWrite s)
      | _ => none
    else none

/-! ### Rails, clocks and SMBus (R510, R512, R515) -/

/-- The module is held in reset while a monitored rail is low or REFCLK is absent. -/
def holdReset (s : State) : State :=
  { s with boot := { s.boot with held := s.pins.railsLow != 0 || !s.pins.refclk } }

/-- RAIL_UNDERVOLTAGE: VSTBY, rail 0, has no monitor. -/
def execRailUndervoltage (rail : Fin 24) (s : State) : Ans :=
  if rail.val = 0 then .next s
  else
    let s := { s with pins := { s.pins with railsLow := s.pins.railsLow ||| BitVec.ofNat 24 (2 ^ rail.val) } }
    .next (holdReset (coldState s 1))

/-- RAIL_RETURN: the last rail to return lets the module cold-reset and boot. -/
def execRailReturn (rail : Fin 24) (s : State) : Ans :=
  if s.pins.railsLow.getLsbD rail.val then
    let s := { s with pins := { s.pins with railsLow := s.pins.railsLow &&& ~~~ BitVec.ofNat 24 (2 ^ rail.val) } }
    .next (holdReset (coldState s 1))
  else .next s

/-- REFCLK_LOSS. -/
def execRefclkLoss (s : State) : Ans :=
  .next (holdReset (coldState { s with pins := { s.pins with refclk := false } } 1))

/-- REFCLK_RETURN. -/
def execRefclkReturn (s : State) : Ans :=
  .next (if s.pins.refclk then s else holdReset (coldState { s with pins := { s.pins with refclk := true } } 1))

/-- SMBUS_ALERT_RESPONSE: answered while `SMB_ALERT_L` is low. -/
def execSmbusAlertResponse (s : State) : Ans :=
  .next (if s.boot.state = 2 ∨ s.boot.state = 3 ∨ s.boot.state = 5 then
    s.emit (.smbusAddr (0x38 + s.pins.smbAddr.setWidth 7)) else s)

end Sys2Proof.Machine
end

