-- ==== Sys2Proof/Machine/Regs.lean ====
section
/-!
DEFINITION. The register space (R6–R15, R431, R432, R523): the blocks of Table 14.2, and what a 4-byte, an 8-byte and a
malformed access of an agent do.
-/
namespace Sys2Proof.Machine
open Sys2Proof

/-- Registers of the DET, INJ, FIT, MEND, GUILD, REC and APR blocks. -/
def guardBlocks (s : State) (a : Agent) (i o : Nat) : Option Reg :=
  match i with
  | 0 => detReg s a o
  | 1 => injReg s a o
  | 2 => fitReg s a o
  | 3 => mendReg s a o
  | 4 => guildReg s a o
  | 5 => recReg s a o
  | 6 => aprReg s a o
  | _ => none

/-- Registers of the SEQ block (R137, R432). -/
def seqBlock (s : State) (o : Nat) : Option Reg :=
  match clOfId (o / 0x40) with
  | some q => (seqReg s q (o % 0x40)).map fun v => { val := v, wide := o % 0x40 == 0x08 || o % 0x40 == 0x18 }
  | none => none

/-- The MEM block. -/
def memBlock (s : State) (a : Agent) (o : Nat) : Option Reg :=
  match memReg s a o with
  | some r => some r
  | none => acctReg s a o

/-- Blocks of 4 KiB below 0x1_0000. -/
def lowBlock (s : State) (a : Agent) (b o : Nat) : Option Reg :=
  if b = 0x0 then orgReg s a o
  else if b = 0x1 then memBlock s a o
  else if b = 0x2 then slcReg s a o
  else if b = 0x3 then collReg s a o
  else if b = 0x4 then pressReg s a o
  else if b = 0x5 then gctReg s a o
  else if b ≤ 0xC then guardBlocks s a (b - 6) o
  else if b = 0xE then pwrReg s a o
  else if b = 0xF then bootReg s a o
  else none

/-- The register of Table 14.2 at an offset, as an agent meets it; none where nothing is mapped. -/
def regMap (s : State) (a : Agent) (o : Nat) : Option Reg :=
  if o < 0x10000 then lowBlock s a (o / 0x1000) (o % 0x1000)
  else if o < 0x20000 then irqReg s a (o - 0x10000)
  else if o < 0x30000 then hifReg s a (o - 0x20000)
  else if o < 0x50000 then ringReg s a (o - 0x30000)
  else if o < 0x58000 then shelfReg s a (o / 0x1000 % 8) (o % 0x1000)
  else if o < 0x60000 then nmReg s a (o / 0x1000 % 8) (o % 0x1000)
  else if o < 0x68000 then tlReg s a (o / 0x1000 % 8) (o % 0x1000)
  else if 0x80000 ≤ o ∧ o < 0xC0000 then ldgReg s a (o - 0x80000)
  else if 0xC0000 ≤ o ∧ o < 0x100000 then seqBlock s (o - 0xC0000)
  else
    match agFn a with
    | some f =>
      if 0x3F0000 ≤ o ∧ o < 0x3F8000 then msixTableReg s f (o - 0x3F0000)
      else if 0x3F8000 ≤ o ∧ o < 0x400000 then pbaReg s f (o - 0x3F8000)
      else none
    | none => none

/-- The register at an offset for an agent: SMBus reaches the BOOT block alone (R504), and function 0's BARs answer
nothing in shuttered mode (R501). -/
def regAt (s : State) (a : Agent) (o : Nat) : Option Reg :=
  match a with
  | .smbus => if 0xF000 ≤ o ∧ o < 0x10000 then bootReg s a (o - 0xF000) else none
  | .fn0 => if s.boot.state = 3 then none else regMap s a o
  | _ => regMap s a o

/-! ### Accesses (R13, R523) -/

/-- The snapshot that an agent holds of a 64-bit register. -/
def snapOf (s : State) (a : Agent) (o : Nat) : Nat := (Tbl.get 0 s.snap (o * 8 + agNum a)).toNat
/-- Take a snapshot. -/
def takeSnap (s : State) (a : Agent) (o v : Nat) : State :=
  { s with snap := Tbl.set 0 s.snap (o * 8 + agNum a) (BitVec.ofNat 64 v) }

/-- The 64-bit register whose `_HI` half is at an offset. -/
def hiOf (s : State) (a : Agent) (o : Nat) : Option Reg :=
  if o < 4 then none else (regAt s a (o - 4)).filter (·.wide)

/-- A 4-byte read: its value and the state after it. -/
def read32 (s : State) (a : Agent) (o : Nat) : Nat × State :=
  match regAt s a o with
  | some r =>
    let t := r.took.getD s
    if r.wide then (r.val % 2 ^ 32, takeSnap t a o r.val) else (r.val % 2 ^ 32, t)
  | none =>
    match hiOf s a o with
    | some _ => (snapOf s a (o - 4) / 2 ^ 32, s)
    | none => (0, s)

/-- What a write does to a register. -/
def putReg (s : State) (r : Reg) (v : Nat) : State :=
  match r.put with
  | some f => f v
  | none => s

/-- Commit a 64-bit write at its `_HI` half: the low half is the one held, or 0 for a write-only register, or the
current one. -/
def commitHi (s : State) (a : Agent) (o v : Nat) : State :=
  let lo := o - 4
  match regAt (dropLo s a lo) a lo with
  | some r =>
    let low := (heldOf s a lo).getD (if r.wo then 0 else r.val % 2 ^ 32)
    putReg (dropLo s a lo) r (low + 2 ^ 32 * v)
  | none => s

/-- A 4-byte write. -/
def write32 (s : State) (a : Agent) (o v : Nat) : State :=
  match regAt s a o with
  | some r => if r.wide then (if r.put.isSome then holdLo s a o v else s) else putReg s r v
  | none =>
    match hiOf s a o with
    | some _ => commitHi s a o v
    | none => s

/-- A 4-byte read of an aligned offset answers its agent. -/
def regRead (s : State) (a : Agent) (o : Nat) : State :=
  if o % 4 = 0 then respond (read32 s a o).2 a (read32 s a o).1 else respond s a 0
/-- A 4-byte write of an aligned offset. -/
def regWrite (s : State) (a : Agent) (o v : Nat) : State := if o % 4 = 0 then write32 s a o v else s

/-- REG_LO_READ_SNAPSHOT; a read of any other register returns its value. -/
def execRegLoReadSnapshot (a : Agent) (off : BitVec 32) (s : State) : Ans := .next (regRead s a off.toNat)
/-- REG_LO_WRITE_HOLD. -/
def execRegLoWriteHold (a : Agent) (off : BitVec 32) (v : Word) (s : State) : Ans :=
  .next (regWrite s a off.toNat v.toNat)
/-- REG_HI_WRITE_COMMIT. -/
def execRegHiWriteCommit (a : Agent) (off : BitVec 32) (v : Word) (s : State) : Ans :=
  .next (regWrite s a off.toNat v.toNat)
/-- REG_WRITE. -/
def execRegWrite (a : Agent) (off : BitVec 32) (v : Word) (s : State) : Ans := .next (regWrite s a off.toNat v.toNat)
/-- SELECT_REGISTER_WRITE. -/
def execSelectRegisterWrite (a : Agent) (off : BitVec 32) (v : Word) (s : State) : Ans :=
  .next (regWrite s a off.toNat v.toNat)

/-- An 8-byte read of an aligned offset. -/
def read64 (s : State) (a : Agent) (o : Nat) : Nat × State :=
  match (regAt s a o).filter (·.wide) with
  | some r => (r.val % 2 ^ 64, r.took.getD s)
  | none =>
    let (lo, t) := read32 s a o
    let (hi, t) := read32 t a (o + 4)
    (lo + 2 ^ 32 * hi, t)
/-- An 8-byte write of an aligned offset. The low half that the agent holds stays held (DESIGN CHOICE, log 121). -/
def write64 (s : State) (a : Agent) (o v : Nat) : State :=
  match (regAt s a o).filter (·.wide) with
  | some r => putReg s r v
  | none => write32 (write32 s a o (v % 2 ^ 32)) a (o + 4) (v / 2 ^ 32)

/-- REG_ATOMIC_64_ACCESS. -/
def execRegAtomic64Access (a : Agent) (off : BitVec 32) (write : Option DWord) (s : State) : Ans :=
  let o := off.toNat
  match write with
  | some v => .next (if o % 8 = 0 then write64 s a o v.toNat else s)
  | none => .next (if o % 8 = 0 then respond (read64 s a o).2 a (read64 s a o).1 else respond s a 0)

/-- REG_MALFORMED_ACCESS: a read returns 0, and nothing else happens. -/
def execRegMalformedAccess (a : Agent) (off : BitVec 32) (bytes : Nat) (write : Bool) (s : State) : Ans :=
  let good := (bytes = 4 ∧ off.toNat % 4 = 0) ∨ (bytes = 8 ∧ off.toNat % 8 = 0)
  .next (if write ∨ good then s else respond s a 0)

end Sys2Proof.Machine
end

