-- ==== Sys2Proof/Machine/Dispatch.lean ====
section
/-!
DEFINITION. The dispatch of a command to its meaning, one arm per constructor.
-/
namespace Sys2Proof.Machine
open Sys2Proof

def exec (i : Instr) (s : State) : Host.Outcome State Fault Refusal :=
  match i with
  | .regLoReadSnapshot a off => Sys2Proof.Machine.execRegLoReadSnapshot a off s
  | .regLoWriteHold a off v => Sys2Proof.Machine.execRegLoWriteHold a off v s
  | .regHiWriteCommit a off v => Sys2Proof.Machine.execRegHiWriteCommit a off v s
  | .regAtomic64Access a off write => Sys2Proof.Machine.execRegAtomic64Access a off write s
  | .regMalformedAccess a off bytes write => Sys2Proof.Machine.execRegMalformedAccess a off bytes write s
  | .regWrite a off v => Sys2Proof.Machine.execRegWrite a off v s
  | .selectRegisterWrite a off v => Sys2Proof.Machine.execSelectRegisterWrite a off v s
  | .orgPatchReq a v => Sys2Proof.Machine.execOrgPatchReq a v s
  | .orgPatchReqPhys a v => Sys2Proof.Machine.execOrgPatchReqPhys a v s
  | .patchFlashWriteComplete => Sys2Proof.Machine.execPatchFlashWriteComplete s
  | .d2dFrameReceive link up frame => Sys2Proof.Machine.execD2dFrameReceive link up frame s
  | .d2dLaneFailure link module runsAtX8 => Sys2Proof.Machine.execD2dLaneFailure link module runsAtX8 s
  | .nop q w => Sys2Proof.Machine.execNop q w s
  | .endw q w => Sys2Proof.Machine.execEndw q w s
  | .abort q w => Sys2Proof.Machine.execAbort q w s
  | .jmp q w => Sys2Proof.Machine.execJmp q w s
  | .jal q w => Sys2Proof.Machine.execJal q w s
  | .jr q w => Sys2Proof.Machine.execJr q w s
  | .beq q w => Sys2Proof.Machine.execBeq q w s
  | .bne q w => Sys2Proof.Machine.execBne q w s
  | .blt q w => Sys2Proof.Machine.execBlt q w s
  | .bge q w => Sys2Proof.Machine.execBge q w s
  | .bltu q w => Sys2Proof.Machine.execBltu q w s
  | .bgeu q w => Sys2Proof.Machine.execBgeu q w s
  | .bstn q w => Sys2Proof.Machine.execBstn q w s
  | .add q w => Sys2Proof.Machine.execAdd q w s
  | .sub q w => Sys2Proof.Machine.execSub q w s
  | .mul q w => Sys2Proof.Machine.execMul q w s
  | .mulhu q w => Sys2Proof.Machine.execMulhu q w s
  | .andw q w => Sys2Proof.Machine.execAndw q w s
  | .orw q w => Sys2Proof.Machine.execOrw q w s
  | .xorw q w => Sys2Proof.Machine.execXorw q w s
  | .shl q w => Sys2Proof.Machine.execShl q w s
  | .shr q w => Sys2Proof.Machine.execShr q w s
  | .sra q w => Sys2Proof.Machine.execSra q w s
  | .slt q w => Sys2Proof.Machine.execSlt q w s
  | .sltu q w => Sys2Proof.Machine.execSltu q w s
  | .min q w => Sys2Proof.Machine.execMin q w s
  | .max q w => Sys2Proof.Machine.execMax q w s
  | .addi q w => Sys2Proof.Machine.execAddi q w s
  | .li q w => Sys2Proof.Machine.execLi q w s
  | .fadd q w => Sys2Proof.Machine.execFadd q w s
  | .fmul q w => Sys2Proof.Machine.execFmul q w s
  | .fmax q w => Sys2Proof.Machine.execFmax q w s
  | .fmin q w => Sys2Proof.Machine.execFmin q w s
  | .fcvtFi q w => Sys2Proof.Machine.execFcvtFi q w s
  | .fcvtIf q w => Sys2Proof.Machine.execFcvtIf q w s
  | .rdid q w => Sys2Proof.Machine.execRdid q w s
  | .sstn q w => Sys2Proof.Machine.execSstn q w s
  | .mset q w => Sys2Proof.Machine.execMset q w s
  | .mget q w => Sys2Proof.Machine.execMget q w s
  | .ldw q w => Sys2Proof.Machine.execLdw q w s
  | .ldlev q w => Sys2Proof.Machine.execLdlev q w s
  | .ldbase q w => Sys2Proof.Machine.execLdbase q w s
  | .ldbump q w => Sys2Proof.Machine.execLdbump q w s
  | .ldmov q w => Sys2Proof.Machine.execLdmov q w s
  | .ldrd q w => Sys2Proof.Machine.execLdrd q w s
  | .fenceM q w => Sys2Proof.Machine.execFenceM q w s
  | .fenceE q w => Sys2Proof.Machine.execFenceE q w s
  | .sig q w => Sys2Proof.Machine.execSig q w s
  | .waits q w => Sys2Proof.Machine.execWaits q w s
  | .sld q w => Sys2Proof.Machine.execSld q w s
  | .numfRd q w => Sys2Proof.Machine.execNumfRd q w s
  | .numfClr q w => Sys2Proof.Machine.execNumfClr q w s
  | .cstartBarrier q w => Sys2Proof.Machine.execCstartBarrier q w s
  | .cstartAllReduce q w => Sys2Proof.Machine.execCstartAllReduce q w s
  | .cstartReduceScatter q w => Sys2Proof.Machine.execCstartReduceScatter q w s
  | .cstartAllGather q w => Sys2Proof.Machine.execCstartAllGather q w s
  | .cstartAllToAll q w => Sys2Proof.Machine.execCstartAllToAll q w s
  | .cstartGlobalNorm q w => Sys2Proof.Machine.execCstartGlobalNorm q w s
  | .cwait q w => Sys2Proof.Machine.execCwait q w s
  | .mma q w => Sys2Proof.Machine.execMma q w s
  | .minplus q w => Sys2Proof.Machine.execMinplus q w s
  | .maxplus q w => Sys2Proof.Machine.execMaxplus q w s
  | .absdiff q w => Sys2Proof.Machine.execAbsdiff q w s
  | .sqdiff q w => Sys2Proof.Machine.execSqdiff q w s
  | .cmpcnt q w => Sys2Proof.Machine.execCmpcnt q w s
  | .argmax q w => Sys2Proof.Machine.execArgmax q w s
  | .vadd q w => Sys2Proof.Machine.execVadd q w s
  | .vsub q w => Sys2Proof.Machine.execVsub q w s
  | .vmul q w => Sys2Proof.Machine.execVmul q w s
  | .vfma q w => Sys2Proof.Machine.execVfma q w s
  | .vmax q w => Sys2Proof.Machine.execVmax q w s
  | .vmin q w => Sys2Proof.Machine.execVmin q w s
  | .vabs q w => Sys2Proof.Machine.execVabs q w s
  | .vneg q w => Sys2Proof.Machine.execVneg q w s
  | .vexp2 q w => Sys2Proof.Machine.execVexp2 q w s
  | .vlog2 q w => Sys2Proof.Machine.execVlog2 q w s
  | .vrcp q w => Sys2Proof.Machine.execVrcp q w s
  | .vrsqrt q w => Sys2Proof.Machine.execVrsqrt q w s
  | .vcvt q w => Sys2Proof.Machine.execVcvt q w s
  | .vcmp q w => Sys2Proof.Machine.execVcmp q w s
  | .vredmax q w => Sys2Proof.Machine.execVredmax q w s
  | .vredsum q w => Sys2Proof.Machine.execVredsum q w s
  | .vmxq q w => Sys2Proof.Machine.execVmxq q w s
  | .vsmerge q w => Sys2Proof.Machine.execVsmerge q w s
  | .vrand q w => Sys2Proof.Machine.execVrand q w s
  | .vcopy q w => Sys2Proof.Machine.execVcopy q w s
  | .siLd q w => Sys2Proof.Machine.execSiLd q w s
  | .siGath q w => Sys2Proof.Machine.execSiGath q w s
  | .siWld q w => Sys2Proof.Machine.execSiWld q w s
  | .soSt q w => Sys2Proof.Machine.execSoSt q w s
  | .soScat q w => Sys2Proof.Machine.execSoScat q w s
  | .icacheMissFill q => Sys2Proof.Machine.execIcacheMissFill q s
  | .signalArrive src tgt ctr => Sys2Proof.Machine.execSignalArrive src tgt ctr s
  | .seqCtxTimeout q => Sys2Proof.Machine.execSeqCtxTimeout q s
  | .jobStopReachCluster q => Sys2Proof.Machine.execJobStopReachCluster q s
  | .clusterStopped q => Sys2Proof.Machine.execClusterStopped q s
  | .clusterEnded q => Sys2Proof.Machine.execClusterEnded q s
  | .clusterStartIssue q => Sys2Proof.Machine.execClusterStartIssue q s
  | .arrayInstrStart q c => Sys2Proof.Machine.execArrayInstrStart q c s
  | .arrayFeedStep q c arr row flips => Sys2Proof.Machine.execArrayFeedStep q c arr row flips s
  | .arrayProductEnter q c arr upset => Sys2Proof.Machine.execArrayProductEnter q c arr upset s
  | .arrayDrain q c arr col => Sys2Proof.Machine.execArrayDrain q c arr col s
  | .drainAccept q c arr col => Sys2Proof.Machine.execDrainAccept q c arr col s
  | .arrayPark q c arr => Sys2Proof.Machine.execArrayPark q c arr s
  | .arrayResume q c arr => Sys2Proof.Machine.execArrayResume q c arr s
  | .weightLoadStart q c => Sys2Proof.Machine.execWeightLoadStart q c s
  | .weightLoadComplete q c => Sys2Proof.Machine.execWeightLoadComplete q c s
  | .vectorInstrStart q c => Sys2Proof.Machine.execVectorInstrStart q c s
  | .vectorGroup q c => Sys2Proof.Machine.execVectorGroup q c s
  | .vectorResultWrite q c => Sys2Proof.Machine.execVectorResultWrite q c s
  | .streamInInstrStart q c => Sys2Proof.Machine.execStreamInInstrStart q c s
  | .streamOutInstrStart q c => Sys2Proof.Machine.execStreamOutInstrStart q c s
  | .streamSectorIssue q c at_ => Sys2Proof.Machine.execStreamSectorIssue q c at_ s
  | .streamReadReturn q c n => Sys2Proof.Machine.execStreamReadReturn q c n s
  | .streamWriteComplete q c n => Sys2Proof.Machine.execStreamWriteComplete q c n s
  | .engineInstrComplete q c e => Sys2Proof.Machine.execEngineInstrComplete q c e s
  | .xlatLookup r => Sys2Proof.Machine.execXlatLookup r s
  | .xlatMissFill die win vframe victim => Sys2Proof.Machine.execXlatMissFill die win vframe victim s
  | .nmSectorRead r upset => Sys2Proof.Machine.execNmSectorRead r upset s
  | .nmSectorWrite r upset => Sys2Proof.Machine.execNmSectorWrite r upset s
  | .hbmSectorRead r rep => Sys2Proof.Machine.execHbmSectorRead r rep s
  | .hbmSectorWrite r rep => Sys2Proof.Machine.execHbmSectorWrite r rep s
  | .sramAccess p write flips => Sys2Proof.Machine.execSramAccess p write flips s
  | .shelfCacheAccess die win vframe sector evicts victim => Sys2Proof.Machine.execShelfCacheAccess die win vframe sector evicts victim s
  | .patrolScrub hbm stack sec upset rep => Sys2Proof.Machine.execPatrolScrub hbm stack sec upset rep s
  | .hbmRefreshManagement stack pch bank => Sys2Proof.Machine.execHbmRefreshManagement stack pch bank s
  | .nmDarnEpochEnd die => Sys2Proof.Machine.execNmDarnEpochEnd die s
  | .channelTempSample ch temp => Sys2Proof.Machine.execChannelTempSample ch temp s
  | .memRetrainWindowOpen ch => Sys2Proof.Machine.execMemRetrainWindowOpen ch s
  | .memRetrainWindowClose ch => Sys2Proof.Machine.execMemRetrainWindowClose ch s
  | .shelfCfgWrite a die v => Sys2Proof.Machine.execShelfCfgWrite a die v s
  | .residencyMoveComplete n => Sys2Proof.Machine.execResidencyMoveComplete n s
  | .tlLinkEnWrite a link v => Sys2Proof.Machine.execTlLinkEnWrite a link v s
  | .tlLinkFenceWrite a link v => Sys2Proof.Machine.execTlLinkFenceWrite a link v s
  | .tlLinkRetrainWrite a link v => Sys2Proof.Machine.execTlLinkRetrainWrite a link v s
  | .tlSliceWrite a die v => Sys2Proof.Machine.execTlSliceWrite a die v s
  | .linkTrainSignalDetect link => Sys2Proof.Machine.execLinkTrainSignalDetect link s
  | .linkTrainRestart link => Sys2Proof.Machine.execLinkTrainRestart link s
  | .linkTrainEqualised link => Sys2Proof.Machine.execLinkTrainEqualised link s
  | .linkTrainLanesFound link tx rx permOk => Sys2Proof.Machine.execLinkTrainLanesFound link tx rx permOk s
  | .linkFlitLock link => Sys2Proof.Machine.execLinkFlitLock link s
  | .beaconSend link => Sys2Proof.Machine.execBeaconSend link s
  | .beaconReceive link flit => Sys2Proof.Machine.execBeaconReceive link flit s
  | .dataFlitReceive link flit => Sys2Proof.Machine.execDataFlitReceive link flit s
  | .idleFlitReceive link flit => Sys2Proof.Machine.execIdleFlitReceive link flit s
  | .retryReqReceive link flit => Sys2Proof.Machine.execRetryReqReceive link flit s
  | .creditSyncReceive link flit => Sys2Proof.Machine.execCreditSyncReceive link flit s
  | .retrainReqReceive link flit => Sys2Proof.Machine.execRetrainReqReceive link flit s
  | .fencedRetrainStart link => Sys2Proof.Machine.execFencedRetrainStart link s
  | .flitSlotSend link => Sys2Proof.Machine.execFlitSlotSend link s
  | .creditSyncSend link => Sys2Proof.Machine.execCreditSyncSend link s
  | .replayTimeout link => Sys2Proof.Machine.execReplayTimeout link s
  | .retrainReqSend link => Sys2Proof.Machine.execRetrainReqSend link s
  | .linkRetrainWindowStart link => Sys2Proof.Machine.execLinkRetrainWindowStart link s
  | .linkRetrainWindowEnd link => Sys2Proof.Machine.execLinkRetrainWindowEnd link s
  | .tlLaneEpochEnd link tx rx => Sys2Proof.Machine.execTlLaneEpochEnd link tx rx s
  | .linkTempSample link temp => Sys2Proof.Machine.execLinkTempSample link temp s
  | .routerHeadFlit link vc => Sys2Proof.Machine.execRouterHeadFlit link vc s
  | .packetDeliver => Sys2Proof.Machine.execPacketDeliver s
  | .linkLeaveUp link => Sys2Proof.Machine.execLinkLeaveUp link s
  | .phaseDrainStart => Sys2Proof.Machine.execPhaseDrainStart s
  | .phaseDrainRoundComplete sent delivered => Sys2Proof.Machine.execPhaseDrainRoundComplete sent delivered s
  | .phaseResumeComplete => Sys2Proof.Machine.execPhaseResumeComplete s
  | .phaseTimeout => Sys2Proof.Machine.execPhaseTimeout s
  | .slcIdWrite a v => Sys2Proof.Machine.execSlcIdWrite a v s
  | .slcMapWrite a v => Sys2Proof.Machine.execSlcMapWrite a v s
  | .memAcctPeakRst a v => Sys2Proof.Machine.execMemAcctPeakRst a v s
  | .collBlockRead k => Sys2Proof.Machine.execCollBlockRead k s
  | .collReadyReceive => Sys2Proof.Machine.execCollReadyReceive s
  | .collArriveReceive => Sys2Proof.Machine.execCollArriveReceive s
  | .collPartReceive => Sys2Proof.Machine.execCollPartReceive s
  | .collDataReceive => Sys2Proof.Machine.execCollDataReceive s
  | .collReleaseReceive => Sys2Proof.Machine.execCollReleaseReceive s
  | .collNormReceive => Sys2Proof.Machine.execCollNormReceive s
  | .collContextWaitTimeout => Sys2Proof.Machine.execCollContextWaitTimeout s
  | .collContextFree k => Sys2Proof.Machine.execCollContextFree k s
  | .collHoldExpire k chunk => Sys2Proof.Machine.execCollHoldExpire k chunk s
  | .collComplete k => Sys2Proof.Machine.execCollComplete k s
  | .collCtxPeakRst a v => Sys2Proof.Machine.execCollCtxPeakRst a v s
  | .pressStepApply => Sys2Proof.Machine.execPressStepApply s
  | .pressStepComplete => Sys2Proof.Machine.execPressStepComplete s
  | .manglePassStart => Sys2Proof.Machine.execManglePassStart s
  | .mangleSendOwn => Sys2Proof.Machine.execMangleSendOwn s
  | .mangleDataReceive => Sys2Proof.Machine.execMangleDataReceive s
  | .mangleForward => Sys2Proof.Machine.execMangleForward s
  | .mangleGrantSend => Sys2Proof.Machine.execMangleGrantSend s
  | .mangleGrantReceive => Sys2Proof.Machine.execMangleGrantReceive s
  | .manglePlanEnd => Sys2Proof.Machine.execManglePlanEnd s
  | .gctSyncReqSend => Sys2Proof.Machine.execGctSyncReqSend s
  | .gctSyncReqReceive => Sys2Proof.Machine.execGctSyncReqReceive s
  | .gctSyncRspReceive => Sys2Proof.Machine.execGctSyncRspReceive s
  | .gctSyncLossTimeout => Sys2Proof.Machine.execGctSyncLossTimeout s
  | .gctWrap => Sys2Proof.Machine.execGctWrap s
  | .gctCompare => Sys2Proof.Machine.execGctCompare s
  | .gctSetWrite a hi v => Sys2Proof.Machine.execGctSetWrite a hi v s
  | .gctCmpWrite a hi v => Sys2Proof.Machine.execGctCmpWrite a hi v s
  | .ledgerTakeReport l => Sys2Proof.Machine.execLedgerTakeReport l s
  | .regionLedgerForward die => Sys2Proof.Machine.execRegionLedgerForward die s
  | .ldgHeadWrite a v => Sys2Proof.Machine.execLdgHeadWrite a v s
  | .ldgClrFirst a v => Sys2Proof.Machine.execLdgClrFirst a v s
  | .ldgClrLost a v => Sys2Proof.Machine.execLdgClrLost a v s
  | .patternBookComplete diffs => Sys2Proof.Machine.execPatternBookComplete diffs s
  | .mendPacketReceive => Sys2Proof.Machine.execMendPacketReceive s
  | .mendBarrierComplete => Sys2Proof.Machine.execMendBarrierComplete s
  | .guildFaultReceive => Sys2Proof.Machine.execGuildFaultReceive s
  | .guildGatherExpire => Sys2Proof.Machine.execGuildGatherExpire s
  | .guildVerdictReceive => Sys2Proof.Machine.execGuildVerdictReceive s
  | .guildVackReceive => Sys2Proof.Machine.execGuildVackReceive s
  | .guildVackTimeout => Sys2Proof.Machine.execGuildVackTimeout s
  | .guildReport => Sys2Proof.Machine.execGuildReport s
  | .guildPartialTimeout => Sys2Proof.Machine.execGuildPartialTimeout s
  | .recStepComplete shards => Sys2Proof.Machine.execRecStepComplete shards s
  | .aprUnitReceive unit data crc last => Sys2Proof.Machine.execAprUnitReceive unit data crc last s
  | .aprDeltaReceive deltas caughtUp => Sys2Proof.Machine.execAprDeltaReceive deltas caughtUp s
  | .aprShadowStep agree => Sys2Proof.Machine.execAprShadowStep agree s
  | .aprTutorTimeout => Sys2Proof.Machine.execAprTutorTimeout s
  | .ringOpenRequest a v => Sys2Proof.Machine.execRingOpenRequest a v s
  | .ringOpenComplete rcb hostOk => Sys2Proof.Machine.execRingOpenComplete rcb hostOk s
  | .ringClose a v => Sys2Proof.Machine.execRingClose a v s
  | .ringCloseComplete r => Sys2Proof.Machine.execRingCloseComplete r s
  | .doorbellTail f r v => Sys2Proof.Machine.execDoorbellTail f r v s
  | .doorbellResume f r v => Sys2Proof.Machine.execDoorbellResume f r v s
  | .doorbellCompanionWrite f r v => Sys2Proof.Machine.execDoorbellCompanionWrite f r v s
  | .docketFetch r bytes => Sys2Proof.Machine.execDocketFetch r bytes s
  | .docketStart => Sys2Proof.Machine.execDocketStart s
  | .docketComplete r => Sys2Proof.Machine.execDocketComplete r s
  | .nopDocket r => Sys2Proof.Machine.execNopDocket r s
  | .writeDocket r data hostOk => Sys2Proof.Machine.execWriteDocket r data hostOk s
  | .readDocket r hostOk => Sys2Proof.Machine.execReadDocket r hostOk s
  | .streamDocket r => Sys2Proof.Machine.execStreamDocket r s
  | .allocDocket r => Sys2Proof.Machine.execAllocDocket r s
  | .freeDocket r => Sys2Proof.Machine.execFreeDocket r s
  | .launchDocket r => Sys2Proof.Machine.execLaunchDocket r s
  | .stopDocket r => Sys2Proof.Machine.execStopDocket r s
  | .commDocket r => Sys2Proof.Machine.execCommDocket r s
  | .pressDocket r => Sys2Proof.Machine.execPressDocket r s
  | .mangleDocket r => Sys2Proof.Machine.execMangleDocket r s
  | .exportDocket r => Sys2Proof.Machine.execExportDocket r s
  | .fitrecDocket r => Sys2Proof.Machine.execFitrecDocket r s
  | .commitDocket r => Sys2Proof.Machine.execCommitDocket r s
  | .qpCreateDocket r => Sys2Proof.Machine.execQpCreateDocket r s
  | .qpReadyDocket r => Sys2Proof.Machine.execQpReadyDocket r s
  | .qpDestroyDocket r => Sys2Proof.Machine.execQpDestroyDocket r s
  | .qpKeyCreateDocket r => Sys2Proof.Machine.execQpKeyCreateDocket r s
  | .qpKeyDestroyDocket r => Sys2Proof.Machine.execQpKeyDestroyDocket r s
  | .postDocket r => Sys2Proof.Machine.execPostDocket r s
  | .windowDocket r => Sys2Proof.Machine.execWindowDocket r s
  | .phaseDocket r => Sys2Proof.Machine.execPhaseDocket r s
  | .mendDocket r => Sys2Proof.Machine.execMendDocket r s
  | .rebuildDocket r => Sys2Proof.Machine.execRebuildDocket r s
  | .guildDocket r => Sys2Proof.Machine.execGuildDocket r s
  | .apprenticeDocket r => Sys2Proof.Machine.execApprenticeDocket r s
  | .injectDocket r => Sys2Proof.Machine.execInjectDocket r s
  | .patternDocket r image hostOk => Sys2Proof.Machine.execPatternDocket r image hostOk s
  | .jobEnd w => Sys2Proof.Machine.execJobEnd w s
  | .pcieLinkDown => Sys2Proof.Machine.execPcieLinkDown s
  | .pcieLinkUp rate width flit => Sys2Proof.Machine.execPcieLinkUp rate width flit s
  | .pcieFlr f => Sys2Proof.Machine.execPcieFlr f s
  | .pciePerstAssert => Sys2Proof.Machine.execPciePerstAssert s
  | .ethPacketReceive port p => Sys2Proof.Machine.execEthPacketReceive port p s
  | .ethWorkRequestComplete port qpn ok data => Sys2Proof.Machine.execEthWorkRequestComplete port qpn ok data s
  | .ethPortDown port => Sys2Proof.Machine.execEthPortDown port s
  | .ethPortUp port => Sys2Proof.Machine.execEthPortUp port s
  | .irqSourcePending src => Sys2Proof.Machine.execIrqSourcePending src s
  | .irqOfferUpdate => Sys2Proof.Machine.execIrqOfferUpdate s
  | .irqClaim a p => Sys2Proof.Machine.execIrqClaim a p s
  | .irqComplete a p v => Sys2Proof.Machine.execIrqComplete a p v s
  | .irqHoldExpire g => Sys2Proof.Machine.execIrqHoldExpire g s
  | .irqHostDone a v => Sys2Proof.Machine.execIrqHostDone a v s
  | .irqSwset a v => Sys2Proof.Machine.execIrqSwset a v s
  | .irqSwclr a v => Sys2Proof.Machine.execIrqSwclr a v s
  | .msixVectorUnmask f vec => Sys2Proof.Machine.execMsixVectorUnmask f vec s
  | .msixEnable f => Sys2Proof.Machine.execMsixEnable f s
  | .chitBoundary rd => Sys2Proof.Machine.execChitBoundary rd s
  | .thermtripAssert => Sys2Proof.Machine.execThermtripAssert s
  | .regionClockChangeComplete die reg => Sys2Proof.Machine.execRegionClockChangeComplete die reg s
  | .modulePowerCheck watts => Sys2Proof.Machine.execModulePowerCheck watts s
  | .pwrBrakeAssert => Sys2Proof.Machine.execPwrBrakeAssert s
  | .docketStarving r => Sys2Proof.Machine.execDocketStarving r s
  | .docketStarveForce r => Sys2Proof.Machine.execDocketStarveForce r s
  | .coldReset => Sys2Proof.Machine.execColdReset s
  | .bootStart f => Sys2Proof.Machine.execBootStart f s
  | .bootReady => Sys2Proof.Machine.execBootReady s
  | .bootTimeout => Sys2Proof.Machine.execBootTimeout s
  | .bootRetryTimer => Sys2Proof.Machine.execBootRetryTimer s
  | .bootCtlWarm a v => Sys2Proof.Machine.execBootCtlWarm a v s
  | .smbusWarmReset => Sys2Proof.Machine.execSmbusWarmReset s
  | .warmReset => Sys2Proof.Machine.execWarmReset s
  | .bootCtlClrCount a v => Sys2Proof.Machine.execBootCtlClrCount a v s
  | .bootCtlSetpref a v => Sys2Proof.Machine.execBootCtlSetpref a v s
  | .bootCtlRaiseFloor a v => Sys2Proof.Machine.execBootCtlRaiseFloor a v s
  | .bootFlashProgram a v => Sys2Proof.Machine.execBootFlashProgram a v s
  | .bootFlashDataRead a => Sys2Proof.Machine.execBootFlashDataRead a s
  | .bootFlashErase a v => Sys2Proof.Machine.execBootFlashErase a v s
  | .flashOpComplete => Sys2Proof.Machine.execFlashOpComplete s
  | .vstbyLoss => Sys2Proof.Machine.execVstbyLoss s
  | .railUndervoltage rail => Sys2Proof.Machine.execRailUndervoltage rail s
  | .refclkLoss => Sys2Proof.Machine.execRefclkLoss s
  | .smbusAlertResponse => Sys2Proof.Machine.execSmbusAlertResponse s
  | .flitLockLoss link => Sys2Proof.Machine.execFlitLockLoss link s
  | .moduleWideFailure die => Sys2Proof.Machine.execModuleWideFailure die s
  | .pwrBrakeRelease => Sys2Proof.Machine.execPwrBrakeRelease s
  | .railReturn rail => Sys2Proof.Machine.execRailReturn rail s
  | .refclkReturn => Sys2Proof.Machine.execRefclkReturn s
  | .configurationRequest => Sys2Proof.Machine.execConfigurationRequest s

end Sys2Proof.Machine
end

