-- ==== Sys2Proof/Safety.lean ====
section
/-!
DEFINITION. The words in which claims are stated: when a sequencer issues a word, what a command leaves alone, and
what a run must keep.
-/
namespace Sys2Proof.Machine
open Sys2Proof

/-! ### What a command leaves alone -/

/-- Only logical cluster `q` has changed. -/
def OnlyCluster (s t : State) (q : Nat) : Prop :=
  t = { s with cl := t.cl } ∧ ∀ p, p ≠ q → t.clu p = s.clu p

/-- Only core `c` of logical cluster `q` has changed. -/
def OnlyCore (s t : State) (q c : Nat) : Prop :=
  OnlyCluster s t q ∧ t.clu q = { s.clu q with core := (t.clu q).core } ∧ ∀ d, d ≠ c → t.coreOf q d = s.coreOf q d

/-- Only command ring `r` has changed. -/
def OnlyRing (s t : State) (r : Nat) : Prop :=
  t = { s with hif := { s.hif with ring := t.hif.ring } } ∧ ∀ p, p ≠ r → t.ring p = s.ring p

/-- Only tensor link `l` and the interrupt latches have changed. -/
def OnlyLink (s t : State) (l : Nat) : Prop :=
  t = { s with tl := { s.tl with link := t.tl.link }, irq := t.irq } ∧ ∀ m, m ≠ l → t.link m = s.link m

/-- A flit that a link hears decodes to `w` with `fixed` symbols corrected, and is of KIND `kind`; a control flit is of
subtype `sub`. -/
def Hears (s : State) (l : Nat) (flit : List Byte) (kind sub : Nat) (w : List Byte) (fixed : Nat) : Prop :=
  linkEn s l = true ∧ hears (s.link l) = true ∧ unwire flit = some (w, fixed) ∧ lwKind (linkWord w) = kind
    ∧ (kind = 2 → ctlSub w = sub)

/-- Packet `p` has been queued, with this module's coordinate as its source, at the link of ply `ply` that it leaves
by, where that link carries packets (R271, R273). -/
def Sends (s t : State) (ply : Nat) (p : Packet) : Prop :=
  let q := { p with src := s.tl.coord }
  ∀ d plus, badHeader s (injectDie s ply q) (2 * p.cls.toNat) q = false →
    nextHop s (injectDie s ply q) (myCoord s) p.dest.toNat (myCoord s) = some (d, plus) →
    carries (s.link (linkNum ply d plus)) = true →
    let vc := outVc s p.cls.toNat d plus false
    Tbl.get [] (t.link (linkNum ply d plus)).outq vc
      = Tbl.get [] (s.link (linkNum ply d plus)).outq vc ++ flitsOf { p with src := s.tl.coord } vc

/-- Every sector that holds one of `n` bytes at device address `a` of a window translates for a unit (R199, R203), and no
injection is armed. -/
def Mapped (s : State) (src win a n : Nat) (write : Bool) : Prop :=
  s.guard.armed = [] ∧ ∀ i, i < n → ∃ p c, xlateBy s src win ((a + i) / 32 * 32 : Nat) write = .ok p c

/-! ### Dockets (R441–R443) -/

/-- Ring `r` runs docket `d` of opcode `op`, whose effect has neither begun nor finished. -/
def Runs (s : State) (r op : Nat) (d : Docket) : Prop :=
  (s.ring r).running = some d ∧ dkOp d = op ∧ (s.ring r).result = none ∧ (s.ring r).began = false

/-- The docket of ring `r` is finished with a status and DETAIL; it still runs, and awaits its completion. -/
def Ends (s t : State) (r status detail : Nat) : Prop :=
  (t.ring r).result = some (BitVec.ofNat 8 status, BitVec.ofNat 64 detail) ∧ (t.ring r).running = (s.ring r).running

/-! ### Issue (R164, R165) -/

/-- Cluster `q` may issue and its island's clock runs, the word at its issue point is that of opcode `op` with bits
[127:8] `w`, no stained register keeps it from issue, it passes every check of Table 5.18, and no injection is armed. -/
def Issues (s : State) (q : Cl) (op : Nat) (w : BitVec 120) : Prop :=
  canIssue (s.clu q.val) = true ∧ islandStopped s q.val = false ∧ fetchAt (s.clu q.val) = .word (wordOf op w)
    ∧ stainStops (s.clu q.val) (wordOf op w) = false ∧ lowest (reasons s q.val (wordOf op w)) = none
    ∧ s.guard.armed = []

/-- What a read of scalar register `r` gives, as 64 bits. -/
def sVal (k : Cluster) (r : Nat) : BitVec 64 := BitVec.ofNat 64 (sReg k r)

/-- IMM as 64 bits. -/
def immOf (n : Nat) : BitVec 64 := BitVec.ofNat 64 (fImm n)

/-- Where a relative branch goes: IMM instructions on, modulo 2^52 bytes, or IMM words on in a block (R146). -/
def branchPc (k : Cluster) (n : Nat) : DWord :=
  if k.src then k.pc + immOf n else ((k.pc + 16 * immOf n).setWidth 52).setWidth 64

/-- The cluster goes on at `pc`, running. -/
def goTo (pc : DWord) (k : Cluster) : Cluster := { k with pc := pc, state := 1 }

/-- A scalar instruction of cluster `q` has written `v` with stain `st` to RD, or discarded it where RD is s0, and
has changed nothing but RD and the issue point (R110, R147). -/
def WroteScalar (s t : State) (q rd : Nat) (v : BitVec 64) (st : Bool) : Prop :=
  OnlyCluster s t q
    ∧ t.clu q = { advance (s.clu q) with sreg := (t.clu q).sreg, sstain := (t.clu q).sstain }
    ∧ (rd ≠ 0 → sVal (t.clu q) rd = v ∧ sStain (t.clu q) rd = st)
    ∧ (rd = 0 → sVal (t.clu q) rd = 0 ∧ sStain (t.clu q) rd = false)
    ∧ ∀ r, r ≠ rd → sVal (t.clu q) r = sVal (s.clu q) r ∧ sStain (t.clu q) r = sStain (s.clu q) r

/-- The link instruction of cluster `q` has written `v`, clean, to RD, or discarded it where RD is s0, goes on at `pc`, and
has changed nothing else (R110, R145, R147). -/
def WroteLink (s t : State) (q rd : Nat) (v : BitVec 64) (pc : DWord) : Prop :=
  OnlyCluster s t q
    ∧ t.clu q = { goTo pc (s.clu q) with sreg := (t.clu q).sreg, sstain := (t.clu q).sstain }
    ∧ (rd ≠ 0 → sVal (t.clu q) rd = v ∧ sStain (t.clu q) rd = false)
    ∧ (rd = 0 → sVal (t.clu q) rd = 0 ∧ sStain (t.clu q) rd = false)
    ∧ ∀ r, r ≠ rd → sVal (t.clu q) r = sVal (s.clu q) r ∧ sStain (t.clu q) r = sStain (s.clu q) r

/-- Words of descriptor `l` written from unstained registers since it was last stained, one bit a word (R153). -/
def descClean (k : Cluster) (l : Nat) : BitVec 8 := Tbl.get 0 k.lclean l

/-- Those words after a write of word `i`, or of none, from a register of stain `st`: they count only while the descriptor is
stained, and begin afresh where it is stained or cleared. -/
def descCount (k : Cluster) (l : Nat) (st clears : Bool) (i : Option Nat) : BitVec 8 :=
  match i with
  | none => if st then 0 else descClean k l
  | some i =>
    if st then 0
    else if lStain k l then (if clears && (descClean k l ||| (1 <<< i)) == 255 then 0 else descClean k l ||| (1 <<< i))
    else descClean k l

/-- A descriptor instruction of cluster `q` has written `v` to descriptor `l`, whose stain bit is `st` and whose words counted
for R153 are `clean`, and has changed nothing else but the issue point. -/
def WroteDesc (s t : State) (q l : Nat) (v : BitVec 512) (st : Bool) (clean : BitVec 8) : Prop :=
  OnlyCluster s t q
    ∧ t.clu q = { advance (s.clu q) with
        ldesc := (t.clu q).ldesc, lstain := (t.clu q).lstain, lclean := (t.clu q).lclean }
    ∧ Tbl.get 0 (t.clu q).ldesc l = v ∧ lStain (t.clu q) l = st ∧ descClean (t.clu q) l = clean
    ∧ ∀ m, m ≠ l → Tbl.get 0 (t.clu q).ldesc m = Tbl.get 0 (s.clu q).ldesc m ∧ lStain (t.clu q) m = lStain (s.clu q) m
        ∧ descClean (t.clu q) m = descClean (s.clu q) m

/-! ### The canonical form of memory -/

/-- Every table of addressed memory lists its keys strictly rising, and no value that an unlisted key reads as. -/
def Memory.wf (m : Mem) : Bool :=
  Tbl.wf 0 m.nm && Tbl.wf 0 m.hbm && Tbl.wf false m.hbmStain && Tbl.wf 0 m.buf && Tbl.wf false m.bufClean
    && Tbl.wf 0 m.shelf && Tbl.wf false m.shelfClean && Tbl.wf 0 m.table && Tbl.wf false m.nmDone
    && Tbl.wf .clean m.hbmErr && Tbl.wf none m.hbmRow && Tbl.wf 0 m.hbmActs

end Sys2Proof.Machine
end

