-- ==== Sys2Proof/Certificates/Slice0/Obligations.lean ====
section
/-!
DEFINITION. The statements for the provers. Each says in its docstring which rules or files of the spec it rests on;
what it says in words stands in OBLIGATIONS.json.
-/
open Sys2Proof Sys2Proof.Machine

/-- A step executes the command at the front of the queue on the queue's rest, and on an empty queue it is one count of the global counter (model choice, log 10) (95_what_each_step_holds.md, 98_reader.md, 12_determinism_and_time.md). -/
def Obligations.StepRunsFront : Prop :=
  (∀ (c : Instr) (rest : List Instr) (s : State),
    step { s with pending := c :: rest } = exec c { s with pending := rest })
  ∧ ∀ s : State, s.pending = [] → s.gct.slew = 0 → s.gct.rate = 0 → ∃ t, step s = .next t
    ∧ t.gct.count = s.gct.count + 1 ∧ t.gct.frac = s.gct.frac
    ∧ t.mem = s.mem ∧ t.cl = s.cl ∧ t.tl = s.tl ∧ t.hif.ring = s.hif.ring ∧ t.pwr = s.pwr ∧ t.boot = s.boot

/-- s0 reads as 0 with a clear stain bit, and a write to it changes nothing (R110). -/
def Obligations.ScalarZeroRegister : Prop :=
  ∀ (k : Cluster) (v : Nat) (st : Bool), sReg k 0 = 0 ∧ sStain k 0 = false ∧ putS k 0 v st = k

/-- Each integer instruction of Table 5.7 writes its result and stain to RD and changes nothing else but the issue point (05_instruction_set.md, R145, R147, R110). -/
def Obligations.ScalarIntegerResults : Prop :=
  ∀ (s : State) (q : Cl) (w : BitVec 120),
    let two := fun (op : Nat) (c : Instr) (f : BitVec 64 → BitVec 64 → BitVec 64) =>
      let n := wordOf op w
      let k := s.clu q.val
      Issues s q op w → ∃ t, exec c s = .next t
        ∧ WroteScalar s t q.val (fRd n) (f (sVal k (fRa n)) (sVal k (fRb n))) (sStain k (fRa n) || sStain k (fRb n))
    let bit := fun (b : Bool) => if b then (1 : BitVec 64) else 0
    two 0x20 (.add q w) (fun a b => a + b)
    ∧ two 0x21 (.sub q w) (fun a b => a - b)
    ∧ two 0x22 (.mul q w) (fun a b => a * b)
    ∧ two 0x23 (.mulhu q w) (fun a b => ((a.setWidth 128 * b.setWidth 128) >>> 64).setWidth 64)
    ∧ two 0x24 (.andw q w) (fun a b => a &&& b)
    ∧ two 0x25 (.orw q w) (fun a b => a ||| b)
    ∧ two 0x26 (.xorw q w) (fun a b => a ^^^ b)
    ∧ two 0x27 (.shl q w) (fun a b => a <<< (b.toNat % 64))
    ∧ two 0x28 (.shr q w) (fun a b => a >>> (b.toNat % 64))
    ∧ two 0x29 (.sra q w) (fun a b => a.sshiftRight (b.toNat % 64))
    ∧ two 0x2A (.slt q w) (fun a b => bit (a.slt b))
    ∧ two 0x2B (.sltu q w) (fun a b => bit (a.ult b))
    ∧ two 0x2C (.min q w) (fun a b => if a.slt b then a else b)
    ∧ two 0x2D (.max q w) (fun a b => if a.slt b then b else a)
    ∧ (Issues s q 0x2E w → ∃ t, exec (.addi q w) s = .next t
        ∧ WroteScalar s t q.val (fRd (wordOf 0x2E w)) (sVal (s.clu q.val) (fRa (wordOf 0x2E w)) + immOf (wordOf 0x2E w))
            (sStain (s.clu q.val) (fRa (wordOf 0x2E w))))
    ∧ (Issues s q 0x2F w → ∃ t, exec (.li q w) s = .next t
        ∧ WroteScalar s t q.val (fRd (wordOf 0x2F w)) (immOf (wordOf 0x2F w)) false)

/-- The scalar FP32 instructions clear bits [63:32] of RD, carry the stain of what they read and change nothing else (05_instruction_set.md, R145, R147, R73). -/
def Obligations.ScalarFloatResults : Prop :=
  ∀ (s : State) (q : Cl) (w : BitVec 120),
    let k := s.clu q.val
    let lo := fun (r : Nat) => (sVal k r).setWidth 32
    let two := fun (op : Nat) (c : Instr) (f : Word → Word → Word) =>
      let n := wordOf op w
      Issues s q op w → ∃ t, exec c s = .next t
        ∧ WroteScalar s t q.val (fRd n) ((f (lo (fRa n)) (lo (fRb n))).setWidth 64) (sStain k (fRa n) || sStain k (fRb n))
    let one := fun (op : Nat) (c : Instr) (f : BitVec 64 → BitVec 64) =>
      let n := wordOf op w
      Issues s q op w → ∃ t, exec c s = .next t
        ∧ WroteScalar s t q.val (fRd n) (f (sVal k (fRa n))) (sStain k (fRa n))
    two 0x30 (.fadd q w) f32Add
    ∧ two 0x31 (.fmul q w) f32Mul
    ∧ two 0x32 (.fmax q w) f32Max
    ∧ two 0x33 (.fmin q w) f32Min
    ∧ one 0x34 (.fcvtFi q w) (fun a => (toF32 (Num.ofInt a.toInt 0)).setWidth 64)
    ∧ one 0x35 (.fcvtIf q w) (fun a => BitVec.ofInt 64 ((f32 (a.setWidth 32)).toIntSat (-(2 ^ 63)) (2 ^ 63 - 1)))

/-- RDID, SSTN, MSET and MGET move identities, stain bits and mask registers (05_instruction_set.md, R147, R432). -/
def Obligations.ScalarMoves : Prop :=
  ∀ (s : State) (q : Cl) (w : BitVec 120),
    let k := s.clu q.val
    let m := fun (n : Nat) => fSub n % 8
    (Issues s q 0x36 w → ∃ t, exec (.rdid q w) s = .next t
      ∧ WroteScalar s t q.val (fRd (wordOf 0x36 w)) (BitVec.ofNat 64 (
          if fSub (wordOf 0x36 w) = 0 then 32 * clId q.val
          else if fSub (wordOf 0x36 w) = 1 then logicalCoord s else cluJob s q.val)) false)
    ∧ (Issues s q 0x37 w → ∃ t, exec (.sstn q w) s = .next t
      ∧ WroteScalar s t q.val (fRd (wordOf 0x37 w)) (if sStain k (fRa (wordOf 0x37 w)) then 1 else 0) false)
    ∧ (Issues s q 0x39 w → ∃ t, exec (.mget q w) s = .next t
      ∧ WroteScalar s t q.val (fRd (wordOf 0x39 w)) ((Tbl.get 0 k.mreg (m (wordOf 0x39 w))).setWidth 64)
          (k.mstain.getLsbD (m (wordOf 0x39 w))))
    ∧ (Issues s q 0x38 w → ∃ t, exec (.mset q w) s = .next t ∧ OnlyCluster s t q.val
      ∧ t.clu q.val = { advance k with mreg := (t.clu q.val).mreg, mstain := (t.clu q.val).mstain }
      ∧ Tbl.get 0 (t.clu q.val).mreg (m (wordOf 0x38 w)) = (sVal k (fRa (wordOf 0x38 w))).setWidth 16
      ∧ (t.clu q.val).mstain.getLsbD (m (wordOf 0x38 w)) = sStain k (fRa (wordOf 0x38 w))
      ∧ ∀ j, j ≠ m (wordOf 0x38 w) → Tbl.get 0 (t.clu q.val).mreg j = Tbl.get 0 k.mreg j
          ∧ (t.clu q.val).mstain.getLsbD j = k.mstain.getLsbD j)

/-- NOP, END, J, JAL, JR and the branches move the issue point as Table 5.6 says and change nothing else (05_instruction_set.md, R145, R146, R120). -/
def Obligations.ControlTransfers : Prop :=
  ∀ (s : State) (q : Cl) (w : BitVec 120),
    let k := s.clu q.val
    let br := fun (op : Nat) (c : Instr) (test : BitVec 64 → BitVec 64 → Bool) =>
      let n := wordOf op w
      Issues s q op w → exec c s = .next (s.updClu q.val fun _ =>
        if test (sVal k (fRa n)) (sVal k (fRb n)) then goTo (branchPc k n) k else advance k)
    (Issues s q 0x00 w → exec (.nop q w) s = .next (s.updClu q.val fun _ => advance k))
    ∧ (Issues s q 0x01 w → exec (.endw q w) s = .next (s.updClu q.val fun _ => { k with ending := true, state := 1 }))
    ∧ (Issues s q 0x03 w → exec (.jmp q w) s = .next (s.updClu q.val fun _ => goTo (branchPc k (wordOf 0x03 w)) k))
    ∧ (Issues s q 0x04 w → ∃ t, exec (.jal q w) s = .next t
        ∧ WroteLink s t q.val (fRd (wordOf 0x04 w))
            (if k.src then k.pc + 1 else ((k.pc + 16).setWidth 52).setWidth 64) (branchPc k (wordOf 0x04 w)))
    ∧ (Issues s q 0x05 w → exec (.jr q w) s = .next (s.updClu q.val fun _ => goTo (sVal k (fRa (wordOf 0x05 w))) k))
    ∧ br 0x06 (.beq q w) (fun a b => a == b)
    ∧ br 0x07 (.bne q w) (fun a b => a != b)
    ∧ br 0x08 (.blt q w) (fun a b => a.slt b)
    ∧ br 0x09 (.bge q w) (fun a b => !a.slt b)
    ∧ br 0x0A (.bltu q w) (fun a b => a.ult b)
    ∧ br 0x0B (.bgeu q w) (fun a b => !a.ult b)
    ∧ (Issues s q 0x0C w → exec (.bstn q w) s = .next (s.updClu q.val fun _ =>
        if sStain k (fRa (wordOf 0x0C w)) then goTo (branchPc k (wordOf 0x0C w)) k else advance k))

/-- ABORT halts issue, starts the stop of the cluster's job and records its abort code (05_instruction_set.md, R136, R446). -/
def Obligations.AbortStopsTheJob : Prop :=
  ∀ (s : State) (q : Cl) (w : BitVec 120) (v : Fin 16),
    Issues s q 0x02 w → (s.clu q.val).win = some v → (s.jobAt v.val).running = true → (s.jobAt v.val).stopping = false →
    ∃ t, exec (.abort q w) s = .next t
      ∧ (t.clu q.val).halted = true
      ∧ (t.jobAt v.val).stopping = true ∧ (t.jobAt v.val).cause = 2
      ∧ ((s.jobAt v.val).aborted = false → (t.jobAt v.val).aborted = true
          ∧ (t.jobAt v.val).abort = BitVec.ofNat 16 (fImm (wordOf 0x02 w)))
      ∧ (∀ p, p ∈ (s.jobAt v.val).clusters → p ∉ (s.jobAt v.val).clOver → (t.clu p).stopSent = true)
      ∧ ∀ u, u ≠ v.val → t.jobAt u = s.jobAt u

/-- The loop-descriptor instructions write the fields of Table 5.9, set the descriptor's stain bit as R153 gives, and change nothing else but the issue point (05_instruction_set.md, R110, R147, R153). -/
def Obligations.DescriptorWrites : Prop :=
  ∀ (s : State) (q : Cl) (w : BitVec 120),
    let k := s.clu q.val
    let ld := fun (l : Nat) => Tbl.get 0 k.ldesc l
    let rd := fun (op : Nat) => fRd (wordOf op w) % 16
    let ra := fun (op : Nat) => sVal k (fRa (wordOf op w))
    let st := fun (op : Nat) => sStain k (fRa (wordOf op w))
    let word := fun (op : Nat) => fSub (wordOf op w) % 8
    let imm := fun (op : Nat) => (immOf (wordOf op w)).toNat
    let putBits := fun (d : BitVec 512) (lo width : Nat) (v : Nat) =>
      let m : BitVec 512 := ((BitVec.allOnes 512) >>> (512 - width)) <<< lo
      (d &&& ~~~m) ||| ((BitVec.ofNat 512 v <<< lo) &&& m)
    (Issues s q 0x40 w →
      let clears := decide (6 ≤ word 0x40)
      let all := clears && !st 0x40 && (descClean k (rd 0x40) ||| (1 <<< word 0x40)) == 255
      ∃ t, exec (.ldw q w) s = .next t
        ∧ WroteDesc s t q.val (rd 0x40) (putBits (ld (rd 0x40)) (64 * word 0x40) 64 (ra 0x40).toNat)
            (st 0x40 || (lStain k (rd 0x40) && !all)) (descCount k (rd 0x40) (st 0x40) clears (some (word 0x40))))
    ∧ (Issues s q 0x41 w → ∃ t, exec (.ldlev q w) s = .next t
      ∧ WroteDesc s t q.val (rd 0x41)
          (putBits (putBits (ld (rd 0x41)) (64 * word 0x41) 24 (imm 0x41)) (64 * word 0x41 + 32) 32 (imm 0x41 / 2 ^ 32))
          (lStain k (rd 0x41)) (descCount k (rd 0x41) false false (some (word 0x41))))
    ∧ (Issues s q 0x42 w → ∃ t, exec (.ldbase q w) s = .next t
      ∧ WroteDesc s t q.val (rd 0x42) (putBits (ld (rd 0x42)) 384 52 ((ra 0x42).toNat + imm 0x42))
          (lStain k (rd 0x42) || st 0x42) (descCount k (rd 0x42) (st 0x42) false (some 6)))
    ∧ (Issues s q 0x43 w → ∃ t, exec (.ldbump q w) s = .next t
      ∧ WroteDesc s t q.val (rd 0x43)
          (putBits (ld (rd 0x43)) 384 52 ((ld (rd 0x43) >>> 384).toNat % 2 ^ 52 + (ra 0x43).toNat))
          (lStain k (rd 0x43) || st 0x43) (descCount k (rd 0x43) (st 0x43) false none))
    ∧ (Issues s q 0x44 w → ∃ t, exec (.ldmov q w) s = .next t
      ∧ WroteDesc s t q.val (rd 0x44) (ld (fRa (wordOf 0x44 w) % 16)) (lStain k (fRa (wordOf 0x44 w) % 16)) 0)
    ∧ (Issues s q 0x45 w → ∃ t, exec (.ldrd q w) s = .next t
      ∧ WroteScalar s t q.val (fRd (wordOf 0x45 w))
          ((ld (fRa (wordOf 0x45 w) % 16) >>> (64 * word 0x45)).setWidth 64) (lStain k (fRa (wordOf 0x45 w) % 16)))

/-- An engine instruction issues when its queue has a free entry in all 32 cores, and otherwise stalls with the queue and the lowest full core recorded (R123). -/
def Obligations.EngineIssueFillsEveryCore : Prop :=
  ∀ (s : State) (q : Cl) (w : BitVec 120),
    let k := s.clu q.val
    let fill := fun (op : Nat) (e : Engine) (c : Instr) =>
      let n := wordOf op w
      Issues s q op w →
      ((∀ i < 32, ((k.coreAt i).queue e).length < 16) → ∃ t, exec c s = .next t ∧ OnlyCluster s t q.val
        ∧ (t.clu q.val).nextId = k.nextId + 1 ∧ (t.clu q.val).pc = (advance k).pc
        ∧ ∀ i < 32, t.coreOf q.val i = (s.coreOf q.val i).setQueue e ((s.coreOf q.val i).queue e ++ [einstOf k n]))
      ∧ ∀ c', c' < 32 → 16 ≤ ((k.coreAt c').queue e).length → (∀ i < c', ((k.coreAt i).queue e).length < 16) →
          ∃ t, exec c s = .next t ∧ OnlyCluster s t q.val ∧ t.clu q.val = { k with
            state := 2, stall := k.stall + 1, stallQ := BitVec.ofNat 2 (queueNum e), stallCore := BitVec.ofNat 5 c' }
    (fill 0x80 .aq (.mma q w) ∧ fill 0xA0 .aq (.minplus q w) ∧ fill 0xA1 .aq (.maxplus q w) ∧ fill 0xA2 .aq (.absdiff q w)
      ∧ fill 0xA3 .aq (.sqdiff q w) ∧ fill 0xA4 .aq (.cmpcnt q w) ∧ fill 0xA5 .aq (.argmax q w))
    ∧ (fill 0xC0 .vq (.vadd q w) ∧ fill 0xC1 .vq (.vsub q w) ∧ fill 0xC2 .vq (.vmul q w) ∧ fill 0xC3 .vq (.vfma q w)
      ∧ fill 0xC4 .vq (.vmax q w) ∧ fill 0xC5 .vq (.vmin q w) ∧ fill 0xC6 .vq (.vabs q w) ∧ fill 0xC7 .vq (.vneg q w)
      ∧ fill 0xC8 .vq (.vexp2 q w) ∧ fill 0xC9 .vq (.vlog2 q w) ∧ fill 0xCA .vq (.vrcp q w) ∧ fill 0xCB .vq (.vrsqrt q w)
      ∧ fill 0xCC .vq (.vcvt q w) ∧ fill 0xCD .vq (.vcmp q w) ∧ fill 0xCE .vq (.vredmax q w) ∧ fill 0xCF .vq (.vredsum q w)
      ∧ fill 0xD0 .vq (.vmxq q w) ∧ fill 0xD1 .vq (.vsmerge q w) ∧ fill 0xD2 .vq (.vrand q w) ∧ fill 0xD3 .vq (.vcopy q w))
    ∧ (fill 0xE0 .iq (.siLd q w) ∧ fill 0xE1 .iq (.siGath q w) ∧ fill 0xE2 .iq (.siWld q w)
      ∧ fill 0xF0 .oq (.soSt q w) ∧ fill 0xF1 .oq (.soScat q w))

/-- FENCE.M, FENCE.E, SIG and WAITS act where Table 4.4's condition holds and stall the sequencer where it does not (04_sequencer_and_queues.md, R132, R133). -/
def Obligations.FencesAndWaits : Prop :=
  ∀ (s : State) (q : Cl) (w : BitVec 120),
    let k := s.clu q.val
    let stalled := { k with state := 3, stall := k.stall + 1 }
    let does := fun (c : Instr) (v : Cluster) => ∃ t, exec c s = .next t ∧ OnlyCluster s t q.val ∧ t.clu q.val = v
    (Issues s q 0x60 w → does (.fenceM q w) { advance k with fence := k.nextId })
    ∧ (Issues s q 0x61 w →
        ((∀ e ∈ k.core, e.2.aq = [] ∧ e.2.vq = [] ∧ e.2.iq = [] ∧ e.2.oq = []) → does (.fenceE q w) (advance k))
        ∧ (∀ e ∈ k.core, (e.2.aq ≠ [] ∨ e.2.vq ≠ [] ∨ e.2.iq ≠ [] ∨ e.2.oq ≠ []) → does (.fenceE q w) stalled))
    ∧ (Issues s q 0x62 w →
        (sigsWaiting k < 4 → ∃ p, sigTarget s q.val (wordOf 0x62 w) = some p ∧
          does (.sig q w) { advance k with sigs := k.sigs ++ [{
            tgt := p, ctr := fImm (wordOf 0x62 w) / 2 ^ 12 % 16, count := fImm (wordOf 0x62 w) / 2 ^ 16 % 256,
            after := k.nextId }] })
        ∧ (4 ≤ sigsWaiting k → does (.sig q w) stalled))
    ∧ (Issues s q 0x63 w →
        let d := Tbl.get 0 k.ctr (fSub (wordOf 0x63 w) % 16) - (sVal k (fRa (wordOf 0x63 w))).setWidth 32
        (0 ≤ d.toInt → does (.waits q w) (advance k)) ∧ (d.toInt < 0 → does (.waits q w) stalled))

/-- SLD reads a scratchpad word or its combination over all cores, and an address fault gives stained zeros (04_sequencer_and_queues.md, 05_instruction_set.md, R132, R152, R162). -/
def Obligations.ScratchpadScalarLoad : Prop :=
  ∀ (s : State) (q : Cl) (w : BitVec 120), Issues s q 0x64 w →
    let n := wordOf 0x64 w
    let k := s.clu q.val
    let a := (sVal k (fRa n) + BitVec.ofNat 64 (fImm n % 2 ^ 16)).toNat
    let how := fImm n / 2 ^ 21 % 8
    let cores := if how = 0 then [fImm n / 2 ^ 16 % 32] else List.range 32
    let held := ∃ c ∈ cores, writesHeld (k.coreAt c) (a / 1024) = true
    (a < 65536 → a % 8 = 0 → ¬ held → ∃ t v rest, exec (.sld q w) s = .next t
      ∧ cores.map (fun c => leNat (padBytes (k.coreAt c) a 8)) = v :: rest
      ∧ WroteScalar s t q.val (fRd n) (BitVec.ofNat 64 (rest.foldl (sldCombine how) v))
          (sStain k (fRa n) || cores.any fun c => padStained (k.coreAt c) (a / 32)))
    ∧ (a < 65536 → a % 8 = 0 → held → ∃ t, exec (.sld q w) s = .next t ∧ OnlyCluster s t q.val
      ∧ t.clu q.val = { k with state := 3, stall := k.stall + 1 })
    ∧ (65536 ≤ a ∨ a % 8 ≠ 0 → ∃ t, exec (.sld q w) s = .next t ∧ t.mem = s.mem ∧ 0x16 ∈ t.irq.latch
      ∧ (∀ p, p ≠ q.val → t.clu p = s.clu p)
      ∧ t.clu q.val = { advance k with maskFault := true, sreg := (t.clu q.val).sreg, sstain := (t.clu q.val).sstain }
      ∧ (fRd n ≠ 0 → sVal (t.clu q.val) (fRd n) = 0 ∧ sStain (t.clu q.val) (fRd n) = true)
      ∧ ∀ r, r ≠ fRd n → sVal (t.clu q.val) r = sVal k r ∧ sStain (t.clu q.val) r = sStain k r)

/-- NUMF.RD and NUMF.CLR read and clear CORE_NUMF once every array instruction has completed (04_sequencer_and_queues.md, 05_instruction_set.md, R132, R161). -/
def Obligations.NumericFlagInstructions : Prop :=
  ∀ (s : State) (q : Cl) (w : BitVec 120),
    let k := s.clu q.val
    let done := ∀ e ∈ k.core, e.2.aq = []
    let stalled := fun (c : Instr) => ∃ t, exec c s = .next t ∧ OnlyCluster s t q.val
      ∧ t.clu q.val = { k with state := 3, stall := k.stall + 1 }
    (Issues s q 0x65 w → (¬ done → stalled (.numfRd q w)) ∧ (done → ∃ t, exec (.numfRd q w) s = .next t
      ∧ WroteScalar s t q.val (fRd (wordOf 0x65 w))
          (if 32 ≤ fSub (wordOf 0x65 w)
            then (List.range 32).foldl (fun a c => a ||| (k.coreAt c).numf.setWidth 64) 0
            else (k.coreAt (fSub (wordOf 0x65 w) % 32)).numf.setWidth 64) false))
    ∧ (Issues s q 0x66 w → (¬ done → stalled (.numfClr q w)) ∧ (done → ∃ t, exec (.numfClr q w) s = .next t
      ∧ OnlyCluster s t q.val ∧ t.clu q.val = { advance k with core := (t.clu q.val).core }
      ∧ ∀ c < 32, t.coreOf q.val c = { s.coreOf q.val c with
          numf := (s.coreOf q.val c).numf &&& ~~~(BitVec.ofNat 16 (fImm (wordOf 0x66 w) % 2 ^ 9)) }))

/-- CSTART joins the context of its tuple, and CWAIT goes on once its collective is no longer outstanding (10_collectives.md, R132, R163, R315, R318). -/
def Obligations.CollectiveStarts : Prop :=
  ∀ (s : State) (q : Cl) (w : BitVec 120),
    let n := wordOf 0x67 w
    let k := s.clu q.val
    let key := tupleOf (sReg k (fRa n))
    let start := fun (op : Nat) (c : Instr) =>
      Issues s q 0x67 w → fSub n % 16 = op → outDone k k.nextId = true → tupleRefused s q.val key = false →
      (key.seq - (recOf s key).doneBase).toNat < 256 → k.colls.contains key = false → k.colls.length < 16 →
      ((s.ctxAt key).isSome = true ∨ s.coll.ctx.length < 256) →
      ∃ t, exec c s = .next t ∧ (t.clu q.val).colls = k.colls ++ [key] ∧ (t.clu q.val).pc = (advance k).pc
        ∧ ((∀ x, s.ctxAt key = some x → x.early = []) → ∃ x, t.ctxAt key = some x ∧ x.op.isSome = true
            ∧ ∃ st ∈ x.starts, st.clu = q.val ∧ st.addr = sVal k (fRb n))
    let waits := fun (op : Nat) (c : Instr) =>
      Issues s q 0x67 w → fSub n % 16 = op →
      (outDone k k.nextId = false → ∃ t, exec c s = .next t ∧ OnlyCluster s t q.val
        ∧ t.clu q.val = { k with state := 3, stall := k.stall + 1 })
      ∧ (outDone k k.nextId = true → tupleRefused s q.val key = false →
        (key.seq - (recOf s key).doneBase).toNat < 256 → k.colls.contains key = false →
        (16 ≤ k.colls.length → ∃ t, exec c s = .next t ∧ OnlyCluster s t q.val
          ∧ t.clu q.val = { k with state := 4, stall := k.stall + 1 })
        ∧ (k.colls.length < 16 → s.ctxAt key = none → 256 ≤ s.coll.ctx.length → ∃ t, exec c s = .next t
          ∧ t = { s with cl := t.cl, coll := { s.coll with exhaust := true } } ∧ (∀ p, p ≠ q.val → t.clu p = s.clu p)
          ∧ t.clu q.val = { k with state := 4, stall := k.stall + 1 }))
      ∧ (outDone k k.nextId = true →
        tupleRefused s q.val key = true ∨ 256 ≤ (key.seq - (recOf s key).doneBase).toNat ∨ k.colls.contains key = true →
        ∃ t, exec c s = .next t ∧ (t.clu q.val).halted = true ∧ (t.clu q.val).pc = k.pc ∧ 0x30 ∈ t.irq.latch)
    (waits 0 (.cstartBarrier q w) ∧ waits 1 (.cstartAllReduce q w) ∧ waits 2 (.cstartReduceScatter q w)
      ∧ waits 3 (.cstartAllGather q w) ∧ waits 4 (.cstartAllToAll q w) ∧ waits 5 (.cstartGlobalNorm q w))
    ∧ (start 0 (.cstartBarrier q w) ∧ start 1 (.cstartAllReduce q w) ∧ start 2 (.cstartReduceScatter q w)
      ∧ start 3 (.cstartAllGather q w) ∧ start 4 (.cstartAllToAll q w) ∧ start 5 (.cstartGlobalNorm q w))
    ∧ (Issues s q 0x68 w → tupleRefused s q.val (tupleOf (sReg k (fRa (wordOf 0x68 w)))) = false →
        (k.colls.contains (tupleOf (sReg k (fRa (wordOf 0x68 w)))) = false →
          ∃ t, exec (.cwait q w) s = .next t ∧ OnlyCluster s t q.val ∧ t.clu q.val = advance k)
        ∧ (k.colls.contains (tupleOf (sReg k (fRa (wordOf 0x68 w)))) = true →
          ∃ t, exec (.cwait q w) s = .next t ∧ OnlyCluster s t q.val
            ∧ t.clu q.val = { k with state := 3, stall := k.stall + 1 }))
    ∧ (Issues s q 0x68 w → tupleRefused s q.val (tupleOf (sReg k (fRa (wordOf 0x68 w)))) = true →
        ∃ t, exec (.cwait q w) s = .next t ∧ (t.clu q.val).halted = true ∧ (t.clu q.val).pc = k.pc ∧ 0x30 ∈ t.irq.latch)

/-- A word that fails a check, or that takes control from a stained register, is not issued and stops the job (05_instruction_set.md, R165, R446, R164). -/
def Obligations.WordsThatStopTheJob : Prop :=
  (∀ (s : State) (q : Cl) (w : BitVec 120) (v : Fin 16) (r : Nat),
    let bad := fun (op : Nat) (c : Instr) =>
      let n := wordOf op w
      canIssue (s.clu q.val) = true → islandStopped s q.val = false → fetchAt (s.clu q.val) = .word n → stainStops (s.clu q.val) n = false →
      s.guard.armed = [] → r ∈ reasons s q.val n → (∀ x ∈ reasons s q.val n, r ≤ x) →
      (s.clu q.val).win = some v → (s.jobAt v.val).running = true → (s.jobAt v.val).stopping = false →
      ∃ t, exec c s = .next t ∧ (t.clu q.val).halted = true ∧ (t.clu q.val).pc = (s.clu q.val).pc
        ∧ 0x17 ∈ t.irq.latch
        ∧ (t.jobAt v.val).stopping = true ∧ (t.jobAt v.val).cause = 3
        ∧ ((s.jobAt v.val).reason = 0 → (t.jobAt v.val).reason = BitVec.ofNat 8 r)
    bad 0x00 (.nop q w) ∧ bad 0x20 (.add q w) ∧ bad 0x06 (.beq q w) ∧ bad 0x40 (.ldw q w) ∧ bad 0x80 (.mma q w)
      ∧ bad 0xC0 (.vadd q w) ∧ bad 0xE0 (.siLd q w))
  ∧ (∀ (s : State) (q : Cl) (w : BitVec 120) (v : Fin 16),
    let k := s.clu q.val
    let stops := fun (op : Nat) (c : Instr) (st : Bool) =>
      canIssue k = true → islandStopped s q.val = false → fetchAt k = .word (wordOf op w) → st = true →
      s.guard.armed = [] →
      k.win = some v → (s.jobAt v.val).running = true → (s.jobAt v.val).stopping = false →
      ∃ t, exec c s = .next t ∧ (t.clu q.val).halted = true ∧ (t.clu q.val).pc = k.pc
        ∧ 0x18 ∈ t.irq.latch ∧ (t.jobAt v.val).stopping = true ∧ (t.jobAt v.val).cause = 4
    let ra := fun (op : Nat) => sStain k (fRa (wordOf op w))
    stops 0x05 (.jr q w) (ra 0x05) ∧ stops 0x63 (.waits q w) (ra 0x63) ∧ stops 0x68 (.cwait q w) (ra 0x68)
      ∧ stops 0x67 (.cstartBarrier q w) (ra 0x67)
      ∧ stops 0x06 (.beq q w) (ra 0x06 || sStain k (fRb (wordOf 0x06 w))))

/-- The events of a cluster's run: line fill, signal arrival, context timeout, start, end and stop (04_sequencer_and_queues.md, 12_determinism_and_time.md, R116, R120, R133, R134, R136, R385). -/
def Obligations.ClusterRunEvents : Prop :=
  ∀ (s : State) (q : Cl),
    let k := s.clu q.val
    let line := k.pc.toNat / 64
    islandStopped s q.val = false →
    (k.missing = true → canIssue k = true →
      Mapped s (srcCluster s q.val) ((cluWin s q.val).getD 0) (line * 64) 64 false →
      ∃ t, exec (.icacheMissFill q) s = .next t ∧ (t.clu q.val).missing = false
        ∧ Tbl.get [] (t.clu q.val).icache line
            = (devSectors (srcCluster s q.val) ((cluWin s q.val).getD 0) 2 s (line * 64 : Nat)).2.bytes)
    ∧ (∀ (p : Cl) (c : Fin 16) (g : Signal) (rest : List Signal),
        takeFirst (fun (g : Signal) => g.tgt == p.val && g.ctr == c.val) k.sigs = some (g, rest) →
        outDone k g.after = true → islandStopped s p.val = false →
        (sameJob s q.val p.val = false →
          exec (.signalArrive q p c) s = .next (s.updClu q.val fun k => { k with sigs := rest }))
        ∧ (sameJob s q.val p.val = true →
        ∃ t, exec (.signalArrive q p c) s = .next t ∧ (t.clu q.val).sigs = rest
          ∧ Tbl.get 0 (t.clu p.val).ctr c.val = Tbl.get 0 (s.clu p.val).ctr c.val + BitVec.ofNat 32 g.count
          ∧ (∀ d, d ≠ c.val → Tbl.get 0 (t.clu p.val).ctr d = Tbl.get 0 (s.clu p.val).ctr d)))
    ∧ (k.state = 4 → k.ctxTimeout ≠ 0 → k.colls.length < 16 →
        ∃ t, exec (.seqCtxTimeout q) s = .next t ∧ t.clu q.val = { k with ctxTimedOut := true }
          ∧ (∀ p, p ≠ q.val → t.clu p = s.clu p) ∧ 0x31 ∈ t.irq.latch)
    ∧ (∀ v : Fin 16, k.win = some v → k.waiting = true → (s.jobAt v.val).ts.toNat ≤ copyCount s (clDie q.val) →
        gctSynced s = true → ∃ t, exec (.clusterStartIssue q) s = .next t
          ∧ t.clu q.val = { k with waiting := false } ∧ ∀ p, p ≠ q.val → t.clu p = s.clu p)
    ∧ (k.ending = true → k.stopping = false → k.state ≠ 6 → queuesEmpty k = true →
        ∃ t, exec (.clusterEnded q) s = .next t ∧ t.clu q.val = { k with state := 6 }
          ∧ (∀ p, p ≠ q.val → t.clu p = s.clu p) ∧ ∀ v : Fin 16, k.win = some v → q.val ∈ (t.jobAt v.val).clOver)
    ∧ (k.stopSent = true → k.stopping = false → ∃ t, exec (.jobStopReachCluster q) s = .next t ∧ OnlyCluster s t q.val
        ∧ (t.clu q.val).stopping = true ∧ canIssue (t.clu q.val) = false
        ∧ ∀ c < 32, (t.coreOf q.val c).aq = (s.coreOf q.val c).aq.filter (·.started)
            ∧ (t.coreOf q.val c).vq = (s.coreOf q.val c).vq.filter (·.started)
            ∧ (t.coreOf q.val c).iq = (s.coreOf q.val c).iq.filter (·.started)
            ∧ (t.coreOf q.val c).oq = (s.coreOf q.val c).oq.filter (·.started)
            ∧ (t.coreOf q.val c).pad = (s.coreOf q.val c).pad)
    ∧ (k.stopping = true → k.state ≠ 7 → ∃ t, exec (.clusterStopped q) s = .next t
        ∧ (t.clu q.val).state = 7 ∧ (t.clu q.val).colls = [] ∧ (∀ p, p ≠ q.val → t.clu p = s.clu p)
        ∧ (∀ c < 32, (t.coreOf q.val c).aq = [] ∧ (t.coreOf q.val c).vq = [] ∧ (t.coreOf q.val c).iq = []
            ∧ (t.coreOf q.val c).oq = [] ∧ (t.coreOf q.val c).pad = (s.coreOf q.val c).pad)
        ∧ ∀ v : Fin 16, k.win = some v → q.val ∈ (t.jobAt v.val).clOver)

/-- An array instruction joins the jobs of all four arrays, a row feeds its next step or stalls, and each column takes its next fed step (03_matrix_arrays.md, 04_sequencer_and_queues.md, R81, R88, R92, R93, R95, R96, R124, R127, R157). -/
def Obligations.ArrayStartsAndFeeds : Prop :=
  ∀ (s : State) (q : Cl) (c : Core),
    let k := s.coreOf q.val c.val
    islandStopped s q.val = false → s.guard.armed = [] →
    (∀ i : EInst, k.aq.find? (fun i => !i.started) = some i → mayOverlap k i = true → scoreOk k i = true →
      loadPending k i = false → (∀ a < 4, startReason i.word.toNat (k.arr a) = none) →
      ∃ t, exec (.arrayInstrStart q c) s = .next t ∧ OnlyCore s t q.val c.val
        ∧ (t.coreOf q.val c.val).aq = k.aq.map (fun j => if j.id = i.id then { i with started := true } else j)
        ∧ (t.coreOf q.val c.val).pad = k.pad ∧ ∀ a < 4, t.arrOf q.val c.val a = beginJob i (k.arr a))
    ∧ ∀ a : Fin 4,
      let r := k.arr a.val
      (∀ (row : Fin 8) (flips : List (Nat × Nat)) (i : EInst) (j : AJob), feedJob k r row.val = some (i, j) →
        let rows := rowGroup i.word.toNat row.val
        let m := j.fedBy row.val / rowSteps i.word.toNat j.start
        (mayFeed k r i j row.val = false → exec (.arrayFeedStep q c a row flips) s = .next s)
        ∧ (mayFeed k r i j row.val = true →
          (fillQueues (fetchScales s q.val c.val a.val i j m) q.val c.val a.val i i.id rows).isSome = true →
          ∃ t, exec (.arrayFeedStep q c a row flips) s = .next t ∧ t.mem = s.mem
            ∧ (t.coreOf q.val c.val).pad = k.pad
            ∧ ∀ x ∈ (t.arrOf q.val c.val a.val).jobs, x.id = i.id → ∃ y ∈ r.jobs, y.id = i.id
              ∧ x.fed = rows.foldl (fun l o => alter l o (· + 1)) y.fed ∧ x.entered = y.entered ∧ x.done = y.done))
      ∧ ∃ t, exec (.arrayProductEnter q c a none) s = .next t
        ∧ ((∀ (col : Nat) (i : EInst) (j : AJob) (f : Fed), col < 4 → colJob k r col = some (i, j) → f ∈ r.pipe →
              passesLimit i.word.toNat (openColumn i.word.toNat j col (r.col col)) f.count = false) →
          t.mem = s.mem ∧ (t.coreOf q.val c.val).pad = k.pad
          ∧ ∀ (col : Nat) (i : EInst) (j : AJob) (f : Fed), col < 4 → colJob k r col = some (i, j) → j.entered.length = 4 →
            r.pipe.find? (fun f => f.id == i.id && f.actRow == j.doneBy col && f.pos == j.enteredBy col
              && !f.taken.getLsbD col) = some f →
            j.enteredBy col + f.count ≠ fK i.word.toNat →
            ∃ x ∈ (t.arrOf q.val c.val a.val).jobs, x.id = i.id ∧ x.enteredBy col = j.enteredBy col + f.count)

/-- A finished reduction drains through its column's latch, parks as a record or resumes from one (03_matrix_arrays.md, R68, R92, R95, R99, R100, R156, R157). -/
def Obligations.ArrayDrainsParksResumes : Prop :=
  ∀ (s : State) (q : Cl) (c : Core) (i : EInst) (j : AJob) (a : Fin 4),
    let n := i.word.toNat
    let k := s.coreOf q.val c.val
    let r := s.arrOf q.val c.val a.val
    islandStopped s q.val = false → s.guard.armed = [] →
    (∀ col : Fin 4, rowWaits k r 1 col.val = some (i, j) →
      ((r.lat col.val).full = true → exec (.arrayDrain q c a col) s = .next s)
      ∧ ((r.lat col.val).full = false →
        ∃ t, exec (.arrayDrain q c a col) s = .next t ∧ t.mem = s.mem
          ∧ (t.coreOf q.val c.val).pad = k.pad
          ∧ ((t.arrOf q.val c.val a.val).lat col.val)
              = ⟨true, i.id, j.doneBy col.val, BitVec.ofNat 32 (drainColumn n (r.col col.val)).value,
                  BitVec.ofNat 32 (drainColumn n (r.col col.val)).index, (drainColumn n (r.col col.val)).stain,
                  (drainColumn n (r.col col.val)).dep⟩
          ∧ (t.coreOf q.val c.val).numf = k.numf ||| (drainColumn n (r.col col.val)).flags))
    ∧ (∀ col : Fin 4, (r.lat col.val).full = true → arrInst k (r.lat col.val).id = some i → (r.lat col.val).row < rowsOf i →
      fOp n ≠ 0xA5 → (fHalt n && (r.lat col.val).dep) = false →
      let at_ := eAddr i 1 c.val (16 * (r.lat col.val).row + 4 * a.val + col.val)
      let len := elemBytes (fFmtDst n)
      len ≤ 32 → accessFault i.wmask at_ len = 0 →
      ∃ t, exec (.drainAccept q c a col) s = .next t ∧ OnlyCore s t q.val c.val
        ∧ (t.arrOf q.val c.val a.val).lat col.val = {}
        ∧ padBytes (t.coreOf q.val c.val) at_.toNat len = leBytes len (r.lat col.val).value.toNat
        ∧ ∀ x, (x < at_.toNat ∨ at_.toNat + len ≤ x) → Tbl.get 0 (t.coreOf q.val c.val).pad x = Tbl.get 0 k.pad x)
    ∧ (parkWaits k r = some (i, j) →
      let at_ := eAddr i 3 c.val (16 * j.doneBy 0 + 4 * a.val + 3)
      ∃ t, exec (.arrayPark q c a) s = .next t ∧ t.mem = s.mem
        ∧ (∀ col < 4, (t.arrOf q.val c.val a.val).col col = {})
        ∧ (∀ x ∈ (t.arrOf q.val c.val a.val).jobs, x.id = i.id → ∃ y ∈ r.jobs, y.id = i.id
            ∧ (y.done.length = 4 → ∀ col < 4, x.doneBy col = y.doneBy col + 1))
        ∧ ((fHalt n && r.col3.stain) = false → accessFault i.wmask at_ 32 = 0 → accessFault i.wmask (at_ + 32) 32 = 0 →
            padBytes (t.coreOf q.val c.val) at_.toNat 64 = leBytes 64 (parkRecord n r.col3)))
    ∧ (resumeWaits k r = some (i, j) →
      let at_ := fun (col : Nat) => eAddr i 3 c.val (16 * j.doneBy 0 + 4 * a.val + col)
      let rec_ := fun (col : Nat) => leNat (padBytes k (at_ col).toNat 64)
      (∀ col < 4, accessFault i.rmask (at_ col) 32 = 0 ∧ accessFault i.rmask (at_ col + 32) 32 = 0
        ∧ recordOk n (rec_ col) = true) →
      ∃ t, exec (.arrayResume q c a) s = .next t ∧ OnlyCore s t q.val c.val
        ∧ (∀ x ∈ (t.arrOf q.val c.val a.val).jobs, x.id = i.id → ∀ col < 4, x.begunBy col = true)
        ∧ ∀ col < 4, (t.arrOf q.val c.val a.val).col col = loadRecord n (rec_ col)
            (padRangeStained k (at_ col).toNat 32 || padRangeStained k ((at_ col).toNat + 32) 32))

/-- A weight load holds its bank on every array from its start until it completes, and leaves the tile's format in it (03_matrix_arrays.md, R87, R88, R130, R160). -/
def Obligations.WeightLoads : Prop :=
  ∀ (s : State) (q : Cl) (c : Core) (i : EInst),
    let k := s.coreOf q.val c.val
    let n := i.word.toNat
    islandStopped s q.val = false → s.guard.armed = [] →
    (nextLoad k = some i → scoreOk k i = true → (k.iq.filter (·.started)).length < 2 →
      (∀ j ∈ k.iq, j.started = true → eOp j ≠ 0xE2) →
      (∀ j ∈ k.aq, j.id < i.id → fBank j.word.toNat = fBankS n → passedBank k j = true) →
      ∃ t, exec (.weightLoadStart q c) s = .next t ∧ OnlyCore s t q.val c.val
        ∧ (t.coreOf q.val c.val).iq = k.iq.map (fun j => if j.id = i.id then { i with started := true } else j)
        ∧ (t.coreOf q.val c.val).pad = k.pad
        ∧ ∀ a < 4, (t.arrOf q.val c.val a).bank (fBankS n)
            = { (s.arrOf q.val c.val a).bank (fBankS n) with loading := true })
    ∧ (k.iq.find? (fun i => i.started && eOp i == 0xE2 && i.next == 0) = some i →
      ∃ t, exec (.weightLoadComplete q c) s = .next t ∧ t.mem = s.mem ∧ (t.coreOf q.val c.val).pad = k.pad
        ∧ (∃ j ∈ (t.coreOf q.val c.val).iq, j.id = i.id ∧ j.next = 1 ∧ j.readsOut = true ∧ j.writesOut = true)
        ∧ ∀ a < 4, ((t.arrOf q.val c.val a).bank (fBankS n)).loading = false
            ∧ ((t.arrOf q.val c.val a).bank (fBankS n)).fmt = some (BitVec.ofNat 4 (fFmtT n))
            ∧ (t.arrOf q.val c.val a).bank (!fBankS n) = (s.arrOf q.val c.val a).bank (!fBankS n))

/-- The vector engine starts an instruction, takes one group of it, and writes the oldest group's results (06_vector_and_stream_engines.md, R126, R180). -/
def Obligations.VectorEngineCommands : Prop :=
  ∀ (s : State) (q : Cl) (c : Core) (i : EInst),
    let k := s.coreOf q.val c.val
    islandStopped s q.val = false → s.guard.armed = [] →
    (k.vq.find? (fun i => !i.started) = some i → scoreOk k i = true →
      (∀ j ∈ k.vq, j.started = true → vecFed j = true) →
      ∃ t, exec (.vectorInstrStart q c) s = .next t ∧ OnlyCore s t q.val c.val
        ∧ t.coreOf q.val c.val = { k with vq := k.vq.map fun j => if j.id = i.id then { i with started := true } else j })
    ∧ (k.vq.find? (fun i => i.started && !vecFed i) = some i →
      ∃ t v j, exec (.vectorGroup q c) s = .next t ∧ t.mem = s.mem
        ∧ (t.coreOf q.val c.val).pad = k.pad
        ∧ (t.coreOf q.val c.val).veng.out = k.veng.out ++ [v] ∧ v.id = i.id
        ∧ j ∈ (t.coreOf q.val c.val).vq ∧ j.id = i.id ∧ j.next = i.next + 1)
    ∧ (∀ (v : VRes) (rest : List VRes), k.veng.out = v :: rest →
      ∃ t, exec (.vectorResultWrite q c) s = .next t ∧ t.mem = s.mem
        ∧ (t.coreOf q.val c.val).veng.out = rest
        ∧ (k.vq.find? (fun i => i.id == v.id) = some i → vecFed i = true → (∀ x ∈ rest, x.id ≠ i.id) →
            ∃ j ∈ (t.coreOf q.val c.val).vq, j.id = i.id ∧ j.writesOut = true))

/-- The stream engines start, issue one sector access, take its return and retire finished instructions (06_vector_and_stream_engines.md, R124, R132, R183, R186, R188). -/
def Obligations.StreamEngineCommands : Prop :=
  ∀ (s : State) (q : Cl) (c : Core) (i : EInst),
    let k := s.coreOf q.val c.val
    let starts := fun (d : StreamDir) (cmd : Instr) =>
      (k.queue (dirQueue d)).find? (fun i => !i.started) = some i → isWld i = false →
      ((k.queue (dirQueue d)).filter (·.started)).length < 2 →
      (∀ j ∈ k.queue (dirQueue d), j.started = true → allIssued j = true) →
      scoreOk k i = true →
      ∃ t, exec cmd s = .next t ∧ OnlyCore s t q.val c.val
        ∧ t.coreOf q.val c.val = k.setQueue (dirQueue d)
            ((k.queue (dirQueue d)).map fun j => if j.id = i.id then { i with started := true } else j)
    islandStopped s q.val = false → s.guard.armed = [] →
    starts .inn (.streamInInstrStart q c) ∧ starts .out (.streamOutInstrStart q c)
    ∧ (∀ d : StreamDir, (k.queue (dirQueue d)).find? (fun i => i.started && !allIssued i) = some i →
      (k.accs d).length < accLimit d → conflicts s q.val c.val d i = false →
      (usesDevice i = true → fencePassed k i = true) →
      (d = .out → isIndexed i = false ∧ farAligned i (farAddr i .out c.val i.next 0) = true
        ∧ fHalt i.word.toNat = false) →
      ∃ t x, exec (.streamSectorIssue q c { dir := d }) s = .next t ∧ t.mem = s.mem
        ∧ (t.coreOf q.val c.val).pad = k.pad
        ∧ (t.coreOf q.val c.val).accs d = k.accs d ++ [x] ∧ x.id = i.id ∧ x.piece = i.next)
    ∧ (∀ (m : Nat) (a : SAcc), k.reads[m]? = some a → 3 ≤ a.phase →
      ∃ t, exec (.streamReadReturn q c m) s = .next t ∧ t.mem = s.mem
        ∧ (t.coreOf q.val c.val).reads = dropAt k.reads m
        ∧ (∀ off, a.offs = [off] → k.iq.find? (fun j => j.id == a.id) = some i → fHalt i.word.toNat = false →
            accessFault i.wmask (nearAddr i .inn c.val a.piece) (pieceBytes i) = 0 →
            padBytes (t.coreOf q.val c.val) (nearAddr i .inn c.val a.piece).toNat (pieceBytes i)
              = cut a.data off (pieceBytes i)))
    ∧ (∀ (m : Nat) (a : SAcc), k.writes[m]? = some a → 3 ≤ a.phase →
      ∃ t, exec (.streamWriteComplete q c m) s = .next t ∧ OnlyCore s t q.val c.val
        ∧ t.coreOf q.val c.val = { k with writes := dropAt k.writes m })
    ∧ (∀ (e : Engine) (rest : List EInst), k.queue e = i :: rest → headDone k e i = true → i.halted = false →
      ∃ t, exec (.engineInstrComplete q c e) s = .next t ∧ OnlyCore s t q.val c.val
        ∧ t.coreOf q.val c.val = k.setQueue e rest)

/-- A whole-sector write of DRAM followed by a clean read returns the data and the stain, and changes no other sector (07_memory_system.md, R207, R208, R209, R211, R216). -/
def Obligations.DramSectorWriteThenRead : Prop :=
  (∀ (s : State) (stack sec : Nat) (data : List Byte) (en : BitVec 32) (st hbm : Bool), sectorExists hbm stack sec = true →
    let read : Instr := if hbm then .hbmSectorRead (.sector stack sec [] 0 false) .clean
      else .nmSectorRead (.sector stack sec [] 0 false) []
    let write : Instr := if hbm then .hbmSectorWrite (.sector stack sec data en st) .clean
      else .nmSectorWrite (.sector stack sec data en st) []
    (inWindow s hbm stack sec = true → exec read s = .next s ∧ exec write s = .next s)
    ∧ ∀ c, cachedAt s hbm stack sec = some c →
      exec read s = .next { s with mem := { s.mem with resp := some (c.data, c.stain) } }
      ∧ ∃ t, exec write s = .next t ∧ t = { s with mem := { s.mem with die := t.mem.die } }
        ∧ cachedAt t hbm stack sec = some { c with
            data := mergeBytes c.data data en.toNat, dirty := true, stain := st || (en != 0xFFFFFFFF && c.stain) })
  ∧ ∀ (s : State) (stack sec : Nat) (data : List Byte) (st : Bool), data.length = 32 →
    (sectorExists false stack sec = true → cachedAt s false stack sec = none →
      inWindow s false stack sec = false →
      ∃ t u, exec (.nmSectorWrite (.sector stack sec data 0xFFFFFFFF st) []) s = .next t
        ∧ exec (.nmSectorRead (.sector stack sec [] 0 false) []) t = .next u
        ∧ u.mem.resp = some (data, st)
        ∧ t = { s with mem := { s.mem with nm := t.mem.nm, nmDone := t.mem.nmDone } }
        ∧ ∀ k o, sectorExists false k o = true → (k, o) ≠ (stack, sec) → nmSyms t k o = nmSyms s k o)
    ∧ (sectorExists true stack sec = true → cachedAt s true stack sec = none →
      inWindow s true stack sec = false →
      ∃ t u, exec (.hbmSectorWrite (.sector stack sec data 0xFFFFFFFF st) .clean) s = .next t
        ∧ exec (.hbmSectorRead (.sector stack sec [] 0 false) .clean) t = .next u
        ∧ u.mem.resp = some (data, st)
        ∧ t = { s with mem := { s.mem with hbm := t.mem.hbm, hbmStain := t.mem.hbmStain, hbmErr := t.mem.hbmErr,
                                           hbmRow := t.mem.hbmRow, hbmActs := t.mem.hbmActs } }
        ∧ ∀ k o, sectorExists true k o = true → (k, o) ≠ (stack, sec) →
            hbmData t k o = hbmData s k o ∧ hbmStained t k o = hbmStained s k o)

/-- Any error in any one of the 36 symbols of a near-memory sector is corrected when the sector is read (07_memory_system.md, R208, R209, R210). -/
def Obligations.NearMemoryCorrectsOneSymbol : Prop :=
  ∀ (s : State) (stack sec : Nat) (data : List Byte) (st : Bool) (p : Nat) (e : Byte),
    sectorExists false stack sec = true → cachedAt s false stack sec = none → data.length = 32 →
    inWindow s false stack sec = false → nmSyms s stack sec = nmEncode data st → p < 36 →
    ∃ t, exec (.nmSectorRead (.sector stack sec [] 0 false) [(p, e)]) s = .next t ∧ t.mem.resp = some (data, st)
      ∧ nmSyms t stack sec = nmSyms s stack sec

/-- DRAM sectors, SRAM words and sequencer registers report their errors, stain what they spoil and correct what they can (04_sequencer_and_queues.md, R114; 07_memory_system.md, R209, R210, R211, R212, R213, R216, R233; 13_integrity_and_recovery.md, R404). -/
def Obligations.MemoryErrorReports : Prop :=
  (∀ (s : State) (stack sec : Nat) (rep : EccReport), sectorExists true stack sec = true →
    inWindow s true stack sec = false →
    let r := hbmReport s stack sec rep
    let stained := hbmStained s stack sec || r == .uncorrected
    (cachedAt s true stack sec = none →
      ∃ t, exec (.hbmSectorRead (.sector stack sec [] 0 false) rep) s = .next t
        ∧ t.mem.resp = some (escapeBytes r (hbmData s stack sec), stained) ∧ hbmStained t stack sec = stained
        ∧ t.mem.hbm = s.mem.hbm ∧ hbmReport t stack sec .clean = r ∧ (r = .uncorrected → 0x22 ∈ t.irq.latch))
    ∧ ∃ t, exec (.patrolScrub true stack sec [] rep) s = .next t
        ∧ ((∀ l, r ≠ .escaped true l) → hbmData t stack sec = hbmData s stack sec) ∧ hbmStained t stack sec = stained
        ∧ (r = .corrected → hbmReport t stack sec .clean = .clean))
  ∧ (∀ (s : State) (stack sec : Nat) (data : List Byte) (st : Bool) (p : Nat) (e : Byte),
    sectorExists false stack sec = true → inWindow s false stack sec = false →
    (nmSyms s stack sec = nmEncode data st → data.length = 32 → p < 36 → e ≠ 0 →
      ∃ t, exec (.patrolScrub false stack sec [(p, e)] .clean) s = .next t
        ∧ nmSyms t stack sec = nmEncode data st ∧ 0x48 ∈ t.irq.latch ∧ t.cl = s.cl)
    ∧ ∀ upset : List (Nat × Byte),
      let r := nmDecode (upset.foldl (fun w u => fixSym w u.1 u.2) (nmSyms s stack sec))
      cachedAt s false stack sec = none → r.how = 2 →
      ∃ t, exec (.nmSectorRead (.sector stack sec [] 0 false) upset) s = .next t ∧ t.mem.resp = some (r.data, true)
        ∧ nmSyms t stack sec = nmEncode r.data true ∧ 0x21 ∈ t.irq.latch ∧ t.cl = s.cl)
  ∧ (∀ (s : State) (p : SramPlace) (sec : List Byte) (st : Bool), s.guard.armed = [] → sramSector s p = some (sec, st) →
    let o := 8 * (sramWord p % 4)
    (∀ v : BitVec 64, ∃ t, exec (.sramAccess p (some (v, 0xFF)) []) s = .next t
      ∧ (isSeqReg p = true → t = s)
      ∧ (isSeqReg p = false → sramSector t p = some (paste sec o (leBytes 8 v.toNat), st)))
    ∧ (∀ flips : List (Fin 72), flips.length ≤ 1 →
      ∃ t, exec (.sramAccess p none flips) s = .next t ∧ t.cl = s.cl
        ∧ t.mem = { s.mem with resp := some (cut sec o 8, st) } ∧ (flips ≠ [] → 0x48 ∈ t.irq.latch))
    ∧ (∀ a b : Fin 72, a ≠ b →
      ∃ t word all, exec (.sramAccess p none [a, b]) s = .next t ∧ t.mem.resp = some (word, true)
        ∧ sramSector t p = some (all, true) ∧ 16 + sramCls p ∈ t.irq.latch))
  ∧ (∀ (s : State) (p : SramPlace) (sec : List Byte) (st : Bool) (w : Nat) (i : Inject), s.guard.armed = [i] →
    i.cls.toNat = sramCls p → i.src.toNat = sramSrc s p → i.win = w → i.left = 1 → i.weight = 2 → sramWin s p = some w →
    sramSector s p = some (sec, st) →
    ∃ t word all, exec (.sramAccess p none []) s = .next t ∧ t.mem.resp = some (word, true)
      ∧ sramSector t p = some (all, true) ∧ 16 + sramCls p ∈ t.irq.latch ∧ t.guard.armed = [])
  ∧ ∀ (s : State) (q : Cl) (c : Core) (w : Fin 8192) (v : BitVec 64) (flips : List (Fin 72)),
    let k := s.coreOf q.val c.val
    ∃ t, exec (.sramAccess (.scratch q c w) (some (v, 0xFF)) flips) s = .next t ∧ OnlyCore s t q.val c.val
      ∧ padBytes (t.coreOf q.val c.val) (8 * w.val) 8 = leBytes 8 v.toNat
      ∧ (∀ x, (x < 8 * w.val ∨ 8 * w.val + 8 ≤ x) →
          Tbl.get 0 (t.coreOf q.val c.val).pad x = Tbl.get 0 k.pad x)
      ∧ ∀ x, padStained (t.coreOf q.val c.val) x = padStained k x

/-- The controller performs a stream's access that is ready: a read holds what the sector or its copy in the shelf held, and a write of a whole sector is stored (07_memory_system.md, R185, R207, R208, R211, R224, R230). -/
def Obligations.StreamSectorAccesses : Prop :=
  ∀ (s : State) (q : Cl) (c : Core) (d : StreamDir) (i : Nat) (a : SAcc), s.guard.armed = [] →
    let reads := fun (t : State) (data : List Byte) (st : Bool) =>
      t = s.updAcc q.val c.val d i fun x => { x with data := data, stain := st, phase := 3 }
    let wrote := fun (t : State) => t.acc q.val c.val d i = some { a with phase := 3 }
      ∧ (t.coreOf q.val c.val).pad = (s.coreOf q.val c.val).pad ∧ (∀ p, p ≠ q.val → t.clu p = s.clu p) ∧ t.hif = s.hif
    (readyAcc s q.val c.val d i true false = some a →
      (∀ x, cachedAt s true a.stack a.place = some x →
        ∃ t, exec (.hbmSectorRead (.stream q c d i) .clean) s = .next t ∧ reads t x.data x.stain)
      ∧ (cachedAt s true a.stack a.place = none → hbmReport s a.stack a.place .clean = .clean →
        ∃ t, exec (.hbmSectorRead (.stream q c d i) .clean) s = .next t
          ∧ OnlyCore { s with mem := { s.mem with hbmRow := t.mem.hbmRow, hbmActs := t.mem.hbmActs } } t q.val c.val
          ∧ t.acc q.val c.val d i = some { a with
              data := hbmData s a.stack a.place, stain := hbmStained s a.stack a.place, phase := 3 }))
    ∧ (readyAcc s q.val c.val d i false false = some a →
      (∀ x, cachedAt s false a.stack a.place = some x →
        ∃ t, exec (.nmSectorRead (.stream q c d i) []) s = .next t ∧ reads t x.data x.stain)
      ∧ ∀ data st, cachedAt s false a.stack a.place = none → nmSyms s a.stack a.place = nmEncode data st →
        data.length = 32 → ∃ t, exec (.nmSectorRead (.stream q c d i) []) s = .next t ∧ reads t data st)
    ∧ (readyAcc s q.val c.val d i true true = some a →
      ∃ t, exec (.hbmSectorWrite (.stream q c d i) .clean) s = .next t ∧ wrote t
        ∧ (cachedAt s true a.stack a.place = none → a.en = wholeEn →
          hbmData t a.stack a.place = cut a.data 0 32 ∧ hbmStained t a.stack a.place = a.stain))
    ∧ (readyAcc s q.val c.val d i false true = some a →
      ∃ t, exec (.nmSectorWrite (.stream q c d i) []) s = .next t ∧ wrote t
        ∧ (cachedAt s false a.stack a.place = none → a.en = wholeEn →
          nmSyms t a.stack a.place = nmEncode a.data a.stain))

/-- A lookup settles an access or notes a miss, whose fill settles what awaits it; a fault gives a read stained zeros and stops the job of a write (07_memory_system.md, R194, R195, R199, R203, R204, R236). -/
def Obligations.TranslationLookups : Prop :=
  (∀ (s : State) (q : Cl) (c : Core) (d : StreamDir) (i : Nat) (a : SAcc) (v : Fin 16), s.guard.armed = [] →
    let key := xlatKey v.val (a.addr / 2 ^ 21)
    let hit := (s.dieMem (clDie q.val)).xlat.find? fun e => e.1 == key
    let lookup : Instr := .xlatLookup (.stream q c d i)
    s.acc q.val c.val d i = some a → (s.clu q.val).win = some v → a.phase = 0 →
    behindSame ((s.coreOf q.val c.val).accs d) i a.addr = false →
    (∀ r : Xlat, (xlatDirect s v.val a.addr = some r
        ∨ xlatDirect s v.val a.addr = none ∧ ∃ e, hit = some e ∧ xlatEntry s e.2 a.addr a.write = r) →
      (∀ st sec cc, r = .ok (.hbm st sec) cc → exec lookup s = .next (s.updAcc q.val c.val d i fun x =>
          { x with tier := 1, stack := st, place := sec, cacheable := cc, phase := 2 }))
      ∧ (∀ st sec cc, r = .ok (.nm st sec) cc → exec lookup s = .next (s.updAcc q.val c.val d i fun x =>
          { x with tier := 0, stack := st, place := sec, cacheable := cc, phase := 2 }))
      ∧ (∀ p cc b sec, r = .ok p cc → p = .buf b sec ∨ p = .shelf b sec →
        (a.write = false → exec lookup s = .next (s.updAcc q.val c.val d i fun x =>
            { x with data := (secRead s p).2.1, stain := (secRead s p).2.2, phase := 3 }))
        ∧ (a.write = true → a.en = wholeEn → a.data.length = 32 → ∃ t, exec lookup s = .next t
            ∧ t.acc q.val c.val d i = some { a with phase := 3 } ∧ (secRead t p).2 = (a.data, a.stain)))
      ∧ (∀ f, r = .fault f → ∃ t, exec lookup s = .next t ∧ t.mem.fltValid = true ∧ 0x20 ∈ t.irq.latch
        ∧ t.acc q.val c.val d i = some (if a.write then { a with phase := 4 }
            else { a with data := zeros 32, stain := true, phase := 4 })
        ∧ (a.write = true → (s.jobAt v.val).running = true → (t.jobAt v.val).stopping = true)))
    ∧ (xlatDirect s v.val a.addr = none → hit = none → ∃ t, exec lookup s = .next t
        ∧ t.acc q.val c.val d i = some { a with phase := 1 } ∧ key ∈ (t.dieMem (clDie q.val)).misses))
  ∧ (∀ (s : State) (die : Die) (v : Win) (addr : BitVec 64) (write : Bool),
    let key := xlatKey v.val (addr.toNat / 2 ^ 21)
    let hit := (s.dieMem die.val).xlat.find? fun e => e.1 == key
    let lookup : Instr := .xlatLookup (.unit die v addr write)
    (∀ r : Xlat, (xlatDirect s v.val addr.toNat = some r
        ∨ xlatDirect s v.val addr.toNat = none ∧ ∃ e, hit = some e ∧ xlatEntry s e.2 addr.toNat write = r) →
      (∀ p cc, r = .ok p cc → exec lookup s = .next s)
      ∧ (∀ f, r = .fault f → ∃ t, exec lookup s = .next t ∧ t.mem.fltValid = true ∧ 0x20 ∈ t.irq.latch
        ∧ (write = false → t.mem.resp = some (zeros 32, true))
        ∧ (write = true → (s.jobAt v.val).running = true → (t.jobAt v.val).stopping = true)))
    ∧ (xlatDirect s v.val addr.toNat = none → hit = none → ∃ t, exec lookup s = .next t
        ∧ key ∈ (t.dieMem die.val).misses ∧ t = { s with mem := { s.mem with die := t.mem.die } }))
  ∧ ∀ (s : State) (die : Die) (v : Win) (p : BitVec 20) (victim : Nat),
    let key := xlatKey v.val p.toNat
    ((s.dieMem die.val).misses.contains key = false → exec (.xlatMissFill die v p victim) s = .next s)
    ∧ ((s.dieMem die.val).misses.contains key = true → ∃ t, exec (.xlatMissFill die v p victim) s = .next t
      ∧ (t.dieMem die.val).misses.contains key = false
      ∧ (entV (tableEntry s v.val p.toNat) = true → (key, tableEntry s v.val p.toNat) ∈ (t.dieMem die.val).xlat)
      ∧ ∀ (q : Cl) (c : Core) (d : StreamDir) (i : Nat) (a : SAcc) (st sec : Nat) (cc : Bool), s.guard.armed = [] →
          clDie q.val = die.val → (s.clu q.val).win.map (·.val) = some v.val → s.acc q.val c.val d i = some a → a.phase = 1 →
          a.addr / 2 ^ 21 = p.toNat → xlatEntry s (tableEntry s v.val p.toNat) a.addr a.write = .ok (.hbm st sec) cc →
          t.acc q.val c.val d i = some { a with tier := 1, stack := st, place := sec, cacheable := cc, phase := 2 })

/-- The shelf takes a cacheable sector in, SHELF_CFG sets its window where no job uses it, and refresh commands reach the stack (07_memory_system.md, R214, R230, R231). -/
def Obligations.ShelfCacheCommands : Prop :=
  ∀ (s : State),
    (∀ (die : Die) (win : Win) (vframe : BitVec 20) (sector : Fin 65536) (evicts hbm : Bool) (stack sec victim : Nat),
      (∀ c, xlate s win.val (vframe.toNat * 2 ^ 21 + sector.val * 32 : Nat) false = .ok (if hbm then .hbm stack sec else .nm stack sec) c →
        (c = true → (if hbm then stack / 2 else stack) = die.val → cachedAt s hbm stack sec = none →
          inWindow s hbm stack sec = false →
          (if hbm then (s.dieMem die.val).cacheHbm else (s.dieMem die.val).cacheNm) = true →
          ∃ t, exec (.shelfCacheAccess die win vframe sector evicts victim) s = .next t
            ∧ (cachedAt t hbm stack sec).isSome = true ∧ t.cl = s.cl ∧ t.hif = s.hif)
        ∧ (c = false → exec (.shelfCacheAccess die win vframe sector evicts victim) s = .next s)))
    ∧ (∀ (a : Agent) (die : Die) (v : Word), isMp a = true →
      ∃ t, exec (.shelfCfgWrite a die v) s = .next t
        ∧ (t.dieMem die.val).cacheNm = v.getLsbD 8 ∧ (t.dieMem die.val).cacheHbm = v.getLsbD 9
        ∧ ((s.jobAt (s.dieMem die.val).shelfTw.toNat).running = false →
            (s.jobAt (v.toNat / 16 % 16)).running = false →
            (t.dieMem die.val).shelfTw.toNat = v.toNat / 16 % 16
              ∧ (t.dieMem die.val).shelfWin.toNat
                  = (if v.toNat % 8 ≤ 5 then v.toNat % 8 else (s.dieMem die.val).shelfWin.toNat))
        ∧ ((s.jobAt (s.dieMem die.val).shelfTw.toNat).running = true →
            (t.dieMem die.val).shelfTw = (s.dieMem die.val).shelfTw
              ∧ (t.dieMem die.val).shelfWin = (s.dieMem die.val).shelfWin))
    ∧ ∀ (stack : Fin 16) (pch : Fin 64) (bank : Fin 65536),
        let b := (stack.val * 64 + pch.val) * 2 ^ 16 + bank.val
        (Tbl.get 0 s.mem.hbmActs b < Config.hbmThreshold stack.val → exec (.hbmRefreshManagement stack pch bank) s = .next s)
        ∧ (Config.hbmThreshold stack.val ≤ Tbl.get 0 s.mem.hbmActs b → ∃ t, exec (.hbmRefreshManagement stack pch bank) s = .next t
          ∧ t = { s with mem := { s.mem with hbmActs := t.mem.hbmActs }, out := s.out ++ [.refresh stack.val pch.val bank.val] }
          ∧ Tbl.get 0 t.mem.hbmActs b = 0 ∧ ∀ x, x ≠ b → Tbl.get 0 t.mem.hbmActs x = Tbl.get 0 s.mem.hbmActs x)

/-- Channel bands follow temperature with hysteresis, a band without a calibration halves the rate, and a window calibrates (07_memory_system.md, R219, R221, R223, R224, R225). -/
def Obligations.ChannelCalibration : Prop :=
  ∀ (s : State) (ch : Chan),
    let c := chanAt s ch
    (∀ temp : Int, ∃ t, exec (.channelTempSample ch temp) s = .next t
      ∧ (340 ≤ temp → (chanAt t ch).band = 3)
      ∧ ((c.band = 3 → 329 ≤ temp) → (c.band = 2 → 269 ≤ temp ∧ temp < 340) → (c.band = 1 → 189 ≤ temp ∧ temp < 280) →
          (c.band = 0 → temp < 200) → t = s)
      ∧ (c.band = 1 → temp ≤ 188 → (chanAt t ch).band = 0)
      ∧ ((chanAt t ch).band ≠ c.band → c.retrain = false → c.cal.getLsbD (chanAt t ch).band.toNat = false →
          (chanAt t ch).half = true ∧ (chanAt t ch).pending = true ∧ ch ∈ (t.dieMem (chanDie ch)).asked))
    ∧ ((s.dieMem (chanDie ch)).asked.find? (fun x => chanGroup x == chanGroup ch) = some ch → groupBusy s ch = false →
      ∃ t, exec (.memRetrainWindowOpen ch) s = .next t
        ∧ chanAt t ch = { c with pending := false, retrain := true, winBand := c.band }
        ∧ ch ∉ (t.dieMem (chanDie ch)).asked)
    ∧ (c.retrain = true → ∃ t, exec (.memRetrainWindowClose ch) s = .next t
        ∧ (chanAt t ch).retrain = false ∧ (chanAt t ch).band = c.band
        ∧ (chanAt t ch).cal = c.cal ||| BitVec.ofNat 4 (2 ^ c.winBand.toNat)
        ∧ ((chanAt t ch).cal.getLsbD c.band.toNat = true → (chanAt t ch).half = false))
    ∧ ∀ die : Die, ∃ t, exec (.nmDarnEpochEnd die) s = .next t
        ∧ (∀ x, (nmCh t die.val x).lane = [])
        ∧ ∀ e ∈ (s.dieMem die.val).nm, ∀ l ∈ e.2.lane, (s.dieMem die.val).darnThr ≠ 0 →
            (s.dieMem die.val).darnThr.toNat < l.2 →
            l.1 ∈ (nmCh t die.val e.1).marked ∨ l.1 ∈ (nmCh t die.val e.1).darned
              ∨ (nmCh t die.val e.1).exhausted = true

/-- Halves and 8-byte accesses of 64-bit registers act for each agent apart, and a malformed access has no effect (00_scope.md, 14_host_interface_and_commands.md, R13, 12_determinism_and_time.md, R392, R523). -/
def Obligations.RegisterAccessForms : Prop :=
  (∀ (s : State) (a : Agent) (off : BitVec 32) (r : Reg), off.toNat % 4 = 0 →
    let o := off.toNat
    let answer := fun (t : State) => Tbl.get 0 t.rdata (agNum a)
    (regAt s a o = some r → r.wide = true → r.took = none →
      ∃ t, exec (.regLoReadSnapshot a off) s = .next t
        ∧ answer t = BitVec.ofNat 64 (r.val % 2 ^ 32) ∧ t = { s with snap := t.snap, rdata := t.rdata }
        ∧ Tbl.get 0 t.snap (o * 8 + agNum a) = BitVec.ofNat 64 r.val
        ∧ ∀ x, x ≠ o * 8 + agNum a → Tbl.get 0 t.snap x = Tbl.get 0 s.snap x)
    ∧ (regAt s a o = none → hiOf s a o = some r →
      ∃ t, exec (.regLoReadSnapshot a off) s = .next t ∧ t = { s with rdata := t.rdata }
        ∧ answer t = Tbl.get 0 s.snap ((o - 4) * 8 + agNum a) >>> 32)
    ∧ (∀ v : Word, regAt s a o = some r → r.wide = true → r.put.isSome = true →
      ∃ t, exec (.regLoWriteHold a off v) s = .next t ∧ t = { s with heldLo := t.heldLo }
        ∧ Tbl.get none t.heldLo (o * 8 + agNum a) = some v
        ∧ ∀ x, x ≠ o * 8 + agNum a → Tbl.get none t.heldLo x = Tbl.get none s.heldLo x)
    ∧ (∀ (v : Word) (f : Nat → State) (h : Reg), regAt s a o = none → hiOf s a o = some h →
      regAt (dropLo s a (o - 4)) a (o - 4) = some r → r.put = some f →
      exec (.regHiWriteCommit a off v) s = .next (f (((Tbl.get none s.heldLo ((o - 4) * 8 + agNum a)).map BitVec.toNat).getD
        (if r.wo then 0 else r.val % 2 ^ 32) + 2 ^ 32 * v.toNat))))
  ∧ (∀ (s : State) (a : Agent) (lo hi : Word) (v : DWord), isMp a = true →
    (∃ t u, exec (.regLoWriteHold a 0x5018 lo) s = .next t ∧ t.gct = s.gct
      ∧ exec (.regHiWriteCommit a 0x501C hi) t = .next u
      ∧ u.gct = { s.gct with cmp := hi ++ lo } ∧ u = { s with gct := u.gct, heldLo := u.heldLo })
    ∧ (∃ t, exec (.regAtomic64Access a 0x5018 (some v)) s = .next t
      ∧ t = { s with gct := { s.gct with cmp := v } })
    ∧ (∃ t, exec (.regAtomic64Access a 0x5000 none) s = .next t
      ∧ Tbl.get 0 t.rdata (agNum a) = s.gct.count ∧ t = { s with rdata := t.rdata }))
  ∧ (∀ (s : State) (a : Agent) (off : BitVec 32) (n : Nat),
    ¬ ((n = 4 ∧ off.toNat % 4 = 0) ∨ (n = 8 ∧ off.toNat % 8 = 0)) →
    exec (.regMalformedAccess a off n true) s = .next s
    ∧ ∃ t, exec (.regMalformedAccess a off n false) s = .next t ∧ t = { s with rdata := t.rdata }
        ∧ Tbl.get 0 t.rdata (agNum a) = 0 ∧ ∀ b, agNum b ≠ agNum a → Tbl.get 0 t.rdata (agNum b) = Tbl.get 0 s.rdata (agNum b))

/-- A register write acts for the agents that may make it, and the slice registers only inside a switch (00_scope.md, 07_memory_system.md, R15, R501, R504, 09_slices_mapping_phases.md, R306, R309, R310). -/
def Obligations.RegisterWritesByAgent : Prop :=
  (∀ (s : State) (a : Agent) (v : Word),
    (∀ n : Fin 16, isMp a = true →
      ∃ t, exec (.regWrite a (BitVec.ofNat 32 (0x1000 + 4 * n.val)) v) s = .next t
        ∧ t = { s with mem := { s.mem with twJob := t.mem.twJob, twEn := t.mem.twEn } }
        ∧ Tbl.get 0 t.mem.twJob n.val = v.setWidth 16 ∧ t.mem.twEn.getLsbD n.val = v.getLsbD 16
        ∧ ∀ m, m ≠ n.val → Tbl.get 0 t.mem.twJob m = Tbl.get 0 s.mem.twJob m ∧ t.mem.twEn.getLsbD m = s.mem.twEn.getLsbD m)
    ∧ (∀ d : Fin 8, mgmt a = true →
      ∃ t, exec (.selectRegisterWrite a (BitVec.ofNat 32 (0x58000 + 0x1000 * d.val)) v) s = .next t
        ∧ t = { s with slc := { s.slc with sel := t.slc.sel } }
        ∧ selOf t a (nmBase d.val) = v.toNat % 128
        ∧ ∀ b, b ≠ a → selOf t b (nmBase d.val) = selOf s b (nmBase d.val))
    ∧ (∀ off : BitVec 32, ¬ (0xF000 ≤ off.toNat ∧ off.toNat < 0x10000) → exec (.regWrite .smbus off v) s = .next s)
    ∧ (∀ off : BitVec 32, s.boot.state = 3 → exec (.regWrite .fn0 off v) s = .next s))
  ∧ (∀ (s : State) (a : Agent) (v : Word),
    (isMp a = true → s.slc.drained = true →
      exec (.slcIdWrite a v) s = .next { s with slc := { s.slc with slice := v.setWidth 8, member := v.getLsbD 8 } }
      ∧ exec (.slcMapWrite a v) s = .next { s with slc := { s.slc with map := v.setWidth 24 } })
    ∧ (isMp a = false ∨ s.slc.drained = false → exec (.slcIdWrite a v) s = .next s ∧ exec (.slcMapWrite a v) s = .next s)
    ∧ (isMp a = true → v.getLsbD 12 = true → ∃ t, exec (.memAcctPeakRst a v) s = .next t
        ∧ t = { s with mem := { s.mem with peakNm := t.mem.peakNm, peakHbm := t.mem.peakHbm },
                       slc := { s.slc with sel := t.slc.sel } }
        ∧ selOf t a acctSel = v.toNat % 2 ^ 12
        ∧ let w := v.toNat % 16
          let tag := v.toNat / 16 % 256
          Tbl.get 0 t.mem.peakNm (w * 256 + tag) = acctCount s w tag false
          ∧ Tbl.get 0 t.mem.peakHbm (w * 256 + tag) = acctCount s w tag true
          ∧ ∀ x, x ≠ w * 256 + tag → Tbl.get 0 t.mem.peakNm x = Tbl.get 0 s.mem.peakNm x
              ∧ Tbl.get 0 t.mem.peakHbm x = Tbl.get 0 s.mem.peakHbm x)
    ∧ (mgmt a = true → v.getLsbD 12 = false → ∃ t, exec (.memAcctPeakRst a v) s = .next t
        ∧ t = { s with slc := { s.slc with sel := t.slc.sel } } ∧ selOf t a acctSel = v.toNat % 2 ^ 12
        ∧ ∀ b, b ≠ a → selOf t b acctSel = selOf s b acctSel))

/-- A field-patch request starts one flash write, a second is rejected, and the record takes the unit when the write ends (01_organisation.md, R33, R34, R36, R37, R38). -/
def Obligations.FieldPatchRequests : Prop :=
  ∀ (s : State) (a : Agent) (v : Word) (u : PhysUnit), mgmt a = true → v.getLsbD 31 = true →
    let asks := fun (c : Instr) =>
      (s.org.busy = false → u ∉ s.org.recorded → s.org.size < 64 →
        exec c s = .next { s with org := { s.org with busy := true, writing := some u } })
      ∧ (s.org.busy = true → exec c s = .next { s with org := { s.org with reject := true } })
    (patchTarget s v.toNat = some u → asks (.orgPatchReq a v))
    ∧ (patchPhysTarget v.toNat = some u → asks (.orgPatchReqPhys a v))
    ∧ (s.org.busy = true → s.org.writing = some u → s.org.bookPatches = [] → ∃ t, exec .patchFlashWriteComplete s = .next t
        ∧ t = { s with org := t.org } ∧ t.org.copy.entries = s.org.copy.entries ++ [u]
        ∧ t.org.busy = false ∧ t.org.done = true ∧ t.org.pending = true ∧ t.org.inForce = s.org.inForce)

/-- Good frames are delivered in order, failed ones are replayed, links join the dies of Table 1.2, and a failed UCIe module degrades its link (01_organisation.md, R22, R24, R25; 08_tensor_network.md, R274; the frame's layout is the model's, log 22). -/
def Obligations.DieToDieLinks : Prop :=
  ∀ (s : State) (l : Fin 16) (up : Bool) (frame : List Byte),
    let at_ := fun (t : State) => Tbl.get {} t.d2d l.val
    let others := fun (t : State) => ∀ m, m ≠ l.val → Tbl.get {} t.d2d m = Tbl.get {} s.d2d m
    let w := wayOf s l.val up
    (frameGood frame = true →
      (w.sent = [] → ∃ t, exec (.d2dFrameReceive l up frame) s = .next t ∧ t = { s with d2d := t.d2d } ∧ others t
        ∧ wayOf t l.val up = frameDelivered w frame ∧ wayOf t l.val (!up) = wayOf s l.val (!up))
      ∧ (∀ f rest, w.sent = f :: rest → frame = f.bytes → w.queue = [] → (dataFlit ((frame.drop 4).take 64)).tail = false →
        ∃ t, exec (.d2dFrameReceive l up frame) s = .next t ∧ t = { s with d2d := t.d2d } ∧ others t
          ∧ (wayOf t l.val up).sent = rest ∧ (wayOf t l.val up).got = (frameDelivered w frame).got
          ∧ (wayOf t l.val up).replaying = false)
      ∧ (∀ f rest, w.sent = f :: rest → frame = f.bytes → w.queue = [] → (dataFlit ((frame.drop 4).take 64)).tail = true →
        wayEnd l.val up ≠ 8 → ∃ t, exec (.d2dFrameReceive l up frame) s = .next t ∧ (wayOf t l.val up).sent = rest
          ∧ t.tl.arrived = s.tl.arrived ++ [(f.link, packetOf (Tbl.get [] w.part (frameVc frame)
              ++ [{ dataFlit ((frame.drop 4).take 64) with time := f.time }]))])
      ∧ (∀ f rest, w.sent = f :: rest → frame ≠ f.bytes →
        (w.replaying = true ∨ (∃ g ∈ rest, g.bytes = frame) → exec (.d2dFrameReceive l up frame) s = .next s)
        ∧ (w.replaying = false → (∀ g ∈ rest, g.bytes ≠ frame) → ∃ t, exec (.d2dFrameReceive l up frame) s = .next t
          ∧ t = { s with d2d := t.d2d } ∧ others t ∧ wayOf t l.val up = frameDelivered w frame)))
    ∧ (frameGood frame = false → ∃ t, exec (.d2dFrameReceive l up frame) s = .next t ∧ others t
        ∧ t = { s with d2d := t.d2d, out := s.out ++ .d2dReplay l.val up :: w.sent.map fun f => .d2dFrame l.val up f.bytes }
        ∧ wayOf t l.val up = { w with replaying := true, replays := w.replays + 1 })
    ∧ (∀ a c : Die, a ≠ c → packagePath a.val c.val
        = if c.val = (a.val + 4) % 8 then [(a.val % 4, decide (a.val < 4))]
          else if 4 ≤ a.val ∧ c.val = (a.val + 1) % 4 then [(a.val, true)]
          else if 4 ≤ c.val ∧ a.val = (c.val + 1) % 4 then [(c.val, false)]
          else [(8 + a.val, true), (8 + c.val, false)])
    ∧ ∀ (m : Fin 8) (x8 : Bool), m.val < d2dModules l.val → (at_ s).off.getLsbD m.val = false →
        ∃ t, exec (.d2dLaneFailure l m x8) s = .next t ∧ others t
          ∧ (x8 = true → (at_ t).half.getLsbD m.val = true ∧ (at_ t).off = (at_ s).off)
          ∧ (x8 = false → (at_ t).off.getLsbD m.val = true ∧ (at_ t).half.getLsbD m.val = false)
          ∧ (at_ t).up = (at_ s).up ∧ (at_ t).down = (at_ s).down ∧ 0x48 ∈ t.irq.latch

/-- TL_LINK_CTL holds, fences and retrains a link, and TL_SLICE and FENCE change only inside a rewrite (08_tensor_network.md, R241, R286, R291, R309). -/
def Obligations.LinkControlRegisters : Prop :=
  ∀ (s : State) (a : Agent) (l : Link) (v : Word), isMp a = true →
    let k := s.link l.val
    (torusN s (linkDim l.val) ≠ 1 → s.slc.drained = false → v.getLsbD 2 = false →
      (v.getLsbD 0 = true → linkEn s l.val = false →
        ∃ t, exec (.tlLinkEnWrite a l v) s = .next t ∧ OnlyLink s t l.val ∧ linkEn t l.val = true
          ∧ (t.link l.val).state = 0 ∧ (t.link l.val).train = 1 ∧ (t.link l.val).fence = k.fence)
      ∧ (v.getLsbD 0 = false → linkEn s l.val = true → carries k = false →
        ∃ t, exec (.tlLinkEnWrite a l v) s = .next t ∧ OnlyLink s t l.val ∧ linkEn t l.val = false
          ∧ (t.link l.val).state = 0 ∧ (t.link l.val).train = 0))
    ∧ (v.getLsbD 0 = linkEn s l.val → v.getLsbD 2 = false →
      (s.slc.drained = true → ∃ t, exec (.tlLinkFenceWrite a l v) s = .next t
        ∧ (t.link l.val).fence = v.getLsbD 1
        ∧ (k.fence = false → v.getLsbD 1 = true → carries k = true → (t.link l.val).state = 3 ∧ (t.link l.val).replay = []))
      ∧ (s.slc.drained = false → exec (.tlLinkFenceWrite a l v) s = .next s))
    ∧ (v.getLsbD 0 = linkEn s l.val → v.getLsbD 2 = true → s.slc.drained = false →
      ∃ t, exec (.tlLinkRetrainWrite a l v) s = .next t ∧ t.link l.val = { k with pending := true }
        ∧ l.val ∈ t.tl.asked ∧ ∀ m, m ≠ l.val → t.link m = s.link m)
    ∧ ∀ die : Die, (s.slc.drained = false → exec (.tlSliceWrite a die v) s = .next s)
        ∧ (s.slc.drained = true → ∃ t, exec (.tlSliceWrite a die v) s = .next t
          ∧ t = { s with tl := { s.tl with base := t.tl.base, k := t.tl.k } }
          ∧ Tbl.get 0 t.tl.base die.val = v.setWidth 12 ∧ Tbl.get none t.tl.k die.val = some ((v >>> 12).setWidth 12)
          ∧ ∀ e, e ≠ die.val → Tbl.get 0 t.tl.base e = Tbl.get 0 s.tl.base e ∧ Tbl.get none t.tl.k e = Tbl.get none s.tl.k e)

/-- A link's training moves through the stages of Table 8.2, and only that link changes (08_tensor_network.md, R244, R246, R265, R291, R495). -/
def Obligations.LinkTraining : Prop :=
  ∀ (s : State) (l : Link),
    let k := s.link l.val
    let becomes := fun (c : Instr) (v : TLink) => ∃ t, exec c s = .next t ∧ OnlyLink s t l.val ∧ t.link l.val = v
    (linkEn s l.val = true → s.boot.state ≠ 2 → k.train = 1 →
      becomes (.linkTrainSignalDetect l) { k with train := 2, state := 1 })
    ∧ (linkEn s l.val = true → k.train = 1 → becomes (.linkTrainRestart l) (startTraining k))
    ∧ (k.train = 2 → becomes (.linkTrainEqualised l) { k with train := 3 })
    ∧ (k.train = 3 → ∀ tx rx : BitVec 9,
        becomes (.linkTrainLanesFound l tx rx false) { k with state := 5, reason := 4 }
        ∧ (laneCount (tx &&& ~~~k.recTx) < 4 ∨ laneCount (rx &&& ~~~k.recRx) < 4 →
          becomes (.linkTrainLanesFound l tx rx true) { k with state := 6, reason := 2, train := 0 })
        ∧ (4 ≤ laneCount (tx &&& ~~~k.recTx) → 4 ≤ laneCount (rx &&& ~~~k.recRx) →
          ∃ t, exec (.linkTrainLanesFound l tx rx true) s = .next t ∧ OnlyLink s t l.val
            ∧ (t.link l.val).train = 4 ∧ (t.link l.val).txLanes = tx &&& ~~~k.recTx
            ∧ (t.link l.val).rxLanes = rx &&& ~~~k.recRx ∧ (t.link l.val).cal.getLsbD k.band.toNat = true
            ∧ (t.link l.val).txHalf = (k.recTxHalf || decide (laneCount (tx &&& ~~~k.recTx) < 8))
            ∧ (t.link l.val).rxHalf = (k.recRxHalf || decide (laneCount (rx &&& ~~~k.recRx) < 8))))
    ∧ (k.train = 4 → becomes (.linkFlitLock l) { k with train := 5, locked := true })
    ∧ (linkEn s l.val = true → carries k = false → k.train ≠ 0 →
      becomes (.flitLockLoss l) (if k.state = 3 ∧ k.fence = true then { k with locked := false, pstate := 0, preason := 0 } else startTraining k))

/-- What each received flit does: beacons, idle, data, retry, credit and retrain requests (08_tensor_network.md, R247, R250, R252, R254, R255, R258, R263). -/
def Obligations.LinkFlitsReceived : Prop :=
  ∀ (s : State) (l : Link) (flit w : List Byte) (fixed : Nat),
    let k := s.link l.val
    (Hears s l.val flit 2 3 w fixed → carries k = false → (byteAt w 11).toNat < 8 →
      (fieldAt w 8 2 ≠ partner s l.val → ∃ t, exec (.beaconReceive l flit) s = .next t ∧ OnlyLink s t l.val
        ∧ (t.link l.val).state = 5 ∧ (t.link l.val).reason = 1 ∧ (t.link l.val).pstate.toNat = (byteAt w 11).toNat)
      ∧ (beaconCheck s l.val w = 0 → (byteAt w 11).toNat = 2 → (k.state = 1 ∨ k.state = 3 ∨ k.state = 5) →
        shuttered s = false → ∃ t, exec (.beaconReceive l flit) s = .next t ∧ OnlyLink s t l.val
          ∧ (t.link l.val).state = (if k.fence then 3 else 2)
          ∧ (k.fence = false → (t.link l.val).txSeq = 0 ∧ (t.link l.val).rxSeq = 0 ∧ (t.link l.val).replay = []))
      ∧ (beaconCheck s l.val w = 0 → (byteAt w 11).toNat = 3 → k.fence = true → (k.state = 1 ∨ k.state = 3 ∨ k.state = 5) →
        shuttered s = false → ∃ t, exec (.beaconReceive l flit) s = .next t ∧ (t.link l.val).state = 3
          ∧ beaconState t (t.link l.val) = 3))
    ∧ (Hears s l.val flit 0 0 w fixed → ∃ t, exec (.idleFlitReceive l flit) s = .next t ∧ OnlyLink s t l.val
      ∧ (t.link l.val).inbuf = k.inbuf ∧ (t.link l.val).rxSeq = k.rxSeq
      ∧ (t.link l.val).replay = (if k.replay.any (fun x => x.seq.toNat == linkWord w / 2 ^ 17 % 512)
          then (k.replay.dropWhile fun x => x.seq.toNat != linkWord w / 2 ^ 17 % 512).drop 1 else k.replay))
    ∧ (k.state = 2 → unwire flit = some (w, fixed) → lwKind (linkWord w) = 1 → s.guard.armed = [] →
      let x := dataFlit (w.take 64)
      ∃ t, exec (.dataFlitReceive l flit) s = .next t
        ∧ (x.seq = k.rxSeq → (t.link l.val).rxSeq = k.rxSeq + 1 ∧ (t.link l.val).retrying = false
          ∧ (x.vc.toNat < 6 → Tbl.get none k.route x.vc.toNat = none →
              Tbl.get [] (t.link l.val).inbuf x.vc.toNat
                = Tbl.get [] k.inbuf x.vc.toNat ++ [{ x with time := copyStamp s (linkDie l.val) }]))
        ∧ (x.seq ≠ k.rxSeq → (t.link l.val).rxSeq = k.rxSeq ∧ (t.link l.val).inbuf = k.inbuf
          ∧ (t.link l.val).freed = k.freed))
    ∧ (k.state = 2 → unwire flit = none → k.retrying = false →
      ∃ t, exec (.dataFlitReceive l flit) s = .next t ∧ OnlyLink s t l.val ∧ (t.link l.val).retrying = true
        ∧ (t.link l.val).ctl = (1, []) :: k.ctl ∧ (t.link l.val).rxSeq = k.rxSeq ∧ (t.link l.val).inbuf = k.inbuf)
    ∧ (Hears s l.val flit 2 1 w fixed → k.state = 2 →
      let again := (applyWord k (linkWord w)).replay.dropWhile fun x => x.seq.toNat != fieldAt w 6 2
      again ≠ [] → ∃ t, exec (.retryReqReceive l flit) s = .next t ∧ (t.link l.val).resend = again)
    ∧ (Hears s l.val flit 2 2 w fixed → ∃ t, exec (.creditSyncReceive l flit) s = .next t ∧ OnlyLink s t l.val
      ∧ ∀ vc < 6, Tbl.get 0 (t.link l.val).freed vc = fieldAt w (8 + 2 * vc) 2)
    ∧ (Hears s l.val flit 2 4 w fixed → ∃ t, exec (.retrainReqReceive l flit) s = .next t
      ∧ OnlyLink s t l.val ∧ BitVec.ofNat 64 (fieldAt w 8 8) ∈ (t.link l.val).askedT
      ∧ ∀ n ∈ k.askedT, n ∈ (t.link l.val).askedT)

/-- Each flit slot sends one 72-byte flit, and a retrain window stops and resumes the link (08_tensor_network.md, R252, R253, R255, R256, R258, R262, R263, R264, R384). -/
def Obligations.LinkSlotsAndWindows : Prop :=
  ∀ (s : State) (l : Link),
    let k := s.link l.val
    let becomes := fun (c : Instr) (v : TLink) => ∃ t, exec c s = .next t ∧ OnlyLink s t l.val ∧ t.link l.val = v
    (linkEn s l.val = true → k.state ≠ 0 → becomes (.beaconSend l) { k with ctl := k.ctl ++ [(3, beaconBytes s l.val)] })
    ∧ (k.state = 2 → becomes (.creditSyncSend l) { k with ctl := k.ctl ++ [(2, [])] })
    ∧ (∀ n, k.windowT = some n → trained k = true →
        becomes (.retrainReqSend l) { k with ctl := k.ctl ++ [(4, [4, 0, 0, 0] ++ leBytes 8 n.toNat)] })
    ∧ (linkEn s l.val = true → k.state ≠ 0 → k.window = false → ∃ t b frames, exec (.flitSlotSend l) s = .next t
        ∧ t.out = s.out ++ frames ++ [.flit l.val b (spreadFlit k.txLanes k.txHalf b)] ∧ b.length = 72
        ∧ (∀ o ∈ frames, ∀ m f lanes, o ≠ .flit m f lanes)
        ∧ ∀ m rest, k.ctl = m :: rest → (t.link l.val).ctl = rest)
    ∧ (∀ x rest, k.state = 2 → k.replay = x :: rest → ∃ t, exec (.replayTimeout l) s = .next t
        ∧ (t.link l.val).resend = k.replay
        ∧ ((k.replay.map (·.seq)).Nodup → ∀ y ∈ k.replay,
            Tbl.get 0 (t.link l.val).replays y.seq.toNat = Tbl.get 0 k.replays y.seq.toNat + 1)
        ∧ ((∃ y ∈ k.replay, Tbl.get 0 k.replays y.seq.toNat + 1 = replayThr s (linkDie l.val)) →
            l.val ∈ t.tl.asked ∧ (t.link l.val).pending = true))
    ∧ (∀ n, dueCount s k = some n → trained k = true →
        ∃ t, exec (.linkRetrainWindowStart l) s = .next t ∧ (t.link l.val).window = true
          ∧ (t.link l.val).began = n ∧ (t.link l.val).state = (if k.state = 2 then 7 else k.state)
          ∧ (t.link l.val).cal.getLsbD k.band.toNat = true ∧ ∀ m, m ≠ l.val → t.link m = s.link m)
    ∧ (trained k = true → k.state = 3 → k.askedT ≠ [] →
        ∃ t, exec (.fencedRetrainStart l) s = .next t ∧ (t.link l.val).window = true ∧ (t.link l.val).state = 3
          ∧ (t.link l.val).began = s.gct.count)
    ∧ (k.window = true → k.began.toNat + 40000 ≤ s.gct.count.toNat →
        ∃ t, exec (.linkRetrainWindowEnd l) s = .next t ∧ (t.link l.val).window = false
          ∧ (t.link l.val).state = (if k.state = 7 then 2 else k.state)
          ∧ (t.link l.val).windowT = (if k.windowT = some k.began then none else k.windowT)
          ∧ (t.link l.val).resend = k.replay)
    ∧ (∀ (tx rx : List (Fin 9 × Nat)), k.state ≠ 0 → k.state ≠ 1 → k.state ≠ 6 →
        ∃ t, exec (.tlLaneEpochEnd l tx rx) s = .next t
          ∧ (∀ e ∈ tx, laneThr s (linkDie l.val) ≠ 0 → laneThr s (linkDie l.val) < e.2 → k.txLanes.getLsbD e.1.val = true →
              (t.link l.val).txMarked.getLsbD e.1.val = true)
          ∧ (laneCount (keptLanes k.txLanes (t.link l.val).txMarked) < 4 → (t.link l.val).state = 6))
    ∧ ∀ temp : Int, 340 ≤ temp → ∃ t, exec (.linkTempSample l temp) s = .next t ∧ (t.link l.val).band = 3
        ∧ (k.band ≠ 3 → k.window = false → k.cal.getLsbD 3 = false →
            (t.link l.val).slow = true ∧ (t.link l.val).pending = true ∧ l.val ∈ t.tl.asked)

/-- A head flit is discarded, ejected or given its next link; an arrived packet is handed to its unit; a lost link loses its packets (08_tensor_network.md, R266, R268, R271, R273, R276, R301, R308). -/
def Obligations.RoutingAndDelivery : Prop :=
  ∀ (s : State) (l : Link) (vc : Fin 6) (x : Flit) (rest : List Flit),
    let k := s.link l.val
    let p := flitHeader x
    (s.guard.armed = [] → Tbl.get none k.route vc.val = none → Tbl.get [] k.inbuf vc.val = x :: rest → x.head = true →
      (badHeader s (linkDie l.val) vc.val p = true ∨ noTurn s l.val p = true → ∃ t, exec (.routerHeadFlit l vc) s = .next t
        ∧ t.tl.arrived = s.tl.arrived ∧ 0x28 ∈ t.irq.latch)
      ∧ (badHeader s (linkDie l.val) vc.val p = false → p.mc = false →
        (p.dest.toNat = myCoord s → ejectHeld s l.val vc.val = true → ∃ t, exec (.routerHeadFlit l vc) s = .next t
          ∧ t.tl.arrived = s.tl.arrived ∧ Tbl.get [] (t.link l.val).inbuf vc.val = x :: rest)
        ∧ (p.dest.toNat = myCoord s → x.tail = true → Tbl.get [] k.eject vc.val = [] → p.tdie.toNat = linkDie l.val →
          ejectHeld s l.val vc.val = false → ∃ t, exec (.routerHeadFlit l vc) s = .next t ∧ t.tl.arrived = s.tl.arrived ++ [(l.val, packetOf [x])]
            ∧ Tbl.get [] (t.link l.val).inbuf vc.val = rest)
        ∧ (∀ d plus, nextHop s (linkDie l.val) (myCoord s) p.dest.toNat p.src.toNat = some (d, plus) →
          carries (s.link (linkNum (l.val / 8) d plus)) = true → noTurn s l.val p = false →
          ∃ t r, exec (.routerHeadFlit l vc) s = .next t ∧ Tbl.get none (t.link l.val).route vc.val = some r
            ∧ r.eject = false ∧ r.branches.map (·.link) = [linkNum (l.val / 8) d plus]
            ∧ t.tl.arrived = s.tl.arrived)))
    ∧ (∀ (j : Nat) (q : Packet) (more : List (Nat × Packet)), s.tl.arrived = (j, q) :: more →
      (q.cls = 1 → q.tunit = 3 → (windowOf s q.job.toNat).isSome = true → ∃ t, exec .packetDeliver s = .next t
        ∧ t = { s with tl := { s.tl with arrived := more, collIn := s.tl.collIn ++ [{ link := j, pkt := q }]
                                         delivered := s.tl.delivered + 1 } })
      ∧ (q.cls = 2 → q.tunit = 4 → q.job = 0 → exec .packetDeliver s
          = .next { s with tl := { s.tl with arrived := more, guildIn := s.tl.guildIn ++ [q] } })
      ∧ (q.cls = 0 ∨ q.cls = 1 → windowOf s q.job.toNat = none → ∃ t, exec .packetDeliver s = .next t
        ∧ t.tl.arrived = more ∧ t.mem = s.mem ∧ t.tl.delivered = s.tl.delivered + 1 ∧ 0x28 ∈ t.irq.latch))
    ∧ (carries k = true → ∃ t, exec (.linkLeaveUp l) s = .next t ∧ (t.link l.val).state = 0
        ∧ (t.link l.val).train = 1 ∧ (t.link l.val).replay = [] ∧ (t.link l.val).outq = [] ∧ 0x29 ∈ t.irq.latch
        ∧ (interior s l.val = true → sliceRuns s = true → t.slc.broken = true))

/-- A switch drains, rewrites, moves, resumes or fails as Table 9.1 and R305 give (09_slices_mapping_phases.md, R202, R300, R301, R303, R305, R307). -/
def Obligations.PhaseSwitchSteps : Prop :=
  ∀ (s : State) (r : PhaseReq), s.slc.req = some r →
    let names := fun (w : Fin 16) (v : Fin (2 ^ 20)) (i : PhaseItem) => i.win.toNat = w.val ∧ i.vframe.toNat = v.val
    let kept := fun (t : State) (p : PhaseItem → Prop) => ∀ w v, (∀ i ∈ r.items, p i → ¬ names w v i) →
      tableEntry t w.val v.val = tableEntry s w.val v.val
    let empty := fun (t : State) => ∀ d : Fin 8, (t.dieMem d.val).xlat = []
    let ended := fun (t : State) (n : Nat) => t.slc.step = BitVec.ofNat 3 n ∧ t.slc.req = none
      ∧ t.slc.dur = BitVec.ofNat 32 (min (s.gct.count.toNat - r.td.toNat) (2 ^ 32 - 1))
      ∧ ((s.ring r.ring).running.isSome = true → (s.ring r.ring).result = none →
          (t.ring r.ring).result = some (BitVec.ofNat 8 stOk, BitVec.ofNat 64 n))
    (s.slc.step = 1 → sliceBusy s = false → r.td.toNat ≤ s.gct.count.toNat → gctSynced s = true →
      exec .phaseDrainStart s = .next { s with slc := { s.slc with rounds := 0, step := 2 }
                                               coll := { s.coll with sys := some (.drain s.tl.sent s.tl.delivered) } })
    ∧ (∀ a b sent got : Nat, s.slc.step = 2 → s.coll.sys = some (.drain a b) →
      (a + sent ≠ b + got → exec (.phaseDrainRoundComplete sent got) s = .next { s with
        slc := { s.slc with rounds := BitVec.ofNat 8 (min (s.slc.rounds.toNat + 1) 255) }
        coll := { s.coll with sys := some (.drain s.tl.sent s.tl.delivered) } })
      ∧ (a + sent = b + got → ∃ t, exec (.phaseDrainRoundComplete sent got) s = .next t
        ∧ t.slc.slice = r.slcId.setWidth 8 ∧ t.slc.member = r.slcId.getLsbD 8 ∧ t.slc.map = r.slcMap.setWidth 24
        ∧ (∀ d : Fin 8, Tbl.get 0 t.tl.base d.val = r.tlSlice.setWidth 12
            ∧ Tbl.get none t.tl.k d.val = some (r.tlSlice.extractLsb' 12 12))
        ∧ (∀ l : Fin 32, (t.link l.val).fence = fenceBit r.fence.toNat l.val)
        ∧ (∀ i ∈ r.items, i.move = false →
            (∀ j ∈ r.items, j.move = false → j.win = i.win → j.vframe = i.vframe → j.entry = i.entry) →
            tableEntry t i.win.toNat i.vframe.toNat = i.entry)
        ∧ kept t (fun i => i.move = false) ∧ empty t
        ∧ t.slc.step = (if r.items.any (·.move) then 4 else 5)))
    ∧ (∀ (n : Nat) (i : PhaseItem), s.slc.step = 4 → r.items[n]? = some i → i.move = true → i.moved = false →
      ∃ t, exec (.residencyMoveComplete n) s = .next t
        ∧ tableEntry t i.win.toNat i.vframe.toNat = i.entry ∧ kept t (fun j => j = i) ∧ empty t
        ∧ ((∀ m j, r.items[m]? = some j → m ≠ n → j.move = true → j.moved = true) → t.slc.step = 5)
        ∧ ((∃ m j, r.items[m]? = some j ∧ m ≠ n ∧ j.move = true ∧ j.moved = false) → t.slc.step = 4))
    ∧ (s.slc.step = 5 → mayResume s r = true → interiorUp s = true →
      ∃ t, exec .phaseResumeComplete s = .next t ∧ ended t 6 ∧ t.slc.failed = false ∧ t.slc.drained = false
        ∧ t.guard.gState = 0 ∧ t.guard.gStopped = false ∧ t.mem = s.mem ∧ t.tl = s.tl ∧ 176 ∈ t.irq.latch)
    ∧ (r.td.toNat + 1000 * r.limit.toNat ≤ s.gct.count.toNat →
      ∃ t, exec .phaseTimeout s = .next t ∧ ended t 7 ∧ t.slc.timeout = true ∧ t.slc.failed = true
        ∧ (∀ l : Fin 32, (t.link l.val).fence = true) ∧ 0x40 ∈ t.irq.latch
        ∧ (s.slc.step ≠ 7 → 176 ∈ t.irq.latch) ∧ t.mem = s.mem ∧ t.slc.slice = s.slc.slice)

/-- The counter wraps with OVF, reaches GCT_CMP with its interrupt, and is set only while no job runs (12_determinism_and_time.md, R375, R390, R391, R392, R13). -/
def Obligations.CounterTicksAndSets : Prop :=
  ∀ s : State,
    (s.gct.count = 0xFFFFFFFFFFFFFFFF → ∃ t, exec .gctWrap s = .next t
      ∧ t = { s with gct := { s.gct with count := 0, ovf := true }, irq := t.irq } ∧ 2 ∈ t.irq.latch)
    ∧ (s.gct.cmp ≠ 0 → s.gct.count + 1 = s.gct.cmp → ∃ t, exec .gctCompare s = .next t
      ∧ t.gct.count = s.gct.cmp ∧ t.gct.frac = s.gct.frac ∧ 3 ∈ t.irq.latch ∧ t.mem = s.mem ∧ t.cl = s.cl ∧ t.tl = s.tl)
    ∧ ∀ (a : Agent) (lo hi : Word),
      (isMp a = true →
        (∃ t, exec (.gctSetWrite a false lo) s = .next t ∧ t = { s with heldLo := t.heldLo }
          ∧ Tbl.get none t.heldLo (0x5008 * 8 + agNum a) = some lo)
        ∧ (∃ t, exec (.gctCmpWrite a false lo) s = .next t ∧ t = { s with heldLo := t.heldLo }
          ∧ Tbl.get none t.heldLo (0x5018 * 8 + agNum a) = some lo)
        ∧ (Tbl.get none s.heldLo (0x5018 * 8 + agNum a) = some lo → ∃ t, exec (.gctCmpWrite a true hi) s = .next t
          ∧ t = { s with gct := { s.gct with cmp := hi ++ lo }, heldLo := t.heldLo })
        ∧ (Tbl.get none s.heldLo (0x5008 * 8 + agNum a) = some lo → ∃ t, exec (.gctSetWrite a true hi) s = .next t
          ∧ Tbl.get none t.heldLo (0x5008 * 8 + agNum a) = none ∧ t.mem = s.mem ∧ t.cl = s.cl ∧ t.tl = s.tl
          ∧ (anyJob s = true → t.gct = { s.gct with setReject := true } ∧ t.irq = s.irq)
          ∧ (anyJob s = false → t.gct.count = hi ++ lo ∧ t.gct.frac = 0 ∧ t.gct.slew = 0 ∧ t.gct.cmp = s.gct.cmp
              ∧ t.gct.steps = BitVec.ofNat 8 (min (s.gct.steps.toNat + 1) 255)
              ∧ (s.gct.count.toNat < s.gct.cmp.toNat → s.gct.cmp.toNat ≤ (hi ++ lo).toNat → 3 ∈ t.irq.latch))))
      ∧ (isMp a = false → ∀ h, exec (.gctSetWrite a h lo) s = .next s ∧ exec (.gctCmpWrite a h lo) s = .next s)

/-- A member exchanges timestamps with its parent, slews or steps by theta, and loses its synchronism (12_determinism_and_time.md, R377, R378, R379, R381, R382). -/
def Obligations.CounterSynchronisation : Prop :=
  ∀ s : State,
    let lost := fun (t : State) => t.gct.synced = false ∧ t.gct.loss = true ∧ 0x42 ∈ t.irq.latch
    let calm := fun (t : State) => t.mem = s.mem ∧ t.cl = s.cl
    (∀ p, s.guard.armed = [] → hasParent s = true → parentCoord s = some p → ∃ t, exec .gctSyncReqSend s = .next t ∧ calm t
      ∧ t.gct = { s.gct with exch := s.gct.exch + 1, t1 := none }
      ∧ Sends s t 0 (syncPacket p 0 (s.gct.exch + 1).toNat 0 (zeros 8)))
    ∧ (∀ (p : Packet) (at_ : DWord) (rest : List (Packet × DWord)), s.guard.armed = [] → s.tl.syncIn = (p, at_) :: rest →
      (p.opnd0.toNat % 16 = 0 → ∃ t, exec .gctSyncReqReceive s = .next t ∧ calm t ∧ t.tl.syncIn = rest
        ∧ t.gct = s.gct
        ∧ Sends s t 0 (syncPacket p.src.toNat 1 (p.opnd0.toNat / 256 % 256) 0
            (cut p.data 0 8 ++ leBytes 8 at_.toNat ++ zeros 8)))
      ∧ (∀ t1 : DWord, p.opnd0.toNat % 16 = 1 → s.gct.t1 = some t1 → p.opnd0.toNat / 256 % 256 = s.gct.exch.toNat →
        parentCoord s = some p.src.toNat → hasParent s = true →
        let t2 : DWord := BitVec.ofNat 64 (fieldAt p.data 8 8)
        let t3 : DWord := BitVec.ofNat 64 (fieldAt p.data 16 8)
        let th : Int := ((t2 - t1).toInt + (t3 - at_).toInt) / 2
        ∃ t, exec .gctSyncRspReceive s = .next t ∧ calm t ∧ t.tl.syncIn = rest ∧ t.gct.t1 = none
          ∧ (-32767 ≤ th → th ≤ 32767 → t.gct.theta = BitVec.ofInt 16 th)
          ∧ (s.gct.synced = true → s.gct.setPend = false → -512 ≤ th → th ≤ 512 →
              t.gct.slew = th ∧ t.gct.count = s.gct.count ∧ t.gct.synced = true)
          ∧ (s.gct.synced = true → 512 < th ∨ th < -512 → lost t ∧ (s.gct.setPend = false → t.gct.count = s.gct.count))
          ∧ (s.gct.synced = true → s.gct.setPend = true → anyJob s = false → timestamp t = timestamp s + BitVec.ofInt 64 th)
          ∧ (s.gct.synced = false → anyJob s = true → t.gct.slew = th ∧ t.gct.count = s.gct.count)
          ∧ (s.gct.synced = false → anyJob s = false → timestamp t = timestamp s + BitVec.ofInt 64 th)))
    ∧ (hasParent s = true → s.gct.synced = true → ∃ t, exec .gctSyncLossTimeout s = .next t ∧ calm t ∧ lost t
      ∧ t.gct = { s.gct with synced := false, loss := true, good := 0 } ∧ t.hif = s.hif)

/-- Collective messages that wait for a context are passed over, and the first that none holds is dropped as stale, allocates a context, is held, or is taken (10_collectives.md, R318, R320, R322, R323, R325, R327, R331, R333, R342). -/
def Obligations.CollectiveMessages : Prop :=
  ∀ (s : State) (e : InPacket) (rest : List InPacket) (c : Instr) (m : Nat),
    (c, m) ∈ [(.collReadyReceive, 0), (.collArriveReceive, 1), (.collPartReceive, 2), (.collDataReceive, 3),
      (.collReleaseReceive, 4), (.collNormReceive, 5)] → s.guard.armed = [] →
    (firstFree s [] s.tl.collIn = none → ∃ t, exec c s = .next t
      ∧ t = { s with coll := { s.coll with exhaust := s.coll.exhaust || anyWaits s } })
    ∧ (firstFree s [] s.tl.collIn = some (e, rest) → collMsg e.pkt = m →
      let p := e.pkt
      let k := packetTuple p
      let from_ := logicalOf s p.src.toNat
      let level := p.opnd0.toNat / 2 ^ 60 % 4
      let s1 := collTaken { s with coll := { s.coll with exhaust := s.coll.exhaust || anyWaits s } } e rest
      (m = 4 → p.src = s.tl.coord → exec c s = .next s1)
      ∧ ((m = 4 → p.src ≠ s.tl.coord) →
        (collStale s k = true → ∃ t, exec c s = .next t
          ∧ t = { s1 with coll := { s1.coll with staleDrop := t.coll.staleDrop }, ldg := t.ldg }
          ∧ t.coll.staleDrop = BitVec.ofNat 64 (min (s.coll.staleDrop.toNat + 1) (2 ^ 64 - 1)))
        ∧ (collStale s k = false → s.ctxAt k = none → exec c s = .next { s1 with coll := { s1.coll with
            ctx := s.coll.ctx ++ [if m = 0 then { key := k, ready := [from_] } else { key := k, early := [p] }]
            peak := BitVec.ofNat 9 (max s.coll.peak.toNat (s.coll.ctx.length + 1)) } })
        ∧ ∀ x, collStale s k = false → s.ctxAt k = some x →
          (ctxKnown x = false → m ≠ 0 → exec c s = .next (s1.updCtx k fun x => { x with early := x.early ++ [p] }))
          ∧ (m = 0 → x.blk = none → exec c s = .next (s1.updCtx k fun x =>
              { x with ready := if x.ready.contains from_ then x.ready else x.ready ++ [from_] }))
          ∧ (ctxKnown x = true →
            (m = 1 ∨ m = 2 ∨ m = 5 → x.nodes = [] → shardWhole s x = false →
              (m = 5 ∨ senderDiffers x p = false) → ∃ t y, exec c s = .next t
              ∧ t.ctxAt k = some y ∧ t.mem = s.mem ∧ t.tl = s1.tl
              ∧ y.nodes = [{ tag := if m = 5 then 1 else 0, got := [(level, from_, packetVals p)] }])
            ∧ (m = 4 → x.op = some 0 → x.result = none → ∃ t y, exec c s = .next t
              ∧ t.ctxAt k = some y ∧ t.mem = s.mem ∧ y.result = some (packetVals p))
            ∧ (m = 3 → x.op = some 2 → x.incoming = [] → shardWhole s x = false → p.opnd0.getLsbD 47 = false →
              senderDiffers x p = false →
              let b := x.blk.getD {}
              let n := (recMembers s (recOf s k)).length
              let w := typeBytes b.itype.toNat
              let at_ := p.opnd1.toNat % 2 ^ 32 / w
              at_ < shardLen b n * n → 4 * at_ + p.data.length ≤ 4 * (shardLen b n * n) → ∃ t y, exec c s = .next t
                ∧ t.ctxAt k = some y ∧ t.mem = s.mem ∧ t.tl = s1.tl
                ∧ y.incoming = [⟨from_, level, at_ / shardLen b n, at_ / chunkElems b, packetBytes p⟩]))))

/-- A collective reads its blocks, folds without stragglers, completes, frees its context and reports its peaks (10_collectives.md, R316, R317, R318, R320, R323, R337, R343, R374). -/
def Obligations.CollectiveProgress : Prop :=
  (∀ (s : State) (k : CollKey) (x : Ctx), s.ctxAt k = some x →
    let r := recOf s k
    let n := (recMembers s r).length
    (s.guard.armed = [] → x.op = some 1 →
      let read := x.starts.foldl (fun (a : State × List Started) st =>
        if st.blk.isSome then (a.1, a.2 ++ [st])
        else ((readStart a.1 r 1 n st).1, a.2 ++ [(readStart a.1 r 1 n st).2])) (s, [])
      let refused := read.2.find? fun st => blkFlagPress (st.blk.getD {}) && pressRefused read.1 r.job.toNat k.comm
      (∀ st, refused = some st → exec (.collBlockRead k) s = .next (refuseStart read.1 st.clu (tupleNat k)))
      ∧ (refused = none → ∃ t y, exec (.collBlockRead k) s = .next t ∧ t.ctxAt k = some y ∧ y.op = some 1
        ∧ y.starts.map (·.clu) = x.starts.map (·.clu) ∧ ∀ st ∈ y.starts, st.blk.isSome = true))
    ∧ (∀ (op : Fin 8) (st : Started), s.guard.armed = [] → 2 ≤ op.val → x.op = some (BitVec.ofFin op) →
      x.starts.find? (fun st => some st.clu == leadCluster s r && st.blk.isNone) = some st →
      let read := readStart s r op.val n st
      let b := parseBlock op.val n ((bulkRead s (collSrc (clDie st.clu)) (recWin s r) st.addr.toNat 64).2.map (·.1))
      (blkFlagPress b = true → pressRefused s r.job.toNat k.comm = true →
        exec (.collBlockRead k) s = .next (refuseStart read.1 st.clu (tupleNat k)))
      ∧ (blkFlagPress b = false ∨ pressRefused s r.job.toNat k.comm = false → ∃ t, exec (.collBlockRead k) s = .next t
        ∧ (blkFlagPress b = false → op.val = 2 ∨ op.val = 5 → x.early = [] → x.ready = [] →
          ∃ y, t.ctxAt k = some y ∧ y.op = x.op ∧ y.blk = some b)))
    ∧ (collReady s x = true → ∃ t, exec (.collComplete k) s = .next t
      ∧ (t.ctxAt k = none ∨ ∃ y, t.ctxAt k = some y ∧ y.done = true)
      ∧ (x.op = some 0 → (∃ y, t.ctxAt k = some y ∧ y.done = true)
          ∧ t = { s with cl := t.cl, coll := { s.coll with ctx := t.coll.ctx, comm := t.coll.comm } }
          ∧ (∀ st ∈ x.starts, k ∉ (t.clu st.clu).colls) ∧ t.commAt k.comm.toNat = markDone r k.seq))
    ∧ (x.done = true → owesPackets s (tupleKey 3 (tupleNat k)) = false → ∃ t, exec (.collContextFree k) s = .next t
      ∧ t = { s with coll := { s.coll with ctx := t.coll.ctx } } ∧ t.ctxAt k = none
      ∧ ∀ j, j ≠ k → t.ctxAt j = s.ctxAt j)
    ∧ (x.done = false → exec (.collContextFree k) s = .next s)
    ∧ (∀ (chunk : Nat) (nd : Node),
      let b := x.blk.getD {}
      let me := logicalCoord s
      let missing := fun (nd : Node) => ((kids s me ((recLevels s r).getD nd.level [])).filter fun c =>
        !nd.got.any fun e => e.1 == nd.level && e.2.1 == c).length
      let waits := fun (nd : Node) => nd.tag == 2 && nd.chunk == chunk && nd.acc.isSome && !nd.sent
        && decide (nd.level < nodeLevels me ((recMembers s r).getD nd.shard me) (recLevels s r)) && decide (0 < missing nd)
      s.guard.armed = [] → x.nodes.find? waits = some nd →
      (blkStrag s r b = false → exec (.collHoldExpire k chunk) s = .next s)
      ∧ (blkStrag s r b = true → x.op = some 2 → blkPress 2 b = false →
        ∃ t y, exec (.collHoldExpire k chunk) s = .next t ∧ t.ctxAt k = some y ∧ y.late = true
          ∧ y.missing = min (x.missing + missing nd) 65535 ∧ t.mem = s.mem
          ∧ Tbl.get 0 t.gct.nondet (recWin s r * 4 + 1) = Tbl.get 0 s.gct.nondet (recWin s r * 4 + 1) + 1)))
  ∧ ∀ (s : State) (a : Agent) (v : Word),
    (∀ l, markWait s s.tl.collIn = some l → ∃ t, exec .collContextWaitTimeout s = .next t
      ∧ 0x31 ∈ t.irq.latch ∧ t.coll = { s.coll with exhaust := true } ∧ t.tl = { s.tl with collIn := l } ∧ t.mem = s.mem)
    ∧ (markWait s s.tl.collIn = none → exec .collContextWaitTimeout s = .next s)
    ∧ (isMp a = true → exec (.collCtxPeakRst a v) s = .next { s with coll := { s.coll with
        peak := if v.getLsbD 18 then BitVec.ofNat 9 s.coll.ctx.length else s.coll.peak
        exhaust := s.coll.exhaust && !v.getLsbD 19 } })

/-- A press step waits for a held one, is skipped, applied or stopped by a stain, and completes by committing or being held (11_training_support.md, R345, R352, R355, R356, R357, R358, R359). -/
def Obligations.PressSteps : Prop :=
  ∀ (s : State) (p : PStep) (more : List PStep) (q : Word) (f sus : Bool),
    s.press.steps = p :: more → p.global = some (q, f, sus) → s.guard.armed = [] →
    (p.applied = false →
      (s.press.held.isSome = true → exec .pressStepApply s = .next s)
      ∧ (s.press.held = none → f = true → p.segs.any (·.stain) = false →
        exec .pressStepApply s = .next (s.updStep p.no fun p => { p with applied := true }))
      ∧ (s.press.held = none → (f = true ∧ p.segs.any (·.stain) = true)
          ∨ (f = false ∧ (computeStep s p q).2.any (·.stain) = true) →
        ∃ t, exec .pressStepApply s = .next t ∧ 0x39 ∈ t.irq.latch
          ∧ ∀ x ∈ t.press.steps, x.no = p.no → x.applied = true → ∃ y ∈ more, y.no = p.no ∧ y.applied = true)
      ∧ (s.press.held = none → f = false → (computeStep s p q).2.any (·.stain) = false →
        ∃ t, exec .pressStepApply s = .next t ∧ t.tl = s.tl ∧ t.slc = s.slc ∧ t.gct = s.gct
          ∧ ∀ x ∈ t.press.steps, x.no = p.no → x.applied = true))
    ∧ (p.applied = true →
      let tbl := (tableOf s p.comm).getD 0
      let step := BitVec.ofNat 64 (fieldAt (readHeader s tbl).2 0 8 + 1)
      ∃ t, exec .pressStepComplete s = .next t ∧ (∀ x ∈ t.press.steps, x.no ≠ p.no)
        ∧ (f = true → Mapped s (pressSrc 0) (pressWin s) tbl 24 true → t.press.skipped = true ∧ t.press.held = none
            ∧ t.press.skipCount = BitVec.ofNat 32 (min (s.press.skipCount.toNat + 1) (2 ^ 32 - 1))
            ∧ t.press.step = step ∧ t.press.commit = step ∧ 162 ∈ t.irq.latch)
        ∧ (f = false → sus = true → Mapped s (pressSrc 0) (pressWin s) tbl 48 true →
            (∀ g ∈ p.segs, Mapped s (pressSrc 0) (pressWin s) ((tableOf s g.key.comm).getD 0 + 128 + 128 * g.seg + 40) 8 true) →
            t.press.held = some (p.comm, step) ∧ t.press.step = step ∧ t.press.commit = s.press.commit
              ∧ t.press.skipped = false))

/-- The mangle unit opens passes, sends its block, forwards, grants, receives and ends its plan (11_training_support.md, R365, R366, R367, R368). -/
def Obligations.ManglePlans : Prop :=
  ∀ s : State,
    let m := s.mgl
    let calm := fun (t : State) => t.mem.table = s.mem.table ∧ t.cl = s.cl ∧ t.slc = s.slc
    let next := if m.started then m.pass + 1 else 0
    let heard := fun (p : Packet) => mglMsg p
    (s.guard.armed = [] → m.running = true → (m.started = false ∨ passOver s = true ∧ next < m.passes) → relMet s (next * mglM s) = true →
      ∃ t, exec .manglePassStart s = .next t ∧ calm t ∧ t.mgl = { m with
        pass := next, started := true, sentStep := 0
        grantsOut := m.grantsOut ++ ([1, 2].filter fun i => decide (i ≤ mglM s)).map fun i => next * mglM s + i })
    ∧ (s.guard.armed = [] → m.running = true → m.started = true → m.sentStep = 0 → 1 ≤ mglM s → goMet s = true → grantIn s (mglQ s 1) = true →
      ∃ t, exec .mangleSendOwn s = .next t ∧ calm t
        ∧ t.mgl = { m with sentStep := 1, grantsIn := m.grantsIn.filter (· != mglQ s 1 % 2 ^ 16) })
    ∧ (s.guard.armed = [] → m.running = true → 1 ≤ m.sentStep → m.sentStep < mglM s → mglQ s m.sentStep ∈ m.received →
      grantIn s (mglQ s m.sentStep + 1) = true → (m.carry = true → relMet s (mglQ s m.sentStep) = true) →
      ∃ t, exec .mangleForward s = .next t ∧ calm t ∧ t.mgl = { m with
        sentStep := m.sentStep + 1, grantsIn := m.grantsIn.filter (· != (mglQ s m.sentStep + 1) % 2 ^ 16) })
    ∧ (∀ i, s.guard.armed = [] → m.running = true → i + 3 ≤ mglM s → slotFree s (i + 1) = true → mglQ s (i + 3) ∉ m.grantsOut →
      (∀ j < i, slotFree s (j + 1) = false ∨ mglQ s (j + 3) ∈ m.grantsOut) →
      ∃ t, exec .mangleGrantSend s = .next t ∧ calm t
        ∧ t.mgl = { m with grantsOut := m.grantsOut ++ [mglQ s (i + 3)] })
    ∧ (∀ (p : Packet) (rest : List Packet), s.tl.mglIn = p :: rest →
      (∀ c n, (c, n) ∈ [(Instr.mangleDataReceive, 0), (.mangleGrantReceive, 1)] → heard p = n → mglStale s p = true →
        ∃ t, exec c s = .next t ∧ t.tl.mglIn = rest ∧ t.mem = s.mem ∧ t.mgl = m
          ∧ t.coll.staleDrop = BitVec.ofNat 64 (min (s.coll.staleDrop.toNat + 1) (2 ^ 64 - 1)))
      ∧ (heard p = 1 → mglStale s p = false → ∃ t, exec .mangleGrantReceive s = .next t
        ∧ t = { s with tl := { s.tl with mglIn := rest }, mgl := { m with grantsIn := t.mgl.grantsIn } }
        ∧ p.opnd0.toNat / 2 ^ 16 % 2 ^ 16 ∈ t.mgl.grantsIn ∧ ∀ x ∈ m.grantsIn, x ∈ t.mgl.grantsIn)
      ∧ (heard p = 0 → mglStale s p = false →
        let d := p.opnd0.toNat / 2 ^ 44 % 8
        let q := fullIndex s (p.opnd0.toNat / 2 ^ 16 % 2 ^ 16)
        let a := mglTarget s (q - m.pass * mglM s) q + d * m.partB
        let had := ((m.open_.find? fun e => e.1 == q && e.2.1 == d).map (·.2.2)).getD []
        let others := m.open_.filter fun e => !(e.1 == q && e.2.1 == d)
        Mapped s (mglSrc d) (mglWin s) (a + p.opnd1.toNat % 2 ^ 32) p.data.length true →
        (p.opnd0.getLsbD 47 = false → ∃ t, exec .mangleDataReceive s = .next t ∧ t.tl.mglIn = rest ∧ t.cl = s.cl
          ∧ t.mgl = { m with open_ := others ++ [(q, d, had ++ p.data)] })
        ∧ (p.opnd0.getLsbD 47 = true → takeInject s evCollCrc (mglSrc d) (mglWin s) = none →
          (crc32c (had ++ p.data)).toNat = p.opnd1.toNat / 2 ^ 32 → (∀ i < 8, i ≠ d → (q, i) ∈ m.parts) →
          ∃ t, exec .mangleDataReceive s = .next t ∧ t.tl.mglIn = rest
            ∧ t.mgl.received = m.received ++ [q] ∧ t.mgl.open_ = others
            ∧ Tbl.get 0 (t.clu m.ncl).ctr m.arrC = Tbl.get 0 (s.clu m.ncl).ctr m.arrC + 1
            ∧ ∀ j, j ≠ m.ncl → t.clu j = s.clu j)))
    ∧ (m.running = true → passOver s = true → m.passes ≤ m.pass + 1 → ∃ t, exec .manglePlanEnd s = .next t
      ∧ t.mgl = { m with running := false, state := 5, grantsIn := [], grantsOut := [], open_ := [], parts := [] }
      ∧ t = { s with mgl := t.mgl, hif := { s.hif with ring := t.hif.ring } })

/-- A ledger holds reports in order, forwards region entries with their lost counts, and is freed and cleared by LDG_HEAD and LDG_CLR (13_integrity_and_recovery.md, R398, R399, R400, R401, R427, R428). -/
def Obligations.LedgersTakeForwardAndClear : Prop :=
  (∀ (s : State) (r : Report) (qs : List RepQueue), serveQueue s.ldg.queues = some (r, qs) →
    let e : Entry := { rep := r, seqno := s.ldg.nextSeq }
    (s.ldg.entries.length < 4096 → exec (.ledgerTakeReport .device) s = .next { s with ldg := { s.ldg with
        queues := qs, entries := s.ldg.entries ++ [e], nextSeq := s.ldg.nextSeq + 1
        first := s.ldg.first.orElse (fun _ => some e), last := some e } })
    ∧ (4096 ≤ s.ldg.entries.length → ∃ t, exec (.ledgerTakeReport .device) s = .next t ∧ t = { s with ldg := t.ldg }
      ∧ t.ldg.entries = s.ldg.entries ∧ t.ldg.full = true ∧ t.ldg.nextSeq = s.ldg.nextSeq
      ∧ t.ldg.last = some { rep := { r with flags := r.flags ||| 0x10 }, seqno := s.ldg.nextSeq }))
  ∧ (∀ (s : State) (d : Die) (r : Fin 21) (x : Report) (qs : List RepQueue),
    let at_ := fun (t : State) (r : Nat) => Tbl.get {} t.regLdg (21 * d.val + r)
    let l := at_ s r.val
    (serveQueue l.queues = some (x, qs) → l.summary = [] → l.entries.length < 256 →
      ∃ t, exec (.ledgerTakeReport (.region d r)) s = .next t ∧ t = { s with regLdg := t.regLdg }
        ∧ at_ t r.val = { l with queues := qs, entries := l.entries ++ [x] }
        ∧ ∀ k, k ≠ 21 * d.val + r.val → Tbl.get {} t.regLdg k = Tbl.get {} s.regLdg k)
    ∧ (∀ (i : Nat) (e : Report) (rest : List Report), i < 21 → r.val = (Tbl.get 0 s.fwdNext d.val + i) % 21 →
      (∀ j < i, (at_ s ((Tbl.get 0 s.fwdNext d.val + j) % 21)).entries = []) → l.entries = e :: rest → l.summary = [] →
      ∃ t, exec (.regionLedgerForward d) s = .next t
        ∧ t = { s with regLdg := t.regLdg, fwdNext := t.fwdNext,
                       ldg := { s.ldg with queues := t.ldg.queues, lost := s.ldg.lost + BitVec.ofNat 64 l.lost } }
        ∧ at_ t r.val = { l with entries := rest, lost := 0 } ∧ Tbl.get 0 t.fwdNext d.val = (r.val + 1) % 21
        ∧ (∃ q ∈ t.ldg.queues, q.det = fwdDet ∧ q.reps.getLast? = some e)
        ∧ ∀ k, k ≠ 21 * d.val + r.val → Tbl.get {} t.regLdg k = Tbl.get {} s.regLdg k))
  ∧ (∀ (s : State) (a : Agent) (v : Word), mgmt a = true →
    let left := s.ldg.entries.drop (v.toNat % 2 ^ 13)
    (∃ t more, exec (.ldgHeadWrite a v) s = .next t ∧ t.ldg.entries = left ++ more
      ∧ more.map (·.rep) = (s.ldg.summary.take (4096 - left.length)).map (fun e => summaryReport e.2)
      ∧ (∀ e ∈ more, e.rep.flags.getLsbD 2 = true)
      ∧ t = { s with ldg := { s.ldg with entries := t.ldg.entries, nextSeq := s.ldg.nextSeq + BitVec.ofNat 32 more.length,
                                         summary := s.ldg.summary.drop (4096 - left.length) } })
    ∧ (let cleared := { s with ldg := { s.ldg with
          first := if v.getLsbD 0 then none else s.ldg.first, lost := if v.getLsbD 1 then 0 else s.ldg.lost } }
       exec (.ldgClrFirst a v) s = .next cleared ∧ exec (.ldgClrLost a v) s = .next cleared))
  ∧ ∀ (s : State) (diffs : List BookDiff), s.guard.bookRunning = true →
    ∃ t, exec (.patternBookComplete diffs) s = .next t ∧ t.guard.bookRunning = false ∧ t.guard.book = none
      ∧ t.pwr.bookGrant = [] ∧ t.mem = s.mem ∧ t.cl = s.cl ∧ (diffs ≠ [] → 0x45 ∈ t.irq.latch)

/-- Parity rounds gather and close, recovery steps complete once each, and an apprentice copies, follows, and passes or fails (13_integrity_and_recovery.md, R416, R423, R424, R425). -/
def Obligations.MendingRecoveryAndApprentices : Prop :=
  ∀ s : State,
    let g := s.guard
    (∀ (p : Packet) (rest : List Packet), s.tl.parIn = p :: rest →
      let s1 := { s with tl := { s.tl with parIn := rest } }
      let msg := p.opnd0.toNat % 16
      let x := p.opnd0.toNat / 2 ^ 16 / 8
      (g.mendEn = false → exec .mendPacketReceive s = .next s1)
      ∧ (g.mendEn = true → msg = 1 → ∃ t, exec .mendPacketReceive s = .next t
        ∧ t = { s1 with guard := { g with ends := t.guard.ends }, coll := { s.coll with sys := t.coll.sys } }
        ∧ (g.roundOpen = true → 15 ≤ (roundEnds t.guard).length → t.coll.sys = some (.mend g.round))
        ∧ (p.opnd0.toNat / 256 % 256, p.opnd0.toNat / 16 % 16) ∈ t.guard.ends ∧ ∀ m ∈ g.ends, m ∈ t.guard.ends)
      ∧ (g.mendEn = true → msg ≠ 1 → (g.roundOpen = true → p.opnd0.toNat / 256 % 256 = g.round % 256) → Mapped s mendSrc (pressWin s) (parityAt g true x) 4096 true →
        ∃ t, exec .mendPacketReceive s = .next t ∧ t.tl = s1.tl ∧ t.cl = s.cl ∧ t.hif = s.hif
          ∧ x ∈ t.guard.parTouched ∧ t.guard.ends = g.ends ∧ t.guard.parCur = g.parCur)
      ∧ (g.mendEn = true → msg ≠ 1 → g.roundOpen = true → p.opnd0.toNat / 256 % 256 ≠ g.round % 256 →
        exec .mendPacketReceive s = .next { s1 with guard := { g with parHeld := g.parHeld ++ [p] } }))
    ∧ (g.roundOpen = true → s.coll.sys = some (.mend g.round) → g.roundDue = none → g.mendQueue = [] → g.parHeld = [] →
      ∃ t, exec .mendBarrierComplete s = .next t
      ∧ t.guard.roundOpen = false ∧ t.coll.sys = none
      ∧ t.guard.ends = g.ends.filter (fun e => e.1 != g.round % 256) ∧ t.guard.parCur = !g.parCur ∧ t.guard.parTouched = []
      ∧ t.guard.mended = g.roundStep ∧ t.guard.mendHdr = g.roundHdr ∧ 180 ∈ t.irq.latch ∧ t.tl = s.tl)
    ∧ (∀ shards : List (Nat × List Byte), g.recRunning = true →
      let n := g.recAt + 1
      (n ≤ g.recStep.toNat → ∃ t, exec (.recStepComplete shards) s = .next t ∧ t.guard.recAt = n
        ∧ t.guard.recStep = g.recStep ∧ t.mem = s.mem ∧ t.guard.recRunning = (n != 8))
      ∧ (s.guard.armed = [] → g.recStep.toNat < n → (recoveryStep s n shards).2 = true → ∃ t, exec (.recStepComplete shards) s = .next t
        ∧ t.guard.recAt = n ∧ t.guard.recStep = BitVec.ofNat 4 n ∧ t.guard.recRunning = (n != 8))
      ∧ (g.recStep.toNat < n → (recoveryStep s n shards).2 = false → ∃ t, exec (.recStepComplete shards) s = .next t
        ∧ t.guard.recFailed = true ∧ t.guard.recRunning = false ∧ 0x49 ∈ t.irq.latch))
    ∧ (∀ (unit : Nat) (data : List Byte) (crc : Word) (last : Bool), g.aState = 1 →
      (crc32c data ≠ crc → exec (.aprUnitReceive unit data crc last) s = .next s)
      ∧ (crc32c data = crc → g.aTutor = false → ∃ t, exec (.aprUnitReceive unit data crc last) s = .next t
        ∧ t.guard.aState = (if last then 2 else 1) ∧ (s.press.tables = [] → t.mem = s.mem)
        ∧ (∀ i, i < 4096 → i < data.length → Tbl.get 0 t.guard.aCopy (4096 * unit + i) = data.getD i 0)
        ∧ ∀ x, x < 4096 * unit ∨ 4096 * unit + 4096 ≤ x → Tbl.get 0 t.guard.aCopy x = Tbl.get 0 g.aCopy x))
    ∧ (∀ (x : Nat) (b : Byte) (caught : Bool), g.aState = 2 → g.aTutor = false →
      ∃ t, exec (.aprDeltaReceive [(x, b)] caught) s = .next t ∧ t.guard.aState = (if caught then 3 else 2)
        ∧ Tbl.get 0 t.guard.aCopy x = Tbl.get 0 g.aCopy x ^^^ b ∧ (s.press.tables = [] → t.mem = s.mem)
        ∧ ∀ y, y ≠ x → Tbl.get 0 t.guard.aCopy y = Tbl.get 0 g.aCopy y)
    ∧ (g.aState = 3 → (s.guard.armed = [] → ∃ t, exec (.aprShadowStep true) s = .next t ∧ t.guard.aDone = g.aDone + 1
          ∧ t.guard.aState = (if g.aSteps.toNat ≤ (g.aDone + 1).toNat then 4 else 3) ∧ t.mem = s.mem)
        ∧ ∃ t, exec (.aprShadowStep false) s = .next t ∧ t.guard.aState = 5 ∧ 0x47 ∈ t.irq.latch ∧ 179 ∈ t.irq.latch)
    ∧ (g.aTutor = false → g.aState = 1 ∨ g.aState = 2 ∨ g.aState = 3 → ∃ t, exec .aprTutorTimeout s = .next t
      ∧ t.guard.aState = 6 ∧ t.guard.aCopy = [] ∧ 179 ∈ t.irq.latch ∧ t.mem = s.mem)

/-- Guild messages are taken once, jobs stop at a FAULT, and a verdict is given, held, acknowledged and reported (13_integrity_and_recovery.md, R417, R418, R419, R420, R421, R422). -/
def Obligations.GuildProtocol : Prop :=
  ∀ s : State,
    let g := s.guard
    let stopped := fun (t : State) => ∀ w : Fin 16, (s.jobAt w.val).running = true →
      (t.jobAt w.val).running = true ∧ (t.jobAt w.val).stopping = true
    let reported := fun (t : State) => t.guard.gState = 3 ∧ 0x46 ∈ t.irq.latch ∧ 4 ∈ t.irq.latch ∧ t.mem = s.mem
    (∀ (p : Packet) (rest : List Packet), s.tl.guildIn = p :: rest →
      let key := (gRoundOf p, gOrigin p, gMsg p, gPart p)
      let o := BitVec.ofNat 12 (gOrigin p)
      (key ∈ g.gSeen → ∀ c n, (c, n) ∈ [(Instr.guildFaultReceive, 0), (.guildVerdictReceive, 1), (.guildVackReceive, 2)] →
        gMsg p = n → exec c s = .next { s with tl := { s.tl with guildIn := rest } })
      ∧ (key ∉ g.gSeen → p.opnd0.toNat / 2 ^ 32 % 256 = s.slc.slice.toNat → s.slc.member = true →
        (gMsg p = 0 → g.gStopped = false → ∃ t, exec .guildFaultReceive s = .next t ∧ t.tl.guildIn = rest
          ∧ key ∈ t.guard.gSeen ∧ p.opnd1.setWidth 12 ∈ t.guard.gFaults ∧ t.guard.gStopped = true ∧ stopped t
          ∧ t.guard.gState = (if g.gState = 0 then 1 else g.gState))
        ∧ (∀ c, gMsg p = 1 → g.gFrom = none → guildChoice s = some c → coordLe s (gOrigin p) c = true →
          gPart p = 0 → let n := fieldAt p.data 0 2
          0 < n → n ≤ 6 → ∃ t, exec .guildVerdictReceive s = .next t ∧ t.tl.guildIn = rest ∧ t.guard.gState = 2
            ∧ t.guard.gCoord = o ∧ t.guard.gRound = BitVec.ofNat 8 (gRoundOf p) ∧ t.mem = s.mem
            ∧ t.guard.gList = (List.range n).map (fun i => BitVec.ofNat 12 (fieldAt p.data (4 + 2 * i) 2)))
        ∧ (gMsg p = 2 → g.gCoord = s.tl.coord → gRoundOf p = g.gRound.toNat → 2 ≤ g.gState.toNat →
          ∃ t, exec .guildVackReceive s = .next t ∧ t.tl.guildIn = rest ∧ o ∈ t.guard.gVacks
            ∧ (∀ m ∈ g.gVacks, m ∈ t.guard.gVacks) ∧ t.guard.gState = g.gState ∧ t.mem = s.mem)))
    ∧ (s.slc.member = true → g.gState = 1 → guildChoice s = some (myCoord s) → ∃ t, exec .guildGatherExpire s = .next t
      ∧ t.guard.gState = 2 ∧ t.guard.gCoord = s.tl.coord ∧ t.guard.gList = g.gFaults ∧ t.guard.gVacks = [s.tl.coord]
      ∧ t.guard.gRound = g.gRound ∧ t.mem = s.mem)
    ∧ (s.slc.member = true → g.gState = 2 → g.gCoord = s.tl.coord →
      let missing := ((members s).map (BitVec.ofNat 12)).filter fun c => !g.gVacks.contains c && !g.gList.contains c
      (missing = [] → exec .guildVackTimeout s = .next s)
      ∧ (missing ≠ [] → ∃ t, exec .guildVackTimeout s = .next t ∧ t.guard.gRound = g.gRound + 1 ∧ t.guard.gState = 2
        ∧ (∀ c ∈ missing, c ∈ t.guard.gList) ∧ (∀ c ∈ g.gList, c ∈ t.guard.gList) ∧ t.guard.gVacks = [s.tl.coord]))
    ∧ (g.gState = 2 → ∃ t, exec .guildReport s = .next t ∧ reported t ∧ t.guard.gPartial = g.gPartial)
    ∧ (g.gState = 1 → ∃ t, exec .guildPartialTimeout s = .next t ∧ reported t ∧ t.guard.gPartial = true)
    ∧ ∀ d : Option Die, ∃ t, exec (.moduleWideFailure d) s = .next t ∧ stopped t
      ∧ (s.slc.member = true → t.guard.gStopped = true ∧ BitVec.ofNat 12 (myCoord s) ∈ t.guard.gFaults)

/-- Rings open on the lowest closed number, take doorbells, fetch dockets in sequence, halt on a bad one, and close (14_host_interface_and_commands.md, R433, R434, R435, R436, R437, R438, R439, R440, R450). -/
def Obligations.RingLifecycle : Prop :=
  (∀ (s : State) (a : Agent) (f : Fn) (v : Word), agFn a = some f →
    let lo := ((Tbl.get none s.heldLo (hifOpenOff * 8 + agNum a)).map BitVec.toNat).getD 0
    ∃ t, exec (.ringOpenRequest a v) s = .next t
      ∧ t = { s with heldLo := t.heldLo, hif := { s.hif with opens := t.hif.opens, openDrop := t.hif.openDrop } }
      ∧ (s.boot.state ≠ 1 → t.hif = s.hif)
      ∧ (s.boot.state = 1 → s.hif.opens.length < 16 → t.hif.openDrop = s.hif.openDrop
          ∧ t.hif.opens = s.hif.opens ++ [(f, BitVec.ofNat 64 (v.toNat * 2 ^ 32 + lo))])
      ∧ (s.boot.state = 1 → 16 ≤ s.hif.opens.length → t.hif = { s.hif with openDrop := true }))
  ∧ (∀ (s : State) (f : Fn) (addr : DWord) (rest : List (Fn × DWord)) (rcb : List Byte),
    s.hif.opens = (f, addr) :: rest → pcieUp s = true →
    let s1 := { s with hif := { s.hif with opens := rest } }
    (exec (.ringOpenComplete rcb false) s = .next (s1.emit (.ringResult f addr stFault 0 0)))
    ∧ (openStatus s f rcb ≠ stOk →
      exec (.ringOpenComplete rcb true) s = .next (s1.emit (.ringResult f addr (openStatus s f rcb) 0 0)))
    ∧ (openStatus s f rcb = stOk → Tbl.rising s.hif.ring = true → ∃ t r, exec (.ringOpenComplete rcb true) s = .next t
      ∧ r < 8192 ∧ (s.ring r).state = 0 ∧ (∀ p < r, (s.ring p).state ≠ 0)
      ∧ t = { s1 with hif := { s1.hif with ring := t.hif.ring }, out := t.out }
      ∧ (t.ring r).state = 1 ∧ (t.ring r).owner = f ∧ (t.ring r).gen = (s.ring r).gen + 1 ∧ (t.ring r).acc = 0
      ∧ (t.ring r).queue = [] ∧ (t.ring r).slots = fieldAt rcb 16 4 ∧ (t.ring r).job.toNat = fieldAt rcb 24 2
      ∧ (∀ p, p ≠ r → t.ring p = s.ring p) ∧ t.out = s.out ++ [.ringResult f addr stOk r (t.ring r).gen.toNat]))
  ∧ (∀ (s : State) (a : Agent) (v : Word),
    let r := v.toNat % 8192
    ((∃ f, agFn a = some f ∧ (s.ring r).owner = f) → (s.ring r).state ≠ 0 → (s.ring r).gen = v.extractLsb' 13 16 →
      ∃ t, exec (.ringClose a v) s = .next t ∧ OnlyRing s t r ∧ t.ring r = { s.ring r with state := 5 })
    ∧ ((s.ring r).gen ≠ v.extractLsb' 13 16 → exec (.ringClose a v) s = .next s))
  ∧ ∀ (s : State) (r : Ring),
    let g := s.ring r.val
    (g.state = 5 → g.queue = [] → g.running = none → g.held = [] → ∃ t, exec (.ringCloseComplete r) s = .next t
      ∧ OnlyRing s t r.val ∧ (t.ring r.val).state = 0)
    ∧ (∀ (f : Fn) (v : DWord),
      (doorbellOk f g v = true → v.getLsbD 48 = false → ∃ t, exec (.doorbellTail f r v) s = .next t ∧ OnlyRing s t r.val
        ∧ t.ring r.val = { g with tail := BitVec.ofNat 16 (v.toNat % 2 ^ 16 % g.slots)
                                  rhead := BitVec.ofNat 16 (v.toNat / 2 ^ 16 % 2 ^ 16 % g.replies) })
      ∧ (doorbellOk f g v = false → exec (.doorbellTail f r v) s = .next { s with hif := { s.hif with dbDrop := true } }
        ∧ exec (.doorbellResume f r v) s = .next { s with hif := { s.hif with dbDrop := true } })
      ∧ (doorbellOk f g v = true → v.getLsbD 48 = true → g.state ≠ 5 → ∃ t, exec (.doorbellResume f r v) s = .next t
        ∧ (t.ring r.val).state = 1 ∧ (t.ring r.val).head = BitVec.ofNat 16 (g.companion.toNat % g.slots)
        ∧ (t.ring r.val).held = [] ∧ (∀ p ∈ g.held, ∃ slot q, Out.reply r.val slot q ∈ t.out ∧ q.seq = p.seq)
        ∧ t.mem = s.mem ∧ ∀ x, x ≠ r.val → t.ring x = s.ring x)
      ∧ (g.owner = f → g.state ≠ 0 → ∃ t, exec (.doorbellCompanionWrite f r v) s = .next t ∧ OnlyRing s t r.val
        ∧ t.ring r.val = { g with companion := v.setWidth 16 }))
    ∧ (∀ bytes : List Byte, g.state = 1 → pcieUp s = true → pendingSlots g ≠ 0 → 64 ≤ bytes.length →
      let len := fieldAt bytes 4 4
      let d : Docket := { bytes := bytes.take len, seq := BitVec.ofNat 32 (fieldAt bytes 8 4) }
      let halted := fun (t : State) (status : Nat) => (t.ring r.val).state = 3
        ∧ (t.ring r.val).reason = BitVec.ofNat 8 status ∧ (t.ring r.val).acc = g.acc
        ∧ (t.ring r.val).queue = g.queue ∧ t.mem = s.mem ∧ t.cl = s.cl
      (lenBad g len = true → ∃ t, exec (.docketFetch r bytes) s = .next t ∧ halted t stBadLen)
      ∧ (lenBad g len = false → len ≤ 64 * pendingSlots g → len ≤ bytes.length → aheadBytes g + len ≤ 65536 →
        (fetchStatus g d.bytes ≠ stOk →
          ∃ t, exec (.docketFetch r bytes) s = .next t ∧ halted t (fetchStatus g d.bytes))
        ∧ (fetchStatus g d.bytes = stOk → ∃ t, exec (.docketFetch r bytes) s = .next t ∧ OnlyRing s t r.val
          ∧ t.ring r.val = { g with acc := d.seq, queue := g.queue ++ [{ d with late := acceptsLate s d }]
                                    head := BitVec.ofNat 16 ((g.head.toNat + len / 64) % g.slots) })))

/-- A chosen docket starts with its cost reserved, a refused one takes no effect, a finished one is answered, and a job that is over is reported (14_host_interface_and_commands.md, 16_power_and_thermal.md, R441, R442, R443, R446, R481, R482). -/
def Obligations.DocketsStartAndComplete : Prop :=
  (∀ (s : State) (r : Nat) (g : RingSt) (d : Docket), startChoice s = some (r, g, d) →
    ∃ t, exec .docketStart s = .next t
      ∧ t = { s with pwr := { s.pwr with reserve := t.pwr.reserve },
                     hif := { s.hif with ring := t.hif.ring, lastRing := some r } }
      ∧ (∀ p, p ≠ r → t.ring p = s.ring p) ∧ (t.ring r).running = some d ∧ (t.ring r).queue = (s.ring r).queue.drop 1
      ∧ (t.ring r).began = false ∧ (t.ring r).starving = false
      ∧ (t.ring r).result = (docketRefusal g d).map (fun st => (BitVec.ofNat 8 st, 0))
      ∧ (∀ st, docketRefusal g d = some st → t.pwr = s.pwr)
      ∧ (docketRefusal g d = none → ∀ die : Fin 8, reserveOf t die.val = reserveOf s die.val
          + if die.val ∈ diesCharged s r d then dkCost s r d die.val else 0))
  ∧ (∀ (s : State) (r : Ring) (d : Docket) (st : BitVec 8) (detail : DWord),
    let g := s.ring r.val
    (g.running = some d → g.result = some (st, detail) → ∃ t, exec (.docketComplete r) s = .next t
      ∧ (t.ring r.val).running = none ∧ (t.ring r.val).result = none ∧ (t.ring r.val).done = d.seq
      ∧ t.mem = s.mem ∧ t.cl = s.cl ∧ (∀ p, p ≠ r.val → t.ring p = s.ring p)
      ∧ (g.flr = false → pcieUp s = true → g.state ≠ 4 → ∃ slot p, Out.reply r.val slot p ∈ t.out
          ∧ p.seq = d.seq ∧ p.status = st ∧ p.detail = detail))
    ∧ (g.running = none → exec (.docketComplete r) s = .next s)
    ∧ ((readyDocket g).isSome = true → s.pwr.starve.toNat ≤ g.waits →
      (g.starving = false → ∃ t, exec (.docketStarving r) s = .next t ∧ OnlyRing s t r.val
        ∧ t.ring r.val = { g with starving := true, waits := 0 })
      ∧ (g.starving = true → ∃ t, exec (.docketStarveForce r) s = .next t ∧ OnlyRing s t r.val
        ∧ t.ring r.val = { g with forced := true })))
  ∧ ∀ (s : State) (w : Win),
    let j := s.jobAt w.val
    (j.running = true → (∀ q ∈ j.clusters, q ∈ j.clOver) → ∃ t, exec (.jobEnd w) s = .next t
      ∧ t.jobAt w.val = { j with running := false } ∧ (∀ x, x ≠ w.val → t.jobAt x = s.jobAt x)
      ∧ 144 + w.val ∈ t.irq.latch ∧ t.mem = s.mem ∧ t.cl = s.cl
      ∧ (pcieUp s = true → Out.endStatus j.endblk (endBlock s w.val j) ∈ t.out))
    ∧ (j.running = true → (∃ q ∈ j.clusters, q ∉ j.clOver) → exec (.jobEnd w) s = .next s)

/-- NOP, WRITE, READ, STREAM, ALLOC, FREE and WINDOW have their effect, or the status that says why not (14_host_interface_and_commands.md, 07_memory_system.md, R117, R196, R204, R447, R448). -/
def Obligations.DocketsOfMemory : Prop :=
  ∀ (s : State) (r : Ring) (d : Docket),
    let job := dkJob d
    let only := fun (t : State) => OnlyRing s t r.val
    (Runs s r.val 0x00 d → ∃ t, exec (.nopDocket r) s = .next t ∧ only t ∧ Ends s t r.val stOk 0)
    ∧ (∀ op c, (op, c) ∈ [(0x01, Instr.writeDocket r [] true), (0x02, .readDocket r true), (0x10, .allocDocket r),
        (0x11, .freeDocket r)] → Runs s r.val op d → windowOf s job = none →
      ∃ t, exec c s = .next t ∧ only t ∧ Ends s t r.val stJob 0)
    ∧ (∀ (w : Nat) (data : List Byte), Runs s r.val 0x01 d → windowOf s job = some w → pcieUp s = true →
      (s.ring r.val).moved = 0 → dkF d 56 8 = data.length → data.length % 32 = 0 → dkF d 48 8 % 32 = 0 →
      let a := dkF d 48 8
      (Mapped s hostSrc w a data.length true → ∃ t, exec (.writeDocket r data true) s = .next t ∧ Ends s t r.val stOk data.length
        ∧ t.cl = s.cl ∧ t.mem.table = s.mem.table
        ∧ ∀ q o, a = 2 ^ 51 + q * 2 ^ 20 + o → q < 2560 → o + data.length ≤ 2 ^ 20 →
          (∀ i, i < data.length → Tbl.get 0 t.mem.buf (q * 2 ^ 20 + o + i) = data.getD i 0)
          ∧ ∀ x, x < q * 2 ^ 20 + o ∨ q * 2 ^ 20 + o + data.length ≤ x → Tbl.get 0 t.mem.buf x = Tbl.get 0 s.mem.buf x)
      ∧ (∀ k, 0 < data.length → xlate s w a true = .fault k → ∃ t, exec (.writeDocket r data true) s = .next t
        ∧ Ends s t r.val stFault 0 ∧ 0x20 ∈ t.irq.latch
        ∧ ((s.jobAt w).running = true → (t.jobAt w).stopping = true)))
    ∧ (∀ (w : Nat), s.guard.armed = [] → Runs s r.val 0x02 d → windowOf s job = some w → pcieUp s = true →
      let got := moveOut w (dkF d 56 8 / 32) s (dkF d 48 8)
      let b := got.2.1
      let sent := fun (t : State) => b ≠ [] → Out.hostWrite (BitVec.ofNat 64 (dkF d 40 8)) b ∈ t.out
      ∃ t, exec (.readDocket r true) s = .next t ∧ sent t
        ∧ (got.2.2.2 = true → Ends s t r.val stFault b.length)
        ∧ (got.2.2.2 = false → got.2.2.1 = false → Ends s t r.val stOk b.length ∧ t.cl = s.cl)
        ∧ (got.2.2.2 = false → got.2.2.1 = true → Ends s t r.val stStained b.length ∧ 0x44 ∈ t.irq.latch
            ∧ ((s.jobAt w).running = true → (t.jobAt w).stopping = true)))
    ∧ (Runs s r.val 0x03 d →
      (fedCluster s r.val = none → ∃ t, exec (.streamDocket r) s = .next t ∧ only t ∧ Ends s t r.val stJob 0)
      ∧ ∀ q, fedCluster s r.val = some q →
        (8 ≤ (s.clu q).blocks.length ∨ islandStopped s q = true → exec (.streamDocket r) s = .next s)
        ∧ ((s.clu q).blocks.length < 8 → islandStopped s q = false → ∃ t, exec (.streamDocket r) s = .next t ∧ Ends s t r.val stOk 0
          ∧ t.clu q = { s.clu q with blocks := (s.clu q).blocks ++ [⟨d.seq,
              (List.range (dkF d 32 2)).map fun i => BitVec.ofNat 128 (dkF d (64 + 16 * i) 16)⟩] }
          ∧ (∀ p, p ≠ q → t.clu p = s.clu p) ∧ t.mem = s.mem))
    ∧ (∀ w, Runs s r.val 0x10 d → windowOf s job = some w →
      let n := dkF d 36 4
      let v := dkF d 40 8 / 2 ^ 21
      let tier := dkF d 32 1
      v + n ≤ 2 ^ 20 →
      ((∃ i < n, entV (tableEntry s w (v + i)) = true) → ∃ t, exec (.allocDocket r) s = .next t ∧ only t
        ∧ Ends s t r.val stRefused 0)
      ∧ ((∀ i < n, entV (tableEntry s w (v + i)) = false) →
        (allocShort s tier (dkF d 33 1) n ≠ [] → ∃ t x, exec (.allocDocket r) s = .next t ∧ only t ∧ Ends s t r.val stShort x)
        ∧ (allocShort s tier (dkF d 33 1) n = [] → ∃ t, exec (.allocDocket r) s = .next t ∧ Ends s t r.val stOk 0
          ∧ (∀ i < n, entV (tableEntry t w (v + i)) = true)
          ∧ (∀ (x : Fin 16) (y : Fin (2 ^ 20)), x.val ≠ w ∨ y.val < v ∨ v + n ≤ y.val →
              tableEntry t x.val y.val = tableEntry s x.val y.val)
          ∧ t.mem.nm = s.mem.nm ∧ t.mem.hbm = s.mem.hbm ∧ t.cl = s.cl)))
    ∧ (∀ w, Runs s r.val 0x11 d → windowOf s job = some w →
      let n := dkF d 36 4
      let v := dkF d 40 8 / 2 ^ 21
      ((s.jobAt w).running = true → ∃ t, exec (.freeDocket r) s = .next t ∧ only t ∧ Ends s t r.val stBusy 0)
      ∧ ((s.jobAt w).running = false → v + n ≤ 2 ^ 20 → ∃ t, exec (.freeDocket r) s = .next t ∧ Ends s t r.val stOk 0
        ∧ (∀ i < n, tableEntry t w (v + i) = 0) ∧ (∀ e : Fin 8, (t.dieMem e.val).xlat = []) ∧ t.cl = s.cl
        ∧ ∀ (x : Fin 16) (y : Fin (2 ^ 20)), x.val ≠ w ∨ y.val < v ∨ v + n ≤ y.val →
            tableEntry t x.val y.val = tableEntry s x.val y.val))
    ∧ (∀ w : Fin 16, Runs s r.val 0x80 d → dkF d 32 1 = w.val →
      let en := dkF d 33 1 = 1
      let other := (List.range 16).any fun i => i != w.val && s.mem.twEn.getLsbD i
        && (Tbl.get 0 s.mem.twJob i).toNat == dkF d 34 2
      ((s.jobAt w.val).running = true → ∃ t, exec (.windowDocket r) s = .next t ∧ only t ∧ Ends s t r.val stBusy 0)
      ∧ ((s.jobAt w.val).running = false → en → other = true → ∃ t, exec (.windowDocket r) s = .next t ∧ only t
        ∧ Ends s t r.val stRefused 0)
      ∧ ((s.jobAt w.val).running = false → (en → other = false) → ∃ t, exec (.windowDocket r) s = .next t
        ∧ Ends s t r.val stOk 0 ∧ (Tbl.get 0 t.mem.twJob w.val).toNat = dkF d 34 2
        ∧ (t.mem.twEn.getLsbD w.val = true ↔ en) ∧ t.mem.table = s.mem.table ∧ t.cl = s.cl
        ∧ ∀ x, x ≠ w.val → t.mem.twEn.getLsbD x = s.mem.twEn.getLsbD x ∧ Tbl.get 0 t.mem.twJob x = Tbl.get 0 s.mem.twJob x))

/-- LAUNCH starts a job on its clusters, STOP stops it, and PHASE is accepted, late, rejected, or performed at a bring-up (14_host_interface_and_commands.md, 09_slices_mapping_phases.md, R111, R136, R292, R303, R304, R444, R445, R503). -/
def Obligations.DocketsOfJobs : Prop :=
  ∀ (s : State) (r : Ring) (d : Docket),
    let only := fun (t : State) => OnlyRing s t r.val
    (∀ w, Runs s r.val 0x20 d → windowOf s (dkJob d) = some w →
      let conflict := (launchPlaces d).any (fun q => (servingClusters s).contains q)
        || (launchRecords d).any (fun x => x.2.1 && !streamRingOk s x.2.2.1 (dkJob d))
      ((s.jobAt w).running = true → ∃ t, exec (.launchDocket r) s = .next t ∧ only t ∧ Ends s t r.val stBusy 0)
      ∧ ((s.jobAt w).running = false → conflict = true → ∃ t, exec (.launchDocket r) s = .next t ∧ only t
        ∧ Ends s t r.val stReserved 0)
      ∧ ((s.jobAt w).running = false → conflict = false →
        (∀ st, launchGate s = .reject st → ∃ t, exec (.launchDocket r) s = .next t ∧ only t ∧ Ends s t r.val st 0)
        ∧ (launchGate s = .wait → exec (.launchDocket r) s = .next s)
        ∧ (launchGate s = .go → ∃ t, exec (.launchDocket r) s = .next t
          ∧ t.jobAt w = { launchJob d r.val with late := startsLate s r.val d }
          ∧ (t.ring r.val).began = true ∧ t.mem = s.mem
          ∧ (∀ q ∈ launchPlaces d, (t.clu q).state = 1 ∧ (t.clu q).win = some (Fin.ofNat 16 w)
              ∧ (t.clu q).waiting = true ∧ (t.clu q).sreg = launchArgs d ∧ (t.clu q).mreg = (s.clu q).mreg)
          ∧ (Tbl.rising s.cl = true → ∀ p, p ∉ launchPlaces d → (s.clu p).win.map (·.val) ≠ some w → t.clu p = s.clu p))))
    ∧ (∀ w, Runs s r.val 0x21 d → windowOf s (dkJob d) = some w →
      ((s.jobAt w).running = false → ∃ t, exec (.stopDocket r) s = .next t ∧ only t ∧ Ends s t r.val stJob 0)
      ∧ ((s.jobAt w).running = true → ∃ t, exec (.stopDocket r) s = .next t ∧ (t.jobAt w).stopping = true
        ∧ (t.ring r.val).began = true ∧ (Tbl.rising s.hif.ring = true → (t.ring r.val).result = none)
        ∧ ((s.jobAt w).stopping = false → (t.jobAt w).cause = 5
            ∧ ∀ q ∈ (s.jobAt w).clusters, q ∉ (s.jobAt w).clOver → (t.clu q).stopSent = true)))
    ∧ (Runs s r.val 0x81 d →
      let bring := phaseBrings s d
      let q := phaseReq s r.val d bring
      (s.slc.req.isSome = true → ∃ t, exec (.phaseDocket r) s = .next t ∧ only t ∧ Ends s t r.val stBusy 0)
      ∧ (s.slc.req = none → phaseMapOk s q = false ∨ phaseClash s q = true → ∃ t, exec (.phaseDocket r) s = .next t
        ∧ only t ∧ Ends s t r.val stRefused 0)
      ∧ (s.slc.req = none → phaseMapOk s q = true → phaseClash s q = false →
        (bring = false → startsLate s r.val d = false → s.guard.armed = [] → ∃ t, exec (.phaseDocket r) s = .next t
          ∧ (t.ring r.val).began = true ∧ t.slc = { s.slc with req := some q, rounds := 0, step := 1 }
          ∧ t.mem = s.mem ∧ t.tl = s.tl ∧ t.cl = s.cl)
        ∧ (bring = false → startsLate s r.val d = true → ∃ t, exec (.phaseDocket r) s = .next t
          ∧ t.slc = { s.slc with req := some { q with late := true }, rounds := 0, step := 1, late := true, holdLaunch := true }
          ∧ 0x43 ∈ t.irq.latch ∧ t.mem = s.mem)
        ∧ (bring = true → ∃ t, exec (.phaseDocket r) s = .next t ∧ t.slc.slice = q.slcId.setWidth 8
          ∧ t.slc.member = q.slcId.getLsbD 8 ∧ t.slc.req = some q
          ∧ t.slc.step = (if q.items.any (·.move) then 4 else 5))))

/-- COMM, PRESS, MANGLE, EXPORT, FITREC and COMMIT act on the communicator that they name (14_host_interface_and_commands.md, 10_collectives.md, 11_training_support.md, R312, R345, R346, R358, R364, R368, R410). -/
def Obligations.DocketsOfTraining : Prop :=
  ∀ (s : State) (r : Ring) (d : Docket),
    let comm := BitVec.ofNat 16 (dkF d 32 2)
    let job := BitVec.ofNat 16 (dkJob d)
    let only := fun (t : State) => OnlyRing s t r.val
    (Runs s r.val 0x30 d → ∃ t, exec (.commDocket r) s = .next t ∧ Ends s t r.val stOk 0
      ∧ t = { s with coll := { s.coll with comm := t.coll.comm }, hif := t.hif } ∧ t.commAt (dkF d 32 2) = commRecord d
      ∧ ∀ x, x ≠ dkF d 32 2 → t.commAt x = s.commAt x)
    ∧ (Runs s r.val 0x31 d →
      (s.press.job ≠ job → pressJobRuns s = true → ∃ t, exec (.pressDocket r) s = .next t ∧ only t ∧ Ends s t r.val stBusy 0)
      ∧ (s.press.job = job ∨ pressJobRuns s = false → ∃ t, exec (.pressDocket r) s = .next t ∧ Ends s t r.val stOk 0
        ∧ t = { s with press := t.press, hif := t.hif } ∧ t.press.job = job ∧ t.press.mode = BitVec.ofNat 2 (dkF d 34 1)
        ∧ tableOf t comm = some (dkF d 40 8) ∧ (s.press.job = job → ∀ c, c ≠ comm → tableOf t c = tableOf s c)))
    ∧ (∀ w, Runs s r.val 0x32 d → windowOf s (dkJob d) = some w →
      let c := s.commAt (dkF d 32 2)
      (s.mgl.running = true → ∃ t, exec (.mangleDocket r) s = .next t ∧ only t ∧ Ends s t r.val stBusy 0)
      ∧ (s.mgl.running = false → c.valid = false ∨ c.job ≠ job → ∃ t, exec (.mangleDocket r) s = .next t ∧ only t
        ∧ Ends s t r.val stJob 0)
      ∧ (s.mgl.running = false → c.valid = true → c.job = job → ∃ t, exec (.mangleDocket r) s = .next t
        ∧ t = { s with mgl := (mglStart s (dkJob d) (cut d.bytes 32 64)).mgl, hif := t.hif }
        ∧ t.mgl.running = true ∧ t.mgl.comm = comm ∧ (t.ring r.val).began = true))
    ∧ (∀ w, Runs s r.val 0x33 d → windowOf s (dkJob d) = some w →
      (tableOf s comm = none ∨ s.press.job.toNat ≠ dkJob d → ∃ t, exec (.exportDocket r) s = .next t ∧ only t
        ∧ Ends s t r.val stJob 0)
      ∧ ∀ tbl, tableOf s comm = some tbl → s.press.job.toNat = dkJob d →
        (stepApplying s comm = true → exec (.exportDocket r) s = .next s)
        ∧ (stepApplying s comm = false → s.guard.armed = [] →
          let c := committedOf s comm tbl
          let m := manifest c.1 comm tbl c.2.1 c.2.2
          (m.2.2 = true → ∃ t, exec (.exportDocket r) s = .next t ∧ Ends s t r.val stStopped 0 ∧ 0x44 ∈ t.irq.latch
            ∧ ((s.jobAt w).running = true → (t.jobAt w).stopping = true))
          ∧ (m.2.2 = false → Mapped s hostSrc w (dkF d 40 8) m.2.1.length true → ∃ t, exec (.exportDocket r) s = .next t
            ∧ Ends s t r.val stOk 0 ∧ t.cl = s.cl ∧ t.press.held = s.press.held)))
    ∧ (∀ w, Runs s r.val 0x34 d → windowOf s (dkJob d) = some w →
      (s.press.held = none → ∃ t, exec (.fitrecDocket r) s = .next t ∧ only t ∧ Ends s t r.val stJob 0)
      ∧ ∀ tbl step, tableOf s comm = some tbl → s.press.held = some (comm, step) → s.press.job.toNat = dkJob d →
        let h := headerCopy s tbl
        let m := manifest h.1 comm tbl step.toNat h.2.cur
        Mapped s hostSrc w (dkF d 40 8) m.2.1.length true → ∃ t, exec (.fitrecDocket r) s = .next t ∧ Ends s t r.val stOk 0
          ∧ t.cl = s.cl ∧ t.press.held = s.press.held)
    ∧ (∀ w, Runs s r.val 0x35 d → windowOf s (dkJob d) = some w →
      (s.press.job.toNat ≠ dkJob d → ∃ t, exec (.commitDocket r) s = .next t ∧ only t ∧ Ends s t r.val stJob 0)
      ∧ (s.press.job.toNat = dkJob d →
        (s.press.held = none → ∃ t, exec (.commitDocket r) s = .next t ∧ only t ∧ Ends s t r.val stOk 0)
        ∧ ∀ step, s.press.held = some (comm, step) →
          (dkF d 40 8 < step.toNat → ∃ t, exec (.commitDocket r) s = .next t ∧ only t ∧ Ends s t r.val stOk 0)
          ∧ (step.toNat ≤ dkF d 40 8 → s.guard.mendEn = false → ∃ t, exec (.commitDocket r) s = .next t
            ∧ Ends s t r.val stOk 0 ∧ t.press.held = none ∧ t.press.commit = step ∧ t.press.deltas = [] ∧ t.cl = s.cl)))

/-- MEND, REBUILD, GUILD, APPRENTICE, INJECT and PATTERN set their units to work or are refused (14_host_interface_and_commands.md, 13_integrity_and_recovery.md, R403, R405, R411, R417, R423, R424, R425). -/
def Obligations.DocketsOfFunctionOne : Prop :=
  ∀ (s : State) (r : Ring) (d : Docket),
    let only := fun (t : State) => OnlyRing s t r.val
    let g := s.guard
    (Runs s r.val 0x82 d →
      let cfg := dkF d 36 4
      let ok := cfg % 2 = 0 ∨ roleSize s (cfg / 2 % 4) % 16 = 0
      (¬ ok → ∃ t, exec (.mendDocket r) s = .next t ∧ only t ∧ Ends s t r.val stRefused 0)
      ∧ (ok → ∃ t, exec (.mendDocket r) s = .next t ∧ Ends s t r.val stOk 0 ∧ t = { s with guard := t.guard, hif := t.hif }
        ∧ (t.guard.mendEn = true ↔ cfg % 2 = 1) ∧ t.guard.mendRole = BitVec.ofNat 2 (cfg / 2)
        ∧ t.guard.interval = BitVec.ofNat 16 (cfg / 2 ^ 16) ∧ t.guard.par0.toNat = dkF d 40 8
        ∧ t.guard.par1.toNat = dkF d 48 8 ∧ t.guard.l0.toNat = dkF d 56 8 ∧ t.guard.l1.toNat = dkF d 64 8
        ∧ t.guard.roundOpen = g.roundOpen))
    ∧ (Runs s r.val 0x83 d → ∃ t, exec (.rebuildDocket r) s = .next t ∧ (t.ring r.val).began = true ∧ t.mem = s.mem
      ∧ t.guard = { g with recId := BitVec.ofNat 16 (dkF d 32 2), recAt := 0, recRunning := true, recFailed := false,
                           recStep := if g.recId.toNat = dkF d 32 2 then g.recStep else 0 })
    ∧ (Runs s r.val 0x84 d → ∃ t, exec (.guildDocket r) s = .next t ∧ (t.ring r.val).result.isSome = true
      ∧ (s.slc.member = true → t.guard.gStopped = true ∧ BitVec.ofNat 12 (dkF d 34 2) ∈ t.guard.gFaults
          ∧ ∀ w : Fin 16, (s.jobAt w.val).running = true → (t.jobAt w.val).stopping = true)
      ∧ (s.slc.member = false → only t ∧ Ends s t r.val stOk 0))
    ∧ (Runs s r.val 0x85 d →
      (dkF d 32 1 = 1 ∨ g.book = none → ∃ t, exec (.apprenticeDocket r) s = .next t ∧ (t.ring r.val).began = true
        ∧ t.mem = s.mem
        ∧ t.guard = { g with aState := 1, aTutor := dkF d 32 1 == 1, aPeer := BitVec.ofNat 12 (dkF d 34 2), aDone := 0,
                             aSteps := BitVec.ofNat 16 (dkF d 44 2), aCopy := [], aRing := some r.val })
      ∧ (dkF d 32 1 ≠ 1 → g.book ≠ none → exec (.apprenticeDocket r) s = .next s))
    ∧ (Runs s r.val 0x86 d →
      let j := s.jobAt (dkF d 40 1)
      let ok := g.injEn.getLsbD (dkF d 32 1) && j.running && j.inj
      (ok = false → ∃ t, exec (.injectDocket r) s = .next t ∧ only t ∧ Ends s t r.val stRefused 0)
      ∧ (ok = true → ∃ t, exec (.injectDocket r) s = .next t ∧ Ends s t r.val stOk 0
        ∧ t = { s with guard := { g with armed := t.guard.armed }, hif := t.hif }
        ∧ t.guard.armed = g.armed ++ [⟨BitVec.ofNat 8 (dkF d 32 1), BitVec.ofNat 8 (dkF d 33 1), dkF d 34 2,
            BitVec.ofNat 32 (dkF d 36 4), dkF d 40 1⟩]))
    ∧ ∀ image : List Byte, Runs s r.val 0x87 d → pcieUp s = true → g.book = none → g.armed = [] →
      let b := image.take (dkF d 36 4)
      let l := (((List.range (fieldAt b 24 4)).map fun i => cut b (64 + 16 * i) 16).filter (pointOk s)).map
        fun p => BitVec.ofNat 128 (leNat p)
      (∃ t, exec (.patternDocket r image false) s = .next t ∧ only t ∧ Ends s t r.val stFault 0)
      ∧ (bookGood s b = false → ∃ t, exec (.patternDocket r image true) s = .next t ∧ Ends s t r.val stRefused 0
        ∧ 0x45 ∈ t.irq.latch ∧ t.guard = g ∧ t.mem = s.mem)
      ∧ (bookGood s b = true → bookRegions l = [] → ∃ t, exec (.patternDocket r image true) s = .next t
        ∧ Ends s t r.val stOk 0 ∧ t.guard = g ∧ t.mem = s.mem)
      ∧ (bookGood s b = true → bookRegions l ≠ [] → ∃ t, exec (.patternDocket r image true) s = .next t
        ∧ (t.ring r.val).began = true ∧ t.mem = s.mem
        ∧ t.guard = { g with book := some (fieldAt b 16 4, fieldAt b 20 4, l), bookRing := r.val, bookRunning := false })

/-- The interrupt controller makes sources pending, offers, claims and completes them, and sends them to the host (15_interrupt_controller.md, R458, R459, R461, R462, R463, R467, R469, R470). -/
def Obligations.InterruptController : Prop :=
  ∀ s : State,
    let r := s.irq
    let free := fun (n p : Nat) =>
      bitAt (srcCfg s n) (4 + p) = true ∧ bitAt (tprOf s p) 4 = true ∧ onProc s p = none
    let sent := fun (u t : State) (f : Fn) => ∀ n, routeFn s n = some f → eligible s n = true → msixOn u f = true →
      (∀ m, m ≠ n → m / 16 = n / 16 → eligible s m = true → srcRoute s m = 0) →
      (levelSource n = true → (n, 4 + fnNum f) ∈ t.irq.service) ∧ (levelSource n = false → n ∉ t.irq.pend)
        ∧ (srcVector s n < fnVectors f →
          ((fnNum f, srcVector s n) ∈ r.unmasked → Out.msix f (srcVector s n) ∈ t.out)
          ∧ ((fnNum f, srcVector s n) ∉ r.unmasked → (fnNum f, srcVector s n) ∈ t.irq.pba))
    (∀ n : Fin 1024, ∃ t, exec (.irqSourcePending n) s = .next t
      ∧ t = { s with irq := { r with latch := t.irq.latch, pend := t.irq.pend } }
      ∧ (n.val ∉ r.latch → t = s)
      ∧ (n.val ∈ r.latch → n.val ∉ t.irq.latch ∧ (∀ m, m ≠ n.val → (m ∈ t.irq.latch ↔ m ∈ r.latch))
        ∧ ∀ m, m ∈ t.irq.pend ↔ m ∈ r.pend ∨ (m = n.val ∧ edgeSource m = true)))
    ∧ (∃ t, exec .irqOfferUpdate s = .next t
      ∧ t = { s with out := t.out
                     irq := { r with offer := t.irq.offer, seen := t.irq.seen, run := t.irq.run, pend := t.irq.pend,
                                     service := t.irq.service, pba := t.irq.pba } }
      ∧ (∀ p : Fin 4, t.irq.seen.getLsbD p.val = (r.seen.getLsbD p.val || t.irq.offer.any fun o => o.1 == p.val))
      ∧ (∀ p n, (p, n) ∈ t.irq.offer → p < 4 ∧ eligible s n = true ∧ srcRoute s n = 0 ∧ free n p
        ∧ ∀ m, (p, m) ∈ t.irq.offer → m = n)
      ∧ (r.pend.Pairwise (· < ·) → ∀ n, eligible s n = true → srcRoute s n = 0 → ∀ p, p < 4 → free n p →
        (∃ m, m < n ∧ (p, m) ∈ t.irq.offer)
        ∨ ∃ q, (q, n) ∈ t.irq.offer ∧ (tprOf s q % 16 < tprOf s p % 16 ∨ (tprOf s q % 16 = tprOf s p % 16 ∧ q ≤ p)))
      ∧ sent s t .f0 ∧ sent s t .f1)
    ∧ (∀ (a : Agent) (p : Fin 4), ∃ t, exec (.irqClaim a p) s = .next t ∧ t = { s with irq := t.irq, rdata := t.rdata } ∧
      let v := Tbl.get 0 t.rdata (agNum a)
      (procOf a ≠ some p.val → v = 0 ∧ t.irq = r)
      ∧ (procOf a = some p.val → t.irq.seen.getLsbD p.val = false
        ∧ (∀ n, onProc s p.val = some n → v = BitVec.ofNat 64 n ∧ t.irq = { r with seen := t.irq.seen })
        ∧ (onProc s p.val = none →
          (∀ n, offeredTo s p.val = some n → v = BitVec.ofNat 64 n ∧ (n, p.val) ∈ t.irq.service
            ∧ (∀ m, (p.val, m) ∉ t.irq.offer)
            ∧ t.irq.pend = (if levelSource n then r.pend else r.pend.filter (· != n))
            ∧ (Tbl.get 0 r.hold (n / 16) ≠ 0 → n / 16 < 64 → t.irq.run.getLsbD (n / 16) = true))
          ∧ (offeredTo s p.val = none → r.seen.getLsbD p.val = true → v = 1023
            ∧ Tbl.get 0 t.irq.spur p.val = (if Tbl.get 0 r.spur p.val = 255 then 255 else Tbl.get 0 r.spur p.val + 1)
            ∧ t.irq = { r with seen := t.irq.seen, spur := t.irq.spur })
          ∧ (offeredTo s p.val = none → r.seen.getLsbD p.val = false → v = 0 ∧ t.irq = r))))
    ∧ (∀ (a : Agent) (p : Fin 4) (v : Word), ∃ t, exec (.irqComplete a p v) s = .next t
      ∧ (procOf a ≠ some p.val → t = s)
      ∧ (procOf a = some p.val →
        let x := (v.toNat % 1024, p.val)
        (x ∈ r.service → t = { s with irq := { r with service := r.service.filter (· != x) } })
        ∧ (x ∉ r.service → t = { s with irq := { r with badComplete := t.irq.badComplete } }
          ∧ ∀ q : Fin 4, t.irq.badComplete.getLsbD q.val = (r.badComplete.getLsbD q.val || q == p))))
    ∧ (∀ g : Fin 64, ∃ t, exec (.irqHoldExpire g) s = .next t ∧ t = { s with irq := { r with run := t.irq.run } }
      ∧ ∀ h : Fin 64, t.irq.run.getLsbD h.val = (r.run.getLsbD h.val && h != g))
    ∧ (∀ (a : Agent) (v : Word),
      let n := v.toNat % 1024
      (∃ t, exec (.irqHostDone a v) s = .next t ∧ t = { s with irq := { r with service := t.irq.service } }
        ∧ ∀ x, x ∈ t.irq.service ↔ x ∈ r.service ∧ ¬ (a = .fn0 ∧ x = (n, 4)) ∧ ¬ (a = .fn1 ∧ x = (n, 5)))
      ∧ (∃ t, exec (.irqSwset a v) s = .next t ∧ t = { s with irq := { r with pend := t.irq.pend } }
        ∧ ∀ m, m ∈ t.irq.pend ↔ m ∈ r.pend ∨ (mgmt a = true ∧ softSource v.toNat = true ∧ m = n))
      ∧ ∃ t, exec (.irqSwclr a v) s = .next t ∧ t = { s with irq := { r with pend := t.irq.pend } }
        ∧ ∀ m, m ∈ t.irq.pend ↔ m ∈ r.pend ∧ ¬ (isMp a = true ∧ softSource v.toNat = true ∧ m = n))
    ∧ ∀ f : Fn,
      (∀ v : Fin 2048, ∃ t, exec (.msixVectorUnmask f v) s = .next t
        ∧ t = { s with out := t.out, irq := { r with unmasked := t.irq.unmasked, pba := t.irq.pba } }
        ∧ (v.val < fnVectors f → (fnNum f, v.val) ∉ r.unmasked → (fnNum f, v.val) ∈ t.irq.unmasked
          ∧ ((fnNum f, v.val) ∈ r.pba → msixOn s f = true → t.out = s.out ++ [.msix f v.val]
            ∧ (fnNum f, v.val) ∉ t.irq.pba)
          ∧ ((fnNum f, v.val) ∉ r.pba → t.out = s.out ∧ t.irq.pba = r.pba)))
      ∧ ∃ t, exec (.msixEnable f) s = .next t
        ∧ t = { s with out := t.out
                       irq := { r with msixOff := t.irq.msixOff, run := t.irq.run, pend := t.irq.pend,
                                       service := t.irq.service, pba := t.irq.pba } }
        ∧ t.irq.msixOff.getLsbD (fnNum f) = false ∧ sent t t f
        ∧ (s.hif.rate ≠ 0 → ∀ v, (fnNum f, v) ∈ r.pba → (fnNum f, v) ∈ r.unmasked →
          Out.msix f v ∈ t.out ∧ (fnNum f, v) ∉ t.irq.pba)

/-- QP and POST dockets, received packets and the ports change queue pairs, keys and work requests (14_host_interface_and_commands.md, R443, R451, R452, R453, R454). -/
def Obligations.EthernetQueuePairs : Prop :=
  ∀ s : State,
    let upBit := fun (t : State) (port : Fin 2) => t.hif.ethDown.getLsbD port.val = false
    (∀ (r : Ring) (d : Docket), Runs s r.val 0x40 d →
      let only := fun (t : State) => OnlyRing s t r.val
      let port := dkF d 33 1
      let n := dkF d 36 4
      let k := dkF d 80 8 % 2 ^ 32
      let act := dkF d 32 1
      (act = 0 →
        ((∀ m, 1 ≤ m → m ≤ 4095 → (s.qpAt port m).live = true) →
          ∃ t, exec (.qpCreateDocket r) s = .next t ∧ only t ∧ Ends s t r.val stShort 1)
        ∧ ∀ m, 1 ≤ m → m ≤ 4095 → (s.qpAt port m).live = false →
          ∃ t q, exec (.qpCreateDocket r) s = .next t ∧ t = { s with hif := t.hif, free := s.free + 1 }
            ∧ 1 ≤ q ∧ q ≤ 4095 ∧ (s.qpAt port q).live = false ∧ Ends s t r.val stOk q
            ∧ t.qpAt port q = { live := true, mtu := BitVec.ofNat 8 (dkF d 34 1), prio := BitVec.ofNat 8 (dkF d 35 1),
                                rqpn := BitVec.ofNat 24 (dkF d 40 4), rgid := BitVec.ofNat 128 (dkF d 48 16),
                                lgid := BitVec.ofNat 128 (dkF d 64 16), win := qpWin s d }
            ∧ ∀ i, i ≠ port * 4096 + q → Tbl.get {} t.hif.qp i = Tbl.get {} s.hif.qp i)
      ∧ (act = 1 →
        (namedQp s d port n = none → ∃ t, exec (.qpReadyDocket r) s = .next t ∧ only t ∧ Ends s t r.val stJob 0)
        ∧ ∀ q, namedQp s d port n = some q →
          (q.err = true → ∃ t, exec (.qpReadyDocket r) s = .next t ∧ only t ∧ Ends s t r.val stJob 0)
          ∧ (q.err = false → ∃ t, exec (.qpReadyDocket r) s = .next t ∧ Ends s t r.val stOk n
            ∧ t.qpAt port n = { qpSet q d with ready := true }))
      ∧ (act = 2 →
        (namedQp s d port n = none → ∃ t, exec (.qpDestroyDocket r) s = .next t ∧ only t ∧ Ends s t r.val stJob 0)
        ∧ ∀ q, namedQp s d port n = some q → ∃ t, exec (.qpDestroyDocket r) s = .next t ∧ Ends s t r.val stOk n
          ∧ t.qpAt port n = {}
          ∧ ∀ w ∈ q.work, ∀ e, (s.ring w.ring).running = some e → dkOp e = 0x41 → e.seq = w.seq →
            (s.ring w.ring).result = none → Ends s t w.ring stFault (s.ring w.ring).moved)
      ∧ (act = 3 →
        (windowOf s (dkJob d) = none → ∃ t, exec (.qpKeyCreateDocket r) s = .next t ∧ only t ∧ Ends s t r.val stJob 0)
        ∧ ∀ w, windowOf s (dkJob d) = some w →
          (1024 ≤ winKeys s w → ∃ t, exec (.qpKeyCreateDocket r) s = .next t ∧ only t ∧ Ends s t r.val stShort 3)
          ∧ (winKeys s w < 1024 → s.hif.key.length < 2 ^ 32 → ∃ t x, exec (.qpKeyCreateDocket r) s = .next t
            ∧ (Tbl.get {} s.hif.key x).live = false ∧ Ends s t r.val stOk x
            ∧ Tbl.get {} t.hif.key x = ⟨true, w, BitVec.ofNat 64 (dkF d 80 8), BitVec.ofNat 64 (dkF d 88 8)⟩
            ∧ ∀ y, y ≠ x → Tbl.get {} t.hif.key y = Tbl.get {} s.hif.key y))
      ∧ (act = 4 →
        let ok := (Tbl.get {} s.hif.key k).live = true ∧ windowOf s (dkJob d) = some (Tbl.get {} s.hif.key k).win
        (¬ ok → ∃ t, exec (.qpKeyDestroyDocket r) s = .next t ∧ only t ∧ Ends s t r.val stJob 0)
        ∧ (ok → ∃ t, exec (.qpKeyDestroyDocket r) s = .next t ∧ Ends s t r.val stOk k
          ∧ Tbl.get {} t.hif.key k = {} ∧ ∀ y, y ≠ k → Tbl.get {} t.hif.key y = Tbl.get {} s.hif.key y)))
    ∧ (∀ (r : Ring) (d : Docket) (w : Nat), Runs s r.val 0x41 d → windowOf s (dkJob d) = some w →
      let l := postReqs d
      let listed := ∀ b ∈ l, fieldAt b 0 1 ≤ 2 ∧ fieldAt b 1 1 ≤ 1
      let mine := ∀ b ∈ l, postable s d b = true
      let fails := fun (st : Nat) => ∃ t, exec (.postDocket r) s = .next t ∧ OnlyRing s t r.val ∧ Ends s t r.val st 0
      (¬ listed → fails stReserved) ∧ (listed → ¬ mine → fails stJob)
      ∧ (listed → mine → postOver s l = true → ∃ t, exec (.postDocket r) s = .next t ∧ Ends s t r.val stShort 2)
      ∧ ∀ (b : List Byte) (port : Fin 2), l = [b] → listed → mine → postOver s l = false → fieldAt b 1 1 = port.val →
        s.guard.armed = [] →
        let q := s.qpAt port.val (fieldAt b 4 4)
        let x := ethRead (dkBegan s r.val) w (fieldAt b 8 8) (fieldAt b 16 4)
        let clean := fieldAt b 0 1 = 2 ∨ (x.2.2.1 = false ∧ x.2.2.2 = false)
        (fieldAt b 0 1 ≠ 2 → x.2.2.2 = true → ∃ t, exec (.postDocket r) s = .next t
          ∧ Ends s t r.val stFault (s.ring r.val).moved)
        ∧ (fieldAt b 0 1 ≠ 2 → x.2.2.2 = false → x.2.2.1 = true → ∃ t, exec (.postDocket r) s = .next t
          ∧ Ends s t r.val stStained (s.ring r.val).moved)
        ∧ (clean → ∃ t, exec (.postDocket r) s = .next t ∧ (t.ring r.val).began = true ∧ (t.ring r.val).result = none
          ∧ (t.qpAt port.val (fieldAt b 4 4)).work.map (·.bytes) = q.work.map (·.bytes) ++ [b]
          ∧ (upBit s port → ∀ y ∈ (t.qpAt port.val (fieldAt b 4 4)).work, y.sent = true)))
    ∧ (∀ (port : Fin 2) (n : Fin 4096) (ok : Bool) (data : List Byte),
      let q := s.qpAt port.val n.val
      ∃ t, exec (.ethWorkRequestComplete port n ok data) s = .next t
        ∧ (q.work = [] → t = s)
        ∧ ∀ w rest, q.work = w :: rest →
          (w.sent = false → t = s)
          ∧ (w.sent = true → ok = false → t.qpAt port.val n.val = { q with work := [], err := true }
            ∧ 210 + port.val ∈ t.irq.latch ∧ t.mem = s.mem)
          ∧ (w.sent = true → ok = true → t.qpAt port.val n.val = { q with work := rest }
            ∧ (w.op ≠ 2 → t.mem = s.mem ∧ ∀ d, (s.ring w.ring).running = some d → dkOp d = 0x41 → d.seq = w.seq →
              (t.ring w.ring).moved = (s.ring w.ring).moved + 1
              ∧ ((s.ring w.ring).moved + 1 = dkF d 32 2 → (s.ring w.ring).result = none →
                Ends s t w.ring stOk ((s.ring w.ring).moved + 1)))))
    ∧ (∀ (port : Fin 2) (p : EthPacket),
      let q := s.qpAt port.val p.qpn.toNat
      let hears := upBit s port ∧ p.qpn.toNat ≤ 4095 ∧ q.ready = true ∧ q.err = false
      let nak := s.emit (.ethNak port.val p.qpn.toNat)
      let covered := keyCovers s q p
      ∃ t, exec (.ethPacketReceive port p) s = .next t
        ∧ (¬ hears → t = s)
        ∧ (hears →
          (p.kind = .cnp → t = s.setQp port.val p.qpn.toNat { q with slowed := true })
          ∧ (p.kind = .send → t = nak)
          ∧ (p.kind = .write ∨ p.kind = .read → q.win = none ∨ covered = false → t = nak)
          ∧ ∀ w, q.win = some w → covered = true →
            (p.kind = .write →
              t = bulkWrite s hostSrc w.val p.addr.toNat ((cut p.data 0 p.len).map fun b => (b, false)))
            ∧ (p.kind = .read → s.guard.armed = [] →
              let x := ethRead s w.val p.addr.toNat p.len
              (x.2.2.2 = true → t = x.1.emit (.ethNak port.val p.qpn.toNat))
              ∧ (x.2.2.2 = false → x.2.2.1 = true → t = stainExit x.1 w.val hostSrc p.addr.toNat)
              ∧ (x.2.2.2 = false → x.2.2.1 = false → t = ethOut x.1 port.val p.qpn.toNat [] x.2.1))))
    ∧ ∀ port : Fin 2,
      (∃ t, exec (.ethPortDown port) s = .next t ∧ t = { s with hif := { s.hif with ethDown := t.hif.ethDown } }
        ∧ ∀ p : Fin 2, t.hif.ethDown.getLsbD p.val = (s.hif.ethDown.getLsbD p.val || p == port))
      ∧ ∃ t, exec (.ethPortUp port) s = .next t
        ∧ (s.pins.ethRefclk = false ∨ s.boot.held = true → t = s)
        ∧ (s.pins.ethRefclk = true → s.boot.held = false → upBit t port
          ∧ t = { s with out := t.out, hif := { s.hif with ethDown := t.hif.ethDown, qp := t.hif.qp } }
          ∧ ∀ n : Fin 4096, ∀ w ∈ (t.qpAt port.val n.val).work, w.sent = true)

/-- A PCIe link that falls, a function level reset and PERST leave rings in their states and abandon host transfers (14_host_interface_and_commands.md, 17_reset_and_boot.md, R429, R449, R450, R470, R490). -/
def Obligations.PcieLink : Prop :=
  ∀ s : State, Tbl.rising s.hif.ring = true →
    let moves := fun (d : Docket) => dkOp d = 0x01 ∨ dkOp d = 0x02 ∨ dkOp d = 0x41 ∨ dkOp d = 0x87
    let down := fun (t : State) => t.hif.rate = 0 ∧ t.hif.width = 0 ∧ t.hif.flit = false
      ∧ ∀ r : Ring, (t.ring r.val).running = (s.ring r.val).running ∧ (t.ring r.val).queue = (s.ring r.val).queue
        ∧ (t.ring r.val).state = (if (s.ring r.val).state = 1 ∨ (s.ring r.val).state = 3 then 4 else (s.ring r.val).state)
        ∧ ∀ d, (s.ring r.val).running = some d → moves d → (t.ring r.val).result.isSome = true
    (∃ t, exec .pcieLinkDown s = .next t ∧ down t ∧ t.pins = s.pins)
    ∧ (∃ t, exec .pciePerstAssert s = .next t ∧ down t ∧ t.pins = { s.pins with perstHigh := false })
    ∧ (∀ (rate : Fin 7) (width : Fin 17) (flit : Bool),
      let ok := rate.val ≠ 0 ∧ width.val ≠ 0 ∧ (flit = true ↔ rate.val = 6) ∧ s.pins.pcieRefclk = true ∧ s.boot.held = false
      ∃ t, exec (.pcieLinkUp rate width flit) s = .next t
        ∧ (¬ ok → t = s)
        ∧ (ok → t.hif.rate.toNat = rate.val ∧ t.hif.width.toNat = width.val ∧ t.hif.flit = flit
          ∧ t.pins = { s.pins with perstHigh := true } ∧ t.mem = s.mem ∧ t.cl = s.cl
          ∧ ∀ r : Ring, (t.ring r.val).state = (s.ring r.val).state
            ∧ ((s.ring r.val).state = 5 → (t.ring r.val).held = [])
            ∧ ((s.ring r.val).state ≠ 5 → t.ring r.val = s.ring r.val)))
    ∧ ∀ f : Fn, ∃ t, exec (.pcieFlr f) s = .next t
      ∧ (∀ r : Ring,
        let g := s.ring r.val
        (g.owner = f → g.state ≠ 0 → (t.ring r.val).state = 5 ∧ (t.ring r.val).flr = true ∧ (t.ring r.val).held = []
          ∧ (t.ring r.val).queue = g.queue ∧ (t.ring r.val).running = g.running
          ∧ ∀ d, g.running = some d → moves d → (t.ring r.val).result.isSome = true)
        ∧ (g.owner ≠ f ∨ g.state = 0 → t.ring r.val = g))
      ∧ t.irq.msixOff.getLsbD (fnNum f) = true
      ∧ (∀ v, (fnNum f, v) ∉ t.irq.unmasked ∧ (fnNum f, v) ∉ t.irq.pba) ∧ (∀ x ∈ t.hif.opens, x.1 ≠ f)
      ∧ t.hif.rate = s.hif.rate

/-- The governor's boundary sets chits, caps and clocks, and its trips, brake and checks act at once (16_power_and_thermal.md, 07_memory_system.md, R227, R417, R475, R476, R479, R483, R484, R485, R486, R488). -/
def Obligations.GovernorAndClocks : Prop :=
  ∀ s : State,
    (∀ rd : Readings, s.guard.armed = [] → ∃ t, exec (.chitBoundary rd) s = .next t ∧
      let u := takeLimits s
      t.pwr.limitNow = s.pwr.limit ∧ t.pwr.rateNow = s.pwr.rate ∧ t.pwr.dieLimitNow = s.pwr.dieLimit
      ∧ t.pwr.ftargetNow = s.pwr.ftarget ∧ t.boot = s.boot ∧ t.gct = s.gct
      ∧ (∀ d, d < 8 →
        let q := chitOf t d
        let lt : Int := lTau u d
        let aim := targetStep u d
        let c := min (chitCap s d) aim
        let g := min aim (chitCap t d)
        q = max (-32768) (min (2 * lt) (chitOf s d + lt - ((rd.energy.find? (·.1 == d)).map (·.2)).getD 0))
        ∧ (s.guard.book = none → reserveOf t d = 0)
        ∧ (q < 0 → 0 < aim → chitCap t d = c - 1)
        ∧ (0 ≤ q → 2 * q < lt → chitCap t d = if aim ≤ c then 16 else c)
        ∧ (0 ≤ q → lt ≤ 2 * q → chitCap t d = if aim ≤ c + 1 then 16 else c + 1)
        ∧ (∀ r ∈ mappedRegions s d,
          let k := s.regClk d r
          let l := t.regClk d r
          (400 ≤ tempJ t d r → ∀ st, k.step = some st → l.cap3 = min k.cap3 (st - 1))
          ∧ (tempJ t d r ≤ 388 → l.cap3 = if g ≤ k.cap3 + 1 then 16 else k.cap3 + 1)
          ∧ (388 < tempJ t d r → tempJ t d r < 400 → l.cap3 = k.cap3)
          ∧ (s.boot.computeOff = false → s.boot.state ≠ 5 →
            l.step = some (min g (min l.cap3 (min l.cap4 (cap6Of t d))))
            ∧ (l.step ≠ k.step → l.changing = true ∧ l.was = k.step)))
        ∧ (∀ n, n < 24 → 380 ≤ tempN t d n → (∃ r ∈ mappedRegions s d, bitAt (coupleMask s d n) r = true ∧ 0 < runStep s d r) →
          ∃ r ∈ mappedRegions s d, bitAt (coupleMask s d n) r = true ∧ (t.regClk d r).cap4 ≤ runStep s d r - 1)
        ∧ (dieHeld t d = true → cap6Of t d = 0)
        ∧ (dieHeld t d = false → cap6Of t d
          = if cap6Of s d = 16 then 16 else if g ≤ cap6Of s d + 1 then 16 else cap6Of s d + 1)
        ∧ (cap6Of t d ≠ 16 → s.pwr.in6.getLsbD d = false → t.pwr.excursion = true)
        ∧ ∀ l, s.tl.asked.find? (fun x => linkDie x == d && mayRetrain (s.link x)) = some l → dieWindow s d = false →
          (t.link l).windowT = some (s.gct.count + 10000) ∧ l ∉ t.tl.asked)
      ∧ (∀ x ∈ allSensors t, x.hot ≤ x.temp → x.id ∈ t.pwr.hot6)
      ∧ (∀ k : Fin 16, t.pwr.rung5.getLsbD k.val
        = if 380 ≤ tempH t k.val then true else if tempH t k.val ≤ 368 then false else s.pwr.rung5.getLsbD k.val)
      ∧ ((∃ x ∈ allSensors t, x.trip ≤ x.temp) → s.pwr.tripping = false →
        t.pwr.trip = true ∧ t.pwr.tripping = true ∧ 1 ∈ t.irq.latch
        ∧ ∀ w : Fin 16, (s.jobAt w.val).running = true → (t.jobAt w.val).stopping = true)
      ∧ ((∀ x ∈ allSensors t, x.temp < x.trip) → t.pwr.trip = s.pwr.trip ∧ t.pwr.tripping = s.pwr.tripping))
    ∧ (∃ t, exec .thermtripAssert s = .next t
      ∧ (s.pwr.tripping = false → t = s)
      ∧ (s.pwr.tripping = true → t.boot.state = 5 ∧ t.pins = { s.pins with thermtripHigh := false }
        ∧ (∀ d r, (t.regClk d r).step = none) ∧ t.pwr.trip = s.pwr.trip ∧ t.mem = s.mem
        ∧ t.boot.cause = if s.boot.state = 0 ∨ s.boot.state = 4 then 5 else s.boot.cause))
    ∧ (∀ (d : Die) (r : Fin 21), ∃ t, exec (.regionClockChangeComplete d r) s = .next t
      ∧ t = { s with pwr := { s.pwr with reg := t.pwr.reg } }
      ∧ t.regClk d.val r.val = { s.regClk d.val r.val with changing := false }
      ∧ issueStep (t.regClk d.val r.val) = (s.regClk d.val r.val).step
      ∧ ∀ (e : Die) (x : Fin 21), e ≠ d ∨ x ≠ r → t.regClk e.val x.val = s.regClk e.val x.val)
    ∧ (∀ watts : Nat, ∃ t, exec (.modulePowerCheck watts) s = .next t ∧
      let l := s.pwr.limitNow.toNat
      t = { s with pwr := { s.pwr with power := t.pwr.power, rung2 := t.pwr.rung2 } }
      ∧ (watts < 8192 → t.pwr.power.toNat = watts)
      ∧ (l < watts → s.pwr.rung2 < 50 → t.pwr.rung2 = s.pwr.rung2 + 1)
      ∧ (100 * watts < 98 * l → t.pwr.rung2 = s.pwr.rung2 - 1)
      ∧ (watts ≤ l → 98 * l ≤ 100 * watts → t.pwr.rung2 = s.pwr.rung2))
    ∧ (∃ t, exec .pwrBrakeAssert s = .next t
      ∧ t = { s with pins := { s.pins with brakeHigh := false },
                     pwr := { s.pwr with cap6 := t.pwr.cap6, reg := t.pwr.reg } }
      ∧ ∀ d, d < 8 → cap6Of t d = 0 ∧ ∀ r ∈ mappedRegions s d,
        (t.regClk d r).step = (s.regClk d r).step.map fun _ => 0)
    ∧ exec .pwrBrakeRelease s = .next { s with pins := { s.pins with brakeHigh := true } }

/-- A boot runs its checks in order, ends READY, failed or shuttered, and resets keep what Table 17.2 keeps (17_reset_and_boot.md, R490, R491, R492, R493, R494, R495, R496, R499, R500, R501, R502). -/
def Obligations.BootSequence : Prop :=
  ∀ s : State,
    let b := s.boot
    (∀ f : BootFinds, ∃ t, exec (.bootStart f) s = .next t ∧
      let begins := b.held = false ∧ (b.state = 0 ∨ b.state = 4) ∧ b.checked = false
      let fails := fun (code die : Nat) => t.boot.state = 2 ∧ t.boot.why = BitVec.ofNat 8 code
        ∧ t.boot.lastWhy = BitVec.ofNat 8 code ∧ t.boot.whyDetail = BitVec.ofNat 8 die ∧ t.boot.computeOff = true
        ∧ t.boot.checked = false ∧ ∀ l, (t.link l).state = 0
      (¬ begins → t = s)
      ∧ (begins → t.fuse = s.fuse ∧ t.pins = { s.pins with resetHigh := true } ∧
        (3 ≤ b.count.toNat → t.boot.state = 3 ∧ t.boot.computeOff = true ∧ t.boot.count = b.count
          ∧ (t.boot.imageRuns = true ↔ b.imageRuns = true ∨ (chooseImage s).isSome = true))
        ∧ (b.count.toNat < 3 → t.boot.count = b.count + 1
          ∧ (strapsBad (latchStraps s) = true → fails 0x03 0)
          ∧ (strapsBad (latchStraps s) = false →
            (chooseImage s = none → fails 0x02 0)
            ∧ ∀ im, chooseImage s = some im → t.boot.image = im ∧ t.boot.imageRuns = true
              ∧ t.boot.fallback = (im != preferred b)
              ∧ (f.dieFails = some .io → fails 0x07 0)
              ∧ (∀ d, f.dieFails = some (.base d) → fails 0x07 d.val)
              ∧ (f.dieFails ≠ some .io → (∀ d, f.dieFails ≠ some (.base d)) →
                (∀ d, f.d2dDown = some d → fails 0x06 d.val)
                ∧ (∀ d, f.d2dDown = none → d2dDead s = some d → fails 0x06 d)
                ∧ (f.d2dDown = none → d2dDead s = none →
                  (∀ d, positionBad s = some d → fails 0x04 d)
                  ∧ (positionBad s = none →
                    (∀ d, dieShort (deriveMap s) = some d → fails 0x05 d)
                    ∧ (dieShort (deriveMap s) = none →
                      (∀ d, f.dieFails = some (.compute d) → fails 0x07 d.val)
                      ∧ (f.dieFails = none →
                        (∀ d, stackShort (groupsOut (deriveMap s) f) = some d → fails 0x08 d)
                        ∧ (stackShort (groupsOut (deriveMap s) f) = none →
                          (f.fwFault = true → fails 0x09 0)
                          ∧ (f.fwFault = false → t.boot.state = 0 ∧ t.boot.checked = true ∧ t.boot.computeOff = false
                            ∧ t.mem.mappedOut = groupsOut (deriveMap s) f)))))))))))
    ∧ (∃ t, exec .bootReady s = .next t
      ∧ (b.state = 0 ∧ b.checked = true → t = { s with boot := { b with
          state := 1, count := 0, why := 0, whyDetail := 0, checked := false, warmBoot := false } })
      ∧ (¬ (b.state = 0 ∧ b.checked = true) → t = s))
    ∧ (∃ t, exec .bootTimeout s = .next t ∧ (b.state ≠ 0 → t = s)
      ∧ (b.state = 0 → t.boot.state = 2 ∧ t.boot.why = 1 ∧ t.boot.lastWhy = 1 ∧ t.boot.computeOff = true
        ∧ t.mem = s.mem ∧ t.boot.count = b.count ∧ ∀ l, (t.link l).state = 0))
    ∧ (∃ t, exec .bootRetryTimer s = .next t
      ∧ (b.state = 2 → b.warmAsked = none → t = { s with boot := { b with warmAsked := some 4 } })
      ∧ (b.state ≠ 2 ∨ b.warmAsked ≠ none → t = s))
    ∧ (∃ t, exec .smbusWarmReset s = .next t ∧
      let open_ := b.state ≠ 0 ∧ b.state ≠ 4 ∧ b.state ≠ 5 ∧ b.warmAsked = none
      (open_ → t = { s with boot := { b with warmAsked := some 3 } }) ∧ (¬ open_ → t = s))
    ∧ (∃ t, exec .coldReset s = .next t ∧ t.boot.state = 0 ∧ t.boot.cause = (if b.standby then 0 else 1)
      ∧ t.boot.count = b.count ∧ t.boot.why = b.why ∧ t.boot.lastWhy = b.lastWhy ∧ t.boot.hdr0 = b.hdr0 ∧ t.boot.hdr1 = b.hdr1
      ∧ t.boot.computeOff = true ∧ t.fuse = s.fuse ∧ t.pins = { s.pins with resetHigh := false, thermtripHigh := true }
      ∧ t.cl = [] ∧ t.hif.ring = [] ∧ t.hif.job = [] ∧ t.hif.rate = 0 ∧ t.mem.nm = [] ∧ t.mem.hbm = [] ∧ t.gct.count = 0
      ∧ t.pwr.trip = false ∧ t.ldg.entries = [] ∧ t.press.held = none ∧ t.slc.member = false ∧ t.pending = s.pending
      ∧ (b.op = none → t.boot.flash = b.flash) ∧ (b.op = none → s.org.writing = none → t.free = s.free))
    ∧ (∃ t, exec .warmReset s = .next t
      ∧ (b.warmAsked = none ∨ s.org.busy = true ∨ b.held = true → t = s)
      ∧ ∀ c, b.warmAsked = some c → s.org.busy = false → b.held = false → t.boot.state = 4 ∧ t.boot.cause = c
        ∧ t.boot.warmBoot = true ∧ t.boot.warmAsked = none ∧ t.boot.count = b.count ∧ t.boot.flash = b.flash
        ∧ t.fuse = s.fuse ∧ t.pins = s.pins ∧ t.gct.count = s.gct.count ∧ t.pwr.trip = s.pwr.trip
        ∧ t.hif.rate = s.hif.rate ∧ t.hif.job = [] ∧ t.cl = [] ∧ t.press.held = none ∧ t.tl.coord = s.tl.coord
        ∧ t.mem.twEn = s.mem.twEn ∧ t.mem.twJob = s.mem.twJob
        ∧ (Tbl.rising s.hif.ring = true → ∀ r : Ring, (t.ring r.val).state = 0
          ∧ ((s.ring r.val).state = 1 → (t.ring r.val).gen = (s.ring r.val).gen + 1)))
    ∧ ∀ (a : Agent) (v : Word) (i : Instr),
      i = .bootCtlWarm a v ∨ i = .bootCtlClrCount a v ∨ i = .bootCtlSetpref a v ∨ i = .bootCtlRaiseFloor a v →
      ∃ t, exec i s = .next t
        ∧ (a = .fn0 → t = s)
        ∧ (a ≠ .fn0 →
          t = { s with boot := t.boot, fuse := { s.fuse with rollback := t.fuse.rollback } }
          ∧ t.boot = { b with count := if v.getLsbD 1 then 0 else b.count
                              hdr0 := t.boot.hdr0, hdr1 := t.boot.hdr1
                              reject := b.reject || (v.getLsbD 2 && b.busy)
                              warmAsked := if v.getLsbD 0 && b.state != 0 && b.state != 4 && b.state != 5
                                && b.warmAsked.isNone then some 2 else b.warmAsked }
          ∧ preferred t.boot = (if v.getLsbD 2 && !b.busy then v.getLsbD 3 else preferred b)
          ∧ ((v.getLsbD 2 && !b.busy) = false → t.boot.hdr0 = b.hdr0 ∧ t.boot.hdr1 = b.hdr1)
          ∧ hdrCopy b ∈ [t.boot.hdr0, t.boot.hdr1]
          ∧ t.fuse.rollback = if v.getLsbD 4 && b.imageRuns && !b.fallback then
              max s.fuse.rollback (min 64 b.epoch.toNat) else s.fuse.rollback)

/-- Flash accesses, rails, clocks, SMBus alerts and configuration requests (17_reset_and_boot.md, 18_electrical_and_package.md, R491, R494, R495, R500, R505, R510, R512, R515). -/
def Obligations.FlashPinsAndConfiguration : Prop :=
  ∀ s : State,
    let b := s.boot
    (∀ (a : Agent) (v : Word),
      let n := b.addr.toNat
      (a = .fn0 → exec (.bootFlashProgram a v) s = .next s ∧ exec (.bootFlashErase a v) s = .next s
        ∧ ∃ t, exec (.bootFlashDataRead a) s = .next t ∧ t = { s with rdata := t.rdata }
          ∧ Tbl.get 0 t.rdata (agNum a) = 0)
      ∧ (a ≠ .fn0 →
        (∃ t, exec (.bootFlashProgram a v) s = .next t ∧ t = { s with boot := t.boot }
          ∧ (b.busy = true ∨ flashOpen s n = false → t.boot = { b with reject := true })
          ∧ (b.busy = false → flashOpen s n = true →
            t.boot = { b with busy := true, op := some (n, some v), addr := b.addr + 4 }))
        ∧ (∃ t, exec (.bootFlashErase a v) s = .next t ∧ t = { s with boot := t.boot } ∧
          let j := b.reject && !v.getLsbD 2
          let m := n / 65536 * 65536
          (v.getLsbD 0 = false → t.boot = { b with reject := j })
          ∧ (v.getLsbD 0 = true → b.busy = true ∨ flashOpen s m = false → t.boot = { b with reject := true })
          ∧ (v.getLsbD 0 = true → b.busy = false → flashOpen s m = true →
            t.boot = { b with reject := j, busy := true, op := some (m, none) }))
        ∧ ∃ t, exec (.bootFlashDataRead a) s = .next t
          ∧ (b.busy = true → t = { s with rdata := t.rdata } ∧ Tbl.get 0 t.rdata (agNum a) = 0xFFFFFFFF)
          ∧ (b.busy = false →
            t = { s with rdata := t.rdata, boot := { b with addr := b.addr + 4 }, free := t.free }
            ∧ (keyBlock ≤ n → Tbl.get 0 t.rdata (agNum a) = BitVec.ofNat 64 (leNat (flashBytes s n 4)) ∧ t.free = s.free))))
    ∧ (∃ t, exec .flashOpComplete s = .next t
      ∧ (b.op = none → t = s)
      ∧ ∀ n w, b.op = some (n, w) → t = { s with boot := { b with busy := false, op := none, flash := t.boot.flash } }
        ∧ (∀ v, w = some v →
          (∀ i : Fin 4, Tbl.get 0xFF t.boot.flash (n + i.val)
            = Tbl.get 0xFF b.flash (n + i.val) &&& v.extractLsb' (8 * i.val) 8)
          ∧ ∀ x, x < n ∨ n + 4 ≤ x → Tbl.get 0xFF t.boot.flash x = Tbl.get 0xFF b.flash x)
        ∧ (w = none → (∀ x, n ≤ x → x < n + 65536 → Tbl.get 0xFF t.boot.flash x = 0xFF)
          ∧ ∀ x, x < n ∨ n + 65536 ≤ x → Tbl.get 0xFF t.boot.flash x = Tbl.get 0xFF b.flash x))
    ∧ exec .vstbyLoss s = .next { s with boot := { b with
        count := 0, why := 0, whyDetail := 0, cause := 0, lastWhy := 0, standby := true } }
    ∧ (∀ rail : Fin 24,
      let bit := s.pins.railsLow.getLsbD rail.val
      (∃ t, exec (.railUndervoltage rail) s = .next t ∧ (rail.val = 0 → t = s)
        ∧ (rail.val ≠ 0 → t.boot.held = true ∧ t.boot.state = 0 ∧ t.pins.railsLow.getLsbD rail.val = true
          ∧ t.boot.cause = (if b.standby then 0 else 1) ∧ t.fuse = s.fuse ∧ t.cl = [] ∧ t.hif.ring = []
          ∧ ∀ o : Fin 24, o ≠ rail → t.pins.railsLow.getLsbD o.val = s.pins.railsLow.getLsbD o.val))
      ∧ ∃ t, exec (.railReturn rail) s = .next t ∧ (bit = false → t = s)
        ∧ (bit = true → t.pins.railsLow.getLsbD rail.val = false ∧ t.boot.state = 0
          ∧ (t.boot.held = false ↔ t.pins.railsLow = 0 ∧ s.pins.refclk = true)
          ∧ t.boot.cause = (if b.standby then 0 else 1)
          ∧ ∀ o : Fin 24, o ≠ rail → t.pins.railsLow.getLsbD o.val = s.pins.railsLow.getLsbD o.val))
    ∧ (∃ t, exec .refclkLoss s = .next t ∧ t.boot.held = true ∧ t.boot.state = 0 ∧ t.pins.refclk = false
      ∧ t.pins.railsLow = s.pins.railsLow ∧ t.cl = [] ∧ t.hif.ring = [] ∧ t.fuse = s.fuse)
    ∧ (∃ t, exec .refclkReturn s = .next t ∧ (s.pins.refclk = true → t = s)
      ∧ (s.pins.refclk = false → t.pins.refclk = true ∧ t.boot.state = 0
        ∧ (t.boot.held = false ↔ s.pins.railsLow = 0)))
    ∧ (∃ t, exec .smbusAlertResponse s = .next t
      ∧ (b.state = 2 ∨ b.state = 3 ∨ b.state = 5 → t = s.emit (.smbusAddr (0x38 + s.pins.smbAddr.setWidth 7)))
      ∧ (b.state ≠ 2 → b.state ≠ 3 → b.state ≠ 5 → t = s))
    ∧ ∃ t, exec .configurationRequest s = .next t
      ∧ (s.hif.rate = 0 → t = s)
      ∧ (s.hif.rate ≠ 0 → b.state = 1 ∨ b.state = 3 ∨ b.state = 5 → t = s.emit .configDone)
      ∧ (s.hif.rate ≠ 0 → b.state ≠ 1 → b.state ≠ 3 → b.state ≠ 5 → t = s.emit .retryStatus)

/-- After reset the module boots, the PCIe link is down, nothing runs, and the rollback field holds at most 64 (17_reset_and_boot.md, 01_organisation.md, 13_integrity_and_recovery.md, 14_host_interface_and_commands.md, 16_power_and_thermal.md). -/
def Obligations.ResetHoldsWhatTheSpecGives : Prop :=
  let t := State.reset
  t.boot.state = 0 ∧ t.boot.count = 0 ∧ t.boot.computeOff = true ∧ t.gct.count = 0 ∧ t.ldg.entries = [] ∧ t.hif.rate = 0
    ∧ (∀ r : Ring, (t.ring r.val).state = 0 ∧ (t.ring r.val).running = none)
    ∧ (∀ w : Fin 16, (t.jobAt w.val).running = false) ∧ t.pending = [] ∧ t.out = []
    ∧ t.pwr.limit = 5400 ∧ t.pwr.starve = 100 ∧ (∀ d, chitOf t d = 4200 ∧ dieLimitOf t d = 420)
    ∧ t.fuse.rollback ≤ 64

/-- No step changes a fuse, but that the rollback field may rise, and it never holds more than 64 (17_reset_and_boot.md, R498, R500, R502, R504). -/
def Obligations.EveryStepKeepsTheFuses : Prop :=
  ∀ s t : State, step s = .next t →
    t.fuse = { s.fuse with rollback := t.fuse.rollback } ∧ s.fuse.rollback ≤ t.fuse.rollback
      ∧ (s.fuse.rollback ≤ 64 → t.fuse.rollback ≤ 64) ∧ t.pending = s.pending.drop 1
end

