-- ==== Sys2Proof/Laws/Tbl.lean ====
section
/-!
SUPPORT. The laws of a table: what a read gives after a write, that a write leaves every other key alone, and that
every operation keeps the canonical form.
-/
namespace Sys2Proof

theorem Tbl.get_put_same {α : Type} (d : α) (t : Tbl α) (k : Nat) (v : α) :
    Tbl.get d (Tbl.put t k v) k = v := by
  induction t with
  | nil => simp [Tbl.put, Tbl.get]
  | cons e t ih =>
    obtain ⟨j, w⟩ := e
    simp only [Tbl.put]
    split
    · simp [Tbl.get]
    · split <;> simp_all [Tbl.get]

theorem Tbl.get_put_other {α : Type} (d : α) (t : Tbl α) (k i : Nat) (v : α) (h : i ≠ k) :
    Tbl.get d (Tbl.put t k v) i = Tbl.get d t i := by
  induction t with
  | nil => simp [Tbl.put, Tbl.get, Ne.symm h]
  | cons e t ih =>
    obtain ⟨j, w⟩ := e
    simp only [Tbl.put]
    split
    · simp [Tbl.get, Ne.symm h]
    · split
      · subst_vars; simp [Tbl.get, Ne.symm h]
      · simp [Tbl.get, ih]

theorem Tbl.get_erase_same {α : Type} (d : α) (t : Tbl α) (k : Nat) : Tbl.get d (Tbl.erase t k) k = d := by
  induction t with
  | nil => rfl
  | cons e t ih =>
    obtain ⟨j, w⟩ := e
    simp only [Tbl.erase]
    split <;> simp_all [Tbl.get]

theorem Tbl.get_erase_other {α : Type} (d : α) (t : Tbl α) (k i : Nat) (h : i ≠ k) :
    Tbl.get d (Tbl.erase t k) i = Tbl.get d t i := by
  induction t with
  | nil => rfl
  | cons e t ih =>
    obtain ⟨j, w⟩ := e
    simp only [Tbl.erase]
    split
    · subst_vars; simp [Tbl.get, Ne.symm h, ih]
    · simp [Tbl.get, ih]

/-- A read after a write of the same key gives what was written. -/
@[simp] theorem Tbl.get_set_same {α : Type} [DecidableEq α] (d : α) (t : Tbl α) (k : Nat) (v : α) :
    Tbl.get d (Tbl.set d t k v) k = v := by
  unfold Tbl.set
  split
  · simp_all [Tbl.get_erase_same]
  · simp [Tbl.get_put_same]

/-- A write leaves every other key alone. -/
@[simp] theorem Tbl.get_set_other {α : Type} [DecidableEq α] (d : α) (t : Tbl α) (k i : Nat) (v : α) (h : i ≠ k) :
    Tbl.get d (Tbl.set d t k v) i = Tbl.get d t i := by
  unfold Tbl.set
  split
  · exact Tbl.get_erase_other d t k i h
  · exact Tbl.get_put_other d t k i v h

/-- Every key of a rising list past its first lies above the first. -/
theorem Tbl.rising_head {α : Type} (j : Nat) (w : α) (t : Tbl α) (h : Tbl.rising ((j, w) :: t) = true) :
    (∀ e ∈ t, j < e.1) ∧ Tbl.rising t = true := by
  induction t generalizing j w with
  | nil => simp [Tbl.rising]
  | cons e t ih =>
    obtain ⟨k, x⟩ := e
    simp only [Tbl.rising, Bool.and_eq_true, decide_eq_true_eq] at h
    obtain ⟨h1, h2⟩ := ih k x h.2
    refine ⟨?_, h.2⟩
    intro e he
    rcases List.mem_cons.1 he with rfl | he
    · exact h.1
    · exact Nat.lt_trans h.1 (h1 e he)

/-- A list is rising when its first key lies below the others and the rest is rising. -/
theorem Tbl.rising_cons {α : Type} (j : Nat) (w : α) (t : Tbl α) (h : ∀ e ∈ t, j < e.1) (r : Tbl.rising t = true) :
    Tbl.rising ((j, w) :: t) = true := by
  cases t with
  | nil => rfl
  | cons e t =>
    obtain ⟨k, x⟩ := e
    simp only [Tbl.rising, Bool.and_eq_true, decide_eq_true_eq]
    exact ⟨h (k, x) (by simp), r⟩

theorem Tbl.mem_erase {α : Type} (t : Tbl α) (k : Nat) (e : Nat × α) (h : e ∈ Tbl.erase t k) : e ∈ t := by
  induction t with
  | nil => exact h
  | cons f t ih =>
    obtain ⟨j, w⟩ := f
    simp only [Tbl.erase] at h
    split at h
    · exact List.mem_cons_of_mem _ (ih h)
    · rcases List.mem_cons.1 h with rfl | h
      · simp
      · exact List.mem_cons_of_mem _ (ih h)

theorem Tbl.mem_put {α : Type} (t : Tbl α) (k : Nat) (v : α) (e : Nat × α) (h : e ∈ Tbl.put t k v) :
    e = (k, v) ∨ e ∈ t := by
  induction t with
  | nil => simpa [Tbl.put] using h
  | cons f t ih =>
    obtain ⟨j, w⟩ := f
    simp only [Tbl.put] at h
    split at h
    · rcases List.mem_cons.1 h with rfl | h
      · exact .inl rfl
      · exact .inr h
    · split at h
      · rcases List.mem_cons.1 h with rfl | h
        · exact .inl rfl
        · exact .inr (List.mem_cons_of_mem _ h)
      · rcases List.mem_cons.1 h with rfl | h
        · exact .inr (by simp)
        · rcases ih h with h | h
          · exact .inl h
          · exact .inr (List.mem_cons_of_mem _ h)

theorem Tbl.rising_erase {α : Type} (t : Tbl α) (k : Nat) (h : Tbl.rising t = true) :
    Tbl.rising (Tbl.erase t k) = true := by
  induction t with
  | nil => rfl
  | cons f t ih =>
    obtain ⟨j, w⟩ := f
    obtain ⟨h1, h2⟩ := Tbl.rising_head j w t h
    simp only [Tbl.erase]
    split
    · exact ih h2
    · exact Tbl.rising_cons j w _ (fun e he => h1 e (Tbl.mem_erase t k e he)) (ih h2)

theorem Tbl.rising_put {α : Type} (t : Tbl α) (k : Nat) (v : α) (h : Tbl.rising t = true) :
    Tbl.rising (Tbl.put t k v) = true := by
  induction t with
  | nil => rfl
  | cons f t ih =>
    obtain ⟨j, w⟩ := f
    obtain ⟨h1, h2⟩ := Tbl.rising_head j w t h
    simp only [Tbl.put]
    split
    · rename_i hk
      refine Tbl.rising_cons k v _ ?_ h
      intro e he
      rcases List.mem_cons.1 he with rfl | he
      · exact hk
      · exact Nat.lt_trans hk (h1 e he)
    · split
      · subst_vars; exact Tbl.rising_cons _ v t h1 h2
      · refine Tbl.rising_cons j w _ ?_ (ih h2)
        intro e he
        rcases Tbl.mem_put t k v e he with rfl | he
        · simp only; omega
        · exact h1 e he

/-- A write keeps the canonical form. -/
theorem Tbl.wf_set {α : Type} [DecidableEq α] (d : α) (t : Tbl α) (k : Nat) (v : α) (h : Tbl.wf d t = true) :
    Tbl.wf d (Tbl.set d t k v) = true := by
  simp only [Tbl.wf, Bool.and_eq_true, List.all_eq_true, decide_eq_true_eq] at h ⊢
  unfold Tbl.set
  split
  · exact ⟨Tbl.rising_erase t k h.1, fun e he => h.2 e (Tbl.mem_erase t k e he)⟩
  · refine ⟨Tbl.rising_put t k v h.1, fun e he => ?_⟩
    rcases Tbl.mem_put t k v e he with rfl | he
    · assumption
    · exact h.2 e he

end Sys2Proof
end

