-- ==== Sys2Proof/Laws/State.lean ====
section
/-!
SUPPORT. What each update of one part of the state leaves: one lemma for each field, so that no later proof unfolds
a record update.
-/
namespace Sys2Proof.Machine
open Sys2Proof

/-! ### `irqEvent` changes the latches alone -/

@[simp] theorem irqEvent_fuse (s : State) (n : Nat) : (irqEvent s n).fuse = s.fuse := by
  unfold irqEvent; split <;> rfl
@[simp] theorem irqEvent_pins (s : State) (n : Nat) : (irqEvent s n).pins = s.pins := by
  unfold irqEvent; split <;> rfl
@[simp] theorem irqEvent_org (s : State) (n : Nat) : (irqEvent s n).org = s.org := by
  unfold irqEvent; split <;> rfl
@[simp] theorem irqEvent_d2d (s : State) (n : Nat) : (irqEvent s n).d2d = s.d2d := by
  unfold irqEvent; split <;> rfl
@[simp] theorem irqEvent_cl (s : State) (n : Nat) : (irqEvent s n).cl = s.cl := by
  unfold irqEvent; split <;> rfl
@[simp] theorem irqEvent_mem (s : State) (n : Nat) : (irqEvent s n).mem = s.mem := by
  unfold irqEvent; split <;> rfl
@[simp] theorem irqEvent_tl (s : State) (n : Nat) : (irqEvent s n).tl = s.tl := by
  unfold irqEvent; split <;> rfl
@[simp] theorem irqEvent_slc (s : State) (n : Nat) : (irqEvent s n).slc = s.slc := by
  unfold irqEvent; split <;> rfl
@[simp] theorem irqEvent_coll (s : State) (n : Nat) : (irqEvent s n).coll = s.coll := by
  unfold irqEvent; split <;> rfl
@[simp] theorem irqEvent_press (s : State) (n : Nat) : (irqEvent s n).press = s.press := by
  unfold irqEvent; split <;> rfl
@[simp] theorem irqEvent_mgl (s : State) (n : Nat) : (irqEvent s n).mgl = s.mgl := by
  unfold irqEvent; split <;> rfl
@[simp] theorem irqEvent_gct (s : State) (n : Nat) : (irqEvent s n).gct = s.gct := by
  unfold irqEvent; split <;> rfl
@[simp] theorem irqEvent_regLdg (s : State) (n : Nat) : (irqEvent s n).regLdg = s.regLdg := by
  unfold irqEvent; split <;> rfl
@[simp] theorem irqEvent_fwdNext (s : State) (n : Nat) : (irqEvent s n).fwdNext = s.fwdNext := by
  unfold irqEvent; split <;> rfl
@[simp] theorem irqEvent_ldg (s : State) (n : Nat) : (irqEvent s n).ldg = s.ldg := by
  unfold irqEvent; split <;> rfl
@[simp] theorem irqEvent_guard (s : State) (n : Nat) : (irqEvent s n).guard = s.guard := by
  unfold irqEvent; split <;> rfl
@[simp] theorem irqEvent_hif (s : State) (n : Nat) : (irqEvent s n).hif = s.hif := by
  unfold irqEvent; split <;> rfl
@[simp] theorem irqEvent_pwr (s : State) (n : Nat) : (irqEvent s n).pwr = s.pwr := by
  unfold irqEvent; split <;> rfl
@[simp] theorem irqEvent_boot (s : State) (n : Nat) : (irqEvent s n).boot = s.boot := by
  unfold irqEvent; split <;> rfl
@[simp] theorem irqEvent_snap (s : State) (n : Nat) : (irqEvent s n).snap = s.snap := by
  unfold irqEvent; split <;> rfl
@[simp] theorem irqEvent_heldLo (s : State) (n : Nat) : (irqEvent s n).heldLo = s.heldLo := by
  unfold irqEvent; split <;> rfl
@[simp] theorem irqEvent_rdata (s : State) (n : Nat) : (irqEvent s n).rdata = s.rdata := by
  unfold irqEvent; split <;> rfl
@[simp] theorem irqEvent_out (s : State) (n : Nat) : (irqEvent s n).out = s.out := by
  unfold irqEvent; split <;> rfl
@[simp] theorem irqEvent_free (s : State) (n : Nat) : (irqEvent s n).free = s.free := by
  unfold irqEvent; split <;> rfl
@[simp] theorem irqEvent_pending (s : State) (n : Nat) : (irqEvent s n).pending = s.pending := by
  unfold irqEvent; split <;> rfl

/-! ### `State.updClu` -/

@[simp] theorem State.updClu_fuse (s : State) (q : Nat) (f : Cluster → Cluster) : (s.updClu q f).fuse = s.fuse := rfl
@[simp] theorem State.updClu_pins (s : State) (q : Nat) (f : Cluster → Cluster) : (s.updClu q f).pins = s.pins := rfl
@[simp] theorem State.updClu_org (s : State) (q : Nat) (f : Cluster → Cluster) : (s.updClu q f).org = s.org := rfl
@[simp] theorem State.updClu_d2d (s : State) (q : Nat) (f : Cluster → Cluster) : (s.updClu q f).d2d = s.d2d := rfl
@[simp] theorem State.updClu_mem (s : State) (q : Nat) (f : Cluster → Cluster) : (s.updClu q f).mem = s.mem := rfl
@[simp] theorem State.updClu_tl (s : State) (q : Nat) (f : Cluster → Cluster) : (s.updClu q f).tl = s.tl := rfl
@[simp] theorem State.updClu_slc (s : State) (q : Nat) (f : Cluster → Cluster) : (s.updClu q f).slc = s.slc := rfl
@[simp] theorem State.updClu_coll (s : State) (q : Nat) (f : Cluster → Cluster) : (s.updClu q f).coll = s.coll := rfl
@[simp] theorem State.updClu_press (s : State) (q : Nat) (f : Cluster → Cluster) : (s.updClu q f).press = s.press := rfl
@[simp] theorem State.updClu_mgl (s : State) (q : Nat) (f : Cluster → Cluster) : (s.updClu q f).mgl = s.mgl := rfl
@[simp] theorem State.updClu_gct (s : State) (q : Nat) (f : Cluster → Cluster) : (s.updClu q f).gct = s.gct := rfl
@[simp] theorem State.updClu_regLdg (s : State) (q : Nat) (f : Cluster → Cluster) : (s.updClu q f).regLdg = s.regLdg := rfl
@[simp] theorem State.updClu_fwdNext (s : State) (q : Nat) (f : Cluster → Cluster) : (s.updClu q f).fwdNext = s.fwdNext := rfl
@[simp] theorem State.updClu_ldg (s : State) (q : Nat) (f : Cluster → Cluster) : (s.updClu q f).ldg = s.ldg := rfl
@[simp] theorem State.updClu_guard (s : State) (q : Nat) (f : Cluster → Cluster) : (s.updClu q f).guard = s.guard := rfl
@[simp] theorem State.updClu_hif (s : State) (q : Nat) (f : Cluster → Cluster) : (s.updClu q f).hif = s.hif := rfl
@[simp] theorem State.updClu_irq (s : State) (q : Nat) (f : Cluster → Cluster) : (s.updClu q f).irq = s.irq := rfl
@[simp] theorem State.updClu_pwr (s : State) (q : Nat) (f : Cluster → Cluster) : (s.updClu q f).pwr = s.pwr := rfl
@[simp] theorem State.updClu_boot (s : State) (q : Nat) (f : Cluster → Cluster) : (s.updClu q f).boot = s.boot := rfl
@[simp] theorem State.updClu_snap (s : State) (q : Nat) (f : Cluster → Cluster) : (s.updClu q f).snap = s.snap := rfl
@[simp] theorem State.updClu_heldLo (s : State) (q : Nat) (f : Cluster → Cluster) : (s.updClu q f).heldLo = s.heldLo := rfl
@[simp] theorem State.updClu_rdata (s : State) (q : Nat) (f : Cluster → Cluster) : (s.updClu q f).rdata = s.rdata := rfl
@[simp] theorem State.updClu_out (s : State) (q : Nat) (f : Cluster → Cluster) : (s.updClu q f).out = s.out := rfl
@[simp] theorem State.updClu_free (s : State) (q : Nat) (f : Cluster → Cluster) : (s.updClu q f).free = s.free := rfl
@[simp] theorem State.updClu_pending (s : State) (q : Nat) (f : Cluster → Cluster) : (s.updClu q f).pending = s.pending := rfl

/-! ### `State.updCoreOf` -/

@[simp] theorem State.updCoreOf_fuse (s : State) (q c : Nat) (f : CoreSt → CoreSt) : (s.updCoreOf q c f).fuse = s.fuse := rfl
@[simp] theorem State.updCoreOf_pins (s : State) (q c : Nat) (f : CoreSt → CoreSt) : (s.updCoreOf q c f).pins = s.pins := rfl
@[simp] theorem State.updCoreOf_org (s : State) (q c : Nat) (f : CoreSt → CoreSt) : (s.updCoreOf q c f).org = s.org := rfl
@[simp] theorem State.updCoreOf_d2d (s : State) (q c : Nat) (f : CoreSt → CoreSt) : (s.updCoreOf q c f).d2d = s.d2d := rfl
@[simp] theorem State.updCoreOf_mem (s : State) (q c : Nat) (f : CoreSt → CoreSt) : (s.updCoreOf q c f).mem = s.mem := rfl
@[simp] theorem State.updCoreOf_tl (s : State) (q c : Nat) (f : CoreSt → CoreSt) : (s.updCoreOf q c f).tl = s.tl := rfl
@[simp] theorem State.updCoreOf_slc (s : State) (q c : Nat) (f : CoreSt → CoreSt) : (s.updCoreOf q c f).slc = s.slc := rfl
@[simp] theorem State.updCoreOf_coll (s : State) (q c : Nat) (f : CoreSt → CoreSt) : (s.updCoreOf q c f).coll = s.coll := rfl
@[simp] theorem State.updCoreOf_press (s : State) (q c : Nat) (f : CoreSt → CoreSt) : (s.updCoreOf q c f).press = s.press := rfl
@[simp] theorem State.updCoreOf_mgl (s : State) (q c : Nat) (f : CoreSt → CoreSt) : (s.updCoreOf q c f).mgl = s.mgl := rfl
@[simp] theorem State.updCoreOf_gct (s : State) (q c : Nat) (f : CoreSt → CoreSt) : (s.updCoreOf q c f).gct = s.gct := rfl
@[simp] theorem State.updCoreOf_regLdg (s : State) (q c : Nat) (f : CoreSt → CoreSt) : (s.updCoreOf q c f).regLdg = s.regLdg := rfl
@[simp] theorem State.updCoreOf_fwdNext (s : State) (q c : Nat) (f : CoreSt → CoreSt) : (s.updCoreOf q c f).fwdNext = s.fwdNext := rfl
@[simp] theorem State.updCoreOf_ldg (s : State) (q c : Nat) (f : CoreSt → CoreSt) : (s.updCoreOf q c f).ldg = s.ldg := rfl
@[simp] theorem State.updCoreOf_guard (s : State) (q c : Nat) (f : CoreSt → CoreSt) : (s.updCoreOf q c f).guard = s.guard := rfl
@[simp] theorem State.updCoreOf_hif (s : State) (q c : Nat) (f : CoreSt → CoreSt) : (s.updCoreOf q c f).hif = s.hif := rfl
@[simp] theorem State.updCoreOf_irq (s : State) (q c : Nat) (f : CoreSt → CoreSt) : (s.updCoreOf q c f).irq = s.irq := rfl
@[simp] theorem State.updCoreOf_pwr (s : State) (q c : Nat) (f : CoreSt → CoreSt) : (s.updCoreOf q c f).pwr = s.pwr := rfl
@[simp] theorem State.updCoreOf_boot (s : State) (q c : Nat) (f : CoreSt → CoreSt) : (s.updCoreOf q c f).boot = s.boot := rfl
@[simp] theorem State.updCoreOf_snap (s : State) (q c : Nat) (f : CoreSt → CoreSt) : (s.updCoreOf q c f).snap = s.snap := rfl
@[simp] theorem State.updCoreOf_heldLo (s : State) (q c : Nat) (f : CoreSt → CoreSt) : (s.updCoreOf q c f).heldLo = s.heldLo := rfl
@[simp] theorem State.updCoreOf_rdata (s : State) (q c : Nat) (f : CoreSt → CoreSt) : (s.updCoreOf q c f).rdata = s.rdata := rfl
@[simp] theorem State.updCoreOf_out (s : State) (q c : Nat) (f : CoreSt → CoreSt) : (s.updCoreOf q c f).out = s.out := rfl
@[simp] theorem State.updCoreOf_free (s : State) (q c : Nat) (f : CoreSt → CoreSt) : (s.updCoreOf q c f).free = s.free := rfl
@[simp] theorem State.updCoreOf_pending (s : State) (q c : Nat) (f : CoreSt → CoreSt) : (s.updCoreOf q c f).pending = s.pending := rfl

/-! ### `State.updDieMem` -/

@[simp] theorem State.updDieMem_fuse (s : State) (d : Nat) (f : DieMem → DieMem) : (s.updDieMem d f).fuse = s.fuse := rfl
@[simp] theorem State.updDieMem_pins (s : State) (d : Nat) (f : DieMem → DieMem) : (s.updDieMem d f).pins = s.pins := rfl
@[simp] theorem State.updDieMem_org (s : State) (d : Nat) (f : DieMem → DieMem) : (s.updDieMem d f).org = s.org := rfl
@[simp] theorem State.updDieMem_d2d (s : State) (d : Nat) (f : DieMem → DieMem) : (s.updDieMem d f).d2d = s.d2d := rfl
@[simp] theorem State.updDieMem_cl (s : State) (d : Nat) (f : DieMem → DieMem) : (s.updDieMem d f).cl = s.cl := rfl
@[simp] theorem State.updDieMem_tl (s : State) (d : Nat) (f : DieMem → DieMem) : (s.updDieMem d f).tl = s.tl := rfl
@[simp] theorem State.updDieMem_slc (s : State) (d : Nat) (f : DieMem → DieMem) : (s.updDieMem d f).slc = s.slc := rfl
@[simp] theorem State.updDieMem_coll (s : State) (d : Nat) (f : DieMem → DieMem) : (s.updDieMem d f).coll = s.coll := rfl
@[simp] theorem State.updDieMem_press (s : State) (d : Nat) (f : DieMem → DieMem) : (s.updDieMem d f).press = s.press := rfl
@[simp] theorem State.updDieMem_mgl (s : State) (d : Nat) (f : DieMem → DieMem) : (s.updDieMem d f).mgl = s.mgl := rfl
@[simp] theorem State.updDieMem_gct (s : State) (d : Nat) (f : DieMem → DieMem) : (s.updDieMem d f).gct = s.gct := rfl
@[simp] theorem State.updDieMem_regLdg (s : State) (d : Nat) (f : DieMem → DieMem) : (s.updDieMem d f).regLdg = s.regLdg := rfl
@[simp] theorem State.updDieMem_fwdNext (s : State) (d : Nat) (f : DieMem → DieMem) : (s.updDieMem d f).fwdNext = s.fwdNext := rfl
@[simp] theorem State.updDieMem_ldg (s : State) (d : Nat) (f : DieMem → DieMem) : (s.updDieMem d f).ldg = s.ldg := rfl
@[simp] theorem State.updDieMem_guard (s : State) (d : Nat) (f : DieMem → DieMem) : (s.updDieMem d f).guard = s.guard := rfl
@[simp] theorem State.updDieMem_hif (s : State) (d : Nat) (f : DieMem → DieMem) : (s.updDieMem d f).hif = s.hif := rfl
@[simp] theorem State.updDieMem_irq (s : State) (d : Nat) (f : DieMem → DieMem) : (s.updDieMem d f).irq = s.irq := rfl
@[simp] theorem State.updDieMem_pwr (s : State) (d : Nat) (f : DieMem → DieMem) : (s.updDieMem d f).pwr = s.pwr := rfl
@[simp] theorem State.updDieMem_boot (s : State) (d : Nat) (f : DieMem → DieMem) : (s.updDieMem d f).boot = s.boot := rfl
@[simp] theorem State.updDieMem_snap (s : State) (d : Nat) (f : DieMem → DieMem) : (s.updDieMem d f).snap = s.snap := rfl
@[simp] theorem State.updDieMem_heldLo (s : State) (d : Nat) (f : DieMem → DieMem) : (s.updDieMem d f).heldLo = s.heldLo := rfl
@[simp] theorem State.updDieMem_rdata (s : State) (d : Nat) (f : DieMem → DieMem) : (s.updDieMem d f).rdata = s.rdata := rfl
@[simp] theorem State.updDieMem_out (s : State) (d : Nat) (f : DieMem → DieMem) : (s.updDieMem d f).out = s.out := rfl
@[simp] theorem State.updDieMem_free (s : State) (d : Nat) (f : DieMem → DieMem) : (s.updDieMem d f).free = s.free := rfl
@[simp] theorem State.updDieMem_pending (s : State) (d : Nat) (f : DieMem → DieMem) : (s.updDieMem d f).pending = s.pending := rfl

/-! ### `State.updRing` -/

@[simp] theorem State.updRing_fuse (s : State) (r : Nat) (f : RingSt → RingSt) : (s.updRing r f).fuse = s.fuse := rfl
@[simp] theorem State.updRing_pins (s : State) (r : Nat) (f : RingSt → RingSt) : (s.updRing r f).pins = s.pins := rfl
@[simp] theorem State.updRing_org (s : State) (r : Nat) (f : RingSt → RingSt) : (s.updRing r f).org = s.org := rfl
@[simp] theorem State.updRing_d2d (s : State) (r : Nat) (f : RingSt → RingSt) : (s.updRing r f).d2d = s.d2d := rfl
@[simp] theorem State.updRing_cl (s : State) (r : Nat) (f : RingSt → RingSt) : (s.updRing r f).cl = s.cl := rfl
@[simp] theorem State.updRing_mem (s : State) (r : Nat) (f : RingSt → RingSt) : (s.updRing r f).mem = s.mem := rfl
@[simp] theorem State.updRing_tl (s : State) (r : Nat) (f : RingSt → RingSt) : (s.updRing r f).tl = s.tl := rfl
@[simp] theorem State.updRing_slc (s : State) (r : Nat) (f : RingSt → RingSt) : (s.updRing r f).slc = s.slc := rfl
@[simp] theorem State.updRing_coll (s : State) (r : Nat) (f : RingSt → RingSt) : (s.updRing r f).coll = s.coll := rfl
@[simp] theorem State.updRing_press (s : State) (r : Nat) (f : RingSt → RingSt) : (s.updRing r f).press = s.press := rfl
@[simp] theorem State.updRing_mgl (s : State) (r : Nat) (f : RingSt → RingSt) : (s.updRing r f).mgl = s.mgl := rfl
@[simp] theorem State.updRing_gct (s : State) (r : Nat) (f : RingSt → RingSt) : (s.updRing r f).gct = s.gct := rfl
@[simp] theorem State.updRing_regLdg (s : State) (r : Nat) (f : RingSt → RingSt) : (s.updRing r f).regLdg = s.regLdg := rfl
@[simp] theorem State.updRing_fwdNext (s : State) (r : Nat) (f : RingSt → RingSt) : (s.updRing r f).fwdNext = s.fwdNext := rfl
@[simp] theorem State.updRing_ldg (s : State) (r : Nat) (f : RingSt → RingSt) : (s.updRing r f).ldg = s.ldg := rfl
@[simp] theorem State.updRing_guard (s : State) (r : Nat) (f : RingSt → RingSt) : (s.updRing r f).guard = s.guard := rfl
@[simp] theorem State.updRing_irq (s : State) (r : Nat) (f : RingSt → RingSt) : (s.updRing r f).irq = s.irq := rfl
@[simp] theorem State.updRing_pwr (s : State) (r : Nat) (f : RingSt → RingSt) : (s.updRing r f).pwr = s.pwr := rfl
@[simp] theorem State.updRing_boot (s : State) (r : Nat) (f : RingSt → RingSt) : (s.updRing r f).boot = s.boot := rfl
@[simp] theorem State.updRing_snap (s : State) (r : Nat) (f : RingSt → RingSt) : (s.updRing r f).snap = s.snap := rfl
@[simp] theorem State.updRing_heldLo (s : State) (r : Nat) (f : RingSt → RingSt) : (s.updRing r f).heldLo = s.heldLo := rfl
@[simp] theorem State.updRing_rdata (s : State) (r : Nat) (f : RingSt → RingSt) : (s.updRing r f).rdata = s.rdata := rfl
@[simp] theorem State.updRing_out (s : State) (r : Nat) (f : RingSt → RingSt) : (s.updRing r f).out = s.out := rfl
@[simp] theorem State.updRing_free (s : State) (r : Nat) (f : RingSt → RingSt) : (s.updRing r f).free = s.free := rfl
@[simp] theorem State.updRing_pending (s : State) (r : Nat) (f : RingSt → RingSt) : (s.updRing r f).pending = s.pending := rfl

/-! ### `State.updJob` -/

@[simp] theorem State.updJob_fuse (s : State) (w : Nat) (f : Job → Job) : (s.updJob w f).fuse = s.fuse := rfl
@[simp] theorem State.updJob_pins (s : State) (w : Nat) (f : Job → Job) : (s.updJob w f).pins = s.pins := rfl
@[simp] theorem State.updJob_org (s : State) (w : Nat) (f : Job → Job) : (s.updJob w f).org = s.org := rfl
@[simp] theorem State.updJob_d2d (s : State) (w : Nat) (f : Job → Job) : (s.updJob w f).d2d = s.d2d := rfl
@[simp] theorem State.updJob_cl (s : State) (w : Nat) (f : Job → Job) : (s.updJob w f).cl = s.cl := rfl
@[simp] theorem State.updJob_mem (s : State) (w : Nat) (f : Job → Job) : (s.updJob w f).mem = s.mem := rfl
@[simp] theorem State.updJob_tl (s : State) (w : Nat) (f : Job → Job) : (s.updJob w f).tl = s.tl := rfl
@[simp] theorem State.updJob_slc (s : State) (w : Nat) (f : Job → Job) : (s.updJob w f).slc = s.slc := rfl
@[simp] theorem State.updJob_coll (s : State) (w : Nat) (f : Job → Job) : (s.updJob w f).coll = s.coll := rfl
@[simp] theorem State.updJob_press (s : State) (w : Nat) (f : Job → Job) : (s.updJob w f).press = s.press := rfl
@[simp] theorem State.updJob_mgl (s : State) (w : Nat) (f : Job → Job) : (s.updJob w f).mgl = s.mgl := rfl
@[simp] theorem State.updJob_gct (s : State) (w : Nat) (f : Job → Job) : (s.updJob w f).gct = s.gct := rfl
@[simp] theorem State.updJob_regLdg (s : State) (w : Nat) (f : Job → Job) : (s.updJob w f).regLdg = s.regLdg := rfl
@[simp] theorem State.updJob_fwdNext (s : State) (w : Nat) (f : Job → Job) : (s.updJob w f).fwdNext = s.fwdNext := rfl
@[simp] theorem State.updJob_ldg (s : State) (w : Nat) (f : Job → Job) : (s.updJob w f).ldg = s.ldg := rfl
@[simp] theorem State.updJob_guard (s : State) (w : Nat) (f : Job → Job) : (s.updJob w f).guard = s.guard := rfl
@[simp] theorem State.updJob_irq (s : State) (w : Nat) (f : Job → Job) : (s.updJob w f).irq = s.irq := rfl
@[simp] theorem State.updJob_pwr (s : State) (w : Nat) (f : Job → Job) : (s.updJob w f).pwr = s.pwr := rfl
@[simp] theorem State.updJob_boot (s : State) (w : Nat) (f : Job → Job) : (s.updJob w f).boot = s.boot := rfl
@[simp] theorem State.updJob_snap (s : State) (w : Nat) (f : Job → Job) : (s.updJob w f).snap = s.snap := rfl
@[simp] theorem State.updJob_heldLo (s : State) (w : Nat) (f : Job → Job) : (s.updJob w f).heldLo = s.heldLo := rfl
@[simp] theorem State.updJob_rdata (s : State) (w : Nat) (f : Job → Job) : (s.updJob w f).rdata = s.rdata := rfl
@[simp] theorem State.updJob_out (s : State) (w : Nat) (f : Job → Job) : (s.updJob w f).out = s.out := rfl
@[simp] theorem State.updJob_free (s : State) (w : Nat) (f : Job → Job) : (s.updJob w f).free = s.free := rfl
@[simp] theorem State.updJob_pending (s : State) (w : Nat) (f : Job → Job) : (s.updJob w f).pending = s.pending := rfl

/-! ### `State.emit` -/

@[simp] theorem State.emit_fuse (s : State) (o : Out) : (s.emit o).fuse = s.fuse := rfl
@[simp] theorem State.emit_pins (s : State) (o : Out) : (s.emit o).pins = s.pins := rfl
@[simp] theorem State.emit_org (s : State) (o : Out) : (s.emit o).org = s.org := rfl
@[simp] theorem State.emit_d2d (s : State) (o : Out) : (s.emit o).d2d = s.d2d := rfl
@[simp] theorem State.emit_cl (s : State) (o : Out) : (s.emit o).cl = s.cl := rfl
@[simp] theorem State.emit_mem (s : State) (o : Out) : (s.emit o).mem = s.mem := rfl
@[simp] theorem State.emit_tl (s : State) (o : Out) : (s.emit o).tl = s.tl := rfl
@[simp] theorem State.emit_slc (s : State) (o : Out) : (s.emit o).slc = s.slc := rfl
@[simp] theorem State.emit_coll (s : State) (o : Out) : (s.emit o).coll = s.coll := rfl
@[simp] theorem State.emit_press (s : State) (o : Out) : (s.emit o).press = s.press := rfl
@[simp] theorem State.emit_mgl (s : State) (o : Out) : (s.emit o).mgl = s.mgl := rfl
@[simp] theorem State.emit_gct (s : State) (o : Out) : (s.emit o).gct = s.gct := rfl
@[simp] theorem State.emit_regLdg (s : State) (o : Out) : (s.emit o).regLdg = s.regLdg := rfl
@[simp] theorem State.emit_fwdNext (s : State) (o : Out) : (s.emit o).fwdNext = s.fwdNext := rfl
@[simp] theorem State.emit_ldg (s : State) (o : Out) : (s.emit o).ldg = s.ldg := rfl
@[simp] theorem State.emit_guard (s : State) (o : Out) : (s.emit o).guard = s.guard := rfl
@[simp] theorem State.emit_hif (s : State) (o : Out) : (s.emit o).hif = s.hif := rfl
@[simp] theorem State.emit_irq (s : State) (o : Out) : (s.emit o).irq = s.irq := rfl
@[simp] theorem State.emit_pwr (s : State) (o : Out) : (s.emit o).pwr = s.pwr := rfl
@[simp] theorem State.emit_boot (s : State) (o : Out) : (s.emit o).boot = s.boot := rfl
@[simp] theorem State.emit_snap (s : State) (o : Out) : (s.emit o).snap = s.snap := rfl
@[simp] theorem State.emit_heldLo (s : State) (o : Out) : (s.emit o).heldLo = s.heldLo := rfl
@[simp] theorem State.emit_rdata (s : State) (o : Out) : (s.emit o).rdata = s.rdata := rfl
@[simp] theorem State.emit_free (s : State) (o : Out) : (s.emit o).free = s.free := rfl
@[simp] theorem State.emit_pending (s : State) (o : Out) : (s.emit o).pending = s.pending := rfl

/-! ### `State.useFree` -/

@[simp] theorem State.useFree_fuse (s : State) : (s.useFree).fuse = s.fuse := rfl
@[simp] theorem State.useFree_pins (s : State) : (s.useFree).pins = s.pins := rfl
@[simp] theorem State.useFree_org (s : State) : (s.useFree).org = s.org := rfl
@[simp] theorem State.useFree_d2d (s : State) : (s.useFree).d2d = s.d2d := rfl
@[simp] theorem State.useFree_cl (s : State) : (s.useFree).cl = s.cl := rfl
@[simp] theorem State.useFree_mem (s : State) : (s.useFree).mem = s.mem := rfl
@[simp] theorem State.useFree_tl (s : State) : (s.useFree).tl = s.tl := rfl
@[simp] theorem State.useFree_slc (s : State) : (s.useFree).slc = s.slc := rfl
@[simp] theorem State.useFree_coll (s : State) : (s.useFree).coll = s.coll := rfl
@[simp] theorem State.useFree_press (s : State) : (s.useFree).press = s.press := rfl
@[simp] theorem State.useFree_mgl (s : State) : (s.useFree).mgl = s.mgl := rfl
@[simp] theorem State.useFree_gct (s : State) : (s.useFree).gct = s.gct := rfl
@[simp] theorem State.useFree_regLdg (s : State) : (s.useFree).regLdg = s.regLdg := rfl
@[simp] theorem State.useFree_fwdNext (s : State) : (s.useFree).fwdNext = s.fwdNext := rfl
@[simp] theorem State.useFree_ldg (s : State) : (s.useFree).ldg = s.ldg := rfl
@[simp] theorem State.useFree_guard (s : State) : (s.useFree).guard = s.guard := rfl
@[simp] theorem State.useFree_hif (s : State) : (s.useFree).hif = s.hif := rfl
@[simp] theorem State.useFree_irq (s : State) : (s.useFree).irq = s.irq := rfl
@[simp] theorem State.useFree_pwr (s : State) : (s.useFree).pwr = s.pwr := rfl
@[simp] theorem State.useFree_boot (s : State) : (s.useFree).boot = s.boot := rfl
@[simp] theorem State.useFree_snap (s : State) : (s.useFree).snap = s.snap := rfl
@[simp] theorem State.useFree_heldLo (s : State) : (s.useFree).heldLo = s.heldLo := rfl
@[simp] theorem State.useFree_rdata (s : State) : (s.useFree).rdata = s.rdata := rfl
@[simp] theorem State.useFree_out (s : State) : (s.useFree).out = s.out := rfl
@[simp] theorem State.useFree_pending (s : State) : (s.useFree).pending = s.pending := rfl

/-! ### `State.updLink` -/

@[simp] theorem State.updLink_fuse (s : State) (l : Nat) (f : TLink → TLink) : (s.updLink l f).fuse = s.fuse := by
  simp only [State.updLink]; split_ifs <;> simp
@[simp] theorem State.updLink_pins (s : State) (l : Nat) (f : TLink → TLink) : (s.updLink l f).pins = s.pins := by
  simp only [State.updLink]; split_ifs <;> simp
@[simp] theorem State.updLink_org (s : State) (l : Nat) (f : TLink → TLink) : (s.updLink l f).org = s.org := by
  simp only [State.updLink]; split_ifs <;> simp
@[simp] theorem State.updLink_d2d (s : State) (l : Nat) (f : TLink → TLink) : (s.updLink l f).d2d = s.d2d := by
  simp only [State.updLink]; split_ifs <;> simp
@[simp] theorem State.updLink_cl (s : State) (l : Nat) (f : TLink → TLink) : (s.updLink l f).cl = s.cl := by
  simp only [State.updLink]; split_ifs <;> simp
@[simp] theorem State.updLink_mem (s : State) (l : Nat) (f : TLink → TLink) : (s.updLink l f).mem = s.mem := by
  simp only [State.updLink]; split_ifs <;> simp
@[simp] theorem State.updLink_slc (s : State) (l : Nat) (f : TLink → TLink) : (s.updLink l f).slc = s.slc := by
  simp only [State.updLink]; split_ifs <;> simp
@[simp] theorem State.updLink_coll (s : State) (l : Nat) (f : TLink → TLink) : (s.updLink l f).coll = s.coll := by
  simp only [State.updLink]; split_ifs <;> simp
@[simp] theorem State.updLink_press (s : State) (l : Nat) (f : TLink → TLink) : (s.updLink l f).press = s.press := by
  simp only [State.updLink]; split_ifs <;> simp
@[simp] theorem State.updLink_mgl (s : State) (l : Nat) (f : TLink → TLink) : (s.updLink l f).mgl = s.mgl := by
  simp only [State.updLink]; split_ifs <;> simp
@[simp] theorem State.updLink_gct (s : State) (l : Nat) (f : TLink → TLink) : (s.updLink l f).gct = s.gct := by
  simp only [State.updLink]; split_ifs <;> simp
@[simp] theorem State.updLink_regLdg (s : State) (l : Nat) (f : TLink → TLink) : (s.updLink l f).regLdg = s.regLdg := by
  simp only [State.updLink]; split_ifs <;> simp
@[simp] theorem State.updLink_fwdNext (s : State) (l : Nat) (f : TLink → TLink) : (s.updLink l f).fwdNext = s.fwdNext := by
  simp only [State.updLink]; split_ifs <;> simp
@[simp] theorem State.updLink_ldg (s : State) (l : Nat) (f : TLink → TLink) : (s.updLink l f).ldg = s.ldg := by
  simp only [State.updLink]; split_ifs <;> simp
@[simp] theorem State.updLink_guard (s : State) (l : Nat) (f : TLink → TLink) : (s.updLink l f).guard = s.guard := by
  simp only [State.updLink]; split_ifs <;> simp
@[simp] theorem State.updLink_hif (s : State) (l : Nat) (f : TLink → TLink) : (s.updLink l f).hif = s.hif := by
  simp only [State.updLink]; split_ifs <;> simp
@[simp] theorem State.updLink_pwr (s : State) (l : Nat) (f : TLink → TLink) : (s.updLink l f).pwr = s.pwr := by
  simp only [State.updLink]; split_ifs <;> simp
@[simp] theorem State.updLink_boot (s : State) (l : Nat) (f : TLink → TLink) : (s.updLink l f).boot = s.boot := by
  simp only [State.updLink]; split_ifs <;> simp
@[simp] theorem State.updLink_snap (s : State) (l : Nat) (f : TLink → TLink) : (s.updLink l f).snap = s.snap := by
  simp only [State.updLink]; split_ifs <;> simp
@[simp] theorem State.updLink_heldLo (s : State) (l : Nat) (f : TLink → TLink) : (s.updLink l f).heldLo = s.heldLo := by
  simp only [State.updLink]; split_ifs <;> simp
@[simp] theorem State.updLink_rdata (s : State) (l : Nat) (f : TLink → TLink) : (s.updLink l f).rdata = s.rdata := by
  simp only [State.updLink]; split_ifs <;> simp
@[simp] theorem State.updLink_out (s : State) (l : Nat) (f : TLink → TLink) : (s.updLink l f).out = s.out := by
  simp only [State.updLink]; split_ifs <;> simp
@[simp] theorem State.updLink_free (s : State) (l : Nat) (f : TLink → TLink) : (s.updLink l f).free = s.free := by
  simp only [State.updLink]; split_ifs <;> simp
@[simp] theorem State.updLink_pending (s : State) (l : Nat) (f : TLink → TLink) : (s.updLink l f).pending = s.pending := by
  simp only [State.updLink]; split_ifs <;> simp

/-! ### `State.updGuard` -/

@[simp] theorem State.updGuard_fuse (s : State) (f : Guard → Guard) : (s.updGuard f).fuse = s.fuse := by
  simp only [State.updGuard]; split_ifs <;> simp
@[simp] theorem State.updGuard_pins (s : State) (f : Guard → Guard) : (s.updGuard f).pins = s.pins := by
  simp only [State.updGuard]; split_ifs <;> simp
@[simp] theorem State.updGuard_org (s : State) (f : Guard → Guard) : (s.updGuard f).org = s.org := by
  simp only [State.updGuard]; split_ifs <;> simp
@[simp] theorem State.updGuard_d2d (s : State) (f : Guard → Guard) : (s.updGuard f).d2d = s.d2d := by
  simp only [State.updGuard]; split_ifs <;> simp
@[simp] theorem State.updGuard_cl (s : State) (f : Guard → Guard) : (s.updGuard f).cl = s.cl := by
  simp only [State.updGuard]; split_ifs <;> simp
@[simp] theorem State.updGuard_mem (s : State) (f : Guard → Guard) : (s.updGuard f).mem = s.mem := by
  simp only [State.updGuard]; split_ifs <;> simp
@[simp] theorem State.updGuard_tl (s : State) (f : Guard → Guard) : (s.updGuard f).tl = s.tl := by
  simp only [State.updGuard]; split_ifs <;> simp
@[simp] theorem State.updGuard_slc (s : State) (f : Guard → Guard) : (s.updGuard f).slc = s.slc := by
  simp only [State.updGuard]; split_ifs <;> simp
@[simp] theorem State.updGuard_coll (s : State) (f : Guard → Guard) : (s.updGuard f).coll = s.coll := by
  simp only [State.updGuard]; split_ifs <;> simp
@[simp] theorem State.updGuard_press (s : State) (f : Guard → Guard) : (s.updGuard f).press = s.press := by
  simp only [State.updGuard]; split_ifs <;> simp
@[simp] theorem State.updGuard_mgl (s : State) (f : Guard → Guard) : (s.updGuard f).mgl = s.mgl := by
  simp only [State.updGuard]; split_ifs <;> simp
@[simp] theorem State.updGuard_gct (s : State) (f : Guard → Guard) : (s.updGuard f).gct = s.gct := by
  simp only [State.updGuard]; split_ifs <;> simp
@[simp] theorem State.updGuard_regLdg (s : State) (f : Guard → Guard) : (s.updGuard f).regLdg = s.regLdg := by
  simp only [State.updGuard]; split_ifs <;> simp
@[simp] theorem State.updGuard_fwdNext (s : State) (f : Guard → Guard) : (s.updGuard f).fwdNext = s.fwdNext := by
  simp only [State.updGuard]; split_ifs <;> simp
@[simp] theorem State.updGuard_ldg (s : State) (f : Guard → Guard) : (s.updGuard f).ldg = s.ldg := by
  simp only [State.updGuard]; split_ifs <;> simp
@[simp] theorem State.updGuard_hif (s : State) (f : Guard → Guard) : (s.updGuard f).hif = s.hif := by
  simp only [State.updGuard]; split_ifs <;> simp
@[simp] theorem State.updGuard_pwr (s : State) (f : Guard → Guard) : (s.updGuard f).pwr = s.pwr := by
  simp only [State.updGuard]; split_ifs <;> simp
@[simp] theorem State.updGuard_boot (s : State) (f : Guard → Guard) : (s.updGuard f).boot = s.boot := by
  simp only [State.updGuard]; split_ifs <;> simp
@[simp] theorem State.updGuard_snap (s : State) (f : Guard → Guard) : (s.updGuard f).snap = s.snap := by
  simp only [State.updGuard]; split_ifs <;> simp
@[simp] theorem State.updGuard_heldLo (s : State) (f : Guard → Guard) : (s.updGuard f).heldLo = s.heldLo := by
  simp only [State.updGuard]; split_ifs <;> simp
@[simp] theorem State.updGuard_rdata (s : State) (f : Guard → Guard) : (s.updGuard f).rdata = s.rdata := by
  simp only [State.updGuard]; split_ifs <;> simp
@[simp] theorem State.updGuard_out (s : State) (f : Guard → Guard) : (s.updGuard f).out = s.out := by
  simp only [State.updGuard]; split_ifs <;> simp
@[simp] theorem State.updGuard_free (s : State) (f : Guard → Guard) : (s.updGuard f).free = s.free := by
  simp only [State.updGuard]; split_ifs <;> simp
@[simp] theorem State.updGuard_pending (s : State) (f : Guard → Guard) : (s.updGuard f).pending = s.pending := by
  simp only [State.updGuard]; split_ifs <;> simp

/-! ### `State.setStep` -/

@[simp] theorem State.setStep_fuse (s : State) (n : BitVec 3) : (s.setStep n).fuse = s.fuse := by
  simp only [State.setStep]; split_ifs <;> simp
@[simp] theorem State.setStep_pins (s : State) (n : BitVec 3) : (s.setStep n).pins = s.pins := by
  simp only [State.setStep]; split_ifs <;> simp
@[simp] theorem State.setStep_org (s : State) (n : BitVec 3) : (s.setStep n).org = s.org := by
  simp only [State.setStep]; split_ifs <;> simp
@[simp] theorem State.setStep_d2d (s : State) (n : BitVec 3) : (s.setStep n).d2d = s.d2d := by
  simp only [State.setStep]; split_ifs <;> simp
@[simp] theorem State.setStep_cl (s : State) (n : BitVec 3) : (s.setStep n).cl = s.cl := by
  simp only [State.setStep]; split_ifs <;> simp
@[simp] theorem State.setStep_mem (s : State) (n : BitVec 3) : (s.setStep n).mem = s.mem := by
  simp only [State.setStep]; split_ifs <;> simp
@[simp] theorem State.setStep_tl (s : State) (n : BitVec 3) : (s.setStep n).tl = s.tl := by
  simp only [State.setStep]; split_ifs <;> simp
@[simp] theorem State.setStep_coll (s : State) (n : BitVec 3) : (s.setStep n).coll = s.coll := by
  simp only [State.setStep]; split_ifs <;> simp
@[simp] theorem State.setStep_press (s : State) (n : BitVec 3) : (s.setStep n).press = s.press := by
  simp only [State.setStep]; split_ifs <;> simp
@[simp] theorem State.setStep_mgl (s : State) (n : BitVec 3) : (s.setStep n).mgl = s.mgl := by
  simp only [State.setStep]; split_ifs <;> simp
@[simp] theorem State.setStep_gct (s : State) (n : BitVec 3) : (s.setStep n).gct = s.gct := by
  simp only [State.setStep]; split_ifs <;> simp
@[simp] theorem State.setStep_regLdg (s : State) (n : BitVec 3) : (s.setStep n).regLdg = s.regLdg := by
  simp only [State.setStep]; split_ifs <;> simp
@[simp] theorem State.setStep_fwdNext (s : State) (n : BitVec 3) : (s.setStep n).fwdNext = s.fwdNext := by
  simp only [State.setStep]; split_ifs <;> simp
@[simp] theorem State.setStep_ldg (s : State) (n : BitVec 3) : (s.setStep n).ldg = s.ldg := by
  simp only [State.setStep]; split_ifs <;> simp
@[simp] theorem State.setStep_guard (s : State) (n : BitVec 3) : (s.setStep n).guard = s.guard := by
  simp only [State.setStep]; split_ifs <;> simp
@[simp] theorem State.setStep_hif (s : State) (n : BitVec 3) : (s.setStep n).hif = s.hif := by
  simp only [State.setStep]; split_ifs <;> simp
@[simp] theorem State.setStep_pwr (s : State) (n : BitVec 3) : (s.setStep n).pwr = s.pwr := by
  simp only [State.setStep]; split_ifs <;> simp
@[simp] theorem State.setStep_boot (s : State) (n : BitVec 3) : (s.setStep n).boot = s.boot := by
  simp only [State.setStep]; split_ifs <;> simp
@[simp] theorem State.setStep_snap (s : State) (n : BitVec 3) : (s.setStep n).snap = s.snap := by
  simp only [State.setStep]; split_ifs <;> simp
@[simp] theorem State.setStep_heldLo (s : State) (n : BitVec 3) : (s.setStep n).heldLo = s.heldLo := by
  simp only [State.setStep]; split_ifs <;> simp
@[simp] theorem State.setStep_rdata (s : State) (n : BitVec 3) : (s.setStep n).rdata = s.rdata := by
  simp only [State.setStep]; split_ifs <;> simp
@[simp] theorem State.setStep_out (s : State) (n : BitVec 3) : (s.setStep n).out = s.out := by
  simp only [State.setStep]; split_ifs <;> simp
@[simp] theorem State.setStep_free (s : State) (n : BitVec 3) : (s.setStep n).free = s.free := by
  simp only [State.setStep]; split_ifs <;> simp
@[simp] theorem State.setStep_pending (s : State) (n : BitVec 3) : (s.setStep n).pending = s.pending := by
  simp only [State.setStep]; split_ifs <;> simp

/-! ### Reading one part after a change -/

@[simp] theorem State.clu_updClu_same (s : State) (q : Nat) (f : Cluster → Cluster) :
    (s.updClu q f).clu q = f (s.clu q) := by simp [State.clu, State.updClu, upd]
theorem State.clu_updClu_other (s : State) (p q : Nat) (f : Cluster → Cluster) (h : p ≠ q) :
    (s.updClu q f).clu p = s.clu p := by simp [State.clu, State.updClu, upd, h]
@[simp] theorem Cluster.coreAt_updCore_same (k : Cluster) (c : Nat) (f : CoreSt → CoreSt) :
    (k.updCore c f).coreAt c = f (k.coreAt c) := by simp [Cluster.coreAt, Cluster.updCore, upd]
theorem Cluster.coreAt_updCore_other (k : Cluster) (d c : Nat) (f : CoreSt → CoreSt) (h : d ≠ c) :
    (k.updCore c f).coreAt d = k.coreAt d := by simp [Cluster.coreAt, Cluster.updCore, upd, h]
@[simp] theorem State.ring_updRing_same (s : State) (r : Nat) (f : RingSt → RingSt) :
    (s.updRing r f).ring r = f (s.ring r) := by simp [State.ring, State.updRing, upd]
theorem State.ring_updRing_other (s : State) (p r : Nat) (f : RingSt → RingSt) (h : p ≠ r) :
    (s.updRing r f).ring p = s.ring p := by simp [State.ring, State.updRing, upd, h]
@[simp] theorem State.jobAt_updJob_same (s : State) (w : Nat) (f : Job → Job) :
    (s.updJob w f).jobAt w = f (s.jobAt w) := by simp [State.jobAt, State.updJob, upd]
theorem State.jobAt_updJob_other (s : State) (v w : Nat) (f : Job → Job) (h : v ≠ w) :
    (s.updJob w f).jobAt v = s.jobAt v := by simp [State.jobAt, State.updJob, upd, h]
@[simp] theorem State.dieMem_updDieMem_same (s : State) (d : Nat) (f : DieMem → DieMem) :
    (s.updDieMem d f).dieMem d = f (s.dieMem d) := by simp [State.dieMem, State.updDieMem, upd]
theorem State.dieMem_updDieMem_other (s : State) (e d : Nat) (f : DieMem → DieMem) (h : e ≠ d) :
    (s.updDieMem d f).dieMem e = s.dieMem e := by simp [State.dieMem, State.updDieMem, upd, h]
@[simp] theorem State.link_updLink_same (s : State) (l : Nat) (f : TLink → TLink) :
    (s.updLink l f).link l = f (s.link l) := by
  simp only [State.updLink]; split <;> simp [State.link]
theorem State.link_updLink_other (s : State) (m l : Nat) (f : TLink → TLink) (h : m ≠ l) :
    (s.updLink l f).link m = s.link m := by
  simp only [State.updLink]; split <;> simp [State.link, h]
@[simp] theorem State.updGuard_guard (s : State) (f : Guard → Guard) : (s.updGuard f).guard = f s.guard := by
  simp only [State.updGuard]; split_ifs <;> simp

end Sys2Proof.Machine
end

