-- ==== Sys2Proof/Laws/Ops.lean ====
section
/-!
SUPPORT. What the shared operations leave alone. Each frame lists the parts of the state that stay; each operation has one
lemma that names its frame, to be cited in place of unfolding it.
-/
namespace Sys2Proof.Machine
open Sys2Proof

/-! ### Frames -/

/-- Raising an event changes the ledgers, the interrupt latches and the suspect marks of the press alone. -/
structure EventFrame (s t : State) : Prop where
  fuse : t.fuse = s.fuse
  pins : t.pins = s.pins
  org : t.org = s.org
  d2d : t.d2d = s.d2d
  cl : t.cl = s.cl
  mem : t.mem = s.mem
  tl : t.tl = s.tl
  slc : t.slc = s.slc
  coll : t.coll = s.coll
  mgl : t.mgl = s.mgl
  gct : t.gct = s.gct
  fwdNext : t.fwdNext = s.fwdNext
  guard : t.guard = s.guard
  hif : t.hif = s.hif
  pwr : t.pwr = s.pwr
  boot : t.boot = s.boot
  snap : t.snap = s.snap
  heldLo : t.heldLo = s.heldLo
  rdata : t.rdata = s.rdata
  out : t.out = s.out
  free : t.free = s.free
  pending : t.pending = s.pending

theorem EventFrame.refl (s : State) : EventFrame s s := by constructor <;> rfl
theorem EventFrame.trans {s t u : State} (h : EventFrame s t) (k : EventFrame t u) : EventFrame s u where
  fuse := k.fuse.trans h.fuse
  pins := k.pins.trans h.pins
  org := k.org.trans h.org
  d2d := k.d2d.trans h.d2d
  cl := k.cl.trans h.cl
  mem := k.mem.trans h.mem
  tl := k.tl.trans h.tl
  slc := k.slc.trans h.slc
  coll := k.coll.trans h.coll
  mgl := k.mgl.trans h.mgl
  gct := k.gct.trans h.gct
  fwdNext := k.fwdNext.trans h.fwdNext
  guard := k.guard.trans h.guard
  hif := k.hif.trans h.hif
  pwr := k.pwr.trans h.pwr
  boot := k.boot.trans h.boot
  snap := k.snap.trans h.snap
  heldLo := k.heldLo.trans h.heldLo
  rdata := k.rdata.trans h.rdata
  out := k.out.trans h.out
  free := k.free.trans h.free
  pending := k.pending.trans h.pending
/-- A fold of steps that each keep the frame keeps it. -/
theorem EventFrame.foldl {β : Type} {f : State → β → State} (h : ∀ s b, EventFrame s (f s b)) (l : List β) (s : State) :
    EventFrame s (l.foldl f s) := by
  induction l generalizing s with
  | nil => exact .refl s
  | cons b l ih => exact (h s b).trans (ih _)
/-- The same of a fold that carries a value beside the state. -/
theorem EventFrame.foldl_fst {β γ : Type} {f : State × γ → β → State × γ} (h : ∀ x b, EventFrame x.1 (f x b).1) (l : List β)
    (x : State × γ) : EventFrame x.1 (l.foldl f x).1 := by
  induction l generalizing x with
  | nil => exact .refl _
  | cons b l ih => exact (h x b).trans (ih _)

/-- An access to device memory changes memory, the injections that it meets, the free values and what an event changes. -/
structure MemFrame (s t : State) : Prop where
  fuse : t.fuse = s.fuse
  pins : t.pins = s.pins
  org : t.org = s.org
  d2d : t.d2d = s.d2d
  cl : t.cl = s.cl
  tl : t.tl = s.tl
  slc : t.slc = s.slc
  coll : t.coll = s.coll
  mgl : t.mgl = s.mgl
  gct : t.gct = s.gct
  fwdNext : t.fwdNext = s.fwdNext
  hif : t.hif = s.hif
  pwr : t.pwr = s.pwr
  boot : t.boot = s.boot
  snap : t.snap = s.snap
  heldLo : t.heldLo = s.heldLo
  rdata : t.rdata = s.rdata
  out : t.out = s.out
  pending : t.pending = s.pending

theorem MemFrame.refl (s : State) : MemFrame s s := by constructor <;> rfl
theorem MemFrame.trans {s t u : State} (h : MemFrame s t) (k : MemFrame t u) : MemFrame s u where
  fuse := k.fuse.trans h.fuse
  pins := k.pins.trans h.pins
  org := k.org.trans h.org
  d2d := k.d2d.trans h.d2d
  cl := k.cl.trans h.cl
  tl := k.tl.trans h.tl
  slc := k.slc.trans h.slc
  coll := k.coll.trans h.coll
  mgl := k.mgl.trans h.mgl
  gct := k.gct.trans h.gct
  fwdNext := k.fwdNext.trans h.fwdNext
  hif := k.hif.trans h.hif
  pwr := k.pwr.trans h.pwr
  boot := k.boot.trans h.boot
  snap := k.snap.trans h.snap
  heldLo := k.heldLo.trans h.heldLo
  rdata := k.rdata.trans h.rdata
  out := k.out.trans h.out
  pending := k.pending.trans h.pending
/-- A fold of steps that each keep the frame keeps it. -/
theorem MemFrame.foldl {β : Type} {f : State → β → State} (h : ∀ s b, MemFrame s (f s b)) (l : List β) (s : State) :
    MemFrame s (l.foldl f s) := by
  induction l generalizing s with
  | nil => exact .refl s
  | cons b l ih => exact (h s b).trans (ih _)
/-- The same of a fold that carries a value beside the state. -/
theorem MemFrame.foldl_fst {β γ : Type} {f : State × γ → β → State × γ} (h : ∀ x b, MemFrame x.1 (f x b).1) (l : List β)
    (x : State × γ) : MemFrame x.1 (l.foldl f x).1 := by
  induction l generalizing x with
  | nil => exact .refl _
  | cons b l ih => exact (h x b).trans (ih _)

/-- Stopping a job changes memory and what an access to it changes, rings and jobs, clusters, the press, the mending round, collectives and the plan. -/
structure StopFrame (s t : State) : Prop where
  fuse : t.fuse = s.fuse
  pins : t.pins = s.pins
  org : t.org = s.org
  d2d : t.d2d = s.d2d
  tl : t.tl = s.tl
  slc : t.slc = s.slc
  gct : t.gct = s.gct
  fwdNext : t.fwdNext = s.fwdNext
  pwr : t.pwr = s.pwr
  boot : t.boot = s.boot
  snap : t.snap = s.snap
  heldLo : t.heldLo = s.heldLo
  rdata : t.rdata = s.rdata
  out : t.out = s.out
  pending : t.pending = s.pending

theorem StopFrame.refl (s : State) : StopFrame s s := by constructor <;> rfl
theorem StopFrame.trans {s t u : State} (h : StopFrame s t) (k : StopFrame t u) : StopFrame s u where
  fuse := k.fuse.trans h.fuse
  pins := k.pins.trans h.pins
  org := k.org.trans h.org
  d2d := k.d2d.trans h.d2d
  tl := k.tl.trans h.tl
  slc := k.slc.trans h.slc
  gct := k.gct.trans h.gct
  fwdNext := k.fwdNext.trans h.fwdNext
  pwr := k.pwr.trans h.pwr
  boot := k.boot.trans h.boot
  snap := k.snap.trans h.snap
  heldLo := k.heldLo.trans h.heldLo
  rdata := k.rdata.trans h.rdata
  out := k.out.trans h.out
  pending := k.pending.trans h.pending
/-- A fold of steps that each keep the frame keeps it. -/
theorem StopFrame.foldl {β : Type} {f : State → β → State} (h : ∀ s b, StopFrame s (f s b)) (l : List β) (s : State) :
    StopFrame s (l.foldl f s) := by
  induction l generalizing s with
  | nil => exact .refl s
  | cons b l ih => exact (h s b).trans (ih _)
/-- The same of a fold that carries a value beside the state. -/
theorem StopFrame.foldl_fst {β γ : Type} {f : State × γ → β → State × γ} (h : ∀ x b, StopFrame x.1 (f x b).1) (l : List β)
    (x : State × γ) : StopFrame x.1 (l.foldl f x).1 := by
  induction l generalizing x with
  | nil => exact .refl _
  | cons b l ih => exact (h x b).trans (ih _)

/-- A reply changes its ring, the messages pending and what leaves the module. -/
structure HostFrame (s t : State) : Prop where
  fuse : t.fuse = s.fuse
  pins : t.pins = s.pins
  org : t.org = s.org
  d2d : t.d2d = s.d2d
  cl : t.cl = s.cl
  mem : t.mem = s.mem
  tl : t.tl = s.tl
  slc : t.slc = s.slc
  coll : t.coll = s.coll
  press : t.press = s.press
  mgl : t.mgl = s.mgl
  gct : t.gct = s.gct
  regLdg : t.regLdg = s.regLdg
  fwdNext : t.fwdNext = s.fwdNext
  ldg : t.ldg = s.ldg
  guard : t.guard = s.guard
  pwr : t.pwr = s.pwr
  boot : t.boot = s.boot
  snap : t.snap = s.snap
  heldLo : t.heldLo = s.heldLo
  rdata : t.rdata = s.rdata
  free : t.free = s.free
  pending : t.pending = s.pending

theorem HostFrame.refl (s : State) : HostFrame s s := by constructor <;> rfl
theorem HostFrame.trans {s t u : State} (h : HostFrame s t) (k : HostFrame t u) : HostFrame s u where
  fuse := k.fuse.trans h.fuse
  pins := k.pins.trans h.pins
  org := k.org.trans h.org
  d2d := k.d2d.trans h.d2d
  cl := k.cl.trans h.cl
  mem := k.mem.trans h.mem
  tl := k.tl.trans h.tl
  slc := k.slc.trans h.slc
  coll := k.coll.trans h.coll
  press := k.press.trans h.press
  mgl := k.mgl.trans h.mgl
  gct := k.gct.trans h.gct
  regLdg := k.regLdg.trans h.regLdg
  fwdNext := k.fwdNext.trans h.fwdNext
  ldg := k.ldg.trans h.ldg
  guard := k.guard.trans h.guard
  pwr := k.pwr.trans h.pwr
  boot := k.boot.trans h.boot
  snap := k.snap.trans h.snap
  heldLo := k.heldLo.trans h.heldLo
  rdata := k.rdata.trans h.rdata
  free := k.free.trans h.free
  pending := k.pending.trans h.pending
/-- A fold of steps that each keep the frame keeps it. -/
theorem HostFrame.foldl {β : Type} {f : State → β → State} (h : ∀ s b, HostFrame s (f s b)) (l : List β) (s : State) :
    HostFrame s (l.foldl f s) := by
  induction l generalizing s with
  | nil => exact .refl s
  | cons b l ih => exact (h s b).trans (ih _)
/-- The same of a fold that carries a value beside the state. -/
theorem HostFrame.foldl_fst {β γ : Type} {f : State × γ → β → State × γ} (h : ∀ x b, HostFrame x.1 (f x b).1) (l : List β)
    (x : State × γ) : HostFrame x.1 (l.foldl f x).1 := by
  induction l generalizing x with
  | nil => exact .refl _
  | cons b l ih => exact (h x b).trans (ih _)

theorem EventFrame.memFrame {s t : State} (h : EventFrame s t) : MemFrame s t :=
  ⟨h.fuse, h.pins, h.org, h.d2d, h.cl, h.tl, h.slc, h.coll, h.mgl, h.gct, h.fwdNext, h.hif, h.pwr, h.boot,
    h.snap, h.heldLo, h.rdata, h.out, h.pending⟩
theorem MemFrame.stopFrame {s t : State} (h : MemFrame s t) : StopFrame s t :=
  ⟨h.fuse, h.pins, h.org, h.d2d, h.tl, h.slc, h.gct, h.fwdNext, h.pwr, h.boot, h.snap, h.heldLo, h.rdata, h.out,
    h.pending⟩

/-! ### Events (R396) -/

theorem irqEvent_frame (s : State) (n : Nat) : EventFrame s (irqEvent s n) := by constructor <;> simp
/-- After an event its source's latch is set (R459). -/
@[simp] theorem irqEvent_latch (s : State) (n : Nat) : n ∈ (irqEvent s n).irq.latch := by
  by_cases h : n ∈ s.irq.latch <;> simp [irqEvent, h]
theorem queueReport_frame (s : State) (cls src : Nat) (r : Report) : EventFrame s (queueReport s cls src r) := by
  simp only [queueReport]
  split
  · constructor <;> rfl
  · split <;> constructor <;> rfl
theorem suspectSteps_frame (s : State) : EventFrame s (suspectSteps s) := by constructor <;> rfl
theorem raise_frame (s : State) (e : Ev) : EventFrame s (raise s e) := by
  refine (queueReport_frame s e.cls e.src (reportOf s e)).trans ?_
  simp only [raise]
  generalize queueReport s e.cls e.src (reportOf s e) = t
  split <;> split <;>
    first
      | exact (irqEvent_frame _ _).trans (suspectSteps_frame _)
      | exact irqEvent_frame _ _
      | exact suspectSteps_frame _
      | exact .refl _
/-- An event of a listed class, but for a step of the counter, sets the latch of source 16 + its class (R396). -/
theorem raise_latch (s : State) (e : Ev) (h : classListed e.cls = true) (k : e.cls ≠ evGctStep) :
    16 + e.cls ∈ (raise s e).irq.latch := by
  simp only [raise, h, Bool.true_and, bne_iff_ne, ne_eq, k, not_false_eq_true, if_true]
  split
  · exact irqEvent_latch _ _
  · exact irqEvent_latch _ _
theorem corrected_frame (s : State) (src detail : Nat) (inj : Bool) : EventFrame s (corrected s src detail inj) :=
  raise_frame _ _
theorem raiseCore_frame (s : State) (q c cls : Nat) (stained : Bool) (sev detail : Nat) :
    EventFrame s (raiseCore s q c cls stained sev detail) := raise_frame _ _
theorem raiseSeq_frame (s : State) (q cls sev detail : Nat) : EventFrame s (raiseSeq s q cls sev detail) := raise_frame _ _

/-! ### Sectors (R204, R207–R211) -/

theorem mem_frame (s : State) (m : Mem) : MemFrame s { s with mem := m } := by constructor <;> rfl
theorem raise_memFrame {s t : State} (h : MemFrame s t) (e : Ev) : MemFrame s (raise t e) := h.trans (raise_frame t e).memFrame
theorem xlatFault_frame (s : State) (src win : Nat) (a : Int) (kind : Nat) (write stops inj : Bool) :
    MemFrame s (xlatFault s src win a kind write stops inj) := by
  simp only [xlatFault]
  exact raise_memFrame (mem_frame s _) _
theorem updDieMem_frame (s : State) (d : Nat) (f : DieMem → DieMem) : MemFrame s (s.updDieMem d f) := mem_frame s _
theorem nmStore_frame (s : State) (stack sec : Nat) (data : List Byte) (stain : Bool) :
    MemFrame s (nmStore s stack sec data stain) := mem_frame s _
theorem hbmStore_frame (s : State) (stack sec : Nat) (data : List Byte) (stain : Bool) :
    MemFrame s (hbmStore s stack sec data stain) := mem_frame s _
theorem nmReadWith_frame (s : State) (stack sec : Nat) (upset : List (Nat × Byte)) (inj : Bool) :
    MemFrame s (nmReadWith s stack sec upset inj).1 := by
  simp only [nmReadWith]
  split
  · exact .refl s
  · exact (corrected_frame _ _ _ _).memFrame.trans (updDieMem_frame _ _ _)
  · dsimp only
    exact raise_memFrame (nmStore_frame s stack sec _ _) _
theorem hbmNote_frame (s : State) (stack sec : Nat) (rep : EccReport) : MemFrame s (hbmNote s stack sec rep) := by
  simp only [hbmNote]
  split
  · exact .refl s
  · exact mem_frame s _
theorem hbmReadWith_frame (s : State) (stack sec : Nat) (rep : EccReport) (inj : Bool) :
    MemFrame s (hbmReadWith s stack sec rep inj).1 := by
  refine (hbmNote_frame s stack sec rep).trans ?_
  simp only [hbmReadWith]
  split
  · exact .refl _
  · exact .refl _
  · exact (corrected_frame _ _ _ _).memFrame
  · exact (corrected_frame _ _ _ _).memFrame
  · dsimp only
    exact raise_memFrame (mem_frame _ _) _

/-! ### Injections (R403, R404) -/

/-- Nothing acts where nothing is armed. -/
@[simp] theorem takeInject_quiet {s : State} (h : s.guard.armed = []) (cls src win : Nat) : takeInject s cls src win = none := by
  simp [takeInject, h]
/-- An injection that acts changes the list of those armed alone. -/
theorem takeInject_some {s t : State} {cls src win n : Nat} (h : takeInject s cls src win = some (n, t)) :
    t = { s with guard := { s.guard with armed := t.guard.armed } } := by
  simp only [takeInject] at h
  split at h
  · cases h
  · cases h; rfl
theorem guard_frame {s t : State} (h : t = { s with guard := t.guard }) : MemFrame s t := by
  rw [h]; constructor <;> rfl
theorem takeInject_frame {s t : State} {cls src win n : Nat} (h : takeInject s cls src win = some (n, t)) : MemFrame s t := by
  rw [takeInject_some h]; constructor <;> rfl
theorem detect_quiet {s : State} (h : s.guard.armed = []) (cls src win : Nat) (cond : Bool) (f g : State → State) :
    detect s cls src win cond f g = if cond then f s else g s := by
  simp [detect, h]
theorem detectAll_quiet {s : State} (h : s.guard.armed = []) (cls src : Nat) (cond : Bool) (f g : State → State) :
    detectAll s cls src cond f g = if cond then f s else g s := detect_quiet h ..

/-! ### Sectors below the shelf and of any tier (R207, R404) -/

theorem nmErrs_quiet {s : State} (h : s.guard.armed = []) (stack : Nat) (win : Option Nat) (upset : List (Nat × Byte)) :
    nmErrs s stack win upset = (s, upset, false) := by
  cases win <;> simp [nmErrs, h]
theorem hbmErrs_quiet {s : State} (h : s.guard.armed = []) (stack : Nat) (win : Option Nat) (rep : EccReport) :
    hbmErrs s stack win rep = (s, rep, false) := by
  cases win <;> simp [hbmErrs, h]
theorem nmErrs_frame (s : State) (stack : Nat) (win : Option Nat) (upset : List (Nat × Byte)) :
    MemFrame s (nmErrs s stack win upset).1 := by
  simp only [nmErrs]
  split
  · rename_i w t h
    cases win with
    | none => cases h
    | some v => exact (takeInject_frame h).trans (by constructor <;> rfl)
  · exact .refl s
theorem hbmErrs_frame (s : State) (stack : Nat) (win : Option Nat) (rep : EccReport) :
    MemFrame s (hbmErrs s stack win rep).1 := by
  simp only [hbmErrs]
  split
  · rename_i w t h
    cases win with
    | none => cases h
    | some v => exact takeInject_frame h
  · exact .refl s
theorem dramRead_frame (s : State) (hbm : Bool) (stack sec : Nat) (upset : List (Nat × Byte)) (rep : EccReport)
    (win : Option Nat) : MemFrame s (dramRead s hbm stack sec upset rep win).1 := by
  simp only [dramRead]
  split
  · exact (hbmErrs_frame ..).trans (hbmReadWith_frame ..)
  · exact (nmErrs_frame ..).trans (nmReadWith_frame ..)
/-- Where nothing is armed the window makes no difference. -/
theorem dramRead_quiet {s : State} (h : s.guard.armed = []) (hbm : Bool) (stack sec : Nat) (upset : List (Nat × Byte))
    (rep : EccReport) (win : Option Nat) : dramRead s hbm stack sec upset rep win
      = if hbm then hbmReadWith s stack sec rep else nmReadWith s stack sec upset := by
  simp [dramRead, nmErrs_quiet h, hbmErrs_quiet h]
theorem dramStore_frame (s : State) (hbm : Bool) (stack sec : Nat) (data : List Byte) (stain : Bool) :
    MemFrame s (dramStore s hbm stack sec data stain) := by
  simp only [dramStore]
  split
  · exact hbmStore_frame ..
  · exact nmStore_frame ..
theorem dramWrite_frame (s : State) (hbm : Bool) (stack sec : Nat) (data : List Byte) (en : Nat) (stain : Bool)
    (upset : List (Nat × Byte)) (rep : EccReport) (win : Option Nat) :
    MemFrame s (dramWrite s hbm stack sec data en stain upset rep win) := by
  simp only [dramWrite]
  split
  · exact dramStore_frame ..
  · split
    · exact .refl s
    · exact (dramRead_frame s hbm stack sec upset rep win).trans (dramStore_frame ..)
theorem updCached_frame (s : State) (hbm : Bool) (stack sec : Nat) (f : Cached → Cached) :
    MemFrame s (updCached s hbm stack sec f) := updDieMem_frame ..
theorem secRead_frame (s : State) (p : Place) (win : Option Nat) : MemFrame s (secRead s p win).1 := by
  simp only [secRead]
  split
  · split
    · exact .refl s
    · exact dramRead_frame ..
  · split
    · exact .refl s
    · exact dramRead_frame ..
  · exact .refl s
  · exact .refl s
theorem secRead_quiet {s : State} (h : s.guard.armed = []) (p : Place) (win : Option Nat) : secRead s p win = secRead s p := by
  cases p <;> simp [secRead, dramRead_quiet h]
theorem secWrite_frame (s : State) (p : Place) (data : List Byte) (en : Nat) (stain : Bool) (win : Option Nat) :
    MemFrame s (secWrite s p data en stain win) := by
  simp only [secWrite]
  split
  · split
    · exact updCached_frame ..
    · exact dramWrite_frame ..
  · split
    · exact updCached_frame ..
    · exact dramWrite_frame ..
  · exact mem_frame s _
  · exact mem_frame s _

/-! ### Words of SRAM under the tiers (R213, R404) -/

theorem sramInject_quiet {s : State} (h : s.guard.armed = []) (p : SramPlace) : sramInject s p = none := by
  simp only [sramInject, takeInject_quiet h]
  cases sramWin s p <;> rfl
@[simp] theorem sramMeet_quiet {s : State} (h : s.guard.armed = []) (p : SramPlace) : sramMeet s p = s := by
  simp [sramMeet, sramInject_quiet h]
theorem winRead_quiet {s : State} (h : s.guard.armed = []) (win : Nat) (p : Place) : winRead s win p = secRead s p := by
  cases p <;> simp [winRead, placeSram, secRead_quiet h, sramMeet_quiet h]
/-- The word is of a cluster buffer or of a shelf, and so of addressed memory. -/
def sramInMemory : SramPlace → Bool
  | .buffer _ _ | .shelf _ _ => true
  | _ => false
theorem sramPut_frame (s : State) (p : SramPlace) (b : List Byte) (st : Bool) (h : sramInMemory p = true) :
    MemFrame s (sramPut s p b st) := by
  cases p with
  | buffer q w =>
    simp only [sramPut]
    exact secWrite_frame ..
  | shelf d w =>
    simp only [sramPut]
    split
    · exact secWrite_frame ..
    · exact updDieMem_frame ..
  | _ => cases h
theorem useFree_frame (s : State) : MemFrame s s.useFree := by constructor <;> rfl
theorem sramRead_frame (s : State) (p : SramPlace) (sec : List Byte) (st : Bool) (flips : List Nat) (inj : Bool)
    (h : sramInMemory p = true) : MemFrame s (sramRead s p sec st flips inj).1 := by
  simp only [sramRead]
  split
  · exact .refl s
  · exact (corrected_frame ..).memFrame
  · exact raise_memFrame (sramPut_frame s p _ _ h) _
  · split
    · exact (useFree_frame s).trans (raise_memFrame (sramPut_frame _ p _ _ h) _)
    · exact (useFree_frame s).trans (sramPut_frame _ p _ _ h)
theorem sramInject_frame {s t : State} {p : SramPlace} {l : List Nat} (h : sramInject s p = some (t, l)) : MemFrame s t := by
  simp only [sramInject] at h
  cases hw : sramWin s p with
  | none => simp [hw] at h
  | some w =>
    simp only [hw, Option.bind_some] at h
    split at h
    · rename_i n u hu
      cases h
      exact (takeInject_frame hu).trans (by constructor <;> rfl)
    · cases hu : takeInject s evCorrected (sramSrc s p) w with
      | none => simp [hu] at h
      | some x =>
        simp only [hu, Option.map_some, Option.some.injEq, Prod.mk.injEq] at h
        obtain ⟨rfl, -⟩ := h
        exact (takeInject_frame (n := x.1) (t := x.2) (by rw [hu])).trans (by constructor <;> rfl)
theorem sramMeet_frame (s : State) (p : SramPlace) (h : sramInMemory p = true) : MemFrame s (sramMeet s p) := by
  simp only [sramMeet]
  split
  · rename_i t l sec st hi hs
    exact (sramInject_frame hi).trans (sramRead_frame t p sec st l true h)
  · exact .refl s
theorem winRead_frame (s : State) (win : Nat) (p : Place) : MemFrame s (winRead s win p).1 := by
  simp only [winRead]
  split
  · rename_i w hw
    have k : sramInMemory w = true := by
      cases p <;> simp [placeSram] at hw <;> subst hw <;> rfl
    split
    · exact (sramMeet_frame s w k).trans (secRead_frame ..)
    · exact secRead_frame ..
  · exact secRead_frame ..

/-! ### Ranges of device addresses -/

theorem meetXlat_quiet {s : State} (h : s.guard.armed = []) (src win : Nat) (r : Xlat) : meetXlat s src win r = (s, r, false) := by
  simp [meetXlat, h]
theorem meetXlat_frame (s : State) (src win : Nat) (r : Xlat) : MemFrame s (meetXlat s src win r).1 := by
  simp only [meetXlat]
  split
  · rename_i h
    exact (takeInject_frame h).trans (useFree_frame _)
  · exact .refl s
theorem devSector_frame (s : State) (src win : Nat) (a : Int) : MemFrame s (devSector s src win a).1 := by
  simp only [devSector]
  have h := meetXlat_frame s src win (xlateBy s src win a false)
  split
  · rename_i k; rw [k] at h; exact h.trans (xlatFault_frame ..)
  · rename_i k; rw [k] at h; exact h.trans (winRead_frame ..)
theorem devSectors_frame (src win : Nat) : ∀ (n : Nat) (s : State) (a : Int), MemFrame s (devSectors src win n s a).1
  | 0, s, _ => .refl s
  | n + 1, s, a => (devSector_frame s src win a).trans (devSectors_frame src win n _ _)
theorem devRead_frame (s : State) (src win : Nat) (a : Int) (n : Nat) : MemFrame s (devRead s src win a n).1 :=
  devSectors_frame ..
theorem devPut_frame (s : State) (src win : Nat) (a : Int) (b : List Byte) (stain : Bool) :
    MemFrame s (devPut s src win a b stain).1 := by
  refine MemFrame.foldl_fst ?_ _ (s, false)
  rintro ⟨s, f⟩ ⟨sa, d, en⟩
  have h := meetXlat_frame s src win (xlateBy s src win sa true)
  simp only
  split
  · rename_i k; rw [k] at h; exact h.trans (xlatFault_frame ..)
  · rename_i k; rw [k] at h; exact h.trans (secWrite_frame ..)
theorem bulkSectors_frame (src win : Nat) : ∀ (n : Nat) (s : State) (a : Int), MemFrame s (bulkSectors src win n s a).1
  | 0, s, _ => .refl s
  | n + 1, s, a => (devSector_frame s src win a).trans (bulkSectors_frame src win n _ _)
theorem bulkRead_frame (s : State) (src win a n : Nat) : MemFrame s (bulkRead s src win a n).1 := bulkSectors_frame ..

/-! ### Dockets and the stop of a job (R136, R446) -/

/-- Finishing a docket changes its ring alone. -/
theorem finishDocket_eq (s : State) (r status detail : Nat) :
    finishDocket s r status detail = { s with hif := { s.hif with ring := (finishDocket s r status detail).hif.ring } } := rfl
theorem finishDocket_frame (s : State) (r status detail : Nat) : StopFrame s (finishDocket s r status detail) := by
  constructor <;> rfl
@[simp] theorem finishDocket_other (s : State) (p r status detail : Nat) (h : p ≠ r) :
    (finishDocket s r status detail).ring p = s.ring p := State.ring_updRing_other s p r _ h
/-- The running docket of a ring takes the status and DETAIL. -/
theorem finishDocket_result (s : State) (r status detail : Nat) (d : Docket) (h : (s.ring r).running = some d)
    (k : (s.ring r).result = none) :
    (finishDocket s r status detail).ring r
      = { s.ring r with result := some (BitVec.ofNat 8 status, BitVec.ofNat 64 detail) } := by
  simp [finishDocket, h, k]
/-- A status given first stays. -/
theorem finishDocket_late (s : State) (r status detail : Nat) (h : (s.ring r).result.isSome = true) :
    (finishDocket s r status detail).ring r = s.ring r := by
  simp [finishDocket, Option.isNone_iff_eq_none, Option.isSome_iff_ne_none.1 h]
theorem docketsStop_frame (s : State) (job : Nat) : StopFrame s (docketsStop s job) := by
  refine StopFrame.foldl ?_ _ s
  intro s e
  split
  · split
    · exact finishDocket_frame ..
    · exact .refl s
  · exact .refl s
theorem updJob_frame (s : State) (w : Nat) (f : Job → Job) : StopFrame s (s.updJob w f) := by constructor <;> rfl
theorem updClu_frame (s : State) (q : Nat) (f : Cluster → Cluster) : StopFrame s (s.updClu q f) := by constructor <;> rfl
theorem restoreTable_frame (s : State) (win : Nat) (tbl : DWord) (h : PressHdr) : MemFrame s (restoreTable s win tbl h) := by
  simp only [restoreTable]
  exact ((devPut_frame ..).trans (devPut_frame ..)).trans (MemFrame.foldl (fun s b => devPut_frame ..) _ _)
theorem press_frame (s : State) (p : Press) : StopFrame s { s with press := p } := by constructor <;> rfl
theorem pressStop_frame (s : State) (win job : Nat) : StopFrame s (pressStop s win job) := by
  simp only [pressStop]
  split
  · refine StopFrame.trans (StopFrame.foldl ?_ s.press.tables s) (press_frame _ _)
    intro t x
    split
    · exact (restoreTable_frame ..).stopFrame
    · exact .refl t
  · exact .refl s
theorem mendStop_frame (s : State) (job : Nat) : StopFrame s (mendStop s job) := by
  simp only [mendStop]
  split
  · constructor <;> rfl
  · exact .refl s
theorem coll_frame (s : State) (c : Coll) (m : Mgl) : StopFrame s { s with coll := c, mgl := m } := by constructor <;> rfl
theorem jobStop_frame (s : State) (w : Nat) (y : StopWhy) : StopFrame s (jobStop s w y) := by
  simp only [jobStop]
  split
  · exact .refl s
  · split
    · exact updJob_frame ..
    · refine StopFrame.trans (StopFrame.trans ?_ (coll_frame _ _ _)) (docketsStop_frame _ _)
      refine StopFrame.trans (StopFrame.trans ?_ (pressStop_frame _ _ _)) (mendStop_frame _ _)
      refine StopFrame.trans (updJob_frame s w _) (StopFrame.foldl ?_ _ _)
      intro s q
      split
      · exact .refl s
      · exact updClu_frame ..
/-- A job that does not run is not stopped. -/
theorem jobStop_idle (s : State) (w : Nat) (y : StopWhy) (h : (s.jobAt w).running = false) : jobStop s w y = s := by
  simp [jobStop, h]
theorem stopAll_frame (s : State) (y : StopWhy) : StopFrame s (stopAll s y) :=
  StopFrame.foldl (fun s w => jobStop_frame s w y) _ s
theorem cluStop_frame (s : State) (q : Nat) (y : StopWhy) : StopFrame s (cluStop s q y) := by
  simp only [cluStop]
  split
  · exact jobStop_frame ..
  · exact .refl s
theorem devStore_frame (s : State) (src win : Nat) (a : Int) (b : List Byte) (stain : Bool) :
    StopFrame s (devStore s src win a b stain) := by
  simp only [devStore]
  split
  · exact (devPut_frame ..).stopFrame.trans (jobStop_frame ..)
  · exact (devPut_frame ..).stopFrame
theorem stainExit_frame (s : State) (win src detail : Nat) : StopFrame s (stainExit s win src detail) :=
  (raise_frame ..).memFrame.stopFrame.trans (jobStop_frame ..)
theorem bulkWrite_frame (s : State) (src win a : Nat) (l : List (Byte × Bool)) : StopFrame s (bulkWrite s src win a l) :=
  StopFrame.foldl (fun _ _ => devStore_frame ..) _ s
theorem bulkStain_frame (s : State) (src win a n : Nat) : StopFrame s (bulkStain s src win a n) := by
  simp only [bulkStain]
  split
  · exact .refl s
  · exact (bulkRead_frame s src win a n).stopFrame.trans (bulkWrite_frame ..)

end Sys2Proof.Machine
end

