-- ==== Sys2Proof/Laws/Dockets.lean ====
section
/-!
SUPPORT. What the shared operations of dockets and rings do (R441–R448): a docket that runs performs its effect, one that
does not leaves the state as it is, and a reply leaves everything but its ring, the messages and the output alone.
-/
namespace Sys2Proof.Machine
open Sys2Proof

/-! ### Performing a docket -/

theorem dkDo_runs {s : State} {r op : Nat} {d : Docket} (f : State → Docket → State) (h : Runs s r op d) :
    dkDo s r op f = f s d := by
  obtain ⟨h1, h2, h3, h4⟩ := h
  simp [dkDo, h1, h2, h3, h4]
theorem dkDo_none (s : State) (r op : Nat) (f : State → Docket → State) (h : (s.ring r).running = none) :
    dkDo s r op f = s := by
  simp [dkDo, h]
theorem dkDo_began (s : State) (r op : Nat) (f : State → Docket → State) (h : (s.ring r).began = true) :
    dkDo s r op f = s := by
  simp only [dkDo]
  split
  · simp [h]
  · rfl
theorem dkInWindow_some {s : State} {r op w : Nat} {d : Docket} (f : State → Docket → Nat → State) (h : Runs s r op d)
    (k : windowOf s (dkJob d) = some w) : dkInWindow s r op f = f s d w := by
  simp only [dkInWindow]
  rw [dkDo_runs _ h]
  simp [k]
theorem dkInWindow_none {s : State} {r op : Nat} {d : Docket} (f : State → Docket → Nat → State) (h : Runs s r op d)
    (k : windowOf s (dkJob d) = none) : dkInWindow s r op f = finishDocket s r stJob 0 := by
  simp only [dkInWindow]
  rw [dkDo_runs _ h]
  simp [k]

/-- A docket that runs and finishes at once ends with its status, and only its ring has changed. -/
theorem finishDocket_ends {s : State} {r op : Nat} {d : Docket} (status detail : Nat) (h : Runs s r op d) :
    OnlyRing s (finishDocket s r status detail) r ∧ Ends s (finishDocket s r status detail) r status detail := by
  obtain ⟨h1, h2, h3, h4⟩ := h
  refine ⟨⟨rfl, fun p n => finishDocket_other s p r status detail n⟩, ?_, ?_⟩
  · rw [finishDocket_result s r status detail d h1 h3]
  · rw [finishDocket_result s r status detail d h1 h3]
theorem dkBegan_only (s : State) (r : Nat) : OnlyRing s (dkBegan s r) r :=
  ⟨rfl, fun p n => State.ring_updRing_other s p r _ n⟩
@[simp] theorem dkBegan_ring (s : State) (r : Nat) : (dkBegan s r).ring r = { s.ring r with began := true } := by
  simp [dkBegan]

/-! ### Replies (R442, R470) -/

theorem emit_frame (s : State) (o : Out) : HostFrame s (s.emit o) := by constructor <;> rfl
theorem updRing_frame (s : State) (r : Nat) (f : RingSt → RingSt) : HostFrame s (s.updRing r f) := by constructor <;> rfl
theorem msixSend_frame (s : State) (f : Fn) (vec : Nat) : HostFrame s (msixSend s f vec) := by
  simp only [msixSend]
  split
  · exact .refl s
  · split
    · exact emit_frame _ _
    · split
      · exact .refl s
      · constructor <;> rfl
/-- A vector that is unmasked and can be sent is sent at once. -/
theorem msixSend_out (s : State) (f : Fn) (vec : Nat) (h : msixOn s f = true) (k : vec < fnVectors f)
    (u : (fnNum f, vec) ∈ s.irq.unmasked) : msixSend s f vec = s.emit (.msix f vec) := by
  simp [msixSend, h, u, Nat.not_le.2 k]
theorem putReply_frame (s : State) (r : Nat) (p : Reply) : HostFrame s (putReply s r p) := by
  simp only [putReply]
  split
  · exact HostFrame.trans (HostFrame.trans (emit_frame _ _) (updRing_frame _ _ _)) (msixSend_frame _ _ _)
  · exact HostFrame.trans (emit_frame _ _) (updRing_frame _ _ _)
theorem giveReply_frame (s : State) (r : Nat) (p : Reply) : HostFrame s (giveReply s r p) := by
  simp only [giveReply]
  split
  · exact .refl s
  · split
    · exact updRing_frame _ _ _
    · exact putReply_frame _ _ _
theorem writeHeld_frame (s : State) (r : Nat) : HostFrame s (writeHeld s r) :=
  HostFrame.trans (updRing_frame _ _ _) (HostFrame.foldl (fun s p => putReply_frame s r p) _ _)
theorem completeDocket_frame (s : State) (r : Nat) : HostFrame s (completeDocket s r) := by
  simp only [completeDocket]
  split
  · exact HostFrame.trans (updRing_frame _ _ _) (giveReply_frame _ _ _)
  · exact .refl s

/-! ### Moving data (R448) -/

theorem moveIn_frame (win : Nat) : ∀ (n : Nat) (s : State) (a : Nat) (b : List Byte), MemFrame s (moveIn win n s a b).1
  | 0, s, _, _ => .refl s
  | n + 1, s, a, b => by
    simp only [moveIn]
    have m := meetXlat_frame s hostSrc win (xlate s win a true)
    split
    · rename_i k; rw [k] at m; exact m.trans (xlatFault_frame ..)
    · rename_i k; rw [k] at m; exact m.trans ((secWrite_frame ..).trans (moveIn_frame win n _ _ _))
theorem moveOut_frame (win : Nat) : ∀ (n : Nat) (s : State) (a : Nat), MemFrame s (moveOut win n s a).1
  | 0, s, _ => .refl s
  | n + 1, s, a => by
    simp only [moveOut]
    have m := meetXlat_frame s hostSrc win (xlate s win a false)
    split
    · rename_i k; rw [k] at m; exact m.trans (xlatFault_frame ..)
    · rename_i k; rw [k] at m; exact m.trans ((winRead_frame ..).trans (moveOut_frame win n _ _))
/-- A transfer that meets no fault moves all of its bytes. -/
theorem moveIn_moved (win : Nat) : ∀ (n : Nat) (s : State) (a : Nat) (b : List Byte),
    (moveIn win n s a b).2.2 = false → (moveIn win n s a b).2.1 = 32 * n
  | 0, _, _, _, _ => rfl
  | n + 1, s, a, b, h => by
    simp only [moveIn] at h ⊢
    split
    · simp_all
    · simp_all only
      rw [moveIn_moved win n _ _ _ h]
      omega

end Sys2Proof.Machine
end

