-- ==== Sys2Proof/Laws/Issue.lean ====
section
/-!
SUPPORT. What an issue attempt and the shared scalar operations do: an attempt that meets `Issues` settles its body, and a
scalar result is written to RD alone.
-/
namespace Sys2Proof.Machine
open Sys2Proof

theorem readRa_quiet {s : State} (h : s.guard.armed = []) (q n : Nat) : readRa s q n = s := by
  simp [readRa, sramMeet_quiet h]
/-- An attempt that passes every check settles what the word does (R164, R165). -/
theorem seqOp_issues {s : State} {q : Cl} {op : Nat} {w : BitVec 120} (body : Nat → Nat → State → Did)
    (h : Issues s q op w) : seqOp op q w body s = .next (settle q.val (body q.val (wordOf op w) s)) := by
  obtain ⟨h1, h0, h2, h3, h4, h5⟩ := h
  simp [seqOp, seqIssue, checkedIssue, readRa_quiet h5, detect_quiet h5, h0, h1, h2, h3, h4]
/-- A sequencer that may not issue does nothing. -/
theorem seqOp_idle {s : State} {q : Cl} (op : Nat) (w : BitVec 120) (body : Nat → Nat → State → Did)
    (h : canIssue (s.clu q.val) = false) : seqOp op q w body s = .next s := by
  simp [seqOp, seqIssue, h]
/-- A sequencer whose island's clock is stopped does nothing (R43). -/
theorem seqOp_stopped {s : State} {q : Cl} (op : Nat) (w : BitVec 120) (body : Nat → Nat → State → Did)
    (h : islandStopped s q.val = true) : seqOp op q w body s = .next s := by
  simp [seqOp, seqIssue, h]
/-- What a stopped island's clock would do does not happen. -/
theorem onClock_stopped {s t : State} {q : Cl} (h : islandStopped s q.val = true) : onClock q s t = .next s := by
  simp [onClock, h]
/-- A running one does it. -/
theorem onClock_runs {s t : State} {q : Cl} (h : islandStopped s q.val = false) : onClock q s t = .next t := by
  simp [onClock, h]
/-- A word not in the instruction cache is missed. -/
theorem seqOp_missing {s : State} {q : Cl} (op : Nat) (w : BitVec 120) (body : Nat → Nat → State → Did)
    (h : canIssue (s.clu q.val) = true) (h0 : islandStopped s q.val = false) (k : fetchAt (s.clu q.val) = .missing) :
    seqOp op q w body s = .next (s.updClu q.val fun k => { k with missing := true }) := by
  simp [seqOp, seqIssue, h, h0, k]

/-! ### Settling -/

@[simp] theorem settle_go (q : Nat) (s : State) : settle q (.go s) = s.updClu q advance := rfl
@[simp] theorem settle_jump (q : Nat) (s : State) (t : Nat) :
    settle q (.jump s t) = s.updClu q fun k => { k with pc := BitVec.ofNat 64 t, state := 1 } := rfl
@[simp] theorem settle_stall (q : Nat) (s : State) (st : Nat) : settle q (.stall s st) = s.updClu q (stallAt · st) := rfl
@[simp] theorem settle_halt (q : Nat) (s : State) : settle q (.halt s) = s := rfl

/-- A change of one cluster is a change of that cluster only. -/
theorem updClu_only (s : State) (q : Nat) (f : Cluster → Cluster) : OnlyCluster s (s.updClu q f) q :=
  ⟨rfl, fun p h => State.clu_updClu_other s p q f h⟩
theorem OnlyCluster.trans {s t u : State} {q : Nat} (h : OnlyCluster s t q) (k : OnlyCluster t u q) : OnlyCluster s u q := by
  obtain ⟨h1, h2⟩ := h
  obtain ⟨k1, k2⟩ := k
  refine ⟨?_, fun p n => (k2 p n).trans (h2 p n)⟩
  rw [k1, h1]

/-! ### `advance` keeps the registers -/

@[simp] theorem advance_sreg (k : Cluster) : (advance k).sreg = k.sreg := by
  simp only [advance]; split <;> first | (split <;> rfl) | rfl
@[simp] theorem advance_sstain (k : Cluster) : (advance k).sstain = k.sstain := by
  simp only [advance]; split <;> first | (split <;> rfl) | rfl
@[simp] theorem advance_mreg (k : Cluster) : (advance k).mreg = k.mreg := by
  simp only [advance]; split <;> first | (split <;> rfl) | rfl
@[simp] theorem advance_mstain (k : Cluster) : (advance k).mstain = k.mstain := by
  simp only [advance]; split <;> first | (split <;> rfl) | rfl
@[simp] theorem advance_ldesc (k : Cluster) : (advance k).ldesc = k.ldesc := by
  simp only [advance]; split <;> first | (split <;> rfl) | rfl
@[simp] theorem advance_lstain (k : Cluster) : (advance k).lstain = k.lstain := by
  simp only [advance]; split <;> first | (split <;> rfl) | rfl
@[simp] theorem advance_lclean (k : Cluster) : (advance k).lclean = k.lclean := by
  simp only [advance]; split <;> first | (split <;> rfl) | rfl
@[simp] theorem advance_core (k : Cluster) : (advance k).core = k.core := by
  simp only [advance]; split <;> first | (split <;> rfl) | rfl
@[simp] theorem advance_ctr (k : Cluster) : (advance k).ctr = k.ctr := by
  simp only [advance]; split <;> first | (split <;> rfl) | rfl
/-- The registers do not enter into `advance`. -/
theorem advance_regs (k : Cluster) (r : Tbl DWord) (st : DWord) :
    advance { k with sreg := r, sstain := st } = { advance k with sreg := r, sstain := st } := by
  have e : ∀ b, blockLen { k with sreg := r, sstain := st, src := b } = blockLen k := fun _ => rfl
  by_cases h : k.src = true <;> by_cases g : blockLen k ≤ k.pc.toNat + 1 <;> simp [advance, e, h, g]

/-! ### Scalar registers (R110, R147) -/

@[simp] theorem sReg_zero (k : Cluster) : sReg k 0 = 0 := rfl
@[simp] theorem sStain_zero (k : Cluster) : sStain k 0 = false := rfl
@[simp] theorem putS_zero (k : Cluster) (v : Nat) (st : Bool) : putS k 0 v st = k := rfl
theorem sReg_advance (k : Cluster) (r : Nat) : sReg (advance k) r = sReg k r := by simp [sReg]
theorem sStain_advance (k : Cluster) (r : Nat) : sStain (advance k) r = sStain k r := by simp [sStain]
theorem sReg_putS_same (k : Cluster) (r v : Nat) (st : Bool) (h : r ≠ 0) (b : v < 2 ^ 64) : sReg (putS k r v st) r = v := by
  simp only [sReg, putS, h, if_false, Tbl.get_set_same, BitVec.toNat_ofNat]
  exact Nat.mod_eq_of_lt b
theorem sReg_putS_other (k : Cluster) (r i v : Nat) (st : Bool) (h : i ≠ r) : sReg (putS k r v st) i = sReg k i := by
  by_cases z : r = 0
  · simp [putS, z]
  · simp [sReg, putS, z, h]

end Sys2Proof.Machine
end

