-- ==== Sys2Proof/Laws/Memory.lean ====
section
/-!
SUPPORT. Addressed memory: every operation keeps its canonical form, a read after a write of the same place gives what was
written, and a write leaves every other place alone.
-/
namespace Sys2Proof.Machine
open Sys2Proof

/-! ### Runs of bytes in a table -/

/-- Storing a run of values keeps the canonical form. -/
theorem Tbl.wf_foldl_set {α β : Type} [DecidableEq α] (d : α) (k : β → Nat) (v : β → α) (l : List β) (t : Tbl α)
    (h : Tbl.wf d t = true) : Tbl.wf d (l.foldl (fun t i => Tbl.set d t (k i) (v i)) t) = true := by
  induction l generalizing t with
  | nil => exact h
  | cons b l ih => exact ih _ (Tbl.wf_set d t _ _ h)
/-- A run of values at rising places leaves every place outside it alone. -/
theorem Tbl.get_foldl_set_other {α : Type} [DecidableEq α] (d : α) (base : Nat) (v : Nat → α) (l : List Nat) (t : Tbl α)
    (x : Nat) (h : ∀ i ∈ l, x ≠ base + i) :
    Tbl.get d (l.foldl (fun t i => Tbl.set d t (base + i) (v i)) t) x = Tbl.get d t x := by
  induction l generalizing t with
  | nil => rfl
  | cons b l ih =>
    rw [List.foldl_cons, ih _ fun i hi => h i (by simp [hi])]
    exact Tbl.get_set_other d t _ _ _ (h b (by simp))
/-- A place inside the run holds its value. -/
theorem Tbl.get_foldl_set_range {α : Type} [DecidableEq α] (d : α) (base : Nat) (v : Nat → α) (n : Nat) (t : Tbl α)
    (i : Nat) (h : i < n) :
    Tbl.get d ((List.range n).foldl (fun t i => Tbl.set d t (base + i) (v i)) t) (base + i) = v i := by
  induction n with
  | zero => omega
  | succ n ih =>
    rw [List.range_succ, List.foldl_append]
    by_cases e : i = n
    · subst e; simp
    · simp only [List.foldl_cons, List.foldl_nil]
      rw [Tbl.get_set_other _ _ _ _ _ (by omega)]
      exact ih (by omega)

theorem tblPutSector_wf (t : Tbl Byte) (base : Nat) (b : List Byte) (h : Tbl.wf 0 t = true) :
    Tbl.wf 0 (tblPutSector t base b) = true := Tbl.wf_foldl_set 0 _ _ _ t h
/-- A byte written reads back. -/
theorem tblPutSector_same (t : Tbl Byte) (base : Nat) (b : List Byte) (i : Nat) (h : i < b.length) :
    Tbl.get 0 (tblPutSector t base b) (base + i) = byteAt b i := Tbl.get_foldl_set_range 0 base _ _ t i h
/-- A byte outside the run stays. -/
theorem tblPutSector_other (t : Tbl Byte) (base : Nat) (b : List Byte) (x : Nat) (h : x < base ∨ base + b.length ≤ x) :
    Tbl.get 0 (tblPutSector t base b) x = Tbl.get 0 t x :=
  Tbl.get_foldl_set_other 0 base _ _ t x fun i hi => by have := List.mem_range.1 hi; omega

/-! ### The canonical form -/

theorem reset_mem_wf : Memory.wf State.reset.mem = true := by decide
theorem nmStore_wf (s : State) (stack sec : Nat) (data : List Byte) (stain : Bool) (h : Memory.wf s.mem = true) :
    Memory.wf (nmStore s stack sec data stain).mem = true := by
  simp only [Memory.wf, Bool.and_eq_true] at h ⊢
  obtain ⟨⟨⟨⟨⟨⟨⟨⟨⟨⟨⟨h1, h2⟩, h3⟩, h4⟩, h5⟩, h6⟩, h7⟩, h8⟩, h9⟩, h10⟩, h11⟩, h12⟩ := h
  refine ⟨⟨⟨⟨⟨⟨⟨⟨⟨⟨⟨?_, h2⟩, h3⟩, h4⟩, h5⟩, h6⟩, h7⟩, h8⟩, ?_⟩, h10⟩, h11⟩, h12⟩
  · exact Tbl.wf_foldl_set 0 _ _ _ _ h1
  · simp only [nmStore, nmPut]
    split
    · exact Tbl.wf_set _ _ _ _ h9
    · exact h9
theorem hbmStore_wf (s : State) (stack sec : Nat) (data : List Byte) (stain : Bool) (h : Memory.wf s.mem = true) :
    Memory.wf (hbmStore s stack sec data stain).mem = true := by
  simp only [Memory.wf, Bool.and_eq_true] at h ⊢
  obtain ⟨⟨⟨⟨⟨⟨⟨⟨⟨⟨⟨h1, h2⟩, h3⟩, h4⟩, h5⟩, h6⟩, h7⟩, h8⟩, h9⟩, h10⟩, h11⟩, h12⟩ := h
  exact ⟨⟨⟨⟨⟨⟨⟨⟨⟨⟨⟨h1, Tbl.wf_foldl_set 0 _ _ _ _ h2⟩, Tbl.wf_set _ _ _ _ h3⟩, h4⟩, h5⟩, h6⟩, h7⟩, h8⟩, h9⟩,
    Tbl.wf_set .clean s.mem.hbmErr (stack * 2 ^ 31 + sec) .clean h10⟩, h11⟩, h12⟩
/-- A change of a base die's own state is none of addressed memory. -/
theorem updDieMem_wf (s : State) (d : Nat) (f : DieMem → DieMem) (h : Memory.wf s.mem = true) :
    Memory.wf (s.updDieMem d f).mem = true := h
theorem raise_wf (s : State) (e : Ev) (h : Memory.wf s.mem = true) : Memory.wf (raise s e).mem = true := by
  rw [(raise_frame s e).mem]; exact h
theorem xlatFault_wf (s : State) (src win : Nat) (a : Int) (kind : Nat) (write stops inj : Bool)
    (h : Memory.wf s.mem = true) : Memory.wf (xlatFault s src win a kind write stops inj).mem = true := by
  simp only [xlatFault]
  refine raise_wf _ _ ?_
  dsimp only
  split <;> exact h
theorem nmReadWith_wf (s : State) (stack sec : Nat) (upset : List (Nat × Byte)) (inj : Bool)
    (h : Memory.wf s.mem = true) : Memory.wf (nmReadWith s stack sec upset inj).1.mem = true := by
  simp only [nmReadWith]
  split
  · exact h
  · exact updDieMem_wf _ _ _ (raise_wf _ _ h)
  · exact raise_wf _ _ (nmStore_wf _ _ _ _ _ h)
/-- Noting the error that a sector holds keeps the canonical form. -/
theorem hbmNote_wf (s : State) (stack sec : Nat) (rep : EccReport) (h : Memory.wf s.mem = true) :
    Memory.wf (hbmNote s stack sec rep).mem = true := by
  simp only [hbmNote]
  split
  · exact h
  · simp only [Memory.wf, Bool.and_eq_true] at h ⊢
    obtain ⟨⟨⟨⟨⟨⟨⟨⟨⟨⟨⟨h1, h2⟩, h3⟩, h4⟩, h5⟩, h6⟩, h7⟩, h8⟩, h9⟩, h10⟩, h11⟩, h12⟩ := h
    exact ⟨⟨⟨⟨⟨⟨⟨⟨⟨⟨⟨h1, h2⟩, h3⟩, h4⟩, h5⟩, h6⟩, h7⟩, h8⟩, h9⟩, Tbl.wf_set _ _ _ _ h10⟩, h11⟩, h12⟩
theorem hbmReadWith_wf (s : State) (stack sec : Nat) (rep : EccReport) (inj : Bool)
    (h : Memory.wf s.mem = true) : Memory.wf (hbmReadWith s stack sec rep inj).1.mem = true := by
  replace h := hbmNote_wf s stack sec rep h
  simp only [hbmReadWith]
  generalize hbmNote s stack sec rep = s at h ⊢
  split
  · exact h
  · exact h
  · exact raise_wf _ _ h
  · exact raise_wf _ _ h
  · refine raise_wf _ _ ?_
    simp only [Memory.wf, Bool.and_eq_true] at h ⊢
    obtain ⟨⟨⟨⟨⟨⟨⟨⟨⟨⟨⟨h1, h2⟩, h3⟩, h4⟩, h5⟩, h6⟩, h7⟩, h8⟩, h9⟩, h10⟩, h11⟩, h12⟩ := h
    exact ⟨⟨⟨⟨⟨⟨⟨⟨⟨⟨⟨h1, h2⟩, Tbl.wf_set _ _ _ _ h3⟩, h4⟩, h5⟩, h6⟩, h7⟩, h8⟩, h9⟩, h10⟩, h11⟩, h12⟩
theorem dramStore_wf (s : State) (hbm : Bool) (stack sec : Nat) (data : List Byte) (stain : Bool)
    (h : Memory.wf s.mem = true) : Memory.wf (dramStore s hbm stack sec data stain).mem = true := by
  simp only [dramStore]
  split
  · exact hbmStore_wf _ _ _ _ _ h
  · exact nmStore_wf _ _ _ _ _ h
/-- An injection that acts is none of addressed memory. -/
theorem takeInject_mem {s t : State} {cls src win n : Nat} (h : takeInject s cls src win = some (n, t)) : t.mem = s.mem := by
  rw [takeInject_some h]
theorem nmErrs_mem (s : State) (stack : Nat) (win : Option Nat) (upset : List (Nat × Byte)) :
    (nmErrs s stack win upset).1.mem = s.mem := by
  simp only [nmErrs]
  split
  · rename_i h
    cases win with
    | none => cases h
    | some v => have k := takeInject_mem h; exact k
  · rfl
theorem hbmErrs_mem (s : State) (stack : Nat) (win : Option Nat) (rep : EccReport) :
    (hbmErrs s stack win rep).1.mem = s.mem := by
  simp only [hbmErrs]
  split
  · rename_i h
    cases win with
    | none => cases h
    | some v => have k := takeInject_mem h; exact k
  · rfl
theorem dramRead_wf (s : State) (hbm : Bool) (stack sec : Nat) (upset : List (Nat × Byte)) (rep : EccReport)
    (win : Option Nat) (h : Memory.wf s.mem = true) : Memory.wf (dramRead s hbm stack sec upset rep win).1.mem = true := by
  simp only [dramRead]
  split
  · exact hbmReadWith_wf _ _ _ _ _ (by rw [hbmErrs_mem]; exact h)
  · exact nmReadWith_wf _ _ _ _ _ (by rw [nmErrs_mem]; exact h)
theorem dramWrite_wf (s : State) (hbm : Bool) (stack sec : Nat) (data : List Byte) (en : Nat) (stain : Bool)
    (upset : List (Nat × Byte)) (rep : EccReport) (win : Option Nat) (h : Memory.wf s.mem = true) :
    Memory.wf (dramWrite s hbm stack sec data en stain upset rep win).mem = true := by
  simp only [dramWrite]
  split
  · exact dramStore_wf _ _ _ _ _ _ h
  · split
    · exact h
    · exact dramStore_wf _ _ _ _ _ _ (dramRead_wf _ _ _ _ _ _ _ h)
/-- An activation of a bank keeps the canonical form. -/
theorem hbmActivate_wf (s : State) (stack sec : Nat) (h : Memory.wf s.mem = true) :
    Memory.wf (hbmActivate s stack sec).mem = true := by
  simp only [Memory.wf, Bool.and_eq_true] at h ⊢
  obtain ⟨⟨⟨⟨⟨⟨⟨⟨⟨⟨⟨h1, h2⟩, h3⟩, h4⟩, h5⟩, h6⟩, h7⟩, h8⟩, h9⟩, h10⟩, h11⟩, h12⟩ := h
  refine ⟨⟨⟨⟨⟨⟨⟨⟨⟨⟨⟨h1, h2⟩, h3⟩, h4⟩, h5⟩, h6⟩, h7⟩, h8⟩, h9⟩, h10⟩, ?_⟩, ?_⟩
  · simp only [hbmActivate]
    exact Tbl.wf_set _ _ _ _ h11
  · simp only [hbmActivate]
    split
    · exact h12
    · exact Tbl.wf_set _ _ _ _ h12
theorem activate_wf (s : State) (hbm : Bool) (stack sec : Nat) (h : Memory.wf s.mem = true) :
    Memory.wf (activate s hbm stack sec).mem = true := by
  simp only [activate]
  split
  · exact hbmActivate_wf _ _ _ h
  · exact h
/-- A write of a sector of any tier keeps the canonical form. -/
theorem secWrite_wf (s : State) (p : Place) (data : List Byte) (en : Nat) (stain : Bool) (win : Option Nat)
    (h : Memory.wf s.mem = true) : Memory.wf (secWrite s p data en stain win).mem = true := by
  simp only [secWrite]
  split
  · split
    · exact updDieMem_wf _ _ _ h
    · exact dramWrite_wf _ _ _ _ _ _ _ _ _ _ h
  · split
    · exact updDieMem_wf _ _ _ h
    · exact dramWrite_wf _ _ _ _ _ _ _ _ _ _ h
  · simp only [Memory.wf, Bool.and_eq_true] at h ⊢
    obtain ⟨⟨⟨⟨⟨⟨⟨⟨⟨⟨⟨h1, h2⟩, h3⟩, h4⟩, h5⟩, h6⟩, h7⟩, h8⟩, h9⟩, h10⟩, h11⟩, h12⟩ := h
    exact ⟨⟨⟨⟨⟨⟨⟨⟨⟨⟨⟨h1, h2⟩, h3⟩, tblPutSector_wf _ _ _ h4⟩, Tbl.wf_set _ _ _ _ h5⟩, h6⟩, h7⟩, h8⟩, h9⟩, h10⟩, h11⟩, h12⟩
  · simp only [Memory.wf, Bool.and_eq_true] at h ⊢
    obtain ⟨⟨⟨⟨⟨⟨⟨⟨⟨⟨⟨h1, h2⟩, h3⟩, h4⟩, h5⟩, h6⟩, h7⟩, h8⟩, h9⟩, h10⟩, h11⟩, h12⟩ := h
    exact ⟨⟨⟨⟨⟨⟨⟨⟨⟨⟨⟨h1, h2⟩, h3⟩, h4⟩, h5⟩, tblPutSector_wf _ _ _ h6⟩, Tbl.wf_set _ _ _ _ h7⟩, h8⟩, h9⟩, h10⟩, h11⟩, h12⟩
theorem secRead_wf (s : State) (p : Place) (win : Option Nat) (h : Memory.wf s.mem = true) :
    Memory.wf (secRead s p win).1.mem = true := by
  simp only [secRead]
  split
  · split
    · exact h
    · exact dramRead_wf _ _ _ _ _ _ _ h
  · split
    · exact h
    · exact dramRead_wf _ _ _ _ _ _ _ h
  · exact h
  · exact h
theorem meetXlat_mem (s : State) (src win : Nat) (r : Xlat) : (meetXlat s src win r).1.mem = s.mem := by
  simp only [meetXlat]
  split
  · rename_i h
    have k := takeInject_mem h
    exact k
  · rfl
/-- A write to device addresses keeps the canonical form. -/
theorem devPut_wf (s : State) (src win : Nat) (a : Int) (b : List Byte) (stain : Bool) (h : Memory.wf s.mem = true) :
    Memory.wf (devPut s src win a b stain).1.mem = true := by
  simp only [devPut]
  suffices k : ∀ (l : List (Int × List Byte × Nat)) (x : State × Bool), Memory.wf x.1.mem = true →
      Memory.wf (l.foldl (fun (x : State × Bool) (y : Int × List Byte × Nat) =>
        match meetXlat x.1 src win (xlateBy x.1 src win y.1 true) with
        | (s, .fault k, inj) => (xlatFault s src win y.1 k true true inj, true)
        | (s, .ok p _, _) => (secWrite s p y.2.1 y.2.2 stain (some win), x.2)) x).1.mem = true from k _ (s, false) h
  intro l
  induction l with
  | nil => intro x hx; exact hx
  | cons y l ih =>
    intro x hx
    refine ih _ ?_
    have m := meetXlat_mem x.1 src win (xlateBy x.1 src win y.1 true)
    dsimp only
    split
    · rename_i k; rw [k] at m; exact xlatFault_wf _ _ _ _ _ _ _ _ (by rw [m]; exact hx)
    · rename_i k; rw [k] at m; exact secWrite_wf _ _ _ _ _ _ (by rw [m]; exact hx)
theorem setEntry_wf (s : State) (win v : Nat) (e : DWord) (h : Memory.wf s.mem = true) :
    Memory.wf (setEntry s win v e).mem = true := by
  have k : Memory.wf { s.mem with table := Tbl.set 0 s.mem.table (win * 2 ^ 20 + v) e } = true := by
    simp only [Memory.wf, Bool.and_eq_true] at h ⊢
    obtain ⟨⟨⟨⟨⟨⟨⟨⟨⟨⟨⟨h1, h2⟩, h3⟩, h4⟩, h5⟩, h6⟩, h7⟩, h8⟩, h9⟩, h10⟩, h11⟩, h12⟩ := h
    exact ⟨⟨⟨⟨⟨⟨⟨⟨⟨⟨⟨h1, h2⟩, h3⟩, h4⟩, h5⟩, h6⟩, h7⟩, Tbl.wf_set _ _ _ _ h8⟩, h9⟩, h10⟩, h11⟩, h12⟩
  simp only [setEntry, raisePeak]
  split
  · split <;> exact k
  · exact k

/-! ### Scratchpads (R129, R192) -/

/-- A write into a scratchpad keeps its tables in canonical form. -/
theorem padPutIn_wf (k : CoreSt) (a : Nat) (b : List Byte) (stain : Bool) (h : Tbl.wf 0 k.pad = true)
    (g : Tbl.wf false k.padClean = true) :
    Tbl.wf 0 (padPutIn k a b stain).pad = true ∧ Tbl.wf false (padPutIn k a b stain).padClean = true :=
  ⟨tblPutSector_wf _ _ _ h, Tbl.wf_set _ _ _ _ g⟩
theorem padPut_wf (k : CoreSt) (a : Nat) (b : List Byte) (stain : Bool) (h : Tbl.wf 0 k.pad = true)
    (g : Tbl.wf false k.padClean = true) :
    Tbl.wf 0 (padPut k a b stain).pad = true ∧ Tbl.wf false (padPut k a b stain).padClean = true := by
  simp only [padPut]
  generalize List.range _ = l
  induction l generalizing k with
  | nil => exact ⟨h, g⟩
  | cons i l ih =>
    have p := padPutIn_wf k (max a (32 * (a / 32 + i)))
      (cut b (max a (32 * (a / 32 + i)) - a) (min (a + b.length) (32 * (a / 32 + i + 1)) - max a (32 * (a / 32 + i)))) stain h g
    exact ih _ p.1 p.2

/-! ### Cluster buffers and shelf windows -/

/-- Bytes of a cluster buffer outside the sector that is written stay (R194). -/
theorem secWrite_buf_other (s : State) (q sec : Nat) (data : List Byte) (en : Nat) (stain : Bool) (win : Option Nat) (x : Nat)
    (h : x < q * 2 ^ 20 + sec * 32 ∨ q * 2 ^ 20 + sec * 32 + 32 ≤ x) :
    Tbl.get 0 (secWrite s (.buf q sec) data en stain win).mem.buf x = Tbl.get 0 s.mem.buf x := by
  simp only [secWrite]
  exact tblPutSector_other _ _ _ x (by simpa [mergeBytes] using h)
/-- A byte that is written whole reads back. -/
theorem secWrite_buf_same (s : State) (q sec : Nat) (data : List Byte) (en : Nat) (stain : Bool) (win : Option Nat) (i : Nat)
    (h : i < 32) (k : bitAt en i = true) :
    Tbl.get 0 (secWrite s (.buf q sec) data en stain win).mem.buf (q * 2 ^ 20 + sec * 32 + i) = byteAt data i := by
  simp only [secWrite]
  rw [tblPutSector_same _ _ _ i (by simpa [mergeBytes] using h)]
  simp [mergeBytes, byteAt, h, k]

end Sys2Proof.Machine
end

