-- ==== Sys2Proof/WellFormed.lean ====
section
/-!
DEFINITION. What a command's operands must be for the module to meet it: offsets inside the register space, frames and
flits of their length, sectors inside a stack, readings of sensors that exist. The meanings of the commands do not assume
it; the tests show an ill-formed command for each check.
-/
namespace Sys2Proof

/-- An aligned offset in the 4 MiB register space (Table 14.2). -/
def offOk (off : BitVec 32) : Bool := decide (off.toNat < 0x400000) && decide (off.toNat % 4 = 0)
/-- A register access of R523: 4 or 8 bytes, naturally aligned. -/
def accessOk (off : BitVec 32) (bytes : Nat) : Bool :=
  (bytes == 4 && decide (off.toNat % 4 = 0)) || (bytes == 8 && decide (off.toNat % 8 = 0))
/-- A wire flit is 72 bytes (R249). -/
def flitOk (flit : List (BitVec 8)) : Bool := flit.length == 72
/-- A sensor reads 0–125 °C (R477). -/
def tempOk (t : Int) : Bool := decide (0 ≤ t) && decide (t ≤ 500)
/-- A sector of a near-memory or an HBM4 stack (R192). -/
def sectorOk (hbm : Bool) (stack sec : Nat) : Bool :=
  if hbm then decide (stack < 16) && decide (sec < 2 ^ 31) else decide (stack < 8) && decide (sec < 24576 * 65536)
/-- A sector request names a stack below `n` and carries a sector's bytes. -/
def secOk (n : Nat) : SecReq → Bool
  | .stream _ _ _ _ => true
  | .sector stack sec data _ _ => decide (stack < n) && decide (sec < 2 ^ 31) && (data.isEmpty || data.length == 32)
/-- Upsets fall on the 36 symbols of a sector (R208). -/
def upsetOk (l : List (Nat × BitVec 8)) : Bool := l.all fun u => decide (u.1 < 36)
/-- A word of the shelf lies in its 192 MiB (R192). -/
def placeOk : SramPlace → Bool
  | .shelf _ w => decide (w.val < 25165824)
  | .scratch _ _ _ => true
  | .buffer _ _ => true
  | .sreg _ r => decide (r.val ≠ 0)
  | .ldesc _ _ _ => true
/-- Readings are of the sensors of Table 16.2. -/
def readingsOk (rd : Readings) : Bool :=
  rd.junction.all (fun x => decide (x.1 / 32 < 8) && decide (x.1 % 32 < 21) && tempOk x.2)
    && rd.base.all (fun x => decide (x.1 < 32) && tempOk x.2)
    && rd.near.all (fun x => decide (x.1 / 32 < 8) && decide (x.1 % 32 < 24) && tempOk x.2)
    && rd.hbm.all (fun x => decide (x.1 < 16) && tempOk x.2) && rd.iod.all (fun x => decide (x.1 < 2) && tempOk x.2)
    && rd.energy.all fun x => decide (x.1 < 8)

/-- The command's operands are ones that the module can meet. -/
def Instr.wf : Instr → Bool
  | .regLoReadSnapshot _ off => offOk off
  | .regLoWriteHold _ off _ => offOk off
  | .regHiWriteCommit _ off _ => offOk off
  | .regAtomic64Access _ off _ => offOk off
  | .regMalformedAccess _ off bytes _ => !accessOk off bytes
  | .regWrite _ off _ => offOk off
  | .selectRegisterWrite _ off _ => offOk off
  | .orgPatchReq _ _ => true
  | .orgPatchReqPhys _ _ => true
  | .patchFlashWriteComplete => true
  | .d2dFrameReceive _ _ frame => frame.length == 72
  | .d2dLaneFailure link module _ => decide (module.val < (if link.val < 4 then 8 else 4))
  | .nop _ _ => true
  | .endw _ _ => true
  | .abort _ _ => true
  | .jmp _ _ => true
  | .jal _ _ => true
  | .jr _ _ => true
  | .beq _ _ => true
  | .bne _ _ => true
  | .blt _ _ => true
  | .bge _ _ => true
  | .bltu _ _ => true
  | .bgeu _ _ => true
  | .bstn _ _ => true
  | .add _ _ => true
  | .sub _ _ => true
  | .mul _ _ => true
  | .mulhu _ _ => true
  | .andw _ _ => true
  | .orw _ _ => true
  | .xorw _ _ => true
  | .shl _ _ => true
  | .shr _ _ => true
  | .sra _ _ => true
  | .slt _ _ => true
  | .sltu _ _ => true
  | .min _ _ => true
  | .max _ _ => true
  | .addi _ _ => true
  | .li _ _ => true
  | .fadd _ _ => true
  | .fmul _ _ => true
  | .fmax _ _ => true
  | .fmin _ _ => true
  | .fcvtFi _ _ => true
  | .fcvtIf _ _ => true
  | .rdid _ _ => true
  | .sstn _ _ => true
  | .mset _ _ => true
  | .mget _ _ => true
  | .ldw _ _ => true
  | .ldlev _ _ => true
  | .ldbase _ _ => true
  | .ldbump _ _ => true
  | .ldmov _ _ => true
  | .ldrd _ _ => true
  | .fenceM _ _ => true
  | .fenceE _ _ => true
  | .sig _ _ => true
  | .waits _ _ => true
  | .sld _ _ => true
  | .numfRd _ _ => true
  | .numfClr _ _ => true
  | .cstartBarrier _ _ => true
  | .cstartAllReduce _ _ => true
  | .cstartReduceScatter _ _ => true
  | .cstartAllGather _ _ => true
  | .cstartAllToAll _ _ => true
  | .cstartGlobalNorm _ _ => true
  | .cwait _ _ => true
  | .mma _ _ => true
  | .minplus _ _ => true
  | .maxplus _ _ => true
  | .absdiff _ _ => true
  | .sqdiff _ _ => true
  | .cmpcnt _ _ => true
  | .argmax _ _ => true
  | .vadd _ _ => true
  | .vsub _ _ => true
  | .vmul _ _ => true
  | .vfma _ _ => true
  | .vmax _ _ => true
  | .vmin _ _ => true
  | .vabs _ _ => true
  | .vneg _ _ => true
  | .vexp2 _ _ => true
  | .vlog2 _ _ => true
  | .vrcp _ _ => true
  | .vrsqrt _ _ => true
  | .vcvt _ _ => true
  | .vcmp _ _ => true
  | .vredmax _ _ => true
  | .vredsum _ _ => true
  | .vmxq _ _ => true
  | .vsmerge _ _ => true
  | .vrand _ _ => true
  | .vcopy _ _ => true
  | .siLd _ _ => true
  | .siGath _ _ => true
  | .siWld _ _ => true
  | .soSt _ _ => true
  | .soScat _ _ => true
  | .icacheMissFill _ => true
  | .signalArrive _ _ _ => true
  | .seqCtxTimeout _ => true
  | .jobStopReachCluster _ => true
  | .clusterStopped _ => true
  | .clusterEnded _ => true
  | .clusterStartIssue _ => true
  | .arrayInstrStart _ _ => true
  | .arrayFeedStep _ _ _ _ flips => flips.all fun x => decide (x.1 < 64) && decide (x.2 < 8)
  | .arrayProductEnter _ _ _ _ => true
  | .arrayDrain _ _ _ _ => true
  | .drainAccept _ _ _ _ => true
  | .arrayPark _ _ _ => true
  | .arrayResume _ _ _ => true
  | .weightLoadStart _ _ => true
  | .weightLoadComplete _ _ => true
  | .vectorInstrStart _ _ => true
  | .vectorGroup _ _ => true
  | .vectorResultWrite _ _ => true
  | .streamInInstrStart _ _ => true
  | .streamOutInstrStart _ _ => true
  | .streamSectorIssue _ _ _ => true
  | .streamReadReturn _ _ _ => true
  | .streamWriteComplete _ _ _ => true
  | .engineInstrComplete _ _ _ => true
  | .xlatLookup _ => true
  | .xlatMissFill _ _ _ _ => true
  | .nmSectorRead r upset => secOk 8 r && upsetOk upset
  | .nmSectorWrite r upset => secOk 8 r && upsetOk upset
  | .hbmSectorRead r _ => secOk 16 r
  | .hbmSectorWrite r _ => secOk 16 r
  | .sramAccess p _ _ => placeOk p
  | .shelfCacheAccess _ _ _ _ _ _ => true
  | .patrolScrub hbm stack sec upset _ => sectorOk hbm stack sec && upsetOk upset
  | .hbmRefreshManagement _ _ _ => true
  | .nmDarnEpochEnd _ => true
  | .channelTempSample _ temp => tempOk temp
  | .memRetrainWindowOpen _ => true
  | .memRetrainWindowClose _ => true
  | .shelfCfgWrite _ _ _ => true
  | .residencyMoveComplete _ => true
  | .tlLinkEnWrite _ _ _ => true
  | .tlLinkFenceWrite _ _ _ => true
  | .tlLinkRetrainWrite _ _ _ => true
  | .tlSliceWrite _ _ _ => true
  | .linkTrainSignalDetect _ => true
  | .linkTrainRestart _ => true
  | .linkTrainEqualised _ => true
  | .linkTrainLanesFound _ _ _ _ => true
  | .linkFlitLock _ => true
  | .beaconSend _ => true
  | .beaconReceive _ flit => flitOk flit
  | .dataFlitReceive _ flit => flitOk flit
  | .idleFlitReceive _ flit => flitOk flit
  | .retryReqReceive _ flit => flitOk flit
  | .creditSyncReceive _ flit => flitOk flit
  | .retrainReqReceive _ flit => flitOk flit
  | .fencedRetrainStart _ => true
  | .flitSlotSend _ => true
  | .creditSyncSend _ => true
  | .replayTimeout _ => true
  | .retrainReqSend _ => true
  | .linkRetrainWindowStart _ => true
  | .linkRetrainWindowEnd _ => true
  | .tlLaneEpochEnd _ _ _ => true
  | .linkTempSample _ temp => tempOk temp
  | .routerHeadFlit _ _ => true
  | .packetDeliver => true
  | .linkLeaveUp _ => true
  | .phaseDrainStart => true
  | .phaseDrainRoundComplete _ _ => true
  | .phaseResumeComplete => true
  | .phaseTimeout => true
  | .slcIdWrite _ _ => true
  | .slcMapWrite _ _ => true
  | .memAcctPeakRst _ _ => true
  | .collBlockRead _ => true
  | .collReadyReceive => true
  | .collArriveReceive => true
  | .collPartReceive => true
  | .collDataReceive => true
  | .collReleaseReceive => true
  | .collNormReceive => true
  | .collContextWaitTimeout => true
  | .collContextFree _ => true
  | .collHoldExpire _ _ => true
  | .collComplete _ => true
  | .collCtxPeakRst _ _ => true
  | .pressStepApply => true
  | .pressStepComplete => true
  | .manglePassStart => true
  | .mangleSendOwn => true
  | .mangleDataReceive => true
  | .mangleForward => true
  | .mangleGrantSend => true
  | .mangleGrantReceive => true
  | .manglePlanEnd => true
  | .gctSyncReqSend => true
  | .gctSyncReqReceive => true
  | .gctSyncRspReceive => true
  | .gctSyncLossTimeout => true
  | .gctWrap => true
  | .gctCompare => true
  | .gctSetWrite _ _ _ => true
  | .gctCmpWrite _ _ _ => true
  | .ledgerTakeReport _ => true
  | .regionLedgerForward _ => true
  | .ldgHeadWrite _ _ => true
  | .ldgClrFirst _ _ => true
  | .ldgClrLost _ _ => true
  | .patternBookComplete _ => true
  | .mendPacketReceive => true
  | .mendBarrierComplete => true
  | .guildFaultReceive => true
  | .guildGatherExpire => true
  | .guildVerdictReceive => true
  | .guildVackReceive => true
  | .guildVackTimeout => true
  | .guildReport => true
  | .guildPartialTimeout => true
  | .recStepComplete _ => true
  | .aprUnitReceive _ data _ _ => data.length == 4096
  | .aprDeltaReceive _ _ => true
  | .aprShadowStep _ => true
  | .aprTutorTimeout => true
  | .ringOpenRequest _ _ => true
  | .ringOpenComplete rcb hostOk => !hostOk || rcb.length == 64
  | .ringClose _ _ => true
  | .ringCloseComplete _ => true
  | .doorbellTail _ _ _ => true
  | .doorbellResume _ _ _ => true
  | .doorbellCompanionWrite _ _ _ => true
  | .docketFetch _ bytes => decide (64 ≤ bytes.length) && decide (bytes.length % 64 = 0)
  | .docketStart => true
  | .docketComplete _ => true
  | .nopDocket _ => true
  | .writeDocket _ data _ => decide (data.length % 32 = 0)
  | .readDocket _ _ => true
  | .streamDocket _ => true
  | .allocDocket _ => true
  | .freeDocket _ => true
  | .launchDocket _ => true
  | .stopDocket _ => true
  | .commDocket _ => true
  | .pressDocket _ => true
  | .mangleDocket _ => true
  | .exportDocket _ => true
  | .fitrecDocket _ => true
  | .commitDocket _ => true
  | .qpCreateDocket _ => true
  | .qpReadyDocket _ => true
  | .qpDestroyDocket _ => true
  | .qpKeyCreateDocket _ => true
  | .qpKeyDestroyDocket _ => true
  | .postDocket _ => true
  | .windowDocket _ => true
  | .phaseDocket _ => true
  | .mendDocket _ => true
  | .rebuildDocket _ => true
  | .guildDocket _ => true
  | .apprenticeDocket _ => true
  | .injectDocket _ => true
  | .patternDocket _ _ _ => true
  | .jobEnd _ => true
  | .pcieLinkDown => true
  | .pcieLinkUp rate width flit => decide (rate.val ≠ 0) && decide (width.val ≠ 0) && flit == decide (rate.val = 6)
  | .pcieFlr _ => true
  | .pciePerstAssert => true
  | .ethPacketReceive _ p => decide (p.qpn.toNat < 4096) && decide (p.data.length ≤ 4096)
  | .ethWorkRequestComplete _ qpn _ _ => decide (1 ≤ qpn.val)
  | .ethPortDown _ => true
  | .ethPortUp _ => true
  | .irqSourcePending src => decide (1 ≤ src.val) && decide (src.val ≤ 1022)
  | .irqOfferUpdate => true
  | .irqClaim _ _ => true
  | .irqComplete _ _ _ => true
  | .irqHoldExpire _ => true
  | .irqHostDone _ _ => true
  | .irqSwset _ _ => true
  | .irqSwclr _ _ => true
  | .msixVectorUnmask f vec => decide (vec.val < (if f = .f0 then 2048 else 64))
  | .msixEnable _ => true
  | .chitBoundary rd => readingsOk rd
  | .thermtripAssert => true
  | .regionClockChangeComplete _ _ => true
  | .modulePowerCheck _ => true
  | .pwrBrakeAssert => true
  | .docketStarving _ => true
  | .docketStarveForce _ => true
  | .coldReset => true
  | .bootStart _ => true
  | .bootReady => true
  | .bootTimeout => true
  | .bootRetryTimer => true
  | .bootCtlWarm _ _ => true
  | .smbusWarmReset => true
  | .warmReset => true
  | .bootCtlClrCount _ _ => true
  | .bootCtlSetpref _ _ => true
  | .bootCtlRaiseFloor _ _ => true
  | .bootFlashProgram _ _ => true
  | .bootFlashDataRead _ => true
  | .bootFlashErase _ _ => true
  | .flashOpComplete => true
  | .vstbyLoss => true
  | .railUndervoltage rail => decide (rail.val ≠ 0)
  | .refclkLoss => true
  | .smbusAlertResponse => true
  | .flitLockLoss _ => true
  | .moduleWideFailure _ => true
  | .pwrBrakeRelease => true
  | .railReturn rail => decide (rail.val ≠ 0)
  | .refclkReturn => true
  | .configurationRequest => true

end Sys2Proof
end

