-- ==== Sys2Proof/Tests/Slice0.lean ====
section
/-!
SUPPORT. The author's tests. A witness theorem shows, for each statement with hypotheses, concrete states and operands
that meet them, one for each clause; most also show what the command leaves. Expected values are worked out by hand from
the tables of the spec.
-/
namespace Sys2Proof.Tests
open Sys2Proof Sys2Proof.Machine

-- One kernel check at a time: many at once would take more memory than the check allows.
set_option Elab.async false

/-- The command answers a next state that meets `p`. -/
def after (c : Instr) (s : State) (p : State → Bool) : Bool :=
  match exec c s with
  | .next t => p t
  | _ => false

/-! ### Ill-formed commands are refused by WellFormed, one for each check -/

theorem test_wf_offsets :
    (Instr.regLoReadSnapshot .fn0 2).wf = false ∧ (Instr.regLoWriteHold .fn0 0x400000 0).wf = false
      ∧ (Instr.regHiWriteCommit .fn0 0x400002 0).wf = false ∧ (Instr.regAtomic64Access .fn0 1 none).wf = false
      ∧ (Instr.regWrite .fn0 0x400000 0).wf = false ∧ (Instr.selectRegisterWrite .fn0 3 0).wf = false
      ∧ (Instr.regMalformedAccess .fn0 4 4 true).wf = false ∧ (Instr.regMalformedAccess .fn0 8 8 false).wf = false
      ∧ (Instr.regMalformedAccess .fn0 4 8 true).wf = true ∧ (Instr.regWrite .fn0 0x3FFFFC 0).wf = true := by decide

theorem test_wf_frames :
    (Instr.d2dFrameReceive 0 true []).wf = false ∧ (Instr.d2dLaneFailure 4 4 true).wf = false
      ∧ (Instr.d2dLaneFailure 3 7 true).wf = true ∧ (Instr.beaconReceive 0 []).wf = false
      ∧ (Instr.dataFlitReceive 0 [0]).wf = false ∧ (Instr.idleFlitReceive 0 []).wf = false
      ∧ (Instr.retryReqReceive 0 []).wf = false ∧ (Instr.creditSyncReceive 0 []).wf = false
      ∧ (Instr.retrainReqReceive 0 []).wf = false ∧ (Instr.idleFlitReceive 0 (zeros 72)).wf = true := by decide

theorem test_wf_memory :
    (Instr.arrayFeedStep 0 0 0 0 [(64, 0)]).wf = false ∧ (Instr.arrayFeedStep 0 0 0 0 [(0, 8)]).wf = false
      ∧ (Instr.nmSectorRead (.sector 8 0 [] 0 false) []).wf = false
      ∧ (Instr.nmSectorRead (.sector 0 0 [] 0 false) [(36, 1)]).wf = false
      ∧ (Instr.nmSectorWrite (.sector 0 0 [0] 0 false) []).wf = false
      ∧ (Instr.hbmSectorRead (.sector 16 0 [] 0 false) .clean).wf = false
      ∧ (Instr.hbmSectorWrite (.sector 0 (2 ^ 31) [] 0 false) .clean).wf = false
      ∧ (Instr.sramAccess (.shelf 0 25165823) none []).wf = true
      ∧ (Instr.patrolScrub false 0 0 [(36, 0)] .clean).wf = false
      ∧ (Instr.channelTempSample (.nm 0 0) (-1)).wf = false ∧ (Instr.linkTempSample 0 501).wf = false := by decide +kernel

theorem test_wf_host :
    (Instr.aprUnitReceive 0 [] 0 true).wf = false ∧ (Instr.ringOpenComplete [] true).wf = false
      ∧ (Instr.ringOpenComplete [] false).wf = true ∧ (Instr.docketFetch 0 []).wf = false
      ∧ (Instr.docketFetch 0 (zeros 65)).wf = false ∧ (Instr.writeDocket 0 [0] true).wf = false
      ∧ (Instr.pcieLinkUp 0 16 false).wf = false ∧ (Instr.pcieLinkUp 6 0 true).wf = false
      ∧ (Instr.pcieLinkUp 6 16 false).wf = false ∧ (Instr.pcieLinkUp 6 16 true).wf = true
      ∧ (Instr.ethPacketReceive 0 ⟨4096, .send, 0, 0, 0, []⟩).wf = false
      ∧ (Instr.ethWorkRequestComplete 0 0 true []).wf = false
      ∧ (Instr.irqSourcePending 0).wf = false ∧ (Instr.irqSourcePending 1023).wf = false
      ∧ (Instr.msixVectorUnmask .f1 64).wf = false ∧ (Instr.msixVectorUnmask .f0 64).wf = true
      ∧ (Instr.railUndervoltage 0).wf = false ∧ (Instr.railReturn 0).wf = false := by decide

theorem test_wf_readings :
    (Instr.chitBoundary ⟨[(21, 0)], [], [], [], [], []⟩).wf = false
      ∧ (Instr.chitBoundary ⟨[(0, 501)], [], [], [], [], []⟩).wf = false
      ∧ (Instr.chitBoundary ⟨[], [(32, 0)], [], [], [], []⟩).wf = false
      ∧ (Instr.chitBoundary ⟨[], [], [(24, 0)], [], [], []⟩).wf = false
      ∧ (Instr.chitBoundary ⟨[], [], [], [(16, 0)], [], []⟩).wf = false
      ∧ (Instr.chitBoundary ⟨[], [], [], [], [(2, 0)], []⟩).wf = false
      ∧ (Instr.chitBoundary ⟨[], [], [], [], [], [(8, 0)]⟩).wf = false
      ∧ (Instr.chitBoundary ⟨[(20, 500)], [(31, 0)], [(23, 0)], [(15, 0)], [(1, 0)], [(7, 0)]⟩).wf = true := by decide

/-! ### Sequencers -/

/-- Bits [127:8] of a scalar word: RD, RA, RB, SUB and IMM (Table 5.2). -/
def sw (rd ra rb sub imm : Nat) : BitVec 120 :=
  BitVec.ofNat 120 (rd + 2 ^ 6 * ra + 2 ^ 12 * rb + 2 ^ 18 * sub + 2 ^ 24 * imm)

/-- The module with logical cluster 0 as given. -/
def oneCl (k : Cluster) : State := { cl := [(0, k)] }

/-- A cluster that runs, with a word at its issue point. -/
def at_ (op : Nat) (w : BitVec 120) (k : Cluster) : State :=
  oneCl { k with state := 1, icache := [(0, leBytes 64 (wordOf op w))] }

/-- A job that runs in window 0 on clusters 0 and 1. -/
def aJob : Job := { running := true, job := 7, clusters := [0, 1], ring := 3 }

/-- A scratchpad descriptor of one level of `n` elements, 4 bytes apart, from `base` (Table 5.8). -/
def dPadOf (n base : Nat) : BitVec 512 :=
  BitVec.ofNat 512 (n + 2 ^ 32 * 4 + 2 ^ 384 * base + 2 ^ 448 + 2 ^ 452)
/-- A device-memory descriptor of one level of `n` elements, 32 bytes apart. -/
def dMemOf (n base : Nat) : BitVec 512 := BitVec.ofNat 512 (n + 2 ^ 32 * 32 + 2 ^ 384 * base + 2 ^ 448)

/-- Scalar registers s1 = 5, s2 = −3 (stained), s3 = 7, s4 = 16. -/
def kS : Cluster :=
  { sreg := [(1, 5), (2, 0xFFFFFFFFFFFFFFFD), (3, 7), (4, 16)], sstain := 4
    ldesc := [(0, dPadOf 4 0), (1, dMemOf 4 0), (2, dPadOf 8 0), (3, dPadOf 16 256), (4, dPadOf 32 0), (5, dPadOf 1 0)]
    bankFmt := [(0, 1)], mreg := [(1, 0xBEEF)], mstain := 2, nextId := 4 }

theorem witness_ScalarIntegerResults :
    (∀ op ∈ (List.range 14).map (0x20 + ·), Issues (at_ op (sw 5 2 3 0 0) kS) 0 op (sw 5 2 3 0 0))
      ∧ Issues (at_ 0x2E (sw 0 2 0 0 9) kS) 0 0x2E (sw 0 2 0 0 9)
      ∧ Issues (at_ 0x2F (sw 63 0 0 0 9) kS) 0 0x2F (sw 63 0 0 0 9) := by unfold Issues; decide +kernel

/-- The result of the scalar word `op` of RD s5, RA s2 (−3, stained), RB s3 (7): value and stain. -/
def scalarGives (c : Instr) (op : Nat) (v : Nat) : Bool :=
  after c (at_ op (sw 5 2 3 0 0) kS) fun t => sReg (t.clu 0) 5 == v && sStain (t.clu 0) 5 && (t.clu 0).pc == 16

theorem test_scalar_integer :
    let w := sw 5 2 3 0 0
    scalarGives (.add 0 w) 0x20 4 && scalarGives (.sub 0 w) 0x21 (2 ^ 64 - 10)
      && scalarGives (.mul 0 w) 0x22 (2 ^ 64 - 21) && scalarGives (.mulhu 0 w) 0x23 6
      && scalarGives (.andw 0 w) 0x24 5 && scalarGives (.orw 0 w) 0x25 (2 ^ 64 - 1)
      && scalarGives (.xorw 0 w) 0x26 (2 ^ 64 - 6) && scalarGives (.shl 0 w) 0x27 (2 ^ 64 - 384)
      && scalarGives (.shr 0 w) 0x28 (2 ^ 57 - 1) && scalarGives (.sra 0 w) 0x29 (2 ^ 64 - 1)
      && scalarGives (.slt 0 w) 0x2A 1 && scalarGives (.sltu 0 w) 0x2B 0
      && scalarGives (.min 0 w) 0x2C (2 ^ 64 - 3) && scalarGives (.max 0 w) 0x2D 7 = true := by decide +kernel

theorem test_addi_li :
    (after (.addi 0 (sw 5 2 0 0 9)) (at_ 0x2E (sw 5 2 0 0 9) kS) fun t => sReg (t.clu 0) 5 == 6 && sStain (t.clu 0) 5)
      && (after (.li 0 (sw 2 0 0 0 9)) (at_ 0x2F (sw 2 0 0 0 9) kS) fun t => sReg (t.clu 0) 2 == 9 && !sStain (t.clu 0) 2)
      = true := by decide +kernel

/-- s1 = 1.5, s2 = −2.0 with bits above its low half, s3 = 5 as an integer. -/
def kF : Cluster := { sreg := [(1, 0x3FC00000), (2, 0x1C0000000), (3, 5)] }

theorem witness_ScalarFloatResults :
    (∀ op ∈ [0x30, 0x31, 0x32, 0x33], Issues (at_ op (sw 5 1 2 0 0) kF) 0 op (sw 5 1 2 0 0))
      ∧ ∀ op ∈ [0x34, 0x35], Issues (at_ op (sw 5 1 0 0 0) kF) 0 op (sw 5 1 0 0 0) := by unfold Issues; decide +kernel

/-- The result in s5. -/
def s5 (c : Instr) (op : Nat) (w : BitVec 120) (k : Cluster) : Option Nat :=
  match exec c (at_ op w k) with
  | .next t => some (sReg (t.clu 0) 5)
  | _ => none

theorem test_scalar_float :
    s5 (.fadd 0 (sw 5 1 2 0 0)) 0x30 (sw 5 1 2 0 0) kF = some 0xBF000000
      ∧ s5 (.fmul 0 (sw 5 1 2 0 0)) 0x31 (sw 5 1 2 0 0) kF = some 0xC0400000
      ∧ s5 (.fmax 0 (sw 5 1 2 0 0)) 0x32 (sw 5 1 2 0 0) kF = some 0x3FC00000
      ∧ s5 (.fmin 0 (sw 5 1 2 0 0)) 0x33 (sw 5 1 2 0 0) kF = some 0xC0000000
      ∧ s5 (.fcvtFi 0 (sw 5 3 0 0 0)) 0x34 (sw 5 3 0 0 0) kF = some 0x40A00000
      ∧ s5 (.fcvtIf 0 (sw 5 2 0 0 0)) 0x35 (sw 5 2 0 0 0) kF = some (2 ^ 64 - 2) := by decide +kernel

theorem witness_ScalarMoves :
    (∀ sub ∈ [0, 1, 2], Issues (at_ 0x36 (sw 5 0 0 sub 0) kS) 0 0x36 (sw 5 0 0 sub 0))
      ∧ Issues (at_ 0x37 (sw 5 2 0 0 0) kS) 0 0x37 (sw 5 2 0 0 0)
      ∧ Issues (at_ 0x38 (sw 0 2 0 7 0) kS) 0 0x38 (sw 0 2 0 7 0)
      ∧ Issues (at_ 0x39 (sw 5 0 0 1 0) kS) 0 0x39 (sw 5 0 0 1 0) := by unfold Issues; decide +kernel

theorem test_scalar_moves :
    s5 (.sstn 0 (sw 5 2 0 0 0)) 0x37 (sw 5 2 0 0 0) kS = some 1
      ∧ s5 (.mget 0 (sw 5 0 0 1 0)) 0x39 (sw 5 0 0 1 0) kS = some 0xBEEF
      ∧ s5 (.rdid 0 (sw 5 0 0 0 0)) 0x36 (sw 5 0 0 0 0) kS = some 0
      ∧ (after (.mset 0 (sw 0 2 0 7 0)) (at_ 0x38 (sw 0 2 0 7 0) kS) fun t =>
          mReg (t.clu 0) 7 == 0xFFFD && (t.clu 0).mstain == 0x82) = true := by decide +kernel

/-- −2 as a 64-bit IMM. -/
def m2 : Nat := 2 ^ 64 - 2

theorem witness_ControlTransfers :
    (∀ op ∈ [0x00, 0x01], Issues (at_ op 0 kS) 0 op 0)
      ∧ Issues (at_ 0x03 (sw 0 0 0 0 m2) kS) 0 0x03 (sw 0 0 0 0 m2)
      ∧ (∀ rd ∈ [0, 5], Issues (at_ 0x04 (sw rd 0 0 0 m2) kS) 0 0x04 (sw rd 0 0 0 m2))
      ∧ Issues (at_ 0x05 (sw 0 4 0 0 0) kS) 0 0x05 (sw 0 4 0 0 0)
      ∧ (∀ op ∈ [6, 7, 8, 9, 10, 11], Issues (at_ op (sw 0 1 3 0 2) kS) 0 op (sw 0 1 3 0 2))
      ∧ Issues (at_ 0x0C (sw 0 2 0 0 2) kS) 0 0x0C (sw 0 2 0 0 2) := by unfold Issues; decide +kernel

/-- Where cluster 0 goes on. -/
def goes (c : Instr) (op : Nat) (w : BitVec 120) : Option Nat :=
  match exec c (at_ op w kS) with
  | .next t => some (t.clu 0).pc.toNat
  | _ => none

theorem test_control :
    goes (.nop 0 0) 0x00 0 = some 16 ∧ goes (.endw 0 0) 0x01 0 = some 0
      ∧ goes (.jmp 0 (sw 0 0 0 0 m2)) 0x03 (sw 0 0 0 0 m2) = some (2 ^ 52 - 32)
      ∧ goes (.jal 0 (sw 5 0 0 0 3)) 0x04 (sw 5 0 0 0 3) = some 48
      ∧ goes (.jr 0 (sw 0 4 0 0 0)) 0x05 (sw 0 4 0 0 0) = some 16
      ∧ goes (.beq 0 (sw 0 1 3 0 2)) 0x06 (sw 0 1 3 0 2) = some 16
      ∧ goes (.bne 0 (sw 0 1 3 0 2)) 0x07 (sw 0 1 3 0 2) = some 32
      ∧ goes (.blt 0 (sw 0 1 3 0 2)) 0x08 (sw 0 1 3 0 2) = some 32
      ∧ goes (.bge 0 (sw 0 1 3 0 2)) 0x09 (sw 0 1 3 0 2) = some 16
      ∧ goes (.bltu 0 (sw 0 1 3 0 2)) 0x0A (sw 0 1 3 0 2) = some 32
      ∧ goes (.bgeu 0 (sw 0 1 3 0 2)) 0x0B (sw 0 1 3 0 2) = some 16
      ∧ goes (.bstn 0 (sw 0 2 0 0 2)) 0x0C (sw 0 2 0 0 2) = some 32 := by decide +kernel

/-- `s` with a job that runs in window 0 on cluster 0. -/
def withJob (s : State) : State :=
  { (s.updClu 0 fun k => { k with win := some 0 }) with
    hif := { s.hif with job := [(0, aJob)] }, mem := { s.mem with twEn := 1, twJob := [(0, 7)] } }

theorem witness_AbortStopsTheJob :
    let s := withJob (at_ 0x02 (sw 0 0 0 0 0xABCD) kS)
    Issues s 0 0x02 (sw 0 0 0 0 0xABCD) ∧ (s.clu 0).win = some 0 ∧ (s.jobAt 0).running = true
      ∧ (s.jobAt 0).stopping = false ∧ (s.jobAt 0).aborted = false
      ∧ (after (.abort 0 (sw 0 0 0 0 0xABCD)) s fun t => (t.jobAt 0).stopping && (t.jobAt 0).abort == 0xABCD
          && (t.clu 0).halted && (t.clu 1).stopSent) = true := by unfold Issues; decide +kernel

theorem witness_DescriptorWrites :
    (∀ sub ∈ [0, 7], Issues (at_ 0x40 (sw 15 2 0 sub 0) kS) 0 0x40 (sw 15 2 0 sub 0))
      ∧ Issues (at_ 0x41 (sw 0 0 0 5 (3 * 2 ^ 32 + 9)) kS) 0 0x41 (sw 0 0 0 5 (3 * 2 ^ 32 + 9))
      ∧ Issues (at_ 0x42 (sw 0 2 0 0 9) kS) 0 0x42 (sw 0 2 0 0 9)
      ∧ Issues (at_ 0x43 (sw 0 2 0 0 0) kS) 0 0x43 (sw 0 2 0 0 0)
      ∧ Issues (at_ 0x44 (sw 15 1 0 0 0) kS) 0 0x44 (sw 15 1 0 0 0)
      ∧ Issues (at_ 0x45 (sw 5 1 0 6 0) kS) 0 0x45 (sw 5 1 0 6 0) := by unfold Issues; decide +kernel

theorem test_descriptors :
    (after (.ldw 0 (sw 0 2 0 7 0)) (at_ 0x40 (sw 0 2 0 7 0) kS) fun t =>
        seg (lReg (t.clu 0) 0) 511 448 == 2 ^ 64 - 3 && lStain (t.clu 0) 0)
      && (after (.ldlev 0 (sw 0 0 0 5 (3 * 2 ^ 32 + 9))) (at_ 0x41 (sw 0 0 0 5 (3 * 2 ^ 32 + 9)) kS) fun t =>
        dCount (lReg (t.clu 0) 0) 5 == 9 && dStride (lReg (t.clu 0) 0) 5 == 3)
      && (after (.ldbase 0 (sw 0 1 0 0 9)) (at_ 0x42 (sw 0 1 0 0 9) kS) fun t => dBase (lReg (t.clu 0) 0) == 14)
      && (after (.ldbump 0 (sw 3 1 0 0 0)) (at_ 0x43 (sw 3 1 0 0 0) kS) fun t => dBase (lReg (t.clu 0) 3) == 261)
      && (after (.ldmov 0 (sw 15 1 0 0 0)) (at_ 0x44 (sw 15 1 0 0 0) kS) fun t => lReg (t.clu 0) 15 == (dMemOf 4 0).toNat)
      && (after (.ldrd 0 (sw 5 1 0 6 0)) (at_ 0x45 (sw 5 1 0 6 0) kS) fun t => sReg (t.clu 0) 5 == 0) = true := by
  decide +kernel

/-- Bits [127:8] of an array word: K = 8, M = 1, formats 0, END 1 to FMT_DST `d`, descriptors 2, 3 and `d2`. -/
def aw (d d2 : Nat) : BitVec 120 :=
  BitVec.ofNat 120 ((2 ^ 40 * 2 + 2 ^ 44 * 3 + 2 ^ 48 * d2 + 2 ^ 68 * d + 2 ^ 76 + 2 ^ 88 + 2 ^ 100 * 8) / 256)
/-- Bits [127:8] of a vector word: formats FP32, descriptors `d`, 0, 0 and `d3`, MX destination format `f`. -/
def vw (f d d3 sub : Nat) : BitVec 120 :=
  BitVec.ofNat 120 ((2 ^ 40 * d + 2 ^ 48 * d + 2 ^ 52 * d3 + 2 ^ 60 * 8 + 2 ^ 64 * f + 2 ^ 82 * sub) / 256)
/-- Bits [127:8] of a stream word with descriptors and LMODE. -/
def tw (d0 d1 d2 lmode esz wmask : Nat) : BitVec 120 :=
  BitVec.ofNat 120 ((2 ^ 22 * wmask + 2 ^ 40 * d0 + 2 ^ 44 * d1 + 2 ^ 48 * d2 + 2 ^ 60 * esz + 2 ^ 71 * lmode) / 256)

theorem witness_EngineIssueFillsEveryCore_array :
    (∀ op ∈ [0x80, 0xA0, 0xA1, 0xA2, 0xA3], Issues (at_ op (aw 8 0) kS) 0 op (aw 8 0))
      ∧ Issues (at_ 0xA4 (aw 9 0) kS) 0 0xA4 (aw 9 0) ∧ Issues (at_ 0xA5 (aw 8 3) kS) 0 0xA5 (aw 8 3) := by
  unfold Issues; decide +kernel

theorem witness_EngineIssueFillsEveryCore_vector :
    (∀ op ∈ [0xC0, 0xC1, 0xC2, 0xC3, 0xC4, 0xC5, 0xC6, 0xC7, 0xC8, 0xC9, 0xCA, 0xCB, 0xCC, 0xCD, 0xCE, 0xCF, 0xD1, 0xD2,
        0xD3], Issues (at_ op (vw 8 0 0 0) kS) 0 op (vw 8 0 0 0))
      ∧ Issues (at_ 0xD0 (vw 2 4 5 0) kS) 0 0xD0 (vw 2 4 5 0) := by unfold Issues; decide +kernel

theorem witness_EngineIssueFillsEveryCore_stream :
    Issues (at_ 0xE0 (tw 1 0 0 0 5 0) kS) 0 0xE0 (tw 1 0 0 0 5 0)
      ∧ Issues (at_ 0xE1 (tw 1 0 0 0 5 0) kS) 0 0xE1 (tw 1 0 0 0 5 0)
      ∧ Issues (at_ 0xE2 (tw 4 0 0 1 0 0) kS) 0 0xE2 (tw 4 0 0 1 0 0)
      ∧ Issues (at_ 0xF0 (tw 0 0 1 0 5 0) kS) 0 0xF0 (tw 0 0 1 0 5 0)
      ∧ Issues (at_ 0xF1 (tw 0 0 1 0 5 0) kS) 0 0xF1 (tw 0 0 1 0 5 0) := by unfold Issues; decide +kernel

/-- Core 31 has a full AQ. -/
def kFull : Cluster := { kS with core := [(31, { aq := List.replicate 16 {} })] }

theorem witness_EngineIssueFillsEveryCore_full :
    Issues (at_ 0x80 (aw 8 0) kFull) 0 0x80 (aw 8 0)
      ∧ 16 ≤ (((at_ 0x80 (aw 8 0) kFull).coreOf 0 31).queue .aq).length
      ∧ (∀ i < 31, (((at_ 0x80 (aw 8 0) kFull).coreOf 0 i).queue .aq).length < 16)
      ∧ (∀ i < 32, (((at_ 0x80 (aw 8 0) kS).coreOf 0 i).queue .aq).length < 16)
      ∧ (after (.mma 0 (aw 8 0)) (at_ 0x80 (aw 8 0) kFull) fun t =>
          (t.clu 0).state == 2 && (t.clu 0).stallCore == 31 && (t.clu 0).stall == 1) = true
      ∧ (after (.mma 0 (aw 8 0)) (at_ 0x80 (aw 8 0) kS) fun t =>
          (t.coreOf 0 31).aq.length == 1 && (t.clu 0).nextId == 5 && (t.clu 0).pc == 16) = true := by
  unfold Issues; decide +kernel

/-- Nothing of cluster 0's engines is outstanding, or core 31 holds one instruction in queue `e`. -/
def kHeld (e : Engine) : Cluster := { kS with core := [(31, ({} : CoreSt).setQueue e [{ id := 1, wmask := 1 }])] }

/-- IMM of `SIG` to counter 9 of this module's cluster 0 with count 3 (Table 4.4). -/
def sigImm : Nat := 3 * 2 ^ 16 + 9 * 2 ^ 12

theorem witness_FencesAndWaits :
    Issues (at_ 0x60 0 kS) 0 0x60 0 ∧ Issues (at_ 0x61 0 kS) 0 0x61 0 ∧ Issues (at_ 0x61 0 (kHeld .oq)) 0 0x61 0
      ∧ (let s := at_ 0x62 (sw 0 0 0 0 sigImm) kS
        Issues s 0 0x62 (sw 0 0 0 0 sigImm) ∧ sigsWaiting (s.clu 0) < 4)
      ∧ (let k := { kHeld .oq with sigs := List.replicate 4 { after := 2 } }
        let s := at_ 0x62 (sw 0 0 0 0 sigImm) k
        Issues s 0 0x62 (sw 0 0 0 0 sigImm) ∧ 4 ≤ sigsWaiting (s.clu 0))
      ∧ (let w := sw 0 1 0 15 0
        Issues (at_ 0x63 w { kS with ctr := [(15, 5)] }) 0 0x63 w ∧ Issues (at_ 0x63 w kS) 0 0x63 w
          ∧ 0 ≤ ((5 : Word) - (sVal kS (fRa (wordOf 0x63 w))).setWidth 32).toInt
          ∧ ((0 : Word) - (sVal kS (fRa (wordOf 0x63 w))).setWidth 32).toInt < 0) := by unfold Issues; decide +kernel

theorem test_fences :
    (after (.fenceM 0 0) (at_ 0x60 0 kS) fun t => (t.clu 0).fence == 4 && (t.clu 0).pc == 16)
      && (after (.fenceE 0 0) (at_ 0x61 0 kS) fun t => (t.clu 0).pc == 16)
      && (after (.fenceE 0 0) (at_ 0x61 0 (kHeld .oq)) fun t => (t.clu 0).state == 3 && (t.clu 0).stall == 1)
      && (after (.sig 0 (sw 0 0 0 0 sigImm)) (at_ 0x62 (sw 0 0 0 0 sigImm) kS) fun t =>
          (t.clu 0).sigs == [⟨0, 9, 3, 4⟩])
      && (after (.waits 0 (sw 0 1 0 15 0)) (at_ 0x63 (sw 0 1 0 15 0) kS) fun t => (t.clu 0).state == 3) = true := by
  decide +kernel

/-- Two cores with a scratchpad word at 8 and core 1 with CORE_NUMF 3. -/
def kPad : Cluster :=
  { kS with core := [(0, { pad := [(8, 5)], padClean := [(0, true)] }), (1, { pad := [(8, 9)], numf := 3 })] }

theorem witness_ScratchpadScalarLoad :
    (let w := sw 5 0 0 0 (8 + 2 ^ 16)
     let s := at_ 0x64 w kPad
     Issues s 0 0x64 w ∧ (sVal (s.clu 0) 0 + 8).toNat < 65536 ∧ writesHeld ((s.clu 0).coreAt 1) 0 = false)
    ∧ (let w := sw 5 0 0 0 (65528 + 4 * 2 ^ 21)
       let s := at_ 0x64 w kPad
       Issues s 0 0x64 w ∧ ∀ c < 32, writesHeld ((s.clu 0).coreAt c) 63 = false)
    ∧ (let w := sw 5 0 0 0 (8 + 31 * 2 ^ 16)
       let s := at_ 0x64 w (kHeld .vq)
       Issues s 0 0x64 w ∧ writesHeld ((s.clu 0).coreAt 31) 0 = true)
    ∧ (Issues (at_ 0x64 (sw 5 4 0 0 65520) kPad) 0 0x64 (sw 5 4 0 0 65520)
      ∧ 65536 ≤ (sVal kPad 4 + (65520 : BitVec 64)).toNat)
    ∧ Issues (at_ 0x64 (sw 5 0 0 0 4) kPad) 0 0x64 (sw 5 0 0 0 4) := by unfold Issues; decide +kernel

theorem test_sld :
    s5 (.sld 0 (sw 5 0 0 0 8)) 0x64 (sw 5 0 0 0 8) kPad = some 5
      ∧ s5 (.sld 0 (sw 5 0 0 0 (8 + 4 * 2 ^ 21))) 0x64 (sw 5 0 0 0 (8 + 4 * 2 ^ 21)) kPad = some 9
      ∧ s5 (.sld 0 (sw 5 0 0 0 (8 + 2 ^ 21))) 0x64 (sw 5 0 0 0 (8 + 2 ^ 21)) kPad = some 14
      ∧ (after (.sld 0 (sw 5 0 0 0 4)) (at_ 0x64 (sw 5 0 0 0 4) kPad) fun t =>
          sStain (t.clu 0) 5 && (t.clu 0).maskFault && (t.clu 0).pc == 16) = true := by decide +kernel

theorem witness_NumericFlagInstructions :
    (∀ sub ∈ [1, 32], Issues (at_ 0x65 (sw 5 0 0 sub 0) kPad) 0 0x65 (sw 5 0 0 sub 0))
      ∧ Issues (at_ 0x65 (sw 5 0 0 0 0) (kHeld .aq)) 0 0x65 (sw 5 0 0 0 0)
      ∧ Issues (at_ 0x66 (sw 0 0 0 0 2) kPad) 0 0x66 (sw 0 0 0 0 2)
      ∧ Issues (at_ 0x66 (sw 0 0 0 0 2) (kHeld .aq)) 0 0x66 (sw 0 0 0 0 2)
      ∧ (∀ e ∈ kPad.core, e.2.aq = []) ∧ (∃ e ∈ (kHeld .aq).core, e.2.aq ≠ [])
      ∧ s5 (.numfRd 0 (sw 5 0 0 32 0)) 0x65 (sw 5 0 0 32 0) kPad = some 3
      ∧ (after (.numfClr 0 (sw 0 0 0 0 2)) (at_ 0x66 (sw 0 0 0 0 2) kPad) fun t => (t.coreOf 0 1).numf == 1) = true := by
  unfold Issues; decide +kernel

/-- A cluster of the job with the tuple (communicator 3, sequence 5, epoch 1) in s6 and a block address in s7. -/
def kC : Cluster := { sreg := [(6, 2 ^ 32 + 5 * 2 ^ 16 + 3), (7, 0x8000000000000)] }
/-- The tuple. -/
def key3 : CollKey := ⟨3, 5, 1⟩
/-- The module with the communicator's record. -/
def withComm (s : State) : State :=
  let s := withJob s
  { s with coll := { s.coll with comm := [(3, { valid := true, job := 7, epoch := 1, doneBase := 5 })] }
           slc := { s.slc with member := true } }

theorem witness_CollectiveStarts :
    (∀ op < 6, let w := sw 0 6 7 op 0
      let s := withComm (at_ 0x67 w kC)
      Issues s 0 0x67 w ∧ fSub (wordOf 0x67 w) % 16 = op ∧ outDone (s.clu 0) (s.clu 0).nextId = true
        ∧ tupleRefused s 0 key3 = false ∧ (key3.seq - (recOf s key3).doneBase).toNat < 256
        ∧ (s.clu 0).colls.contains key3 = false ∧ (s.clu 0).colls.length < 16 ∧ s.coll.ctx.length < 256)
    ∧ (let w := sw 0 6 0 0 0
       let s := withComm (at_ 0x68 w kC)
       Issues s 0 0x68 w ∧ tupleRefused s 0 key3 = false ∧ (s.clu 0).colls.contains key3 = false)
    ∧ (let w := sw 0 6 0 0 0
       let s := withComm (at_ 0x68 w { kC with colls := [key3] })
       Issues s 0 0x68 w ∧ tupleRefused s 0 key3 = false ∧ (s.clu 0).colls.contains key3 = true)
    ∧ (let w := sw 0 6 0 0 0
       let s := withJob (at_ 0x68 w kC)
       Issues s 0 0x68 w ∧ tupleRefused s 0 key3 = true
         ∧ (after (.cwait 0 w) s fun t => (t.clu 0).halted && t.irq.latch.contains 0x30) = true) := by
  unfold Issues; decide +kernel

theorem witness_CollectiveStarts_waits :
    let w := sw 0 6 7 0 0
    let at16 := fun (j : Nat) => (⟨3, BitVec.ofNat 16 (6 + j), 1⟩ : CollKey)
    (let s := withComm (at_ 0x67 w { kHeld .oq with sreg := kC.sreg })
     Issues s 0 0x67 w ∧ outDone (s.clu 0) (s.clu 0).nextId = false
       ∧ (after (.cstartBarrier 0 w) s fun t => (t.clu 0).state == 3 && (t.clu 0).stall == 1) = true)
    ∧ (let s := withComm (at_ 0x67 w { kC with colls := (List.range 16).map at16 })
       Issues s 0 0x67 w ∧ outDone (s.clu 0) (s.clu 0).nextId = true ∧ tupleRefused s 0 key3 = false
         ∧ (key3.seq - (recOf s key3).doneBase).toNat < 256 ∧ (s.clu 0).colls.contains key3 = false
         ∧ 16 ≤ (s.clu 0).colls.length ∧ (after (.cstartBarrier 0 w) s fun t => (t.clu 0).state == 4) = true)
    ∧ (let s := withComm (at_ 0x67 w kC)
       let s := { s with coll := { s.coll with ctx := List.replicate 256 { key := ⟨3, 6, 1⟩ } } }
       Issues s 0 0x67 w ∧ s.ctxAt key3 = none ∧ 256 ≤ s.coll.ctx.length
         ∧ (after (.cstartBarrier 0 w) s fun t => (t.clu 0).state == 4 && t.coll.exhaust) = true)
    ∧ (let s := withComm (at_ 0x67 w { kC with colls := [key3] })
       Issues s 0 0x67 w ∧ (s.clu 0).colls.contains key3 = true
         ∧ (after (.cstartBarrier 0 w) s fun t => (t.clu 0).halted && t.irq.latch.contains 0x30) = true) := by
  unfold Issues; decide +kernel

theorem test_cstart :
    (∀ op < 6, (after (match op with
        | 0 => .cstartBarrier 0 (sw 0 6 7 op 0) | 1 => .cstartAllReduce 0 (sw 0 6 7 op 0)
        | 2 => .cstartReduceScatter 0 (sw 0 6 7 op 0) | 3 => .cstartAllGather 0 (sw 0 6 7 op 0)
        | 4 => .cstartAllToAll 0 (sw 0 6 7 op 0) | _ => .cstartGlobalNorm 0 (sw 0 6 7 op 0))
      (withComm (at_ 0x67 (sw 0 6 7 op 0) kC)) fun t => (t.clu 0).colls == [key3]
        && (match t.ctxAt key3 with | some x => x.op == some (BitVec.ofNat 3 op) | none => false)) = true)
    ∧ (after (.cwait 0 (sw 0 6 0 0 0)) (withComm (at_ 0x68 (sw 0 6 0 0 0) { kC with colls := [key3] })) fun t =>
        (t.clu 0).state == 3) = true := by decide +kernel

/-- A word with a reserved bit (bit 127) or, for `LDW`, one of RD's unused bits. -/
def bad : BitVec 120 := BitVec.ofNat 120 (2 ^ 119)

theorem witness_WordsThatStopTheJob :
    (∀ op ∈ [0x00, 0x20, 0x40, 0xC0, 0xE0], let s := withJob (at_ op bad kS)
      canIssue (s.clu 0) = true ∧ fetchAt (s.clu 0) = .word (wordOf op bad) ∧ stainStops (s.clu 0) (wordOf op bad) = false
        ∧ 2 ∈ reasons s 0 (wordOf op bad) ∧ (∀ x ∈ reasons s 0 (wordOf op bad), 2 ≤ x)
        ∧ (s.clu 0).win = some 0 ∧ (s.jobAt 0).running = true ∧ (s.jobAt 0).stopping = false)
    ∧ (∀ op ∈ [0x06, 0x80], let w := if op = 6 then bad else BitVec.ofNat 120 (2 ^ 30)
      let s := withJob (at_ op w kS)
      fetchAt (s.clu 0) = .word (wordOf op w) ∧ stainStops (s.clu 0) (wordOf op w) = false
        ∧ 2 ∈ reasons s 0 (wordOf op w) ∧ ∀ x ∈ reasons s 0 (wordOf op w), 2 ≤ x)
    ∧ (∀ op ∈ [0x05, 0x63, 0x68, 0x67, 0x06], let w := sw 0 2 0 0 0
      let s := withJob (at_ op w kS)
      canIssue (s.clu 0) = true ∧ fetchAt (s.clu 0) = .word (wordOf op w) ∧ sStain (s.clu 0) (fRa (wordOf op w)) = true
        ∧ (s.clu 0).win = some 0 ∧ (s.jobAt 0).running = true) := by decide +kernel

theorem test_words_that_stop :
    (after (.nop 0 bad) (withJob (at_ 0 bad kS)) fun t =>
        (t.jobAt 0).stopping && (t.jobAt 0).cause == 3 && (t.jobAt 0).reason == 2 && (t.clu 0).pc == 0)
      && (after (.jr 0 (sw 0 2 0 0 0)) (withJob (at_ 5 (sw 0 2 0 0 0) kS)) fun t =>
        (t.jobAt 0).stopping && (t.jobAt 0).cause == 4 && t.irq.latch.contains 0x18) = true := by decide +kernel

/-- A translation succeeds. -/
def found (x : Xlat) : Bool := match x with | .ok _ _ => true | .fault _ => false

/-- The window's cluster 0 waits at the first line of its own collective buffer. -/
def sMiss : State := withJob (oneCl { state := 1, missing := true, pc := 0x8000000000000 })

theorem witness_ClusterRunEvents :
    (let k := sMiss.clu 0
     k.missing = true ∧ canIssue k = true ∧ found (xlate sMiss 0 (k.pc.toNat / 64 * 64 : Nat) false) = true
       ∧ found (xlate sMiss 0 (k.pc.toNat / 64 * 64 + 32 : Nat) false) = true)
    ∧ (let k : Cluster := { sigs := [⟨0, 9, 3, 4⟩] }
       takeFirst (fun (g : Signal) => g.tgt == 0 && g.ctr == 9) k.sigs = some (⟨0, 9, 3, 4⟩, []) ∧ outDone k 4 = true
         ∧ islandStopped (oneCl k) 0 = false ∧ sameJob (withJob (oneCl k)) 0 0 = true ∧ sameJob (oneCl k) 0 0 = false
         ∧ (after (.signalArrive 0 0 9) (oneCl k) fun t => (t.clu 0).sigs == [] && (t.clu 0).ctr == []) = true)
    ∧ (let k : Cluster := { state := 4, ctxTimeout := 1 }
       k.state = 4 ∧ k.ctxTimeout ≠ 0 ∧ k.colls.length < 16)
    ∧ (let s := { withJob (oneCl { state := 1, waiting := true }) with slc := { member := true } }
       (s.clu 0).win = some 0 ∧ (s.clu 0).waiting = true ∧ (s.jobAt 0).ts.toNat ≤ s.gct.count.toNat ∧ gctSynced s = true)
    ∧ (let k : Cluster := { state := 1, ending := true }
       k.ending = true ∧ k.stopping = false ∧ k.state ≠ 6 ∧ queuesEmpty k = true)
    ∧ (let k : Cluster := { state := 1, stopSent := true }
       k.stopSent = true ∧ k.stopping = false)
    ∧ (let k : Cluster := { state := 1, stopping := true }
       k.stopping = true ∧ k.state ≠ 7) := by decide +kernel

theorem test_cluster_events :
    (after (.icacheMissFill 0) sMiss fun t => !(t.clu 0).missing && (Tbl.get [] (t.clu 0).icache (2 ^ 45)).length == 64)
      && (after (.signalArrive 0 0 9) (withJob (oneCl { sigs := [⟨0, 9, 3, 4⟩] })) fun t =>
          Tbl.get 0 (t.clu 0).ctr 9 == 3)
      && (after (.seqCtxTimeout 0) (oneCl { state := 4, ctxTimeout := 1 }) fun t => (t.clu 0).ctxTimedOut)
      && (after (.clusterStartIssue 0)
          { withJob (oneCl { state := 1, waiting := true }) with slc := { member := true } } fun t => !(t.clu 0).waiting)
      && (after (.clusterEnded 0) (withJob (oneCl { state := 1, ending := true })) fun t =>
          (t.clu 0).state == 6 && (t.jobAt 0).clOver == [0])
      && (after (.jobStopReachCluster 0) (oneCl { kHeld .aq with state := 1, stopSent := true }) fun t =>
          (t.clu 0).stopping && (t.coreOf 0 31).aq.isEmpty)
      && (after (.clusterStopped 0) (withJob (oneCl { state := 1, stopping := true })) fun t =>
          (t.clu 0).state == 7 && (t.jobAt 0).clOver == [0]) = true := by decide +kernel

/-! ### Engines of a core -/

/-- An array instruction in the queue of core 0, with activations at 0, destinations at 256 and records at 1024. -/
def aInst (op : Nat) (w : BitVec 120) (started : Bool) : EInst :=
  { id := 1, word := BitVec.ofNat 128 (wordOf op w), rmask := 3, wmask := 3, started := started
    d0 := dPadOf 8 0, d1 := dPadOf 16 256, d3 := BitVec.ofNat 512 (16 + 2 ^ 32 * 64 + 2 ^ 384 * 1024 + 2 ^ 448 + 2 ^ 452) }
/-- Bits [127:8] of an `MMA` word with OPEN and END, K = 8, M = 1, formats FP8. -/
def mw (o e : Nat) : BitVec 120 :=
  BitVec.ofNat 120 ((2 ^ 40 * 2 + 2 ^ 44 * 3 + 2 ^ 68 * 8 + 2 ^ 74 * o + 2 ^ 76 * e + 2 ^ 88 + 2 ^ 100 * 8) / 256)
/-- Core 0 of cluster 0 as given. -/
def oneCore (k : CoreSt) : State := withJob (oneCl { state := 1, core := [(0, k)] })

/-- The premises of every statement about an engine hold of the witnesses' states. -/
theorem witness_engine_premises (k : CoreSt) : islandStopped (oneCore k) 0 = false ∧ (oneCore k).guard.armed = [] :=
  ⟨rfl, rfl⟩

/-- The module with array 0 at work on an instruction. -/
def atWork (i : EInst) (j : AJob) (r : Arr := {}) : State := oneCore { aq := [i], arr0 := { r with jobs := [{ j with id := i.id }] } }
/-- A job whose four columns have taken eight positions of their row. -/
def jTaken : AJob := { fed := List.replicate 8 1, entered := [8, 8, 8, 8], begun := [true, true, true, true] }

theorem witness_ArrayStartsAndFeeds_start :
    (∀ o ∈ [0, 1], let i := aInst 0x80 (mw o 1) false
      let r : Arr := { hold := some (holdKey i.word.toNat) }
      let s := oneCore { aq := [i], arr0 := r, arr1 := r, arr2 := r, arr3 := r }
      let k := s.coreOf 0 0
      k.aq.find? (fun i => !i.started) = some i ∧ mayOverlap k i = true ∧ scoreOk k i = true
        ∧ loadPending k i = false ∧ (∀ a < 4, startReason i.word.toNat (k.arr a) = none)
        ∧ fOpen i.word.toNat = o
        ∧ (after (.arrayInstrStart 0 0) s fun t => (t.coreOf 0 0).aq == [{ i with started := true }]
            && (t.arrOf 0 0 3).jobs.map (·.id) == [1]) = true)
    ∧ (let i := { aInst 0x80 (mw 0 1) false with id := 2, rmask := 4, wmask := 4 }
       let s := oneCore { aq := [aInst 0x80 (mw 0 0) true, i], arr0 := { jobs := [{ id := 1 }] } }
       mayOverlap (s.coreOf 0 0) i = true
         ∧ mayOverlap (s.coreOf 0 0) { i with word := BitVec.ofNat 128 (wordOf 0xA0 (mw 0 1)) } = false
         ∧ (after (.arrayInstrStart 0 0) s fun t => (t.arrOf 0 0 0).jobs.map (·.id) == [1, 2]) = true) := by decide +kernel

theorem witness_ArrayStartsAndFeeds_feed :
    let i := aInst 0x80 (mw 0 1) true
    (let s := atWork i {}
     let k := s.coreOf 0 0
     let j : AJob := { id := 1 }
     (∀ row < 8, feedJob k (k.arr 0) row = some (i, j) ∧ mayFeed k (k.arr 0) i j row = true
       ∧ (fillQueues (fetchScales s 0 0 0 i j 0) 0 0 0 i i.id (rowGroup i.word.toNat row)).isSome = true)
       ∧ (after (.arrayFeedStep 0 0 0 7 []) s fun t =>
          (t.arrOf 0 0 0).jobs.map (·.fed) == [[0, 0, 0, 0, 0, 0, 0, 1]] && (t.arrOf 0 0 0).pipe.map (·.pos) == [7]) = true)
    ∧ (let s := atWork i {} { bankA := { loading := true } }
       let k := s.coreOf 0 0
       feedJob k (k.arr 0) 7 = some (i, { id := 1 }) ∧ mayFeed k (k.arr 0) i { id := 1 } 7 = false)
    ∧ (let i := aInst 0x80 (BitVec.ofNat 120 (2 ^ 52 * 6 + 2 ^ 56 * 6 + (mw 0 1).toNat)) true
       let s := atWork i {}
       let k := s.coreOf 0 0
       isFpPath i.word.toNat = true ∧ mayFeed k (k.arr 0) i { id := 1 } 3 = true
         ∧ (after (.arrayFeedStep 0 0 0 3 []) s fun t => (t.arrOf 0 0 0).jobs.map (·.fed) == [List.replicate 8 1]) = true)
    ∧ (let f : Fed := { id := 1, pos := 0, ops := [(0, [(0, 0)])] }
       let s := atWork i { fed := [1, 0, 0, 0, 0, 0, 0, 0] } { pipe := [f] }
       let k := s.coreOf 0 0
       let r := k.arr 0
       let j : AJob := { id := 1, fed := [1, 0, 0, 0, 0, 0, 0, 0] }
       (∀ col < 4, colJob k r col = some (i, j)
         ∧ passesLimit i.word.toNat (openColumn i.word.toNat j col (r.col col)) f.count = false
         ∧ r.pipe.find? (fun f => f.id == i.id && f.actRow == j.doneBy col && f.pos == j.enteredBy col
              && !f.taken.getLsbD col) = some f ∧ j.enteredBy col + f.count ≠ fK i.word.toNat)
         ∧ (after (.arrayProductEnter 0 0 0 none) s fun t =>
            (t.arrOf 0 0 0).jobs.map (·.entered) == [[1, 1, 1, 1]] && (t.arrOf 0 0 0).pipe.isEmpty) = true) := by
  decide +kernel

/-- A column whose reduction has ended with its latch full stalls, and its rows stop only when its skid is full (R95). -/
theorem test_latch_stall :
    let i := aInst 0x80 (mw 0 1) true
    let j : AJob := { id := 1, fed := [1, 1, 1, 1, 1, 1, 1, 0], entered := [7, 7, 7, 7], begun := [true, true, true, true] }
    let full : List Fed := (List.range 16).map fun p => { id := 9, pos := p, row := 7, ops := [(0, [(0, 0)])], taken := 14 }
    let k := (atWork i j).coreOf 0 0
    let k' := (atWork i j { pipe := full }).coreOf 0 0
    mayFeed k (k.arr 0) i j 7 = true ∧ mayFeed k' (k'.arr 0) i j 7 = false
      ∧ (let s := atWork i { jTaken with fed := [1] } { lat2 := { full := true, id := 7 } }
         (rowWaits (s.coreOf 0 0) (s.arrOf 0 0 0) 1 2).isSome = true ∧ (after (.arrayDrain 0 0 0 2) s fun t => t == s) = true)
    := by decide +kernel

/-- A scratchpad that holds bytes from an address. -/
def padAt (a : Nat) (b : List Byte) : Tbl Byte := (b.zipIdx.filter fun x => x.1 != 0).map fun x => (a + x.2, x.1)

theorem witness_ArrayDrainsParksResumes :
    (let i := aInst 0x80 (mw 0 1) true
     let s := atWork i jTaken
     let k := s.coreOf 0 0
     (∀ col < 4, (rowWaits k (k.arr 0) 1 col).map (·.1) = some i ∧ ((k.arr 0).lat col).full = false) ∧ s.guard.armed = []
       ∧ (after (.arrayDrain 0 0 0 3) s fun t => ((t.arrOf 0 0 0).lat 3).full && ((t.arrOf 0 0 0).lat 3).value == 0) = true)
    ∧ (let i := aInst 0x80 (mw 0 1) true
       let s := atWork i {} { lat3 := { full := true, id := 1, value := 0x3F800000 } }
       let at_ := eAddr i 1 0 3
       ((s.arrOf 0 0 0).lat 3).full = true ∧ arrInst (s.coreOf 0 0) 1 = some i ∧ 0 < rowsOf i ∧ fOp i.word.toNat ≠ 0xA5
         ∧ fHalt i.word.toNat = false ∧ elemBytes (fFmtDst i.word.toNat) = 4 ∧ accessFault i.wmask at_ 4 = 0
         ∧ (after (.drainAccept 0 0 0 3) s fun t => padBytes (t.coreOf 0 0) 268 4 == [0, 0, 0x80, 0x3F]) = true)
    ∧ (let i := aInst 0x80 (mw 0 2) true
       let s := atWork i jTaken { col3 := { stain := true } }
       let k := s.coreOf 0 0
       let at_ := eAddr i 3 0 3
       (parkWaits k (k.arr 0)).map (·.1) = some i ∧ accessFault i.wmask at_ 32 = 0 ∧ accessFault i.wmask (at_ + 32) 32 = 0
         ∧ (after (.arrayPark 0 0 0) s fun t => (t.arrOf 0 0 0).jobs.isEmpty && padStained (t.coreOf 0 0) (1216 / 32)) = true)
    ∧ (let i := aInst 0x80 (mw 2 1) true
       let n := i.word.toNat
       let rec_ := leBytes 64 (parkRecord n {})
       let s0 := atWork i {}
       let s := s0.updCoreOf 0 0 fun k => { k with
         pad := padAt 1024 (rec_ ++ rec_ ++ rec_ ++ rec_) }
       let k := s.coreOf 0 0
       (resumeWaits k (k.arr 0)).map (·.1) = some i
         ∧ (∀ col < 4, let a := eAddr i 3 0 col
            accessFault i.rmask a 32 = 0 ∧ accessFault i.rmask (a + 32) 32 = 0
              ∧ recordOk n (leNat (padBytes (s.coreOf 0 0) a.toNat 64)) = true)
         ∧ (after (.arrayResume 0 0 0) s fun t => (t.arrOf 0 0 0).jobs.map (·.begun) == [[true, true, true, true]]) = true) := by
  decide +kernel

/-- A weight load of the FP8 tile at 0, of LMODE 1. -/
def wInst (started : Bool) (next : Nat) : EInst :=
  { id := 2, word := BitVec.ofNat 128 (wordOf 0xE2 (tw 4 0 0 1 0 0)), rmask := 1, started := started, next := next
    d0 := dPadOf 32 0, writesOut := true }

theorem witness_WeightLoads :
    (let i := wInst false 0
     let s := oneCore { iq := [i], aq := [{ aInst 0x80 (BitVec.ofNat 120 (2 ^ 65 + (mw 0 1).toNat)) true with rmask := 2, wmask := 2 }] }
     let k := s.coreOf 0 0
     nextLoad k = some i ∧ scoreOk k i = true ∧ (k.iq.filter (·.started)).length < 2
       ∧ (∀ j ∈ k.iq, j.started = true → eOp j ≠ 0xE2)
       ∧ (∀ j ∈ k.aq, j.id < i.id → fBank j.word.toNat = fBankS i.word.toNat → passedBank k j = true)
       ∧ (after (.weightLoadStart 0 0) s fun t => ((t.arrOf 0 0 3).bank false).loading && !((t.arrOf 0 0 3).bank true).loading)
         = true)
    ∧ (let i := wInst true 0
       let s := oneCore { iq := [i], pad := [(0, 7)], padClean := (List.range 32).map fun n => (n, true) }
       (s.coreOf 0 0).iq.find? (fun i => i.started && eOp i == 0xE2 && i.next == 0) = some i
         ∧ (after (.weightLoadComplete 0 0) s fun t => ((t.arrOf 0 0 0).bank false).fmt == some 0
             && (t.coreOf 0 0).iq.any (·.next == 1)) = true) := by decide +kernel

/-- `VNEG` of four FP32 elements from 0 to 512. -/
def vInst (started : Bool) (next : Nat) : EInst :=
  { id := 3, word := BitVec.ofNat 128 (wordOf 0xC7 (vw 8 0 0 0)), rmask := 1, wmask := 1, started := started, next := next
    d0 := dPadOf 4 0, d2 := dPadOf 4 512, readsOut := decide (next = 1) }

theorem witness_VectorEngineCommands :
    (let i := vInst false 0
     let s := oneCore { vq := [i] }
     (s.coreOf 0 0).vq.find? (fun i => !i.started) = some i ∧ scoreOk (s.coreOf 0 0) i = true
       ∧ (∀ j ∈ (s.coreOf 0 0).vq, j.started = true → vecFed j = true)
       ∧ (after (.vectorInstrStart 0 0) s fun t => (t.coreOf 0 0).vq == [vInst true 0]) = true)
    ∧ (let i := vInst true 0
       let s := oneCore { vq := [i], pad := [(3, 0x3F)] }
       (s.coreOf 0 0).vq.find? (fun i => i.started && !vecFed i) = some i
         ∧ (after (.vectorGroup 0 0) s fun t => (t.coreOf 0 0).veng.out.map (·.id) == [3]
             && (t.coreOf 0 0).vq.map (·.next) == [1]) = true)
    ∧ (let i := vInst true 1
       let v : VRes := { id := 3, writes := [(512, [0, 0, 0, 0xBF], false)] }
       let s := oneCore { vq := [i], veng := { out := [v] } }
       (s.coreOf 0 0).veng.out = [v] ∧ (s.coreOf 0 0).vq.find? (fun i => i.id == v.id) = some i ∧ vecFed i = true
         ∧ (after (.vectorResultWrite 0 0) s fun t => padBytes (t.coreOf 0 0) 512 4 == [0, 0, 0, 0xBF]
             && (t.coreOf 0 0).vq.all (·.writesOut)) = true) := by decide +kernel

/-- `SI.LD` of four 32-byte elements from device address 0 to the scratchpad at 0. -/
def liInst (started : Bool) (next : Nat) : EInst :=
  { id := 4, word := BitVec.ofNat 128 (wordOf 0xE0 (tw 1 0 2 0 5 0)), wmask := 1, started := started, next := next
    d0 := dMemOf 4 0, d2 := BitVec.ofNat 512 (4 + 2 ^ 32 * 32 + 2 ^ 448 + 2 ^ 452) }
/-- `SO.ST` of four 32-byte elements from the scratchpad at 0 to device address 0. -/
def soInst (started : Bool) (next : Nat) : EInst :=
  { id := 5, word := BitVec.ofNat 128 (wordOf 0xF0 (tw 2 0 1 0 5 0)), rmask := 1, started := started, next := next
    d0 := BitVec.ofNat 512 (4 + 2 ^ 32 * 32 + 2 ^ 448 + 2 ^ 452), d2 := dMemOf 4 0 }

theorem witness_StreamEngineCommands_start :
    (let i := liInst false 0
     let s := oneCore { iq := [i] }
     let k := s.coreOf 0 0
     (k.queue (dirQueue .inn)).find? (fun i => !i.started) = some i ∧ isWld i = false
       ∧ ((k.queue (dirQueue .inn)).filter (·.started)).length < 2 ∧ scoreOk k i = true
       ∧ (after (.streamInInstrStart 0 0) s fun t => (t.coreOf 0 0).iq == [liInst true 0]) = true)
    ∧ (let i := soInst false 0
       let j := { soInst true 4 with id := 2 }
       let s := oneCore { oq := [j, i] }
       let k := s.coreOf 0 0
       (k.queue (dirQueue .out)).find? (fun i => !i.started) = some i ∧ isWld i = false
         ∧ ((k.queue (dirQueue .out)).filter (·.started)).length < 2
         ∧ (∀ j ∈ k.queue (dirQueue .out), j.started = true → allIssued j = true)
         ∧ scoreOk k i = true
         ∧ (after (.streamOutInstrStart 0 0) s fun t => (t.coreOf 0 0).oq.all (·.started)) = true) := by decide +kernel

theorem witness_StreamEngineCommands_issue :
    (let i := liInst true 3
     let s := oneCore { iq := [i] }
     let k := s.coreOf 0 0
     (k.queue (dirQueue .inn)).find? (fun i => i.started && !allIssued i) = some i ∧ (k.accs .inn).length < accLimit .inn
       ∧ conflicts s 0 0 .inn i = false ∧ usesDevice i = true ∧ fencePassed k i = true
       ∧ (after (.streamSectorIssue 0 0 { dir := .inn }) s fun t => (t.coreOf 0 0).reads.map (·.addr) == [96]) = true)
    ∧ (let i := soInst true 0
       let s := oneCore { oq := [i] }
       let k := s.coreOf 0 0
       (k.queue (dirQueue .out)).find? (fun i => i.started && !allIssued i) = some i ∧ (k.accs .out).length < accLimit .out
         ∧ conflicts s 0 0 .out i = false ∧ fencePassed k i = true ∧ isIndexed i = false ∧ farAligned i (farAddr i .out 0 i.next 0) = true
         ∧ fHalt i.word.toNat = false
         ∧ (after (.streamSectorIssue 0 0 { dir := .out }) s fun t => (t.coreOf 0 0).writes.map (·.piece) == [0]) = true) := by
  decide +kernel

theorem witness_StreamEngineCommands_return :
    (let i := liInst true 4
     let a : SAcc := { id := 4, piece := 3, offs := [0], phase := 3, data := List.replicate 32 9 }
     let s := oneCore { iq := [i], reads := [a] }
     (s.coreOf 0 0).reads[0]? = some a ∧ 3 ≤ a.phase ∧ (s.coreOf 0 0).iq.find? (fun j => j.id == a.id) = some i
       ∧ fHalt i.word.toNat = false ∧ accessFault i.wmask (nearAddr i .inn 0 a.piece) (pieceBytes i) = 0
       ∧ (after (.streamReadReturn 0 0 0) s fun t => padBytes (t.coreOf 0 0) 96 32 == List.replicate 32 9) = true)
    ∧ (let a : SAcc := { id := 5, phase := 3, write := true }
       let s := oneCore { oq := [soInst true 4], writes := [a] }
       (s.coreOf 0 0).writes[0]? = some a ∧ 3 ≤ a.phase
         ∧ (after (.streamWriteComplete 0 0 0) s fun t => (t.coreOf 0 0).writes.isEmpty) = true)
    ∧ (∀ e ∈ [Engine.aq, .vq, .iq, .oq], let i := match e with
        | .aq => aInst 0x80 (mw 0 1) true | .vq => vInst true 1 | .iq => liInst true 4 | .oq => soInst true 4
      let s := oneCore (({} : CoreSt).setQueue e [i])
      (s.coreOf 0 0).queue e = [i] ∧ headDone (s.coreOf 0 0) e i = true ∧ i.halted = false
        ∧ (after (.engineInstrComplete 0 0 e) s fun t => ((t.coreOf 0 0).queue e).isEmpty) = true) := by decide +kernel

/-! ### Memory -/

/-- A sector of distinct bytes. -/
def bytes32 : List Byte := (List.range 32).map fun i => BitVec.ofNat 8 (3 * i + 1)

theorem witness_DramSectorWriteThenRead :
    (∀ x ∈ [(0, 0), (7, 24576 * 65536 - 1)], sectorExists false x.1 x.2 = true
        ∧ cachedAt State.reset false x.1 x.2 = none ∧ inWindow State.reset false x.1 x.2 = false)
    ∧ (∀ x ∈ [(0, 0), (15, 32768 * 65536 - 1)], sectorExists true x.1 x.2 = true
        ∧ cachedAt State.reset true x.1 x.2 = none ∧ inWindow State.reset true x.1 x.2 = false)
    ∧ bytes32.length = 32
    ∧ (∀ hbm : Bool, let s : State := { mem := { die := [(0, { nm := [(0, { retrain := true })], hbm := [(0, { retrain := true })] })] } }
        sectorExists hbm 0 0 = true ∧ inWindow s hbm 0 0 = true)
    ∧ (let s : State := { mem := { die := [(0, { cache := [⟨true, 0, 5, bytes32, true, false⟩] })] } }
       cachedAt s true 0 5 = some ⟨true, 0, 5, bytes32, true, false⟩ ∧ sectorExists true 0 5 = true
         ∧ (after (.hbmSectorWrite (.sector 0 5 (zeros 32) 1 false) .clean) s fun t =>
             cachedAt t true 0 5 == some ⟨true, 0, 5, 0 :: bytes32.drop 1, true, true⟩) = true) := by decide +kernel

theorem test_dram_write_read :
    (after (.nmSectorWrite (.sector 7 5 bytes32 0xFFFFFFFF true) []) State.reset fun t =>
        after (.nmSectorRead (.sector 7 5 [] 0 false) []) t fun u => u.mem.resp == some (bytes32, true))
      && (after (.hbmSectorWrite (.sector 15 5 bytes32 0xFFFFFFFF false) .clean) State.reset fun t =>
        after (.hbmSectorRead (.sector 15 5 [] 0 false) .clean) t fun u => u.mem.resp == some (bytes32, false)) = true := by
  decide +kernel

/-- Near memory with one sector written. -/
def sNm : State := nmStore State.reset 0 5 bytes32 true

theorem witness_NearMemoryCorrectsOneSymbol :
    sectorExists false 0 5 = true ∧ cachedAt sNm false 0 5 = none ∧ inWindow sNm false 0 5 = false ∧ nmSyms sNm 0 5 = nmEncode bytes32 true
      ∧ (∀ p ∈ [0, 31, 32, 35], (after (.nmSectorRead (.sector 0 5 [] 0 false) [(p, 0x5A)]) sNm fun t =>
          t.mem.resp == some (bytes32, true)) = true) := by decide +kernel

theorem witness_MemoryErrorReports :
    (sectorExists true 0 5 = true ∧ cachedAt State.reset true 0 5 = none ∧ inWindow State.reset true 0 5 = false
      ∧ (after (.hbmSectorRead (.sector 0 5 [] 0 false) (.escaped false [9])) State.reset fun t =>
          t.mem.resp == some (0 :: 2 :: zeros 30, false) && hbmReport t 0 5 .clean == .escaped false [9]) = true
      ∧ (after (.hbmSectorRead (.sector 0 5 [] 0 false) .corrected) State.reset fun t =>
          after (.patrolScrub true 0 5 [] .clean) t fun u => hbmReport t 0 5 .clean == .corrected
            && hbmReport u 0 5 .clean == .clean) = true
      ∧ (after (.hbmSectorRead (.sector 0 5 [] 0 false) .uncorrected) State.reset fun t =>
          t.mem.resp == some (zeros 32, true) && t.irq.latch.contains 0x22) = true
      ∧ (after (.patrolScrub true 0 5 [] .uncorrected) State.reset fun t => hbmStained t 0 5) = true)
    ∧ (let s := oneCore {}
       s.guard.armed = []
         ∧ (after (.sramAccess (.scratch 0 0 8191) (some (0x0102, 0xFF)) []) s fun t =>
             padBytes (t.coreOf 0 0) 65528 2 == [2, 1]) = true
         ∧ (after (.sramAccess (.scratch 0 0 0) none [71]) (oneCore { pad := [(0, 7)], padClean := [(0, true)] }) fun t =>
             t.mem.resp == some ([7, 0, 0, 0, 0, 0, 0, 0], false)) = true
         ∧ (after (.sramAccess (.scratch 0 0 0) none [0, 71]) (oneCore { padClean := [(0, true)] }) fun t =>
             padStained (t.coreOf 0 0) 0 && t.irq.latch.contains 0x1A) = true) := by decide +kernel

/-- Table 7.5, by hand: byte 0x56B20 of frame 1234 of a stack. -/
theorem test_near_memory_place :
    nmPlaceOf ((1234 * 2 ^ 21 + 0x56B20) / 32) = { sector := 1, chan := 72, die := 2, column := 2, bank := 13, row := 610 } := by
  decide +kernel

/-- Table 13.2: one flipped bit of the address path raises `PARITY` and the access goes on; two flipped bits do not show. -/
theorem test_parity :
    let s := oneCore { iq := [liInst true 3] }
    (after (.streamSectorIssue 0 0 { dir := .inn, upset := [7] }) s fun t => t.irq.latch.contains 0x1B
        && (t.coreOf 0 0).reads.map (·.addr) == [96 + 128]) = true
      ∧ (after (.streamSectorIssue 0 0 { dir := .inn, upset := [7, 8] }) s fun t => t.irq.latch == []
          && (t.coreOf 0 0).reads.map (·.addr) == [96 + 384]) = true := by decide +kernel

theorem witness_MemoryErrorReports_near :
    sectorExists false 0 5 = true ∧ inWindow sNm false 0 5 = false ∧ nmSyms sNm 0 5 = nmEncode bytes32 true
      ∧ cachedAt sNm false 0 5 = none
      ∧ (after (.patrolScrub false 0 5 [(3, 7)] .clean) sNm fun t => t.irq.latch.contains 0x48) = true
      ∧ (let u : List (Nat × Byte) := [(3, 7), (9, 1), (20, 5)]
         (nmDecode (u.foldl (fun w x => fixSym w x.1 x.2) (nmSyms sNm 0 5))).how = 2
           ∧ (after (.nmSectorRead (.sector 0 5 [] 0 false) u) sNm fun t => t.irq.latch.contains 0x21
               && (t.mem.resp.map (·.2)) == some true) = true) := by decide +kernel

/-- R114, R213: a scalar register, a descriptor word, a word of a collective buffer and one of the shelf are checked as
they are read; a double error of a register is `SEQ_ECC`, one of a memory is `SRAM_UE`. -/
theorem witness_MemoryErrorReports_places :
    let s := withJob (oneCl { kS with win := some 0 })
    let s := { s with mem := { s.mem with die := [(0, { shelfWin := 5 })] } }
    (∀ p ∈ [SramPlace.sreg 0 4, .ldesc 0 1 0, .buffer 0 131071, .shelf 0 0], (sramSector s p).isSome = true)
      ∧ isSeqReg (.ldesc 0 1 0) = true ∧ isSeqReg (.buffer 0 5) = false
      ∧ (after (.sramAccess (.sreg 0 4) none [3]) s fun t => t.mem.resp == some (leBytes 8 16, false)
          && sReg (t.clu 0) 4 == 16 && t.irq.latch.contains 0x48) = true
      ∧ (after (.sramAccess (.sreg 0 4) none [3, 5]) s fun t => sStain (t.clu 0) 4 && t.irq.latch.contains 0x14) = true
      ∧ (after (.sramAccess (.ldesc 0 1 0) none [3, 5]) s fun t => lStain (t.clu 0) 1 && t.irq.latch.contains 0x14) = true
      ∧ (∀ p ∈ [SramPlace.buffer 0 131071, .shelf 0 0],
          (after (.sramAccess p none [3, 5]) s fun t => t.irq.latch.contains 0x1A) = true)
      ∧ (let i : Inject := { cls := 0x04, weight := 2, left := 1, src := BitVec.ofNat 32 (srcCluster s 0), win := 0 }
         let u := { s with guard := { s.guard with armed := [i] } }
         i.cls.toNat = sramCls (.sreg 0 4) ∧ i.src.toNat = sramSrc u (.sreg 0 4) ∧ sramWin u (.sreg 0 4) = some 0
           ∧ (sramSector u (.sreg 0 4)).isSome = true) := by decide +kernel

/-- A stream access of cluster 0, core 0, to HBM4 stack 0, translated. -/
def rd (write : Bool) (phase : Nat) : SAcc :=
  { id := 4, addr := 96, write := write, data := bytes32, en := 2 ^ 32 - 1, phase := phase, tier := 1, stack := 0, place := 3 }

theorem witness_StreamSectorAccesses :
    (let s := oneCore { reads := [rd false 2] }
     readyAcc s 0 0 .inn 0 true false = some (rd false 2) ∧ cachedAt s true 0 3 = none ∧ s.guard.armed = []
       ∧ hbmReport s 0 3 .clean = .clean
       ∧ (after (.hbmSectorRead (.stream 0 0 .inn 0) .clean) s fun t => (t.coreOf 0 0).reads.map (·.phase) == [3]) = true)
    ∧ (let s := oneCore { writes := [rd true 2] }
       readyAcc s 0 0 .out 0 true true = some (rd true 2)
         ∧ (after (.hbmSectorWrite (.stream 0 0 .out 0) .clean) s fun t =>
             (t.coreOf 0 0).writes.map (·.phase) == [3] && hbmData t 0 3 == bytes32) = true)
    ∧ (let a := { rd false 2 with tier := 0, place := 5 }
       let s := nmStore (oneCore { reads := [a] }) 0 5 bytes32 true
       readyAcc s 0 0 .inn 0 false false = some a ∧ cachedAt s false 0 5 = none ∧ nmSyms s 0 5 = nmEncode bytes32 true
         ∧ (after (.nmSectorRead (.stream 0 0 .inn 0) []) s fun t => (t.coreOf 0 0).reads.map (·.stain) == [true]) = true)
    ∧ (let a := { rd true 2 with tier := 0, place := 5 }
       let s := oneCore { writes := [a] }
       readyAcc s 0 0 .out 0 false true = some a ∧ cachedAt s false 0 5 = none
         ∧ (after (.nmSectorWrite (.stream 0 0 .out 0) []) s fun t => nmSyms t 0 5 == nmEncode bytes32 false) = true)
    ∧ (let s := oneCore { reads := [rd false 2] }
       let s := { s with mem := { s.mem with die := [(0, { cache := [⟨true, 0, 3, zeros 32, true, false⟩] })] } }
       readyAcc s 0 0 .inn 0 true false = some (rd false 2) ∧ cachedAt s true 0 3 = some ⟨true, 0, 3, zeros 32, true, false⟩
         ∧ (after (.hbmSectorRead (.stream 0 0 .inn 0) .clean) s fun t => (t.coreOf 0 0).reads.map (·.data) == [zeros 32])
           = true) := by decide +kernel

/-- A block address in cluster 0's collective buffer. -/
def bufAt (a : Nat) : DWord := BitVec.ofNat 64 (2 ^ 51 + a)

/-- The table of window 0 maps page 0, writable, to frame 1 of HBM4 stack 0. -/
def eHbm : DWord := mkEntry true false 8 1 0
/-- A core with one access that waits for translation, in a die whose cache holds `c`. -/
def sXlat (a : SAcc) (c : List (Nat × DWord)) : State :=
  let s := oneCore { reads := if a.write then [] else [a], writes := if a.write then [a] else [] }
  { s with mem := { s.mem with table := [(0, eHbm)], die := [(0, { xlat := c })] } }

theorem witness_TranslationLookups :
    let a : SAcc := { id := 4, addr := 96 }
    let key := xlatKey 0 0
    (let s := sXlat a [(key, eHbm)]
     s.acc 0 0 .inn 0 = some a ∧ (s.clu 0).win = some 0 ∧ behindSame ((s.coreOf 0 0).accs .inn) 0 96 = false
       ∧ (s.dieMem (clDie 0)).xlat.find? (fun e => e.1 == key) = some (key, eHbm)
       ∧ xlatEntry s eHbm 96 false = .ok (.hbm 0 (65536 + 3)) false
       ∧ (after (.xlatLookup (.stream 0 0 .inn 0)) s fun t => t.acc 0 0 .inn 0 ==
           some { a with tier := 1, place := 65539, phase := 2 }) = true)
    ∧ (let s := sXlat a []
       (s.dieMem (clDie 0)).xlat.find? (fun e => e.1 == key) = none
         ∧ (after (.xlatLookup (.stream 0 0 .inn 0)) s fun t => (t.dieMem 0).misses.contains key
             && after (.xlatMissFill 0 0 0 0) t fun u => (u.dieMem 0).xlat == [(key, eHbm)]) = true)
    ∧ (let s := sXlat a [(key, 0)]
       (s.dieMem (clDie 0)).xlat.find? (fun e => e.1 == key) = some (key, 0) ∧ xlatEntry s 0 96 false = .fault 1
         ∧ (after (.xlatLookup (.stream 0 0 .inn 0)) s fun t => t.mem.fltValid && (t.coreOf 0 0).reads.map (·.stain) == [true])
           = true)
    ∧ (let s := { sXlat a [] with mem := { table := [(0, eHbm)], die := [(0, { misses := [key] })] } }
       (s.dieMem 0).misses.contains key = true ∧ entV (tableEntry s 0 0) = true
         ∧ (sXlat a []).guard.armed = [] ∧ xlatEntry s (tableEntry s 0 0) 96 false = .ok (.hbm 0 65539) false) := by
  decide +kernel

theorem witness_TranslationLookups_places :
    let buf : SAcc := { id := 4, addr := (bufAt 96).toNat }
    let write : SAcc := { id := 4, addr := 96, write := true, data := bytes32, en := wholeEn }
    let key := xlatKey 0 0
    (let s := sXlat buf []
     xlatDirect s 0 buf.addr = some (.ok (.buf 0 3) false)
       ∧ (after (.xlatLookup (.stream 0 0 .inn 0)) s fun t => (t.coreOf 0 0).reads.map (·.phase) == [3]) = true)
    ∧ (let s := sXlat { write with addr := (bufAt 96).toNat } []
       xlatDirect s 0 (bufAt 96).toNat = some (.ok (.buf 0 3) false) ∧ write.en = wholeEn ∧ write.data.length = 32
         ∧ (after (.xlatLookup (.stream 0 0 .out 0)) s fun t => (secRead t (.buf 0 3)).2.1 == bytes32) = true)
    ∧ (let s := sXlat write [(key, 0)]
       xlatEntry s 0 96 true = .fault 1 ∧ (s.jobAt 0).running = true
         ∧ (after (.xlatLookup (.stream 0 0 .out 0)) s fun t => (t.jobAt 0).stopping
             && (t.coreOf 0 0).writes.map (·.phase) == [4]) = true)
    ∧ (let e := mkEntry true false 3 1 0
       let s := sXlat { id := 4, addr := 96 } [(key, e)]
       xlatEntry s e 96 false = .ok (.nm 3 65539) false
         ∧ (after (.xlatLookup (.stream 0 0 .inn 0)) s fun t => (t.coreOf 0 0).reads.map (·.phase) == [2]) = true)
    ∧ (let s := sXlat { id := 4, addr := 96 } [(key, eHbm)]
       xlatDirect s 0 96 = none ∧ (s.dieMem 0).xlat.find? (fun e => e.1 == key) = some (key, eHbm)
         ∧ (after (.xlatLookup (.unit 0 0 96 false)) s (· == s)) = true)
    ∧ (let s := sXlat { id := 4, addr := 96 } [(key, 0)]
       xlatEntry s 0 96 true = .fault 1 ∧ (s.jobAt 0).running = true
         ∧ (after (.xlatLookup (.unit 0 0 96 true)) s fun t => (t.jobAt 0).stopping && t.mem.fltValid) = true
         ∧ (after (.xlatLookup (.unit 0 0 96 false)) s fun t => t.mem.resp == some (zeros 32, true)) = true)
    ∧ (let s := sXlat { id := 4, addr := 96 } []
       (after (.xlatLookup (.unit 0 0 96 false)) s fun t => (t.dieMem 0).misses == [key]) = true
         ∧ (s.dieMem 0).misses.contains key = false) := by decide +kernel

theorem witness_ShelfCacheCommands :
    (let s : State := { mem := { table := [(0, mkEntry true true 8 1 0), (1, mkEntry true false 8 2 0)] } }
     xlate s 0 160 false = .ok (.hbm 0 (65536 + 5)) true ∧ cachedAt s true 0 (65536 + 5) = none
      ∧ inWindow s true 0 (65536 + 5) = false ∧ (s.dieMem 0).cacheHbm = true ∧ (s.dieMem 0).cacheNm = true
      ∧ (after (.shelfCacheAccess 0 0 0 5 true 0) s fun t => (cachedAt t true 0 (65536 + 5)).isSome) = true
      ∧ xlate s 0 (2 ^ 21) false = .ok (.hbm 0 131072) false
      ∧ (after (.shelfCacheAccess 0 0 1 0 true 0) s fun t => (t.dieMem 0).cache.isEmpty) = true)
    ∧ (State.reset.jobAt 0).running = false
    ∧ (after (.shelfCfgWrite .mp0 3 0x135) State.reset fun t => (t.dieMem 3).shelfWin == 5 && (t.dieMem 3).shelfTw == 3
        && (t.dieMem 3).cacheNm && !(t.dieMem 3).cacheHbm) = true
    ∧ (after (.shelfCfgWrite .mp0 3 0x136) State.reset fun t => (t.dieMem 3).shelfWin == 0) = true
    ∧ (let s := withJob State.reset
       (s.jobAt (s.dieMem 3).shelfTw.toNat).running = true
         ∧ (after (.shelfCfgWrite .mp0 3 0x135) s fun t => (t.dieMem 3).shelfTw == 0) = true)
 := by decide +kernel

/-- A bank that no row was opened in, and one whose activations have reached the threshold, whatever it is. -/
theorem witness_ShelfCacheCommands_refresh :
    Tbl.get 0 State.reset.mem.hbmActs 5 < Config.hbmThreshold 0 ∧
    Config.hbmThreshold 15 ≤ Tbl.get 0
      ({ mem := { hbmActs := [((15 * 64 + 63) * 2 ^ 16 + 5, Config.hbmThreshold 15)] } } : State).mem.hbmActs
      ((15 * 64 + 63) * 2 ^ 16 + 5) :=
  ⟨Nat.succ_pos _, by simp [Tbl.get]⟩

/-- HBM4 channel 63 of base die 7. -/
def chH : Chan := .hbm 7 63
/-- The module with a channel's state. -/
def withChan (k : ChanSt) : State := { mem := { die := [(7, { hbm := [(63, k)], asked := [chH] })] } }

theorem witness_ChannelCalibration :
    (chanAt (withChan { band := 1 }) chH).band = 1
    ∧ (after (.channelTempSample chH 188) (withChan { band := 1 }) fun t => (chanAt t chH).band == 0) = true
    ∧ (after (.channelTempSample chH 189) (withChan { band := 1 }) fun t => (chanAt t chH).band == 1) = true
    ∧ (after (.channelTempSample chH 340) (withChan { cal := 1 }) fun t =>
        (chanAt t chH).band == 3 && (chanAt t chH).half && (chanAt t chH).pending) = true
    ∧ (let s := withChan { pending := true }
       (s.dieMem (chanDie chH)).asked.find? (fun x => chanGroup x == chanGroup chH) = some chH ∧ groupBusy s chH = false
         ∧ (after (.memRetrainWindowOpen chH) s fun t => (chanAt t chH).retrain && !(chanAt t chH).pending) = true)
    ∧ (let s := withChan { retrain := true, winBand := 2, band := 2, half := true }
       (chanAt s chH).retrain = true
         ∧ (after (.memRetrainWindowClose chH) s fun t => (chanAt t chH).cal == 4 && !(chanAt t chH).half) = true)
    ∧ (let s : State := { mem := { die := [(7, { nm := [(3, { lane := [(5, 65)] })] })] } }
       (s.dieMem 7).darnThr ≠ 0 ∧ (s.dieMem 7).darnThr.toNat < 65
         ∧ (after (.nmDarnEpochEnd 7) s fun t => (nmCh t 7 3).lane == []
             && ((nmCh t 7 3).marked.contains 5 || (nmCh t 7 3).darned.contains 5)) = true) := by decide +kernel

/-! ### Registers -/

/-- A register of an agent meets a test. -/
def regIs (s : State) (a : Agent) (o : Nat) (p : Reg → Bool) : Bool := match regAt s a o with | some r => p r | none => false

theorem witness_RegisterAccessForms :
    regIs State.reset .mp0 0x5018 (fun r => r.wide && r.took.isNone && r.put.isSome) = true
    ∧ (regAt State.reset .mp0 0x501C).isNone = true ∧ (hiOf State.reset .mp0 0x501C).isSome = true
    ∧ regIs (dropLo State.reset .mp0 0x5018) .mp0 0x5018 (fun r => r.put.isSome) = true
    ∧ isMp .mp0 = true
    ∧ (∀ x ∈ [(0x5018, 2), (0x5018, 16), (0x501A, 4), (0x501C, 8)],
        ¬ ((x.2 = 4 ∧ x.1 % 4 = 0) ∨ (x.2 = 8 ∧ x.1 % 8 = 0)))
    ∧ (after (.regLoReadSnapshot .mp0 0x5018) State.reset fun t => Tbl.get 0 t.rdata 2 == 0xFFFFFFFF
        && after (.regLoReadSnapshot .mp0 0x501C) t fun u => Tbl.get 0 u.rdata 2 == 0xFFFFFFFF) = true
    ∧ (after (.regLoWriteHold .mp3 0x5018 7) State.reset fun t =>
        after (.regHiWriteCommit .mp3 0x501C 1) t fun u => u.gct.cmp == 0x100000007) = true
    ∧ (after (.regAtomic64Access .mp0 0x5018 (some 9)) State.reset fun t => t.gct.cmp == 9) = true
    ∧ (after (.regMalformedAccess .mp0 0x5018 16 true) State.reset fun t => t == State.reset) = true := by decide +kernel

theorem witness_RegisterWritesByAgent :
    isMp .mp0 = true ∧ mgmt .fn1 = true ∧ isMp .fn1 = false ∧ ({} : Boot).state ≠ 3 ∧ ({} : Slc).drained = false
    ∧ (after (.regWrite .mp0 0x103C 0x10007) State.reset fun t => t.mem.twEn == 0x8000 && Tbl.get 0 t.mem.twJob 15 == 7)
      = true
    ∧ (after (.regWrite .fn1 0x1000 0x10007) State.reset fun t => t == State.reset) = true
    ∧ (after (.selectRegisterWrite .mp1 0x5F000 0x85) State.reset fun t => selOf t .mp1 (nmBase 7) == 5
        && selOf t .mp0 (nmBase 7) == 0) = true
    ∧ (after (.regWrite .smbus 0x103C 0x10007) State.reset fun t => t == State.reset) = true
    ∧ (after (.regWrite .fn0 0x5018 1) { boot := { state := 3 } } fun t => t == { boot := { state := 3 } }) = true
    ∧ (after (.slcIdWrite .mp0 0x1FF) { slc := { drained := true } } fun t => t.slc.slice == 0xFF && t.slc.member) = true
    ∧ (after (.slcMapWrite .mp0 0x1B) { slc := { drained := true } } fun t => t.slc.map == 0x1B) = true
    ∧ (after (.slcMapWrite .mp0 0x1B) State.reset fun t => t == State.reset) = true
    ∧ (after (.memAcctPeakRst .mp0 0x1FFF) { mem := { peakHbm := [(0xFFF, 5)] } } fun t => t.mem.peakHbm == []
        && selOf t .mp0 acctSel == 0xFFF) = true
    ∧ (after (.memAcctPeakRst .fn1 0x0FFF) { mem := { peakHbm := [(0xFFF, 5)] } } fun t => t.mem.peakHbm == [(0xFFF, 5)])
      = true := by decide +kernel

/-! ### Organisation -/

/-- A request by logical name: core 0 of cluster 0 of region 0 of die 0, with GO (Table 1.9). -/
def goWord : Word := 0x80000000
/-- A unit. -/
def unit0 : PhysUnit := .core 0 0 0 0

theorem witness_FieldPatchRequests :
    mgmt .mp0 = true ∧ goWord.getLsbD 31 = true ∧ (patchTarget State.reset goWord.toNat).isSome = true
    ∧ patchPhysTarget goWord.toNat = some unit0 ∧ State.reset.org.busy = false ∧ unit0 ∉ State.reset.org.recorded
    ∧ State.reset.org.size < 64
    ∧ (after (.orgPatchReq .mp0 goWord) State.reset fun t => t.org.busy && t.org.writing.isSome) = true
    ∧ (after (.orgPatchReqPhys .mp0 goWord) State.reset fun t => t.org.writing == some unit0) = true
    ∧ (after (.orgPatchReqPhys .mp0 goWord) { org := { busy := true } } fun t => t.org.reject) = true
    ∧ (after .patchFlashWriteComplete { org := { busy := true, writing := some unit0 } } fun t =>
        t.org.copy.entries == [unit0] && t.org.pending && !t.org.busy) = true := by decide +kernel

/-- A frame with a good CRC. -/
def goodFrame : List Byte := zeros 68 ++ leBytes 4 (crc32 (zeros 68)).toNat

/-- A packet of the collective engine for base die 3. -/
def aCarried : Packet := { cls := 1, tunit := 3, tdie := 3, len := 4, job := 7, data := [1, 2, 3, 4], vc := 2 }

/-- R274: base dies 4 and 1 are joined by a corner link, and a packet from die 0 to die 3 crosses two spokes through the
I/O die (8). -/
theorem test_package_path :
    packagePath 0 4 = [(0, true)] ∧ packagePath 5 1 = [(1, false)] ∧ packagePath 1 4 = [(4, false)]
    ∧ packagePath 7 0 = [(7, true)] ∧ packagePath 0 3 = [(8, true), (11, false)] ∧ (d2dEnds 6) = (6, 3)
    ∧ (let s := carryPacket State.reset 0 1 aCarried
       let f := ((wayOf s 8 true).sent.headD {}).bytes
       s.out == [.d2dFrame 8 true f] && s.tl.arrived == []
         && after (.d2dFrameReceive 8 true f) s (fun t => t.tl.arrived == [] && (wayOf t 8 true).sent == []
              && (wayOf t 11 false).sent.map (·.bytes) == [f]
              && after (.d2dFrameReceive 11 false f) t fun u => u.tl.arrived == [(1, aCarried)])) = true := by decide +kernel

theorem witness_DieToDieLinks :
    frameGood goodFrame = true ∧ frameGood (zeros 72) = false ∧ d2dModules 3 = 8 ∧ d2dModules 4 = 4
    ∧ (Tbl.get {} State.reset.d2d 15).off.getLsbD 3 = false
    ∧ (after (.d2dFrameReceive 15 true goodFrame) State.reset fun t => (Tbl.get {} t.d2d 15).up.got == [(0, [zeros 68])]) = true
    ∧ (after (.d2dFrameReceive 15 false (zeros 72)) State.reset fun t => t.out == [.d2dReplay 15 false]) = true
    ∧ (let fs := (flitsOf { aCarried with len := 40 } 2).map fun x => ({ bytes := flitFrame 3 1 x } : D2dFrame)
       let s : State := { d2d := [(0, { up := { sent := fs } })] }
       (fs.map fun f => (dataFlit ((f.bytes.drop 4).take 64)).tail) = [false, true]
         ∧ (after (.d2dFrameReceive 0 true (fs.headD {}).bytes) s fun t => (wayOf t 0 true).sent == fs.drop 1) = true
         ∧ (after (.d2dFrameReceive 0 true goodFrame) { d2d := [(0, { up := { sent := fs, replaying := true } })] } fun t =>
              (wayOf t 0 true).sent == fs) = true
         ∧ (after (.d2dFrameReceive 0 true ((fs.getD 1 {}).bytes)) s (· == s)) = true
         ∧ (let s : State := { d2d := [(0, { up := { sent := fs.drop 1, part := [(2, (flitsOf { aCarried with len := 40 } 2).take 1)] } })] }
            wayEnd 0 true ≠ 8
              ∧ (after (.d2dFrameReceive 0 true ((fs.getD 1 {}).bytes)) s fun t => t.tl.arrived.length == 1) = true)
         ∧ (after (.d2dFrameReceive 0 true goodFrame) s fun t => (wayOf t 0 true).got == [(0, [zeros 68])]) = true
         ∧ (after (.d2dFrameReceive 0 true (zeros 72)) s fun t => (wayOf t 0 true).replaying
              && t.out == .d2dReplay 0 true :: fs.map fun f => .d2dFrame 0 true f.bytes) = true)
    ∧ (after (.d2dLaneFailure 15 3 true) State.reset fun t => (Tbl.get {} t.d2d 15).half == 8) = true
    ∧ (after (.d2dLaneFailure 3 7 false) State.reset fun t => (Tbl.get {} t.d2d 3).off == 0x80) = true := by decide +kernel

/-! ### Tensor links -/

/-- A module at coordinate 0 of a torus of two modules in X, with link 0 (ply 0, X plus) as given. -/
def sLink (k : TLink) : State := { tl := { size := 1, link := [(0, k)] } }
/-- A link that is UP. -/
def kUp : TLink := { state := 2, train := 5, locked := true, fence := false }

theorem witness_LinkControlRegisters :
    (let s := sLink { en := some false }
     isMp .mp0 = true ∧ torusN s 0 ≠ 1 ∧ s.slc.drained = false ∧ linkEn s 0 = false
       ∧ (after (.tlLinkEnWrite .mp0 0 1) s fun t => linkEn t 0 && (t.link 0).train == 1) = true)
    ∧ (let s := sLink { state := 1, train := 3 }
       linkEn s 0 = true ∧ carries (s.link 0) = false
         ∧ (after (.tlLinkEnWrite .mp0 0 0) s fun t => !linkEn t 0 && (t.link 0).train == 0) = true)
    ∧ (let s := { sLink kUp with slc := { drained := true } }
       linkEn s 0 = (3 : Word).getLsbD 0 ∧ s.slc.drained = true ∧ carries (s.link 0) = true ∧ (s.link 0).fence = false
         ∧ (after (.tlLinkFenceWrite .mp0 0 3) s fun t => (t.link 0).fence && (t.link 0).state == 3) = true)
    ∧ (after (.tlLinkFenceWrite .mp0 0 3) (sLink kUp) fun t => t == sLink kUp) = true
    ∧ (after (.tlLinkRetrainWrite .mp0 0 5) (sLink kUp) fun t => t.tl.asked == [0] && (t.link 0).pending) = true
    ∧ (after (.tlSliceWrite .mp0 7 0x1002) { slc := { drained := true } } fun t => Tbl.get 0 t.tl.base 7 == 2
        && Tbl.get none t.tl.k 7 == some 1) = true
    ∧ (after (.tlSliceWrite .mp0 7 0x1002) State.reset fun t => t == State.reset) = true := by decide +kernel

theorem witness_LinkTraining :
    (let s := sLink { train := 1 }
     linkEn s 0 = true ∧ s.boot.state ≠ 2 ∧ (s.link 0).train = 1
       ∧ (after (.linkTrainSignalDetect 0) s fun t => (t.link 0).train == 2 && (t.link 0).state == 1) = true
       ∧ (after (.linkTrainRestart 0) s fun t => (t.link 0).train == 1) = true)
    ∧ (after (.linkTrainEqualised 0) (sLink { train := 2 }) fun t => (t.link 0).train == 3) = true
    ∧ (let s := sLink { train := 3, recTx := 1 }
       (s.link 0).train = 3 ∧ laneCount (0x00F &&& ~~~(1 : BitVec 9)) < 4 ∧ 4 ≤ laneCount (0x01F &&& ~~~(1 : BitVec 9))
         ∧ (after (.linkTrainLanesFound 0 0x1F 0x1FF false) s fun t => (t.link 0).state == 5 && (t.link 0).reason == 4) = true
         ∧ (after (.linkTrainLanesFound 0 0x0F 0x1FF true) s fun t => (t.link 0).state == 6 && (t.link 0).reason == 2) = true
         ∧ (after (.linkTrainLanesFound 0 0x1F 0x1FF true) s fun t => (t.link 0).train == 4 && (t.link 0).txHalf
             && !(t.link 0).rxHalf && (t.link 0).txLanes == 0x1E) = true)
    ∧ (after (.linkFlitLock 0) (sLink { train := 4 }) fun t => (t.link 0).locked) = true
    ∧ (let s := sLink { state := 3, train := 5, locked := true, pstate := 3 }
       linkEn s 0 = true ∧ carries (s.link 0) = false ∧ (s.link 0).train ≠ 0
         ∧ (after (.flitLockLoss 0) s fun t => (t.link 0).state == 3 && (t.link 0).pstate == 0) = true)
    ∧ (after (.flitLockLoss 0) (sLink { state := 1, train := 5, locked := true }) fun t => (t.link 0).train == 1) = true := by
  decide +kernel

/-- What a wire flit decodes to. -/
def plain (f : List Byte) : List Byte := (unwire f).elim [] (·.1)
/-- The beacon of the partner in UP, whose link 1 meets link 0 (Table 8.6); these flits were encoded outside Lean, by
hand-written CRC-32 and Reed-Solomon code from R249 and R250. -/
def beaconUp : List Byte :=
  [0x02, 0, 0, 0, 0x03, 0, 0, 0, 0x01, 0, 0x04, 0x02, 0, 0x01, 0, 0, 0, 0, 0, 0, 0, 0, 0, 0, 0, 0, 0, 0, 0, 0, 0,
    0, 0, 0, 0, 0, 0, 0, 0, 0, 0, 0, 0, 0, 0, 0, 0, 0, 0, 0, 0, 0, 0, 0, 0, 0, 0, 0, 0, 0, 0, 0, 0, 0, 0x93, 0x8D,
    0x1F, 0x18, 0x91, 0xF5, 0x47, 0x3D]
/-- The same in FENCED. -/
def beaconFenced : List Byte :=
  [0x02, 0, 0, 0, 0x03, 0, 0, 0, 0x01, 0, 0x04, 0x03, 0, 0x01, 0, 0, 0, 0, 0, 0, 0, 0, 0, 0, 0, 0, 0, 0, 0, 0, 0, 0,
    0, 0, 0, 0, 0, 0, 0, 0, 0, 0, 0, 0, 0, 0, 0, 0, 0, 0, 0, 0, 0, 0, 0, 0, 0, 0, 0, 0, 0, 0, 0, 0, 0xD2, 0x3D,
    0xC7, 0x66, 0x02, 0x39, 0xD4, 0xA7]
/-- A beacon of coordinate 2 in a torus of three. -/
def beaconOther : List Byte :=
  [0x02, 0, 0, 0, 0x03, 0, 0, 0, 0x02, 0, 0x04, 0x01, 0, 0x02, 0, 0, 0, 0, 0, 0, 0, 0, 0, 0, 0, 0, 0, 0, 0, 0, 0,
    0, 0, 0, 0, 0, 0, 0, 0, 0, 0, 0, 0, 0, 0, 0, 0, 0, 0, 0, 0, 0, 0, 0, 0, 0, 0, 0, 0, 0, 0, 0, 0, 0, 0xDD, 0x7B,
    0xFB, 0x38, 0xCB, 0x4D, 0x5C, 0xBB]
/-- A data flit with SEQ 0 on VC 2 that holds a packet of the collective engine for coordinate 0, of 8 bytes. -/
def dataSeq0 : List Byte :=
  [0x69, 0, 0xFE, 0x03, 0x01, 0, 0, 0x30, 0x80, 0, 0, 0, 0x07, 0, 0, 0, 0, 0, 0, 0, 0, 0, 0, 0, 0, 0, 0, 0, 0, 0,
    0, 0, 0, 0, 0, 0, 0x01, 0x02, 0x03, 0x04, 0x05, 0x06, 0x07, 0x08, 0, 0, 0, 0, 0, 0, 0, 0, 0, 0, 0, 0, 0, 0, 0,
    0, 0, 0, 0, 0, 0x7B, 0x47, 0x6F, 0xA2, 0x9E, 0x76, 0x64, 0x57]
/-- An idle flit with ACK 9. -/
def idleAck9 : List Byte :=
  [0, 0, 0x12, 0, 0, 0, 0, 0, 0, 0, 0, 0, 0, 0, 0, 0, 0, 0, 0, 0, 0, 0, 0, 0, 0, 0, 0, 0, 0, 0, 0, 0, 0, 0, 0, 0,
    0, 0, 0, 0, 0, 0, 0, 0, 0, 0, 0, 0, 0, 0, 0, 0, 0, 0, 0, 0, 0, 0, 0, 0, 0, 0, 0, 0, 0x58, 0x83, 0xAA, 0x78,
    0x0D, 0x42, 0xC7, 0x93]
/-- RETRY_REQ(9). -/
def retryReq9 : List Byte :=
  [0x02, 0, 0xFE, 0x03, 0x01, 0, 0x09, 0, 0, 0, 0, 0, 0, 0, 0, 0, 0, 0, 0, 0, 0, 0, 0, 0, 0, 0, 0, 0, 0, 0, 0, 0,
    0, 0, 0, 0, 0, 0, 0, 0, 0, 0, 0, 0, 0, 0, 0, 0, 0, 0, 0, 0, 0, 0, 0, 0, 0, 0, 0, 0, 0, 0, 0, 0, 0xEE, 0x9A,
    0xD7, 0x7D, 0xB2, 0x50, 0x75, 0xBE]
/-- CREDIT_SYNC with the counts 3 to 8. -/
def creditSync : List Byte :=
  [0x02, 0, 0xFE, 0x03, 0x02, 0, 0, 0, 0x03, 0, 0x04, 0, 0x05, 0, 0x06, 0, 0x07, 0, 0x08, 0, 0, 0, 0, 0, 0, 0, 0,
    0, 0, 0, 0, 0, 0, 0, 0, 0, 0, 0, 0, 0, 0, 0, 0, 0, 0, 0, 0, 0, 0, 0, 0, 0, 0, 0, 0, 0, 0, 0, 0, 0, 0, 0, 0, 0,
    0x85, 0xE0, 0xE6, 0xEB, 0x1C, 0x7F, 0xB8, 0x45]
/-- RETRAIN_REQ for count 77. -/
def retrainReq77 : List Byte :=
  [0x02, 0, 0xFE, 0x03, 0x04, 0, 0, 0, 0x4D, 0, 0, 0, 0, 0, 0, 0, 0, 0, 0, 0, 0, 0, 0, 0, 0, 0, 0, 0, 0, 0, 0, 0,
    0, 0, 0, 0, 0, 0, 0, 0, 0, 0, 0, 0, 0, 0, 0, 0, 0, 0, 0, 0, 0, 0, 0, 0, 0, 0, 0, 0, 0, 0, 0, 0, 0xE0, 0x75,
    0x2D, 0xD4, 0x1A, 0xFC, 0xFD, 0xC1]

/-- Link 0 hears a flit of a kind and subtype. -/
def heard (s : State) (f : List Byte) (kind sub : Nat) : Bool :=
  linkEn s 0 && hears (s.link 0) && (match unwire f with
    | some (w, fixed) => fixed == 0 && lwKind (linkWord w) == kind && (kind != 2 || ctlSub w == sub)
    | none => false)

theorem witness_LinkFlitsReceived_beacon :
    (let s := sLink { state := 1, train := 5, locked := true, fence := false }
     heard s beaconUp 2 3 = true ∧ carries (s.link 0) = false ∧ byteAt (plain beaconUp) 11 = 2
       ∧ beaconCheck s 0 (plain beaconUp) = 0 ∧ (s.link 0).state = 1 ∧ shuttered s = false
       ∧ (after (.beaconReceive 0 beaconUp) s fun t => (t.link 0).state == 2 && (t.link 0).txSeq == 0) = true)
    ∧ (let s := sLink { state := 1, train := 5, locked := true }
       heard s beaconFenced 2 3 = true ∧ byteAt (plain beaconFenced) 11 = 3 ∧ beaconCheck s 0 (plain beaconFenced) = 0
         ∧ (s.link 0).fence = true ∧ (s.link 0).state = 1 ∧ shuttered s = false
         ∧ (match exec (.beaconReceive 0 beaconFenced) s with | .next t => (t.link 0).fence | _ => false) = true)
    ∧ (let s := { sLink { state := 1, train := 5, locked := true } with tl := { size := 2, link := [(0, { state := 1, locked := true })] } }
       heard s beaconOther 2 3 = true ∧ fieldAt (plain beaconOther) 8 2 ≠ partner s 0
         ∧ (after (.beaconReceive 0 beaconOther) s fun t => (t.link 0).state == 5 && (t.link 0).reason == 1) = true) := by
  decide +kernel

/-- A packet of the collective engine for coordinate `dest`, of 8 bytes. -/
def aPacket (dest : BitVec 12) : Packet :=
  { cls := 1, dest := dest, tunit := 3, len := 8, job := 7, data := [1, 2, 3, 4, 5, 6, 7, 8] }
/-- Its flit. -/
def aFlit (dest : BitVec 12) : Flit := flitOf (aPacket dest) 2 0
theorem witness_LinkFlitsReceived_data :
    (let s := sLink { kUp with replay := [{ seq := 8 }, { seq := 9 }, { seq := 10 }] }
     heard s idleAck9 0 0 = true
       ∧ (after (.idleFlitReceive 0 idleAck9) s fun t => (t.link 0).replay.map (·.seq) == [10]) = true)
    ∧ (let s := sLink kUp
       (s.link 0).state = 2 ∧ (unwire dataSeq0).isSome = true ∧ lwKind (linkWord (plain dataSeq0)) = 1
         ∧ s.guard.armed = [] ∧ (dataFlit ((plain dataSeq0).take 64)).seq = (s.link 0).rxSeq
         ∧ (dataFlit ((plain dataSeq0).take 64)).vc.toNat = 2 ∧ Tbl.get none (s.link 0).route 2 = none
         ∧ (after (.dataFlitReceive 0 dataSeq0) s fun t => (t.link 0).rxSeq == 1
             && (Tbl.get [] (t.link 0).inbuf 2).length == 1) = true
         ∧ (let s := sLink { kUp with rxSeq := 511 }
            (dataFlit ((plain dataSeq0).take 64)).seq ≠ (s.link 0).rxSeq
              ∧ (after (.dataFlitReceive 0 dataSeq0) s fun t => (t.link 0).rxSeq == 511) = true)
         ∧ unwire (List.replicate 71 0) = none ∧ (s.link 0).retrying = false
         ∧ (after (.dataFlitReceive 0 (List.replicate 71 0)) s fun t => (t.link 0).retrying && (t.link 0).ctl == [(1, [])])
           = true)
    ∧ (let s := sLink { kUp with replay := [{ seq := 8 }, { seq := 9 }] }
       heard s retryReq9 2 1 = true ∧ (s.link 0).state = 2
         ∧ (after (.retryReqReceive 0 retryReq9) s fun t => (t.link 0).resend.map (·.seq) == [9]) = true)
    ∧ (heard (sLink kUp) creditSync 2 2 = true
         ∧ (after (.creditSyncReceive 0 creditSync) (sLink kUp) fun t => Tbl.get 0 (t.link 0).freed 5 == 8) = true)
    ∧ (heard (sLink kUp) retrainReq77 2 4 = true
         ∧ (after (.retrainReqReceive 0 retrainReq77) (sLink { kUp with askedT := [5] }) fun t =>
             (t.link 0).askedT == [5, 77]) = true) := by decide +kernel

/-- R244, R251: with lane 1 darned at full width, byte 1 of a flit travels on lane 2, and byte 5 at half width over lanes
1–8 on lane 2; each byte goes low bits first. -/
theorem test_lanes :
    (spreadFlit 0x1FD false beaconUp).map (·.1) = [0, 2, 3, 4, 5, 6, 7, 8]
    ∧ (spreadFlit 0x1FE true (paste beaconUp 5 [0x1B])).map (fun x => (x.1, (x.2.drop 4).take 4))
        = [(1, [3, 0, 0, 0]), (2, [3, 2, 1, 0]), (3, [0, 0, 0, 0]), (4, [0, 0, 0, 0])]
    ∧ gatherFlit 0x1FD false (spreadFlit 0x1FD false beaconUp) = beaconUp
    ∧ darnInUse 0x1FD false = true ∧ darnInUse 0x1FE true = true ∧ darnInUse 0x0F0 true = true ∧ darnInUse 0x1FF false = false := by
  decide +kernel

theorem test_flit_corrected :
    (after (.dataFlitReceive 0 (paste dataSeq0 40 [0xEE, 0x11])) (sLink kUp) fun t => (t.link 0).rxSeq == 1
      && Tbl.get 0 (t.link 0).cnt 0 == 2) = true := by decide +kernel

theorem witness_LinkSlotsAndWindows :
    (let s := sLink { kUp with windowT := some 0, askedT := [0], replay := [{ seq := 3 }], replays := [(3, 7)] }
     linkEn s 0 = true ∧ (s.link 0).state = 2 ∧ trained (s.link 0) = true ∧ (s.link 0).window = false
       ∧ (after (.beaconSend 0) s fun t => (t.link 0).ctl.map (·.1) == [3]) = true
       ∧ (after (.creditSyncSend 0) s fun t => (t.link 0).ctl == [(2, [])]) = true
       ∧ (after (.retrainReqSend 0) s fun t => (t.link 0).ctl.map (·.1) == [4]) = true
       ∧ (after (.flitSlotSend 0) s fun t => t.out.length == 1) = true
       ∧ (after (.replayTimeout 0) s fun t => (t.link 0).replays == [(3, 8)] && t.tl.asked == [0]) = true
       ∧ Tbl.get 0 (s.link 0).replays 3 + 1 = replayThr s (linkDie 0) ∧ dueCount s (s.link 0) = some 0
       ∧ (after (.linkRetrainWindowStart 0) s fun t => (t.link 0).window && (t.link 0).state == 7) = true)
    ∧ (let s := sLink { state := 3, locked := true, askedT := [0] }
       trained (s.link 0) = true ∧ (s.link 0).askedT ≠ []
         ∧ (after (.fencedRetrainStart 0) s fun t => (t.link 0).window && (t.link 0).state == 3) = true)
    ∧ (let s := { sLink { kUp with state := 7, window := true } with gct := { count := 40000 } }
       (s.link 0).began.toNat + 40000 ≤ s.gct.count.toNat
         ∧ (after (.linkRetrainWindowEnd 0) s fun t => !(t.link 0).window && (t.link 0).state == 2) = true)
    ∧ (let s := sLink { kUp with txLanes := 0x1F }
       laneThr s 0 < 1001 ∧ (s.link 0).state ≠ 0 ∧ (s.link 0).state ≠ 1 ∧ (s.link 0).state ≠ 6
         ∧ (after (.tlLaneEpochEnd 0 [(0, 1001), (1, 1001)] []) s fun t => (t.link 0).txMarked.getLsbD 0) = true)
    ∧ (let s := sLink kUp
       (s.link 0).band ≠ 3 ∧ (s.link 0).cal.getLsbD 3 = false
         ∧ (after (.linkTempSample 0 340) s fun t => (t.link 0).band == 3 && (t.link 0).slow && t.tl.asked == [0]) = true) := by
  decide +kernel

/-- Link 1 (X minus) UP with a flit at the front of VC 2, and link 0 UP; the torus is a ring of three. -/
def sHead (x : Flit) : State :=
  withJob { tl := { size := 2, coord := 0, link := [(0, kUp), (1, { kUp with inbuf := [(2, [x])] })] }
            slc := { member := true } }

theorem witness_RoutingAndDelivery :
    (let x := aFlit 0
     let s := sHead x
     Tbl.get none (s.link 1).route 2 = none ∧ Tbl.get [] (s.link 1).inbuf 2 = [x] ∧ x.head = true ∧ x.tail = true
       ∧ badHeader s (linkDie 1) 2 (flitHeader x) = false ∧ (flitHeader x).mc = false
       ∧ (flitHeader x).dest.toNat = myCoord s ∧ Tbl.get [] (s.link 1).eject 2 = []
       ∧ (after (.routerHeadFlit 1 2) s fun t => t.tl.arrived == [(1, { aPacket 0 with vc := 2 })]) = true)
    ∧ (let x := aFlit 0
       let s := withComm (sHead x)
       let e : InPacket := { link := 1, pkt := { aPacket 0 with vc := 2, opnd0 := BitVec.ofNat 64 (2 ^ 32 + 5 * 2 ^ 16 + 3) } }
       let s := { s with tl := { s.tl with collIn := [e] }
                         coll := { s.coll with ctx := List.replicate 256 { key := ⟨3, 6, 1⟩ } } }
       ejectHeld s 1 2 = true ∧ badHeader s (linkDie 1) 2 (flitHeader x) = false ∧ (flitHeader x).dest.toNat = myCoord s
         ∧ (after (.routerHeadFlit 1 2) s fun t => t.tl.arrived == [] && Tbl.get [] (t.link 1).inbuf 2 == [x]) = true)
    ∧ (let x := aFlit 1
       let s := sHead x
       badHeader s (linkDie 1) 2 (flitHeader x) = false ∧ noTurn s 1 (flitHeader x) = false
         ∧ nextHop s (linkDie 1) (myCoord s) 1 0 = some (0, true) ∧ carries (s.link 0) = true
         ∧ (after (.routerHeadFlit 1 2) s fun t => (match Tbl.get none (t.link 1).route 2 with
             | some r => r.branches.map (·.link) == [0] && !r.eject | none => false)) = true)
    ∧ (let x := { aFlit 7 with vc := 2 }
       let s := sHead x
       badHeader s (linkDie 1) 2 (flitHeader x) = true
         ∧ (after (.routerHeadFlit 1 2) s fun t => t.irq.latch.contains 0x28) = true)
    ∧ (let x := aFlit 2
       let s := sHead x
       let s := { s with tl := { s.tl with link := [(0, kUp), (1, kUp), (2, { kUp with inbuf := [(2, [x])] })] } }
       badHeader s (linkDie 2) 2 (flitHeader x) = false ∧ noTurn s 2 (flitHeader x) = true
         ∧ (after (.routerHeadFlit 2 2) s fun t => t.tl.arrived == [] && t.irq.latch.contains 0x28) = true)
    ∧ (let s := withJob { tl := { arrived := [(1, aPacket 0)] } }
       (windowOf s 7).isSome = true
         ∧ (after .packetDeliver s fun t => t.tl.collIn == [{ link := 1, pkt := aPacket 0 }] && t.tl.delivered == 1) = true)
    ∧ (let g : Packet := { cls := 2, tunit := 4 }
       (after .packetDeliver { tl := { arrived := [(1, g)] } } fun t => t.tl.guildIn == [g] && t.tl.delivered == 0) = true)
    ∧ (let s : State := { tl := { arrived := [(1, aPacket 0)] } }
       windowOf s 7 = none ∧ (after .packetDeliver s fun t => t.tl.collIn == [] && t.irq.latch.contains 0x28) = true)
    ∧ (let s := { sLink kUp with slc := { member := true } }
       carries (s.link 0) = true ∧ Machine.interior s 0 = true ∧ sliceRuns s = true
         ∧ (after (.linkLeaveUp 0) s fun t => (t.link 0).train == 1 && t.slc.broken) = true) := by decide +kernel

/-! ### Phases -/

/-- A switch in progress at a step, with a request of one mapping item and, where asked, one move. -/
def sPhase (step : BitVec 3) (mv : Bool) : State :=
  { gct := { count := 5000 }
    coll := { sys := if step = 2 then some (.drain 2 3) else none }
    slc := { member := true, step := step, drained := decide (4 ≤ step.toNat)
             req := some { td := 4000, limit := 1, slcId := 0x101, tlSlice := 0x1000
                           items := [{ win := 1, vframe := 3, entry := eHbm }]
                             ++ if mv then [{ win := 2, vframe := 4, entry := eHbm, move := true }] else [] } } }

theorem witness_PhaseSwitchSteps :
    (let s := sPhase 1 false
     s.slc.req.isSome = true ∧ s.slc.step = 1 ∧ sliceBusy s = false ∧ 4000 ≤ s.gct.count.toNat ∧ gctSynced s = true
       ∧ (after .phaseDrainStart s fun t => t.slc.step == 2 && t.coll.sys == some (.drain 0 0)) = true)
    ∧ (after (.phaseDrainRoundComplete 5 5) (sPhase 2 false) fun t => t.slc.rounds == 1 && t.slc.step == 2
        && t.coll.sys == some (.drain 0 0)) = true
    ∧ (after (.phaseDrainRoundComplete 5 4) (sPhase 2 false) fun t => t.slc.step == 5 && t.slc.slice == 1
        && tableEntry t 1 3 == eHbm && Tbl.get none t.tl.k 7 == some 1) = true
    ∧ (after (.phaseDrainRoundComplete 5 4) (sPhase 2 true) fun t => t.slc.step == 4 && tableEntry t 2 4 == 0) = true
    ∧ (after (.residencyMoveComplete 1) (sPhase 4 true) fun t => t.slc.step == 5 && tableEntry t 2 4 == eHbm) = true
    ∧ (let s := sPhase 5 false
       (∀ r, s.slc.req = some r → mayResume s r = true) ∧ interiorUp s = true
         ∧ (after .phaseResumeComplete s fun t => t.slc.step == 6 && t.slc.req.isNone && t.irq.latch.contains 176) = true)
    ∧ (4000 + 1000 * 1 ≤ (sPhase 2 false).gct.count.toNat
      ∧ (after .phaseTimeout (sPhase 2 false) fun t => t.slc.step == 7 && t.slc.failed && t.irq.latch.contains 0x40) = true)
    := by
  refine ⟨by decide +kernel, by decide +kernel, by decide +kernel, by decide +kernel, by decide +kernel, ⟨?_, by decide +kernel⟩,
    by decide +kernel⟩
  intro r h
  cases h
  decide +kernel

/-! ### Time -/

/-- A member at coordinate 1 of a slice of two modules in X, with its link to the master UP. -/
def sMember : State :=
  { tl := { size := 1, coord := 1, link := [(1, kUp)] }, slc := { member := true }
    gct := { count := 10, frac := 2, t1 := some 64, exch := 3 } }
/-- The master's answer to exchange 3, with its two timestamps `t`. -/
def answer (t : Nat) : Packet :=
  { cls := 2, tunit := 5, opnd0 := 1 + 2 ^ 8 * 3, data := leBytes 8 64 ++ leBytes 8 t ++ leBytes 8 t }

theorem witness_CounterTicksAndSets :
    (after .gctWrap { gct := { count := 2 ^ 64 - 1, frac := 5 } } fun t => t.gct.count == 0 && t.gct.ovf && t.gct.frac == 5)
      = true
    ∧ (after .gctCompare { gct := { count := 8, cmp := 9 } } fun t => t.gct.count == 9 && t.irq.latch.contains 3) = true
    ∧ isMp .mp0 = true ∧ isMp .fn0 = false
    ∧ (let s : State := { gct := { cmp := 100 }, heldLo := [(0x5008 * 8 + 2, some 100)] }
       Tbl.get none s.heldLo (0x5008 * 8 + agNum .mp0) = some 100 ∧ anyJob s = false
         ∧ (after (.gctSetWrite .mp0 true 0) s fun t => t.gct.count == 100 && t.gct.steps == 1 && t.irq.latch.contains 3)
           = true
         ∧ anyJob (withJob s) = true
         ∧ (after (.gctSetWrite .mp0 true 0) (withJob s) fun t => t.gct.count == 0 && t.gct.setReject) = true)
    ∧ (let s : State := { heldLo := [(0x5018 * 8 + 2, some 7)] }
       Tbl.get none s.heldLo (0x5018 * 8 + agNum .mp0) = some 7
         ∧ (after (.gctCmpWrite .mp0 true 1) s fun t => t.gct.cmp == 0x100000007) = true)
    ∧ (after (.gctSetWrite .fn0 true 1) State.reset fun t => t == State.reset) = true := by decide +kernel

theorem witness_StepRunsFront :
    (match step State.reset with | .next t => t.gct.count == 1 && t.gct.frac == 0 | _ => false) = true
      ∧ State.reset.pending = [] ∧ State.reset.gct.slew = 0 ∧ State.reset.gct.rate = 0 := by decide +kernel

theorem witness_CounterSynchronisation :
    (hasParent sMember = true ∧ parentCoord sMember = some 0 ∧ nextHop sMember 0 (myCoord sMember) 0 (myCoord sMember) = some (0, false)
      ∧ carries (sMember.link (linkNum 0 0 false)) = true
      ∧ (after .gctSyncReqSend sMember fun t => t.gct.exch == 4 && t.gct.t1 == none
          && (Tbl.get [] (t.link 1).outq 5).length + (Tbl.get [] (t.link 1).outq 4).length == 1) = true)
    ∧ (let p : Packet := { cls := 2, tunit := 5, src := 1, opnd0 := 2 ^ 8 * 9, data := leBytes 8 64 }
       let s : State := { sMember with tl := { size := 1, coord := 0, link := [(0, kUp)], syncIn := [(p, 5)] } }
       p.opnd0.toNat % 16 = 0 ∧ (after .gctSyncReqReceive s fun t => t.tl.syncIn == [] && t.gct == s.gct) = true)
    ∧ (∀ x ∈ [(640, true), (642, false)],
       let s : State := { sMember with
         gct := { sMember.gct with synced := true }, tl := { sMember.tl with syncIn := [(answer x.1, 192)] } }
       (answer x.1).opnd0.toNat % 16 = 1 ∧ s.gct.t1 = some 64 ∧ (answer x.1).opnd0.toNat / 256 % 256 = s.gct.exch.toNat
         ∧ parentCoord s = some (answer x.1).src.toNat ∧ hasParent s = true
         ∧ (after .gctSyncRspReceive s fun t => t.gct.synced == x.2 && t.gct.loss != x.2
             && (!x.2 || (t.gct.slew == 512 && t.gct.theta == 512))) = true)
    ∧ (let s : State := { sMember with tl := { sMember.tl with syncIn := [(answer 640, 192)] } }
       s.gct.synced = false ∧ anyJob s = false
         ∧ (after .gctSyncRspReceive s fun t => timestamp t == 642 + 512 && t.gct.steps == 1) = true
         ∧ anyJob (withJob s) = true
         ∧ (after .gctSyncRspReceive (withJob s) fun t => t.gct.slew == 512 && t.gct.count == 10) = true)
    ∧ (let s : State := { sMember with gct := { synced := true } }
       hasParent s = true ∧ s.gct.synced = true
         ∧ (after .gctSyncLossTimeout s fun t => !t.gct.synced && t.gct.loss && t.irq.latch.contains 0x42) = true) := by
  decide +kernel

/-! ### Collectives -/

/-- A slice of two modules in X whose members form communicator 3 of job 7, at coordinate 0. -/
def sComm (s : State) : State :=
  let s := withComm s
  { s with tl := { s.tl with size := 1 }
           coll := { s.coll with comm := [(3, { valid := true, job := 7, epoch := 1, doneBase := 5, roles := 1 })] } }
/-- A packet of the communicator from coordinate 1 with MSG `m`. -/
def collPkt (m : Nat) : Packet :=
  { cls := 1, tunit := 3, job := 7, src := 1, data := [1, 0, 0, 0, 2, 0, 0, 0], len := 8
    opnd0 := BitVec.ofNat 64 (2 ^ 32 + 5 * 2 ^ 16 + 3 + 2 ^ 40 * m + if m = 3 then 2 ^ 44 * 2 + 2 ^ 56 * 8 else 0) }
/-- The module with that packet at the front and the given contexts. -/
def sColl (m : Nat) (l : List Ctx) : State :=
  let s := sComm {}
  { s with tl := { s.tl with collIn := [{ link := 1, pkt := collPkt m }] }, coll := { s.coll with ctx := l } }
/-- The command that receives MSG `m`. -/
def collCmd (m : Nat) : Instr :=
  [Instr.collReadyReceive, .collArriveReceive, .collPartReceive, .collDataReceive, .collReleaseReceive,
    .collNormReceive].getD m .collReadyReceive
/-- A block of a reduce-scatter of four FP32 elements. -/
def blk4 : CollBlk := { itype := 8, otype := 8, count := 4, chunk := 4096 }

theorem witness_CollectiveMessages_alloc :
    (∀ m < 6, collMsg (collPkt m) = m ∧ packetTuple (collPkt m) = key3
        ∧ firstFree (sColl m []) [] (sColl m []).tl.collIn = some ({ link := 1, pkt := collPkt m }, [])
        ∧ collStale (sColl m []) key3 = false ∧ (sColl m []).ctxAt key3 = none ∧ (collPkt m).src ≠ (sColl m []).tl.coord
        ∧ (after (collCmd m) (sColl m []) fun t => t.tl.collIn == [] && t.coll.peak == 1
            && t.coll.ctx == [if m = 0 then { key := key3, ready := [1] } else { key := key3, early := [collPkt m] }]) = true)
    ∧ (∀ m < 6, m ≠ 0 → ctxKnown { key := key3 } = false ∧ (after (collCmd m) (sColl m [{ key := key3 }]) fun t =>
        t.coll.ctx == [{ key := key3, early := [collPkt m] }]) = true)
    ∧ (after (collCmd 0) (sColl 0 [{ key := key3 }]) fun t => t.coll.ctx == [{ key := key3, ready := [1] }]) = true
    ∧ (let s := { sColl 4 [] with tl := { (sColl 4 []).tl with coord := 1 } }
       (collPkt 4).src = s.tl.coord ∧ (after (collCmd 4) s fun t => t.tl.collIn == [] && t.coll.ctx == []) = true) := by
  decide +kernel

theorem witness_CollectiveMessages_stale :
    (let s := sColl 1 []
     let s := { s with coll := { s.coll with comm := [] } }
     collStale s key3 = true ∧ firstFree s [] s.tl.collIn = some ({ link := 1, pkt := collPkt 1 }, [])
       ∧ (after (collCmd 1) s fun t => t.coll.staleDrop == 1 && t.coll.ctx == []) = true)
    ∧ (let s := sColl 1 (List.replicate 256 { key := ⟨3, 6, 1⟩ })
       firstFree s [] s.tl.collIn = none ∧ (after (collCmd 1) s fun t => t.coll.exhaust && t.tl.collIn.length == 1) = true) := by
  decide +kernel

theorem witness_CollectiveMessages_taken :
    (∀ m ∈ [1, 2, 5], let x : Ctx := { key := key3, op := some 0 }
      let s := sColl m [x]
      ctxKnown x = true ∧ x.nodes = [] ∧ shardWhole s x = false
        ∧ (after (collCmd m) s fun t => t.coll.ctx.map (·.nodes) ==
            [[{ tag := if m = 5 then 1 else 0, got := [(0, 1, packetVals (collPkt m))] }]]) = true)
    ∧ (let x : Ctx := { key := key3, op := some 0 }
       ctxKnown x = true ∧ (after (collCmd 4) (sColl 4 [x]) fun t =>
         t.coll.ctx.map (·.result) == [some [(1, false), (2, false)]]) = true)
    ∧ (let x : Ctx := { key := key3, op := some 2, blk := some blk4 }
       let s := sColl 3 [x]
       let n := (recMembers s (recOf s key3)).length
       n = 2 ∧ ctxKnown x = true ∧ x.incoming = [] ∧ shardWhole s x = false ∧ (collPkt 3).opnd0.getLsbD 47 = false
         ∧ 4 * shardLen blk4 n = 8 ∧ 0 + (collPkt 3).data.length ≤ 8 * n ∧ senderDiffers x (collPkt 3) = false
         ∧ (after (collCmd 3) s fun t => t.coll.ctx.map (·.incoming) == [[⟨1, 0, 0, 0, packetBytes (collPkt 3)⟩]]) = true) := by
  decide +kernel

theorem witness_CollectiveProgress_reads :
    (let x : Ctx := { key := key3, op := some 1, starts := [{ clu := 0, addr := bufAt 0 }] }
     let s := sColl 0 [x]
     s.ctxAt key3 = some x ∧ (after (.collBlockRead key3) s fun t =>
       t.coll.ctx.all fun y => y.op == some 1 && y.starts.all (·.blk.isSome)) = true)
    ∧ (let st : Started := { clu := 0, addr := bufAt 0 }
       let x : Ctx := { key := key3, op := some 2, starts := [st] }
       let s := sColl 0 [x]
       let r := recOf s key3
       x.starts.find? (fun st => some st.clu == leadCluster s r && st.blk.isNone) = some st ∧ x.early = [] ∧ x.ready = []
         ∧ blkPress 2 (parseBlock 2 2 ((bulkRead s (collSrc (clDie st.clu)) (recWin s r) st.addr.toNat 64).2.map (·.1))) = false
         ∧ (after (.collBlockRead key3) s fun t => t.coll.ctx.all fun y => y.op == some 2 && y.blk.isSome) = true)
    ∧ (∀ op ∈ [1, 2], let st : Started := { clu := 0, addr := bufAt 0 }
       let x : Ctx := { key := key3, op := some (BitVec.ofNat 3 op), starts := [st] }
       let s := sColl 0 [x]
       let s := { s with mem := { s.mem with buf := [(3, 4)] } }
       let read := readStart s (recOf s key3) op 2 st
       blkFlagPress (read.2.blk.getD {}) = true ∧ pressRefused read.1 7 3 = true
         ∧ (after (.collBlockRead key3) s fun t => (t.clu 0).halted && t.irq.latch.contains 0x30) = true) := by
  decide +kernel

/-- R320: a packet that waits for a context holds those behind it on its virtual channel alone. -/
theorem test_waits_per_channel :
    let full := sColl 1 (List.replicate 256 { key := ⟨3, 6, 1⟩ })
    let e : InPacket := { link := 1, pkt := collPkt 1 }
    let known : Packet := { collPkt 0 with opnd0 := BitVec.ofNat 64 (2 ^ 32 + 6 * 2 ^ 16 + 3) }
    let s := fun (l : Nat) => { full with tl := { full.tl with collIn := [e, { link := l, pkt := known }] } }
    firstFree (s 1) [] (s 1).tl.collIn = none ∧ firstFree (s 3) [] (s 3).tl.collIn = some ({ link := 3, pkt := known }, [e]) := by
  decide +kernel

theorem witness_CollectiveProgress_ends :
    (let x : Ctx := { key := key3, op := some 0, starts := [{ clu := 0 }, { clu := 1 }], result := some [] }
     let s := sColl 0 [x]
     s.ctxAt key3 = some x ∧ collReady s x = true
       ∧ (after (.collComplete key3) s fun t => t.coll.ctx.map (·.done) == [true]
           && (t.commAt 3).doneBase == 6) = true)
    ∧ (let x : Ctx := { key := key3, op := some 0, done := true }
       let s := sColl 0 [x]
       x.done = true ∧ owesPackets s (tupleKey 3 (tupleNat key3)) = false
         ∧ (after (.collContextFree key3) s fun t => t.coll.ctx == []) = true)
    ∧ (let nd : Node := { tag := 2, acc := some [] }
       let b := { blk4 with flags := 1 }
       let x : Ctx := { key := key3, op := some 2, blk := some b, nodes := [nd] }
       let s := sColl 0 [x]
       let r := recOf s key3
       blkPress 2 b = false ∧ blkStrag s r b = true
         ∧ x.nodes.find? (fun nd => nd.tag == 2 && nd.chunk == 0 && nd.acc.isSome && !nd.sent) = some nd
         ∧ nd.level < nodeLevels (logicalCoord s) ((recMembers s r).getD nd.shard 9) (recLevels s r)
         ∧ (kids s (logicalCoord s) ((recLevels s r).getD nd.level [])).length = 1
         ∧ (after (.collHoldExpire key3 0) s fun t => t.coll.ctx.map (fun y => (y.late, y.missing)) == [(true, 1)]
             && Tbl.get 0 t.gct.nondet 1 == 1) = true)
    ∧ (let s := sColl 1 (List.replicate 256 { key := ⟨3, 6, 1⟩ })
       (markWait s s.tl.collIn).isSome = true
         ∧ (after .collContextWaitTimeout s fun t => t.tl.collIn.map (·.raised) == [true] && t.irq.latch.contains 0x31) = true)
    ∧ (after (.collCtxPeakRst .mp0 0xC0000) { coll := { peak := 9, exhaust := true } } fun t =>
        t.coll.peak == 0 && !t.coll.exhaust) = true := by decide +kernel

/-! ### Press and mangle -/

/-- The press job is the job of window 0; its table for communicator 3 stands in cluster 0's collective buffer. -/
def sPress (p : PStep) : State :=
  let s := withJob State.reset
  { s with press := { job := 7, tables := [(3, bufAt 0)], steps := [p] } }
/-- Every sector of a span translates. -/
def mapped (s : State) (src win a n : Nat) (write : Bool) : Bool :=
  (List.range n).all fun i => found (xlateBy s src win ((a + i) / 32 * 32 : Nat) write)

theorem witness_PressSteps_apply :
    (let p : PStep := { no := 4, comm := 3, global := some (0x3F800000, true, false) }
     let s := { sPress p with press := { (sPress p).press with held := some (3, 1) } }
     s.press.steps = [p] ∧ p.applied = false ∧ s.press.held.isSome = true
       ∧ (after .pressStepApply s fun t => t == s && pressWaits s.press) = true)
    ∧ (let p : PStep := { no := 4, comm := 3, global := some (0x3F800000, true, false) }
       (sPress p).press.held = none ∧ (after .pressStepApply (sPress p) fun t => t.press.steps.all (·.applied)) = true)
    ∧ (let g : HeldSeg := { key := key3, otype := 8, elems := 0, vals := some [], stain := true }
       let p : PStep := { no := 4, comm := 3, global := some (0x3F800000, true, false), segs := [g] }
       p.segs.any (·.stain) = true
         ∧ (after .pressStepApply (sPress p) fun t => t.irq.latch.contains 0x39 && t.press.steps.all (!·.applied)) = true)
    ∧ (let g : HeldSeg := { key := key3, otype := 8, elems := 0, vals := some [], stain := true }
       let p : PStep := { no := 4, comm := 3, global := some (0x3F800000, false, false), segs := [g] }
       (computeStep (sPress p) p 0x3F800000).2.any (·.stain) = true
         ∧ (after .pressStepApply (sPress p) fun t => t.irq.latch.contains 0x39 && t.press.steps.all (!·.applied)) = true)
    ∧ (let p : PStep := { no := 4, comm := 3, global := some (0x3F800000, false, false) }
       (computeStep (sPress p) p 0x3F800000).2.any (·.stain) = false ∧ (sPress p).guard.armed = []
         ∧ (after .pressStepApply (sPress p) fun t => t.press.steps.all (·.applied)) = true) := by decide +kernel

theorem witness_PressSteps_complete :
    (let p : PStep := { no := 4, comm := 3, global := some (0x3F800000, true, false), applied := true }
     let s := sPress p
     mapped s (pressSrc 0) (pressWin s) ((tableOf s p.comm).getD 0) 24 true = true
       ∧ (after .pressStepComplete s fun t => t.press.steps == [] && t.press.skipped && t.press.skipCount == 1
           && t.press.step == 1 && t.irq.latch.contains 162) = true)
    ∧ (let g : HeldSeg := { key := key3, elems := 0, vals := some [] }
       let p : PStep := { no := 4, comm := 3, global := some (0x3F800000, false, true), applied := true, segs := [g] }
       let s := sPress p
       mapped s (pressSrc 0) (pressWin s) ((tableOf s p.comm).getD 0) 48 true = true
         ∧ mapped s (pressSrc 0) (pressWin s) ((tableOf s g.key.comm).getD 0 + 128 + 128 * g.seg + 40) 8 true = true
         ∧ (after .pressStepComplete s fun t => t.press.held == some (3, 1) && t.press.step == 1) = true) := by
  decide +kernel

/-- A plan over the two members of communicator 3, under CARRY (so that a pass has two steps), with its blocks in cluster
0's collective buffer. -/
def sMgl (m : Mgl) : State :=
  let s := sComm State.reset
  { s with mgl := { m with running := true, job := 7, comm := 3, carry := true, partB := 32, own := bufAt 0
                           slot0 := bufAt 4096, slot1 := bufAt 8192, passes := 1 } }

theorem witness_ManglePlans_send :
    (let s := sMgl {}
     mglM s = 2 ∧ s.mgl.started = false ∧ relMet s 0 = true
       ∧ (after .manglePassStart s fun t => t.mgl.started && t.mgl.grantsOut == [1, 2]) = true)
    ∧ (let s := sMgl { started := true, sentStep := 2, received := [2] }
       let s := { s with mgl := { s.mgl with passes := 2 } }
       passOver s = true ∧ s.mgl.pass + 1 < s.mgl.passes ∧ relMet s (1 * mglM s) = true)
    ∧ (let s := (sMgl { started := true, grantsIn := [1] }).updClu 0 fun k => { k with ctr := [(0, 1)] }
       s.mgl.sentStep = 0 ∧ 1 ≤ mglM s ∧ goMet s = true ∧ grantIn s (mglQ s 1) = true
         ∧ (after .mangleSendOwn s fun t => t.mgl.sentStep == 1 && t.mgl.grantsIn == []) = true)
    ∧ (let s := sMgl { started := true, sentStep := 1, received := [1], grantsIn := [2] }
       1 ≤ s.mgl.sentStep ∧ s.mgl.sentStep < mglM s ∧ mglQ s s.mgl.sentStep ∈ s.mgl.received
         ∧ grantIn s (mglQ s s.mgl.sentStep + 1) = true ∧ relMet s (mglQ s s.mgl.sentStep) = true
         ∧ (after .mangleForward s fun t => t.mgl.sentStep == 2 && t.mgl.grantsIn == []) = true) := by decide +kernel

/-- A ring of three members. -/
def sMgl3 (m : Mgl) : State := { sMgl m with tl := { size := 2 } }

/-- A mangle packet for step 1 of a MSG: part `d`, last or not, at byte 0. -/
def mglPkt (msg d : Nat) (last : Bool) (epoch : Nat) : Packet :=
  { cls := 0, tunit := 1, job := 7, data := [5, 6, 7, 8], len := 4
    opnd0 := BitVec.ofNat 64 (3 + 2 ^ 16 + 2 ^ 32 * epoch + 2 ^ 40 * msg + 2 ^ 44 * d + 2 ^ 47 * b2n last)
    opnd1 := if last then BitVec.ofNat 64 (2 ^ 32 * (crc32c [5, 6, 7, 8]).toNat) else 0 }
/-- The plan with that packet at the front. -/
def mglWith (m : Mgl) (p : Packet) : State := { sMgl m with tl := { size := 1, mglIn := [p] } }

theorem witness_ManglePlans_receive :
    (let s := sMgl3 { started := true, sentStep := 2, received := [1] }
     0 + 3 ≤ mglM s ∧ slotFree s 1 = true ∧ mglQ s 3 ∉ s.mgl.grantsOut
       ∧ (after .mangleGrantSend s fun t => t.mgl.grantsOut == [3]) = true)
    ∧ (∀ n < 2, let p := mglPkt n 0 false 9
       let c := if n = 0 then Instr.mangleDataReceive else .mangleGrantReceive
       let s := mglWith {} p
       mglMsg p = n ∧ mglStale s p = true ∧ (after c s fun t => t.coll.staleDrop == 1 && t.tl.mglIn == []) = true)
    ∧ (let p := mglPkt 1 0 false 1
       let s := mglWith {} p
       mglMsg p = 1 ∧ mglStale s p = false ∧ (after .mangleGrantReceive s fun t => t.mgl.grantsIn == [1]) = true)
    ∧ (let p := mglPkt 0 7 false 1
       let s := mglWith {} p
       mglStale s p = false ∧ fullIndex s 1 = 1 ∧ mapped s (mglSrc 7) (mglWin s) (mglTarget s 1 1 + 7 * s.mgl.partB) 4 true = true
         ∧ (after .mangleDataReceive s fun t => t.mgl.open_ == [(1, 7, [5, 6, 7, 8])]) = true)
    ∧ (let p := mglPkt 0 7 true 1
       let s := mglWith { parts := (List.range 7).map fun i => (1, i) } p
       p.opnd0.getLsbD 47 = true ∧ takeInject s evCollCrc (mglSrc 7) (mglWin s) = none
         ∧ (crc32c [5, 6, 7, 8]).toNat = p.opnd1.toNat / 2 ^ 32 ∧ (∀ i < 8, i ≠ 7 → (1, i) ∈ s.mgl.parts)
         ∧ (after .mangleDataReceive s fun t => t.mgl.received == [1] && Tbl.get 0 (t.clu 0).ctr 0 == 1) = true)
    ∧ (let s := sMgl { started := true, sentStep := 2, received := [2] }
       passOver s = true ∧ s.mgl.passes ≤ s.mgl.pass + 1
         ∧ (after .manglePlanEnd s fun t => !t.mgl.running && t.mgl.state == 5) = true) := by decide +kernel

/-! ### Ledgers, mending, guild -/

/-- A report. -/
def aRep : Report := { cls := 0x22, src := 5 }

theorem witness_LedgersTakeForwardAndClear_take :
    (let s : State := { ldg := { queues := [{ det := 1, reps := [aRep] }] } }
     serveQueue s.ldg.queues = some (aRep, []) ∧ s.ldg.entries.length < 4096
       ∧ (after (.ledgerTakeReport .device) s fun t => t.ldg.entries == [⟨aRep, 0⟩] && t.ldg.first == some ⟨aRep, 0⟩
           && t.ldg.nextSeq == 1) = true)
    ∧ (let s : State := { regLdg := [(21 * 7 + 20, { queues := [{ det := 1, reps := [aRep] }] })] }
       let l := Tbl.get {} s.regLdg (21 * 7 + 20)
       serveQueue l.queues = some (aRep, []) ∧ l.summary = [] ∧ l.entries.length < 256
         ∧ (after (.ledgerTakeReport (.region 7 20)) s fun t => (Tbl.get {} t.regLdg 167).entries == [aRep]) = true)
    ∧ (let s : State := { regLdg := [(21 * 7 + 2, { entries := [aRep], lost := 5 })], fwdNext := [(7, 20)] }
       2 = (Tbl.get 0 s.fwdNext 7 + 3) % 21
         ∧ (∀ j < 3, (Tbl.get {} s.regLdg (21 * 7 + (Tbl.get 0 s.fwdNext 7 + j) % 21)).entries = [])
         ∧ (after (.regionLedgerForward 7) s fun t => Tbl.get 0 t.fwdNext 7 == 3 && t.ldg.lost == 5
             && t.ldg.queues.any fun q => q.det == fwdDet && q.reps == [aRep]) = true) := by decide +kernel

/-- A full device ledger with one report to take. -/
def sFull : State := { ldg := { queues := [{ det := 1, reps := [aRep] }], entries := List.replicate 4096 {} } }

theorem witness_LedgersTakeForwardAndClear_full :
    serveQueue sFull.ldg.queues = some (aRep, []) ∧ 4096 ≤ sFull.ldg.entries.length :=
  ⟨rfl, Nat.le_of_eq (List.length_replicate ..).symm⟩

theorem test_ledger_registers :
    mgmt .fn1 = true
    ∧ (after (.ldgHeadWrite .fn1 1) { ldg := { entries := [{}, ⟨aRep, 1⟩], summary := [(0, { src := 9, count := 3 })] } } fun t =>
        t.ldg.entries.map (·.rep.src) == [5, 9] && t.ldg.summary == []) = true
    ∧ (after (.ldgClrFirst .fn1 1) { ldg := { first := some {}, lost := 4 } } fun t => t.ldg.first == none && t.ldg.lost == 4)
      = true
    ∧ (after (.ldgClrLost .fn1 2) { ldg := { first := some {}, lost := 4 } } fun t => t.ldg.first == some {} && t.ldg.lost == 0)
      = true
    ∧ (after (.patternBookComplete []) { guard := { bookRunning := true, book := some (1, 1, []) } } fun t =>
        !t.guard.bookRunning && t.guard.book == none) = true := by decide +kernel

/-- A module that mends, with its parity in cluster 0's collective buffer. -/
def sMend (g : Guard) : State :=
  { sPress {} with guard := { g with mendEn := true, par0 := bufAt 0, par1 := bufAt 65536 } }
/-- A parity packet. -/
def parPkt (opnd0 : DWord) : Packet := { tunit := 2, opnd0 := opnd0, data := [1] }

theorem witness_MendingRecoveryAndApprentices_mend :
    (let s : State := { tl := { parIn := [parPkt 1] } }
     s.guard.mendEn = false ∧ (after .mendPacketReceive s fun t => t.tl.parIn == []) = true)
    ∧ (let s := { sMend { roundOpen := true, round := 3, ends := (List.range 14).map fun i => (3, i) } with tl := { parIn := [parPkt 0x3F1] } }
       (0x3F1 : DWord).toNat % 16 = 1 ∧ (after .mendPacketReceive s fun t => t.guard.ends.contains (3, 15)
         && t.coll.sys == some (.mend 3)) = true)
    ∧ mapped (sMend {}) mendSrc (pressWin (sMend {})) (parityAt (sMend {}).guard true 3) 4096 true = true
    ∧ (let s := { sMend { roundOpen := true, round := 6, ends := (6, 1) :: [(7, 2)], roundStep := 6 } with coll := { sys := some (.mend 6) } }
       s.guard.roundDue = none ∧ s.guard.mendQueue = [] ∧ s.guard.parHeld = []
         ∧ (after .mendBarrierComplete s fun t => !t.guard.roundOpen && t.guard.parCur && t.guard.mended == 6 && t.guard.ends == [(7, 2)]
             && t.irq.latch.contains 180) = true)
    ∧ (let s : State := { guard := { recRunning := true, recAt := 1, recStep := 2 } }
       s.guard.recAt + 1 ≤ s.guard.recStep.toNat
         ∧ (after (.recStepComplete []) s fun t => t.guard.recAt == 2 && t.guard.recRunning) = true)
    ∧ (let s : State := { guard := { recRunning := true, recAt := 7, recStep := 7 } }
       (recoveryStep s 8 []).2 = true
         ∧ (after (.recStepComplete []) s fun t => t.guard.recStep == 8 && !t.guard.recRunning) = true)
    ∧ (let s : State := { guard := { recRunning := true } }
       (recoveryStep s 1 [(0, []), (1, []), (2, [])]).2 = false
         ∧ (after (.recStepComplete [(0, []), (1, []), (2, [])]) s fun t => t.guard.recFailed && t.irq.latch.contains 0x49)
           = true) := by decide +kernel

/-- A module with an apprentice in a state. -/
def sApr (a : BitVec 3) (tutor : Bool) : State := { guard := { aState := a, aTutor := tutor } }

theorem witness_MendingRecoveryAndApprentices_apprentice :
    (let d : List Byte := [1, 2, 3]
     crc32c d ≠ 0 ∧ (after (.aprUnitReceive 1 d 0 true) (sApr 1 false) fun t => t == sApr 1 false) = true
       ∧ (after (.aprUnitReceive 1 d (crc32c d) true) (sApr 1 false) fun t => t.guard.aState == 2
           && t.guard.aCopy == [(4096, 1), (4097, 2), (4098, 3)]) = true)
    ∧ (after (.aprDeltaReceive [(9, 3)] true) (sApr 2 false) fun t => t.guard.aState == 3 && t.guard.aCopy == [(9, 3)]) = true
    ∧ (let s : State := { guard := { aState := 3, aSteps := 1 } }
       (after (.aprShadowStep true) s fun t => t.guard.aState == 4 && t.guard.aDone == 1) = true
         ∧ (after (.aprShadowStep false) s fun t => t.guard.aState == 5 && t.irq.latch.contains 0x47) = true)
    ∧ (∀ a ∈ [1, 2, 3], (after .aprTutorTimeout (sApr a false) fun t => t.guard.aState == 6) = true) := by decide +kernel

/-- A guild packet of slice 0: MSG, round, origin, suspect and data (Table 13.18). -/
def gPkt (msg origin suspect : Nat) (data : List Byte) : Packet :=
  { cls := 2, tunit := 4, opnd0 := BitVec.ofNat 64 (msg + 2 ^ 12 * origin), opnd1 := BitVec.ofNat 64 suspect, data := data }
/-- A member of a slice of two, at coordinate 0, running a job. -/
def sGuild (g : Guard) (l : List Packet) : State :=
  { sComm State.reset with guard := g, tl := { size := 1, guildIn := l } }

theorem witness_GuildProtocol_receive :
    (∀ n < 3, let p := gPkt n 1 1 []
      let s := sGuild { gSeen := [(0, 1, n, 0)] } [p]
      s.guard.gSeen.contains (gRoundOf p, gOrigin p, gMsg p, gPart p) = true ∧ gMsg p = n)
    ∧ (let p := gPkt 0 1 1 []
       let s := sGuild {} [p]
       s.guard.gSeen.contains (0, 1, 0, 0) = false ∧ p.opnd0.toNat / 2 ^ 32 % 256 = s.slc.slice.toNat ∧ s.slc.member = true
         ∧ s.guard.gStopped = false
         ∧ (after .guildFaultReceive s fun t => t.guard.gFaults == [1] && t.guard.gStopped && (t.jobAt 0).stopping
             && t.guard.gState == 1) = true)
    ∧ (let p := gPkt 1 0 0 ([1, 0, 0, 0, 1, 0] ++ zeros 10)
       let s := { sGuild { gState := 1 } [p] with tl := { size := 1, coord := 1, guildIn := [p] } }
       guildChoice s = some 0 ∧ coordLe s (gOrigin p) 0 = true ∧ gPart p = 0 ∧ fieldAt p.data 0 2 = 1
         ∧ s.guard.gFrom = none
         ∧ (after .guildVerdictReceive s fun t => t.guard.gState == 2 && t.guard.gCoord == 0 && t.guard.gList == [1]) = true)
    ∧ (let p := gPkt 2 1 0 []
       let s := sGuild { gState := 2 } [p]
       s.guard.gCoord = s.tl.coord ∧ gRoundOf p = s.guard.gRound.toNat ∧ 2 ≤ s.guard.gState.toNat
         ∧ (after .guildVackReceive s fun t => t.guard.gVacks == [1]) = true) := by decide +kernel

theorem witness_GuildProtocol_time :
    (let s := sGuild { gState := 1, gFaults := [1] } []
     s.slc.member = true ∧ guildChoice s = some (myCoord s)
       ∧ (after .guildGatherExpire s fun t => t.guard.gState == 2 && t.guard.gList == [1] && t.guard.gVacks == [0]) = true)
    ∧ (let s := sGuild { gState := 2, gVacks := [0], gList := [1] } []
       (after .guildVackTimeout s fun t => t == s) = true)
    ∧ (let s := sGuild { gState := 2, gVacks := [0] } []
       ((members s).map (BitVec.ofNat 12)).filter (fun c => !s.guard.gVacks.contains c && !s.guard.gList.contains c) = [1]
         ∧ (after .guildVackTimeout s fun t => t.guard.gRound == 1 && t.guard.gList == [1]) = true)
    ∧ (after .guildReport (sGuild { gState := 2 } []) fun t => t.guard.gState == 3 && t.irq.latch.contains 4) = true
    ∧ (after .guildPartialTimeout (sGuild { gState := 1 } []) fun t => t.guard.gState == 3 && t.guard.gPartial) = true
    ∧ (after (.moduleWideFailure (some 3)) (sGuild {} []) fun t => t.guard.gStopped && (t.jobAt 0).stopping
        && t.guard.gFaults == [0]) = true := by decide +kernel

/-! ### Rings and dockets -/

/-- Bytes of fields of the given widths in bytes, one after the other. -/
def lay (l : List (Nat × Nat)) : List Byte := l.flatMap fun (w, v) => leBytes w v
/-- A docket of an opcode with LEN, SEQ 1, GEN 0, JOB 7, a payload and no checksum (Table 14.5). -/
def dk (op len : Nat) (payload : List (Nat × Nat)) : Docket :=
  let b := lay ([(2, op), (1, 1), (1, 0), (4, len), (4, 1), (2, 0), (2, 7), (8, 0x77), (8, 0)] ++ payload)
  { bytes := b ++ zeros (len - b.length), seq := 1 }
/-- Ring 3 of function 0 stands at `g`; the job of window 0 runs and the link is up. -/
def sRing (g : RingSt) : State :=
  let s := withJob State.reset
  { s with boot := { s.boot with state := 1 }, hif := { s.hif with ring := [(3, g)], rate := 5, width := 16 } }
/-- An open ring of job 7. -/
def gOpen : RingSt := { state := 1, job := 7 }
/-- The docket runs in ring 3, and has not been performed. -/
def sRun (d : Docket) : State := sRing { gOpen with running := some d }
/-- STATUS and DETAIL of the finished docket of ring 3. -/
def ended (t : State) (status detail : Nat) : Bool :=
  (t.ring 3).result == some (BitVec.ofNat 8 status, BitVec.ofNat 64 detail)
/-- The docket of ring 3 goes on. -/
def began (t : State) : Bool := (t.ring 3).began && (t.ring 3).result.isNone

/-- A ring control block of 64 slots and 64 replies for job 7 (Table 14.3). -/
def rcb7 (rsvd : Nat) : List Byte := lay [(8, 0), (8, 0), (4, 64), (4, 64), (2, 7), (2, 0), (4, 0), (2, 256 * rsvd)] ++ zeros 30
/-- A request of function 0 waits. -/
def sOpen : State :=
  let s := sRing {}
  { s with hif := { s.hif with opens := [(.f0, 64)], ring := [(0, gOpen)] } }

theorem witness_RingLifecycle_open :
    (let s := sRing {}
     s.boot.state = 1 ∧ s.hif.opens.length < 16 ∧ State.reset.boot.state ≠ 1
       ∧ (after (.ringOpenRequest .fn0 2) s fun t => t.hif.opens == [(Fn.f0, (BitVec.ofNat 64 (2 * 2 ^ 32)))]) = true)
    ∧ (let s := { sRing {} with hif := { (sRing {}).hif with opens := List.replicate 16 (.f1, 0) } }
       16 ≤ s.hif.opens.length ∧ (after (.ringOpenRequest .fn0 2) s fun t => t.hif.openDrop) = true)
    ∧ sOpen.hif.opens = [(.f0, 64)] ∧ pcieUp sOpen = true ∧ openStatus sOpen .f0 (rcb7 1) = stReserved
    ∧ openStatus sOpen .f0 (rcb7 0) = stOk ∧ Tbl.rising sOpen.hif.ring = true
    ∧ (after (.ringOpenComplete (rcb7 0) true) sOpen fun t => (t.ring 1).state == 1 && (t.ring 1).gen == 1
        && (t.ring 1).slots == 64 && (t.ring 1).job == 7 && t.out == [.ringResult .f0 64 stOk 1 1]) = true
    ∧ (after (.ringOpenComplete (rcb7 0) false) sOpen fun t => t.out == [.ringResult .f0 64 stFault 0 0]) = true := by
  decide +kernel

theorem witness_RingLifecycle_close :
    (let s := sRing { gOpen with gen := 2 }
     agFn .fn0 = some .f0 ∧ (s.ring 3).owner = .f0 ∧ (s.ring 3).state ≠ 0
       ∧ (s.ring 3).gen = (BitVec.ofNat 32 (2 * 2 ^ 13 + 3)).extractLsb' 13 16
       ∧ (s.ring 3).gen ≠ (BitVec.ofNat 32 (3 * 2 ^ 13 + 3)).extractLsb' 13 16
       ∧ (after (.ringClose .fn0 (BitVec.ofNat 32 (2 * 2 ^ 13 + 3))) s fun t => (t.ring 3).state == 5) = true)
    ∧ (let g : RingSt := { gOpen with state := 5 }
       g.queue = [] ∧ g.running = none ∧ g.held = []
         ∧ (after (.ringCloseComplete 3) (sRing g) fun t => (t.ring 3).state == 0) = true) := by decide +kernel

/-- A doorbell of generation 2 with TAIL 5 and a reply head of 1, and RESUME (Table 14.4). -/
def bell (resume : Nat) : DWord := BitVec.ofNat 64 (5 + 2 ^ 16 + 2 * 2 ^ 32 + resume * 2 ^ 48)
/-- A ring of which the link fell, with a reply held. -/
def gDown : RingSt := { gOpen with state := 4, gen := 2, companion := 66, held := [{ seq := 9 }] }

theorem witness_RingLifecycle_doorbells :
    (let g : RingSt := { gOpen with gen := 2 }
     doorbellOk .f0 g (bell 0) = true ∧ (bell 0).getLsbD 48 = false
       ∧ (after (.doorbellTail .f0 3 (bell 0)) (sRing g) fun t => (t.ring 3).tail == 5 && (t.ring 3).rhead == 1) = true)
    ∧ doorbellOk .f1 { gOpen with gen := 2 } (bell 0) = false
    ∧ (doorbellOk .f0 gDown (bell 1) = true ∧ (bell 1).getLsbD 48 = true ∧ gDown.state ≠ 5
       ∧ (after (.doorbellResume .f0 3 (bell 1)) (sRing gDown) fun t => (t.ring 3).state == 1 && (t.ring 3).head == 2
           && (t.ring 3).held == [] && t.out.any fun | .reply 3 0 p => p.seq == 9 | _ => false) = true)
    ∧ (gDown.owner = .f0 ∧ gDown.state ≠ 0
       ∧ (after (.doorbellCompanionWrite .f0 3 7) (sRing gDown) fun t => (t.ring 3).companion == 7) = true) := by
  decide +kernel

/-- The bytes of a docket with its CRC at byte 28. -/
def summed (b : List Byte) : List Byte := paste b 28 (leBytes 4 (crc32c (paste b 28 (zeros 4))).toNat)
/-- A ring with two slots pending. -/
def gTail : RingSt := { gOpen with tail := 2 }

theorem witness_RingLifecycle_fetch :
    let s := sRing gTail
    let good := summed (dk 0 64 []).bytes
    gTail.state = 1 ∧ pcieUp s = true ∧ pendingSlots gTail = 2 ∧ 64 ≤ good.length
      ∧ lenBad gTail 96 = true ∧ lenBad gTail 64 = false ∧ fieldAt good 4 4 = 64 ∧ aheadBytes gTail + 64 ≤ 65536
      ∧ fieldAt (dk 0 96 []).bytes 4 4 = 96
      ∧ fetchStatus gTail good = stOk ∧ fetchStatus gTail (paste good 40 [1]) = stBadSum
      ∧ fetchStatus gTail (summed (paste good 8 [5])) = stBadSeq ∧ fetchStatus gTail (summed (paste good 12 [5])) = stBadGen
      ∧ (after (.docketFetch 3 good) s fun t => (t.ring 3).acc == 1 && (t.ring 3).head == 1
          && (t.ring 3).queue.length == 1) = true
      ∧ (after (.docketFetch 3 (paste good 40 [1])) s fun t => (t.ring 3).state == 3
          && (t.ring 3).reason.toNat == stBadSum) = true := by decide +kernel

theorem witness_DocketsStartAndComplete :
    (let s := sRing { gOpen with queue := [dk 0 64 []] }
     startChoice s = some (3, s.ring 3, dk 0 64 [])
       ∧ (after .docketStart s fun t => (t.ring 3).running == some (dk 0 64 []) && (t.ring 3).queue == []
           && (t.ring 3).result == none && t.hif.lastRing == some 3) = true)
    ∧ (let s := sRing { gOpen with queue := [dk 0x80 64 []] }
       startChoice s = some (3, s.ring 3, dk 0x80 64 [])
         ∧ (after .docketStart s fun t => ended t stPriv 0) = true)
    ∧ (let s := sRing { gOpen with running := some (dk 0 64 []), result := some (1, 2) }
       (s.ring 3).flr = false ∧ pcieUp s = true ∧ (s.ring 3).state ≠ 4
         ∧ (after (.docketComplete 3) s fun t => (t.ring 3).running == none && (t.ring 3).done == 1
             && t.out.any fun | .reply 3 0 p => p.seq == 1 && p.status == 1 && p.detail == 2 && p.tag == 0x77
                              | _ => false) = true)
    ∧ (sRing gOpen).ring 3 = gOpen ∧ gOpen.running = none
    ∧ (let g : RingSt := { gOpen with queue := [dk 0 64 []], waits := 100 }
       (readyDocket g).isSome = true ∧ (sRing g).pwr.starve.toNat ≤ g.waits ∧ g.starving = false
         ∧ (after (.docketStarving 3) (sRing g) fun t => (t.ring 3).starving && (t.ring 3).waits == 0) = true)
    ∧ (let g : RingSt := { gOpen with queue := [dk 0 64 []], waits := 100, starving := true }
       (readyDocket g).isSome = true ∧ (sRing g).pwr.starve.toNat ≤ g.waits ∧ g.starving = true
         ∧ (after (.docketStarveForce 3) (sRing g) fun t => (t.ring 3).forced) = true) := by decide +kernel

theorem witness_DocketsStartAndComplete_job :
    (let s := sRing gOpen
     let s := s.updJob 0 fun j => { j with clOver := [0, 1], endblk := 128 }
     (s.jobAt 0).running = true ∧ (∀ q ∈ (s.jobAt 0).clusters, q ∈ (s.jobAt 0).clOver) ∧ pcieUp s = true
       ∧ (after (.jobEnd 0) s fun t => !(t.jobAt 0).running && t.irq.latch.contains 144
           && t.out.any fun | .endStatus a b => a == 128 && b.length == 64 && fieldAt b 0 2 == 7 && fieldAt b 2 1 == 1
                            | _ => false) = true)
    ∧ (let s := sRing gOpen
       (s.jobAt 0).running = true ∧ ∃ q ∈ (s.jobAt 0).clusters, q ∉ (s.jobAt 0).clOver) := by decide +kernel

/-! ### What dockets do -/

/-- The state in which the docket runs and the job of window 0 has ended. -/
def sIdle (d : Docket) : State := (sRun d).updJob 0 fun j => { j with running := false }
/-- A docket of a JOB to which no window is bound. -/
def strange (d : Docket) : Docket := { d with bytes := paste d.bytes 14 [9] }
/-- A `WRITE` or `READ` of 64 bytes between host address 4096 and device address `a`. -/
def dMove (op : Nat) (a : DWord) : Docket := dk op 64 [(8, 0), (8, 4096), (8, a.toNat), (8, 64)]
/-- Sixty-four unlike bytes. -/
def bytes64 : List Byte := (List.range 64).map fun i => BitVec.ofNat 8 (3 * i + 1)
/-- Cluster 0's collective buffer holds those bytes, unstained, at 4096. -/
def withBytes (s : State) : State := (moveIn 0 2 s (bufAt 4096).toNat bytes64).1

theorem witness_DocketsOfMemory_moves :
    (Runs (sRun (dk 0 64 [])) 3 0x00 (dk 0 64 []) ∧ (after (.nopDocket 3) (sRun (dk 0 64 [])) (ended · stOk 0)) = true)
    ∧ (∀ op ∈ [0x01, 0x02, 0x10, 0x11], let d := strange (dk op 64 [])
        Runs (sRun d) 3 op d ∧ windowOf (sRun d) (dkJob d) = none)
    ∧ (let d := dMove 0x01 (bufAt 4096)
       Runs (sRun d) 3 0x01 d ∧ windowOf (sRun d) (dkJob d) = some 0 ∧ pcieUp (sRun d) = true
         ∧ ((sRun d).ring 3).moved = 0 ∧ dkF d 56 8 = bytes64.length ∧ dkF d 48 8 % 32 = 0
         ∧ dkF d 48 8 = 2 ^ 51 + 0 * 2 ^ 20 + 4096 ∧ mapped (sRun d) hostSrc 0 (dkF d 48 8) 64 true = true
         ∧ (after (.writeDocket 3 bytes64 true) (sRun d) fun t => ended t stOk 64 && t.mem.buf.length == 64
             && Tbl.get 0 t.mem.buf 4097 == 4) = true)
    ∧ (let d := dMove 0x01 0
       Runs (sRun d) 3 0x01 d ∧ found (xlate (sRun d) 0 (dkF d 48 8 : Nat) true) = false
         ∧ (after (.writeDocket 3 bytes64 true) (sRun d) fun t => ended t stFault 0 && t.irq.latch.contains 0x20
             && (t.jobAt 0).stopping) = true) := by unfold Runs; decide +kernel

theorem witness_DocketsOfMemory_reads :
    let d := dMove 0x02 (bufAt 4096)
    let s := withBytes (sRun d)
    let r := fun (s : State) => moveOut 0 (dkF d 56 8 / 32) s (dkF d 48 8)
    Runs s 3 0x02 d ∧ windowOf s (dkJob d) = some 0 ∧ pcieUp s = true ∧ (r s).2.2 = (false, false)
      ∧ (after (.readDocket 3 true) s fun t => ended t stOk 64 && t.out == [.hostWrite 4096 bytes64]) = true
      ∧ (r (sRun d)).2.2 = (true, false)
      ∧ (after (.readDocket 3 true) (sRun d) fun t => ended t stStained 64 && t.irq.latch.contains 0x44
          && (t.jobAt 0).stopping) = true
      ∧ (let e := dMove 0x02 0
         Runs (sRun e) 3 0x02 e ∧ (moveOut 0 2 (sRun e) (dkF e 48 8)).2.2.2 = true
           ∧ (after (.readDocket 3 true) (sRun e) (ended · stFault 0)) = true) := by unfold Runs; decide +kernel

/-- A `STREAM` of one word. -/
def dStream : Docket := dk 0x03 128 [(2, 1), (30, 0), (16, 5)]

theorem witness_DocketsOfMemory_streams :
    Runs (sRun dStream) 3 0x03 dStream ∧ fedCluster (sRun dStream) 3 = none
      ∧ (let s := (sRun dStream).updClu 0 fun k => { k with src := true, ring := 3 }
         fedCluster s 3 = some 0 ∧ (s.clu 0).blocks.length < 8
           ∧ (after (.streamDocket 3) s fun t => ended t stOk 0 && (t.clu 0).blocks == [⟨1, [5]⟩]) = true)
      ∧ (let s := (sRun dStream).updClu 0 fun k => { k with src := true, ring := 3, blocks := List.replicate 8 {} }
         fedCluster s 3 = some 0 ∧ 8 ≤ (s.clu 0).blocks.length
           ∧ (after (.streamDocket 3) s (· == s)) = true) := by unfold Runs; decide +kernel

/-- An `ALLOC` of `n` frames of DDR stack 0 at page 2. -/
def dAlloc (n : Nat) : Docket := dk 0x10 64 [(1, 0), (1, 0), (2, 3), (4, n), (8, 2 ^ 22)]

/-- With nothing mapped, a stack of the first tier has a free frame. -/
theorem free_frame : 1 ≤ (freeFrames State.reset 0 0).length := by
  have h : 5 ∈ freeFrames State.reset 0 0 := by
    simp only [freeFrames, List.mem_filter, List.mem_range]
    decide +kernel
  exact List.length_pos_of_mem h

theorem witness_DocketsOfMemory_alloc :
    let s := sRun (dAlloc 1)
    Runs s 3 0x10 (dAlloc 1) ∧ windowOf s (dkJob (dAlloc 1)) = some 0 ∧ dkF (dAlloc 1) 40 8 / 2 ^ 21 + 1 ≤ 2 ^ 20
      ∧ (∀ i < dkF (dAlloc 1) 36 4, entV (tableEntry s 0 (2 + i)) = false)
      ∧ (let u := setEntry s 0 2 eHbm
         Runs u 3 0x10 (dAlloc 1) ∧ (∃ i < dkF (dAlloc 1) 36 4, entV (tableEntry u 0 (2 + i)) = true)
           ∧ (after (.allocDocket 3) u (ended · stRefused 0)) = true) := by unfold Runs; decide +kernel

theorem witness_DocketsOfMemory_alloc_fits : allocShort (sRun (dAlloc 1)) 0 0 1 = [] := by
  have e : ∀ k, freeFrames (sRun (dAlloc 1)) 0 k = freeFrames State.reset 0 k := fun _ => rfl
  unfold allocShort
  rw [List.filterMap_eq_nil_iff]
  intro k hk
  have hk : k < 8 := by simpa using hk
  have hf := free_frame
  have hw : ∀ k < 8, allocShare 0 0 1 k ≤ if k = 0 then 1 else 0 := by decide
  have hw := hw k hk
  show (if (freeFrames (sRun (dAlloc 1)) 0 k).length < allocShare 0 0 1 k then _ else none) = none
  rw [e, if_neg]
  split at hw
  · subst k; omega
  · omega

theorem witness_DocketsOfMemory_alloc_short :
    let s := sRun (dAlloc 24577)
    Runs s 3 0x10 (dAlloc 24577) ∧ (∀ i < dkF (dAlloc 24577) 36 4, entV (tableEntry s 0 (2 + i)) = false)
      ∧ allocShort s 0 0 24577 ≠ [] := by
  refine ⟨by unfold Runs; decide +kernel, ?_, ?_⟩
  · intro i _
    have h : tableEntry (sRun (dAlloc 24577)) 0 (2 + i) = 0 := rfl
    rw [h]
    decide
  · intro h
    rw [allocShort, List.filterMap_eq_nil_iff] at h
    have h0 := h 0 (by simp)
    have hw : allocShare 0 0 24577 0 = 24577 := by
      simp only [allocShare]
      rw [List.filter_eq_self.2 (by intro i _; simp [allocStack]), List.length_range]
    have hf : (freeFrames (sRun (dAlloc 24577)) 0 0).length ≤ 24576 := by
      refine Nat.le_trans (List.length_filter_le _ _) ?_
      simp [framesOf]
    have h1 : (freeFrames (sRun (dAlloc 24577)) 0 0).length < allocShare 0 0 24577 0 := by omega
    simp [h1] at h0

theorem witness_DocketsOfMemory_windows :
    (let d := dk 0x11 64 [(4, 0), (4, 1), (8, 2 ^ 21)]
     Runs (sRun d) 3 0x11 d ∧ windowOf (sRun d) (dkJob d) = some 0 ∧ ((sRun d).jobAt 0).running = true
       ∧ (let s := setEntry (sIdle d) 0 1 eHbm
          Runs s 3 0x11 d ∧ (s.jobAt 0).running = false ∧ dkF d 40 8 / 2 ^ 21 + dkF d 36 4 ≤ 2 ^ 20
            ∧ (after (.freeDocket 3) s fun t => ended t stOk 0 && t.mem.table == []) = true))
    ∧ (let d := dk 0x80 64 [(1, 0), (1, 0)]
       Runs (sRun d) 3 0x80 d ∧ dkF d 32 1 = 0 ∧ ((sRun d).jobAt 0).running = true)
    ∧ (let d := dk 0x80 64 [(1, 5), (1, 1), (2, 7)]
       Runs (sRun d) 3 0x80 d ∧ dkF d 32 1 = 5 ∧ ((sRun d).jobAt 5).running = false ∧ dkF d 33 1 = 1
         ∧ (after (.windowDocket 3) (sRun d) (ended · stRefused 0)) = true)
    ∧ (let d := dk 0x80 64 [(1, 5), (1, 1), (2, 8)]
       Runs (sRun d) 3 0x80 d ∧ dkF d 33 1 = 1
         ∧ (after (.windowDocket 3) (sRun d) fun t => ended t stOk 0 && t.mem.twEn == 33
             && t.mem.twJob == [(0, 7), (5, 8)]) = true) := by unfold Runs; decide +kernel

/-- A `LAUNCH` on the cluster of ID 16, from memory or, with `rec` = 2^12 + ring · 2^13, streamed. -/
def dLaunch (mode : Nat) : Docket :=
  dk 0x20 192 [(1, 1), (1, 2), (2, 1), (4, 9), (8, 100), (8, 0), (4, 0), (2, 0), (2, 0), (8, 128), (8, 0x8000000000000),
    (16, 0), (8, 11), (56, 0), (4, 16 + mode)]
/-- A member of a slice with the job of window 0 over. -/
def sLaunch (mode : Nat) : State :=
  let s := sIdle (dLaunch mode)
  { s with slc := { s.slc with member := true } }

theorem witness_DocketsOfJobs_launch :
    (let s := sRun (dLaunch 0)
     Runs s 3 0x20 (dLaunch 0) ∧ windowOf s (dkJob (dLaunch 0)) = some 0 ∧ (s.jobAt 0).running = true)
    ∧ (let m := 2 ^ 12 + 5 * 2 ^ 13
       Runs (sLaunch m) 3 0x20 (dLaunch m) ∧ ((sLaunch m).jobAt 0).running = false
         ∧ (launchRecords (dLaunch m)).any (fun x => x.2.1 && !streamRingOk (sLaunch m) x.2.2.1 7) = true)
    ∧ (let s := sLaunch 0
       Runs s 3 0x20 (dLaunch 0) ∧ (s.jobAt 0).running = false
         ∧ ((launchPlaces (dLaunch 0)).any (fun q => (servingClusters s).contains q)
           || (launchRecords (dLaunch 0)).any (fun x => x.2.1 && !streamRingOk s x.2.2.1 7)) = false
         ∧ launchGate s = .go ∧ launchGate (sIdle (dLaunch 0)) = .reject stJob
         ∧ launchGate { s with slc := { s.slc with req := some { slcId := 0x100 } } } = .wait
         ∧ launchPlaces (dLaunch 0) = [16] ∧ Tbl.rising s.cl = true
         ∧ (after (.launchDocket 3) s fun t => began t && (t.jobAt 0).running && (t.jobAt 0).det && !(t.jobAt 0).late
             && (t.clu 16).state == 1 && (t.clu 16).sreg == [(1, 11)] && (t.clu 16).waiting
             && (t.clu 0).win == none && Tbl.get 0 t.slc.role 0 == 2) = true) := by unfold Runs; decide +kernel

theorem witness_DocketsOfJobs_stop :
    let d := dk 0x21 64 []
    Runs (sRun d) 3 0x21 d ∧ windowOf (sRun d) (dkJob d) = some 0 ∧ ((sRun d).jobAt 0).running = true
      ∧ ((sIdle d).jobAt 0).running = false ∧ Runs (sIdle d) 3 0x21 d
      ∧ Tbl.rising (sRun d).hif.ring = true ∧ ((sRun d).jobAt 0).stopping = false
      ∧ (after (.stopDocket 3) (sRun d) fun t => began t && (t.jobAt 0).stopping && (t.jobAt 0).cause == 5
          && (t.clu 1).stopSent) = true := by unfold Runs; decide +kernel

/-- A `PHASE` to slice 1 at TD 500, with a map and one item for window 1. -/
def dPhase (map : Nat) : Docket :=
  dk 0x81 128 [(8, 500), (4, 1), (4, 0x101), (4, 0x1000), (4, map), (4, 0), (4, 1), (32, 0), (8, 1 + 3 * 16), (8, eHbm.toNat)]
/-- A member of a slice of a torus of two modules. -/
def sPh (map count : Nat) (member : Bool) (late : Bool := false) : State :=
  let s := sRun { dPhase map with late := late }
  { s with tl := { s.tl with size := 1 }, slc := { s.slc with member := member }, gct := { s.gct with count := count } }

theorem witness_DocketsOfJobs_phase :
    (let s := sPh 0xE4 400 true
     let q := phaseReq s 3 (dPhase 0xE4) false
     Runs s 3 0x81 (dPhase 0xE4) ∧ s.slc.req = none ∧ phaseMapOk s q = true ∧ phaseClash s q = false
       ∧ startsLate s 3 (dPhase 0xE4) = false
       ∧ startsLate { s with gct := { s.gct with missed := (missedCounts s 499 500).gct.missed } } 3 (dPhase 0xE4) = true
       ∧ (after (.phaseDocket 3) s fun t => began t && t.slc.step == 1 && t.slc.req.isSome && !t.slc.late) = true
       ∧ Runs { s with slc := { s.slc with req := some q } } 3 0x81 (dPhase 0xE4))
    ∧ (let s := sPh 0xE4 600 true true
       let d := { dPhase 0xE4 with late := true }
       let q := phaseReq s 3 d false
       Runs s 3 0x81 d ∧ phaseMapOk s q = true ∧ phaseClash s q = false ∧ startsLate s 3 d = true
         ∧ acceptsLate s (dPhase 0xE4) = true ∧ acceptsLate (sPh 0xE4 400 true) (dPhase 0xE4) = false
         ∧ (after (.phaseDocket 3) s fun t => began t && t.slc.late && t.slc.holdLaunch) = true)
    ∧ (let s := sPh 0 400 true
       phaseMapOk s (phaseReq s 3 (dPhase 0) false) = false ∧ (after (.phaseDocket 3) s (ended · stRefused 0)) = true)
    ∧ (let s := (sPh 0xE4 400 false).updJob 0 fun j => { j with running := false }
       phaseBrings s (dPhase 0xE4) = true ∧ phaseMapOk s (phaseReq s 3 (dPhase 0xE4) true) = true
         ∧ phaseClash s (phaseReq s 3 (dPhase 0xE4) true) = false
         ∧ (after (.phaseDocket 3) s fun t => began t && t.slc.slice == 1 && t.slc.member && t.slc.step == 5) = true) := by
  unfold Runs; decide +kernel

/-- A `COMM` that writes the record of communicator 4: epoch 1, role 1, HOLD 5 and a first done bit of 6. -/
def dComm : Docket := dk 0x30 64 [(2, 4), (1, 1), (1, 0x41), (2, 0), (2, 5), (2, 6)]
/-- A `PRESS` that binds the table at `bufAt 0` to communicator 3 in mode 1. -/
def dPress : Docket := dk 0x31 64 [(2, 3), (1, 1), (5, 0), (8, (bufAt 0).toNat)]
/-- A `MANGLE` of communicator 3. -/
def dMangle : Docket := dk 0x32 128 [(2, 3), (1, 1), (1, 1), (4, 32), (24, 0), (2, 0), (1, 0), (1, 1), (4, 1)]
/-- A docket that names communicator 3 and the value `v`. -/
def d3 (op v : Nat) : Docket := dk op 64 [(2, 3), (6, 0), (8, v)]
/-- The docket runs, and communicator 3 belongs to job 7, which owns the press. -/
def sTrain (d : Docket) : State :=
  let s := sRun d
  { s with coll := { s.coll with comm := [(3, { valid := true, job := 7 })] }
           press := { s.press with job := 7, tables := [(3, bufAt 0)] } }
/-- The docket runs, and the press has tables of job 9, which runs in window 1. -/
def sNine (d : Docket) : State :=
  let s := (sRun d).updJob 1 fun _ => { running := true, job := 9 }
  { s with press := { s.press with job := 9, tables := [(3, bufAt 0)] } }

theorem witness_DocketsOfTraining_units :
    (Runs (sRun dComm) 3 0x30 dComm ∧ (after (.commDocket 3) (sRun dComm) fun t => ended t stOk 0
        && t.commAt 4 == { valid := true, job := 7, epoch := 1, roles := 1, hold := 5, doneBase := 6 }) = true)
    ∧ (Runs (sNine dPress) 3 0x31 dPress ∧ (sNine dPress).press.job ≠ 7 ∧ pressJobRuns (sNine dPress) = true
       ∧ (after (.pressDocket 3) (sNine dPress) (ended · stBusy 0)) = true)
    ∧ (Runs (sRun dPress) 3 0x31 dPress ∧ pressJobRuns (sRun dPress) = false ∧ (sTrain dPress).press.job = 7
       ∧ (after (.pressDocket 3) (sRun dPress) fun t => ended t stOk 0 && t.press.job == 7 && t.press.mode == 1
           && t.press.tables == [(3, bufAt 0)]) = true)
    ∧ (let s := sTrain dMangle
       Runs s 3 0x32 dMangle ∧ windowOf s (dkJob dMangle) = some 0 ∧ s.mgl.running = false ∧ (s.commAt 3).valid = true
         ∧ (s.commAt 3).job = 7 ∧ ((sRun dMangle).commAt 3).valid = false
         ∧ (after (.mangleDocket 3) s fun t => began t && t.mgl.running && t.mgl.comm == 3 && t.mgl.partB == 32) = true
         ∧ Runs { s with mgl := { s.mgl with running := true } } 3 0x32 dMangle) := by unfold Runs; decide +kernel

/-- The table at `bufAt 0` has one segment of 8 FP32 elements of SGD, whose version 0 is at `bufAt 4096`. -/
def withTable (s : State) : State :=
  let s := (moveIn 0 4 s (bufAt 0).toNat (lay [(8, 6), (28, 0), (4, 1)] ++ zeros 88)).1
  (moveIn 0 4 s (bufAt 128).toNat (lay [(8, 0), (4, 8), (36, 0), (8, (bufAt 4096).toNat), (8, (bufAt 8192).toNat)]
    ++ zeros 64)).1

theorem witness_DocketsOfTraining_export :
    let d := d3 0x33 (bufAt 16384).toNat
    let s := withTable (sTrain d)
    let m := fun (s : State) => let c := committedOf s 3 (bufAt 0).toNat; manifest c.1 3 (bufAt 0).toNat c.2.1 c.2.2
    Runs s 3 0x33 d ∧ windowOf s (dkJob d) = some 0 ∧ tableOf s 3 = some (bufAt 0).toNat ∧ s.press.job.toNat = dkJob d
      ∧ tableOf (sRun d) 3 = none ∧ Runs (sRun d) 3 0x33 d ∧ stepApplying s 3 = false
      ∧ stepApplying { s with press := { s.press with steps := [{ comm := 3, global := some (1, true, true) }] } } 3 = true
      ∧ (m s).2.2 = true ∧ (after (.exportDocket 3) s fun t => ended t stStopped 0 && t.irq.latch.contains 0x44
          && (t.jobAt 0).stopping) = true
      ∧ (let u := withBytes s
         (m u).2.2 = false ∧ (m u).2.1.length = 64 ∧ mapped u hostSrc 0 (dkF d 40 8) 64 true = true ∧ Runs u 3 0x33 d
           ∧ (after (.exportDocket 3) u fun t => ended t stOk 0 && t.cl == u.cl) = true) := by unfold Runs; decide +kernel

theorem witness_DocketsOfTraining_commits :
    (let d := d3 0x34 (bufAt 16384).toNat
     let s := withBytes (withTable (sTrain d))
     let u := { s with press := { s.press with held := some (3, 6) } }
     Runs s 3 0x34 d ∧ s.press.held = none ∧ Runs u 3 0x34 d ∧ tableOf u 3 = some (bufAt 0).toNat
       ∧ u.press.job.toNat = dkJob d ∧ (let h := headerCopy u (bufAt 0).toNat
           (manifest h.1 3 (bufAt 0).toNat 6 h.2.cur).2.1.length = 64) ∧ mapped u hostSrc 0 (dkF d 40 8) 64 true = true
       ∧ (after (.fitrecDocket 3) u fun t => ended t stOk 0 && t.press.held == some (3, 6)) = true)
    ∧ (let d := d3 0x35 6
       let s := sTrain d
       let u := { s with press := { s.press with held := some (3, 6) } }
       Runs s 3 0x35 d ∧ windowOf s (dkJob d) = some 0 ∧ (sRun d).press.job.toNat ≠ dkJob d ∧ Runs (sRun d) 3 0x35 d
         ∧ s.press.job.toNat = dkJob d ∧ s.press.held = none ∧ Runs u 3 0x35 d ∧ dkF d 40 8 = 6
         ∧ u.guard.mendEn = false ∧ dkF (d3 0x35 5) 40 8 < 6
         ∧ (after (.commitDocket 3) u fun t => ended t stOk 0 && t.press.held == none && t.press.commit == 6) = true) := by
  unfold Runs; decide +kernel

/-- A `MEND` of role 0 with an interval of 4. -/
def dMend (en : Nat) : Docket := dk 0x82 128 [(4, 0), (4, en + 4 * 2 ^ 16), (8, 1), (8, 2), (8, 3), (8, 4)]

theorem witness_DocketsOfFunctionOne :
    (let d := dMend 1
     let s := { sRun d with slc := { (sRun d).slc with member := true } }
     Runs s 3 0x82 d ∧ dkF d 36 4 % 2 = 1 ∧ roleSize s 0 % 16 ≠ 0 ∧ (after (.mendDocket 3) s (ended · stRefused 0)) = true)
    ∧ (let d := dMend 0
       Runs (sRun d) 3 0x82 d ∧ dkF d 36 4 % 2 = 0
         ∧ (after (.mendDocket 3) (sRun d) fun t => ended t stOk 0 && t.guard.interval == 4 && t.guard.l1 == 4) = true)
    ∧ (let d := dk 0x83 64 [(2, 9)]
       Runs (sRun d) 3 0x83 d
         ∧ (after (.rebuildDocket 3) (sRun d) fun t => began t && t.guard.recId == 9 && t.guard.recRunning) = true)
    ∧ (let d := dk 0x84 64 [(1, 1), (1, 0), (2, 1)]
       let s := { sRun d with slc := { (sRun d).slc with member := true } }
       Runs s 3 0x84 d ∧ s.slc.member = true ∧ (sRun d).slc.member = false ∧ Runs (sRun d) 3 0x84 d
         ∧ (after (.guildDocket 3) s fun t => (t.ring 3).result.isSome && t.guard.gFaults == [1] && (t.jobAt 0).stopping) = true)
    ∧ (let d := dk 0x85 64 [(1, 1), (1, 0), (2, 5), (8, 0), (2, 6)]
       Runs (sRun d) 3 0x85 d
         ∧ (after (.apprenticeDocket 3) (sRun d) fun t => began t && t.guard.aState == 1 && t.guard.aTutor
             && t.guard.aPeer == 5 && t.guard.aSteps == 6 && t.guard.aRing == some 3) = true)
    ∧ (let d := dk 0x85 64 [(1, 0), (1, 0), (2, 5), (8, 0), (2, 6)]
       let s := { sRun d with guard := { (sRun d).guard with book := some (0, 0, []) } }
       Runs s 3 0x85 d ∧ dkF d 32 1 ≠ 1 ∧ s.guard.book ≠ none
         ∧ (after (.apprenticeDocket 3) s fun t => t == s) = true
         ∧ Runs (sRun d) 3 0x85 d ∧ (sRun d).guard.book = none)
    ∧ (let d := dk 0x86 64 [(1, 3), (1, 1), (2, 2), (4, 77), (1, 0)]
       let s := (sRun d).updJob 0 fun j => { j with inj := true }
       let s := { s with guard := { s.guard with injEn := 8 } }
       Runs s 3 0x86 d ∧ (s.guard.injEn.getLsbD 3 && (s.jobAt 0).running && (s.jobAt 0).inj) = true
         ∧ Runs (sRun d) 3 0x86 d ∧ (sRun d).guard.injEn.getLsbD 3 = false
         ∧ (after (.injectDocket 3) s fun t => ended t stOk 0 && t.guard.armed == [⟨3, 1, 2, 77, 0⟩]) = true) := by
  unfold Runs; decide +kernel

/-! The pattern book was signed outside Lean: a key was computed for the digest so that the signature is valid. -/

/-- The signed part of a book of one point, under key 1. -/
def bookBody : List Byte :=
  lay [(4, 0x4B425046), (4, 0), (4, 1), (4, 416), (4, 100), (4, 0), (4, 1), (36, 0), (2, 100), (2, 0), (2, 50)] ++ zeros 250
/-- r and s. -/
def bookSig : Nat := 0xc73638c751291d3951e4b920850ae22ca627f5b3758fdf0e6ae724c00730ffcea586fb4ef557249a145a20a66e428939
/-- The book. -/
def bookImage : List Byte := bookBody ++ (leBytes 48 bookSig).reverse ++ (leBytes 48 bookSig).reverse
/-- The public key. -/
def bookX : Nat := 0x46737eceeeb4dfe02722bf9549c50e10f3418b54cc14ad09676f314b7f8785631139707cecda8f364602fb204dab53dc
def bookY : Nat := 0x1e2fb4c43a05bd7ee00df1933dd6b549274c5aa0465460686fa3e380a3ca6c157794e1972aab4da412e65cdac6b239e6
/-- The docket that brings it, and the key block's body that holds the key, with nothing revoked and lowest versions 0. -/
def dBook : Docket := dk 0x87 64 [(4, 0), (4, 416), (8, 4096)]
def sBook : State :=
  let s := sRun dBook
  let key := ((leBytes 48 bookX).reverse ++ (leBytes 48 bookY).reverse).zipIdx.map fun x => (keyBody + 96 + x.2, x.1)
  { s with boot := { s.boot with flash := key ++ (List.range 20).map fun i => (keyBody + 384 + i, 0) } }

theorem witness_DocketsOfFunctionOne_book :
    Runs sBook 3 0x87 dBook ∧ pcieUp sBook = true ∧ sBook.guard.book = none ∧ bookGood sBook (bookImage.take 416) = true
      ∧ bookGood sBook (paste bookImage 0 [0]) = false ∧ sBook.guard.armed = []
      ∧ bookRegions [BitVec.ofNat 128 (leNat (cut bookImage 64 16))] = []
      ∧ bookRegions [BitVec.ofNat 128 (100 + 2 ^ 32 * 50 + 2 ^ 64)] ≠ [] := by unfold Runs; decide +kernel

/-! ### Interrupts -/

/-- Source 96 is pending, enabled and routed by `route` to processor 0 or vector 5; the link is up. -/
def sIrq (route : Nat) : State :=
  { hif := { rate := 5 }, irq := { cfg := [(96, BitVec.ofNat 32 (1 + 2 * route + 16 + 5 * 256))], pend := [96], msixOff := 0 } }

theorem witness_InterruptController_offers :
    (let s : State := { irq := { latch := [96] } }
     (96 : Nat) ∈ s.irq.latch ∧ edgeSource 96 = true
       ∧ (after (.irqSourcePending 96) s fun t => t.irq.latch == [] && t.irq.pend == [96]) = true)
    ∧ (let s := sIrq 0
       s.irq.pend.Pairwise (· < ·) ∧ eligible s 96 = true ∧ srcRoute s 96 = 0 ∧ bitAt (srcCfg s 96) 4 = true
         ∧ bitAt (tprOf s 0) 4 = true ∧ onProc s 0 = none
         ∧ (after .irqOfferUpdate s fun t => t.irq.offer == [(0, 96)] && t.irq.seen == 1) = true)
    ∧ (let s := sIrq 1
       routeFn s 96 = some .f0 ∧ eligible s 96 = true ∧ msixOn s .f0 = true ∧ levelSource 96 = false
         ∧ srcVector s 96 < fnVectors .f0 ∧ (fnNum .f0, srcVector s 96) ∉ s.irq.unmasked
         ∧ (after .irqOfferUpdate s fun t => t.irq.pend == [] && t.irq.pba == [(0, 5)]) = true)
    ∧ (let s := { sIrq 2 with irq := { (sIrq 2).irq with unmasked := [(1, 5)] } }
       routeFn s 96 = some .f1 ∧ eligible s 96 = true ∧ msixOn s .f1 = true
         ∧ (fnNum .f1, srcVector s 96) ∈ s.irq.unmasked
         ∧ (after .irqOfferUpdate s fun t => t.out == [.msix .f1 5]) = true) := by decide +kernel

theorem witness_InterruptController_offers_alone :
    ∀ m, m ≠ 96 → m / 16 = 96 / 16 → eligible (sIrq 1) m = true → srcRoute (sIrq 1) m = 0 := by
  intro m h1 h2 _
  have h : ∀ k < 16, 96 + k ≠ 96 → srcRoute (sIrq 1) (96 + k) = 0 := by decide +kernel
  have e : m = 96 + (m - 96) := by omega
  rw [e] at h1 ⊢
  exact h _ (by omega) h1

theorem witness_InterruptController_claims :
    (procOf .fn0 ≠ some 0 ∧ procOf .mp0 = some 0)
    ∧ (let s : State := { irq := { service := [(96, 0)], offer := [(0, 97)] } }
       onProc s 0 = some 96 ∧ (after (.irqClaim .mp0 0) s fun t => Tbl.get 0 t.rdata (agNum .mp0) == 96) = true)
    ∧ (let s : State := { irq := { pend := [96], offer := [(0, 96)], hold := [(6, 9)] } }
       onProc s 0 = none ∧ offeredTo s 0 = some 96 ∧ levelSource 96 = false ∧ Tbl.get 0 s.irq.hold (96 / 16) ≠ 0
         ∧ (after (.irqClaim .mp0 0) s fun t => Tbl.get 0 t.rdata (agNum .mp0) == 96 && t.irq.service == [(96, 0)]
             && t.irq.pend == [] && t.irq.offer == [] && t.irq.run == BitVec.ofNat 64 (2 ^ 6)) = true)
    ∧ (let s : State := { irq := { seen := 1, spur := [(0, 255)] } }
       onProc s 0 = none ∧ offeredTo s 0 = none ∧ s.irq.seen.getLsbD 0 = true
         ∧ (after (.irqClaim .mp0 0) s fun t => Tbl.get 0 t.rdata (agNum .mp0) == 1023 && t.irq.seen == 0
             && Tbl.get 0 t.irq.spur 0 == 255) = true)
    ∧ (offeredTo State.reset 0 = none ∧ State.reset.irq.seen.getLsbD 0 = false)
    ∧ (let s : State := { irq := { service := [(96, 0)] } }
       ((96 : Word).toNat % 1024, 0) ∈ s.irq.service ∧ ((97 : Word).toNat % 1024, 0) ∉ s.irq.service
         ∧ (after (.irqComplete .mp0 0 96) s fun t => t.irq.service == []) = true
         ∧ (after (.irqComplete .mp0 0 97) s fun t => t.irq.badComplete == 1) = true)
    ∧ (after (.irqHoldExpire 6) { irq := { run := 65 } } fun t => t.irq.run == 1) = true
    ∧ (after (.irqHostDone .fn0 80) { irq := { service := [(80, 4), (80, 5)] } } fun t => t.irq.service == [(80, 5)]) = true
    ∧ (mgmt .mp0 = true ∧ softSource 800 = true
       ∧ (after (.irqSwset .mp0 800) State.reset fun t => t.irq.pend == [800]
           && after (.irqSwclr .mp0 800) t fun u => u.irq.pend == []) = true) := by decide +kernel

theorem witness_InterruptController_msix :
    (let s : State := { hif := { rate := 5 }, irq := { pba := [(0, 7)], msixOff := 0 } }
     (7 : Nat) < fnVectors .f0 ∧ (fnNum .f0, 7) ∉ s.irq.unmasked ∧ (fnNum .f0, 7) ∈ s.irq.pba ∧ msixOn s .f0 = true
       ∧ (fnNum .f0, 8) ∉ s.irq.pba
       ∧ (after (.msixVectorUnmask .f0 7) s fun t => t.out == [.msix .f0 7] && t.irq.pba == []) = true)
    ∧ (let s : State := { hif := { rate := 5 }, irq := { pba := [(0, 7)], unmasked := [(0, 7)], msixOff := 3 } }
       s.hif.rate ≠ 0 ∧ (fnNum .f0, 7) ∈ s.irq.pba ∧ (fnNum .f0, 7) ∈ s.irq.unmasked
         ∧ (after (.msixEnable .f0) s fun t => t.out == [.msix .f0 7] && t.irq.pba == [] && t.irq.msixOff == 2) = true) := by
  decide +kernel

/-! ### Queue pairs -/

/-- A `QP` docket of an ACTION for queue pair 9 of port 0, with a key or address and a length. -/
def dQp (act key len : Nat) : Docket :=
  dk 0x40 128 [(1, act), (1, 0), (1, 1), (1, 2), (4, 9), (4, 33), (4, 0), (16, 4), (16, 5), (8, key), (8, len)]
/-- Queue pair 9 of port 0 stands at `q`. -/
def withQp (s : State) (q : Qp) : State := { s with hif := { s.hif with qp := [(9, q)] } }
/-- A queue pair of window 0. -/
def aQp : Qp := { live := true, win := some 0 }
/-- Memory key 6 of window 0, over 64 bytes at `bufAt 4096`. -/
def withKey (s : State) : State := { s with hif := { s.hif with key := [(6, ⟨true, 0, bufAt 4096, 64⟩)] } }

theorem witness_EthernetQueuePairs_qp :
    (let d := dQp 0 0 0
     Runs (sRun d) 3 0x40 d ∧ dkF d 32 1 = 0 ∧ ((sRun d).qpAt 0 1).live = false)
    ∧ (let d := dQp 1 0 0
       let s := withQp (sRun d) aQp
       Runs s 3 0x40 d ∧ dkF d 32 1 = 1 ∧ namedQp (sRun d) d 0 9 = none ∧ Runs (sRun d) 3 0x40 d
         ∧ namedQp s d 0 9 = some aQp ∧ aQp.err = false
         ∧ (after (.qpReadyDocket 3) s fun t => ended t stOk 9 && (t.qpAt 0 9).ready && (t.qpAt 0 9).rqpn == 33) = true)
    ∧ (let d := dQp 1 0 0
       let s := withQp (sRun d) { aQp with err := true }
       namedQp s d 0 9 = some { aQp with err := true } ∧ (after (.qpReadyDocket 3) s (ended · stJob 0)) = true)
    ∧ (let d := dQp 2 0 0
       let w : WorkReq := { ring := 4, seq := 1 }
       let s := withQp (sRun d) { aQp with work := [w] }
       let s := s.updRing 4 fun _ => { gOpen with running := some (dk 0x41 64 []) }
       Runs s 3 0x40 d ∧ dkF d 32 1 = 2 ∧ namedQp (sRun d) d 0 9 = none ∧ namedQp s d 0 9 = some { aQp with work := [w] }
         ∧ (s.ring 4).running = some (dk 0x41 64 []) ∧ dkOp (dk 0x41 64 []) = 0x41 ∧ (s.ring 4).result = none
         ∧ (after (.qpDestroyDocket 3) s fun t => ended t stOk 9 && t.qpAt 0 9 == {}
             && (t.ring 4).result == some (BitVec.ofNat 8 stFault, 0)) = true)
    ∧ (let d := dQp 3 64 4096
       Runs (sRun d) 3 0x40 d ∧ dkF d 32 1 = 3 ∧ windowOf (sRun d) (dkJob d) = some 0 ∧ winKeys (sRun d) 0 < 1024
         ∧ (sRun d).hif.key.length < 2 ^ 32 ∧ windowOf (sRun (strange d)) (dkJob (strange d)) = none)
    ∧ (let d := dQp 4 6 0
       let s := withKey (sRun d)
       Runs s 3 0x40 d ∧ dkF d 32 1 = 4 ∧ (Tbl.get {} s.hif.key 6).live = true
         ∧ windowOf s (dkJob d) = some (Tbl.get {} s.hif.key 6).win ∧ (Tbl.get {} (sRun d).hif.key 6).live = false
         ∧ (after (.qpKeyDestroyDocket 3) s fun t => ended t stOk 6 && t.hif.key == []) = true) := by
  unfold Runs; decide +kernel

/-- A table that holds one value at every key of a list. -/
theorem get_const {α : Type} (d v : α) : ∀ (l : List Nat) (k : Nat), k ∈ l → Tbl.get d (l.map fun n => (n, v)) k = v
  | [], _, h => by simp at h
  | j :: l, k, h => by
    by_cases e : j = k
    · simp [Tbl.get, e]
    · have h : k ∈ l := by simpa [Ne.symm e] using h
      simp [Tbl.get, e, get_const d v l k h]

theorem witness_EthernetQueuePairs_exhausted :
    (let d := dQp 0 0 0
     let s := { sRun d with hif := { (sRun d).hif with qp := (List.range 4096).map fun n => (n, aQp) } }
     Runs s 3 0x40 d ∧ dkF d 32 1 = 0 ∧ dkF d 33 1 = 0 ∧ ∀ m, 1 ≤ m → m ≤ 4095 → (s.qpAt 0 m).live = true)
    ∧ (let d := dQp 3 0 0
       let l := (List.range 1024).map fun n => (n, (⟨true, 0, 0, 0⟩ : MKey))
       let s := { sRun d with hif := { (sRun d).hif with key := l } }
       Runs s 3 0x40 d ∧ windowOf s (dkJob d) = some 0 ∧ 1024 ≤ winKeys s 0) := by
  refine ⟨⟨by unfold Runs; decide +kernel, by decide +kernel, by decide +kernel, ?_⟩, by unfold Runs; decide +kernel,
    by decide +kernel, ?_⟩
  · intro m _ h
    simp only [State.qpAt]
    rw [get_const _ _ _ _ (by simp; omega)]
    rfl
  · simp only [winKeys]
    rw [List.filter_eq_self.2]
    · simp
    · intro e h
      obtain ⟨n, -, rfl⟩ := List.mem_map.1 h
      rfl

/-- A `POST` of one request of 32 bytes at `bufAt 4096` to queue pair 9 of a port. -/
def dPost (op port : Nat) : Docket :=
  dk 0x41 128 [(2, 1), (30, 0), (1, op), (1, port), (2, 0), (4, 9), (8, (bufAt 4096).toNat), (4, 32)]
/-- The queue pair is ready. -/
def qReady : Qp := { aQp with ready := true }

theorem witness_EthernetQueuePairs_post :
    (let d := dPost 0 0
     let s := withQp (sRun d) qReady
     Runs s 3 0x41 d ∧ windowOf s (dkJob d) = some 0 ∧ (postReqs d).length = 1
       ∧ (postReqs d).all (fun b => fieldAt b 0 1 ≤ 2 && fieldAt b 1 1 ≤ 1) = true
       ∧ (postReqs d).all (postable s d) = true ∧ (postReqs d).all (postable (sRun d) d) = false ∧ postOver s (postReqs d) = false
       ∧ (ethRead (dkBegan s 3) 0 (bufAt 4096).toNat 32).2.2 = (true, false)
       ∧ (after (.postDocket 3) s (ended · stStained 0)) = true
       ∧ (let u := withBytes s
          Runs u 3 0x41 d ∧ (ethRead (dkBegan u 3) 0 (bufAt 4096).toNat 32).2.2 = (false, false)
            ∧ (after (.postDocket 3) u fun t => began t && (t.qpAt 0 9).work.all (!·.sent)
                && (t.qpAt 0 9).work.map (·.data) == [bytes64.take 32]) = true
            ∧ (let v := { u with hif := { u.hif with ethDown := 0 } }
               v.hif.ethDown.getLsbD 0 = false ∧ Runs v 3 0x41 d
                 ∧ (after (.postDocket 3) v fun t => (t.qpAt 0 9).work.all (·.sent)
                     && t.out == [.ethSend 0 9 ((postReqs d).getD 0 [] ++ bytes64.take 32)]) = true)))
    ∧ (let d := dPost 3 0
       Runs (sRun d) 3 0x41 d ∧ (after (.postDocket 3) (sRun d) (ended · stReserved 0)) = true)
    ∧ (let d := dk 0x41 128 [(2, 1), (30, 0), (1, 0), (1, 0), (2, 0), (4, 9), (8, 0), (4, 32)]
       let s := withQp (sRun d) qReady
       Runs s 3 0x41 d ∧ (ethRead (dkBegan s 3) 0 0 32).2.2.2 = true
         ∧ (after (.postDocket 3) s (ended · stFault 0)) = true) := by unfold Runs; decide +kernel

theorem witness_EthernetQueuePairs_over :
    let d := dPost 2 0
    let s := withQp (sRun d) { qReady with work := List.replicate 4096 {} }
    Runs s 3 0x41 d ∧ (postReqs d).all (postable s d) = true ∧ postOver s (postReqs d) = true := by
  unfold Runs; decide +kernel

/-- A packet for queue pair 9 with 32 bytes under key 6. -/
def ethPkt (k : EthKind) (qpn : BitVec 24) : EthPacket := ⟨qpn, k, 6, bufAt 4096, 32, bytes64.take 32⟩
/-- A port that is up, with the queue pair ready and key 6. -/
def sEth : State :=
  let s := withKey (withQp (withJob State.reset) qReady)
  { s with hif := { s.hif with ethDown := 2 } }

theorem witness_EthernetQueuePairs_packets :
    sEth.hif.ethDown.getLsbD 0 = false ∧ (sEth.qpAt 0 9).ready = true ∧ (sEth.qpAt 0 9).err = false
      ∧ (sEth.qpAt 0 8).ready = false ∧ (sEth.qpAt 0 9).win = some 0
      ∧ keyCovers sEth (sEth.qpAt 0 9) (ethPkt .write 9) = true
      ∧ keyCovers { sEth with hif := { sEth.hif with key := [] } } (sEth.qpAt 0 9) (ethPkt .write 9) = false
      ∧ (after (.ethPacketReceive 0 (ethPkt .write 9)) sEth fun t => Tbl.get 0 t.mem.buf 4097 == 4) = true
      ∧ (after (.ethPacketReceive 0 (ethPkt .send 9)) sEth fun t => t.out == [.ethNak 0 9]) = true
      ∧ (after (.ethPacketReceive 0 (ethPkt .cnp 9)) sEth fun t => (t.qpAt 0 9).slowed) = true
      ∧ (ethRead sEth 0 (bufAt 4096).toNat 32).2.2 = (true, false)
      ∧ (after (.ethPacketReceive 0 (ethPkt .read 9)) sEth fun t => t.irq.latch.contains 0x44) = true
      ∧ (let s := withBytes sEth
         (ethRead s 0 (bufAt 4096).toNat 32).2.2 = (false, false)
           ∧ (after (.ethPacketReceive 0 (ethPkt .read 9)) s fun t => t.out == [.ethSend 0 9 (bytes64.take 32)]) = true) := by
  decide +kernel

theorem witness_EthernetQueuePairs_completions :
    (let d := dPost 0 0
     let w : WorkReq := { ring := 3, seq := 1, sent := true }
     let s := withQp (sRun d) { qReady with work := [w] }
     (s.qpAt 0 9).work = [w] ∧ (s.ring 3).running = some d ∧ dkOp d = 0x41 ∧ d.seq = w.seq ∧ w.op ≠ 2
       ∧ (s.ring 3).moved + 1 = dkF d 32 2 ∧ (s.ring 3).result = none
       ∧ (after (.ethWorkRequestComplete 0 9 true []) s fun t => ended t stOk 1 && (t.qpAt 0 9).work == []) = true
       ∧ (after (.ethWorkRequestComplete 0 9 false []) s fun t => (t.qpAt 0 9).err && t.irq.latch.contains 210) = true)
    ∧ ((sEth.qpAt 0 9).work = [] ∧ ((withQp sEth { qReady with work := [{}] }).qpAt 0 9).work = [{}])
    ∧ (State.reset.pins.ethRefclk = true ∧ (after (.ethPortDown 1) { hif := { ethDown := 0 } } fun t => t.hif.ethDown == 2) = true
      ∧ (let s := { withQp State.reset { qReady with work := [{ bytes := [1], data := [2] }] } with boot := { held := false } }
         s.boot.held = false
           ∧ (after (.ethPortUp 0) s fun t => t.out == [.ethSend 0 9 [1, 2]] && (t.qpAt 0 9).work.all (·.sent)) = true)) := by
  decide +kernel

/-! ### The PCIe link -/

theorem witness_PcieLink :
    (let s := sRun (dMove 0x02 (bufAt 4096))
     Tbl.rising s.hif.ring = true ∧ (s.ring 3).running = some (dMove 0x02 (bufAt 4096))
       ∧ dkOp (dMove 0x02 (bufAt 4096)) = 0x02 ∧ (s.ring 3).state = 1 ∧ (s.ring 3).owner = .f0
       ∧ (after .pcieLinkDown s fun t => t.hif.rate == 0 && (t.ring 3).state == 4 && ended t stLink 0) = true
       ∧ (after .pciePerstAssert s fun t => !t.pins.perstHigh && (t.ring 3).state == 4) = true
       ∧ (after (.pcieFlr .f0) s fun t => (t.ring 3).state == 5 && (t.ring 3).flr && ended t stLink 0
           && t.irq.msixOff.getLsbD 0) = true
       ∧ (after (.pcieFlr .f1) s fun t => (t.ring 3).state == 1) = true)
    ∧ (let s := sRing { gDown with state := 5 }
       s.pins.pcieRefclk = true ∧ s.boot.held = false ∧ (s.ring 3).state = 5
         ∧ (after (.pcieLinkUp 6 16 true) s fun t => t.hif.rate == 6 && t.hif.flit && (t.ring 3).held == []) = true) := by
  decide +kernel

/-! ### Power and clocks -/

/-- A module whose compute dies run at step 10, with sensor 0 of die 0 coupled to region 4. -/
def sPower : State :=
  let s := State.reset
  { s with boot := { s.boot with computeOff := false, state := 1 }, fuse := { s.fuse with couple := [(0, 16)] }
           pwr := { s.pwr with reg := [(0, { step := some 10 }), (1, { step := some 10, cap3 := 4 }), (4, { step := some 10 })] }
           tl := { s.tl with asked := [0, 1], link := [(1, { state := 2 })] } }
/-- Readings: region 0 of die 0 at 100 °C, region 1 at 97 °C, region 2 at 97.5 °C, near-memory sensor 0 at 95 °C, HBM4
stack 0 at 95 °C; and energies for dies 0 and 1. -/
def someReadings : Readings := ⟨[(0, 400), (1, 388), (2, 390)], [], [(0, 380)], [(0, 380)], [], [(0, 9000), (1, 8000)]⟩

theorem witness_GovernorAndClocks_boundary :
    sPower.guard.book = none ∧ sPower.boot.computeOff = false ∧ sPower.boot.state ≠ 5
      ∧ sPower.tl.asked.find? (fun x => linkDie x == 0 && mayRetrain (sPower.link x)) = some 1 ∧ dieWindow sPower 0 = false
      ∧ [0, 1, 2, 4].all (mappedRegions sPower 0).contains = true
      ∧ (after (.chitBoundary someReadings) sPower fun t =>
          let lt := lTau (takeLimits sPower) 0
          targetStep (takeLimits sPower) 0 == 10 && lt == 4200
            && chitOf t 0 == -600 && chitCap t 0 == 9 && chitOf t 1 == 400 && chitCap t 1 == 16 && chitOf t 2 == 8400
            && decide (400 ≤ tempJ t 0 0) && (sPower.regClk 0 0).step == some 10 && (t.regClk 0 0).cap3 == 9
            && (t.regClk 0 0).was == some 10 && issueStep (t.regClk 0 0) == some 9 && regVolt t 0 0 == some 7950
            && decide (tempJ t 0 1 ≤ 388) && (t.regClk 0 1).cap3 == 5 && (t.regClk 0 1).step == some 5
            && decide (388 < tempJ t 0 2) && decide (tempJ t 0 2 < 400) && (t.regClk 0 2).cap3 == 16
            && decide (380 ≤ tempN t 0 0) && bitAt (coupleMask sPower 0 0) 4 && (t.regClk 0 4).cap4 == 9
            && (t.regClk 0 4).step == some 9 && !dieHeld t 0 && cap6Of t 0 == 16 && t.pwr.rung5 == 1
            && (t.link 1).windowT == some 10000 && t.tl.asked == [0] && 0 < runStep sPower 0 4 && !t.pwr.trip
            && (allSensors t).all fun x => decide (x.temp < x.trip)) = true := by decide +kernel

theorem witness_GovernorAndClocks_excursion :
    (let rd : Readings := ⟨[(0, 460)], [], [], [], [], []⟩
     sPower.pwr.tripping = false ∧ sPower.pwr.in6.getLsbD 0 = false
       ∧ (after (.chitBoundary rd) (withJob sPower) fun t => dieHeld t 0 && cap6Of t 0 == 0 && t.pwr.excursion
           && (allSensors t).any (fun x => decide (x.trip ≤ x.temp)) && t.pwr.hot6.contains 0
           && t.pwr.trip && t.pwr.tripping && t.irq.latch.contains 1 && (t.jobAt 0).stopping
           && (t.regClk 0 0).step == some 0) = true)
    ∧ (let s := { sPower with pwr := { sPower.pwr with tripping := true } }
       (after .thermtripAssert s fun t => t.boot.state == 5 && !t.pins.thermtripHigh && (t.regClk 0 0).step == none) = true)
    ∧ (let s := sPower.updReg 3 2 fun k => { k with changing := true }
       (after (.regionClockChangeComplete 3 2) s fun t => !(t.regClk 3 2).changing) = true)
    ∧ (let s := { sPower with pwr := { sPower.pwr with limitNow := 5400, rung2 := 3 } }
       (after (.modulePowerCheck 5401) s fun t => t.pwr.rung2 == 4 && t.pwr.power == 5401) = true
         ∧ (after (.modulePowerCheck 5000) s fun t => t.pwr.rung2 == 2) = true
         ∧ (after (.modulePowerCheck 5350) s fun t => t.pwr.rung2 == 3) = true)
    ∧ (after .pwrBrakeAssert sPower fun t => !t.pins.brakeHigh && (t.regClk 0 0).step == some 0
        && (t.regClk 0 2).step == none && after .pwrBrakeRelease t fun u => u.pins.brakeHigh) = true := by decide +kernel

/-! ### Boot and reset -/

/-! The firmware image was signed outside Lean. -/

/-- A firmware image of 224 bytes at version 1.2 and epoch 3, whose key is the base point and whose nonce is 1. -/
def fwImage : List Byte :=
  lay [(4, 0x4B574657), (2, 0x0102), (1, 0), (1, 3), (1, 0), (3, 0), (4, 224)] ++ (leBytes 48 g384.1).reverse
    ++ (leBytes 48 g384.2.1).reverse ++ zeros 16 ++ (leBytes 48 (g384.1 % n384)).reverse
    ++ (leBytes 48 0xa6732bc0eb793bf5f898d2cb8289eeff91ae73fc530a4c1fad97305fa1b409d1f865a40fa87a29f3888316e9f34f155a).reverse
/-- SHA-384 of its key. -/
def fwRoot : BitVec 384 :=
  0xa19d4db171b582eb8052b0cfe555e17894aa22d1c8a9770950697dd8f796d2fa4bf0a56ad80006b7ea08e1191f814b65
/-- A module at the start of a boot with that image in slot 0. -/
def sBoot : State :=
  { fuse := { rootKey := [(0, fwRoot)] }, boot := { flash := fwImage.zipIdx.map fun x => (0x100000 + x.2, x.1) } }
/-- Nothing fails outside the module's records. -/
def allGood : BootFinds := { d2dDown := none, dieFails := none, fwFault := false }

theorem witness_BootSequence_image :
    sBoot.boot.held = false ∧ sBoot.boot.state = 0 ∧ sBoot.boot.checked = false ∧ sBoot.boot.count.toNat < 3
      ∧ strapsBad (latchStraps sBoot) = false ∧ chooseImage sBoot = some false ∧ chooseImage State.reset = none := by
  decide +kernel

theorem witness_BootSequence_checks :
    d2dDead sBoot = none ∧ dieShort (deriveMap sBoot) = none ∧ groupsOut (deriveMap sBoot) allGood = []
      ∧ positionBad sBoot = none
      ∧ positionBad { sBoot with fuse := { sBoot.fuse with basePos := [0, 1, 2, 3, 4, 5, 6, 6] } } = some 7
      ∧ positionBad { sBoot with fuse := { sBoot.fuse with computePos := [0, 2, 1, 3, 4, 5, 6, 7] } } = some 1
      ∧ stackShort [] = none
      ∧ strapsBad (latchStraps { sBoot with pins := { sBoot.pins with pos := 1 } }) = true
      ∧ d2dDead { sBoot with d2d := [(0, { off := -1 })] } = some 0
      ∧ dieShort (deriveMap { sBoot with fuse := { sBoot.fuse with bad := [.region 0 0, .region 0 1] } }) = some 0
      ∧ (let s := { sBoot with fuse := { sBoot.fuse with badHbm := (List.range 9).map fun g => (0, 4 * g) } }
         stackShort (groupsOut (deriveMap s) allGood) = some 0)
      ∧ groupsOut (deriveMap sBoot) { allGood with unrepaired := [(15, 63)] } = [(1, 15, 15)] := by decide +kernel

theorem witness_BootSequence_start :
    (after (.bootStart allGood) { boot := { count := 3 } } fun t => t.boot.state == 3
        && t.boot.computeOff) = true
      ∧ (after (.bootStart allGood) State.reset fun t => t.boot.state == 2 && t.boot.why == 2 && t.boot.count == 1) = true
      ∧ (after (.bootStart allGood) { State.reset with pins := { State.reset.pins with pos := 1 } } fun t =>
          t.boot.state == 2 && t.boot.why == 3) = true
      ∧ (after .bootReady { boot := { checked := true, count := 2 } } fun t => t.boot.state == 1 && t.boot.count == 0) = true
      ∧ (after .bootTimeout State.reset fun t => t.boot.state == 2 && t.boot.why == 1) = true := by decide +kernel

theorem witness_BootSequence_resets :
    (let s : State := { boot := { state := 2 } }
     s.boot.warmAsked = none ∧ (after .bootRetryTimer s fun t => t.boot.warmAsked == some 4) = true)
    ∧ (after .smbusWarmReset { boot := { state := 1 } } fun t => t.boot.warmAsked == some 3) = true
    ∧ (let s := sRing gOpen
       s.boot.op = none ∧ (after .coldReset s fun t => t.boot.state == 0 && t.boot.cause == 1 && t.hif.ring == []
           && t.cl == [] && !t.pins.resetHigh) = true)
    ∧ (let s := sRing gOpen
       let s := { s with boot := { s.boot with warmAsked := some 3 } }
       s.org.busy = false ∧ s.boot.held = false ∧ Tbl.rising s.hif.ring = true ∧ (s.ring 3).state = 1
         ∧ (after .warmReset s fun t => t.boot.state == 4 && t.boot.cause == 3 && (t.ring 3).state == 0
             && (t.ring 3).gen == 1 && t.mem.twEn == 1 && t.hif.job == []) = true)
    ∧ (let s : State := { boot := { state := 1, count := 2, imageRuns := true, epoch := 70 } }
       (after (.bootCtlRaiseFloor .mp0 0x1F) s fun t => t.boot.count == 0 && preferred t.boot && t.boot.hdr1.seq == 1 && !t.boot.hdr0.prefer && t.fuse.rollback == 64
           && t.boot.warmAsked == some 2) = true
         ∧ (after (.bootCtlWarm .fn0 1) s (· == s)) = true) := by decide +kernel

/-! ### Flash, rails and pins -/

theorem witness_FlashPinsAndConfiguration_flash :
    (let s : State := { boot := { addr := BitVec.ofNat 26 keyBlock } }
     s.boot.busy = false ∧ flashOpen s keyBlock = true ∧ flashOpen s 0 = false
       ∧ flashOpen s (s.boot.addr.toNat / 65536 * 65536) = true ∧ keyBlock ≤ s.boot.addr.toNat
       ∧ (1 : Word).getLsbD 0 = true ∧ (4 : Word).getLsbD 0 = false
       ∧ (after (.bootFlashProgram .mp0 0xFF00F00F) s fun t => t.boot.busy && t.boot.op == some (keyBlock, some 0xFF00F00F)
           && after .flashOpComplete t fun u => !u.boot.busy && Tbl.get 0xFF u.boot.flash keyBlock == 0x0F
             && Tbl.get 0xFF u.boot.flash (keyBlock + 1) == 0xF0 && Tbl.get 0xFF u.boot.flash (keyBlock + 3) == 0xFF) = true
       ∧ (after (.bootFlashProgram .mp0 0) { boot := { addr := 0 } } fun t => t.boot.reject) = true
       ∧ (after (.bootFlashErase .mp0 1) s fun t => t.boot.busy && t.boot.op == some (keyBlock, none)) = true
       ∧ (after (.bootFlashErase .mp0 4) { boot := { reject := true } } fun t => !t.boot.reject) = true
       ∧ (after (.bootFlashDataRead .mp0) s fun t => Tbl.get 0 t.rdata (agNum .mp0) == 0xFFFFFFFF
           && t.boot.addr == s.boot.addr + 4) = true
       ∧ (after (.bootFlashDataRead .fn0) s fun t => Tbl.get 0 t.rdata (agNum .fn0) == 0) = true)
    ∧ (let s : State := { boot := { busy := true, op := some (keyBlock, none), flash := [(keyBlock, 5)] } }
       s.boot.op = some (keyBlock, none)) := by decide +kernel

theorem witness_FlashPinsAndConfiguration_pins :
    (after .vstbyLoss { boot := { count := 3, why := 2 } } fun t => t.boot.count == 0 && t.boot.why == 0 && t.boot.standby) = true
    ∧ (let s := sRing gOpen
       (after (.railUndervoltage 2) s fun t => t.boot.held && t.boot.state == 0 && t.pins.railsLow == 4 && t.hif.ring == []
           && (after (.railReturn 2) t fun u => !u.boot.held && u.pins.railsLow == 0)) = true
         ∧ s.pins.railsLow.getLsbD 2 = false
         ∧ (after .refclkLoss s fun t => t.boot.held && !t.pins.refclk
           && (after .refclkReturn t fun u => !u.boot.held && u.pins.refclk)) = true)
    ∧ (after .smbusAlertResponse { boot := { state := 2 }, pins := { smbAddr := 3 } } fun t => t.out == [.smbusAddr 0x3B]) = true
    ∧ (after .configurationRequest { hif := { rate := 5 }, boot := { state := 1 } } fun t => t.out == [.configDone]) = true
    ∧ (after .configurationRequest { hif := { rate := 5 } } fun t => t.out == [.retryStatus]) = true
    ∧ (after .configurationRequest State.reset (· == State.reset)) = true := by decide +kernel

theorem witness_EveryStepKeepsTheFuses :
    let s : State := { boot := { state := 1, imageRuns := true, epoch := 70 }, pending := [.bootCtlRaiseFloor .mp0 16] }
    s.fuse.rollback ≤ 64 ∧ (match step s with | .next t => t.fuse.rollback == 64 && t.pending == [] | _ => false) = true := by
  decide +kernel

end Sys2Proof.Tests
end

namespace Sys2Proof.Machine
open Sys2Proof

/-! ### What an access does, by the register that it meets (R13, R523) -/

theorem exec_regLoReadSnapshot (a : Agent) (off : BitVec 32) (s : State) :
    exec (.regLoReadSnapshot a off) s = .next (regRead s a off.toNat) := rfl

theorem exec_regLoWriteHold (a : Agent) (off : BitVec 32) (v : Word) (s : State) :
    exec (.regLoWriteHold a off v) s = .next (regWrite s a off.toNat v.toNat) := rfl

theorem exec_regHiWriteCommit (a : Agent) (off : BitVec 32) (v : Word) (s : State) :
    exec (.regHiWriteCommit a off v) s = .next (regWrite s a off.toNat v.toNat) := rfl

theorem exec_regWrite (a : Agent) (off : BitVec 32) (v : Word) (s : State) :
    exec (.regWrite a off v) s = .next (regWrite s a off.toNat v.toNat) := rfl

theorem exec_selectRegisterWrite (a : Agent) (off : BitVec 32) (v : Word) (s : State) :
    exec (.selectRegisterWrite a off v) s = .next (regWrite s a off.toNat v.toNat) := rfl

theorem regRead_aligned (s : State) (a : Agent) {o : Nat} (h : o % 4 = 0) :
    regRead s a o = respond (read32 s a o).2 a (read32 s a o).1 := if_pos h

theorem regWrite_aligned (s : State) (a : Agent) {o : Nat} (v : Nat) (h : o % 4 = 0) :
    regWrite s a o v = write32 s a o v := if_pos h

theorem read32_wide {s : State} {a : Agent} {o : Nat} {r : Reg} (h : regAt s a o = some r) (hw : r.wide = true)
    (ht : r.took = none) : read32 s a o = (r.val % 2 ^ 32, takeSnap s a o r.val) := by
  simp [read32, h, hw, ht]

theorem read32_hi {s : State} {a : Agent} {o : Nat} {r : Reg} (h : regAt s a o = none) (hh : hiOf s a o = some r) :
    read32 s a o = (snapOf s a (o - 4) / 2 ^ 32, s) := by
  simp [read32, h, hh]

theorem write32_wide {s : State} {a : Agent} {o : Nat} {r : Reg} (v : Nat) (h : regAt s a o = some r)
    (hw : r.wide = true) (hp : r.put.isSome = true) : write32 s a o v = holdLo s a o v := by
  simp [write32, h, hw, hp]

theorem write32_narrow {s : State} {a : Agent} {o : Nat} {r : Reg} {f : Nat → State} (v : Nat)
    (h : regAt s a o = some r) (hw : r.wide = false) (hp : r.put = some f) : write32 s a o v = f v := by
  simp [write32, h, hw, putReg, hp]

theorem write32_hi {s : State} {a : Agent} {o : Nat} {r : Reg} (v : Nat) (h : regAt s a o = none)
    (hh : hiOf s a o = some r) : write32 s a o v = commitHi s a o v := by
  simp [write32, h, hh]

/-- A 4-byte write where the agent meets neither a register nor the high half of one is ignored. -/
theorem write32_unmapped {s : State} {a : Agent} {o : Nat} (v : Nat) (h : regAt s a o = none)
    (hh : hiOf s a o = none) : write32 s a o v = s := by
  simp [write32, h, hh]

theorem commitHi_put {s : State} {a : Agent} {o : Nat} {r : Reg} {f : Nat → State} (v : Nat)
    (h : regAt (dropLo s a (o - 4)) a (o - 4) = some r) (hp : r.put = some f) :
    commitHi s a o v = f ((heldOf s a (o - 4)).getD (if r.wo then 0 else r.val % 2 ^ 32) + 2 ^ 32 * v) := by
  simp [commitHi, h, putReg, hp]

theorem hiOf_wide {s : State} {a : Agent} {o : Nat} {r : Reg} (ho : 4 ≤ o) (h : regAt s a (o - 4) = some r)
    (hw : r.wide = true) : hiOf s a o = some r := by
  simp [hiOf, Nat.not_lt.2 ho, h, hw]

theorem hiOf_unmapped {s : State} {a : Agent} {o : Nat} (h : regAt s a (o - 4) = none) : hiOf s a o = none := by
  simp [hiOf, h]

theorem hiOf_narrow {s : State} {a : Agent} {o : Nat} (h : ∀ r, regAt s a (o - 4) = some r → r.wide = false) :
    hiOf s a o = none := by
  simpa [hiOf, Option.filter_eq_none_iff] using fun _ => h

theorem read64_wide {s : State} {a : Agent} {o : Nat} {r : Reg} (h : regAt s a o = some r) (hw : r.wide = true)
    (ht : r.took = none) : read64 s a o = (r.val % 2 ^ 64, s) := by
  simp [read64, h, Option.filter_some, hw, ht]

theorem write64_wide {s : State} {a : Agent} {o : Nat} {r : Reg} {f : Nat → State} (v : Nat)
    (h : regAt s a o = some r) (hw : r.wide = true) (hp : r.put = some f) : write64 s a o v = f v := by
  simp [write64, h, Option.filter_some, hw, putReg, hp]

/-! ### The copies kept per agent -/

theorem agNum_inj {a b : Agent} : agNum a = agNum b → a = b := by
  cases a <;> cases b <;> simp [agNum]

theorem respond_answer (s : State) (a : Agent) (v : Nat) :
    Tbl.get 0 (respond s a v).rdata (agNum a) = BitVec.ofNat 64 v := Tbl.get_set_same ..

theorem respond_other (s : State) {a b : Agent} (v : Nat) (h : agNum b ≠ agNum a) :
    Tbl.get 0 (respond s a v).rdata (agNum b) = Tbl.get 0 s.rdata (agNum b) := Tbl.get_set_other _ _ _ _ _ h

theorem heldLo_holdLo_same (s : State) (a : Agent) (off : Nat) (v : Word) :
    Tbl.get none (holdLo s a off v.toNat).heldLo (off * 8 + agNum a) = some v := by
  simp [holdLo]

theorem heldLo_holdLo_other (s : State) (a : Agent) (off v : Nat) {x : Nat} (h : x ≠ off * 8 + agNum a) :
    Tbl.get none (holdLo s a off v).heldLo x = Tbl.get none s.heldLo x := by
  simp only [holdLo, Tbl.get_set_other _ _ _ _ _ h]

theorem heldOf_holdLo (s : State) (a : Agent) (off : Nat) (v : Word) :
    heldOf (holdLo s a off v.toNat) a off = some v.toNat := by
  rw [heldOf, heldLo_holdLo_same, Option.map_some]

theorem selOf_setSel_same (s : State) (a : Agent) (off : Nat) {v : Nat} (h : v < 2 ^ 32) :
    selOf (setSel s a off v) a off = v := by
  simpa [selOf, setSel] using h

theorem selOf_setSel_other (s : State) {a b : Agent} (off v : Nat) (h : b ≠ a) :
    selOf (setSel s a off v) b off = selOf s b off := by
  have hk : off * 8 + agNum b ≠ off * 8 + agNum a := fun e => h (agNum_inj (Nat.add_left_cancel e))
  simp only [selOf, setSel, Tbl.get_set_other _ _ _ _ _ hk]

/-! ### The registers that an agent meets (Table 14.2, R501, R504) -/

theorem mgmt_of_isMp {a : Agent} : isMp a = true → mgmt a = true := by
  cases a <;> simp [isMp, mgmt]

theorem regAt_mgmt (s : State) {a : Agent} (o : Nat) : mgmt a = true → regAt s a o = regMap s a o := by
  cases a <;> simp [mgmt, regAt]

/-- A management agent meets the register that the block below 0x1_0000 gives it. -/
theorem regAt_low (s : State) {a : Agent} {b o : Nat} (h : mgmt a = true) (hb : b < 16) (ho : o < 0x1000) :
    regAt s a (0x1000 * b + o) = lowBlock s a b o := by
  have hlt : 0x1000 * b + o < 0x10000 := by omega
  have hdiv : (0x1000 * b + o) / 0x1000 = b := by omega
  have hmod : (0x1000 * b + o) % 0x1000 = o := by omega
  simp only [regAt_mgmt s _ h, regMap, if_pos hlt, hdiv, hmod]

theorem regAt_gctCount (s : State) {a : Agent} (h : mgmt a = true) :
    regAt s a 0x5000 = Reg.ro64 s.gct.count.toNat :=
  regAt_low s (b := 5) (o := 0) h (by decide) (by decide)

theorem regAt_gctCmp (s : State) {a : Agent} (h : isMp a = true) :
    regAt s a 0x5018 = Reg.rw64 s.gct.cmp.toNat (gctCmp s) := by
  rw [regAt_low s (b := 5) (o := 0x18) (mgmt_of_isMp h) (by decide) (by decide)]
  simp [lowBlock, gctReg, mgmt_of_isMp h, h, Reg.rw64If, Reg.rw64]

theorem regAt_gctCmpHi (s : State) {a : Agent} (h : mgmt a = true) : regAt s a 0x501C = none := by
  rw [regAt_low s (b := 5) (o := 0x1C) h (by decide) (by decide)]
  simp [lowBlock, gctReg]

/-! ### Halves, 8-byte accesses and malformed ones -/

/-- Two halves make the 64-bit value that commits. -/
theorem ofNat_halves (hi lo : Word) : BitVec.ofNat 64 (lo.toNat + 2 ^ 32 * hi.toNat) = hi ++ lo := by
  apply BitVec.eq_of_toNat_eq
  rw [BitVec.toNat_ofNat, BitVec.toNat_append, Nat.shiftLeft_eq, Nat.mul_comm hi.toNat,
    ← Nat.two_pow_add_eq_or_of_lt lo.isLt, Nat.mod_eq_of_lt (by omega), Nat.add_comm]

/-- The high half of a snapshot, as the answer holds it. -/
theorem ofNat_snapOf_hi (s : State) (a : Agent) (o : Nat) :
    BitVec.ofNat 64 (snapOf s a o / 2 ^ 32) = Tbl.get 0 s.snap (o * 8 + agNum a) >>> 32 := by
  rw [snapOf, ← Nat.shiftRight_eq_div_pow, ← BitVec.toNat_ushiftRight, BitVec.ofNat_toNat, BitVec.setWidth_eq]

theorem regLoReadSnapshot_wide {s : State} {a : Agent} {off : BitVec 32} {r : Reg} (h4 : off.toNat % 4 = 0)
    (h : regAt s a off.toNat = some r) (hw : r.wide = true) (ht : r.took = none) :
    exec (.regLoReadSnapshot a off) s
      = .next (respond (takeSnap s a off.toNat r.val) a (r.val % 2 ^ 32)) := by
  rw [exec_regLoReadSnapshot, regRead_aligned s a h4, read32_wide h hw ht]

theorem regLoReadSnapshot_hi {s : State} {a : Agent} {off : BitVec 32} {r : Reg} (h4 : off.toNat % 4 = 0)
    (h : regAt s a off.toNat = none) (hh : hiOf s a off.toNat = some r) :
    exec (.regLoReadSnapshot a off) s = .next (respond s a (snapOf s a (off.toNat - 4) / 2 ^ 32)) := by
  rw [exec_regLoReadSnapshot, regRead_aligned s a h4, read32_hi h hh]

theorem regLoWriteHold_wide {s : State} {a : Agent} {off : BitVec 32} {r : Reg} (v : Word) (h4 : off.toNat % 4 = 0)
    (h : regAt s a off.toNat = some r) (hw : r.wide = true) (hp : r.put.isSome = true) :
    exec (.regLoWriteHold a off v) s = .next (holdLo s a off.toNat v.toNat) := by
  rw [exec_regLoWriteHold, regWrite_aligned s a _ h4, write32_wide _ h hw hp]

theorem regHiWriteCommit_hi {s : State} {a : Agent} {off : BitVec 32} {h r : Reg} {f : Nat → State} (v : Word)
    (h4 : off.toNat % 4 = 0) (hn : regAt s a off.toNat = none) (hh : hiOf s a off.toNat = some h)
    (hr : regAt (dropLo s a (off.toNat - 4)) a (off.toNat - 4) = some r) (hp : r.put = some f) :
    exec (.regHiWriteCommit a off v) s
      = .next (f ((heldOf s a (off.toNat - 4)).getD (if r.wo then 0 else r.val % 2 ^ 32) + 2 ^ 32 * v.toNat)) := by
  rw [exec_regHiWriteCommit, regWrite_aligned s a _ h4, write32_hi _ hn hh, commitHi_put _ hr hp]

theorem regHiWriteCommit_held {s : State} {a : Agent} {off : BitVec 32} {h r : Reg} {f : Nat → State} {lo : Nat}
    (v : Word) (h4 : off.toNat % 4 = 0) (hn : regAt s a off.toNat = none) (hh : hiOf s a off.toNat = some h)
    (hr : regAt (dropLo s a (off.toNat - 4)) a (off.toNat - 4) = some r) (hp : r.put = some f)
    (hl : heldOf s a (off.toNat - 4) = some lo) :
    exec (.regHiWriteCommit a off v) s = .next (f (lo + 2 ^ 32 * v.toNat)) := by
  rw [regHiWriteCommit_hi v h4 hn hh hr hp, hl, Option.getD_some]

/-- A LO write of `GCT_CMP` by a management processor is held, and the HI write sets both halves (R392). -/
theorem gctCmp_halves (s : State) {a : Agent} (lo hi : Word) (h : isMp a = true) :
    ∃ t u, exec (.regLoWriteHold a 0x5018 lo) s = .next t ∧ t.gct = s.gct
      ∧ exec (.regHiWriteCommit a 0x501C hi) t = .next u
      ∧ u.gct = { s.gct with cmp := hi ++ lo } ∧ u = { s with gct := u.gct, heldLo := u.heldLo } := by
  let t := holdLo s a 0x5018 lo.toNat
  have hcommit : exec (.regHiWriteCommit a 0x501C hi) t
      = .next (gctCmp (dropLo t a 0x5018) (lo.toNat + 2 ^ 32 * hi.toNat)) :=
    regHiWriteCommit_held hi rfl (regAt_gctCmpHi t (mgmt_of_isMp h)) (hiOf_wide (by decide) (regAt_gctCmp t h) rfl)
      (regAt_gctCmp _ h) rfl (heldOf_holdLo s a 0x5018 lo)
  refine ⟨t, _, regLoWriteHold_wide lo rfl (regAt_gctCmp s h) rfl rfl, rfl, hcommit, ?_, rfl⟩
  rw [gctCmp, ofNat_halves]
  rfl

theorem gctCmp_write64 (s : State) {a : Agent} (v : DWord) (h : isMp a = true) :
    exec (.regAtomic64Access a 0x5018 (some v)) s = .next { s with gct := { s.gct with cmp := v } } := by
  have hwrite : exec (.regAtomic64Access a 0x5018 (some v)) s = .next (write64 s a 0x5018 v.toNat) := rfl
  rw [hwrite, write64_wide _ (regAt_gctCmp s h) rfl rfl]
  simp [gctCmp]

theorem gctCount_read64 (s : State) {a : Agent} (h : mgmt a = true) :
    exec (.regAtomic64Access a 0x5000 none) s = .next (respond s a s.gct.count.toNat) := by
  have hread : exec (.regAtomic64Access a 0x5000 none) s
      = .next (respond (read64 s a 0x5000).2 a (read64 s a 0x5000).1) := rfl
  rw [hread, read64_wide (regAt_gctCount s h) rfl rfl, Nat.mod_eq_of_lt s.gct.count.isLt]

theorem regMalformedAccess_write (s : State) (a : Agent) (off : BitVec 32) (n : Nat) :
    exec (.regMalformedAccess a off n true) s = .next s := rfl

theorem regMalformedAccess_read (s : State) (a : Agent) (off : BitVec 32) (n : Nat)
    (h : ¬ ((n = 4 ∧ off.toNat % 4 = 0) ∨ (n = 8 ∧ off.toNat % 8 = 0))) :
    exec (.regMalformedAccess a off n false) s = .next (respond s a 0) := by
  have hdef : exec (.regMalformedAccess a off n false) s = execRegMalformedAccess a off n false s := rfl
  rw [hdef]
  simp only [execRegMalformedAccess, h]
  rfl

/-- Settles O28: each access form by the register that it meets, then the GCT registers, then the malformed accesses. -/
theorem registerAccessForms : Obligations.RegisterAccessForms := by
  unfold Obligations.RegisterAccessForms
  refine ⟨fun s a off r h4 => ⟨fun hr hw ht => ?_, fun hn hh => ?_, fun v hr hw hp => ?_, ?_⟩,
    fun s a lo hi v h => ⟨gctCmp_halves s lo hi h, ⟨_, gctCmp_write64 s v h, rfl⟩, ?_⟩,
    fun s a off n hbad => ?_⟩
  · exact ⟨_, regLoReadSnapshot_wide h4 hr hw ht, respond_answer .., rfl, Tbl.get_set_same ..,
      fun x hx => Tbl.get_set_other _ _ _ _ _ hx⟩
  · exact ⟨_, regLoReadSnapshot_hi h4 hn hh, rfl, (respond_answer ..).trans (ofNat_snapOf_hi ..)⟩
  · exact ⟨_, regLoWriteHold_wide v h4 hr hw hp, rfl, heldLo_holdLo_same ..,
      fun x hx => heldLo_holdLo_other _ _ _ _ hx⟩
  · intro v f h hn hh hr hp
    exact regHiWriteCommit_hi v h4 hn hh hr hp
  · exact ⟨_, gctCount_read64 s (mgmt_of_isMp h), (respond_answer ..).trans (BitVec.ofNat_toNat ..), rfl⟩
  · exact ⟨regMalformedAccess_write s a off n, _, regMalformedAccess_read s a off n hbad, rfl, respond_answer ..,
      fun b hb => respond_other s 0 hb⟩

/-! ### Writes by the agents that may make them (R15, R501, R504) -/

theorem regWrite_narrow {s : State} {a : Agent} {off : BitVec 32} {r : Reg} {f : Nat → State} (v : Word)
    (h4 : off.toNat % 4 = 0) (h : regAt s a off.toNat = some r) (hw : r.wide = false) (hp : r.put = some f) :
    exec (.regWrite a off v) s = .next (f v.toNat) := by
  rw [exec_regWrite, regWrite_aligned s a _ h4, write32_narrow _ h hw hp]

/-- A write where the agent meets no register, nor the high half of one, is ignored, aligned or not. -/
theorem regWrite_unmapped {s : State} {a : Agent} {off : BitVec 32} (v : Word) (h : regAt s a off.toNat = none)
    (hh : off.toNat % 4 = 0 → hiOf s a off.toNat = none) : exec (.regWrite a off v) s = .next s := by
  rw [exec_regWrite, regWrite]
  split
  next h4 => rw [write32_unmapped _ h (hh h4)]
  next => rfl

/-- No register of the BOOT block is 64 bits wide. -/
theorem bootReg_narrow {s : State} {a : Agent} {o : Nat} {r : Reg} (h : bootReg s a o = some r) : r.wide = false := by
  unfold bootReg at h
  split at h
  case h_1 => cases h; rfl
  case h_2 => cases h; rfl
  case h_3 =>
    split at h
    · split at h <;> cases h <;> rfl
    · cases h

/-- SMBus meets no 64-bit register (R504). -/
theorem regAt_smbus_narrow {s : State} {o : Nat} {r : Reg} (h : regAt s .smbus o = some r) : r.wide = false := by
  simp only [regAt, Option.ite_none_right_eq_some] at h
  exact bootReg_narrow h.2

theorem regAt_smbus_outside (s : State) {o : Nat} (h : ¬ (0xF000 ≤ o ∧ o < 0x10000)) : regAt s .smbus o = none :=
  if_neg h

/-- Function 0 meets no register in shuttered mode (R501). -/
theorem regAt_fn0_shuttered {s : State} (o : Nat) (h : s.boot.state = 3) : regAt s .fn0 o = none := if_pos h

theorem regWrite_smbus_outside (s : State) {off : BitVec 32} (v : Word)
    (h : ¬ (0xF000 ≤ off.toNat ∧ off.toNat < 0x10000)) : exec (.regWrite .smbus off v) s = .next s :=
  regWrite_unmapped v (regAt_smbus_outside s h) fun _ => hiOf_narrow fun _ hr => regAt_smbus_narrow hr

theorem regWrite_fn0_shuttered {s : State} (off : BitVec 32) (v : Word) (h : s.boot.state = 3) :
    exec (.regWrite .fn0 off v) s = .next s :=
  regWrite_unmapped v (regAt_fn0_shuttered _ h) fun _ => hiOf_unmapped (regAt_fn0_shuttered _ h)

/-! ### Window bindings and channel selection -/

theorem regAt_twCfg (s : State) {a : Agent} (n : Fin 16) (h : isMp a = true) :
    regAt s a (0x1000 + 4 * n.val)
      = Reg.rw ((Tbl.get 0 s.mem.twJob n.val).toNat + 2 ^ 16 * b2n (s.mem.twEn.getLsbD n.val))
          (twCfgWrite s n.val) := by
  have hlt : 4 * n.val < 0x40 ∧ 4 * n.val % 4 = 0 := by omega
  have hn : 4 * n.val / 4 = n.val := by omega
  rw [regAt_low s (b := 1) (mgmt_of_isMp h) (by decide) (by omega)]
  simp [lowBlock, memBlock, memReg, mgmt_of_isMp h, hlt, hn, h, Reg.rwIf, Reg.rw]

theorem bitAt_toNat (v : Word) (i : Nat) : bitAt v.toNat i = v.getLsbD i := by
  simp [bitAt, BitVec.getLsbD, Nat.testBit_eq_decide_div_mod_eq, beq_eq_decide]

/-- The mask of one window's bit. -/
theorem getLsbD_windowBit (n : Fin 16) (m : Nat) : (BitVec.ofNat 16 (2 ^ n.val)).getLsbD m = decide (m = n.val) := by
  rw [BitVec.getLsbD_ofNat, Nat.testBit_two_pow, Bool.eq_iff_iff]
  simp only [Bool.and_eq_true, decide_eq_true_eq]
  omega

theorem twCfgWrite_twEn (s : State) (n : Fin 16) (v m : Nat) :
    (twCfgWrite s n.val v).mem.twEn.getLsbD m = if m = n.val then bitAt v 16 else s.mem.twEn.getLsbD m := by
  simp only [twCfgWrite]
  split
  next hv =>
    rw [BitVec.getLsbD_or, getLsbD_windowBit, hv]
    by_cases hm : m = n.val <;> simp [hm]
  next hv =>
    rw [BitVec.getLsbD_and, BitVec.getLsbD_not, getLsbD_windowBit, Bool.eq_false_iff.2 hv]
    by_cases hm : m = n.val
    · simp [hm]
    · simpa [hm] using BitVec.lt_of_getLsbD

/-- A write of `MEM_TW_CFG_n` sets the job ID and the enable bit of window `n` alone. -/
theorem regWrite_twCfg (s : State) {a : Agent} (n : Fin 16) (v : Word) (h : isMp a = true) :
    exec (.regWrite a (BitVec.ofNat 32 (0x1000 + 4 * n.val)) v) s = .next (twCfgWrite s n.val v.toNat) := by
  have ho : (BitVec.ofNat 32 (0x1000 + 4 * n.val)).toNat = 0x1000 + 4 * n.val :=
    Nat.mod_eq_of_lt (by omega)
  exact regWrite_narrow v (by omega) (ho ▸ regAt_twCfg s n h) rfl rfl

theorem regAt_nmChSel (s : State) {a : Agent} (d : Fin 8) (h : mgmt a = true) :
    regAt s a (nmBase d.val)
      = Reg.rw (selOf s a (nmBase d.val)) fun v => setSel s a (nmBase d.val) (v % 128) := by
  have hdie : nmBase d.val / 0x1000 % 8 = d.val := by simp only [nmBase]; omega
  have hoff : nmBase d.val % 0x1000 = 0 := by simp only [nmBase]; omega
  have hlo : 0x58000 ≤ nmBase d.val := Nat.le_add_right ..
  have hhi : nmBase d.val < 0x60000 := by simp only [nmBase]; omega
  have hblock : regMap s a (nmBase d.val) = nmReg s a (nmBase d.val / 0x1000 % 8) (nmBase d.val % 0x1000) := by
    simp only [regMap]
    rw [if_neg (by omega), if_neg (by omega), if_neg (by omega), if_neg (by omega), if_neg (by omega), if_pos hhi]
  rw [regAt_mgmt s _ h, hblock, hdie, hoff]
  simp [nmReg, h]

theorem selectRegisterWrite_nmChSel (s : State) {a : Agent} (d : Fin 8) (v : Word) (h : mgmt a = true) :
    exec (.selectRegisterWrite a (BitVec.ofNat 32 (0x58000 + 0x1000 * d.val)) v) s
      = .next (setSel s a (nmBase d.val) (v.toNat % 128)) := by
  have ho : (BitVec.ofNat 32 (0x58000 + 0x1000 * d.val)).toNat = nmBase d.val := Nat.mod_eq_of_lt (by omega)
  have h4 : nmBase d.val % 4 = 0 := by simp only [nmBase]; omega
  rw [exec_selectRegisterWrite, ho, regWrite_aligned s a _ h4, write32_narrow _ (regAt_nmChSel s d h) rfl rfl]

/-! ### Slice registers and accounts -/

theorem exec_slcIdWrite (a : Agent) (v : Word) (s : State) :
    exec (.slcIdWrite a v) s = .next (if isMp a then slcIdWrite s v.toNat else s) := rfl

theorem exec_slcMapWrite (a : Agent) (v : Word) (s : State) :
    exec (.slcMapWrite a v) s = .next (if isMp a then slcMapWrite s v.toNat else s) := rfl

theorem slcIdWrite_drained {s : State} {a : Agent} (v : Word) (h : isMp a = true) (hd : s.slc.drained = true) :
    exec (.slcIdWrite a v) s
      = .next { s with slc := { s.slc with slice := v.setWidth 8, member := v.getLsbD 8 } } := by
  rw [exec_slcIdWrite, if_pos h, slcIdWrite, mayRewrite, if_pos hd, putSlcId, bitAt_toNat, BitVec.ofNat_toNat]

theorem slcMapWrite_drained {s : State} {a : Agent} (v : Word) (h : isMp a = true) (hd : s.slc.drained = true) :
    exec (.slcMapWrite a v) s = .next { s with slc := { s.slc with map := v.setWidth 24 } } := by
  rw [exec_slcMapWrite, if_pos h, slcMapWrite, mayRewrite, if_pos hd, putSlcMap, BitVec.ofNat_toNat]

theorem slcIdWrite_ignored {s : State} {a : Agent} (v : Word) (h : isMp a = false ∨ s.slc.drained = false) :
    exec (.slcIdWrite a v) s = .next s := by
  rw [exec_slcIdWrite]
  rcases h with h | h <;> simp [slcIdWrite, mayRewrite, h]

theorem slcMapWrite_ignored {s : State} {a : Agent} (v : Word) (h : isMp a = false ∨ s.slc.drained = false) :
    exec (.slcMapWrite a v) s = .next s := by
  rw [exec_slcMapWrite]
  rcases h with h | h <;> simp [slcMapWrite, mayRewrite, h]

theorem memAcctPeakRst_next (s : State) {a : Agent} (v : Word) (h : mgmt a = true) :
    exec (.memAcctPeakRst a v) s = .next (acctWrite s a v.toNat) := by
  have hwrite : exec (.memAcctPeakRst a v) s = .next (if mgmt a then acctWrite s a v.toNat else s) := rfl
  rw [hwrite, if_pos h]

/-- A write of `MEM_ACCT_SEL` without PEAK_RST selects alone. -/
theorem acctWrite_select (s : State) (a : Agent) {v : Nat} (h : bitAt v 12 = false) :
    acctWrite s a v = setSel s a acctSel (v % 2 ^ 12) := by
  simp [acctWrite, h]

/-- A management processor's PEAK_RST sets both peaks of the selected pair to its counts (R310). -/
theorem acctWrite_peaks (s : State) {a : Agent} {v : Nat} (ha : isMp a = true) (h : bitAt v 12 = true) :
    acctWrite s a v = { setSel s a acctSel (v % 2 ^ 12) with mem := { s.mem with
      peakNm := Tbl.set 0 s.mem.peakNm (v % 16 * 256 + v / 16 % 256) (acctCount s (v % 16) (v / 16 % 256) false)
      peakHbm := Tbl.set 0 s.mem.peakHbm (v % 16 * 256 + v / 16 % 256)
        (acctCount s (v % 16) (v / 16 % 256) true) } } := by
  rw [acctWrite, ha, h]
  rfl

/-- Settles O29: each write by the register that its agent meets, then the commands of the slice and account
registers. -/
theorem registerWritesByAgent : Obligations.RegisterWritesByAgent := by
  unfold Obligations.RegisterWritesByAgent
  refine ⟨fun s a v => ⟨fun n h => ?_, fun d h => ?_, fun off h => regWrite_smbus_outside s v h,
      fun off h => regWrite_fn0_shuttered off v h⟩,
    fun s a v => ⟨fun h hd => ⟨slcIdWrite_drained v h hd, slcMapWrite_drained v h hd⟩,
      fun h => ⟨slcIdWrite_ignored v h, slcMapWrite_ignored v h⟩, fun h hr => ?_, fun h hr => ?_⟩⟩
  · refine ⟨_, regWrite_twCfg s n v h, rfl, ?_, ?_, fun m hm => ⟨?_, ?_⟩⟩
    · simp [twCfgWrite]
    · rw [twCfgWrite_twEn, if_pos rfl, bitAt_toNat]
    · simp [twCfgWrite, hm]
    · rw [twCfgWrite_twEn, if_neg hm]
  · exact ⟨_, selectRegisterWrite_nmChSel s d v h, rfl, selOf_setSel_same s a _ (by omega),
      fun b hb => selOf_setSel_other s _ _ hb⟩
  · rw [memAcctPeakRst_next s v (mgmt_of_isMp h), acctWrite_peaks s h ((bitAt_toNat v 12).trans hr)]
    refine ⟨_, rfl, rfl, selOf_setSel_same s a _ (by omega), Tbl.get_set_same .., Tbl.get_set_same ..,
      fun x hx => ⟨Tbl.get_set_other _ _ _ _ _ hx, Tbl.get_set_other _ _ _ _ _ hx⟩⟩
  · rw [memAcctPeakRst_next s v h, acctWrite_select s a ((bitAt_toNat v 12).trans hr)]
    exact ⟨_, rfl, rfl, selOf_setSel_same s a _ (by omega), fun b hb => selOf_setSel_other s _ _ hb⟩

end Sys2Proof.Machine

namespace Sys2Proof.Machine
open Sys2Proof

/-! ### Field patches (R33–R38) -/

theorem exec_orgPatchReq {a : Agent} (v : Word) (s : State) (h : mgmt a = true) :
    exec (.orgPatchReq a v) s = .next (patchReq s v.toNat (patchTarget s v.toNat)) :=
  congrArg Host.Outcome.next (if_pos h)

theorem exec_orgPatchReqPhys {a : Agent} (v : Word) (s : State) (h : mgmt a = true) :
    exec (.orgPatchReqPhys a v) s = .next (patchReq s v.toNat (patchPhysTarget v.toNat)) :=
  congrArg Host.Outcome.next (if_pos h)

theorem exec_patchFlashWriteComplete (s : State) :
    exec .patchFlashWriteComplete s = .next { s with org := nextBookPatch (patchWritten s.org) } := rfl

/-- A request with GO whose target is a unit is the record's affair alone. -/
theorem patchReq_go (s : State) {v : Word} (u : PhysUnit) (hgo : v.getLsbD 31 = true) :
    patchReq s v.toNat (some u) = { s with org := patchUnit s.org u } :=
  if_pos ((bitAt_toNat v 31).trans hgo)

theorem patchUnit_busy {o : Org} (u : PhysUnit) (h : o.busy = true) : patchUnit o u = { o with reject := true } :=
  if_pos h

theorem patchUnit_starts {o : Org} {u : PhysUnit} (hbusy : o.busy = false) (hnew : u ∉ o.recorded) (hroom : o.size < 64) :
    patchUnit o u = { o with busy := true, writing := some u } := by
  simp [patchUnit, hbusy, hnew, Nat.not_le.2 hroom]

theorem nextBookPatch_none {o : Org} (h : o.bookPatches = []) : nextBookPatch o = o := by
  rw [nextBookPatch, h]

/-- Copy 1 is in use only where its checksum holds (R35). -/
theorem Org.copy1_good {o : Org} (h : o.newest = true) : o.copy1.good = true := by
  cases hgood : o.copy1.good
  · simp [newest, hgood] at h
  · rfl

/-- The copy that a write leaves is the one in use from then on (R35): its checksum holds, and its sequence number is
higher than that of the copy it stands beside. -/
theorem Org.copy_putCopy {o : Org} {c : PatchCopy} (hgood : c.good = true) (hseq : o.copy.seq < c.seq) :
    (o.putCopy c).copy = c := by
  cases hnew : o.newest
  · have hput : o.putCopy c = { o with copy1 := c } := by rw [putCopy, hnew]; rfl
    rw [copy, hnew] at hseq
    simpa [hput, copy, newest, hgood] using fun _ h => absurd hseq (Nat.not_lt.2 h)
  · have hput : o.putCopy c = { o with copy0 := c } := by rw [putCopy, hnew]; rfl
    rw [copy, hnew] at hseq
    simpa [hput, copy, newest, hgood, copy1_good hnew] using fun h => absurd hseq h.asymm

/-- The record with the unit of the request, in place of the older copy. -/
theorem patchWritten_writing {o : Org} {u : PhysUnit} (hbusy : o.busy = true) (hw : o.writing = some u) :
    patchWritten o
      = { o.putCopy { o.copy with seq := o.copy.seq + 1, good := true, entries := o.copy.entries ++ [u] } with
          busy := false, done := true, pending := true, writing := none } := by
  simp only [patchWritten, hbusy, hw, if_true]

theorem Org.putCopy_bookPatches (o : Org) (c : PatchCopy) : (o.putCopy c).bookPatches = o.bookPatches := by
  unfold putCopy
  split <;> rfl

theorem Org.putCopy_inForce (o : Org) (c : PatchCopy) : (o.putCopy c).inForce = o.inForce := by
  unfold putCopy
  split <;> rfl

theorem patchWritten_entries {o : Org} {u : PhysUnit} (hbusy : o.busy = true) (hw : o.writing = some u) :
    (patchWritten o).copy.entries = o.copy.entries ++ [u] := by
  rw [patchWritten_writing hbusy hw]
  exact congrArg PatchCopy.entries (Org.copy_putCopy rfl (Nat.lt_succ_self _))

/-- A request that names a unit, in either form, starts that unit's write, or is rejected while one is under way. -/
theorem patchReq_asks (s : State) {c : Instr} {v : Word} {u : PhysUnit} (hgo : v.getLsbD 31 = true)
    (hc : exec c s = .next (patchReq s v.toNat (some u))) :
    (s.org.busy = false → u ∉ s.org.recorded → s.org.size < 64 →
      exec c s = .next { s with org := { s.org with busy := true, writing := some u } })
    ∧ (s.org.busy = true → exec c s = .next { s with org := { s.org with reject := true } }) := by
  rw [hc, patchReq_go s u hgo]
  exact ⟨fun hbusy hnew hroom => by rw [patchUnit_starts hbusy hnew hroom], fun hbusy => by rw [patchUnit_busy u hbusy]⟩

/-- Settles O30: both forms of a request are `patchUnit` of its target, and the end of the write is `patchWritten`. -/
theorem fieldPatchRequests : Obligations.FieldPatchRequests := by
  unfold Obligations.FieldPatchRequests
  intro s a v u ha hgo
  refine ⟨fun ht => ?_, fun ht => ?_, fun hbusy hw hbook => ?_⟩
  · exact patchReq_asks s hgo (ht ▸ exec_orgPatchReq v s ha)
  · exact patchReq_asks s hgo (ht ▸ exec_orgPatchReqPhys v s ha)
  · have hnext : nextBookPatch (patchWritten s.org) = patchWritten s.org := nextBookPatch_none <| by
      rw [patchWritten_writing hbusy hw]
      exact (Org.putCopy_bookPatches ..).trans hbook
    rw [exec_patchFlashWriteComplete, hnext]
    refine ⟨_, rfl, rfl, patchWritten_entries hbusy hw, ?_⟩
    rw [patchWritten_writing hbusy hw]
    exact ⟨rfl, rfl, rfl, Org.putCopy_inForce ..⟩

/-! ### One direction of a die-to-die link -/

@[simp] theorem wayOf_updWay_same (s : State) (k : Nat) (up : Bool) (f : D2dWay → D2dWay) :
    wayOf (updWay s k up f) k up = f (wayOf s k up) := by
  cases up <;> simp [wayOf, updWay, upd]

@[simp] theorem wayOf_updWay_opposite (s : State) (k : Nat) (up : Bool) (f : D2dWay → D2dWay) :
    wayOf (updWay s k up f) k (!up) = wayOf s k (!up) := by
  cases up <;> simp [wayOf, updWay, upd]

theorem get_updWay_other (s : State) {k m : Nat} (up : Bool) (f : D2dWay → D2dWay) (h : m ≠ k) :
    Tbl.get {} (updWay s k up f).d2d m = Tbl.get {} s.d2d m :=
  Tbl.get_set_other _ _ _ _ _ h

/-- An update is what it makes of the direction as it stands. -/
theorem updWay_congr (s : State) (k : Nat) (up : Bool) {f g : D2dWay → D2dWay} (h : f (wayOf s k up) = g (wayOf s k up)) :
    updWay s k up f = updWay s k up g := by
  cases up <;> simp_all [updWay, upd, wayOf]

/-- With no frame waiting for room nothing more is sent. -/
theorem sendFrames_idle {s : State} {k : Nat} {up : Bool} (h : (wayOf s k up).queue = []) :
    sendFrames s k up = updWay s k up id := by
  have hsend : sendFrames s k up = updWay s k up fun w => { w with queue := w.queue.drop (64 - w.sent.length) } := by
    simp [sendFrames, h]
  refine hsend.trans (updWay_congr s k up ?_)
  rw [h, List.drop_nil, ← h]
  rfl

/-- The flits of a frame's packet that have been received, with the frame's own. -/
def flitsWith (w : D2dWay) (f : D2dFrame) : List Flit :=
  Tbl.get [] w.part (frameVc f.bytes) ++ [{ dataFlit ((f.bytes.drop 4).take 64) with time := f.time }]

/-- A frame that does not end its packet is kept with the part of the packet received so far. -/
theorem frameIn_body (s : State) (k : Nat) (up : Bool) {f : D2dFrame}
    (h : (dataFlit ((f.bytes.drop 4).take 64)).tail = false) :
    frameIn s k up f = updWay s k up fun w =>
      { w with part := Tbl.set [] w.part (frameVc f.bytes) (flitsWith (wayOf s k up) f) } := by
  simp only [frameIn, flitsWith, h, Bool.false_eq_true, if_false]

/-- The frame that ends a packet hands the packet over at a base die. -/
theorem frameIn_tail (s : State) {k : Nat} {up : Bool} {f : D2dFrame} (hend : wayEnd k up ≠ 8)
    (h : (dataFlit ((f.bytes.drop 4).take 64)).tail = true) :
    frameIn s k up f = atTarget (updWay s k up fun w => { w with part := Tbl.set [] w.part (frameVc f.bytes) [] }) f.link
      (packetOf (flitsWith (wayOf s k up) f)) := by
  simp only [frameIn, flitsWith, h, hend, if_true, if_false]

@[simp] theorem wayOf_atTarget (s : State) (l : Nat) (p : Packet) (k : Nat) (up : Bool) :
    wayOf (atTarget s l p) k up = wayOf s k up := rfl

@[simp] theorem wayOf_setOut (s : State) (o : List Out) (k : Nat) (up : Bool) :
    wayOf { s with out := o } k up = wayOf s k up := rfl

/-! ### What the arrival of a frame does (R24) -/

section
variable {s : State} {l : Fin 16} {up : Bool} {frame : List Byte}

theorem exec_d2dFrameReceive : exec (.d2dFrameReceive l up frame) s = execD2dFrameReceive l up frame s := rfl

/-- A good frame for which the sender holds none is delivered. -/
theorem d2dFrameReceive_unsent (hgood : frameGood frame = true) (hsent : (wayOf s l.val up).sent = []) :
    exec (.d2dFrameReceive l up frame) s = .next (updWay s l.val up (frameDelivered · frame)) := by
  rw [exec_d2dFrameReceive]
  simp only [execD2dFrameReceive, hgood, hsent, if_true]

/-- The sender's oldest frame leaves its buffer and is delivered, and its flit reaches the packet it belongs to. -/
theorem d2dFrameReceive_oldest {f : D2dFrame} {rest : List D2dFrame} (hgood : frameGood f.bytes = true)
    (hsent : (wayOf s l.val up).sent = f :: rest) :
    exec (.d2dFrameReceive l up f.bytes) s = .next (sendFrames (frameIn
      (updWay s l.val up fun w => { frameDelivered w f.bytes with sent := rest }) l.val up f) l.val up) := by
  rw [exec_d2dFrameReceive]
  simp only [execD2dFrameReceive, hgood, hsent, if_true]

/-- A good frame out of its turn is dropped during a replay, and where the sender holds it behind another. -/
theorem d2dFrameReceive_dropped {f : D2dFrame} {rest : List D2dFrame} (hgood : frameGood frame = true)
    (hsent : (wayOf s l.val up).sent = f :: rest) (hne : frame ≠ f.bytes)
    (h : (wayOf s l.val up).replaying = true ∨ ∃ g ∈ rest, g.bytes = frame) :
    exec (.d2dFrameReceive l up frame) s = .next s := by
  rw [exec_d2dFrameReceive]
  have hdrop : ((wayOf s l.val up).replaying || rest.any (·.bytes == frame)) = true := by simpa using h
  simp only [execD2dFrameReceive, hgood, hsent, hne, hdrop, if_true, if_false]

/-- A good frame that the sender does not hold is delivered where no replay is awaited. -/
theorem d2dFrameReceive_unheld {f : D2dFrame} {rest : List D2dFrame} (hgood : frameGood frame = true)
    (hsent : (wayOf s l.val up).sent = f :: rest) (hne : frame ≠ f.bytes)
    (hreplay : (wayOf s l.val up).replaying = false) (hrest : ∀ g ∈ rest, g.bytes ≠ frame) :
    exec (.d2dFrameReceive l up frame) s = .next (updWay s l.val up (frameDelivered · frame)) := by
  rw [exec_d2dFrameReceive]
  have hkeep : ((wayOf s l.val up).replaying || rest.any (·.bytes == frame)) = false := by simpa [hreplay] using hrest
  simp only [execD2dFrameReceive, hgood, hsent, hne, hkeep, Bool.false_eq_true, if_true, if_false]

/-- A frame that fails its CRC is counted, its replay is requested, and every frame of the sender's buffer goes again. -/
theorem d2dFrameReceive_failed (hbad : frameGood frame = false) :
    exec (.d2dFrameReceive l up frame) s = .next
      { updWay s l.val up fun w => { w with replaying := true, replays := w.replays + 1 } with
        out := s.out ++ .d2dReplay l.val up :: (wayOf s l.val up).sent.map fun f => .d2dFrame l.val up f.bytes } := by
  rw [exec_d2dFrameReceive]
  simp only [execD2dFrameReceive, hbad, Bool.false_eq_true, if_false]
  rfl

/-- Where no frame waits for room, the arrival of the oldest frame, one within its packet, is three updates of its
direction: it is delivered, its flit joins the packet's, and nothing more is sent. -/
theorem d2dFrameReceive_body {f : D2dFrame} {rest : List D2dFrame} (hgood : frameGood f.bytes = true)
    (hsent : (wayOf s l.val up).sent = f :: rest) (hqueue : (wayOf s l.val up).queue = [])
    (htail : (dataFlit ((f.bytes.drop 4).take 64)).tail = false) :
    ∃ t, exec (.d2dFrameReceive l up f.bytes) s = .next t ∧ t = { s with d2d := t.d2d }
      ∧ (∀ m, m ≠ l.val → Tbl.get {} t.d2d m = Tbl.get {} s.d2d m) ∧ (wayOf t l.val up).sent = rest
      ∧ (wayOf t l.val up).got = (frameDelivered (wayOf s l.val up) f.bytes).got
      ∧ (wayOf t l.val up).replaying = false := by
  rw [d2dFrameReceive_oldest hgood hsent, frameIn_body _ _ _ htail, sendFrames_idle]
  · refine ⟨_, rfl, rfl, fun m hm => ?_, ?_⟩
    · simp only [get_updWay_other _ _ _ hm]
    · simp [frameDelivered]
  · simpa [frameDelivered] using hqueue

/-- Where the oldest frame ends a packet for a base die, the packet of all its flits arrives there. -/
theorem d2dFrameReceive_tail {f : D2dFrame} {rest : List D2dFrame} (hgood : frameGood f.bytes = true)
    (hsent : (wayOf s l.val up).sent = f :: rest) (hqueue : (wayOf s l.val up).queue = [])
    (htail : (dataFlit ((f.bytes.drop 4).take 64)).tail = true) (hend : wayEnd l.val up ≠ 8) :
    ∃ t, exec (.d2dFrameReceive l up f.bytes) s = .next t ∧ (wayOf t l.val up).sent = rest
      ∧ t.tl.arrived = s.tl.arrived ++ [(f.link, packetOf (flitsWith (wayOf s l.val up) f))] := by
  rw [d2dFrameReceive_oldest hgood hsent, frameIn_tail _ hend htail, sendFrames_idle]
  · refine ⟨_, rfl, ?_, ?_⟩
    · simp
    · simp only [wayOf_updWay_same]
      rfl
  · simpa [frameDelivered] using hqueue

end

/-! ### The dies of Table 1.2 -/

/-- Two base dies are joined by a partner link, by a corner link, or by their spokes; Table 1.2 is read off for all 64
pairs. -/
theorem packagePath_dies : ∀ a c : Die, a ≠ c → packagePath a.val c.val
    = if c.val = (a.val + 4) % 8 then [(a.val % 4, decide (a.val < 4))]
      else if 4 ≤ a.val ∧ c.val = (a.val + 1) % 4 then [(a.val, true)]
      else if 4 ≤ c.val ∧ a.val = (c.val + 1) % 4 then [(c.val, false)]
      else [(8 + a.val, true), (8 + c.val, false)] := by
  decide

/-! ### A failed UCIe module (R25) -/

/-- Module `m` of a link runs at x8 from now on, or is disabled. -/
def degradeModule (m : Nat) (x8 : Bool) (l : D2d) : D2d :=
  if x8 then { l with half := l.half ||| BitVec.ofNat 8 (2 ^ m) }
  else { l with off := l.off ||| BitVec.ofNat 8 (2 ^ m), half := l.half &&& ~~~BitVec.ofNat 8 (2 ^ m) }

theorem getLsbD_moduleBit (m : Fin 8) : (BitVec.ofNat 8 (2 ^ m.val)).getLsbD m.val = true := by
  rw [BitVec.getLsbD_ofNat, Nat.testBit_two_pow_self, Bool.and_true, decide_eq_true m.isLt]

theorem degradeModule_x8 (m : Fin 8) (l : D2d) :
    (degradeModule m.val true l).half.getLsbD m.val = true ∧ (degradeModule m.val true l).off = l.off := by
  refine ⟨?_, rfl⟩
  simp only [degradeModule, if_true, BitVec.getLsbD_or, getLsbD_moduleBit, Bool.or_true]

theorem degradeModule_disabled (m : Fin 8) (l : D2d) :
    (degradeModule m.val false l).off.getLsbD m.val = true ∧ (degradeModule m.val false l).half.getLsbD m.val = false := by
  simp only [degradeModule, Bool.false_eq_true, if_false, BitVec.getLsbD_or, BitVec.getLsbD_and, BitVec.getLsbD_not,
    getLsbD_moduleBit, Bool.or_true, Bool.not_true, Bool.and_false, and_self]

theorem degradeModule_ways (m : Nat) (x8 : Bool) (l : D2d) :
    (degradeModule m x8 l).up = l.up ∧ (degradeModule m x8 l).down = l.down := by
  cases x8 <;> exact ⟨rfl, rfl⟩

theorem d2dLaneFailure_working {s : State} {l : Fin 16} {m : Fin 8} (x8 : Bool) (hm : m.val < d2dModules l.val)
    (hon : (Tbl.get {} s.d2d l.val).off.getLsbD m.val = false) :
    exec (.d2dLaneFailure l m x8) s = .next (corrected { s with d2d := upd {} s.d2d l.val (degradeModule m.val x8) }
      (srcUnit (d2dDie l.val) unitD2d) (l.val + 16 * m.val + 2 ^ 8 * b2n x8)) := by
  change execD2dLaneFailure l m x8 s = _
  simp only [execD2dLaneFailure, hm, hon, Bool.not_false, decide_true, Bool.and_self, if_true]
  rfl

/-- A report of class CORRECTED sets its source's latch. -/
theorem corrected_latch (s : State) (src detail : Nat) : 0x48 ∈ (corrected s src detail).irq.latch :=
  raise_latch s _ rfl (show evCorrected ≠ evGctStep by decide)

theorem corrected_d2d (s : State) (src detail : Nat) : (corrected s src detail).d2d = s.d2d :=
  (corrected_frame ..).d2d

/-- Settles O31: the arrival of a frame by the sender's buffer and the frame's check, then the paths, then a failed
module. -/
theorem dieToDieLinks : Obligations.DieToDieLinks := by
  unfold Obligations.DieToDieLinks
  intro s l up frame
  refine ⟨fun hgood => ⟨fun hsent => ?_, fun f rest hsent hf hq htail => ?_, fun f rest hsent hf hq htail hend => ?_,
      fun f rest hsent hne => ⟨d2dFrameReceive_dropped hgood hsent hne, fun hreplay hrest => ?_⟩⟩,
    fun hbad => ?_, packagePath_dies, fun m x8 hm hon => ?_⟩
  · exact ⟨_, d2dFrameReceive_unsent hgood hsent, rfl, fun m hm => get_updWay_other _ _ _ hm, wayOf_updWay_same ..,
      wayOf_updWay_opposite ..⟩
  · subst hf
    exact d2dFrameReceive_body hgood hsent hq htail
  · subst hf
    exact d2dFrameReceive_tail hgood hsent hq htail hend
  · exact ⟨_, d2dFrameReceive_unheld hgood hsent hne hreplay hrest, rfl, fun m hm => get_updWay_other _ _ _ hm,
      wayOf_updWay_same ..⟩
  · exact ⟨_, d2dFrameReceive_failed hbad, fun m hm => Tbl.get_set_other _ _ _ _ _ hm, rfl, by
      rw [wayOf_setOut, wayOf_updWay_same]⟩
  · refine ⟨_, d2dLaneFailure_working x8 hm hon, ?_⟩
    simp only [corrected_d2d, upd, Tbl.get_set_same]
    refine ⟨fun n hn => Tbl.get_set_other _ _ _ _ _ hn, ?_, ?_, (degradeModule_ways ..).1, (degradeModule_ways ..).2,
      corrected_latch ..⟩
    · rintro rfl
      exact degradeModule_x8 m _
    · rintro rfl
      exact degradeModule_disabled m _

end Sys2Proof.Machine

namespace Sys2Proof.Machine
open Sys2Proof

/-! ### A core, its arrays and their columns after a change -/

@[simp] theorem State.coreOf_updCoreOf_same (s : State) (q c : Nat) (f : CoreSt → CoreSt) :
    (s.updCoreOf q c f).coreOf q c = f (s.coreOf q c) := by
  simp [State.coreOf, State.updCoreOf]

/-- A change of one core is a change of that core only. -/
theorem updCoreOf_only (s : State) (q c : Nat) (f : CoreSt → CoreSt) : OnlyCore s (s.updCoreOf q c f) q c := by
  refine ⟨updClu_only .., ?_, fun d hd => ?_⟩
  · simp only [State.updCoreOf, State.clu_updClu_same]
    rfl
  · simp only [State.coreOf, State.updCoreOf, State.clu_updClu_same]
    exact Cluster.coreAt_updCore_other _ _ _ _ hd

theorem OnlyCore.refl (s : State) (q c : Nat) : OnlyCore s s q c :=
  ⟨⟨rfl, fun _ _ => rfl⟩, rfl, fun _ _ => rfl⟩

theorem OnlyCore.trans {s t u : State} {q c : Nat} (h : OnlyCore s t q c) (k : OnlyCore t u q c) : OnlyCore s u q c := by
  obtain ⟨hclu, hcore, hother⟩ := h
  obtain ⟨kclu, kcore, kother⟩ := k
  refine ⟨hclu.trans kclu, ?_, fun d hd => (kother d hd).trans (hother d hd)⟩
  rw [kcore, hcore]

@[simp] theorem CoreSt.arr_setArr_same (k : CoreSt) (a : Nat) (v : Arr) : (k.setArr a v).arr a = v := by
  simp only [CoreSt.setArr]
  split <;> simp_all [CoreSt.arr]

@[simp] theorem CoreSt.setArr_pad (k : CoreSt) (a : Nat) (v : Arr) : (k.setArr a v).pad = k.pad := by
  simp only [CoreSt.setArr]
  split <;> rfl

@[simp] theorem CoreSt.setArr_aq (k : CoreSt) (a : Nat) (v : Arr) : (k.setArr a v).aq = k.aq := by
  simp only [CoreSt.setArr]
  split <;> rfl

@[simp] theorem CoreSt.setArr_numf (k : CoreSt) (a : Nat) (v : Arr) : (k.setArr a v).numf = k.numf := by
  simp only [CoreSt.setArr]
  split <;> rfl

@[simp] theorem CoreSt.setQueue_pad (k : CoreSt) (e : Engine) (l : List EInst) : (k.setQueue e l).pad = k.pad := by
  cases e <;> rfl

@[simp] theorem CoreSt.setQueue_arr (k : CoreSt) (e : Engine) (l : List EInst) (a : Nat) :
    (k.setQueue e l).arr a = k.arr a := by
  cases e <;> rfl

@[simp] theorem putInst_pad (k : CoreSt) (e : Engine) (i : EInst) : (putInst k e i).pad = k.pad := CoreSt.setQueue_pad ..

@[simp] theorem putInst_arr (k : CoreSt) (e : Engine) (i : EInst) (a : Nat) : (putInst k e i).arr a = k.arr a :=
  CoreSt.setQueue_arr ..

@[simp] theorem State.coreOf_updArr_same (s : State) (q c a : Nat) (f : Arr → Arr) :
    (s.updArr q c a f).coreOf q c = (s.coreOf q c).setArr a (f (s.arrOf q c a)) :=
  State.coreOf_updCoreOf_same ..

@[simp] theorem State.arrOf_updArr_same (s : State) (q c a : Nat) (f : Arr → Arr) :
    (s.updArr q c a f).arrOf q c a = f (s.arrOf q c a) := by
  rw [State.arrOf, State.coreOf_updArr_same, CoreSt.arr_setArr_same]

@[simp] theorem State.updArr_mem (s : State) (q c a : Nat) (f : Arr → Arr) : (s.updArr q c a f).mem = s.mem := rfl

theorem updArr_only (s : State) (q c a : Nat) (f : Arr → Arr) : OnlyCore s (s.updArr q c a f) q c := updCoreOf_only ..

@[simp] theorem Arr.lat_setLat_same (r : Arr) (c : Nat) (v : Latch) : (r.setLat c v).lat c = v := by
  simp only [Arr.setLat]
  split <;> simp_all [Arr.lat]

@[simp] theorem Arr.updJob_lat (r : Arr) (id : Nat) (f : AJob → AJob) (c : Nat) : (r.updJob id f).lat c = r.lat c := rfl
@[simp] theorem Arr.updJob_col (r : Arr) (id : Nat) (f : AJob → AJob) (c : Nat) : (r.updJob id f).col c = r.col c := rfl
@[simp] theorem pruneJobs_lat (k : CoreSt) (r : Arr) (c : Nat) : (pruneJobs k r).lat c = r.lat c := rfl
@[simp] theorem pruneJobs_col (k : CoreSt) (r : Arr) (c : Nat) : (pruneJobs k r).col c = r.col c := rfl

theorem mem_jobs_of_pruneJobs {k : CoreSt} {r : Arr} {x : AJob} (h : x ∈ (pruneJobs k r).jobs) : x ∈ r.jobs :=
  List.mem_of_mem_filter h

theorem Arr.col_updCols (r : Arr) (f : Nat → Column → Column) {c : Nat} (h : c < 4) :
    (r.updCols f).col c = f c (r.col c) :=
  match c, h with
  | 0, _ | 1, _ | 2, _ | 3, _ => rfl

/-- The job of a number, after a change of that number's job, is a changed job of it. -/
theorem Arr.mem_updJob {r : Arr} {id : Nat} {f : AJob → AJob} {x : AJob}
    (h : x ∈ (r.updJob id f).jobs) (hx : x.id = id) : ∃ y ∈ r.jobs, y.id = id ∧ x = f y := by
  obtain ⟨y, hy, rfl⟩ := List.mem_map.1 h
  by_cases hid : y.id = id
  · exact ⟨y, hy, hid, if_pos hid⟩
  · rw [if_neg hid] at hx
    exact absurd hx hid

theorem EventFrame.coreOf {s t : State} (h : EventFrame s t) (q c : Nat) : t.coreOf q c = s.coreOf q c := by
  rw [State.coreOf, State.clu, h.cl]
  rfl

theorem EventFrame.arrOf {s t : State} (h : EventFrame s t) (q c a : Nat) : t.arrOf q c a = s.arrOf q c a :=
  congrArg (CoreSt.arr · a) (h.coreOf q c)

@[simp] theorem pruneArr_mem (s : State) (q c a : Nat) : (pruneArr s q c a).mem = s.mem := rfl

theorem coreOf_pruneArr (s : State) (q c a : Nat) :
    (pruneArr s q c a).coreOf q c = (s.coreOf q c).setArr a (pruneJobs (s.coreOf q c) (s.arrOf q c a)) :=
  State.coreOf_updArr_same ..

theorem arrOf_pruneArr (s : State) (q c a : Nat) :
    (pruneArr s q c a).arrOf q c a = pruneJobs (s.coreOf q c) (s.arrOf q c a) :=
  State.arrOf_updArr_same ..

/-! ### Bytes of a scratchpad -/

@[simp] theorem leBytes_length (n v : Nat) : (leBytes n v).length = n := by
  induction n generalizing v with
  | zero => rfl
  | succ n ih => exact congrArg (· + 1) (ih _)

theorem padBytes_add (k : CoreSt) (a m n : Nat) : padBytes k a (m + n) = padBytes k a m ++ padBytes k (a + m) n := by
  simp [padBytes, List.range_add, Nat.add_assoc]

/-- A run of bytes that has been put reads back. -/
theorem padBytes_put {k : CoreSt} {p : Tbl Byte} {a : Nat} {b : List Byte} (h : k.pad = tblPutSector p a b) :
    padBytes k a b.length = b := by
  refine List.ext_getElem (by simp [padBytes]) fun i _ hi => ?_
  simp only [padBytes, List.getElem_map, List.getElem_range, h, tblPutSector_same p a b i hi]
  exact (List.getElem_eq_getD _).symm

/-- Two runs put one after the other are one run. -/
theorem tblPutSector_append (t : Tbl Byte) (a : Nat) (b d : List Byte) :
    tblPutSector (tblPutSector t a b) (a + b.length) d = tblPutSector t a (b ++ d) := by
  simp only [tblPutSector, List.length_append, List.range_add, List.foldl_append, List.foldl_map]
  have hfst : ∀ (t : Tbl Byte), ∀ i ∈ List.range b.length,
      Tbl.set 0 t (a + i) (byteAt b i) = Tbl.set 0 t (a + i) (byteAt (b ++ d) i) := fun t i hi => by
    rw [byteAt, byteAt, List.getD_append _ _ _ _ (List.mem_range.1 hi)]
  rw [List.foldl_ext _ _ _ hfst]
  refine List.foldl_ext _ _ _ fun t i _ => ?_
  rw [byteAt, byteAt, List.getD_append_right _ _ _ _ (Nat.le_add_right ..), Nat.add_sub_cancel_left, Nat.add_assoc]

/-! ### Accesses of an engine with no injection armed (R129, R152) -/

/-- An access that does not fail lies at no negative address. -/
theorem nonneg_of_accessFault {mask : DWord} {a : Int} {n : Nat} (h : accessFault mask a n = 0) : 0 ≤ a := by
  by_contra hneg
  simp only [accessFault, Int.not_le.1 hneg, true_or, if_true] at h
  split at h <;> cases h

theorem toNat_add_32 {mask : DWord} {a : Int} {n : Nat} (h : accessFault mask a n = 0) :
    (a + 32).toNat = a.toNat + 32 := by
  have := nonneg_of_accessFault h
  omega

theorem injectedFault_quiet {s : State} (h : s.guard.armed = []) (q c : Nat) : injectedFault s q c = none := by
  simp [injectedFault, takeInject_quiet h]

theorem accessEvent_guard (s : State) (q c fault : Nat) (a : Int) (st : Bool) :
    (accessEvent s q c fault a st).guard = s.guard := (raiseCore_frame ..).guard

theorem accessEvent_mem (s : State) (q c fault : Nat) (a : Int) (st : Bool) :
    (accessEvent s q c fault a st).mem = s.mem := (raiseCore_frame ..).mem

theorem accessEvent_coreOf (s : State) (q c fault : Nat) (a : Int) (st : Bool) :
    (accessEvent s q c fault a st).coreOf q c = s.coreOf q c := by
  refine ((raiseCore_frame ..).coreOf q c).trans ?_
  rw [State.coreOf, State.clu_updClu_same]
  rfl

/-- A performed write of one sector puts the bytes, and the instruction with what it has covered. -/
theorem writePiece_done {s : State} (h : s.guard.armed = []) {q c : Nat} {e : Engine} {i : EInst} {a : Int}
    {b : List Byte} {st : Bool} (hf : accessFault i.wmask a b.length = 0) :
    writePiece s q c e i a b st = (s.updCoreOf q c fun _ => putInst (coverPut (s.coreOf q c) i a.toNat b st).1 e
      (coverPut (s.coreOf q c) i a.toNat b st).2, (coverPut (s.coreOf q c) i a.toNat b st).2) := by
  simp only [writePiece, injectedFault_quiet h, hf]

/-- A write that fails is recorded and nothing else. -/
theorem writePiece_failed {s : State} (h : s.guard.armed = []) {q c : Nat} {e : Engine} {i : EInst} {a : Int}
    {b : List Byte} {st : Bool} (hf : accessFault i.wmask a b.length ≠ 0) :
    writePiece s q c e i a b st = (accessEvent s q c (accessFault i.wmask a b.length) a st, i) := by
  simp only [writePiece, injectedFault_quiet h]

/-- A performed read of one sector gives its bytes and its stain, and changes nothing. -/
theorem readPiece_done {s : State} (h : s.guard.armed = []) {q c : Nat} {i : EInst} {a : Int} {n : Nat}
    (hf : accessFault i.rmask a n = 0) :
    readPiece s q c i a n = (s, padBytes (s.coreOf q c) a.toNat n, padRangeStained (s.coreOf q c) a.toNat n) := by
  simp only [readPiece, injectedFault_quiet h, hf, sramMeet_quiet h]

/-- The same of a record of two sectors. -/
theorem readElem_record {s : State} (h : s.guard.armed = []) {q c : Nat} {i : EInst} {a : Int}
    (hlo : accessFault i.rmask a 32 = 0) (hhi : accessFault i.rmask (a + 32) 32 = 0) :
    readElem s q c i a 64 = (s, padBytes (s.coreOf q c) a.toNat 64,
      padRangeStained (s.coreOf q c) a.toNat 32 || padRangeStained (s.coreOf q c) (a.toNat + 32) 32) := by
  simp [readElem, hlo, readPiece_done h hlo, readPiece_done h hhi, toNat_add_32 hlo, padBytes_add _ _ 32 32]

/-! ### What an engine's write leaves alone -/

/-- From one state and instruction to the next only scratchpad bytes, the instructions of the queues and what events change
differ: injections, memory and the core's arrays stay, and the instruction but for what it has covered and whether it
halts. -/
structure WriteFrame (q c : Nat) (x y : State × EInst) : Prop where
  mem : y.1.mem = x.1.mem
  guard : y.1.guard = x.1.guard
  arrOf : ∀ a, y.1.arrOf q c a = x.1.arrOf q c a
  inst : y.2 = { x.2 with cover := y.2.cover, halted := y.2.halted }

theorem WriteFrame.refl (q c : Nat) (x : State × EInst) : WriteFrame q c x x := ⟨rfl, rfl, fun _ => rfl, rfl⟩

theorem WriteFrame.trans {q c : Nat} {x y z : State × EInst} (h : WriteFrame q c x y) (k : WriteFrame q c y z) :
    WriteFrame q c x z :=
  ⟨k.mem.trans h.mem, k.guard.trans h.guard, fun a => (k.arrOf a).trans (h.arrOf a), by rw [k.inst, h.inst]⟩

theorem WriteFrame.wmask {q c : Nat} {x y : State × EInst} (h : WriteFrame q c x y) : y.2.wmask = x.2.wmask := by
  rw [h.inst]

theorem WriteFrame.eAddr {q c : Nat} {x y : State × EInst} (h : WriteFrame q c x y) (slot core n : Nat) :
    Machine.eAddr y.2 slot core n = Machine.eAddr x.2 slot core n := by
  rw [h.inst]
  rfl

theorem WriteFrame.quiet {q c : Nat} {x y : State × EInst} (h : WriteFrame q c x y) (hx : x.1.guard.armed = []) :
    y.1.guard.armed = [] := by rw [h.guard, hx]

/-- Steps that each keep the frame while no injection is armed keep it together. -/
theorem WriteFrame.foldl {q c : Nat} {β : Type} {f : State × EInst → β → State × EInst}
    (hf : ∀ x b, x.1.guard.armed = [] → WriteFrame q c x (f x b)) (l : List β) {x : State × EInst}
    (hx : x.1.guard.armed = []) : WriteFrame q c x (l.foldl f x) := by
  induction l generalizing x with
  | nil => exact .refl q c x
  | cons b l ih => exact (hf x b hx).trans (ih ((hf x b hx).quiet hx))

theorem accessEvent_writeFrame (s : State) (q c fault : Nat) (i : EInst) (a : Int) (st : Bool) :
    WriteFrame q c (s, i) (accessEvent s q c fault a st, i) :=
  ⟨accessEvent_mem .., accessEvent_guard .., fun b => congrArg (CoreSt.arr · b) (accessEvent_coreOf ..), rfl⟩

theorem writePiece_frame {s : State} (h : s.guard.armed = []) (q c : Nat) (e : Engine) (i : EInst) (a : Int)
    (b : List Byte) (st : Bool) : WriteFrame q c (s, i) (writePiece s q c e i a b st) := by
  by_cases hf : accessFault i.wmask a b.length = 0
  · rw [writePiece_done h hf]
    refine ⟨rfl, rfl, fun x => ?_, rfl⟩
    rw [State.arrOf, State.coreOf_updCoreOf_same, putInst_arr]
    rfl
  · rw [writePiece_failed h hf]
    exact accessEvent_writeFrame ..

theorem writeElem_frame {s : State} (h : s.guard.armed = []) (q c : Nat) (e : Engine) (i : EInst) (a : Int)
    (b : List Byte) (st : Bool) : WriteFrame q c (s, i) (writeElem s q c e i a b st) := by
  simp only [writeElem]
  split
  · exact writePiece_frame h ..
  · split
    · exact accessEvent_writeFrame ..
    · have hlo := writePiece_frame h q c e i a (b.take 32) st
      exact hlo.trans (writePiece_frame (hlo.quiet h) ..)

theorem writeElem_piece (s : State) (q c : Nat) (e : Engine) (i : EInst) (a : Int) {b : List Byte} (st : Bool)
    (h : b.length ≤ 32) : writeElem s q c e i a b st = writePiece s q c e i a b st := if_pos h

theorem putInst_writeFrame (s : State) (q c : Nat) (e : Engine) {i j : EInst}
    (h : j = { i with cover := j.cover, halted := j.halted }) :
    WriteFrame q c (s, i) (s.putInst q c e j, j) :=
  ⟨rfl, rfl, fun a => by rw [State.arrOf, State.putInst, State.coreOf_updCoreOf_same, putInst_arr]; rfl, h⟩

theorem writePiece_pad {s : State} (h : s.guard.armed = []) {q c : Nat} (e : Engine) {i : EInst} {a : Int}
    {b : List Byte} (st : Bool) (hf : accessFault i.wmask a b.length = 0) :
    ((writePiece s q c e i a b st).1.coreOf q c).pad = tblPutSector (s.coreOf q c).pad a.toNat b := by
  rw [writePiece_done h hf, State.coreOf_updCoreOf_same, putInst_pad]
  rfl

/-- A write of one piece that is performed changes the core alone. -/
theorem writePiece_only {s : State} (h : s.guard.armed = []) {q c : Nat} (e : Engine) {i : EInst} {a : Int}
    {b : List Byte} (st : Bool) (hf : accessFault i.wmask a b.length = 0) :
    OnlyCore s (writePiece s q c e i a b st).1 q c := by
  rw [writePiece_done h hf]
  exact updCoreOf_only ..

/-- A write of two sectors, both performed, puts the whole run. -/
theorem writeElem_pad_record {s : State} (h : s.guard.armed = []) {q c : Nat} (e : Engine) {i : EInst} {a : Int}
    {b : List Byte} (st : Bool) (hb : b.length = 64) (hlo : accessFault i.wmask a 32 = 0)
    (hhi : accessFault i.wmask (a + 32) 32 = 0) :
    ((writeElem s q c e i a b st).1.coreOf q c).pad = tblPutSector (s.coreOf q c).pad a.toNat b := by
  have hlen : (b.take 32).length = 32 := by simp [hb]
  have hframe := writePiece_frame h q c e i a (b.take 32) st
  have hpad := writePiece_pad h (q := q) (c := c) e st (hlen.symm ▸ hlo)
  have hrest : accessFault (writePiece s q c e i a (b.take 32) st).2.wmask (a + 32) (b.drop 32).length = 0 := by
    rw [hframe.wmask, List.length_drop, hb]
    exact hhi
  have hjoin := tblPutSector_append (s.coreOf q c).pad a.toNat (b.take 32) (b.drop 32)
  rw [hlen, List.take_append_drop, ← toNat_add_32 hlo, ← hpad, ← writePiece_pad (hframe.quiet h) e st hrest] at hjoin
  simpa [writeElem, hb, hlo] using hjoin

/-! ### Drains (R68, R92, R95) -/

section
variable {s : State} {q : Cl} {c : Core} {a : Fin 4}

theorem exec_arrayDrain (col : Fin 4) : exec (.arrayDrain q c a col) s
    = onClock q s (arrayDrain s q.val c.val a.val col.val) := rfl

theorem exec_drainAccept (col : Fin 4) : exec (.drainAccept q c a col) s
    = onClock q s (drainAccept s q.val c.val a.val col.val) := rfl

end

section
variable {s : State} {q c a col : Nat} {i : EInst} {j : AJob}

theorem readColumn_quiet (h : s.guard.armed = []) (n : Nat) (k : Column) :
    readColumn s q c n k = (s, k, false, false) := by
  simp only [readColumn, takeInject_quiet h]

theorem arrayDrain_stalls (hw : rowWaits (s.coreOf q c) (s.arrOf q c a) 1 col = some (i, j))
    (hfull : ((s.arrOf q c a).lat col).full = true) : arrayDrain s q c a col = s := by
  simp only [arrayDrain, hw, hfull, if_true]

/-- The latch that a drain of an activation row fills. -/
def drainLatch (i : EInst) (j : AJob) (col : Nat) (d : Drained) : Latch :=
  ⟨true, i.id, j.doneBy col, BitVec.ofNat 32 d.value, BitVec.ofNat 32 d.index, d.stain, d.dep⟩

/-- The drain before its events: the latch is filled, the row ended and the flags set. -/
def drainMoved (s : State) (q c a col : Nat) (i : EInst) (j : AJob) (d : Drained) : State :=
  (s.updArr q c a fun r => (r.setLat col (drainLatch i j col d)).updJob i.id (·.endRow col)).setNumf q c d.flags

/-- Into an empty latch the drain moves the rounded column; then it raises at most an event, and a finished job ends. -/
theorem arrayDrain_moves (h : s.guard.armed = []) (hw : rowWaits (s.coreOf q c) (s.arrOf q c a) 1 col = some (i, j))
    (hfull : ((s.arrOf q c a).lat col).full = false) :
    ∃ u, EventFrame (drainMoved s q c a col i j (drainColumn i.word.toNat ((s.arrOf q c a).col col))) u
      ∧ arrayDrain s q c a col = pruneArr u q c a := by
  simp only [arrayDrain, hw, hfull, readColumn_quiet h, nfIf, Bool.false_eq_true, if_false,
    BitVec.ofNat_eq_ofNat, BitVec.or_zero, Bool.or_false]
  split
  · exact ⟨_, raise_frame _ _, rfl⟩
  · exact ⟨_, .refl _, rfl⟩

theorem coreOf_drainMoved (d : Drained) : (drainMoved s q c a col i j d).coreOf q c
    = { (s.coreOf q c).setArr a (((s.arrOf q c a).setLat col (drainLatch i j col d)).updJob i.id (·.endRow col)) with
        numf := (s.coreOf q c).numf ||| d.flags } := by
  simp only [drainMoved, State.setNumf, State.coreOf_updCoreOf_same, State.coreOf_updArr_same, CoreSt.setArr_numf]

theorem arrOf_drainMoved (d : Drained) : (drainMoved s q c a col i j d).arrOf q c a
    = ((s.arrOf q c a).setLat col (drainLatch i j col d)).updJob i.id (·.endRow col) := by
  rw [State.arrOf, coreOf_drainMoved]
  exact CoreSt.arr_setArr_same ..

/-- What a drain into an empty latch leaves: memory and the scratchpad as they were, the latch full, the flags set. -/
theorem arrayDrain_fills (h : s.guard.armed = []) (hw : rowWaits (s.coreOf q c) (s.arrOf q c a) 1 col = some (i, j))
    (hfull : ((s.arrOf q c a).lat col).full = false) :
    (arrayDrain s q c a col).mem = s.mem
      ∧ ((arrayDrain s q c a col).coreOf q c).pad = (s.coreOf q c).pad
      ∧ ((arrayDrain s q c a col).arrOf q c a).lat col
          = drainLatch i j col (drainColumn i.word.toNat ((s.arrOf q c a).col col))
      ∧ ((arrayDrain s q c a col).coreOf q c).numf
          = (s.coreOf q c).numf ||| (drainColumn i.word.toNat ((s.arrOf q c a).col col)).flags := by
  obtain ⟨u, hu, hdrain⟩ := arrayDrain_moves h hw hfull
  rw [hdrain, pruneArr_mem, arrOf_pruneArr, coreOf_pruneArr, hu.mem, hu.coreOf, hu.arrOf, coreOf_drainMoved,
    arrOf_drainMoved]
  simp [drainMoved, State.setNumf]

/-! ### A latched value is accepted (R91, R104, R156) -/

theorem elemBytes_le (code : Nat) : elemBytes code ≤ 4 := by
  unfold elemBytes
  split <;> decide

/-- The latch of a column emptied, before its value is written. -/
def latchEmptied (s : State) (q c a col : Nat) : State := s.updArr q c a fun r => r.setLat col {}

theorem coreOf_latchEmptied (s : State) (q c a col : Nat) :
    (latchEmptied s q c a col).coreOf q c = (s.coreOf q c).setArr a ((s.arrOf q c a).setLat col {}) :=
  State.coreOf_updArr_same ..

/-- A value that is written at all goes from the emptied latch to its place of D1. -/
theorem drainAccept_writes {at_ : Int} (hfull : ((s.arrOf q c a).lat col).full = true)
    (hi : arrInst (s.coreOf q c) ((s.arrOf q c a).lat col).id = some i)
    (hrow : ((s.arrOf q c a).lat col).row < rowsOf i) (hop : fOp i.word.toNat ≠ 0xA5)
    (hhalt : (fHalt i.word.toNat && ((s.arrOf q c a).lat col).dep) = false)
    (hat : eAddr i 1 c (16 * ((s.arrOf q c a).lat col).row + 4 * a + col) = at_) :
    drainAccept s q c a col = (writePiece (latchEmptied s q c a col) q c .aq i at_
      (leBytes (elemBytes (fFmtDst i.word.toNat)) ((s.arrOf q c a).lat col).value.toNat)
      ((s.arrOf q c a).lat col).stain).1 := by
  have hlen : elemBytes (fFmtDst i.word.toNat) ≤ 32 := (elemBytes_le _).trans (by decide)
  have hinst : arrInst ((s.updArr q c a fun r => r.setLat col {}).coreOf q c) ((s.arrOf q c a).lat col).id = some i := by
    rw [← hi, arrInst, arrInst, State.coreOf_updArr_same, CoreSt.setArr_aq]
  simp only [drainAccept, latchEmptied, hfull, hinst, Nat.not_le.2 hrow, hhalt, hat, hop, writeElem_piece, leBytes_length,
    hlen, if_false, Bool.not_true, Bool.false_eq_true]

/-- A performed write after the latch is emptied: the latch stays empty, and the scratchpad differs in the bytes put. -/
theorem writePiece_latchEmptied {at_ : Int} (h : s.guard.armed = []) (b : List Byte) (st : Bool)
    (hf : accessFault i.wmask at_ b.length = 0) :
    let t := (writePiece (latchEmptied s q c a col) q c .aq i at_ b st).1
    OnlyCore s t q c ∧ (t.arrOf q c a).lat col = {} ∧ padBytes (t.coreOf q c) at_.toNat b.length = b
      ∧ ∀ x, (x < at_.toNat ∨ at_.toNat + b.length ≤ x)
        → Tbl.get 0 (t.coreOf q c).pad x = Tbl.get 0 (s.coreOf q c).pad x := by
  intro t
  have hquiet : (latchEmptied s q c a col).guard.armed = [] := h
  have hpad : (t.coreOf q c).pad = _ := writePiece_pad hquiet .aq st hf
  refine ⟨(updArr_only ..).trans (writePiece_only hquiet .aq st hf), ?_, padBytes_put hpad, fun x hx => ?_⟩
  · rw [(writePiece_frame hquiet ..).arrOf, State.arrOf, coreOf_latchEmptied, CoreSt.arr_setArr_same, Arr.lat_setLat_same]
  · rw [hpad, tblPutSector_other _ _ _ _ hx, coreOf_latchEmptied, CoreSt.setArr_pad]

end

/-! ### Parks (R99) -/

@[simp] theorem alter_length {α : Type} (l : List α) (i : Nat) (f : α → α) : (alter l i f).length = l.length := by
  induction l generalizing i with
  | nil => rfl
  | cons x l ih => cases i <;> simp [alter, ih]

theorem getD_alter {α : Type} (l : List α) (i k : Nat) (f : α → α) (d : α) :
    (alter l i f).getD k d = if k = i ∧ i < l.length then f (l.getD k d) else l.getD k d := by
  induction l generalizing i k with
  | nil => simp [alter]
  | cons x l ih =>
    cases i with
    | zero => cases k <;> simp [alter]
    | succ i =>
      cases k with
      | zero => simp [alter]
      | succ k => simpa [alter] using ih i k

theorem doneBy_endRow {j : AJob} {c : Nat} (h : c < j.done.length) (col : Nat) :
    (j.endRow c).doneBy col = j.doneBy col + if col = c then 1 else 0 := by
  simp only [AJob.endRow, AJob.doneBy, getD_alter, h, and_true]
  split <;> rfl

/-- The first `n` columns end their activation row. -/
def endRows (n : Nat) (j : AJob) : AJob := (List.range n).foldl AJob.endRow j

theorem endRows_succ (n : Nat) (j : AJob) : endRows (n + 1) j = (endRows n j).endRow n := by
  simp [endRows, List.range_succ]

theorem endRows_done_length (n : Nat) (j : AJob) : (endRows n j).done.length = j.done.length := by
  induction n with
  | zero => rfl
  | succ n ih => rw [endRows_succ, ← ih]; exact alter_length ..

theorem doneBy_endRows {n : Nat} {j : AJob} (h : n ≤ j.done.length) (col : Nat) :
    (endRows n j).doneBy col = j.doneBy col + if col < n then 1 else 0 := by
  induction n with
  | zero => rfl
  | succ n ih =>
    rw [endRows_succ, doneBy_endRow (by rw [endRows_done_length]; omega), ih (by omega)]
    split_ifs <;> omega

/-- One column of a park: its record is written, or held back under STN halt. -/
def parkColumn (q c a : Nat) (i : EInst) (j : AJob) (r : Arr) (x : State × EInst) (col : Nat) : State × EInst :=
  if fHalt i.word.toNat && (r.col col).stain then
    (x.1.putInst q c .aq { x.2 with halted := true }, { x.2 with halted := true })
  else
    writeElem x.1 q c .aq x.2 (eAddr x.2 3 c (16 * j.doneBy 0 + 4 * a + col))
      (leBytes 64 (parkRecord i.word.toNat (r.col col))) ((r.col col).stain || (r.col col).bad)

/-- The records of a row's first `n` columns. -/
def parkColumns (s : State) (q c a : Nat) (i : EInst) (j : AJob) (n : Nat) : State × EInst :=
  (List.range n).foldl (parkColumn q c a i j (s.arrOf q c a)) (s, i)

/-- The four columns are cleared and the row ends in each of them. -/
def parkedArr (id : Nat) (r : Arr) : Arr := (r.updCols fun _ _ => {}).updJob id (endRows 4)

/-- The array instruction `i` has parked a row on array `a`. -/
def parked (s : State) (q c a : Nat) (i : EInst) (j : AJob) : State :=
  pruneArr ((parkColumns s q c a i j 4).1.updArr q c a (parkedArr i.id)) q c a

theorem exec_arrayPark {s : State} {q : Cl} {c : Core} {a : Fin 4} {i : EInst} {j : AJob}
    (hclock : islandStopped s q.val = false)
    (hw : parkWaits (s.coreOf q.val c.val) (s.arrOf q.val c.val a.val) = some (i, j)) :
    exec (.arrayPark q c a) s = .next (parked s q.val c.val a.val i j) := by
  change execArrayPark q c a s = _
  simp only [execArrayPark, hw, onClock_runs hclock]
  rfl

theorem parkColumn_frame {x : State × EInst} (h : x.1.guard.armed = []) (q c a : Nat) (i : EInst) (j : AJob) (r : Arr)
    (col : Nat) : WriteFrame q c x (parkColumn q c a i j r x col) := by
  unfold parkColumn
  split
  · exact putInst_writeFrame x.1 q c .aq rfl
  · exact writeElem_frame h ..

theorem parkColumns_frame {s : State} (h : s.guard.armed = []) (q c a : Nat) (i : EInst) (j : AJob) (n : Nat) :
    WriteFrame q c (s, i) (parkColumns s q c a i j n) :=
  WriteFrame.foldl (fun _ col hx => parkColumn_frame hx q c a i j _ col) _ h

theorem parkColumns_succ (s : State) (q c a : Nat) (i : EInst) (j : AJob) (n : Nat) : parkColumns s q c a i j (n + 1)
    = parkColumn q c a i j (s.arrOf q c a) (parkColumns s q c a i j n) n := by
  simp [parkColumns, List.range_succ]

/-- After the records of `n + 1` columns the last of them stands at its place of D3. -/
theorem parkColumns_last {s : State} (h : s.guard.armed = []) {q c a n : Nat} {i : EInst} {j : AJob} {at_ : Int}
    (hat : eAddr i 3 c (16 * j.doneBy 0 + 4 * a + n) = at_)
    (hhalt : (fHalt i.word.toNat && ((s.arrOf q c a).col n).stain) = false)
    (hlo : accessFault i.wmask at_ 32 = 0) (hhi : accessFault i.wmask (at_ + 32) 32 = 0) :
    padBytes ((parkColumns s q c a i j (n + 1)).1.coreOf q c) at_.toNat 64
      = leBytes 64 (parkRecord i.word.toNat ((s.arrOf q c a).col n)) := by
  have hframe := parkColumns_frame h q c a i j n
  have hput := writeElem_pad_record (hframe.quiet h) (q := q) (c := c) .aq
    (((s.arrOf q c a).col n).stain || ((s.arrOf q c a).col n).bad)
    (leBytes_length 64 (parkRecord i.word.toNat ((s.arrOf q c a).col n)))
    (hframe.wmask.symm ▸ hlo) (hframe.wmask.symm ▸ hhi)
  have hread := padBytes_put hput
  rw [leBytes_length] at hread
  simpa only [parkColumns_succ, parkColumn, hhalt, hframe.eAddr, hat, Bool.false_eq_true, if_false] using hread

section
variable {s : State} {q c a : Nat} {i : EInst} {j : AJob}

theorem parked_mem (h : s.guard.armed = []) : (parked s q c a i j).mem = s.mem := (parkColumns_frame h ..).mem

theorem arrOf_parked (h : s.guard.armed = []) : (parked s q c a i j).arrOf q c a
    = pruneJobs (((parkColumns s q c a i j 4).1.updArr q c a (parkedArr i.id)).coreOf q c)
        (parkedArr i.id (s.arrOf q c a)) := by
  rw [parked, arrOf_pruneArr, State.arrOf_updArr_same, (parkColumns_frame h ..).arrOf]

theorem parked_col (h : s.guard.armed = []) {col : Nat} (hcol : col < 4) :
    ((parked s q c a i j).arrOf q c a).col col = {} := by
  rw [arrOf_parked h, pruneJobs_col, parkedArr, Arr.updJob_col, Arr.col_updCols _ _ hcol]

/-- What is left of the instruction's jobs has ended one more row in every column. -/
theorem parked_jobs (h : s.guard.armed = []) {x : AJob} (hx : x ∈ ((parked s q c a i j).arrOf q c a).jobs)
    (hid : x.id = i.id) : ∃ y ∈ (s.arrOf q c a).jobs, y.id = i.id
      ∧ (y.done.length = 4 → ∀ col < 4, x.doneBy col = y.doneBy col + 1) := by
  rw [arrOf_parked h] at hx
  obtain ⟨y, hy, hyid, rfl⟩ := Arr.mem_updJob (mem_jobs_of_pruneJobs hx) hid
  exact ⟨y, hy, hyid, fun hlen col hcol => by rw [doneBy_endRows hlen.ge, if_pos hcol]⟩

theorem parked_pad : ((parked s q c a i j).coreOf q c).pad = ((parkColumns s q c a i j 4).1.coreOf q c).pad := by
  rw [parked, coreOf_pruneArr, CoreSt.setArr_pad, State.coreOf_updArr_same, CoreSt.setArr_pad]

end

/-! ### Resumes (R100) -/

/-- A record as a resume reads it: its value and its stain. -/
def readRecord (q c : Nat) (i : EInst) (at_ : Nat → Int) (s : State) (col : Nat) : State × Nat × Bool :=
  let (s, b, st) := readElem s q c i (at_ col) 64
  (s, leNat b, st)

/-- Reads that change nothing give the list of what each reads. -/
theorem foldl_collect {β : Type} {f : State → Nat → State × β} {g : Nat → β} {s : State} {l : List Nat}
    (h : ∀ n ∈ l, f s n = (s, g n)) (acc : List β) :
    l.foldl (fun x n => ((f x.1 n).1, x.2 ++ [(f x.1 n).2])) (s, acc) = (s, acc ++ l.map g) := by
  induction l generalizing acc with
  | nil => simp
  | cons n l ih =>
    rw [List.foldl_cons, h n (by simp), ih fun m hm => h m (by simp [hm])]
    simp

/-- The record of a column as the scratchpad holds it, with its stain. -/
def padRecord (k : CoreSt) (at_ : Int) : Nat × Bool :=
  (leNat (padBytes k at_.toNat 64), padRangeStained k at_.toNat 32 || padRangeStained k (at_.toNat + 32) 32)

theorem readRecord_done {s : State} (h : s.guard.armed = []) {q c col : Nat} {i : EInst} {at_ : Nat → Int}
    (hlo : accessFault i.rmask (at_ col) 32 = 0) (hhi : accessFault i.rmask (at_ col + 32) 32 = 0) :
    readRecord q c i at_ s col = (s, padRecord (s.coreOf q c) (at_ col)) := by
  simp only [readRecord, readElem_record h hlo hhi, padRecord]

/-- The four columns take the records of a row, and the row begins in each of them. -/
def resumedArr (i : EInst) (recs : List (Nat × Bool)) (r : Arr) : Arr :=
  (r.updCols fun col _ => loadRecord i.word.toNat (recs.getD col (0, false)).1 (recs.getD col (0, false)).2).updJob i.id
    fun j => { j with begun := [true, true, true, true] }

/-- The array instruction `i` has resumed a row from records on array `a`. -/
def resumed (s : State) (q c a : Nat) (i : EInst) (recs : List (Nat × Bool)) : State :=
  noteHalt (s.updArr q c a (resumedArr i recs)) q c i (recs.any (·.2))

theorem exec_arrayResume {s : State} {q : Cl} {c : Core} {a : Fin 4} {i : EInst} {j : AJob} {recs : List (Nat × Bool)}
    (hclock : islandStopped s q.val = false)
    (hw : resumeWaits (s.coreOf q.val c.val) (s.arrOf q.val c.val a.val) = some (i, j))
    (hread : (List.range 4).foldl (fun x col =>
      let y := readRecord q.val c.val i (fun col => eAddr i 3 c.val (16 * j.doneBy 0 + 4 * a.val + col)) x.1 col
      (y.1, x.2 ++ [y.2])) (s, []) = (s, recs))
    (hok : ∀ x ∈ recs, recordOk i.word.toNat x.1 = true) :
    exec (.arrayResume q c a) s = .next (resumed s q.val c.val a.val i recs) := by
  change execArrayResume q c a s = _
  simp only [readRecord] at hread
  simp only [execArrayResume, hw, onClock_runs hclock, hread, List.all_eq_true.2 hok, if_true]
  rfl

theorem noteHalt_only (s : State) (q c : Nat) (i : EInst) (st : Bool) : OnlyCore s (noteHalt s q c i st) q c := by
  unfold noteHalt
  split
  · exact updCoreOf_only ..
  · exact .refl ..

theorem noteHalt_arrOf (s : State) (q c : Nat) (i : EInst) (st : Bool) (a : Nat) :
    (noteHalt s q c i st).arrOf q c a = s.arrOf q c a := by
  unfold noteHalt
  split
  · rw [State.arrOf, State.mapAq, State.coreOf_updCoreOf_same]
    rfl
  · rfl

/-- Every column of a job whose row has been resumed is open. -/
theorem begunBy_resumed (j : AJob) {col : Nat} (h : col < 4) :
    AJob.begunBy { j with begun := [true, true, true, true] } col = true :=
  match col, h with
  | 0, _ | 1, _ | 2, _ | 3, _ => rfl

section
variable {s : State} {q c a : Nat} {i : EInst} {recs : List (Nat × Bool)}

theorem resumed_only : OnlyCore s (resumed s q c a i recs) q c := (updArr_only ..).trans (noteHalt_only ..)

theorem arrOf_resumed : (resumed s q c a i recs).arrOf q c a = resumedArr i recs (s.arrOf q c a) := by
  rw [resumed, noteHalt_arrOf, State.arrOf_updArr_same]

theorem resumed_col {col : Nat} (hcol : col < 4) : ((resumed s q c a i recs).arrOf q c a).col col
    = loadRecord i.word.toNat (recs.getD col (0, false)).1 (recs.getD col (0, false)).2 := by
  rw [arrOf_resumed, resumedArr, Arr.updJob_col, Arr.col_updCols _ _ hcol]

theorem resumed_jobs {x : AJob} (hx : x ∈ ((resumed s q c a i recs).arrOf q c a).jobs) (hid : x.id = i.id) {col : Nat}
    (hcol : col < 4) : x.begunBy col = true := by
  rw [arrOf_resumed] at hx
  obtain ⟨y, -, -, rfl⟩ := Arr.mem_updJob hx hid
  exact begunBy_resumed y hcol

end

/-- Settles O17: a drain by whether its latch is full, the write of a latched value, then the park of a row as the fold
over its columns, and the resume of one as four reads that change nothing. -/
theorem arrayDrainsParksResumes : Obligations.ArrayDrainsParksResumes := by
  unfold Obligations.ArrayDrainsParksResumes
  intro s q c i j a n k r hclock hquiet
  refine ⟨fun col hw => ⟨fun hfull => ?_, fun hfull => ?_⟩, ?_, ?_, ?_⟩
  · rw [exec_arrayDrain, onClock_runs hclock, arrayDrain_stalls hw hfull]
  · exact ⟨_, (exec_arrayDrain col).trans (onClock_runs hclock), arrayDrain_fills hquiet hw hfull⟩
  · intro col hfull hi hrow hop hhalt at_ len _ hf
    have hacc := drainAccept_writes hfull hi hrow hop hhalt (at_ := at_) rfl
    refine ⟨_, (exec_drainAccept col).trans ((onClock_runs hclock).trans (congrArg _ hacc)), ?_⟩
    simpa only [leBytes_length] using writePiece_latchEmptied hquiet (leBytes len (r.lat col.val).value.toNat)
      (r.lat col.val).stain ((leBytes_length ..).symm ▸ hf)
  · intro hw at_
    refine ⟨_, exec_arrayPark hclock hw, parked_mem hquiet, fun col hcol => parked_col hquiet hcol,
      fun x hx hid => parked_jobs hquiet hx hid, fun hhalt hlo hhi => ?_⟩
    rw [padBytes, parked_pad]
    exact parkColumns_last hquiet (n := 3) rfl hhalt hlo hhi
  · intro hw at_ rec_ hrec
    have hread := foldl_collect (f := readRecord q.val c.val i at_) (g := fun col => padRecord k (at_ col)) (s := s)
      (l := List.range 4) (fun col hcol => by
        obtain ⟨hlo, hhi, -⟩ := hrec col (List.mem_range.1 hcol)
        exact readRecord_done hquiet hlo hhi) []
    have hok : ∀ x ∈ (List.range 4).map fun col => padRecord k (at_ col), recordOk n x.1 = true := fun x hx => by
      obtain ⟨col, hcol, rfl⟩ := List.mem_map.1 hx
      obtain ⟨-, -, hcheck⟩ := hrec col (List.mem_range.1 hcol)
      exact hcheck
    refine ⟨_, exec_arrayResume hclock hw hread hok, resumed_only, fun x hx hid col hcol => resumed_jobs hx hid hcol,
      fun col hcol => ?_⟩
    rw [resumed_col hcol]
    simp [hcol, padRecord, rec_, n]

end Sys2Proof.Machine

namespace Sys2Proof.Machine
open Sys2Proof

/-! ### What an engine's read leaves alone -/

/-- A read changes at most what events change and the cluster's fault mark: memory, injections and the core stay. -/
structure ReadFrame (q c : Nat) (s t : State) : Prop where
  mem : t.mem = s.mem
  guard : t.guard = s.guard
  coreOf : t.coreOf q c = s.coreOf q c

theorem ReadFrame.refl (q c : Nat) (s : State) : ReadFrame q c s s := ⟨rfl, rfl, rfl⟩

theorem ReadFrame.trans {q c : Nat} {s t u : State} (h : ReadFrame q c s t) (k : ReadFrame q c t u) : ReadFrame q c s u :=
  ⟨k.mem.trans h.mem, k.guard.trans h.guard, k.coreOf.trans h.coreOf⟩

theorem ReadFrame.quiet {q c : Nat} {s t : State} (h : ReadFrame q c s t) (hs : s.guard.armed = []) :
    t.guard.armed = [] := by rw [h.guard, hs]

theorem ReadFrame.arrOf {q c : Nat} {s t : State} (h : ReadFrame q c s t) (a : Nat) : t.arrOf q c a = s.arrOf q c a :=
  congrArg (CoreSt.arr · a) h.coreOf

theorem EventFrame.readFrame {s t : State} (h : EventFrame s t) (q c : Nat) : ReadFrame q c s t :=
  ⟨h.mem, h.guard, h.coreOf q c⟩

/-- Reads made one after the other, while a value is carried beside the state, keep the frame together. -/
theorem ReadFrame.foldl_fst {q c : Nat} {β γ : Type} {f : State × γ → β → State × γ}
    (hf : ∀ x b, x.1.guard.armed = [] → ReadFrame q c x.1 (f x b).1) (l : List β) {x : State × γ}
    (hx : x.1.guard.armed = []) : ReadFrame q c x.1 (l.foldl f x).1 := by
  induction l generalizing x with
  | nil => exact .refl q c x.1
  | cons b l ih => exact (hf x b hx).trans (ih ((hf x b hx).quiet hx))

theorem accessEvent_readFrame (s : State) (q c fault : Nat) (a : Int) (st : Bool) :
    ReadFrame q c s (accessEvent s q c fault a st) :=
  ⟨accessEvent_mem .., accessEvent_guard .., accessEvent_coreOf ..⟩

/-- A read that fails is recorded and gives stained zeros. -/
theorem readPiece_failed {s : State} (h : s.guard.armed = []) {q c : Nat} {i : EInst} {a : Int} {n : Nat}
    (hf : accessFault i.rmask a n ≠ 0) :
    readPiece s q c i a n = (accessEvent s q c (accessFault i.rmask a n) a true, zeros n, true) := by
  simp only [readPiece, injectedFault_quiet h]

theorem readPiece_frame {s : State} (h : s.guard.armed = []) (q c : Nat) (i : EInst) (a : Int) (n : Nat) :
    ReadFrame q c s (readPiece s q c i a n).1 := by
  by_cases hf : accessFault i.rmask a n = 0
  · rw [readPiece_done h hf]
    exact .refl q c s
  · rw [readPiece_failed h hf]
    exact accessEvent_readFrame ..

theorem readElem_frame {s : State} (h : s.guard.armed = []) (q c : Nat) (i : EInst) (a : Int) (n : Nat) :
    ReadFrame q c s (readElem s q c i a n).1 := by
  simp only [readElem]
  split
  · exact readPiece_frame h ..
  · split
    · exact accessEvent_readFrame s q c 2 a true
    · have hlo := readPiece_frame h q c i a 32
      exact hlo.trans (readPiece_frame (hlo.quiet h) ..)

/-! ### The four arrays of a core and their banks -/

theorem CoreSt.arr_updArrs (k : CoreSt) (f : Arr → Arr) (a : Nat) : (k.updArrs f).arr a = f (k.arr a) := by
  unfold CoreSt.arr
  split <;> rfl

@[simp] theorem Arr.bank_setBank_same (r : Arr) (b : Bool) (v : Bank) : (r.setBank b v).bank b = v := by
  cases b <;> rfl

@[simp] theorem Arr.bank_setBank_other (r : Arr) (b : Bool) (v : Bank) : (r.setBank b v).bank (!b) = r.bank (!b) := by
  cases b <;> rfl

/-! ### Weight loads (R87, R88, R130, R160) -/

section
variable {s : State} {q : Cl} {c : Core} {i : EInst}

/-- The weight load `i` has started: the bank that it fills is loading on every array. -/
def loadStarted (s : State) (q c : Nat) (i : EInst) : State :=
  (s.putInst q c .iq { i with started := true }).updCoreOf q c (·.updArrs fun r =>
    r.setBank (fBankS i.word.toNat) { r.bank (fBankS i.word.toNat) with loading := true })

theorem exec_weightLoadStart (hclock : islandStopped s q.val = false) (hi : nextLoad (s.coreOf q.val c.val) = some i)
    (hscore : scoreOk (s.coreOf q.val c.val) i = true)
    (htwo : ((s.coreOf q.val c.val).iq.filter (·.started)).length < 2)
    (hload : ∀ j ∈ (s.coreOf q.val c.val).iq, j.started = true → eOp j ≠ 0xE2)
    (hbank : ∀ j ∈ (s.coreOf q.val c.val).aq, j.id < i.id → fBank j.word.toNat = fBankS i.word.toNat →
      passedBank (s.coreOf q.val c.val) j = true) :
    exec (.weightLoadStart q c) s = .next (loadStarted s q.val c.val i) := by
  have hfree : ((s.coreOf q.val c.val).aq.any fun j => decide (j.id < i.id) &&
      fBank j.word.toNat == fBankS i.word.toNat && !passedBank (s.coreOf q.val c.val) j) = false := by
    simpa using hbank
  have hnone : ((s.coreOf q.val c.val).iq.any fun j => j.started && eOp j == 0xE2) = false := by simpa using hload
  change execWeightLoadStart q c s = _
  simp only [execWeightLoadStart, onClock_runs hclock, hi, hscore, hfree, hnone, Nat.not_le.2 htwo, decide_false,
    Bool.not_true, Bool.or_self, Bool.false_eq_true, if_false]
  rfl

theorem loadStarted_only (q c : Nat) : OnlyCore s (loadStarted s q c i) q c :=
  (updCoreOf_only ..).trans (updCoreOf_only ..)

theorem coreOf_loadStarted (q c : Nat) : (loadStarted s q c i).coreOf q c
    = (putInst (s.coreOf q c) .iq { i with started := true }).updArrs fun r =>
        r.setBank (fBankS i.word.toNat) { r.bank (fBankS i.word.toNat) with loading := true } := by
  simp only [loadStarted, State.putInst, State.coreOf_updCoreOf_same]

theorem bank_loadStarted (q c a : Nat) : ((loadStarted s q c i).arrOf q c a).bank (fBankS i.word.toNat)
    = { (s.arrOf q c a).bank (fBankS i.word.toNat) with loading := true } := by
  rw [State.arrOf, coreOf_loadStarted, CoreSt.arr_updArrs, Arr.bank_setBank_same, putInst_arr, State.arrOf]

theorem loadElems_frame {s : State} (h : s.guard.armed = []) (q c : Nat) (i : EInst) (slot count size : Nat) :
    ReadFrame q c s (loadElems s q c i slot count size).1 := by
  unfold loadElems
  refine ReadFrame.foldl_fst (x := (s, [])) (fun x e hx => ?_) _ h
  exact readElem_frame hx ..

/-- The tile's elements of a weight load, as its completion reads them. -/
def readTile (s : State) (q c : Nat) (i : EInst) : State × List (List Byte × Bool) :=
  let n := i.word.toNat
  let t := if fLmode n == 0 || fLmode n == 2 then 4 else 1
  if fLmode n < 2 then loadElems s q c i 0 (32 * t) 64
  else loadElems s q c i 0 (if fFmtT n = 4 then 2 * t else 4 * t) (elemBytes (fFmtT n))

/-- The tile's scales, of which only an MX format has any. -/
def readTileScales (s : State) (q c : Nat) (i : EInst) : State × List (List Byte × Bool) :=
  let n := i.word.toNat
  let t := if fLmode n == 0 || fLmode n == 2 then 4 else 1
  if isMx (fFmtT n) then loadElems s q c i 1 (4 * t) 32 else (s, [])

theorem readTile_frame {s : State} (h : s.guard.armed = []) (q c : Nat) (i : EInst) :
    ReadFrame q c s (readTile s q c i).1 := by
  simp only [readTile]
  split
  · exact loadElems_frame h ..
  · exact loadElems_frame h ..

theorem readTileScales_frame {s : State} (h : s.guard.armed = []) (q c : Nat) (i : EInst) :
    ReadFrame q c s (readTileScales s q c i).1 := by
  simp only [readTileScales]
  split
  · exact loadElems_frame h ..
  · exact .refl q c s

/-- The bank of array `a` with the elements and the scales of a load. -/
def bankFilled (i : EInst) (els scs : List (List Byte × Bool)) (a : Nat) (r : Arr) : Arr :=
  r.setBank (fBankS i.word.toNat)
    (fillBank i.word.toNat a (r.bank (fBankS i.word.toNat)) els scs (fHalt i.word.toNat))

/-- The same of the four arrays of a core. -/
def banksFilled (i : EInst) (els scs : List (List Byte × Bool)) (k : CoreSt) : CoreSt :=
  { k with arr0 := bankFilled i els scs 0 k.arr0, arr1 := bankFilled i els scs 1 k.arr1
           arr2 := bankFilled i els scs 2 k.arr2, arr3 := bankFilled i els scs 3 k.arr3 }

/-- The weight load as its end leaves it. -/
def loadEnded (i : EInst) (els scs : List (List Byte × Bool)) : EInst :=
  { i with next := 1, readsOut := true, writesOut := true, halted := fHalt i.word.toNat && (els ++ scs).any (·.2) }

theorem arr_banksFilled (els scs : List (List Byte × Bool)) (k : CoreSt) {a : Nat} (ha : a < 4) :
    (banksFilled i els scs k).arr a = bankFilled i els scs a (k.arr a) :=
  match a, ha with
  | 0, _ | 1, _ | 2, _ | 3, _ => rfl

/-- The weight load `i` has completed: its reads are made, its banks filled and its instruction released. -/
def loadCompleted (s : State) (q c : Nat) (i : EInst) : State :=
  let x := readTile s q c i
  let y := readTileScales x.1 q c i
  (y.1.updCoreOf q c (banksFilled i x.2 y.2)).putInst q c .iq (loadEnded i x.2 y.2)

theorem exec_weightLoadComplete (hclock : islandStopped s q.val = false)
    (hi : (s.coreOf q.val c.val).iq.find? (fun i => i.started && eOp i == 0xE2 && i.next == 0) = some i) :
    exec (.weightLoadComplete q c) s = .next (loadCompleted s q.val c.val i) := by
  change execWeightLoadComplete q c s = _
  simp only [execWeightLoadComplete, onClock_runs hclock, hi]
  rfl

/-- A completion leaves memory as it was, and its core with the banks filled and the instruction released. -/
theorem loadCompleted_core (h : s.guard.armed = []) (q c : Nat) (i : EInst) :
    (loadCompleted s q c i).mem = s.mem ∧ ∃ els scs, (loadCompleted s q c i).coreOf q c
      = putInst (banksFilled i els scs (s.coreOf q c)) .iq (loadEnded i els scs) := by
  have htile := readTile_frame h q c i
  have hread := htile.trans (readTileScales_frame (htile.quiet h) q c i)
  refine ⟨hread.mem, (readTile s q c i).2, (readTileScales (readTile s q c i).1 q c i).2, ?_⟩
  simp only [loadCompleted, State.putInst, State.coreOf_updCoreOf_same, hread.coreOf]

/-- The instruction put back in its queue stands in it. -/
theorem mem_putInst_iq {k : CoreSt} {i j : EInst} (hi : i ∈ k.iq) (hid : i.id = j.id) : j ∈ (putInst k .iq j).iq :=
  List.mem_map.2 ⟨i, hi, if_pos hid⟩

end

/-- Settles O18: the start as two changes of the core, and the completion as its reads followed by two changes of it. -/
theorem weightLoads : Obligations.WeightLoads := by
  unfold Obligations.WeightLoads
  intro s q c i k n hclock hquiet
  refine ⟨fun hi hscore htwo hload hbank => ?_, fun hi => ?_⟩
  · refine ⟨_, exec_weightLoadStart hclock hi hscore htwo hload hbank, loadStarted_only .., ?_, ?_,
      fun a _ => bank_loadStarted ..⟩
    · rw [coreOf_loadStarted]
      rfl
    · rw [coreOf_loadStarted]
      rfl
  · obtain ⟨hmem, els, scs, hcore⟩ := loadCompleted_core hquiet q.val c.val i
    refine ⟨_, exec_weightLoadComplete hclock hi, hmem, ?_, ⟨loadEnded i els scs, ?_, rfl, rfl, rfl, rfl⟩,
      fun a ha => ?_⟩
    · rw [hcore, putInst_pad]
      rfl
    · rw [hcore]
      exact mem_putInst_iq (List.mem_of_find?_eq_some hi) rfl
    · rw [State.arrOf, hcore, putInst_arr, arr_banksFilled _ _ _ ha, bankFilled, Arr.bank_setBank_same,
        Arr.bank_setBank_other]
      exact ⟨rfl, rfl, rfl⟩

end Sys2Proof.Machine

namespace Sys2Proof.Machine
open Sys2Proof

/-! ### Starts of array instructions (R81, R92, R124, R127, R157) -/

/-- The array instruction `i` has started and joined the jobs of the four arrays. -/
def arrayStarted (s : State) (q c : Nat) (i : EInst) : State :=
  (s.putInst q c .aq { i with started := true }).updCoreOf q c (·.updArrs (beginJob i))

theorem exec_arrayInstrStart {s : State} {q : Cl} {c : Core} {i : EInst} (hclock : islandStopped s q.val = false)
    (hi : (s.coreOf q.val c.val).aq.find? (fun i => !i.started) = some i)
    (hoverlap : mayOverlap (s.coreOf q.val c.val) i = true) (hscore : scoreOk (s.coreOf q.val c.val) i = true)
    (hload : loadPending (s.coreOf q.val c.val) i = false)
    (hopens : ∀ a < 4, startReason i.word.toNat ((s.coreOf q.val c.val).arr a) = none) :
    exec (.arrayInstrStart q c) s = .next (arrayStarted s q.val c.val i) := by
  have hnone : (List.range 4).filterMap (fun a => startReason i.word.toNat ((s.coreOf q.val c.val).arr a)) = [] :=
    List.filterMap_eq_nil_iff.2 fun a ha => hopens a (List.mem_range.1 ha)
  change execArrayInstrStart q c s = _
  simp only [execArrayInstrStart, onClock_runs hclock, arrayStart, hi, hoverlap, hscore, hload, hnone, lowest,
    Bool.not_true, Bool.or_self, Bool.false_eq_true, if_false]
  rfl

theorem arrayStarted_only (s : State) (q c : Nat) (i : EInst) : OnlyCore s (arrayStarted s q c i) q c :=
  (updCoreOf_only ..).trans (updCoreOf_only ..)

theorem coreOf_arrayStarted (s : State) (q c : Nat) (i : EInst) : (arrayStarted s q c i).coreOf q c
    = (putInst (s.coreOf q c) .aq { i with started := true }).updArrs (beginJob i) := by
  simp only [arrayStarted, State.putInst, State.coreOf_updCoreOf_same]

theorem arrOf_arrayStarted (s : State) (q c : Nat) (i : EInst) (a : Nat) :
    (arrayStarted s q c i).arrOf q c a = beginJob i ((s.coreOf q c).arr a) := by
  rw [State.arrOf, coreOf_arrayStarted, CoreSt.arr_updArrs, putInst_arr]

/-! ### What the arrays' work leaves alone -/

/-- Memory, injections, the core's scratchpad and its array queue stay. -/
structure ArrayFrame (q c : Nat) (s t : State) : Prop where
  mem : t.mem = s.mem
  guard : t.guard = s.guard
  pad : (t.coreOf q c).pad = (s.coreOf q c).pad
  aq : (t.coreOf q c).aq = (s.coreOf q c).aq

theorem ArrayFrame.refl (q c : Nat) (s : State) : ArrayFrame q c s s := ⟨rfl, rfl, rfl, rfl⟩

theorem ArrayFrame.trans {q c : Nat} {s t u : State} (h : ArrayFrame q c s t) (k : ArrayFrame q c t u) :
    ArrayFrame q c s u :=
  ⟨k.mem.trans h.mem, k.guard.trans h.guard, k.pad.trans h.pad, k.aq.trans h.aq⟩

theorem ArrayFrame.symm {q c : Nat} {s t : State} (h : ArrayFrame q c s t) : ArrayFrame q c t s :=
  ⟨h.mem.symm, h.guard.symm, h.pad.symm, h.aq.symm⟩

theorem ArrayFrame.quiet {q c : Nat} {s t : State} (h : ArrayFrame q c s t) (hs : s.guard.armed = []) :
    t.guard.armed = [] := by rw [h.guard, hs]

theorem ArrayFrame.arrInst {q c : Nat} {s t : State} (h : ArrayFrame q c s t) :
    arrInst (t.coreOf q c) = arrInst (s.coreOf q c) := by
  funext id
  rw [Machine.arrInst, h.aq]
  rfl

theorem ReadFrame.arrayFrame {q c : Nat} {s t : State} (h : ReadFrame q c s t) : ArrayFrame q c s t :=
  ⟨h.mem, h.guard, congrArg _ h.coreOf, congrArg _ h.coreOf⟩

theorem updArr_arrayFrame (s : State) (q c x : Nat) (f : Arr → Arr) : ArrayFrame q c s (s.updArr q c x f) :=
  ⟨rfl, rfl, by rw [State.coreOf_updArr_same, CoreSt.setArr_pad], by rw [State.coreOf_updArr_same, CoreSt.setArr_aq]⟩

theorem setNumf_arrayFrame (s : State) (q c : Nat) (f : BitVec 16) : ArrayFrame q c s (s.setNumf q c f) :=
  ⟨rfl, rfl, by rw [State.setNumf, State.coreOf_updCoreOf_same], by rw [State.setNumf, State.coreOf_updCoreOf_same]⟩

theorem setNumf_arrOf (s : State) (q c : Nat) (f : BitVec 16) (a : Nat) : (s.setNumf q c f).arrOf q c a = s.arrOf q c a := by
  rw [State.arrOf, State.setNumf, State.coreOf_updCoreOf_same]
  rfl

/-- Putting one array gives it where it was put, and every other array as it was. -/
theorem CoreSt.arr_setArr_cases (k : CoreSt) (x : Nat) (v : Arr) (a : Nat) :
    ((k.setArr x v).arr a = v ∧ k.arr a = k.arr x) ∨ (k.setArr x v).arr a = k.arr a := by
  unfold CoreSt.setArr CoreSt.arr
  split <;> split <;> simp_all

/-- What a change of an instruction's jobs keeps of each job, it keeps of all of them. -/
theorem Arr.map_jobs_updJob {β : Type} {v : AJob → β} {f : AJob → AJob} (h : ∀ j, v (f j) = v j) (r : Arr) (id : Nat) :
    (r.updJob id f).jobs.map v = r.jobs.map v := by
  simp only [Arr.updJob, List.map_map]
  refine List.map_congr_left fun j _ => ?_
  simp only [Function.comp_apply]
  split
  · exact h j
  · rfl

@[simp] theorem Arr.setBank_jobs (r : Arr) (b : Bool) (v : Bank) : (r.setBank b v).jobs = r.jobs := by
  cases b <;> rfl

/-! ### What the feeders leave alone (R59, R93, R96) -/

/-- What a feed counts of a job, beside what has been delivered. -/
def AJob.progress (j : AJob) : Nat × List Nat × List Nat × List Nat := (j.id, j.fed, j.entered, j.done)

/-- Deliveries to feeder queues keep the progress of every job of array `a`. -/
structure FeedFrame (q c a : Nat) (s t : State) : Prop extends ArrayFrame q c s t where
  jobs : (t.arrOf q c a).jobs.map AJob.progress = (s.arrOf q c a).jobs.map AJob.progress

section
variable {q c a : Nat} {s t u : State}

theorem FeedFrame.refl (q c a : Nat) (s : State) : FeedFrame q c a s s := ⟨.refl q c s, rfl⟩

theorem FeedFrame.trans (h : FeedFrame q c a s t) (k : FeedFrame q c a t u) : FeedFrame q c a s u :=
  ⟨h.toArrayFrame.trans k.toArrayFrame, k.jobs.trans h.jobs⟩

theorem ReadFrame.feedFrame (h : ReadFrame q c s t) (a : Nat) : FeedFrame q c a s t :=
  ⟨h.arrayFrame, by rw [h.arrOf]⟩

theorem FeedFrame.foldl {β : Type} {f : State → β → State}
    (hf : ∀ s b, s.guard.armed = [] → FeedFrame q c a s (f s b)) (l : List β) (hs : s.guard.armed = []) :
    FeedFrame q c a s (l.foldl f s) := by
  induction l generalizing s with
  | nil => exact .refl q c a s
  | cons b l ih => exact (hf s b hs).trans (ih ((hf s b hs).quiet hs))

/-- The same of steps of which each may fail. -/
theorem FeedFrame.foldl_bind {β : Type} {f : State → β → Option State}
    (hf : ∀ s t b, s.guard.armed = [] → f s b = some t → FeedFrame q c a s t) (l : List β) {o : Option State}
    (h : l.foldl (fun o b => o.bind (f · b)) o = some t) :
    ∃ s, o = some s ∧ (s.guard.armed = [] → FeedFrame q c a s t) := by
  induction l generalizing o with
  | nil => exact ⟨t, h, fun _ => .refl q c a t⟩
  | cons b l ih =>
    obtain ⟨u, hu, hrest⟩ := ih h
    obtain ⟨s, hs, hsu⟩ := Option.bind_eq_some_iff.1 hu
    exact ⟨s, hs, fun hq => (hf s u b hq hsu).trans (hrest ((hf s u b hq hsu).quiet hq))⟩

/-- A change of one array that keeps the progress of its jobs. -/
theorem updArr_feedFrame {f : Arr → Arr} (hf : ∀ r, (f r).jobs.map AJob.progress = r.jobs.map AJob.progress)
    (s : State) (q c a x : Nat) : FeedFrame q c a s (s.updArr q c x f) := by
  refine ⟨updArr_arrayFrame .., ?_⟩
  rw [State.arrOf, State.coreOf_updArr_same]
  obtain ⟨hput, hsame⟩ | hkept := (s.coreOf q c).arr_setArr_cases x (f (s.arrOf q c x)) a
  · rw [hput, hf, State.arrOf, State.arrOf, hsame]
  · rw [hkept, State.arrOf]

theorem activation_frame (h : s.guard.armed = []) (q c a : Nat) (i : EInst) (e : Nat) :
    ReadFrame q c s (activation s q c a i e).1 :=
  readElem_frame h q c i _ _

theorem readScales_frame (h : s.guard.armed = []) (q c a : Nat) (i : EInst) (m : Nat) :
    ReadFrame q c s (readScales s q c a i m).1 := by
  unfold readScales
  refine ReadFrame.foldl_fst (x := (s, [])) (fun x e hx => ?_) _ h
  exact readElem_frame hx ..

theorem fetchScales_frame (h : s.guard.armed = []) (q c a b : Nat) (i : EInst) (j : AJob) (m : Nat) :
    FeedFrame q c b s (fetchScales s q c a i j m) := by
  simp only [fetchScales]
  split
  · have hread := readScales_frame h q c a i m
    refine (hread.feedFrame b).trans (FeedFrame.foldl (fun s x _ => updArr_feedFrame (fun r => ?_) s ..) _ (hread.quiet h))
    refine Arr.map_jobs_updJob ?_ r i.id
    exact fun _ => rfl
  · exact .refl q c b s

/-- The elements of a row's step, read into positions of its feeder queue. -/
def readQueued (s : State) (q c a : Nat) (i : EInst) (row : Nat) (es : List Nat) : State × List Queued :=
  es.foldl (fun (s, l) e =>
    let (s, v, st) := activation s q c a i e
    (s, l ++ [({ id := i.id, row := row, elem := e, val := v, stain := st } : Queued)])) (s, [])

theorem readQueued_frame (h : s.guard.armed = []) (q c a : Nat) (i : EInst) (row : Nat) (es : List Nat) :
    ReadFrame q c s (readQueued s q c a i row es).1 := by
  unfold readQueued
  refine ReadFrame.foldl_fst (x := (s, [])) (fun x e hx => ?_) _ h
  exact activation_frame hx ..

theorem fetchStep_frame (h : s.guard.armed = []) {b row : Nat} {i : EInst} {j : AJob}
    (ht : fetchStep s q c a i j row = some t) : FeedFrame q c b s t := by
  simp only [fetchStep, Option.ite_none_right_eq_some, Option.some.injEq] at ht
  obtain ⟨-, rfl⟩ := ht
  have hread := readQueued_frame h q c a i row (stepElems i.word.toNat j.start row (j.fetchedBy row))
  refine (hread.feedFrame b).trans (FeedFrame.foldl (fun s x _ => updArr_feedFrame (fun r => ?_) s ..) _ (hread.quiet h))
  refine Arr.map_jobs_updJob ?_ r i.id
  exact fun _ => rfl

theorem fillQueue_frame (h : s.guard.armed = []) {b id row : Nat} {i : EInst}
    (ht : fillQueues s q c a i id [row] = some t) : FeedFrame q c b s t := by
  simp only [fillQueues, List.foldl_cons, List.foldl_nil, Option.bind_some] at ht
  split at ht
  · split at ht
    · cases ht
      exact .refl ..
    · exact fetchStep_frame h ht
  · cases ht

theorem fillQueues_frame (h : s.guard.armed = []) {b id : Nat} {i : EInst} {rows : List Nat}
    (ht : fillQueues s q c a i id rows = some t) : FeedFrame q c b s t := by
  obtain ⟨u, hu, hframe⟩ := FeedFrame.foldl_bind (a := b) (f := fun s row => fillQueues s q c a i id [row])
    (fun _ _ _ hs => fillQueue_frame hs) rows ht
  cases hu
  exact hframe h

theorem weightUpset_frame (h : s.guard.armed = []) (q c a b : Nat) (bank : Bool) (base col : Nat) (bits : List Nat) :
    FeedFrame q c b s (weightUpset s q c a bank base col bits) := by
  simp only [weightUpset, takeInject_quiet h]
  split
  · exact .refl ..
  · exact ((corrected_frame ..).readFrame q c).feedFrame b
  · refine (updArr_feedFrame (fun r => ?_) s q c b a).trans (((raiseCore_frame ..).readFrame q c).feedFrame b)
    rw [Arr.setBank_jobs]

/-- A job of array `a` after deliveries has the progress of one before them. -/
theorem FeedFrame.job (h : FeedFrame q c a s t) {x : AJob} (hx : x ∈ (t.arrOf q c a).jobs) :
    ∃ y ∈ (s.arrOf q c a).jobs, y.progress = x.progress :=
  List.mem_map.1 (h.jobs ▸ List.mem_map_of_mem hx)

/-! ### One step fed (R93–R95) -/

/-- The rows have fed one step more of a job. -/
def rowsFed (rows : List Nat) (j : AJob) : AJob := { j with fed := rows.foldl (fun l o => alter l o (· + 1)) j.fed }

/-- What remains of a feed: the instruction notes a stained operand, finished reads are released and a finished job ends. -/
def feedSettled (s : State) (q c a : Nat) (i : EInst) (stained : Bool) : State :=
  pruneArr (releaseArrayReads (noteHalt s q c i stained) q c) q c a

/-- Where the rows may feed and their scales and queues can be filled, the step is deliveries, the count of the step on the
array, and what remains. -/
theorem feedStep_feeds (h : s.guard.armed = []) {row : Nat} (flips : List (Nat × Nat)) {i : EInst} {j : AJob}
    (hjob : feedJob (s.coreOf q c) (s.arrOf q c a) row = some (i, j))
    (hmay : mayFeed (s.coreOf q c) (s.arrOf q c a) i j row = true)
    (hfill : (fillQueues (fetchScales s q c a i j (j.fedBy row / rowSteps i.word.toNat j.start)) q c a i i.id
      (rowGroup i.word.toNat row)).isSome = true) :
    ∃ u f stained, FeedFrame q c a s u
      ∧ (∀ r, (f r).jobs = (r.updJob i.id (rowsFed (rowGroup i.word.toNat row))).jobs)
      ∧ feedStep s q c a row flips = feedSettled (u.updArr q c a f) q c a i stained := by
  obtain ⟨t, ht⟩ := Option.isSome_iff_exists.1 hfill
  have hscales := fetchScales_frame h q c a a i j (j.fedBy row / rowSteps i.word.toNat j.start)
  have hqueues := hscales.trans (fillQueues_frame (hscales.quiet h) ht)
  simp only [feedStep, hjob, hmay, ht, Bool.not_true, Bool.false_eq_true, if_false]
  refine ⟨_, _, _, hqueues.trans (FeedFrame.foldl (fun s col hs => ?_) _ (hqueues.quiet h)), ?_, rfl⟩
  · exact weightUpset_frame hs ..
  · exact fun _ => rfl

theorem State.mapAq_pad (s : State) (q c : Nat) (f : CoreSt → EInst → EInst) :
    ((s.mapAq q c f).coreOf q c).pad = (s.coreOf q c).pad := by
  rw [State.mapAq, State.coreOf_updCoreOf_same]

theorem State.mapAq_arrOf (s : State) (q c : Nat) (f : CoreSt → EInst → EInst) (a : Nat) :
    (s.mapAq q c f).arrOf q c a = s.arrOf q c a := by
  rw [State.arrOf, State.mapAq, State.coreOf_updCoreOf_same]
  rfl

theorem noteHalt_mem (s : State) (q c : Nat) (i : EInst) (st : Bool) : (noteHalt s q c i st).mem = s.mem := by
  unfold noteHalt
  split <;> rfl

theorem noteHalt_pad (s : State) (q c : Nat) (i : EInst) (st : Bool) :
    ((noteHalt s q c i st).coreOf q c).pad = (s.coreOf q c).pad := by
  unfold noteHalt
  split
  · exact State.mapAq_pad ..
  · rfl

theorem feedSettled_mem (s : State) (q c a : Nat) (i : EInst) (st : Bool) : (feedSettled s q c a i st).mem = s.mem :=
  noteHalt_mem ..

theorem feedSettled_pad (s : State) (q c a : Nat) (i : EInst) (st : Bool) :
    ((feedSettled s q c a i st).coreOf q c).pad = (s.coreOf q c).pad := by
  rw [feedSettled, coreOf_pruneArr, CoreSt.setArr_pad, releaseArrayReads, State.mapAq_pad, noteHalt_pad]

theorem mem_jobs_of_feedSettled {i : EInst} {st : Bool} {x : AJob}
    (hx : x ∈ ((feedSettled s q c a i st).arrOf q c a).jobs) : x ∈ (s.arrOf q c a).jobs := by
  rw [feedSettled, arrOf_pruneArr] at hx
  have hx := mem_jobs_of_pruneJobs hx
  rwa [releaseArrayReads, State.mapAq_arrOf, noteHalt_arrOf] at hx

/-- A job that a feed leaves counts the step for the rows that fed it, and is otherwise as far as a job before the feed. -/
theorem FeedFrame.job_fed (h : FeedFrame q c a s u) {f : Arr → Arr} {i : EInst} {rows : List Nat} {st : Bool} {x : AJob}
    (hf : ∀ r, (f r).jobs = (r.updJob i.id (rowsFed rows)).jobs)
    (hx : x ∈ ((feedSettled (u.updArr q c a f) q c a i st).arrOf q c a).jobs) (hid : x.id = i.id) :
    ∃ y ∈ (s.arrOf q c a).jobs, y.id = i.id
      ∧ x.fed = rows.foldl (fun l o => alter l o (· + 1)) y.fed ∧ x.entered = y.entered ∧ x.done = y.done := by
  have hx := mem_jobs_of_feedSettled hx
  rw [State.arrOf_updArr_same, hf] at hx
  obtain ⟨z, hz, hzid, rfl⟩ := Arr.mem_updJob hx hid
  obtain ⟨y, hy, hyz⟩ := h.job hz
  simp only [AJob.progress, Prod.mk.injEq] at hyz
  obtain ⟨hyid, hfed, hentered, hdone⟩ := hyz
  exact ⟨y, hy, hyid.trans hzid, by rw [hfed]; rfl, hentered.symm, hdone.symm⟩

theorem feedStep_stalls {row : Nat} (flips : List (Nat × Nat)) {i : EInst} {j : AJob}
    (hjob : feedJob (s.coreOf q c) (s.arrOf q c a) row = some (i, j))
    (hmay : mayFeed (s.coreOf q c) (s.arrOf q c a) i j row = false) : feedStep s q c a row flips = s := by
  simp only [feedStep, hjob, hmay, Bool.not_false, if_true]

end

theorem exec_arrayFeedStep {s : State} {q : Cl} {c : Core} {a : Fin 4} (row : Fin 8) (flips : List (Nat × Nat)) :
    exec (.arrayFeedStep q c a row flips) s = onClock q s (feedStep s q.val c.val a.val row.val flips) := rfl

/-! ### What one column sees of its array (R61, R91) -/

/-- A job as column `col` sees it. -/
structure ColJob where
  id : Nat
  entered : Nat
  done : Nat
  begun : Bool
  columns : Nat

def AJob.onColumn (col : Nat) (j : AJob) : ColJob :=
  { id := j.id, entered := j.enteredBy col, done := j.doneBy col, begun := j.begunBy col, columns := j.entered.length }

/-- A fed step without the marks of the columns that have taken it. -/
def Fed.unmarked (f : Fed) : Fed := { f with taken := 0 }

/-- The fed steps that column `col` has not taken. -/
def Arr.untaken (r : Arr) (col : Nat) : List Fed := (r.pipe.filter fun f => !f.taken.getLsbD col).map Fed.unmarked

/-- Column `col` of array `a` sees the same: its register, the jobs and the fed steps that it has not taken. -/
structure ColumnFrame (q c a col : Nat) (s t : State) : Prop extends ArrayFrame q c s t where
  reg : (t.arrOf q c a).col col = (s.arrOf q c a).col col
  jobs : (t.arrOf q c a).jobs.map (AJob.onColumn col) = (s.arrOf q c a).jobs.map (AJob.onColumn col)
  untaken : (t.arrOf q c a).untaken col = (s.arrOf q c a).untaken col

/-- The fed step that column `col` takes next of a job. -/
def nextFed (r : Arr) (i : EInst) (j : AJob) (col : Nat) : Option Fed :=
  r.pipe.find? fun f => f.id == i.id && f.actRow == j.doneBy col && f.pos == j.enteredBy col && !f.taken.getLsbD col

/-- Column `col` of array `a` takes step `f` of the job `j` of instruction `i` next. -/
structure Takes (s : State) (q c a col : Nat) (i : EInst) (j : AJob) (f : Fed) : Prop where
  job : colJob (s.coreOf q c) (s.arrOf q c a) col = some (i, j)
  fed : nextFed (s.arrOf q c a) i j col = some f

/-- What column `col` takes next does not pass its limit (R63, R64, R103). -/
def UnderLimit (s : State) (q c a col : Nat) : Prop :=
  ∀ i j f, Takes s q c a col i j f →
    passesLimit i.word.toNat (openColumn i.word.toNat j col ((s.arrOf q c a).col col)) f.count = false

section
variable {q c a col : Nat} {s t u : State} {i : EInst} {j : AJob} {f : Fed}

theorem ColumnFrame.refl (q c a col : Nat) (s : State) : ColumnFrame q c a col s s := ⟨.refl q c s, rfl, rfl, rfl⟩

theorem ColumnFrame.symm (h : ColumnFrame q c a col s t) : ColumnFrame q c a col t s :=
  ⟨h.toArrayFrame.symm, h.reg.symm, h.jobs.symm, h.untaken.symm⟩

theorem ColumnFrame.trans (h : ColumnFrame q c a col s t) (k : ColumnFrame q c a col t u) : ColumnFrame q c a col s u :=
  ⟨h.toArrayFrame.trans k.toArrayFrame, k.reg.trans h.reg, k.jobs.trans h.jobs, k.untaken.trans h.untaken⟩

/-- A job of a column is one of the array's, in progress for an instruction of the core, and not over in the column. -/
theorem colJob_some {k : CoreSt} {r : Arr} (h : colJob k r col = some (i, j)) :
    j ∈ r.jobs ∧ arrInst k j.id = some i ∧ colOver i j col = false := by
  obtain ⟨x, hx, hfound⟩ := List.exists_of_findSome?_eq_some h
  obtain ⟨y, hy, hover⟩ := Option.bind_eq_some_iff.1 hfound
  simp only [Option.ite_none_right_eq_some, Bool.not_eq_true', Option.some.injEq, Prod.mk.injEq] at hover
  obtain ⟨hover, rfl, rfl⟩ := hover
  exact ⟨hx, hy, hover⟩

theorem arrInst_id {k : CoreSt} {id : Nat} (h : arrInst k id = some i) : i.id = id := by
  simpa using List.find?_some h

/-- A column's job as the column sees it depends on the jobs as the column sees them. -/
theorem colJob_onColumn (k : CoreSt) (r : Arr) (col : Nat) :
    (colJob k r col).map (fun x => (x.1, x.2.onColumn col))
      = (r.jobs.map (AJob.onColumn col)).findSome? fun v => (arrInst k v.id).bind fun i =>
          if rowsOf i ≤ v.done then none else some (i, v) := by
  rw [colJob, findJob, List.map_findSome?, List.findSome?_map]
  congr 1
  funext j
  simp only [Function.comp_apply, AJob.onColumn]
  cases arrInst k j.id with
  | none => rfl
  | some i => by_cases hover : rowsOf i ≤ j.doneBy col <;> simp [colOver, hover]

/-- The step that a column takes next, but for its marks, depends on the steps that the column has not taken. -/
theorem nextFed_unmarked (r : Arr) (i : EInst) (j : AJob) (col : Nat) : (nextFed r i j col).map Fed.unmarked
    = (r.untaken col).find? fun f => f.id == i.id && f.actRow == j.doneBy col && f.pos == j.enteredBy col := by
  rw [nextFed, Arr.untaken, List.find?_map, List.find?_filter]
  congr 2
  funext f
  simp only [Bool.decide_and, Bool.decide_eq_true, Function.comp_apply]
  exact Bool.and_comm ..

/-- What a column takes next it takes wherever it sees the same. -/
theorem ColumnFrame.takes (h : ColumnFrame q c a col s t) (ht : Takes s q c a col i j f) :
    ∃ j' f', Takes t q c a col i j' f' ∧ j'.onColumn col = j.onColumn col ∧ f'.unmarked = f.unmarked := by
  have hjobs := colJob_onColumn (t.coreOf q c) (t.arrOf q c a) col
  rw [h.jobs, h.arrInst, ← colJob_onColumn, ht.job, Option.map_some, Option.map_eq_some_iff] at hjobs
  obtain ⟨⟨i', j'⟩, hjob, heq⟩ := hjobs
  obtain ⟨rfl, hj⟩ := Prod.mk.inj heq
  have hdone : j'.doneBy col = j.doneBy col := congrArg ColJob.done hj
  have hentered : j'.enteredBy col = j.enteredBy col := congrArg ColJob.entered hj
  have hfed := nextFed_unmarked (t.arrOf q c a) i' j' col
  rw [h.untaken, hdone, hentered, ← nextFed_unmarked, ht.fed, Option.map_some, Option.map_eq_some_iff] at hfed
  obtain ⟨f', hf', hunmarked⟩ := hfed
  exact ⟨j', f', ⟨hjob, hf'⟩, hj, hunmarked⟩

/-- A job of the array is one that the column sees so wherever it sees the same. -/
theorem ColumnFrame.job (h : ColumnFrame q c a col s t) {x : AJob} (hx : x ∈ (s.arrOf q c a).jobs) :
    ∃ y ∈ (t.arrOf q c a).jobs, y.onColumn col = x.onColumn col :=
  List.mem_map.1 (h.jobs ▸ List.mem_map_of_mem hx)

theorem ColumnFrame.underLimit (h : ColumnFrame q c a col s t) (hs : UnderLimit s q c a col) : UnderLimit t q c a col := by
  intro i j f ht
  obtain ⟨j', f', ht', hj, hf⟩ := h.symm.takes ht
  have hbegun : j'.begunBy col = j.begunBy col := congrArg ColJob.begun hj
  have hcount : f'.unmarked.count = f.unmarked.count := congrArg Fed.count hf
  have hlimit := hs i j' f' ht'
  rw [openColumn, hbegun, ← h.reg] at hlimit
  exact hcount ▸ hlimit

/-! ### A column takes a step (R61, R91, R95) -/

/-- A job of which column `col` has taken `done` positions of its activation row; the row ends with its last position
where the reduction stays in hold. -/
def jobTaken (i : EInst) (col done : Nat) (j : AJob) : AJob :=
  let closes := done == fK i.word.toNat && fEnd i.word.toNat == 0
  { j with entered := alter j.entered col fun _ => if closes then 0 else done
           done := if closes then alter j.done col (· + 1) else j.done
           begun := alter j.begun col fun _ => !closes }

/-- An array whose column `col` has taken step `f` and holds `v`. -/
def stepTaken (i : EInst) (f : Fed) (col done : Nat) (v : Column) (r : Arr) : Arr :=
  { (r.setCol col v).updJob i.id (jobTaken i col done) with
    pipe := (r.pipe.map (markTaken f col)).filter (·.taken != 15) }

theorem columnSaturates_quiet (h : s.guard.armed = []) (e : Stepped) :
    columnSaturates s q c a col e = columnEvents s q c a col e := by
  simp only [columnSaturates, takeInject_quiet h]

/-- A column takes its next step: the array counts and marks it, and events follow. -/
theorem columnTake_takes (h : s.guard.armed = []) (upset : Option (Fin 4 × ColUpset)) (ht : Takes s q c a col i j f)
    (hlimit : passesLimit i.word.toNat (openColumn i.word.toNat j col ((s.arrOf q c a).col col)) f.count = false) :
    ∃ e : Stepped, columnTake s q c a upset col = columnEvents
      (s.updArr q c a (stepTaken i f col (j.enteredBy col + f.count) e.col)) q c a col e := by
  have hfed := ht.fed
  unfold nextFed at hfed
  simp only [columnTake, ht.job, hfed, hlimit, Bool.false_eq_true, if_false]
  split
  · rw [columnSaturates_quiet (by exact h)]
    exact ⟨_, rfl⟩
  · exact ⟨_, rfl⟩

theorem columnTake_idle (upset : Option (Fin 4 × ColUpset)) (h : ∀ i j f, ¬ Takes s q c a col i j f) :
    columnTake s q c a upset col = s := by
  simp only [columnTake]
  split
  · rfl
  · rename_i i j hjob
    split
    · rfl
    · rename_i f hfed
      exact absurd ⟨hjob, hfed⟩ (h i j f)

theorem columnEvents_frame (s : State) (q c a col : Nat) (e : Stepped) :
    EventFrame (s.setNumf q c e.flags) (columnEvents s q c a col e) := by
  have hovf : EventFrame (s.setNumf q c e.flags) (if e.ovf then
      raiseCore (s.setNumf q c e.flags) q c evAccOvf true 1 (4 * a + col) else s.setNumf q c e.flags) := by
    split
    · exact raiseCore_frame ..
    · exact .refl _
  simp only [columnEvents]
  split
  · exact hovf.trans (raiseCore_frame ..)
  · exact hovf

theorem Arr.col_setCol_other (r : Arr) {m : Nat} (v : Column) (hm : m < 4) (hcol : col < 4) (h : col ≠ m) :
    (r.setCol m v).col col = r.col col := by
  interval_cases m <;> interval_cases col <;> simp_all [Arr.setCol, Arr.col]

@[simp] theorem Arr.setCol_jobs (r : Arr) (col : Nat) (v : Column) : (r.setCol col v).jobs = r.jobs := by
  simp only [Arr.setCol]
  split <;> rfl

theorem columnEvents_arrOf (s : State) (q c a col : Nat) (e : Stepped) (b : Nat) :
    (columnEvents s q c a col e).arrOf q c b = s.arrOf q c b :=
  ((columnEvents_frame ..).arrOf ..).trans (setNumf_arrOf ..)

theorem columnEvents_columnFrame (s : State) (q c a m : Nat) (e : Stepped) (col : Nat) :
    ColumnFrame q c a col s (columnEvents s q c a m e) := by
  refine ⟨(setNumf_arrayFrame ..).trans ((columnEvents_frame ..).readFrame q c).arrayFrame, ?_, ?_, ?_⟩ <;>
    rw [columnEvents_arrOf]

/-- A job's progress in one column does not show in another. -/
theorem jobTaken_onColumn_other (i : EInst) {m : Nat} (done : Nat) (j : AJob) (h : col ≠ m) :
    (jobTaken i m done j).onColumn col = j.onColumn col := by
  simp only [AJob.onColumn, jobTaken, AJob.enteredBy, AJob.doneBy, AJob.begunBy, getD_alter, alter_length, h, false_and,
    if_false, ColJob.mk.injEq, true_and, and_true]
  split
  · rw [getD_alter, if_neg fun hand => h hand.1]
  · rfl

/-- The mark that a column sets is its own bit. -/
theorem getLsbD_mark (taken : BitVec 4) (m col : Fin 4) :
    (BitVec.ofNat 4 (setSeg taken.toNat m.val m.val 1)).getLsbD col.val
      = (decide (col = m) || taken.getLsbD col.val) := by
  revert taken m col
  decide

theorem markTaken_other (f x : Fed) {m : Nat} (hm : m < 4) (hcol : col < 4) (h : col ≠ m) :
    (markTaken f m x).taken.getLsbD col = x.taken.getLsbD col := by
  unfold markTaken
  split
  · have hbit := getLsbD_mark x.taken ⟨m, hm⟩ ⟨col, hcol⟩
    simpa [h] using hbit
  · rfl

theorem markTaken_unmarked (f x : Fed) (m : Nat) : (markTaken f m x).unmarked = x.unmarked := by
  unfold markTaken
  split <;> rfl

/-- A step that every column has taken is one that a given column has taken. -/
theorem not_all_taken {x : Fed} (hcol : col < 4) (h : x.taken.getLsbD col = false) : x.taken ≠ 15 := by
  rintro hall
  rw [hall] at h
  interval_cases col <;> cases h

theorem stepTaken_untaken_other (i : EInst) (f : Fed) {m : Nat} (done : Nat) (v : Column) (r : Arr) (hm : m < 4)
    (hcol : col < 4) (h : col ≠ m) : (stepTaken i f m done v r).untaken col = r.untaken col := by
  have hkept : ∀ x : Fed, ((!x.taken.getLsbD col) && (markTaken f m x).taken != 15) = !x.taken.getLsbD col := fun x => by
    cases hbit : x.taken.getLsbD col with
    | true => rfl
    | false => simpa using not_all_taken hcol ((markTaken_other f x hm hcol h).trans hbit)
  simp only [Arr.untaken, stepTaken, List.filter_filter, List.filter_map, List.map_map, Function.comp_def,
    markTaken_other f _ hm hcol h, markTaken_unmarked, hkept]

/-- A step that one column takes is not seen by another. -/
theorem stepTaken_columnFrame (s : State) (q c a : Nat) (i : EInst) (f : Fed) {m : Nat} (done : Nat) (v : Column)
    (hm : m < 4) (hcol : col < 4) (h : col ≠ m) :
    ColumnFrame q c a col s (s.updArr q c a (stepTaken i f m done v)) := by
  refine ⟨updArr_arrayFrame .., ?_, ?_, ?_⟩
  · rw [State.arrOf_updArr_same]
    exact Arr.col_setCol_other _ v hm hcol h
  · rw [State.arrOf_updArr_same]
    have hjobs := Arr.map_jobs_updJob (fun j => jobTaken_onColumn_other i done j h) ((s.arrOf q c a).setCol m v) i.id
    rwa [Arr.setCol_jobs] at hjobs
  · rw [State.arrOf_updArr_same, stepTaken_untaken_other i f done v _ hm hcol h]

/-- Where column `m` is under its limit, what it takes is not seen by another. -/
theorem columnTake_columnFrame (h : s.guard.armed = []) (upset : Option (Fin 4 × ColUpset)) {m : Nat}
    (hlimit : UnderLimit s q c a m) (hm : m < 4) (hcol : col < 4) (hne : col ≠ m) :
    ColumnFrame q c a col s (columnTake s q c a upset m) := by
  by_cases ht : ∃ i j f, Takes s q c a m i j f
  · obtain ⟨i, j, f, ht⟩ := ht
    obtain ⟨e, he⟩ := columnTake_takes h upset ht (hlimit i j f ht)
    rw [he]
    exact (stepTaken_columnFrame s q c a i f _ e.col hm hcol hne).trans (columnEvents_columnFrame ..)
  · push Not at ht
    rw [columnTake_idle upset ht]
    exact .refl ..

/-- Short of the row's last position the row stays open, with the positions taken counted. -/
theorem jobTaken_short {done : Nat} (hcol : col < j.entered.length) (hshort : done ≠ fK i.word.toNat) :
    (jobTaken i col done j).enteredBy col = done ∧ (jobTaken i col done j).doneBy col = j.doneBy col := by
  have hopen : (done == fK i.word.toNat && fEnd i.word.toNat == 0) = false := by simp [hshort]
  simp only [jobTaken, AJob.enteredBy, AJob.doneBy, hopen, Bool.false_eq_true, if_false, getD_alter, hcol, and_self,
    if_true]

/-- A column that takes a step short of its row's last has then taken that many positions more, of the same row. -/
theorem columnTake_enters (h : s.guard.armed = []) (upset : Option (Fin 4 × ColUpset)) (hlimit : UnderLimit s q c a col)
    (ht : Takes s q c a col i j f) (hcol : col < j.entered.length)
    (hshort : j.enteredBy col + f.count ≠ fK i.word.toNat) :
    ∃ x ∈ ((columnTake s q c a upset col).arrOf q c a).jobs, x.id = i.id
      ∧ x.enteredBy col = j.enteredBy col + f.count ∧ x.doneBy col = j.doneBy col := by
  obtain ⟨e, he⟩ := columnTake_takes h upset ht (hlimit i j f ht)
  obtain ⟨hj, hinst, -⟩ := colJob_some ht.job
  have hid : j.id = i.id := (arrInst_id hinst).symm
  rw [he, columnEvents_arrOf, State.arrOf_updArr_same]
  exact ⟨jobTaken i col (j.enteredBy col + f.count) j, List.mem_map.2 ⟨j, by rwa [Arr.setCol_jobs], if_pos hid⟩, hid,
    jobTaken_short hcol hshort⟩

/-! ### Each column takes its step (R91) -/

/-- The first `m` columns have taken their next steps. -/
def columnsTaken (s : State) (q c a m : Nat) : State :=
  (List.range m).foldl (fun s col => columnTake s q c a none col) s

theorem columnsTaken_succ (s : State) (q c a m : Nat) :
    columnsTaken s q c a (m + 1) = columnTake (columnsTaken s q c a m) q c a none m := by
  simp [columnsTaken, List.range_succ]

/-- Every column of the array is under its limit. -/
def AllUnderLimit (s : State) (q c a : Nat) : Prop := ∀ col < 4, UnderLimit s q c a col

/-- What the columns before it take a column does not see. -/
theorem columnsTaken_before (h : s.guard.armed = []) (hlimit : AllUnderLimit s q c a) {m : Nat} (hm : m ≤ col)
    (hcol : col < 4) : ColumnFrame q c a col s (columnsTaken s q c a m) := by
  induction m generalizing col with
  | zero => exact .refl ..
  | succ m ih =>
    have hbefore := ih (Nat.le_of_succ_le hm) hcol
    have hown := (ih (Nat.le_refl m) (by omega)).underLimit (hlimit m (by omega))
    rw [columnsTaken_succ]
    exact hbefore.trans (columnTake_columnFrame (hbefore.quiet h) none hown (by omega) hcol (by omega))

theorem columnsTaken_underLimit (h : s.guard.armed = []) (hlimit : AllUnderLimit s q c a) (hcol : col < 4) :
    UnderLimit (columnsTaken s q c a col) q c a col :=
  (columnsTaken_before h hlimit (Nat.le_refl col) hcol).underLimit (hlimit col hcol)

/-- What the columns after it take it does not see. -/
theorem columnsTaken_after (h : s.guard.armed = []) (hlimit : AllUnderLimit s q c a) {m : Nat} (hm : col < m) :
    m ≤ 4 → ColumnFrame q c a col (columnsTaken s q c a (col + 1)) (columnsTaken s q c a m) := by
  induction m, hm using Nat.le_induction with
  | base => exact fun _ => .refl ..
  | succ m hm ih =>
    intro hm4
    have hquiet : (columnsTaken s q c a m).guard.armed = [] :=
      (columnsTaken_before h hlimit (Nat.le_refl m) (by omega)).quiet h
    rw [columnsTaken_succ s q c a m]
    exact (ih (by omega)).trans
      (columnTake_columnFrame hquiet none (columnsTaken_underLimit h hlimit (by omega)) (by omega) (by omega) (by omega))

/-- What a column takes short of its row's last position is counted when all four columns have had their turn. -/
theorem columnsTaken_enters (h : s.guard.armed = []) (hlimit : AllUnderLimit s q c a) (hcol : col < 4)
    (ht : Takes s q c a col i j f) (hlen : j.entered.length = 4) (hshort : j.enteredBy col + f.count ≠ fK i.word.toNat) :
    ∃ x ∈ ((columnsTaken s q c a 4).arrOf q c a).jobs, x.id = i.id
      ∧ x.enteredBy col = j.enteredBy col + f.count ∧ x.doneBy col = j.doneBy col := by
  have hbefore := columnsTaken_before h hlimit (Nat.le_refl col) hcol
  obtain ⟨j', f', ht', hj, hf⟩ := hbefore.takes ht
  have hentered : j'.enteredBy col = j.enteredBy col := congrArg ColJob.entered hj
  have hdone : j'.doneBy col = j.doneBy col := congrArg ColJob.done hj
  have hlen' : j'.entered.length = 4 := (congrArg ColJob.columns hj).trans hlen
  have hcount : f'.count = f.count := (congrArg Fed.count hf : f'.unmarked.count = f.unmarked.count)
  obtain ⟨x, hx, hid, hxe, hxd⟩ := columnTake_enters (hbefore.quiet h) none
    (columnsTaken_underLimit h hlimit hcol) ht' (hlen' ▸ hcol) (by rwa [hentered, hcount])
  rw [← columnsTaken_succ] at hx
  obtain ⟨y, hy, hyx⟩ := (columnsTaken_after h hlimit hcol (Nat.le_refl 4)).job hx
  have hye : y.enteredBy col = x.enteredBy col := congrArg ColJob.entered hyx
  have hyd : y.doneBy col = x.doneBy col := congrArg ColJob.done hyx
  exact ⟨y, hy, (congrArg ColJob.id hyx).trans hid, by rw [hye, hxe, hentered, hcount], by rw [hyd, hxd, hdone]⟩

/-- Memory, the scratchpad and the array queue stay when the four columns have had their turn. -/
theorem columnsTaken_arrayFrame (h : s.guard.armed = []) (hlimit : AllUnderLimit s q c a) :
    ArrayFrame q c s (columnsTaken s q c a 4) :=
  (columnsTaken_before h hlimit (m := 1) (col := 1) (Nat.le_refl 1) (by decide)).toArrayFrame.trans
    (columnsTaken_after h hlimit (col := 0) (by decide) (Nat.le_refl 4)).toArrayFrame

/-- A job with a row open in some column is not dropped. -/
theorem mem_pruneJobs {k : CoreSt} {r : Arr} {x : AJob} (hx : x ∈ r.jobs) (hi : arrInst k x.id = some i) (hcol : col < 4)
    (hopen : colOver i x col = false) : x ∈ (pruneJobs k r).jobs := by
  have hover : jobOver i x = false := by
    rw [jobOver, Bool.and_eq_false_iff]
    exact .inr (List.all_eq_false.2 ⟨col, List.mem_range.2 hcol, by simp [hopen]⟩)
  exact List.mem_filter.2 ⟨hx, by simp only [hi, hover, Bool.not_false]⟩

end

theorem exec_arrayProductEnter {s : State} {q : Cl} {c : Core} {a : Fin 4} : exec (.arrayProductEnter q c a none) s
    = onClock q s (pruneArr (columnsTaken s q.val c.val a.val 4) q.val c.val a.val) := rfl

/-- Settles O16: the start as two changes of the core, a feed as deliveries and the count of the step, and a product entry
column by column, of which none sees what another takes. -/
theorem arrayStartsAndFeeds : Obligations.ArrayStartsAndFeeds := by
  unfold Obligations.ArrayStartsAndFeeds
  intro s q c k hclock hquiet
  refine ⟨fun i hi hoverlap hscore hload hopens => ?_, fun a => ?_⟩
  · refine ⟨_, exec_arrayInstrStart hclock hi hoverlap hscore hload hopens, arrayStarted_only .., ?_, ?_,
      fun a _ => arrOf_arrayStarted ..⟩
    · rw [coreOf_arrayStarted]
      rfl
    · rw [coreOf_arrayStarted]
      rfl
  intro r
  refine ⟨fun row flips i j hjob => ?_, _, exec_arrayProductEnter.trans (onClock_runs hclock), fun hbelow => ?_⟩
  · refine ⟨fun hmay => ?_, fun hmay hfill => ?_⟩
    · rw [exec_arrayFeedStep, onClock_runs hclock, feedStep_stalls flips hjob hmay]
    · obtain ⟨u, f, stained, hfeed, hf, hstep⟩ := feedStep_feeds hquiet flips hjob hmay hfill
      refine ⟨_, (exec_arrayFeedStep row flips).trans ((onClock_runs hclock).trans (congrArg _ hstep)), ?_, ?_,
        fun x hx hid => hfeed.job_fed hf hx hid⟩
      · rw [feedSettled_mem]
        exact hfeed.mem
      · rw [feedSettled_pad, State.coreOf_updArr_same, CoreSt.setArr_pad]
        exact hfeed.pad
  · have hlimit : AllUnderLimit s q.val c.val a.val := fun col hcol i j f ht =>
      hbelow col i j f hcol ht.job (List.mem_of_find?_eq_some ht.fed)
    have hframe := columnsTaken_arrayFrame hquiet hlimit
    refine ⟨hframe.mem, ?_, fun col i j f hcol hjob hlen hfed hshort => ?_⟩
    · rw [coreOf_pruneArr, CoreSt.setArr_pad]
      exact hframe.pad
    · obtain ⟨x, hx, hid, hentered, hdone⟩ := columnsTaken_enters hquiet hlimit hcol ⟨hjob, hfed⟩ hlen hshort
      obtain ⟨-, hinst, hopen⟩ := colJob_some hjob
      have hinst' : arrInst ((columnsTaken s q.val c.val a.val 4).coreOf q.val c.val) x.id = some i := by
        rw [hframe.arrInst, hid, arrInst_id hinst]
        exact hinst
      refine ⟨x, ?_, hid, hentered⟩
      rw [arrOf_pruneArr]
      refine mem_pruneJobs hx hinst' hcol ?_
      rw [colOver, hdone]
      exact hopen

end Sys2Proof.Machine

namespace Sys2Proof.Machine
open Sys2Proof

/-! ### The issue point (R118) -/

/-- `advance` moves the issue point, and reads nothing but it and where the words come from. -/
theorem advance_of_point {k j : Cluster} (hsrc : j.src = k.src) (hpc : j.pc = k.pc) (hblocks : j.blocks = k.blocks) :
    advance j = { j with pc := (advance k).pc, blocks := (advance k).blocks, state := (advance k).state } := by
  have hlen : blockLen j = blockLen k := by simp only [blockLen, hblocks]
  unfold advance
  rw [hsrc, hlen, hpc, hblocks]
  by_cases h : k.src = true
  · by_cases g : blockLen k ≤ k.pc.toNat + 1
    · simp only [h, g, if_true]
    · simp only [h, g, if_true, if_false, ← hblocks]
  · simp only [h, if_false, ← hblocks, Bool.false_eq_true]

theorem advance_point (k : Cluster) :
    advance k = { k with pc := (advance k).pc, blocks := (advance k).blocks, state := (advance k).state } :=
  advance_of_point rfl rfl rfl

/-- A word that goes on after a change of its cluster leaves the cluster changed and the issue point moved. -/
theorem seqOp_go {s : State} {q : Cl} {op : Nat} {w : BitVec 120} {body : Nat → Nat → State → Did} {f : Cluster → Cluster}
    (h : Issues s q op w) (hbody : body q.val (wordOf op w) s = .go (s.updClu q.val f)) :
    ∃ t, seqOp op q w body s = .next t ∧ OnlyCluster s t q.val ∧ t.clu q.val = advance (f (s.clu q.val)) := by
  refine ⟨_, seqOp_issues body h, ?_, ?_⟩
  · rw [hbody]
    exact (updClu_only ..).trans (updClu_only ..)
  · rw [hbody, settle_go, State.clu_updClu_same, State.clu_updClu_same]

/-- A word that goes on with no change but that of the issue point. -/
theorem seqOp_pass {s : State} {q : Cl} {op : Nat} {w : BitVec 120} {body : Nat → Nat → State → Did}
    (h : Issues s q op w) (hbody : body q.val (wordOf op w) s = .go s) :
    ∃ t, seqOp op q w body s = .next t ∧ OnlyCluster s t q.val ∧ t.clu q.val = advance (s.clu q.val) := by
  refine ⟨_, seqOp_issues body h, ?_, ?_⟩
  · rw [hbody]
    exact updClu_only ..
  · rw [hbody, settle_go, State.clu_updClu_same]

/-- A word that stalls adds one stalled cycle and leaves everything else (Tables 4.7, 4.9). -/
theorem seqOp_stall {s : State} {q : Cl} {op : Nat} {w : BitVec 120} {body : Nat → Nat → State → Did} {n : Nat}
    (h : Issues s q op w) (hbody : body q.val (wordOf op w) s = .stall s n) :
    ∃ t, seqOp op q w body s = .next t ∧ OnlyCluster s t q.val ∧ t.clu q.val = stallAt (s.clu q.val) n := by
  refine ⟨_, seqOp_issues body h, ?_, ?_⟩
  · rw [hbody]
    exact updClu_only ..
  · rw [hbody, settle_stall, State.clu_updClu_same]

/-- Settles O2: a read, a stain and a write of s0, each by its own rule of the registers. -/
theorem scalarZeroRegister : Obligations.ScalarZeroRegister :=
  fun k v st => ⟨sReg_zero k, sStain_zero k, putS_zero k v st⟩

/-! ### Fields and scalar registers (R110, R147) -/

theorem testBit_setSeg (n hi lo v i : Nat) (h : lo ≤ hi) :
    (setSeg n hi lo v).testBit i = if lo ≤ i ∧ i ≤ hi then v.testBit (i - lo) else n.testBit i := by
  have hsum : setSeg n hi lo v
      = 2 ^ lo * (2 ^ (hi + 1 - lo) * (n / 2 ^ (hi + 1)) + v % 2 ^ (hi + 1 - lo)) + n % 2 ^ lo := by
    have hpow : 2 ^ (hi + 1) = 2 ^ lo * 2 ^ (hi + 1 - lo) := by rw [← Nat.pow_add]; congr 1; omega
    simp only [setSeg]
    rw [Nat.mul_add, ← Nat.mul_assoc, ← hpow]
    omega
  rw [hsum, Nat.testBit_two_pow_mul_add _ (Nat.mod_lt _ (by positivity)),
    Nat.testBit_two_pow_mul_add _ (Nat.mod_lt _ (by positivity))]
  by_cases h1 : i < lo
  · have : ¬ (lo ≤ i ∧ i ≤ hi) := by omega
    simp [h1, this]
  · by_cases h2 : i ≤ hi
    · have h3 : i - lo < hi + 1 - lo := by omega
      simp [h1, h2, h3, Nat.le_of_not_lt h1, Nat.testBit_mod_two_pow]
    · have h3 : ¬ i - lo < hi + 1 - lo := by omega
      have h4 : i - lo - (hi + 1 - lo) + (hi + 1) = i := by omega
      simp [h1, h2, h3, Nat.testBit_div_two_pow, h4]

theorem testBit_b2n (b : Bool) (i : Nat) : (b2n b).testBit i = (decide (i = 0) && b) := by
  cases b <;> cases i <;> simp [b2n, Nat.testBit_succ]

/-- Setting one bit of a register. -/
theorem getLsbD_setBit {w : Nat} (x : BitVec w) (r : Nat) (b : Bool) (i : Nat) :
    (BitVec.ofNat w (setSeg x.toNat r r (b2n b))).getLsbD i
      = if i = r then decide (r < w) && b else x.getLsbD i := by
  rw [BitVec.getLsbD_ofNat, testBit_setSeg _ _ _ _ _ (Nat.le_refl r)]
  by_cases h : i = r
  · subst h
    rw [if_pos ⟨Nat.le_refl i, Nat.le_refl i⟩, if_pos rfl, Nat.sub_self, testBit_b2n]
    rfl
  · have hne : ¬ (r ≤ i ∧ i ≤ r) := by omega
    rw [if_neg hne, if_neg h, BitVec.testBit_toNat]
    by_cases hi : i < w
    · simp [hi]
    · simp [hi, BitVec.getLsbD_of_ge x i (Nat.le_of_not_lt hi)]

theorem sStain_putS_same (k : Cluster) {r : Nat} (v : Nat) (st : Bool) (h : r ≠ 0) (hr : r < 64) :
    sStain (putS k r v st) r = st := by
  simp only [sStain, putS, if_neg h, getLsbD_setBit, if_true, hr, decide_true, Bool.true_and, bne_iff_ne.2 h]

theorem sStain_putS_other (k : Cluster) {r i : Nat} (v : Nat) (st : Bool) (h : i ≠ r) :
    sStain (putS k r v st) i = sStain k i := by
  by_cases hr : r = 0
  · simp [hr]
  · simp only [sStain, putS, if_neg hr, getLsbD_setBit, if_neg h]

theorem sVal_putS_same (k : Cluster) {r : Nat} (v : Nat) (st : Bool) (h : r ≠ 0) :
    sVal (putS k r v st) r = BitVec.ofNat 64 v := by
  simp only [sVal, sReg, putS, if_neg h, Tbl.get_set_same, BitVec.ofNat_toNat, BitVec.setWidth_eq]

theorem sVal_putS_other (k : Cluster) {r i : Nat} (v : Nat) (st : Bool) (h : i ≠ r) :
    sVal (putS k r v st) i = sVal k i := by
  rw [sVal, sVal, sReg_putS_other k r i v st h]

/-- A write of a scalar register is a write of the registers alone. -/
theorem putS_regs (k : Cluster) (r v : Nat) (st : Bool) :
    putS k r v st = { k with sreg := (putS k r v st).sreg, sstain := (putS k r v st).sstain } := by
  unfold putS
  split <;> rfl

theorem fRd_lt (n : Nat) : fRd n < 64 := Nat.mod_lt _ (by decide)

/-- The scalar registers read the same where the issue point alone differs. -/
theorem sVal_advance (k : Cluster) (r : Nat) : sVal (advance k) r = sVal k r := by rw [sVal, sVal, sReg_advance]

/-- Registers put before the issue point moves are put after it. -/
theorem advance_putS (k : Cluster) (r v : Nat) (st : Bool) :
    advance (putS k r v st) = { advance k with sreg := (putS k r v st).sreg, sstain := (putS k r v st).sstain } := by
  rw [putS_regs]
  exact advance_regs ..

/-- A scalar result that is put before the issue point moves is written to RD alone. -/
theorem wroteScalar_of_putS {s t : State} {q n v : Nat} {st : Bool} (honly : OnlyCluster s t q)
    (hclu : t.clu q = advance (putS (s.clu q) (fRd n) v st)) :
    WroteScalar s t q (fRd n) (BitVec.ofNat 64 v) st := by
  refine ⟨honly, ?_, fun h => ?_, fun h => ?_, fun r h => ?_⟩
  · rw [hclu, advance_putS]
  · rw [hclu, sVal_advance, sStain_advance]
    exact ⟨sVal_putS_same _ _ _ h, sStain_putS_same _ _ _ h (fRd_lt n)⟩
  · rw [h]
    exact ⟨rfl, rfl⟩
  · rw [hclu, sVal_advance, sStain_advance]
    exact ⟨sVal_putS_other _ _ _ h, sStain_putS_other _ _ _ h⟩

/-! ### Loop descriptors (R148, R153) -/

/-- `d` with the `width` bits from `lo` on replaced by the low bits of `v`. -/
def putBits (d : BitVec 512) (lo width v : Nat) : BitVec 512 :=
  let m : BitVec 512 := ((BitVec.allOnes 512) >>> (512 - width)) <<< lo
  (d &&& ~~~m) ||| ((BitVec.ofNat 512 v <<< lo) &&& m)

theorem getLsbD_putBits (d : BitVec 512) {lo width i : Nat} (v : Nat) (h : lo + width ≤ 512) (hi : i < 512) :
    (putBits d lo width v).getLsbD i = if lo ≤ i ∧ i < lo + width then v.testBit (i - lo) else d.getLsbD i := by
  simp only [putBits, BitVec.getLsbD_or, BitVec.getLsbD_and, BitVec.getLsbD_not, BitVec.getLsbD_shiftLeft,
    BitVec.getLsbD_ushiftRight, BitVec.getLsbD_allOnes, BitVec.getLsbD_ofNat]
  by_cases h1 : i < lo
  · have hout : ¬ (lo ≤ i ∧ i < lo + width) := by omega
    simp [h1, hout, hi]
  · by_cases h2 : i < lo + width
    · have hin : lo ≤ i ∧ i < lo + width := by omega
      have h3 : 512 - width + (i - lo) < 512 := by omega
      have h4 : i - lo < 512 := by omega
      simp [h1, hin, hi, h3, h4]
    · have hout : ¬ (lo ≤ i ∧ i < lo + width) := by omega
      have h3 : ¬ 512 - width + (i - lo) < 512 := by omega
      simp [hout, hi, h3]

theorem ofNat_setSeg (d : BitVec 512) {hi lo width : Nat} (v : Nat) (hw : hi + 1 = lo + width) (h0 : 0 < width)
    (h : lo + width ≤ 512) : BitVec.ofNat 512 (setSeg d.toNat hi lo v) = putBits d lo width v := by
  refine BitVec.eq_of_getLsbD_eq fun i hi' => ?_
  rw [getLsbD_putBits d v h hi', BitVec.getLsbD_ofNat, testBit_setSeg _ _ _ _ _ (by omega), BitVec.testBit_toNat]
  have hiff : (lo ≤ i ∧ i ≤ hi) ↔ (lo ≤ i ∧ i < lo + width) := by omega
  simp only [hiff, hi', decide_true, Bool.true_and]

/-- Counting word `i` as written sets its bit. -/
theorem setSeg_word (x : BitVec 8) {i : Nat} (h : i < 8) : setSeg x.toNat i i 1 = (x ||| (1 <<< i)).toNat := by
  refine Nat.eq_of_testBit_eq fun j => ?_
  rw [testBit_setSeg _ _ _ _ _ (Nat.le_refl i), BitVec.testBit_toNat, BitVec.testBit_toNat, BitVec.getLsbD_or,
    BitVec.natCast_eq_ofNat, BitVec.getLsbD_ofNat, Nat.testBit_shiftLeft]
  by_cases hj : j = i
  · subst hj
    simp [h]
  · have hne : ¬ (i ≤ j ∧ j ≤ i) := by omega
    have hbit : (decide (j ≥ i) && Nat.testBit 1 (j - i)) = false := by
      rw [Bool.eq_false_iff, ne_eq, Bool.and_eq_true, decide_eq_true_eq, Nat.testBit_one_eq_true_iff_self_eq_zero]
      omega
    rw [if_neg hne, hbit, Bool.and_false, Bool.or_false]

/-- A clean write of word `word` completes the eight clean words that clear the descriptor's stain (R153). -/
def descWhole (k : Cluster) (l : Nat) (st clears : Bool) (word : Option Nat) : Bool :=
  match word with
  | none => false
  | some i => clears && !st && (descClean k l ||| (1 <<< i)) == 255

/-- The cluster with descriptor `l`, its stain bit and its count of clean words put. -/
def withDesc (k : Cluster) (l : Nat) (v : BitVec 512) (st : Bool) (clean : BitVec 8) : Cluster :=
  { k with ldesc := Tbl.set 0 k.ldesc l v, lstain := BitVec.ofNat 16 (setSeg k.lstain.toNat l l (b2n st))
           lclean := Tbl.set 0 k.lclean l clean }

/-- From one cluster to the next descriptor `l` alone has changed, to `v` with stain `st` and `clean` words counted. -/
structure DescPut (k j : Cluster) (l : Nat) (v : BitVec 512) (st : Bool) (clean : BitVec 8) : Prop where
  regs : j = { k with ldesc := j.ldesc, lstain := j.lstain, lclean := j.lclean }
  ldesc : j.ldesc = Tbl.set 0 k.ldesc l v
  stain : lStain j l = st
  clean : descClean j l = clean
  stain_other : ∀ m, m ≠ l → lStain j m = lStain k m
  clean_other : ∀ m, m ≠ l → descClean j m = descClean k m

theorem descPut_withDesc (k : Cluster) {l : Nat} (v : BitVec 512) (st : Bool) (clean : BitVec 8) (hl : l < 16) :
    DescPut k (withDesc k l v st clean) l v st clean where
  regs := rfl
  ldesc := rfl
  stain := by simp only [lStain, withDesc, getLsbD_setBit, if_true, hl, decide_true, Bool.true_and]
  clean := Tbl.get_set_same ..
  stain_other m hm := by simp only [lStain, withDesc, getLsbD_setBit, if_neg hm]
  clean_other m hm := Tbl.get_set_other _ _ _ _ _ hm

/-- What an unstained write of word `i` does: the words count while the descriptor is stained, and eight of them clear it. -/
theorem putL_word (k : Cluster) (l v i : Nat) (clears : Bool) (hi : i < 8) :
    putL k l v false (some i) clears
      = if lStain k l then
          if descWhole k l false clears (some i) then withDesc k l (BitVec.ofNat 512 v) false 0
          else { k with ldesc := Tbl.set 0 k.ldesc l (BitVec.ofNat 512 v)
                        lclean := Tbl.set 0 k.lclean l (descClean k l ||| (1 <<< i)) }
        else { k with ldesc := Tbl.set 0 k.ldesc l (BitVec.ofNat 512 v) } := by
  have hm := setSeg_word (descClean k l) hi
  have hall : ((descClean k l ||| ((1 <<< i : Nat) : BitVec 8)).toNat == 255)
      = ((descClean k l ||| ((1 <<< i : Nat) : BitVec 8)) == 255) := by
    rw [Bool.eq_iff_iff, beq_iff_eq, beq_iff_eq, ← BitVec.toNat_inj]
    rfl
  simp only [descClean] at hm hall
  simp only [putL, hm, hall, descWhole, descClean, BitVec.ofNat_toNat, BitVec.setWidth_eq, Bool.not_false, Bool.and_true,
    Bool.false_eq_true, if_false]
  rfl

/-- A write of descriptor `l`, by the stain of what is written, the word that it fully writes and whether that may clear
the descriptor's stain (R153). -/
theorem descPut_putL (k : Cluster) {l : Nat} (v : Nat) (st : Bool) (word : Option Nat) (clears : Bool) (hl : l < 16)
    (hword : ∀ i, word = some i → i < 8) :
    DescPut k (putL k l v st word clears) l (BitVec.ofNat 512 v)
      (st || (lStain k l && !descWhole k l st clears word)) (descCount k l st clears word) := by
  have hkeep : DescPut k { k with ldesc := Tbl.set 0 k.ldesc l (BitVec.ofNat 512 v) } l (BitVec.ofNat 512 v)
      (lStain k l) (descClean k l) := ⟨rfl, rfl, rfl, rfl, fun _ _ => rfl, fun _ _ => rfl⟩
  cases st with
  | true =>
    have h := descPut_withDesc k (BitVec.ofNat 512 v) true 0 hl
    cases word <;> exact h
  | false =>
    cases word with
    | none => simpa [putL, descWhole, descCount] using hkeep
    | some i =>
      rw [putL_word k l v i clears (hword i rfl)]
      by_cases hst : lStain k l = true
      · by_cases hall : descWhole k l false clears (some i) = true
        · have hcount : descCount k l false clears (some i) = 0 := by
            simp_all [descCount, descWhole]
          rw [if_pos hst, if_pos hall, hst, hall, hcount]
          exact descPut_withDesc k _ false 0 hl
        · have hcount : descCount k l false clears (some i) = descClean k l ||| (1 <<< i) := by
            simp_all [descCount, descWhole]
          rw [if_pos hst, if_neg hall, hst, Bool.eq_false_iff.2 hall, hcount]
          exact ⟨rfl, rfl, hst, Tbl.get_set_same .., fun _ _ => rfl, fun m hm => Tbl.get_set_other _ _ _ _ _ hm⟩
      · have hcount : descCount k l false clears (some i) = descClean k l := by
          simp [descCount, hst]
        rw [if_neg hst, Bool.eq_false_iff.2 hst, hcount, Bool.false_and, Bool.or_false]
        exact Bool.eq_false_iff.2 hst ▸ hkeep

/-- A descriptor put before the issue point moves is what `WroteDesc` says. -/
theorem wroteDesc_of_put {s t : State} {q l : Nat} {d : Cluster} {v : BitVec 512} {st : Bool} {clean : BitVec 8}
    (honly : OnlyCluster s t q) (hclu : t.clu q = advance d) (hput : DescPut (s.clu q) d l v st clean) :
    WroteDesc s t q l v st clean := by
  obtain ⟨hregs, hldesc, hstain, hclean, hstain', hclean'⟩ := hput
  have hadv : advance d = { advance (s.clu q) with ldesc := d.ldesc, lstain := d.lstain, lclean := d.lclean } := by
    rw [advance_of_point (k := s.clu q) (j := d) (by rw [hregs]) (by rw [hregs]) (by rw [hregs]),
      advance_point (s.clu q), hregs]
  have hl : (t.clu q).ldesc = d.ldesc := by rw [hclu, hadv]
  have hs : ∀ m, lStain (t.clu q) m = lStain d m := fun m => by rw [hclu, hadv]; rfl
  have hc : ∀ m, descClean (t.clu q) m = descClean d m := fun m => by rw [hclu, hadv]; rfl
  refine ⟨honly, by rw [hclu, hadv], by rw [hl, hldesc, Tbl.get_set_same], by rw [hs, hstain], by rw [hc, hclean], ?_⟩
  intro m hm
  exact ⟨by rw [hl, hldesc, Tbl.get_set_other _ _ _ _ _ hm], by rw [hs, hstain' m hm], by rw [hc, hclean' m hm]⟩

/-- A word whose effect is a write of descriptor `l` alone. -/
theorem seqOp_putDesc {s : State} {q : Cl} {op : Nat} {w : BitVec 120} {body : Nat → Nat → State → Did} {f : Cluster → Cluster}
    {l : Nat} {v : BitVec 512} {st : Bool} {clean : BitVec 8} (h : Issues s q op w)
    (hbody : body q.val (wordOf op w) s = .go (s.updClu q.val f)) (hput : DescPut (s.clu q.val) (f (s.clu q.val)) l v st clean) :
    ∃ t, seqOp op q w body s = .next t ∧ WroteDesc s t q.val l v st clean := by
  obtain ⟨t, hnext, honly, hclu⟩ := seqOp_go h hbody
  exact ⟨t, hnext, wroteDesc_of_put honly hclu hput⟩

/-- A word whose effect is a write of a scalar register alone. -/
theorem seqOp_putScalar {s : State} {q : Cl} {op : Nat} {w : BitVec 120} {body : Nat → Nat → State → Did} {f : Cluster → Cluster}
    {n v : Nat} {st : Bool} (h : Issues s q op w) (hbody : body q.val (wordOf op w) s = .go (s.updClu q.val f))
    (hput : f (s.clu q.val) = putS (s.clu q.val) (fRd n) v st) :
    ∃ t, seqOp op q w body s = .next t ∧ WroteScalar s t q.val (fRd n) (BitVec.ofNat 64 v) st := by
  obtain ⟨t, hnext, honly, hclu⟩ := seqOp_go h hbody
  exact ⟨t, hnext, wroteScalar_of_putS honly (hput ▸ hclu)⟩

theorem toNat_immOf (n : Nat) : (immOf n).toNat = fImm n := by
  rw [immOf, BitVec.toNat_ofNat]
  exact Nat.mod_eq_of_lt (Nat.mod_lt _ (by decide))

theorem toNat_sVal (k : Cluster) (r : Nat) : (sVal k r).toNat = sReg k r := by
  unfold sVal sReg
  split
  · rfl
  · rw [BitVec.toNat_ofNat, Nat.mod_eq_of_lt (BitVec.isLt _)]

theorem dBase_toNat (d : BitVec 512) : dBase d.toNat = (d >>> 384).toNat % 2 ^ 52 := by
  simp only [dBase, seg, BitVec.toNat_ushiftRight, Nat.shiftRight_eq_div_pow]

/-- A field of a descriptor as a word. -/
theorem ofNat_seg_toNat (d : BitVec 512) (i : Nat) :
    BitVec.ofNat 64 (seg d.toNat (64 * i + 63) (64 * i)) = (d >>> (64 * i)).setWidth 64 := by
  have hw : 64 * i + 63 + 1 - 64 * i = 64 := by omega
  refine BitVec.eq_of_toNat_eq ?_
  simp only [seg, hw, BitVec.toNat_ofNat, BitVec.toNat_setWidth, BitVec.toNat_ushiftRight, Nat.shiftRight_eq_div_pow,
    Nat.mod_mod]

/-- The base address of a descriptor, put as `LDBASE` and `LDBUMP` put it. -/
theorem ofNat_setBase (d : BitVec 512) (v : Nat) : BitVec.ofNat 512 (setSeg d.toNat 435 384 v) = putBits d 384 52 v :=
  ofNat_setSeg d v rfl (by decide) (by decide)

theorem toNat_putBits (d : BitVec 512) {hi lo width : Nat} (v : Nat) (hw : hi + 1 = lo + width) (h0 : 0 < width)
    (h : lo + width ≤ 512) : (putBits d lo width v).toNat = setSeg d.toNat hi lo v := by
  refine Nat.eq_of_testBit_eq fun i => ?_
  rw [BitVec.testBit_toNat, testBit_setSeg _ _ _ _ _ (by omega), BitVec.testBit_toNat]
  have hiff : (lo ≤ i ∧ i ≤ hi) ↔ (lo ≤ i ∧ i < lo + width) := by omega
  by_cases hi' : i < 512
  · simp only [getLsbD_putBits d v h hi', hiff]
  · rw [if_neg (by omega), BitVec.getLsbD_of_ge _ _ (by omega), BitVec.getLsbD_of_ge _ _ (by omega)]

/-- The low 24 bits of the immediate are the COUNT of a level, and its high word the STRIDE, as `LDLEV` puts them. -/
theorem ofNat_setLevel (d : BitVec 512) {i : Nat} (v : Nat) (hi : i < 8) :
    BitVec.ofNat 512 (setSeg (setSeg d.toNat (64 * i + 23) (64 * i) (seg v 23 0)) (64 * i + 63) (64 * i + 32) (seg v 63 32))
      = putBits (putBits d (64 * i) 24 v) (64 * i + 32) 32 (v / 2 ^ 32) := by
  have hcount : setSeg d.toNat (64 * i + 23) (64 * i) (seg v 23 0) = setSeg d.toNat (64 * i + 23) (64 * i) v := by
    have hw : 64 * i + 23 + 1 - 64 * i = 24 := by omega
    simp [setSeg, seg, hw]
  have hstride : ∀ m, setSeg m (64 * i + 63) (64 * i + 32) (seg v 63 32) = setSeg m (64 * i + 63) (64 * i + 32) (v / 2 ^ 32) := by
    have hw : 64 * i + 63 + 1 - (64 * i + 32) = 32 := by omega
    simp [setSeg, seg, hw]
  rw [hcount, hstride, ← toNat_putBits (width := 24) d v (by omega) (by decide) (by omega)]
  exact ofNat_setSeg _ _ (by omega) (by decide) (by omega)

theorem descWhole_of_not_clears (k : Cluster) (l : Nat) (st : Bool) (word : Option Nat) :
    descWhole k l st false word = false := by
  cases word <;> rfl

/-- A word that writes descriptor RD by `putL` (R153). -/
theorem seqOp_putL {s : State} {q : Cl} {op : Nat} {w : BitVec 120} {body : Nat → Nat → State → Did} {l v : Nat} {d : BitVec 512}
    {st st' clears : Bool} {word : Option Nat} {f : Cluster → Cluster} (h : Issues s q op w)
    (hbody : body q.val (wordOf op w) s = .go (s.updClu q.val f))
    (hf : f (s.clu q.val) = putL (s.clu q.val) l v st word clears) (hv : BitVec.ofNat 512 v = d) (hl : l < 16)
    (hword : ∀ i, word = some i → i < 8)
    (hst : (st || (lStain (s.clu q.val) l && !descWhole (s.clu q.val) l st clears word)) = st') :
    ∃ t, seqOp op q w body s = .next t ∧ WroteDesc s t q.val l d st' (descCount (s.clu q.val) l st clears word) := by
  subst hv hst
  exact seqOp_putDesc h hbody (hf ▸ descPut_putL _ v st word clears hl hword)

/-- The descriptor that a word names (Table 5.2). -/
theorem rdDesc_lt (n : Nat) : fRd n % 16 < 16 := Nat.mod_lt _ (by decide)

/-- The word of a descriptor that SUB names. -/
theorem subWord_lt (n : Nat) : fSub n % 8 < 8 := Nat.mod_lt _ (by decide)

theorem execLdw_writes {s : State} {q : Cl} {w : BitVec 120} (h : Issues s q 0x40 w) :
    let k := s.clu q.val
    let n := wordOf 0x40 w
    ∃ t, execLdw q w s = .next t
      ∧ WroteDesc s t q.val (fRd n % 16) (putBits (Tbl.get 0 k.ldesc (fRd n % 16)) (64 * (fSub n % 8)) 64 (sVal k (fRa n)).toNat)
          (sStain k (fRa n) || (lStain k (fRd n % 16)
            && !descWhole k (fRd n % 16) (sStain k (fRa n)) (decide (6 ≤ fSub n % 8)) (some (fSub n % 8))))
          (descCount k (fRd n % 16) (sStain k (fRa n)) (decide (6 ≤ fSub n % 8)) (some (fSub n % 8))) := by
  intro k n
  have hi := subWord_lt n
  refine seqOp_putL h rfl rfl ?_ (rdDesc_lt n) (fun i e => Option.some.inj e ▸ hi) rfl
  rw [toNat_sVal]
  exact ofNat_setSeg _ _ (by omega) (by decide) (by omega)

theorem execLdlev_writes {s : State} {q : Cl} {w : BitVec 120} (h : Issues s q 0x41 w) :
    let k := s.clu q.val
    let n := wordOf 0x41 w
    ∃ t, execLdlev q w s = .next t
      ∧ WroteDesc s t q.val (fRd n % 16)
          (putBits (putBits (Tbl.get 0 k.ldesc (fRd n % 16)) (64 * (fSub n % 8)) 24 (immOf n).toNat) (64 * (fSub n % 8) + 32) 32
            ((immOf n).toNat / 2 ^ 32))
          (lStain k (fRd n % 16)) (descCount k (fRd n % 16) false false (some (fSub n % 8))) := by
  intro k n
  have hi := subWord_lt n
  refine seqOp_putL h rfl rfl ?_ (rdDesc_lt n) (fun i e => Option.some.inj e ▸ hi) ?_
  · rw [toNat_immOf]
    exact ofNat_setLevel _ _ hi
  · rw [descWhole_of_not_clears, Bool.false_or, Bool.not_false, Bool.and_true]

theorem execLdbase_writes {s : State} {q : Cl} {w : BitVec 120} (h : Issues s q 0x42 w) :
    let k := s.clu q.val
    let n := wordOf 0x42 w
    ∃ t, execLdbase q w s = .next t
      ∧ WroteDesc s t q.val (fRd n % 16)
          (putBits (Tbl.get 0 k.ldesc (fRd n % 16)) 384 52 ((sVal k (fRa n)).toNat + (immOf n).toNat))
          (lStain k (fRd n % 16) || sStain k (fRa n)) (descCount k (fRd n % 16) (sStain k (fRa n)) false (some 6)) := by
  intro k n
  refine seqOp_putL h rfl rfl ?_ (rdDesc_lt n) (fun i e => Option.some.inj e ▸ (by decide)) ?_
  · rw [toNat_sVal, toNat_immOf]
    exact ofNat_setBase ..
  · rw [descWhole_of_not_clears, Bool.not_false, Bool.and_true, Bool.or_comm]

theorem execLdbump_writes {s : State} {q : Cl} {w : BitVec 120} (h : Issues s q 0x43 w) :
    let k := s.clu q.val
    let n := wordOf 0x43 w
    let d := Tbl.get 0 k.ldesc (fRd n % 16)
    ∃ t, execLdbump q w s = .next t
      ∧ WroteDesc s t q.val (fRd n % 16) (putBits d 384 52 ((d >>> 384).toNat % 2 ^ 52 + (sVal k (fRa n)).toNat))
          (lStain k (fRd n % 16) || sStain k (fRa n)) (descCount k (fRd n % 16) (sStain k (fRa n)) false none) := by
  intro k n d
  refine seqOp_putL h rfl rfl ?_ (rdDesc_lt n) (fun i e => nomatch e) ?_
  · rw [toNat_sVal, ← dBase_toNat]
    exact ofNat_setBase ..
  · rw [descWhole_of_not_clears, Bool.not_false, Bool.and_true, Bool.or_comm]

theorem execLdmov_writes {s : State} {q : Cl} {w : BitVec 120} (h : Issues s q 0x44 w) :
    let k := s.clu q.val
    let n := wordOf 0x44 w
    ∃ t, execLdmov q w s = .next t
      ∧ WroteDesc s t q.val (fRd n % 16) (Tbl.get 0 k.ldesc (fRa n % 16)) (lStain k (fRa n % 16)) 0 := by
  intro k n
  have hput := descPut_withDesc k (BitVec.ofNat 512 (lReg k (fRa n % 16))) (lStain k (fRa n % 16)) 0 (rdDesc_lt n)
  have hd : BitVec.ofNat 512 (lReg k (fRa n % 16)) = Tbl.get 0 k.ldesc (fRa n % 16) := by
    rw [lReg, BitVec.ofNat_toNat, BitVec.setWidth_eq]
  rw [← hd]
  exact seqOp_putDesc (f := fun k => withDesc k (fRd n % 16) (BitVec.ofNat 512 (lReg k (fRa n % 16)))
    (lStain k (fRa n % 16)) 0) h rfl hput

theorem execLdrd_writes {s : State} {q : Cl} {w : BitVec 120} (h : Issues s q 0x45 w) :
    let k := s.clu q.val
    let n := wordOf 0x45 w
    ∃ t, execLdrd q w s = .next t
      ∧ WroteScalar s t q.val (fRd n) ((Tbl.get 0 k.ldesc (fRa n % 16) >>> (64 * (fSub n % 8))).setWidth 64)
          (lStain k (fRa n % 16)) := by
  intro k n
  rw [← ofNat_seg_toNat]
  exact seqOp_putScalar h rfl rfl

/-- Settles O8: each instruction is a write of one descriptor by the rule of R153 (`descPut_putL`), or of one register. -/
theorem descriptorWrites : Obligations.DescriptorWrites := by
  intro s q w k ld rd ra st word imm pb
  exact ⟨execLdw_writes, execLdlev_writes, execLdbase_writes, execLdbump_writes, execLdmov_writes, execLdrd_writes⟩

end Sys2Proof.Machine

namespace Sys2Proof.Machine
open Sys2Proof

/-! ### The 32 cores of a cluster -/

/-- A fold that changes one core after another changes each core of the list once, and nothing but cores. -/
theorem Cluster.foldl_updCore (f : Nat → CoreSt → CoreSt) (l : List Nat) (k : Cluster) (hl : l.Nodup) :
    l.foldl (fun k c => k.updCore c (f c)) k = { k with core := (l.foldl (fun k c => k.updCore c (f c)) k).core }
    ∧ ∀ i, (l.foldl (fun k c => k.updCore c (f c)) k).coreAt i = if i ∈ l then f i (k.coreAt i) else k.coreAt i := by
  induction l generalizing k with
  | nil => exact ⟨rfl, fun i => by simp⟩
  | cons c l ih =>
    obtain ⟨hc, hl⟩ := List.nodup_cons.1 hl
    obtain ⟨hframe, hcore⟩ := ih (k.updCore c (f c)) hl
    refine ⟨hframe, fun i => ?_⟩
    rw [List.foldl_cons, hcore i]
    by_cases hi : i = c
    · subst hi
      rw [if_neg hc, if_pos (List.mem_cons_self ..), Cluster.coreAt_updCore_same]
    · rw [Cluster.coreAt_updCore_other _ _ _ _ hi]
      simp only [List.mem_cons, hi, false_or]

/-- A change of every core changes the cores alone, each once. -/
theorem Cluster.updCores_eq (k : Cluster) (f : Nat → CoreSt → CoreSt) :
    ∃ core, k.updCores f = { k with core := core } ∧ ∀ i < 32, Tbl.get {} core i = f i (k.coreAt i) := by
  have hnodup : (List.range 32).Nodup := List.nodup_range
  have hmem : ∀ i < 32, i ∈ List.range 32 := fun i hi => List.mem_range.2 hi
  unfold Cluster.updCores
  generalize List.range 32 = l at hnodup hmem ⊢
  obtain ⟨hframe, hcore⟩ := Cluster.foldl_updCore f l k hnodup
  exact ⟨_, hframe, fun i hi => (hcore i).trans (if_pos (hmem i hi))⟩

/-! ### Issue into the engine queues (R123) -/

theorem fullCore_none {k : Cluster} {e : Engine} (h : ∀ i < 32, ((k.coreAt i).queue e).length < 16) :
    fullCore k e = none := by
  refine List.find?_eq_none.2 fun i hi => ?_
  have := h i (List.mem_range.1 hi)
  simpa using this

theorem fullCore_some {k : Cluster} {e : Engine} {c : Nat} (hc : c < 32) (hfull : 16 ≤ ((k.coreAt c).queue e).length)
    (hlow : ∀ i < c, ((k.coreAt i).queue e).length < 16) : fullCore k e = some c := by
  refine List.find?_range_eq_some.2 ⟨by simpa using hfull, List.mem_range.2 hc, fun i hi => ?_⟩
  have := hlow i hi
  simpa using this

theorem pushAll_eq (k : Cluster) (e : Engine) (i : EInst) :
    ∃ core, pushAll k e i = { k with core := core, nextId := k.nextId + 1 }
      ∧ ∀ c < 32, Tbl.get {} core c = (k.coreAt c).setQueue e ((k.coreAt c).queue e ++ [i]) := by
  obtain ⟨core, hframe, hcore⟩ := Cluster.updCores_eq k fun _ c => c.setQueue e (c.queue e ++ [i])
  exact ⟨core, by rw [pushAll, hframe], hcore⟩

/-- What `Obligations.EngineIssueFillsEveryCore` says of one instruction, whose effect is `body`. -/
structure FillsEveryCore (s : State) (q : Cl) (op : Nat) (w : BitVec 120) (e : Engine) (body : Nat → Nat → State → Did) :
    Prop where
  issues : (∀ i < 32, (((s.clu q.val).coreAt i).queue e).length < 16) →
    ∃ t, seqOp op q w body s = .next t ∧ OnlyCluster s t q.val
      ∧ (t.clu q.val).nextId = (s.clu q.val).nextId + 1 ∧ (t.clu q.val).pc = (advance (s.clu q.val)).pc
      ∧ ∀ i < 32, t.coreOf q.val i = (s.coreOf q.val i).setQueue e
          ((s.coreOf q.val i).queue e ++ [einstOf (s.clu q.val) (wordOf op w)])
  stalls : ∀ c, c < 32 → 16 ≤ (((s.clu q.val).coreAt c).queue e).length →
    (∀ i < c, (((s.clu q.val).coreAt i).queue e).length < 16) →
    ∃ t, seqOp op q w body s = .next t ∧ OnlyCluster s t q.val ∧ t.clu q.val = { s.clu q.val with
      state := 2, stall := (s.clu q.val).stall + 1, stallQ := BitVec.ofNat 2 (queueNum e), stallCore := BitVec.ofNat 5 c }

/-- A word that goes on with the next instruction at the end of a queue of every core. -/
theorem seqOp_push {s u : State} {q : Cl} {op : Nat} {w : BitVec 120} {body : Nat → Nat → State → Did} {e : Engine}
    {core : Tbl CoreSt} {fmt : Tbl (BitVec 5)} (h : Issues s q op w) (hbody : body q.val (wordOf op w) s = .go u)
    (hu : OnlyCluster s u q.val)
    (hclu : u.clu q.val = { s.clu q.val with core := core, nextId := (s.clu q.val).nextId + 1, bankFmt := fmt })
    (hcore : ∀ c < 32, Tbl.get {} core c = (s.coreOf q.val c).setQueue e
      ((s.coreOf q.val c).queue e ++ [einstOf (s.clu q.val) (wordOf op w)])) :
    ∃ t, seqOp op q w body s = .next t ∧ OnlyCluster s t q.val
      ∧ (t.clu q.val).nextId = (s.clu q.val).nextId + 1 ∧ (t.clu q.val).pc = (advance (s.clu q.val)).pc
      ∧ ∀ i < 32, t.coreOf q.val i = (s.coreOf q.val i).setQueue e
          ((s.coreOf q.val i).queue e ++ [einstOf (s.clu q.val) (wordOf op w)]) := by
  have hnext : (u.updClu q.val advance).clu q.val = { u.clu q.val with
      pc := (advance (s.clu q.val)).pc, blocks := (advance (s.clu q.val)).blocks, state := (advance (s.clu q.val)).state } := by
    rw [State.clu_updClu_same]
    exact advance_of_point (by rw [hclu]) (by rw [hclu]) (by rw [hclu])
  refine ⟨u.updClu q.val advance, (seqOp_issues body h).trans ?_, hu.trans (updClu_only ..), ?_, ?_, fun i hi => ?_⟩
  · rw [hbody, settle_go]
  · rw [hnext, hclu]
  · rw [hnext]
  · rw [State.coreOf, hnext, hclu]
    exact hcore i hi

/-- The stall on a full queue. -/
theorem seqOp_full {s : State} {q : Cl} {op : Nat} {w : BitVec 120} {body : Nat → Nat → State → Did} {e : Engine} {c : Nat}
    (h : Issues s q op w)
    (hbody : body q.val (wordOf op w) s = .stall (s.updClu q.val fun k =>
      { k with stallQ := BitVec.ofNat 2 (queueNum e), stallCore := BitVec.ofNat 5 c }) 2) :
    ∃ t, seqOp op q w body s = .next t ∧ OnlyCluster s t q.val ∧ t.clu q.val = { s.clu q.val with
      state := 2, stall := (s.clu q.val).stall + 1, stallQ := BitVec.ofNat 2 (queueNum e), stallCore := BitVec.ofNat 5 c } := by
  refine ⟨_, seqOp_issues body h, ?_, ?_⟩
  · rw [hbody]
    exact (updClu_only ..).trans (updClu_only ..)
  · rw [hbody, settle_stall, State.clu_updClu_same, State.clu_updClu_same]
    rfl

/-- An array, vector or stream instruction (R123). -/
theorem issueTo_fills {s : State} {q : Cl} {op : Nat} {w : BitVec 120} (e : Engine) (h : Issues s q op w) :
    FillsEveryCore s q op w e (issueTo e) where
  issues hfree := by
    obtain ⟨core, hframe, hcore⟩ := pushAll_eq (s.clu q.val) e (einstOf (s.clu q.val) (wordOf op w))
    have hgo : issueTo e q.val (wordOf op w) s
        = .go (s.updClu q.val fun k => pushAll k e (einstOf k (wordOf op w))) := by
      simp only [issueTo, fullCore_none hfree]
    exact seqOp_push (fmt := (s.clu q.val).bankFmt) h hgo (updClu_only ..) (by rw [State.clu_updClu_same, hframe]) hcore
  stalls c hc hfull hlow := seqOp_full h (by simp only [issueTo, fullCore_some hc hfull hlow])

/-- The cluster notes the format that the bank of a weight load will hold (R130). -/
def notesFmt (n : Nat) (k : Cluster) : Cluster :=
  { k with bankFmt := Tbl.set 0 k.bankFmt (b2n (fBankS n)) (BitVec.ofNat 5 (fFmtT n + 1)) }

/-- A weight load, which also notes the format of its bank (R130). -/
theorem issueWeight_fills {s : State} {q : Cl} {op : Nat} {w : BitVec 120} (h : Issues s q op w) :
    FillsEveryCore s q op w .iq issueWeight where
  issues hfree := by
    obtain ⟨core, hframe, hcore⟩ := pushAll_eq (s.clu q.val) .iq (einstOf (s.clu q.val) (wordOf op w))
    have hgo : issueWeight q.val (wordOf op w) s
        = .go ((s.updClu q.val fun k => pushAll k .iq (einstOf k (wordOf op w))).updClu q.val (notesFmt (wordOf op w))) := by
      simp only [issueWeight, issueTo, fullCore_none hfree]
      rfl
    exact seqOp_push h hgo ((updClu_only ..).trans (updClu_only ..))
      (by rw [State.clu_updClu_same, State.clu_updClu_same, hframe, notesFmt]) hcore
  stalls c hc hfull hlow := seqOp_full h (by simp only [issueWeight, issueTo, fullCore_some hc hfull hlow])

/-- The two outcomes of an engine instruction, said of its command. -/
theorem FillsEveryCore.of_exec {s : State} {q : Cl} {op : Nat} {w : BitVec 120} {e : Engine} {c : Instr}
    {body : Nat → Nat → State → Did} (hc : exec c s = seqOp op q w body s) (h : FillsEveryCore s q op w e body) :
    ((∀ i < 32, (((s.clu q.val).coreAt i).queue e).length < 16) → ∃ t, exec c s = .next t ∧ OnlyCluster s t q.val
      ∧ (t.clu q.val).nextId = (s.clu q.val).nextId + 1 ∧ (t.clu q.val).pc = (advance (s.clu q.val)).pc
      ∧ ∀ i < 32, t.coreOf q.val i = (s.coreOf q.val i).setQueue e
          ((s.coreOf q.val i).queue e ++ [einstOf (s.clu q.val) (wordOf op w)]))
    ∧ ∀ c', c' < 32 → 16 ≤ (((s.clu q.val).coreAt c').queue e).length →
        (∀ i < c', (((s.clu q.val).coreAt i).queue e).length < 16) →
        ∃ t, exec c s = .next t ∧ OnlyCluster s t q.val ∧ t.clu q.val = { s.clu q.val with
          state := 2, stall := (s.clu q.val).stall + 1, stallQ := BitVec.ofNat 2 (queueNum e), stallCore := BitVec.ofNat 5 c' } :=
  hc ▸ ⟨h.issues, h.stalls⟩

/-- Settles O9: every engine instruction is `issueTo` of its queue, and the weight load notes a format besides. -/
theorem engineIssueFillsEveryCore : Obligations.EngineIssueFillsEveryCore := by
  intro s q w k fill
  have hissue : ∀ (op : Nat) (e : Engine) (c : Instr), exec c s = seqOp op q w (issueTo e) s → fill op e c :=
    fun op e c hc h => (issueTo_fills e h).of_exec hc
  have hweight : fill 0xE2 .iq (.siWld q w) := fun h => (issueWeight_fills h).of_exec rfl
  refine ⟨⟨?_, ?_, ?_, ?_, ?_, ?_, ?_⟩,
    ⟨?_, ?_, ?_, ?_, ?_, ?_, ?_, ?_, ?_, ?_, ?_, ?_, ?_, ?_, ?_, ?_, ?_, ?_, ?_, ?_⟩, ?_, ?_, hweight, ?_, ?_⟩ <;>
  exact hissue _ _ _ rfl

/-! ### Fences, signals and waits (R132, R133) -/

theorem queuesEmpty_iff (k : Cluster) :
    queuesEmpty k = true ↔ ∀ e ∈ k.core, e.2.aq = [] ∧ e.2.vq = [] ∧ e.2.iq = [] ∧ e.2.oq = [] := by
  simp [queuesEmpty, and_assoc]

theorem advance_withFence (k : Cluster) (x : Nat) : advance { k with fence := x } = { advance k with fence := x } :=
  (advance_of_point (k := k) (j := { k with fence := x }) rfl rfl rfl).trans
    (congrArg (fun j : Cluster => { j with fence := x }) (advance_point k)).symm

theorem advance_withSigs (k : Cluster) (x : List Signal) : advance { k with sigs := x } = { advance k with sigs := x } :=
  (advance_of_point (k := k) (j := { k with sigs := x }) rfl rfl rfl).trans
    (congrArg (fun j : Cluster => { j with sigs := x }) (advance_point k)).symm

theorem execFenceM_does {s : State} {q : Cl} {w : BitVec 120} (h : Issues s q 0x60 w) :
    ∃ t, execFenceM q w s = .next t ∧ OnlyCluster s t q.val
      ∧ t.clu q.val = { advance (s.clu q.val) with fence := (s.clu q.val).nextId } := by
  rw [← advance_withFence]
  exact seqOp_go (f := fun k => { k with fence := k.nextId }) h rfl

/-- A word that waits goes on where its condition holds, and stalls in STATE 3 where it does not. -/
theorem seqOp_waits {s : State} {q : Cl} {op : Nat} {w : BitVec 120} {p : Bool} {body : Nat → Nat → State → Did}
    (h : Issues s q op w) (hbody : body q.val (wordOf op w) s = if p = true then .go s else .stall s 3) :
    (p = true → ∃ t, seqOp op q w body s = .next t ∧ OnlyCluster s t q.val ∧ t.clu q.val = advance (s.clu q.val))
    ∧ (p = false → ∃ t, seqOp op q w body s = .next t ∧ OnlyCluster s t q.val
        ∧ t.clu q.val = { s.clu q.val with state := 3, stall := (s.clu q.val).stall + 1 }) :=
  ⟨fun hp => seqOp_pass h (hbody.trans (if_pos hp)),
    fun hp => seqOp_stall h (hbody.trans (if_neg (Bool.eq_false_iff.1 hp)))⟩

theorem execFenceE_does {s : State} {q : Cl} {w : BitVec 120} (h : Issues s q 0x61 w) :
    ((∀ e ∈ (s.clu q.val).core, e.2.aq = [] ∧ e.2.vq = [] ∧ e.2.iq = [] ∧ e.2.oq = []) →
      ∃ t, execFenceE q w s = .next t ∧ OnlyCluster s t q.val ∧ t.clu q.val = advance (s.clu q.val))
    ∧ (∀ e ∈ (s.clu q.val).core, (e.2.aq ≠ [] ∨ e.2.vq ≠ [] ∨ e.2.iq ≠ [] ∨ e.2.oq ≠ []) →
      ∃ t, execFenceE q w s = .next t ∧ OnlyCluster s t q.val
        ∧ t.clu q.val = { s.clu q.val with state := 3, stall := (s.clu q.val).stall + 1 }) := by
  obtain ⟨hgo, hstall⟩ := seqOp_waits (p := queuesEmpty (s.clu q.val))
    (body := fun q _ s => if queuesEmpty (s.clu q) then .go s else .stall s 3) h rfl
  refine ⟨fun hempty => hgo ((queuesEmpty_iff _).2 hempty), fun e he hne => hstall (Bool.eq_false_iff.2 fun hall => ?_)⟩
  obtain ⟨ha, hv, hi, ho⟩ := (queuesEmpty_iff _).1 hall e he
  exact hne.elim (· ha) fun hne => hne.elim (· hv) fun hne => hne.elim (· hi) (· ho)

/-- A word with no reason code gives none (R165). -/
theorem lowest_eq_none {l : List Nat} (h : lowest l = none) : l = [] := by
  cases l with
  | nil => rfl
  | cons a l => exact nomatch h

theorem why_eq_nil {b : Bool} {code : Nat} : why b code = [] ↔ b = false := by
  cases b <;> simp [why]

/-- A `SIG` that passes its checks names a cluster of its job (R133). -/
theorem sigTarget_of_issues {s : State} {q : Cl} {w : BitVec 120} (h : Issues s q 0x62 w) :
    ∃ p, sigTarget s q.val (wordOf 0x62 w) = some p := by
  obtain ⟨-, -, -, -, hlow, -⟩ := h
  have hop : fOp (wordOf 0x62 w) = 0x62 := by simp only [fOp, wordOf]; omega
  have hnil := lowest_eq_none hlow
  have hused : usedBits 0x62 = some (uImm 23 0) := rfl
  simp only [reasons, hop, hused, scalarReasons, List.append_eq_nil_iff, why_eq_nil] at hnil
  obtain ⟨-, -, htarget⟩ := hnil
  exact Option.isSome_iff_exists.1 (Option.isNone_eq_false_iff.1 htarget)

theorem execSig_does {s : State} {q : Cl} {w : BitVec 120} (h : Issues s q 0x62 w) :
    (sigsWaiting (s.clu q.val) < 4 → ∃ p, sigTarget s q.val (wordOf 0x62 w) = some p ∧
      ∃ t, execSig q w s = .next t ∧ OnlyCluster s t q.val
        ∧ t.clu q.val = { advance (s.clu q.val) with sigs := (s.clu q.val).sigs ++ [{
            tgt := p, ctr := fImm (wordOf 0x62 w) / 2 ^ 12 % 16, count := fImm (wordOf 0x62 w) / 2 ^ 16 % 256,
            after := (s.clu q.val).nextId }] })
    ∧ (4 ≤ sigsWaiting (s.clu q.val) → ∃ t, execSig q w s = .next t ∧ OnlyCluster s t q.val
        ∧ t.clu q.val = { s.clu q.val with state := 3, stall := (s.clu q.val).stall + 1 }) := by
  refine ⟨fun hroom => ?_, fun hfull => seqOp_stall h (if_pos hfull)⟩
  obtain ⟨p, hp⟩ := sigTarget_of_issues h
  refine ⟨p, hp, ?_⟩
  rw [← advance_withSigs]
  refine seqOp_go (f := fun k => { k with sigs := k.sigs ++ [{
    tgt := p, ctr := fImm (wordOf 0x62 w) / 2 ^ 12 % 16, count := fImm (wordOf 0x62 w) / 2 ^ 16 % 256,
    after := (s.clu q.val).nextId }] }) h ?_
  simp only [if_neg (Nat.not_le.2 hroom), hp, Option.getD_some]
  rfl

/-- The difference that `WAITS` looks at, as a signed 32-bit value. -/
theorem sgn_sub (c : BitVec 32) (v : BitVec 64) :
    sgn 32 (c.toNat + 2 ^ 32 - v.toNat % 2 ^ 32) = (c - v.setWidth 32).toInt := by
  have hc := c.isLt
  have hmod : (c.toNat + 2 ^ 32 - v.toNat % 2 ^ 32) % 2 ^ 32 = (2 ^ 32 - v.toNat % 2 ^ 32 + c.toNat) % 2 ^ 32 := by
    congr 1
    omega
  rw [sgn, hmod, BitVec.toInt_eq_toNat_cond, BitVec.toNat_sub, BitVec.toNat_setWidth]
  have hiff : ∀ x : Nat, x < 2 ^ (32 - 1) ↔ 2 * x < 2 ^ 32 := by omega
  simp only [hiff]

theorem execWaits_does {s : State} {q : Cl} {w : BitVec 120} (h : Issues s q 0x63 w) :
    let d := Tbl.get 0 (s.clu q.val).ctr (fSub (wordOf 0x63 w) % 16) - (sVal (s.clu q.val) (fRa (wordOf 0x63 w))).setWidth 32
    (0 ≤ d.toInt → ∃ t, execWaits q w s = .next t ∧ OnlyCluster s t q.val ∧ t.clu q.val = advance (s.clu q.val))
    ∧ (d.toInt < 0 → ∃ t, execWaits q w s = .next t ∧ OnlyCluster s t q.val
        ∧ t.clu q.val = { s.clu q.val with state := 3, stall := (s.clu q.val).stall + 1 }) := by
  intro d
  have hd : sgn 32 ((Tbl.get 0 (s.clu q.val).ctr (fSub (wordOf 0x63 w) % 16)).toNat + 2 ^ 32
      - sReg (s.clu q.val) (fRa (wordOf 0x63 w)) % 2 ^ 32) = d.toInt := by
    rw [← toNat_sVal, sgn_sub]
  refine ⟨fun hpos => seqOp_pass h (if_pos (decide_eq_true (hd ▸ hpos))), fun hneg => seqOp_stall h (if_neg fun hdec => ?_)⟩
  have hpos : 0 ≤ d.toInt := hd ▸ of_decide_eq_true hdec
  omega

/-- Settles O10, one instruction after another. -/
theorem fencesAndWaits : Obligations.FencesAndWaits := by
  intro s q w k stalled does
  exact ⟨execFenceM_does, execFenceE_does, execSig_does, execWaits_does⟩
end Sys2Proof.Machine

namespace Sys2Proof.Machine
open Sys2Proof

/-- The clusters of a state with the same table of them. -/
theorem clu_of_cl {s t : State} (h : t.cl = s.cl) (q : Nat) : t.clu q = s.clu q := by
  rw [State.clu, State.clu, h]

/-! ### Scalar loads of a scratchpad (R132, R162) -/

/-- The address of an `SLD`. -/
def sldAddr (k : Cluster) (n : Nat) : Nat := (sReg k (fRa n) + seg (fImm n) 15 0) % 2 ^ 64

/-- The cores that an `SLD` reads. -/
def sldCores (n : Nat) : List Nat := if seg (fImm n) 23 21 = 0 then [seg (fImm n) 20 16] else List.range 32

/-- A core that an `SLD` reads has unreleased writes on its region. -/
def sldHeld (k : Cluster) (n : Nat) : Bool := (sldCores n).any fun c => writesHeld (k.coreAt c) (sldAddr k n / 1024)

/-- The words that an `SLD` reads. -/
def sldWords (k : Cluster) (n : Nat) : List Nat := (sldCores n).map fun c => leNat (padBytes (k.coreAt c) (sldAddr k n) 8)

/-- What an `SLD` makes of them. -/
def sldValue (k : Cluster) (n : Nat) : Nat :=
  match sldWords k n with
  | [] => 0
  | x :: t => t.foldl (sldCombine (seg (fImm n) 23 21)) x

/-- The stain of what an `SLD` reads. -/
def sldStain (k : Cluster) (n : Nat) : Bool :=
  sStain k (fRa n) || (sldCores n).any fun c => padStained (k.coreAt c) (sldAddr k n / 32)

/-- An `SLD` of an address outside the scratchpad or misaligned, before the issue point moves (R152). -/
def sldFault (s : State) (q n : Nat) : State :=
  raiseCore (s.updClu q fun k => putS { k with maskFault := true } (fRd n) 0 true) q (seg (fImm n) 20 16) evAddrFault true 1
    (sldAddr (s.clu q) n)

/-- An `SLD` with no injection armed: the fault, the stall or the read. -/
theorem execSld_body {s : State} (q : Cl) (w : BitVec 120) (h : s.guard.armed = []) :
    ∃ body, (execSld q w s = seqOp 0x64 q w body s) ∧ ∀ n, body q.val n s =
      let k := s.clu q.val
      if 65536 ≤ sldAddr k n ∨ sldAddr k n % 8 ≠ 0 then .go (sldFault s q.val n)
      else if sldHeld k n then .stall s 3
      else .go (s.updClu q.val fun j => putS j (fRd n) (sldValue k n) (sldStain k n)) := by
  refine ⟨_, rfl, fun n => ?_⟩
  simp only [takeInject_quiet h]
  rfl

theorem toNat_sldAddr (k : Cluster) (n : Nat) :
    (sVal k (fRa n) + BitVec.ofNat 64 (fImm n % 2 ^ 16)).toNat = sldAddr k n := by
  have hseg : seg (fImm n) 15 0 = fImm n % 2 ^ 16 := by simp only [seg, Nat.pow_zero, Nat.div_one]
  rw [BitVec.toNat_add, toNat_sVal, BitVec.toNat_ofNat, sldAddr, hseg, Nat.add_mod_mod]

theorem sldCores_ne_nil (n : Nat) : sldCores n ≠ [] := by
  unfold sldCores
  split
  · exact List.cons_ne_nil _ _
  · exact fun h => absurd (congrArg List.length h) (by rw [List.length_range]; decide)

/-- An `SLD` of an aligned word within the scratchpad, whose region no writes hold, reads it. -/
theorem execSld_reads {s : State} {q : Cl} {w : BitVec 120} (h : Issues s q 0x64 w)
    (hlow : sldAddr (s.clu q.val) (wordOf 0x64 w) < 65536) (hal : sldAddr (s.clu q.val) (wordOf 0x64 w) % 8 = 0)
    (hfree : ¬ sldHeld (s.clu q.val) (wordOf 0x64 w) = true) :
    let n := wordOf 0x64 w
    let k := s.clu q.val
    ∃ t v rest, execSld q w s = .next t ∧ sldWords k n = v :: rest
      ∧ WroteScalar s t q.val (fRd n) (BitVec.ofNat 64 (rest.foldl (sldCombine (seg (fImm n) 23 21)) v))
          (sldStain k n) := by
  intro n k
  obtain ⟨-, -, -, -, -, hquiet⟩ := id h
  obtain ⟨body, hexec, hbody⟩ := execSld_body q w hquiet
  have hok : ¬ (65536 ≤ sldAddr k n ∨ sldAddr k n % 8 ≠ 0) := fun hbad => hbad.elim (Nat.not_le.2 hlow) (· hal)
  obtain ⟨v, rest, hwords⟩ := List.exists_cons_of_ne_nil (mt List.map_eq_nil_iff.1 (sldCores_ne_nil n) : sldWords k n ≠ [])
  have hvalue : sldValue k n = rest.foldl (sldCombine (seg (fImm n) 23 21)) v := by rw [sldValue, hwords]
  obtain ⟨t, hnext, hwrote⟩ := seqOp_putScalar (f := fun j => putS j (fRd n) (sldValue k n) (sldStain k n)) h
    ((hbody n).trans ((if_neg hok).trans (if_neg hfree))) rfl
  exact ⟨t, v, rest, hexec.trans hnext, hwords, hvalue ▸ hwrote⟩

/-- It waits for the writes of its region (R132). -/
theorem execSld_waits {s : State} {q : Cl} {w : BitVec 120} (h : Issues s q 0x64 w)
    (hlow : sldAddr (s.clu q.val) (wordOf 0x64 w) < 65536) (hal : sldAddr (s.clu q.val) (wordOf 0x64 w) % 8 = 0)
    (hheld : sldHeld (s.clu q.val) (wordOf 0x64 w) = true) :
    ∃ t, execSld q w s = .next t ∧ OnlyCluster s t q.val
      ∧ t.clu q.val = { s.clu q.val with state := 3, stall := (s.clu q.val).stall + 1 } := by
  obtain ⟨-, -, -, -, -, hquiet⟩ := id h
  obtain ⟨body, hexec, hbody⟩ := execSld_body q w hquiet
  rw [hexec]
  exact seqOp_stall h ((hbody _).trans ((if_neg (by omega)).trans (if_pos hheld)))

/-- The event of a faulting `SLD`, with the cluster as it leaves it. -/
theorem sldFault_clu (s : State) (q n : Nat) : (sldFault s q n).mem = s.mem ∧ 0x16 ∈ (sldFault s q n).irq.latch
    ∧ (∀ p, p ≠ q → (sldFault s q n).clu p = s.clu p)
    ∧ (sldFault s q n).clu q = putS { s.clu q with maskFault := true } (fRd n) 0 true := by
  have hframe := raiseCore_frame (s.updClu q fun k => putS { k with maskFault := true } (fRd n) 0 true) q (seg (fImm n) 20 16)
    evAddrFault true 1 (sldAddr (s.clu q) n)
  refine ⟨hframe.mem, raise_latch _ _ rfl (show evAddrFault ≠ evGctStep by decide), fun p hp => ?_, ?_⟩
  · exact (clu_of_cl hframe.cl p).trans (State.clu_updClu_other _ _ _ _ hp)
  · exact (clu_of_cl hframe.cl q).trans (State.clu_updClu_same ..)

/-- An `SLD` of an address outside the scratchpad or misaligned gives stained zeros (R152, R162). -/
theorem execSld_faults {s : State} {q : Cl} {w : BitVec 120} (h : Issues s q 0x64 w)
    (hbad : 65536 ≤ sldAddr (s.clu q.val) (wordOf 0x64 w) ∨ sldAddr (s.clu q.val) (wordOf 0x64 w) % 8 ≠ 0) :
    let n := wordOf 0x64 w
    let k := s.clu q.val
    ∃ t, execSld q w s = .next t ∧ t.mem = s.mem ∧ 0x16 ∈ t.irq.latch ∧ (∀ p, p ≠ q.val → t.clu p = s.clu p)
      ∧ t.clu q.val = { advance k with maskFault := true, sreg := (t.clu q.val).sreg, sstain := (t.clu q.val).sstain }
      ∧ (fRd n ≠ 0 → sVal (t.clu q.val) (fRd n) = 0 ∧ sStain (t.clu q.val) (fRd n) = true)
      ∧ ∀ r, r ≠ fRd n → sVal (t.clu q.val) r = sVal k r ∧ sStain (t.clu q.val) r = sStain k r := by
  intro n k
  obtain ⟨-, -, -, -, -, hquiet⟩ := id h
  obtain ⟨body, hexec, hbody⟩ := execSld_body q w hquiet
  obtain ⟨hmem, hlatch, hother, hclu⟩ := sldFault_clu s q.val n
  have hadv : advance { k with maskFault := true } = { advance k with maskFault := true } :=
    (advance_of_point (k := k) (j := { k with maskFault := true }) rfl rfl rfl).trans
      (congrArg (fun j : Cluster => { j with maskFault := true }) (advance_point k)).symm
  have hnew : ((sldFault s q.val n).updClu q.val advance).clu q.val
      = advance (putS { k with maskFault := true } (fRd n) 0 true) := by rw [State.clu_updClu_same, hclu]
  refine ⟨(sldFault s q.val n).updClu q.val advance, ?_, hmem, hlatch, fun p hp => ?_, ?_, fun hrd => ?_, fun r hr => ?_⟩
  · rw [hexec, seqOp_issues body h, hbody]
    exact congrArg (fun d => Host.Outcome.next (settle q.val d)) (if_pos hbad)
  · rw [State.clu_updClu_other _ _ _ _ hp, hother p hp]
  · rw [hnew, advance_putS, hadv]
  · rw [hnew, sVal_advance, sStain_advance]
    exact ⟨sVal_putS_same _ _ _ hrd, sStain_putS_same _ _ _ hrd (fRd_lt n)⟩
  · rw [hnew, sVal_advance, sStain_advance]
    exact ⟨sVal_putS_other _ _ _ hr, sStain_putS_other _ _ _ hr⟩

/-- Settles O11: the read, the wait and the fault of an `SLD`. -/
theorem scratchpadScalarLoad : Obligations.ScratchpadScalarLoad := by
  intro s q w h n k a how cores held
  have ha : a = sldAddr k n := toNat_sldAddr k n
  have hheld : held ↔ sldHeld k n = true := by
    rw [sldHeld, List.any_eq_true, ← ha]
    rfl
  rw [hheld, ha]
  exact ⟨fun hlow hal hfree => execSld_reads h hlow hal hfree, fun hlow hal hheld => execSld_waits h hlow hal hheld,
    fun hbad => execSld_faults h hbad⟩

/-! ### The numeric flags of the cores (R161) -/

theorem arraysDone_iff (k : Cluster) : arraysDone k = true ↔ ∀ e ∈ k.core, e.2.aq = [] := by
  simp [arraysDone]

/-- A word that waits for the array instructions stalls while one is outstanding. -/
theorem seqOp_waitsArrays {s : State} {q : Cl} {op : Nat} {w : BitVec 120} {body : Nat → Nat → State → Did} {d : Did}
    (h : Issues s q op w) (hbody : body q.val (wordOf op w) s = if !arraysDone (s.clu q.val) then .stall s 3 else d)
    (hnot : ¬ ∀ e ∈ (s.clu q.val).core, e.2.aq = []) :
    ∃ t, seqOp op q w body s = .next t ∧ OnlyCluster s t q.val
      ∧ t.clu q.val = { s.clu q.val with state := 3, stall := (s.clu q.val).stall + 1 } := by
  have hdone : arraysDone (s.clu q.val) = false := Bool.eq_false_iff.2 (mt (arraysDone_iff _).1 hnot)
  exact seqOp_stall h (hbody.trans (if_pos (by rw [hdone]; rfl)))

/-- The OR of the flags of the cores in `l`. -/
theorem foldl_or_numf (k : Cluster) (l : List Nat) (a : BitVec 64) :
    BitVec.ofNat 64 (l.foldl (fun a c => a ||| (k.coreAt c).numf.toNat) a.toNat)
      = l.foldl (fun a c => a ||| (k.coreAt c).numf.setWidth 64) a := by
  induction l generalizing a with
  | nil => exact (BitVec.ofNat_toNat _ _).trans (BitVec.setWidth_eq _)
  | cons c l ih =>
    have hor : (a ||| (k.coreAt c).numf.setWidth 64).toNat = a.toNat ||| (k.coreAt c).numf.toNat := by
      rw [BitVec.toNat_or, BitVec.toNat_setWidth, Nat.mod_eq_of_lt (by have := (k.coreAt c).numf.isLt; omega)]
    rw [List.foldl_cons, List.foldl_cons, ← ih, hor]

/-- The flags that `NUMF.RD` reads. -/
def numfRead (k : Cluster) (sub : Nat) : Nat :=
  if bitAt sub 5 then (List.range 32).foldl (fun a c => a ||| (k.coreAt c).numf.toNat) 0
  else (k.coreAt (sub % 32)).numf.toNat

theorem ofNat_numfRead (k : Cluster) {sub : Nat} (h : sub < 64) :
    BitVec.ofNat 64 (numfRead k sub) = if 32 ≤ sub then (List.range 32).foldl (fun a c => a ||| (k.coreAt c).numf.setWidth 64) 0
      else (k.coreAt (sub % 32)).numf.setWidth 64 := by
  have hbit : bitAt sub 5 = true ↔ 32 ≤ sub := by
    simp only [bitAt, beq_iff_eq]
    omega
  simp only [numfRead, hbit]
  split
  · exact foldl_or_numf k _ 0
  · exact BitVec.ofNat_toNat _ _

theorem fSub_lt (n : Nat) : fSub n < 64 := Nat.mod_lt _ (by decide)

theorem execNumfRd_does {s : State} {q : Cl} {w : BitVec 120} (h : Issues s q 0x65 w) :
    (¬ (∀ e ∈ (s.clu q.val).core, e.2.aq = []) → ∃ t, execNumfRd q w s = .next t ∧ OnlyCluster s t q.val
      ∧ t.clu q.val = { s.clu q.val with state := 3, stall := (s.clu q.val).stall + 1 })
    ∧ ((∀ e ∈ (s.clu q.val).core, e.2.aq = []) → ∃ t, execNumfRd q w s = .next t
      ∧ WroteScalar s t q.val (fRd (wordOf 0x65 w))
          (if 32 ≤ fSub (wordOf 0x65 w)
            then (List.range 32).foldl (fun a c => a ||| ((s.clu q.val).coreAt c).numf.setWidth 64) 0
            else ((s.clu q.val).coreAt (fSub (wordOf 0x65 w) % 32)).numf.setWidth 64) false) := by
  refine ⟨fun hnot => seqOp_waitsArrays h rfl hnot, fun hdone => ?_⟩
  rw [← ofNat_numfRead _ (fSub_lt _)]
  refine seqOp_putScalar (f := fun k => putS k (fRd (wordOf 0x65 w)) (numfRead (s.clu q.val) (fSub (wordOf 0x65 w))) false) h ?_ rfl
  exact if_neg (by rw [(arraysDone_iff _).2 hdone]; decide)

theorem execNumfClr_does {s : State} {q : Cl} {w : BitVec 120} (h : Issues s q 0x66 w) :
    (¬ (∀ e ∈ (s.clu q.val).core, e.2.aq = []) → ∃ t, execNumfClr q w s = .next t ∧ OnlyCluster s t q.val
      ∧ t.clu q.val = { s.clu q.val with state := 3, stall := (s.clu q.val).stall + 1 })
    ∧ ((∀ e ∈ (s.clu q.val).core, e.2.aq = []) → ∃ t, execNumfClr q w s = .next t
      ∧ OnlyCluster s t q.val ∧ t.clu q.val = { advance (s.clu q.val) with core := (t.clu q.val).core }
      ∧ ∀ c < 32, t.coreOf q.val c = { s.coreOf q.val c with
          numf := (s.coreOf q.val c).numf &&& ~~~(BitVec.ofNat 16 (fImm (wordOf 0x66 w) % 2 ^ 9)) }) := by
  refine ⟨fun hnot => seqOp_waitsArrays h rfl hnot, fun hdone => ?_⟩
  obtain ⟨core, hframe, hcore⟩ := Cluster.updCores_eq (s.clu q.val) fun _ c =>
    { c with numf := c.numf &&& ~~~(BitVec.ofNat 16 (fImm (wordOf 0x66 w) % 2 ^ 9)) }
  obtain ⟨t, hnext, honly, hclu⟩ : ∃ t, execNumfClr q w s = .next t ∧ OnlyCluster s t q.val ∧ _ :=
    seqOp_go (f := fun k => k.updCores fun _ c =>
      { c with numf := c.numf &&& ~~~(BitVec.ofNat 16 (fImm (wordOf 0x66 w) % 2 ^ 9)) }) h
      (if_neg (by rw [(arraysDone_iff _).2 hdone]; decide))
  rw [hframe, advance_of_point (k := s.clu q.val) (j := { s.clu q.val with core := core }) rfl rfl rfl] at hclu
  refine ⟨t, hnext, honly, ?_, fun c hc => ?_⟩
  · rw [hclu]
    exact congrArg (fun j : Cluster => { j with core := core }) (advance_point (s.clu q.val)).symm
  · rw [State.coreOf, hclu]
    exact hcore c hc

/-- Settles O12: both instructions wait for the array instructions, then read or clear the flags. -/
theorem numericFlagInstructions : Obligations.NumericFlagInstructions := by
  intro s q w k done stalled
  exact ⟨execNumfRd_does, execNumfClr_does⟩
end Sys2Proof.Machine

namespace Sys2Proof.Machine
open Sys2Proof

/-! ### What has been latched stays latched (R459) -/

/-- No latch of the first state is clear in the second. -/
structure LatchGrows (s t : State) : Prop where
  mem : ∀ n ∈ s.irq.latch, n ∈ t.irq.latch

theorem LatchGrows.refl (s : State) : LatchGrows s s := ⟨fun _ h => h⟩
theorem LatchGrows.trans {s t u : State} (h : LatchGrows s t) (k : LatchGrows t u) : LatchGrows s u :=
  ⟨fun n hn => k.mem n (h.mem n hn)⟩
theorem LatchGrows.of_irq {s t : State} (h : t.irq = s.irq) : LatchGrows s t := ⟨fun n hn => by rwa [h]⟩
theorem LatchGrows.ite {s t u : State} {c : Prop} [Decidable c] (h : LatchGrows s t) (k : LatchGrows s u) :
    LatchGrows s (if c then t else u) := by
  split
  · exact h
  · exact k
theorem LatchGrows.foldl {β : Type} {f : State → β → State} (h : ∀ s b, LatchGrows s (f s b)) (l : List β) (s : State) :
    LatchGrows s (l.foldl f s) := by
  induction l generalizing s with
  | nil => exact .refl s
  | cons b l ih => exact (h s b).trans (ih _)
theorem LatchGrows.foldl_fst {β γ : Type} {f : State × γ → β → State × γ} (h : ∀ x b, LatchGrows x.1 (f x b).1) (l : List β)
    (x : State × γ) : LatchGrows x.1 (l.foldl f x).1 := by
  induction l generalizing x with
  | nil => exact .refl _
  | cons b l ih => exact (h x b).trans (ih _)

theorem irqEvent_grows (s : State) (n : Nat) : LatchGrows s (irqEvent s n) :=
  .ite (.refl s) ⟨fun _ hm => List.mem_append_left _ hm⟩
theorem queueReport_grows (s : State) (cls src : Nat) (r : Report) : LatchGrows s (queueReport s cls src r) :=
  .ite (.of_irq rfl) (.ite (.of_irq rfl) (.of_irq rfl))
theorem raise_grows (s : State) (e : Ev) : LatchGrows s (raise s e) :=
  (queueReport_grows ..).trans (.trans (.ite (irqEvent_grows ..) (.refl _)) (.ite (.of_irq rfl) (.refl _)))
theorem raise_grows_of_irq {s t : State} (h : t.irq = s.irq) (e : Ev) : LatchGrows s (raise t e) :=
  (LatchGrows.of_irq h).trans (raise_grows t e)
theorem corrected_grows (s : State) (src detail : Nat) (inj : Bool) : LatchGrows s (corrected s src detail inj) :=
  raise_grows ..
theorem takeInject_irq {s t : State} {cls src win n : Nat} (h : takeInject s cls src win = some (n, t)) : t.irq = s.irq := by
  rw [takeInject_some h]
theorem xlatFault_grows (s : State) (src win : Nat) (a : Int) (kind : Nat) (write stops inj : Bool) :
    LatchGrows s (xlatFault s src win a kind write stops inj) := by
  simp only [xlatFault]
  exact raise_grows_of_irq (by rfl) _
theorem nmReadWith_grows (s : State) (stack sec : Nat) (upset : List (Nat × Byte)) (inj : Bool) :
    LatchGrows s (nmReadWith s stack sec upset inj).1 := by
  simp only [nmReadWith]
  split
  · exact .refl s
  · exact (corrected_grows ..).trans (.of_irq rfl)
  · dsimp only
    exact raise_grows_of_irq (by rfl) _
theorem hbmNote_irq (s : State) (stack sec : Nat) (rep : EccReport) : (hbmNote s stack sec rep).irq = s.irq := by
  unfold hbmNote
  split
  · rfl
  · rfl
theorem hbmReadWith_grows (s : State) (stack sec : Nat) (rep : EccReport) (inj : Bool) :
    LatchGrows s (hbmReadWith s stack sec rep inj).1 := by
  refine (LatchGrows.of_irq (hbmNote_irq s stack sec rep)).trans ?_
  simp only [hbmReadWith]
  split
  · exact .refl _
  · exact .refl _
  · exact corrected_grows ..
  · exact corrected_grows ..
  · dsimp only
    exact raise_grows_of_irq (by rfl) _
theorem nmErrs_irq (s : State) (stack : Nat) (win : Option Nat) (upset : List (Nat × Byte)) :
    (nmErrs s stack win upset).1.irq = s.irq := by
  simp only [nmErrs]
  split
  · rename_i w t h
    cases win with
    | none => cases h
    | some v => exact (show t.irq = s.irq from takeInject_irq h)
  · rfl
theorem hbmErrs_irq (s : State) (stack : Nat) (win : Option Nat) (rep : EccReport) :
    (hbmErrs s stack win rep).1.irq = s.irq := by
  simp only [hbmErrs]
  split
  · rename_i w t h
    cases win with
    | none => cases h
    | some v => exact (show t.irq = s.irq from takeInject_irq h)
  · rfl
theorem dramRead_grows (s : State) (hbm : Bool) (stack sec : Nat) (upset : List (Nat × Byte)) (rep : EccReport)
    (win : Option Nat) : LatchGrows s (dramRead s hbm stack sec upset rep win).1 := by
  simp only [dramRead]
  split
  · exact (LatchGrows.of_irq (hbmErrs_irq ..)).trans (hbmReadWith_grows ..)
  · exact (LatchGrows.of_irq (nmErrs_irq ..)).trans (nmReadWith_grows ..)
theorem dramStore_irq (s : State) (hbm : Bool) (stack sec : Nat) (data : List Byte) (stain : Bool) :
    (dramStore s hbm stack sec data stain).irq = s.irq := by
  unfold dramStore
  split
  · rfl
  · rfl
theorem dramWrite_grows (s : State) (hbm : Bool) (stack sec : Nat) (data : List Byte) (en : Nat) (stain : Bool)
    (upset : List (Nat × Byte)) (rep : EccReport) (win : Option Nat) :
    LatchGrows s (dramWrite s hbm stack sec data en stain upset rep win) := by
  simp only [dramWrite]
  split
  · exact .of_irq (dramStore_irq ..)
  · split
    · exact .refl s
    · exact (dramRead_grows s hbm stack sec upset rep win).trans (.of_irq (dramStore_irq ..))
theorem secWrite_grows (s : State) (p : Place) (data : List Byte) (en : Nat) (stain : Bool) (win : Option Nat) :
    LatchGrows s (secWrite s p data en stain win) := by
  simp only [secWrite]
  split
  · split
    · exact .of_irq rfl
    · exact dramWrite_grows ..
  · split
    · exact .of_irq rfl
    · exact dramWrite_grows ..
  · exact .of_irq rfl
  · exact .of_irq rfl
theorem meetXlat_irq (s : State) (src win : Nat) (r : Xlat) : (meetXlat s src win r).1.irq = s.irq := by
  simp only [meetXlat]
  split
  · rename_i n t h
    exact (show t.irq = s.irq from takeInject_irq h)
  · rfl
theorem devPut_grows (s : State) (src win : Nat) (a : Int) (b : List Byte) (stain : Bool) :
    LatchGrows s (devPut s src win a b stain).1 := by
  refine LatchGrows.foldl_fst ?_ _ (s, false)
  rintro ⟨s, f⟩ ⟨sa, d, en⟩
  have h := LatchGrows.of_irq (meetXlat_irq s src win (xlateBy s src win sa true))
  simp only
  split
  · rename_i k; rw [k] at h; exact h.trans (xlatFault_grows ..)
  · rename_i k; rw [k] at h; exact h.trans (secWrite_grows ..)

/-! ### What the stop of a job leaves alone (R136, R446) -/

/-- Of the clusters, a step has sent some the stop, and has changed nothing else. -/
structure OnlySends (s t : State) : Prop where
  clu : ∀ q, t.clu q = s.clu q ∨ t.clu q = { s.clu q with stopSent := true }

theorem OnlySends.of_cl {s t : State} (h : t.cl = s.cl) : OnlySends s t :=
  ⟨fun q => .inl (clu_of_cl h q)⟩
theorem OnlySends.trans {s t u : State} (h : OnlySends s t) (k : OnlySends t u) : OnlySends s u := by
  refine ⟨fun q => ?_⟩
  rcases h.clu q with hq | hq <;> rcases k.clu q with kq | kq <;> simp [hq, kq]

/-- What the stop of `job` does to one ring. -/
def stopDocketOf (job : Nat) (s : State) (e : Nat × RingSt) : State :=
  match e.2.running with
  | some d => if dkJob d = job ∧ dkOp d ≠ 0x21 then finishDocket s e.1 stStopped 0 else s
  | none => s

/-- The dockets that a stop finishes change their rings alone. -/
theorem docketsStop_eq (s : State) (job : Nat) :
    docketsStop s job = { s with hif := { s.hif with ring := (docketsStop s job).hif.ring } } := by
  have hfold : ∀ (l : List (Nat × RingSt)) (s : State), l.foldl (stopDocketOf job) s
      = { s with hif := { s.hif with ring := (l.foldl (stopDocketOf job) s).hif.ring } } := by
    intro l
    induction l with
    | nil => exact fun s => rfl
    | cons e l ih =>
      intro s
      have hone : stopDocketOf job s e = { s with hif := { s.hif with ring := (stopDocketOf job s e).hif.ring } } := by
        unfold stopDocketOf
        split
        · split
          · exact finishDocket_eq ..
          · rfl
        · rfl
      rw [List.foldl_cons, ih, hone]
  exact hfold s.hif.ring s

/-- A step keeps the clusters and the host interface, and clears no latch. -/
structure KeepsHost (s t : State) : Prop where
  cl : t.cl = s.cl
  hif : t.hif = s.hif
  grows : LatchGrows s t

theorem KeepsHost.refl (s : State) : KeepsHost s s := ⟨rfl, rfl, .refl s⟩
theorem KeepsHost.trans {s t u : State} (h : KeepsHost s t) (k : KeepsHost t u) : KeepsHost s u :=
  ⟨k.cl.trans h.cl, k.hif.trans h.hif, h.grows.trans k.grows⟩
theorem KeepsHost.foldl {β : Type} {f : State → β → State} (h : ∀ s b, KeepsHost s (f s b)) (l : List β) (s : State) :
    KeepsHost s (l.foldl f s) := by
  induction l generalizing s with
  | nil => exact .refl s
  | cons b l ih => exact (h s b).trans (ih _)

theorem devPut_keepsHost (s : State) (src win : Nat) (a : Int) (b : List Byte) (stain : Bool) :
    KeepsHost s (devPut s src win a b stain).1 :=
  ⟨(devPut_frame ..).cl, (devPut_frame ..).hif, devPut_grows ..⟩

theorem restoreTable_keepsHost (s : State) (win : Nat) (tbl : DWord) (h : PressHdr) :
    KeepsHost s (restoreTable s win tbl h) :=
  ((devPut_keepsHost ..).trans (devPut_keepsHost ..)).trans (KeepsHost.foldl (fun _ _ => devPut_keepsHost ..) _ _)

theorem pressStop_keepsHost (s : State) (win job : Nat) : KeepsHost s (pressStop s win job) := by
  simp only [pressStop]
  split
  · refine KeepsHost.trans (KeepsHost.foldl ?_ s.press.tables s) ⟨rfl, rfl, .of_irq rfl⟩
    intro t x
    split
    · exact restoreTable_keepsHost ..
    · exact .refl t
  · exact .refl s

theorem mendStop_keepsHost (s : State) (job : Nat) : KeepsHost s (mendStop s job) := by
  unfold mendStop
  split
  · exact ⟨rfl, rfl, .of_irq rfl⟩
  · exact .refl s

/-- The stop sent to the clusters of `l` that are not over. -/
def sendStops (ended : List Nat) (l : List Nat) (s : State) : State :=
  l.foldl (fun s q => if ended.contains q then s else s.updClu q fun k => { k with stopSent := true }) s

theorem sendStops_eq (ended l : List Nat) (s : State) : sendStops ended l s = { s with cl := (sendStops ended l s).cl } := by
  induction l generalizing s with
  | nil => rfl
  | cons p l ih =>
    unfold sendStops at ih ⊢
    rw [List.foldl_cons]
    split
    · exact ih s
    · rw [ih]
      rfl

theorem sendStops_clu (ended l : List Nat) (s : State) (q : Nat) :
    (sendStops ended l s).clu q = if q ∈ l ∧ q ∉ ended then { s.clu q with stopSent := true } else s.clu q := by
  induction l generalizing s with
  | nil => simp [sendStops]
  | cons p l ih =>
    have hstep : sendStops ended (p :: l) s
        = sendStops ended l (if ended.contains p then s else s.updClu p fun k => { k with stopSent := true }) := rfl
    rw [hstep, ih]
    by_cases hq : q = p
    · subst hq
      by_cases hended : q ∈ ended <;> simp [hended]
    · by_cases hended : p ∈ ended <;> simp [hended, hq, State.clu_updClu_other _ _ _ _ hq]

/-- The stop of a running job that is not stopping: its clusters are told, press, mending, collectives and plan end, and its
dockets finish. -/
theorem jobStop_starts {s : State} {w : Nat} (y : StopWhy) (hrun : (s.jobAt w).running = true)
    (hnot : (s.jobAt w).stopping = false) :
    ∃ u, KeepsHost (sendStops (s.jobAt w).clOver (s.jobAt w).clusters
        (s.updJob w fun j => { recordWhy j y with stopping := true })) u
      ∧ jobStop s w y = docketsStop u (s.jobAt w).job.toNat := by
  refine ⟨_, ?_, by simp only [jobStop, hrun, hnot, Bool.not_true, if_false, Bool.false_eq_true]; rfl⟩
  exact ((pressStop_keepsHost ..).trans (mendStop_keepsHost ..)).trans ⟨rfl, rfl, .of_irq rfl⟩

/-- The state before and after the dockets of a stopped job finish has the same clusters, jobs and latches. -/
theorem docketsStop_keeps (s : State) (job : Nat) : (docketsStop s job).cl = s.cl
    ∧ (docketsStop s job).hif.job = s.hif.job ∧ (docketsStop s job).irq = s.irq := by
  rw [docketsStop_eq]
  exact ⟨rfl, rfl, rfl⟩

/-- What a cluster of a job that stops is left as (R136). -/
theorem jobStop_clu {s : State} {w : Nat} (y : StopWhy) (hrun : (s.jobAt w).running = true)
    (hnot : (s.jobAt w).stopping = false) (q : Nat) :
    (jobStop s w y).clu q = if q ∈ (s.jobAt w).clusters ∧ q ∉ (s.jobAt w).clOver then { s.clu q with stopSent := true }
      else s.clu q := by
  obtain ⟨u, hkeeps, hstop⟩ := jobStop_starts y hrun hnot
  rw [hstop, clu_of_cl (docketsStop_keeps u _).1, clu_of_cl hkeeps.cl, sendStops_clu]
  rfl

/-- The jobs after a stop (R446): the stopped one alone has changed. -/
theorem jobStop_jobAt {s : State} {w : Nat} (y : StopWhy) (hrun : (s.jobAt w).running = true)
    (hnot : (s.jobAt w).stopping = false) (v : Nat) :
    (jobStop s w y).jobAt v = (s.updJob w fun j => { recordWhy j y with stopping := true }).jobAt v := by
  obtain ⟨u, hkeeps, hstop⟩ := jobStop_starts y hrun hnot
  rw [State.jobAt, hstop, (docketsStop_keeps u _).2.1, hkeeps.hif, sendStops_eq]
  rfl

theorem jobStop_grows (s : State) (w : Nat) (y : StopWhy) : LatchGrows s (jobStop s w y) := by
  by_cases hrun : (s.jobAt w).running = true
  · by_cases hnot : (s.jobAt w).stopping = true
    · rw [jobStop, hrun, hnot]
      exact .of_irq rfl
    · obtain ⟨u, hkeeps, hstop⟩ := jobStop_starts y hrun (Bool.eq_false_iff.2 hnot)
      rw [hstop]
      refine LatchGrows.trans (.of_irq ?_) (hkeeps.grows.trans (.of_irq (docketsStop_keeps u _).2.2))
      rw [sendStops_eq]
      rfl
  · rw [jobStop_idle s w y (Bool.eq_false_iff.2 hrun)]
    exact .refl s

theorem jobStop_sends (s : State) (w : Nat) (y : StopWhy) : OnlySends s (jobStop s w y) := by
  by_cases hrun : (s.jobAt w).running = true
  · by_cases hnot : (s.jobAt w).stopping = true
    · rw [jobStop, hrun, hnot]
      exact .of_cl rfl
    · refine ⟨fun q => ?_⟩
      rw [jobStop_clu y hrun (Bool.eq_false_iff.2 hnot)]
      split
      · exact .inr rfl
      · exact .inl rfl
  · rw [jobStop_idle s w y (Bool.eq_false_iff.2 hrun)]
    exact .of_cl rfl

/-! ### `ABORT` (R136, R446) -/

/-- The window of a cluster that serves one. -/
theorem cluWin_of_win {s : State} {q : Nat} {v : Fin 16} (h : (s.clu q).win = some v) : cluWin s q = some v.val := by
  rw [cluWin, h]
  rfl

/-- The halt of a cluster that serves a job stops that job. -/
theorem haltStop_eq {s : State} {q : Nat} {v : Fin 16} (y : StopWhy) (hwin : (s.clu q).win = some v) :
    haltStop s q y = jobStop (s.updClu q fun k => { k with halted := true }) v.val { y with cluster := clId q } := by
  have hserves : cluWin (s.updClu q fun k => { k with halted := true }) q = some v.val :=
    cluWin_of_win (by rw [State.clu_updClu_same, hwin])
  rw [haltStop, cluStop, hserves]

/-- The cause and the abort code that a job first stopped keeps (R446). -/
theorem recordWhy_first {j : Job} (y : StopWhy) (h : j.stopping = false) :
    (recordWhy j y).cause = BitVec.ofNat 8 y.cause
    ∧ ∀ a, y.abort = some a → j.aborted = false → (recordWhy j y).aborted = true
        ∧ (recordWhy j y).abort = BitVec.ofNat 16 a := by
  obtain ⟨cause, reason, abort, cls, cluster⟩ := y
  refine ⟨?_, fun a ha hfresh => ?_⟩
  · cases abort with
    | none => simp [recordWhy, h, apply_ite Job.cause]
    | some b => simp [recordWhy, h, apply_ite Job.cause]
  · cases ha
    simp [recordWhy, h, hfresh, apply_ite Job.aborted, apply_ite Job.abort]

/-- Settles O7: the halt of the cluster, then what the stop of its job leaves of jobs and clusters. -/
theorem abortStopsTheJob : Obligations.AbortStopsTheJob := by
  intro s q w v h hwin hrun hnot
  have hexec : exec (.abort q w) s = .next (haltStop s q.val { cause := 2, abort := some (fImm (wordOf 0x02 w) % 2 ^ 16) }) := by
    change execAbort q w s = _
    rw [execAbort, seqOp_issues _ h, settle_halt]
  obtain ⟨hcause, habort⟩ := recordWhy_first
    { cause := 2, abort := some (fImm (wordOf 0x02 w) % 2 ^ 16), cluster := clId q.val } hnot
  refine ⟨_, hexec, ?_⟩
  rw [haltStop_eq _ hwin]
  have hclu := jobStop_clu (s := s.updClu q.val fun k => { k with halted := true })
    { cause := 2, abort := some (fImm (wordOf 0x02 w) % 2 ^ 16), cluster := clId q.val } hrun hnot
  have hjob := jobStop_jobAt (s := s.updClu q.val fun k => { k with halted := true })
    { cause := 2, abort := some (fImm (wordOf 0x02 w) % 2 ^ 16), cluster := clId q.val } hrun hnot
  have hself := (hjob v.val).trans (State.jobAt_updJob_same ..)
  refine ⟨?_, ?_, ?_, fun hfresh => ?_, fun p hp hended => ?_, fun u hu => ?_⟩
  · rw [hclu, State.clu_updClu_same]
    split <;> rfl
  · rw [hself]
  · rw [hself]
    exact hcause
  · obtain ⟨haborted, hcode⟩ := habort _ rfl hfresh
    rw [hself]
    exact ⟨haborted, hcode.trans (BitVec.eq_of_toNat_eq (by rw [BitVec.toNat_ofNat, BitVec.toNat_ofNat, Nat.mod_mod]))⟩
  · rw [hclu, if_pos ⟨hp, hended⟩]
  · rw [hjob, State.jobAt_updJob_other _ _ _ _ hu]
    rfl
end Sys2Proof.Machine

namespace Sys2Proof.Machine
open Sys2Proof

/-! ### A cluster's run (R116, R120, R133–R136, R385) -/

theorem mem_insertUp (a : Nat) (l : List Nat) : a ∈ insertUp a l := by
  induction l with
  | nil => exact List.mem_singleton.2 rfl
  | cons b l ih =>
    unfold insertUp
    split
    · exact List.mem_cons_self ..
    · split
      · simp [*]
      · exact List.mem_cons_of_mem _ ih

/-- Counting a cluster as over changes no cluster. -/
theorem clusterOver_cl (s : State) (q : Nat) : (clusterOver s q).cl = s.cl := by
  unfold clusterOver
  split
  · rfl
  · rfl

/-- The job of a cluster that is over counts it. -/
theorem mem_clOver_clusterOver {s : State} {q : Nat} {v : Fin 16} (h : (s.clu q).win = some v) :
    q ∈ ((clusterOver s q).jobAt v.val).clOver := by
  have hserves : cluWin s q = some v.val := cluWin_of_win h
  rw [clusterOver, hserves]
  exact (State.jobAt_updJob_same s v.val _).symm ▸ mem_insertUp _ _

theorem clu_useFree (s : State) (q : Nat) : s.useFree.clu q = s.clu q := rfl

theorem cacheLine_missing (k : Cluster) (line : Nat) (b : List Byte) (free : Nat) :
    (cacheLine k line b free).missing = false := rfl

theorem cacheLine_icache (k : Cluster) (line : Nat) (b : List Byte) (free : Nat) :
    Tbl.get [] (cacheLine k line b free).icache line = b := Tbl.get_set_same ..

/-- The fill of a line whose two sectors translate. -/
theorem execIcacheMissFill_eq {s u : State} {q : Cl} {line : Nat} {r : DevRead} {p p' : Place} {c c' : Bool}
    (hclock : islandStopped s q.val = false) (hmiss : (s.clu q.val).missing = true) (hissue : canIssue (s.clu q.val) = true)
    (hquiet : s.guard.armed = []) (hline : (s.clu q.val).pc.toNat / 64 = line)
    (hlow : xlateBy s (srcCluster s q.val) ((cluWin s q.val).getD 0) (line * 64) false = .ok p c)
    (hhigh : xlateBy s (srcCluster s q.val) ((cluWin s q.val).getD 0) (line * 64 + 32) false = .ok p' c')
    (hread : devSectors (srcCluster s q.val) ((cluWin s q.val).getD 0) 2 s (line * 64) = (u, r)) :
    execIcacheMissFill q s = .next (u.updClu q.val fun k => cacheLine k line r.bytes u.free).useFree := by
  simp only [execIcacheMissFill, hmiss, hissue, hclock, takeInject_quiet hquiet, hline, hlow, hhigh, hread,
    Option.orElse, Bool.not_false, Bool.and_self, if_true]

/-- The line of a miss whose sectors translate is put in the instruction cache (R116). -/
theorem icacheMissFill_fills {s : State} {q : Cl} (hclock : islandStopped s q.val = false)
    (hmiss : (s.clu q.val).missing = true) (hissue : canIssue (s.clu q.val) = true)
    (hmap : Mapped s (srcCluster s q.val) ((cluWin s q.val).getD 0) ((s.clu q.val).pc.toNat / 64 * 64) 64 false) :
    ∃ t, execIcacheMissFill q s = .next t ∧ (t.clu q.val).missing = false
      ∧ Tbl.get [] (t.clu q.val).icache ((s.clu q.val).pc.toNat / 64)
          = (devSectors (srcCluster s q.val) ((cluWin s q.val).getD 0) 2 s ((s.clu q.val).pc.toNat / 64 * 64 : Nat)).2.bytes := by
  generalize hline : (s.clu q.val).pc.toNat / 64 = line at hmap ⊢
  obtain ⟨hquiet, hsec⟩ := hmap
  obtain ⟨p, c, hlow⟩ := hsec 0 (by decide)
  obtain ⟨p', c', hhigh⟩ := hsec 32 (by decide)
  rw [show (line * 64 + 0) / 32 * 32 = line * 64 by omega] at hlow
  rw [show (line * 64 + 32) / 32 * 32 = line * 64 + 32 by omega] at hhigh
  push_cast at hlow hhigh ⊢
  obtain ⟨⟨u, r⟩, hread⟩ : ∃ x, devSectors (srcCluster s q.val) ((cluWin s q.val).getD 0) 2 s (line * 64) = x := ⟨_, rfl⟩
  refine ⟨_, execIcacheMissFill_eq hclock hmiss hissue hquiet hline hlow hhigh hread, ?_, ?_⟩
  · rw [clu_useFree, State.clu_updClu_same, cacheLine_missing]
  · rw [clu_useFree, State.clu_updClu_same, cacheLine_icache, hread]

/-- The signal that arrives leaves its sender (R133). -/
theorem signalArrive_eq {s : State} {q p : Cl} {c : Fin 16} {g : Signal} {rest : List Signal}
    (hfirst : takeFirst (fun (g : Signal) => g.tgt == p.val && g.ctr == c.val) (s.clu q.val).sigs = some (g, rest))
    (hdone : outDone (s.clu q.val) g.after = true) (hclock : islandStopped s p.val = false) :
    execSignalArrive q p c s = .next (if sameJob (s.updClu q.val fun k => { k with sigs := rest }) q.val p.val then
      (s.updClu q.val fun k => { k with sigs := rest }).updClu p.val fun k =>
        { k with ctr := upd 0 k.ctr c.val (· + BitVec.ofNat 32 g.count) }
      else s.updClu q.val fun k => { k with sigs := rest }) := by
  simp only [execSignalArrive, hfirst, hdone, hclock, Bool.not_false, Bool.and_self, if_true]

/-- Fields that `sameJob` does not read do not enter into it. -/
theorem sameJob_withSigs (s : State) (q p : Nat) (l : List Signal) :
    sameJob (s.updClu q fun k => { k with sigs := l }) q p = sameJob s q p := by
  have hwin : ∀ r, cluWin (s.updClu q fun k => { k with sigs := l }) r = cluWin s r := by
    intro r
    by_cases hr : r = q
    · subst hr
      rw [cluWin, State.clu_updClu_same]
      rfl
    · rw [cluWin, State.clu_updClu_other _ _ _ _ hr]
      rfl
  rw [sameJob, hwin, hwin]
  rfl

theorem signalArrive_counts {s : State} {q p : Cl} {c : Fin 16} {g : Signal} {rest : List Signal}
    (hfirst : takeFirst (fun (g : Signal) => g.tgt == p.val && g.ctr == c.val) (s.clu q.val).sigs = some (g, rest))
    (hdone : outDone (s.clu q.val) g.after = true) (hclock : islandStopped s p.val = false)
    (hjob : sameJob s q.val p.val = true) :
    ∃ t, execSignalArrive q p c s = .next t ∧ (t.clu q.val).sigs = rest
      ∧ Tbl.get 0 (t.clu p.val).ctr c.val = Tbl.get 0 (s.clu p.val).ctr c.val + BitVec.ofNat 32 g.count
      ∧ ∀ d, d ≠ c.val → Tbl.get 0 (t.clu p.val).ctr d = Tbl.get 0 (s.clu p.val).ctr d := by
  have hctr : ((s.updClu q.val fun k => { k with sigs := rest }).clu p.val).ctr = (s.clu p.val).ctr := by
    by_cases hp : p.val = q.val
    · rw [hp, State.clu_updClu_same]
    · rw [State.clu_updClu_other _ _ _ _ hp]
  refine ⟨_, (signalArrive_eq hfirst hdone hclock).trans (congrArg _ (if_pos ((sameJob_withSigs ..).trans hjob))), ?_, ?_,
    fun d hd => ?_⟩
  · by_cases hp : q.val = p.val
    · rw [hp, State.clu_updClu_same, State.clu_updClu_same]
    · rw [State.clu_updClu_other _ _ _ _ hp, State.clu_updClu_same]
  · rw [State.clu_updClu_same, upd, Tbl.get_set_same, hctr]
  · rw [State.clu_updClu_same, upd, Tbl.get_set_other _ _ _ _ _ hd, hctr]

/-- A sequencer that has waited its time for a context says so (R134). -/
theorem seqCtxTimeout_raises {s : State} {q : Cl} (hclock : islandStopped s q.val = false) (hstate : (s.clu q.val).state = 4)
    (htime : (s.clu q.val).ctxTimeout ≠ 0) (hroom : (s.clu q.val).colls.length < 16) :
    ∃ t, execSeqCtxTimeout q s = .next t ∧ t.clu q.val = { s.clu q.val with ctxTimedOut := true }
      ∧ (∀ p, p ≠ q.val → t.clu p = s.clu p) ∧ 0x31 ∈ t.irq.latch := by
  have hframe := raiseSeq_frame (s.updClu q.val fun k => { k with ctxTimedOut := true }) q.val evCollCtxExhaust 1 0
  refine ⟨ctxTimeout s q.val, ?_, ?_, fun p hp => ?_, ?_⟩
  · have hlimit : ((s.clu q.val).ctxTimeout != 0) = true := bne_iff_ne.2 htime
    simp only [execSeqCtxTimeout, hstate, hlimit, hclock, hroom, decide_true, Bool.not_false, Bool.and_self, beq_self_eq_true,
      if_true]
  · exact (clu_of_cl hframe.cl q.val).trans (State.clu_updClu_same ..)
  · exact (clu_of_cl hframe.cl p).trans (State.clu_updClu_other _ _ _ _ hp)
  · exact raise_latch _ _ rfl (show evCollCtxExhaust ≠ evGctStep by decide)

theorem launchBegun_cl (s : State) (w : Nat) : (launchBegun s w).cl = s.cl := by
  simp only [launchBegun]
  split
  · rfl
  · split
    · split
      · rfl
      · rfl
    · rfl

/-- A cluster whose start count has come begins issue (R385). -/
theorem clusterStartIssue_begins {s : State} {q : Cl} {v : Fin 16} (hclock : islandStopped s q.val = false)
    (hwin : (s.clu q.val).win = some v) (hwait : (s.clu q.val).waiting = true)
    (hcount : (s.jobAt v.val).ts.toNat ≤ copyCount s (clDie q.val)) (hsync : gctSynced s = true) :
    ∃ t, execClusterStartIssue q s = .next t ∧ t.clu q.val = { s.clu q.val with waiting := false }
      ∧ ∀ p, p ≠ q.val → t.clu p = s.clu p := by
  refine ⟨launchBegun (s.updClu q.val fun k => { k with waiting := false }) v.val, ?_, ?_, fun p hp => ?_⟩
  · simp [execClusterStartIssue, cluWin_of_win hwin, hwait, hclock, hcount, hsync]
  · rw [clu_of_cl (launchBegun_cl ..), State.clu_updClu_same]
  · rw [clu_of_cl (launchBegun_cl ..), State.clu_updClu_other _ _ _ _ hp]

/-- A cluster that has executed `END` and finished its instructions is over (R120). -/
theorem clusterEnded_ends {s : State} {q : Cl} (hclock : islandStopped s q.val = false) (hend : (s.clu q.val).ending = true)
    (hstop : (s.clu q.val).stopping = false) (hstate : (s.clu q.val).state ≠ 6) (hempty : queuesEmpty (s.clu q.val) = true) :
    ∃ t, execClusterEnded q s = .next t ∧ t.clu q.val = { s.clu q.val with state := 6 }
      ∧ (∀ p, p ≠ q.val → t.clu p = s.clu p)
      ∧ ∀ v : Fin 16, (s.clu q.val).win = some v → q.val ∈ (t.jobAt v.val).clOver := by
  refine ⟨clusterOver (s.updClu q.val fun k => { k with state := 6 }) q.val, ?_, ?_, fun p hp => ?_, fun v hv => ?_⟩
  · have hnew : ((s.clu q.val).state != 6) = true := bne_iff_ne.2 hstate
    simp only [execClusterEnded, hend, hstop, hnew, hempty, hclock, Bool.not_false, Bool.and_self, if_true]
  · rw [clu_of_cl (clusterOver_cl ..), State.clu_updClu_same]
  · rw [clu_of_cl (clusterOver_cl ..), State.clu_updClu_other _ _ _ _ hp]
  · exact mem_clOver_clusterOver (by rw [State.clu_updClu_same, hv])

/-- What a stop leaves of a core: the instructions that have started. -/
def keepStarted (k : CoreSt) : CoreSt :=
  { k with aq := k.aq.filter (·.started), vq := k.vq.filter (·.started)
           iq := k.iq.filter (·.started), oq := k.oq.filter (·.started) }

/-- The stop reaches a cluster (R136). -/
theorem jobStopReachCluster_stops {s : State} {q : Cl} (hclock : islandStopped s q.val = false)
    (hsent : (s.clu q.val).stopSent = true) (hstop : (s.clu q.val).stopping = false) :
    ∃ t, execJobStopReachCluster q s = .next t ∧ OnlyCluster s t q.val ∧ (t.clu q.val).stopping = true
      ∧ canIssue (t.clu q.val) = false ∧ ∀ c < 32, t.coreOf q.val c = keepStarted (s.coreOf q.val c) := by
  obtain ⟨core, hframe, hcore⟩ := Cluster.updCores_eq { s.clu q.val with stopping := true, stopSent := false }
    fun _ => keepStarted
  have hclu : (s.updClu q.val fun k => Cluster.updCores { k with stopping := true, stopSent := false } fun _ => keepStarted).clu q.val
      = { s.clu q.val with stopping := true, stopSent := false, core := core } := by
    rw [State.clu_updClu_same, hframe]
  refine ⟨_, ?_, updClu_only s q.val fun k => Cluster.updCores { k with stopping := true, stopSent := false } fun _ => keepStarted,
    ?_, ?_, fun c hc => ?_⟩
  · simp only [execJobStopReachCluster, hsent, hstop, hclock, Bool.not_false, Bool.and_self, if_true]
    rfl
  · rw [hclu]
  · rw [hclu]
    simp [canIssue]
  · rw [State.coreOf, hclu]
    exact hcore c hc

/-- The abandonment is finished (R136). -/
theorem clusterStopped_stops {s : State} {q : Cl} (hclock : islandStopped s q.val = false)
    (hstop : (s.clu q.val).stopping = true) (hstate : (s.clu q.val).state ≠ 7) :
    ∃ t, execClusterStopped q s = .next t ∧ (t.clu q.val).state = 7 ∧ (t.clu q.val).colls = []
      ∧ (∀ p, p ≠ q.val → t.clu p = s.clu p) ∧ (∀ c < 32, t.coreOf q.val c = abandonCore (s.coreOf q.val c))
      ∧ ∀ v : Fin 16, (s.clu q.val).win = some v → q.val ∈ (t.jobAt v.val).clOver := by
  obtain ⟨core, hframe, hcore⟩ := Cluster.updCores_eq (s.clu q.val) fun _ => abandonCore
  have hclu : (s.updClu q.val fun k =>
      { k.updCores (fun _ => abandonCore) with state := 7, sigs := [], colls := [] }).clu q.val
      = { s.clu q.val with core := core, state := 7, sigs := [], colls := [] } := by
    rw [State.clu_updClu_same, hframe]
  refine ⟨clusterOver (s.updClu q.val fun k =>
      { k.updCores (fun _ => abandonCore) with state := 7, sigs := [], colls := [] }) q.val, ?_, ?_, ?_, fun p hp => ?_,
    fun c hc => ?_, fun v hv => ?_⟩
  · have hnew : ((s.clu q.val).state != 7) = true := bne_iff_ne.2 hstate
    simp only [execClusterStopped, hstop, hnew, hclock, Bool.not_false, Bool.and_self, if_true]
  · rw [clu_of_cl (clusterOver_cl ..), hclu]
  · rw [clu_of_cl (clusterOver_cl ..), hclu]
  · rw [clu_of_cl (clusterOver_cl ..), State.clu_updClu_other _ _ _ _ hp]
  · rw [State.coreOf, clu_of_cl (clusterOver_cl ..), hclu]
    exact hcore c hc
  · exact mem_clOver_clusterOver (by rw [hclu, hv])

/-- Settles O15: one lemma for each event of a cluster's run. -/
theorem clusterRunEvents : Obligations.ClusterRunEvents := by
  intro s q k line hclock
  refine ⟨icacheMissFill_fills hclock, fun p c g rest hfirst hdone hp => ⟨fun hjob => ?_, signalArrive_counts hfirst hdone hp⟩,
    seqCtxTimeout_raises hclock, fun v => clusterStartIssue_begins hclock, clusterEnded_ends hclock, fun hsent hstop => ?_,
    fun hstop hstate => ?_⟩
  · refine (signalArrive_eq hfirst hdone hp).trans (congrArg _ (if_neg ?_))
    rw [sameJob_withSigs, hjob]
    decide
  · obtain ⟨t, hnext, honly, hstopping, hissue, hcore⟩ := jobStopReachCluster_stops hclock hsent hstop
    exact ⟨t, hnext, honly, hstopping, hissue, fun c hc => hcore c hc ▸ ⟨rfl, rfl, rfl, rfl, rfl⟩⟩
  · obtain ⟨t, hnext, hseven, hcolls, hother, hcore, hended⟩ := clusterStopped_stops hclock hstop hstate
    exact ⟨t, hnext, hseven, hcolls, hother, fun c hc => hcore c hc ▸ ⟨rfl, rfl, rfl, rfl, rfl⟩, hended⟩
end Sys2Proof.Machine

namespace Sys2Proof.Machine
open Sys2Proof

/-! ### The queues and outstanding accesses of a core after a change -/

@[simp] theorem CoreSt.queue_setQueue_same (k : CoreSt) (e : Engine) (l : List EInst) : (k.setQueue e l).queue e = l := by
  cases e <;> rfl

theorem CoreSt.queue_setQueue_other (k : CoreSt) {e f : Engine} (l : List EInst) (h : f ≠ e) :
    (k.setQueue e l).queue f = k.queue f := by
  cases e <;> cases f
  any_goals rfl
  all_goals exact absurd rfl h

@[simp] theorem CoreSt.setQueue_reads (k : CoreSt) (e : Engine) (l : List EInst) : (k.setQueue e l).reads = k.reads := by
  cases e <;> rfl

@[simp] theorem CoreSt.setQueue_accs (k : CoreSt) (e : Engine) (l : List EInst) (d : StreamDir) :
    (k.setQueue e l).accs d = k.accs d := by
  cases e <;> rfl

@[simp] theorem CoreSt.setQueue_veng (k : CoreSt) (e : Engine) (l : List EInst) : (k.setQueue e l).veng = k.veng := by
  cases e <;> rfl

@[simp] theorem CoreSt.accs_setAccs_same (k : CoreSt) (d : StreamDir) (l : List SAcc) : (k.setAccs d l).accs d = l := by
  cases d <;> rfl

@[simp] theorem CoreSt.setAccs_pad (k : CoreSt) (d : StreamDir) (l : List SAcc) : (k.setAccs d l).pad = k.pad := by
  cases d <;> rfl

theorem State.coreOf_putInst (s : State) (q c : Nat) (e : Engine) (i : EInst) :
    (s.putInst q c e i).coreOf q c = Machine.putInst (s.coreOf q c) e i := State.coreOf_updCoreOf_same ..

/-- An instruction put back stands in its queue. -/
theorem mem_queue_putInst {k : CoreSt} {e : Engine} {i j : EInst} (hi : i ∈ k.queue e) (hid : i.id = j.id) :
    j ∈ (putInst k e j).queue e := by
  rw [putInst, CoreSt.queue_setQueue_same]
  exact List.mem_map.2 ⟨i, hi, if_pos hid⟩

/-- An instruction put back leaves the numbers of its queue. -/
theorem queue_ids_putInst (k : CoreSt) (e f : Engine) (j : EInst) :
    ((putInst k e j).queue f).map (·.id) = (k.queue f).map (·.id) := by
  by_cases hf : f = e
  · subst hf
    rw [putInst, CoreSt.queue_setQueue_same, List.map_map]
    refine List.map_congr_left fun i _ => ?_
    simp only [Function.comp_apply]
    split
    · exact (‹i.id = j.id›).symm
    · rfl
  · rw [putInst, CoreSt.queue_setQueue_other _ _ hf]

/-! ### Starts of a stream instruction (R124, R188) -/

theorem streamStart_starts {s : State} {q c : Nat} {d : StreamDir} {i : EInst}
    (hi : ((s.coreOf q c).queue (dirQueue d)).find? (fun i => !i.started) = some i) (hwld : isWld i = false)
    (htwo : (((s.coreOf q c).queue (dirQueue d)).filter (·.started)).length < 2)
    (hissued : ∀ j ∈ (s.coreOf q c).queue (dirQueue d), j.started = true → allIssued j = true)
    (hscore : scoreOk (s.coreOf q c) i = true) :
    streamStart s q c d = s.putInst q c (dirQueue d) { i with started := true } := by
  have hall : ((((s.coreOf q c).queue (dirQueue d)).filter (·.started)).all allIssued) = true :=
    List.all_eq_true.2 fun j hj => hissued j (List.mem_filter.1 hj).1 (List.mem_filter.1 hj).2
  simp only [streamStart, hi, hwld, htwo, hall, hscore, decide_true, Bool.not_false, Bool.and_self, if_true]

/-! ### Issue of a sector access (R183, R187, R188) -/

/-- An access that is added changes neither memory nor the scratchpad, and stands last. -/
theorem pushAcc_adds (s : State) (q c : Nat) (d : StreamDir) (i : EInst) (a : SAcc) :
    (pushAcc s q c d i a).mem = s.mem ∧ ((pushAcc s q c d i a).coreOf q c).pad = (s.coreOf q c).pad
      ∧ ((pushAcc s q c d i a).coreOf q c).accs d = (s.coreOf q c).accs d ++ [a] := by
  refine ⟨rfl, ?_, ?_⟩
  · simp only [pushAcc, State.coreOf_updCoreOf_same, CoreSt.setAccs_pad, State.coreOf_putInst, putInst_pad]
  · simp only [pushAcc, State.coreOf_updCoreOf_same, CoreSt.accs_setAccs_same, State.coreOf_putInst, putInst,
      CoreSt.setQueue_accs]

theorem indexOf_frame {s : State} (h : s.guard.armed = []) (q c : Nat) (i : EInst) (e : Nat) :
    ReadFrame q c s (indexOf s q c i e).1 := by
  simp only [indexOf]
  split
  · exact readElem_frame h ..
  · exact .refl q c s

theorem mergeReads_frame (q c : Nat) (i : EInst) (sec f : Nat) {s : State} (h : s.guard.armed = []) (p : Nat) (l : List Nat) :
    ReadFrame q c s (mergeReads q c i sec f s p l).1 := by
  induction f generalizing s p l with
  | zero => exact .refl q c s
  | succ f ih =>
    have hindex := indexOf_frame h q c i (p / piecesPer i)
    simp only [mergeReads]
    split
    · exact hindex.trans (ih (hindex.quiet h) _ _)
    · exact .refl q c s

/-- An issue of a transfer in adds one access of its next piece, after reads alone. -/
theorem issueRead_pushes {s : State} (h : s.guard.armed = []) (q c : Nat) (i : EInst) (l : List Nat) :
    ∃ t a, issueRead s q c i l = pushAcc t q c .inn i a ∧ ReadFrame q c s t ∧ a.id = i.id ∧ a.piece = i.next := by
  have hindex := indexOf_frame h q c i (i.next / piecesPer i)
  simp only [issueRead]
  split
  · exact ⟨_, _, rfl, hindex, rfl, rfl⟩
  · split
    · exact ⟨_, _, rfl, hindex.trans (readPiece_frame (hindex.quiet h) ..), rfl, rfl⟩
    · split
      · exact ⟨_, _, rfl, hindex.trans (accessEvent_readFrame ..), rfl, rfl⟩
      · exact ⟨_, _, rfl, hindex.trans (mergeReads_frame q c i _ _ (hindex.quiet h) _ _), rfl, rfl⟩

theorem readPiece_length (s : State) (q c : Nat) (i : EInst) (a : Int) (n : Nat) :
    (readPiece s q c i a n).2.1.length = n := by
  simp only [readPiece]
  split
  · exact List.length_replicate ..
  · split
    · simp [padBytes]
    · exact List.length_replicate ..

theorem pieceBytes_pos (i : EInst) : 0 < pieceBytes i := by
  simp only [pieceBytes, fEsz]
  have : 0 < 2 ^ seg i.word.toNat 62 60 := Nat.two_pow_pos _
  omega

theorem byteMask_ne_zero (lo : Nat) {n : Nat} (h : 0 < n) : byteMask lo n ≠ 0 := by
  have hn : 2 ^ 1 ≤ 2 ^ n := Nat.pow_le_pow_right (by decide) h
  have hlo : 0 < 2 ^ lo := Nat.two_pow_pos _
  exact Nat.mul_ne_zero (by omega) (by omega)

/-- Under STN carry a piece of a write joins it, and the write keeps the bytes that it has. -/
theorem addPiece_adds {g : Gather} (h : g.s.guard.armed = []) (hhalt : fHalt g.inst.word.toNat = false) (q c p off : Nat) :
    ReadFrame q c g.s (addPiece q c g p off).s ∧ (addPiece q c g p off).inst = g.inst ∧ (addPiece q c g p off).en ≠ 0 := by
  have hread := readPiece_frame h q c g.inst (nearAddr g.inst .out c p) (pieceBytes g.inst)
  have hlen := readPiece_length g.s q c g.inst (nearAddr g.inst .out c p) (pieceBytes g.inst)
  have hadd : addPiece q c g p off = { g with
      s := (readPiece g.s q c g.inst (nearAddr g.inst .out c p) (pieceBytes g.inst)).1, offs := g.offs ++ [off]
      data := paste g.data off (readPiece g.s q c g.inst (nearAddr g.inst .out c p) (pieceBytes g.inst)).2.1
      en := g.en ||| byteMask off (pieceBytes g.inst)
      stain := g.stain || (readPiece g.s q c g.inst (nearAddr g.inst .out c p) (pieceBytes g.inst)).2.2 } := by
    simp only [addPiece, hhalt, Bool.false_and, Bool.false_eq_true, if_false, hlen]
  rw [hadd]
  exact ⟨hread, rfl, fun hz => byteMask_ne_zero off (pieceBytes_pos g.inst) (Nat.or_eq_zero_iff.1 hz).2⟩

theorem mergeWrites_keeps (q c sec f : Nat) {g : Gather} (h : g.s.guard.armed = []) (hhalt : fHalt g.inst.word.toNat = false)
    (hen : g.en ≠ 0) (p : Nat) :
    ReadFrame q c g.s (mergeWrites q c sec f g p).s ∧ (mergeWrites q c sec f g p).inst = g.inst
      ∧ (mergeWrites q c sec f g p).en ≠ 0 := by
  induction f generalizing g p with
  | zero => exact ⟨.refl q c g.s, rfl, hen⟩
  | succ f ih =>
    have hindex := indexOf_frame h q c g.inst (p / piecesPer g.inst)
    simp only [mergeWrites]
    split
    · obtain ⟨hread, hinst, hen'⟩ := addPiece_adds (g := { g with s := (indexOf g.s q c g.inst (p / piecesPer g.inst)).1 })
        (hindex.quiet h) hhalt q c p
        (farAddr g.inst .out c p (indexOf g.s q c g.inst (p / piecesPer g.inst)).2.1 % 32).toNat
      obtain ⟨kread, kinst, ken⟩ := ih ((hindex.trans hread).quiet h) (by rw [hinst]; exact hhalt) hen' (p + 1)
      exact ⟨(hindex.trans hread).trans kread, kinst.trans hinst, ken⟩
    · exact ⟨.refl q c g.s, rfl, hen⟩

/-- An issue of an unindexed, aligned transfer out under STN carry adds one access of its next piece. -/
theorem issueWrite_pushes {s : State} (h : s.guard.armed = []) {q c : Nat} {i : EInst} (hindexed : isIndexed i = false)
    (haligned : farAligned i (farAddr i .out c i.next 0) = true) (hhalt : fHalt i.word.toNat = false) :
    ∃ t a, issueWrite s q c i [] = pushAcc t q c .out i a ∧ ReadFrame q c s t ∧ a.id = i.id ∧ a.piece = i.next := by
  have hindex : indexOf s q c i (i.next / piecesPer i) = (s, 0, false) := by
    rw [indexOf, hindexed]
    rfl
  have hflip : flipAddr [] (farAddr i .out c i.next 0) = farAddr i .out c i.next 0 := if_pos rfl
  obtain ⟨hread, hinst, hen⟩ := addPiece_adds (g := { s := s, inst := i, data := zeros 32 }) h hhalt q c i.next
    (farAddr i .out c i.next 0 % 32).toNat
  obtain ⟨kread, kinst, ken⟩ := mergeWrites_keeps q c (sectorOf (farAddr i .out c i.next 0)) (pieceTotal i - i.next - 1)
    (hread.quiet h) (by rw [hinst]; exact hhalt) hen (i.next + 1)
  simp only [issueWrite, hindex, hflip, haligned, Bool.false_eq_true, Bool.not_true, if_false, if_neg ken, kinst.trans hinst]
  exact ⟨_, _, rfl, hread.trans kread, rfl, rfl⟩

/-- No bit flips in the paths and no injection is armed: the stage does nothing. -/
theorem parityStage_none {s : State} (h : s.guard.armed = []) (q c : Nat) (i : EInst) : parityStage s q c i [] = (s, []) := by
  simp only [parityStage, takeInject_quiet h]
  rfl

/-- The issue of one access of a stream, with no bit of its address flipped. -/
def issueNext (s : State) (q c : Nat) (i : EInst) : StreamDir → State
  | .inn => issueRead s q c i []
  | .out => issueWrite s q c i []

/-- An issue that nothing holds back. -/
theorem execStreamSectorIssue_issues {s : State} {q : Cl} {c : Core} {d : StreamDir} {i : EInst}
    (hclock : islandStopped s q.val = false) (hquiet : s.guard.armed = [])
    (hi : ((s.coreOf q.val c.val).queue (dirQueue d)).find? (fun i => i.started && !allIssued i) = some i)
    (hroom : ((s.coreOf q.val c.val).accs d).length < accLimit d) (hconf : conflicts s q.val c.val d i = false)
    (hfence : usesDevice i = true → fencePassed (s.coreOf q.val c.val) i = true) :
    execStreamSectorIssue q c { dir := d } s = .next (issueNext s q.val c.val i d) := by
  have hbits : ((List.finRange 52).filter fun b => (StreamIssue.mk d []).upset.count b % 2 == 1).map (·.val) = [] := by
    simp
  have hpass : (usesDevice i && !fencePassed (s.coreOf q.val c.val) i) = false := by
    cases huse : usesDevice i with
    | false => rfl
    | true => simp [hfence huse]
  simp only [execStreamSectorIssue, onClock_runs hclock, hi, Nat.not_le.2 hroom, hconf, hpass, decide_false, Bool.or_self,
    Bool.false_eq_true, if_false]
  rw [hbits, parityStage_none hquiet]
  cases d with
  | inn => rfl
  | out => rfl

/-- An issue adds one access of the instruction's next piece (R183, R187). -/
theorem issueNext_pushes {s : State} (h : s.guard.armed = []) {q c : Nat} {d : StreamDir} {i : EInst}
    (hout : d = .out → isIndexed i = false ∧ farAligned i (farAddr i .out c i.next 0) = true ∧ fHalt i.word.toNat = false) :
    ∃ t a, issueNext s q c i d = pushAcc t q c d i a ∧ ReadFrame q c s t ∧ a.id = i.id ∧ a.piece = i.next := by
  cases d with
  | inn => exact issueRead_pushes h q c i []
  | out =>
    obtain ⟨hindexed, haligned, hhalt⟩ := hout rfl
    exact issueWrite_pushes h hindexed haligned hhalt

/-! ### Returns and completions (R126, R186, R188) -/

/-- The write of a piece leaves memory, injections, the outstanding reads, the vector engine's results and the numbers of
every queue. -/
structure PieceFrame (q c : Nat) (x y : State × EInst) : Prop where
  mem : y.1.mem = x.1.mem
  guard : y.1.guard = x.1.guard
  reads : (y.1.coreOf q c).reads = (x.1.coreOf q c).reads
  veng : (y.1.coreOf q c).veng = (x.1.coreOf q c).veng
  ids : ∀ e, ((y.1.coreOf q c).queue e).map (·.id) = ((x.1.coreOf q c).queue e).map (·.id)
  inst : y.2 = { x.2 with cover := y.2.cover, halted := y.2.halted }

theorem PieceFrame.refl (q c : Nat) (x : State × EInst) : PieceFrame q c x x := ⟨rfl, rfl, rfl, rfl, fun _ => rfl, rfl⟩

theorem PieceFrame.trans {q c : Nat} {x y z : State × EInst} (h : PieceFrame q c x y) (k : PieceFrame q c y z) :
    PieceFrame q c x z :=
  ⟨k.mem.trans h.mem, k.guard.trans h.guard, k.reads.trans h.reads, k.veng.trans h.veng,
    fun e => (k.ids e).trans (h.ids e), by rw [k.inst, h.inst]⟩

theorem PieceFrame.quiet {q c : Nat} {x y : State × EInst} (h : PieceFrame q c x y) (hx : x.1.guard.armed = []) :
    y.1.guard.armed = [] := by rw [h.guard, hx]

theorem PieceFrame.foldl {q c : Nat} {β : Type} {f : State × EInst → β → State × EInst}
    (hf : ∀ x b, x.1.guard.armed = [] → PieceFrame q c x (f x b)) (l : List β) {x : State × EInst}
    (hx : x.1.guard.armed = []) : PieceFrame q c x (l.foldl f x) := by
  induction l generalizing x with
  | nil => exact .refl q c x
  | cons b l ih => exact (hf x b hx).trans (ih ((hf x b hx).quiet hx))

theorem ReadFrame.pieceFrame {q c : Nat} {s t : State} (h : ReadFrame q c s t) (i : EInst) : PieceFrame q c (s, i) (t, i) :=
  ⟨h.mem, h.guard, congrArg _ h.coreOf, congrArg _ h.coreOf, fun e => by rw [h.coreOf], rfl⟩

theorem putInst_pieceFrame (s : State) (q c : Nat) (e : Engine) {i j : EInst}
    (h : j = { i with cover := j.cover, halted := j.halted }) : PieceFrame q c (s, i) (s.putInst q c e j, j) where
  mem := rfl
  guard := rfl
  reads := by rw [State.coreOf_putInst, putInst, CoreSt.setQueue_reads]
  veng := by rw [State.coreOf_putInst, putInst, CoreSt.setQueue_veng]
  ids f := by rw [State.coreOf_putInst, queue_ids_putInst]
  inst := h

theorem writePiece_pieceFrame {s : State} (h : s.guard.armed = []) (q c : Nat) (e : Engine) (i : EInst) (a : Int)
    (b : List Byte) (st : Bool) : PieceFrame q c (s, i) (writePiece s q c e i a b st) := by
  by_cases hf : accessFault i.wmask a b.length = 0
  · rw [writePiece_done h hf]
    refine ⟨rfl, rfl, ?_, ?_, fun f => ?_, rfl⟩
    · rw [State.coreOf_updCoreOf_same, putInst, CoreSt.setQueue_reads]
      rfl
    · rw [State.coreOf_updCoreOf_same, putInst, CoreSt.setQueue_veng]
      rfl
    · rw [State.coreOf_updCoreOf_same, queue_ids_putInst]
      cases f <;> rfl
  · rw [writePiece_failed h hf]
    exact (accessEvent_readFrame ..).pieceFrame i

theorem writeElem_pieceFrame {s : State} (h : s.guard.armed = []) (q c : Nat) (e : Engine) (i : EInst) (a : Int)
    (b : List Byte) (st : Bool) : PieceFrame q c (s, i) (writeElem s q c e i a b st) := by
  simp only [writeElem]
  split
  · exact writePiece_pieceFrame h ..
  · split
    · exact (accessEvent_readFrame ..).pieceFrame i
    · have hlo := writePiece_pieceFrame h q c e i a (b.take 32) st
      exact hlo.trans (writePiece_pieceFrame (hlo.quiet h) ..)

/-- The writes of the pieces of a returned read. -/
def returnPieces (q c : Nat) (a : SAcc) (x : State × EInst) : State × EInst :=
  a.offs.zipIdx.foldl (fun (s, inst) (off, j) =>
    if fHalt inst.word.toNat && a.stain then
      let inst := { inst with halted := true }
      (s.putInst q c .iq inst, inst)
    else
      writePiece s q c .iq inst (nearAddr inst .inn c (a.piece + j)) (cut a.data off (pieceBytes inst)) a.stain) x

theorem returnPieces_frame {x : State × EInst} (h : x.1.guard.armed = []) (q c : Nat) (a : SAcc) :
    PieceFrame q c x (returnPieces q c a x) := by
  refine PieceFrame.foldl (fun y b hy => ?_) _ h
  simp only
  split
  · exact putInst_pieceFrame y.1 q c .iq rfl
  · exact writePiece_pieceFrame hy ..

/-- The one piece of a read, where it is allowed, is put in the scratchpad. -/
theorem returnPieces_pad {s : State} {i : EInst} (h : s.guard.armed = []) (q c : Nat) {a : SAcc} {off : Nat}
    (hoffs : a.offs = [off]) (hhalt : fHalt i.word.toNat = false)
    (hf : accessFault i.wmask (nearAddr i .inn c a.piece) (pieceBytes i) = 0) :
    padBytes ((returnPieces q c a (s, i)).1.coreOf q c) (nearAddr i .inn c a.piece).toNat (pieceBytes i)
      = cut a.data off (pieceBytes i) := by
  have hlen : (cut a.data off (pieceBytes i)).length = pieceBytes i := by simp [cut]
  have hone : returnPieces q c a (s, i)
      = writePiece s q c .iq i (nearAddr i .inn c a.piece) (cut a.data off (pieceBytes i)) a.stain := by
    simp [returnPieces, hoffs, hhalt]
  have hput := padBytes_put (writePiece_pad h (q := q) (c := c) .iq a.stain (hlen.symm ▸ hf))
  rwa [← hone, hlen] at hput

/-- A returned read, once it is off the list. -/
def readReturned (s : State) (q c : Nat) (a : SAcc) : State :=
  match (s.coreOf q c).iq.find? fun j => j.id == a.id with
  | none => s
  | some inst =>
    let x := returnPieces q c a (s, inst)
    if allIssued x.2 && !(x.1.coreOf q c).reads.any fun r => r.id == x.2.id then
      x.1.putInst q c .iq { x.2 with writesOut := true }
    else x.1

theorem execStreamReadReturn_eq {s : State} {q : Cl} {c : Core} {m : Nat} {a : SAcc} (hclock : islandStopped s q.val = false)
    (ha : (s.coreOf q.val c.val).reads[m]? = some a) (hphase : 3 ≤ a.phase) :
    execStreamReadReturn q c m s = .next (readReturned
      (s.updCoreOf q.val c.val fun k => { k with reads := dropAt k.reads m }) q.val c.val a) := by
  have hacc : s.acc q.val c.val .inn m = some a := ha
  simp only [execStreamReadReturn, onClock_runs hclock, hacc, Nat.not_lt.2 hphase, if_false]
  rfl

theorem readReturned_keeps {s : State} (h : s.guard.armed = []) (q c : Nat) (a : SAcc) :
    (readReturned s q c a).mem = s.mem ∧ ((readReturned s q c a).coreOf q c).reads = (s.coreOf q c).reads := by
  unfold readReturned
  split
  · exact ⟨rfl, rfl⟩
  · rename_i inst _
    have hframe := returnPieces_frame (x := (s, inst)) h q c a
    simp only
    split
    · refine ⟨hframe.mem, ?_⟩
      rw [State.coreOf_putInst, putInst, CoreSt.setQueue_reads]
      exact hframe.reads
    · exact ⟨hframe.mem, hframe.reads⟩

theorem readReturned_pad {s : State} {i : EInst} (h : s.guard.armed = []) (q c : Nat) {a : SAcc} {off : Nat}
    (hoffs : a.offs = [off]) (hi : (s.coreOf q c).iq.find? (fun j => j.id == a.id) = some i)
    (hhalt : fHalt i.word.toNat = false) (hf : accessFault i.wmask (nearAddr i .inn c a.piece) (pieceBytes i) = 0) :
    padBytes ((readReturned s q c a).coreOf q c) (nearAddr i .inn c a.piece).toNat (pieceBytes i)
      = cut a.data off (pieceBytes i) := by
  rw [← returnPieces_pad h q c hoffs hhalt hf]
  simp only [readReturned, hi]
  split
  · simp only [padBytes, State.coreOf_putInst, putInst_pad]
  · rfl

/-- A finished instruction that has not halted leaves its queue, and nothing else changes (R122, R126). -/
theorem retire_quiet {s : State} (h : s.guard.armed = []) {q c : Nat} {e : Engine} {i : EInst} {rest : List EInst}
    (hq : (s.coreOf q c).queue e = i :: rest) (hhalt : i.halted = false) :
    retire s q c e = s.updCoreOf q c fun k => k.setQueue e rest := by
  have hquiet : (s.updCoreOf q c fun k => k.setQueue e rest).guard.armed = [] := h
  simp only [retire, hq, hhalt, detect_quiet hquiet, Bool.false_eq_true, if_false, id_eq, ite_self]

theorem streamReadReturn_returns {s : State} {q : Cl} {c : Core} {m : Nat} {a : SAcc} {i : EInst}
    (hclock : islandStopped s q.val = false) (hquiet : s.guard.armed = [])
    (ha : (s.coreOf q.val c.val).reads[m]? = some a) (hphase : 3 ≤ a.phase) :
    ∃ t, execStreamReadReturn q c m s = .next t ∧ t.mem = s.mem
      ∧ (t.coreOf q.val c.val).reads = dropAt (s.coreOf q.val c.val).reads m
      ∧ ∀ off, a.offs = [off] → (s.coreOf q.val c.val).iq.find? (fun j => j.id == a.id) = some i →
          fHalt i.word.toNat = false → accessFault i.wmask (nearAddr i .inn c.val a.piece) (pieceBytes i) = 0 →
          padBytes (t.coreOf q.val c.val) (nearAddr i .inn c.val a.piece).toNat (pieceBytes i)
            = cut a.data off (pieceBytes i) := by
  have hexec := execStreamReadReturn_eq hclock ha hphase
  have hcore : (s.updCoreOf q.val c.val fun k => { k with reads := dropAt k.reads m }).coreOf q.val c.val
      = { s.coreOf q.val c.val with reads := dropAt (s.coreOf q.val c.val).reads m } := State.coreOf_updCoreOf_same ..
  have hmem : (s.updCoreOf q.val c.val fun k => { k with reads := dropAt k.reads m }).mem = s.mem := rfl
  have harmed : (s.updCoreOf q.val c.val fun k => { k with reads := dropAt k.reads m }).guard.armed = [] := hquiet
  generalize (s.updCoreOf q.val c.val fun k => { k with reads := dropAt k.reads m }) = u at hexec hcore hmem harmed
  obtain ⟨kmem, kreads⟩ := readReturned_keeps harmed q.val c.val a
  refine ⟨_, hexec, kmem.trans hmem, by rw [kreads, hcore], fun off hoffs hi hhalt hf => ?_⟩
  exact readReturned_pad harmed q.val c.val hoffs (by rw [hcore]; exact hi) hhalt hf

theorem streamWriteComplete_completes {s : State} {q : Cl} {c : Core} {m : Nat} {a : SAcc}
    (hclock : islandStopped s q.val = false) (ha : (s.coreOf q.val c.val).writes[m]? = some a) (hphase : 3 ≤ a.phase) :
    execStreamWriteComplete q c m s = .next (s.updCoreOf q.val c.val fun k => { k with writes := dropAt k.writes m }) := by
  have hacc : s.acc q.val c.val .out m = some a := ha
  simp only [execStreamWriteComplete, onClock_runs hclock, hacc, Nat.not_lt.2 hphase, if_false]

theorem engineInstrComplete_retires {s : State} {q : Cl} {c : Core} {e : Engine} {i : EInst} {rest : List EInst}
    (hclock : islandStopped s q.val = false) (hquiet : s.guard.armed = [])
    (hqueue : (s.coreOf q.val c.val).queue e = i :: rest) (hdone : headDone (s.coreOf q.val c.val) e i = true)
    (hhalt : i.halted = false) :
    execEngineInstrComplete q c e s = .next (s.updCoreOf q.val c.val fun k => k.setQueue e rest) := by
  simp only [execEngineInstrComplete, onClock_runs hclock, hqueue, hdone, if_true, retire_quiet hquiet hqueue hhalt]

/-- Settles O20: each command as its change of the core, or as reads followed by that change. -/
theorem streamEngineCommands : Obligations.StreamEngineCommands := by
  intro s q c i k starts hclock hquiet
  have hstarts : ∀ (d : StreamDir) (cmd : Instr), exec cmd s = onClock q s (streamStart s q.val c.val d) → starts d cmd := by
    intro d cmd hcmd hi hwld htwo hissued hscore
    refine ⟨s.putInst q.val c.val (dirQueue d) { i with started := true }, ?_, updCoreOf_only .., State.coreOf_putInst ..⟩
    rw [hcmd, onClock_runs hclock, streamStart_starts hi hwld htwo hissued hscore]
  refine ⟨hstarts .inn _ rfl, hstarts .out _ rfl, fun d hi hroom hconf hfence hout => ?_,
    fun m a ha hphase => streamReadReturn_returns hclock hquiet ha hphase,
    fun m a ha hphase => ⟨_, streamWriteComplete_completes hclock ha hphase, updCoreOf_only .., State.coreOf_updCoreOf_same ..⟩,
    fun e rest hqueue hdone hhalt => ⟨_, engineInstrComplete_retires hclock hquiet hqueue hdone hhalt, updCoreOf_only ..,
      State.coreOf_updCoreOf_same ..⟩⟩
  obtain ⟨t, a, hissue, hread, hid, hpiece⟩ := issueNext_pushes hquiet hout
  obtain ⟨hmem, hpad, haccs⟩ := pushAcc_adds t q.val c.val d i a
  refine ⟨_, a, execStreamSectorIssue_issues hclock hquiet hi hroom hconf hfence, ?_, ?_, ?_, hid, hpiece⟩
  · rw [hissue, hmem, hread.mem]
  · rw [hissue, hpad, hread.coreOf]
  · rw [hissue, haccs, hread.coreOf]
end Sys2Proof.Machine

namespace Sys2Proof.Machine
open Sys2Proof

/-! ### What the work of the vector engine leaves alone (R167–R178) -/

/-- Memory, injections, the core's scratchpad, its vector queue and the results waiting in it stay. -/
structure VecFrame (q c : Nat) (s t : State) : Prop where
  mem : t.mem = s.mem
  guard : t.guard = s.guard
  pad : (t.coreOf q c).pad = (s.coreOf q c).pad
  vq : (t.coreOf q c).vq = (s.coreOf q c).vq
  out : (t.coreOf q c).veng.out = (s.coreOf q c).veng.out

theorem VecFrame.refl (q c : Nat) (s : State) : VecFrame q c s s := ⟨rfl, rfl, rfl, rfl, rfl⟩

theorem VecFrame.trans {q c : Nat} {s t u : State} (h : VecFrame q c s t) (k : VecFrame q c t u) : VecFrame q c s u :=
  ⟨k.mem.trans h.mem, k.guard.trans h.guard, k.pad.trans h.pad, k.vq.trans h.vq, k.out.trans h.out⟩

theorem VecFrame.quiet {q c : Nat} {s t : State} (h : VecFrame q c s t) (hs : s.guard.armed = []) : t.guard.armed = [] := by
  rw [h.guard, hs]

theorem ReadFrame.vecFrame {q c : Nat} {s t : State} (h : ReadFrame q c s t) : VecFrame q c s t :=
  ⟨h.mem, h.guard, congrArg _ h.coreOf, congrArg _ h.coreOf, congrArg (·.veng.out) h.coreOf⟩

/-- A change of the engine's progress that keeps the results waiting. -/
theorem updVeng_vecFrame (s : State) (q c : Nat) {f : VEng → VEng} (hf : ∀ v, (f v).out = v.out) :
    VecFrame q c s (s.updCoreOf q c fun k => { k with veng := f k.veng }) := by
  refine ⟨rfl, rfl, ?_, ?_, ?_⟩
  · rw [State.coreOf_updCoreOf_same]
  · rw [State.coreOf_updCoreOf_same]
  · rw [State.coreOf_updCoreOf_same]
    exact hf _

/-- An instruction and the result group that it fills keep their number and the count of groups. -/
structure EmitFrame (x y : EInst × VRes) : Prop where
  id : y.1.id = x.1.id
  next : y.1.next = x.1.next
  res : y.2.id = x.2.id

theorem EmitFrame.refl (x : EInst × VRes) : EmitFrame x x := ⟨rfl, rfl, rfl⟩

theorem EmitFrame.trans {x y z : EInst × VRes} (h : EmitFrame x y) (k : EmitFrame y z) : EmitFrame x z :=
  ⟨k.id.trans h.id, k.next.trans h.next, k.res.trans h.res⟩

theorem EmitFrame.foldl {β : Type} {f : EInst × VRes → β → EInst × VRes} (hf : ∀ x b, EmitFrame x (f x b)) (l : List β)
    (x : EInst × VRes) : EmitFrame x (l.foldl f x) := by
  induction l generalizing x with
  | nil => exact .refl x
  | cons b l ih => exact (hf x b).trans (ih _)

theorem emitRes_frame (i : EInst) (v : VRes) (a : Int) (b : List Byte) (st : Bool) : EmitFrame (i, v) (emitRes i v a b st) := by
  unfold emitRes
  split
  · exact ⟨rfl, rfl, rfl⟩
  · exact ⟨rfl, rfl, rfl⟩

/-- Both together: what one group's work keeps. -/
structure GroupFrame (q c : Nat) (x y : State × EInst × VRes) : Prop where
  state : VecFrame q c x.1 y.1
  emit : EmitFrame x.2 y.2

theorem GroupFrame.refl (q c : Nat) (x : State × EInst × VRes) : GroupFrame q c x x := ⟨.refl q c x.1, .refl x.2⟩

theorem GroupFrame.trans {q c : Nat} {x y z : State × EInst × VRes} (h : GroupFrame q c x y) (k : GroupFrame q c y z) :
    GroupFrame q c x z := ⟨h.state.trans k.state, h.emit.trans k.emit⟩

theorem GroupFrame.foldl {q c : Nat} {β : Type} {f : State × EInst × VRes → β → State × EInst × VRes}
    (hf : ∀ x b, x.1.guard.armed = [] → GroupFrame q c x (f x b)) (l : List β) {x : State × EInst × VRes}
    (hx : x.1.guard.armed = []) : GroupFrame q c x (l.foldl f x) := by
  induction l generalizing x with
  | nil => exact .refl q c x
  | cons b l ih => exact (hf x b hx).trans (ih ((hf x b hx).state.quiet hx))

theorem vread_frame {s : State} (h : s.guard.armed = []) (q c : Nat) (i : EInst) (slot e fmt : Nat) :
    ReadFrame q c s (vread s q c i slot e fmt).1 := readElem_frame h ..

theorem vreadB_frame {s : State} (h : s.guard.armed = []) (q c : Nat) (i : EInst) (r j : Nat) :
    ReadFrame q c s (vreadB s q c i r j).1 := by
  simp only [vreadB]
  split
  · exact vread_frame h ..
  · exact .refl q c s
  · exact vread_frame h ..
  · exact vread_frame h ..

theorem elementwise_frame {s : State} (h : s.guard.armed = []) (q c : Nat) (i : EInst) (v : VRes) (r j : Nat) :
    GroupFrame q c (s, i, v) (elementwise s q c i v r j) := by
  have hread := vread_frame h q c i 0 (r * runLen i + j) (fFmtS i.word.toNat)
  simp only [elementwise]
  split
  · exact ⟨(readElem_frame h ..).vecFrame, emitRes_frame ..⟩
  · split
    · have hb := hread.trans (vreadB_frame (hread.quiet h) q c i r j)
      split
      · exact ⟨(hb.trans (vread_frame (hb.quiet h) ..)).vecFrame, emitRes_frame ..⟩
      · exact ⟨hb.vecFrame, emitRes_frame ..⟩
    · exact ⟨hread.vecFrame, emitRes_frame ..⟩

/-- The lanes of a reduction are read, and then the engine's accumulators put. -/
theorem reduceLanes_frame {s : State} (h : s.guard.armed = []) (q c : Nat) (i : EInst) (op fmt base : Nat) (id : Word)
    (l : List (Nat × Nat)) (acc : Tbl Word × Bool) :
    ReadFrame q c s (l.foldl (fun (s, acc, st) (l, j) =>
      if laneOn i l then
        let (s, x, st') := vread s q c i 0 (base + j) fmt
        (s, upd id acc l (fun y => redOp op y x), st || st')
      else (s, acc, st)) (s, acc)).1 := by
  refine ReadFrame.foldl_fst (x := (s, acc)) (fun x b hx => ?_) l h
  dsimp only
  split
  · exact vread_frame hx ..
  · exact .refl q c x.1

theorem reduceGroup_frame {s : State} (h : s.guard.armed = []) (q c : Nat) (i : EInst) (v : VRes) (r gi : Nat) :
    GroupFrame q c (s, i, v) (reduceGroup s q c i v r gi) := by
  have hlanes := fun acc => (reduceLanes_frame h q c i (eOp i) (fFmtS i.word.toNat) (r * runLen i) (redIdentity (eOp i))
    (groupLanes i gi) acc).vecFrame
  simp only [reduceGroup]
  split
  · exact ⟨(hlanes _).trans (updVeng_vecFrame _ q c (f := fun v => { v with acc := _, accStain := _ }) fun _ => rfl), emitRes_frame ..⟩
  · exact ⟨(hlanes _).trans (updVeng_vecFrame _ q c (f := fun v => { v with acc := _, accStain := _ }) fun _ => rfl), .refl _⟩

/-- The elements of half a block are read. -/
theorem mxqLanes_frame {s : State} (h : s.guard.armed = []) (q c : Nat) (i : EInst) (fmt base : Nat)
    (l : List (Nat × Nat)) (xs : List Word × Bool) :
    ReadFrame q c s (l.foldl (fun ((s, xs, st) : State × List Word × Bool) (_, j) =>
      let (s, x, st') := vread s q c i 0 (base + j) fmt
      (s, xs ++ [x], st || st')) (s, xs)).1 := by
  refine ReadFrame.foldl_fst (x := (s, xs)) (fun x b hx => ?_) l h
  dsimp only
  exact vread_frame hx ..

theorem mxqGroup_frame {s : State} (h : s.guard.armed = []) (q c : Nat) (i : EInst) (v : VRes) (r gi : Nat) :
    GroupFrame q c (s, i, v) (mxqGroup s q c i v r gi) := by
  have hlanes := (mxqLanes_frame h q c i (fFmtS i.word.toNat) (r * runLen i) (groupLanes i gi) ([], false)).vecFrame
  simp only [mxqGroup]
  split
  · exact ⟨hlanes.trans (updVeng_vecFrame _ q c (f := fun v => { v with half := _, halfStain := _ }) fun _ => rfl), .refl _⟩
  · split
    · exact ⟨hlanes, (EmitFrame.foldl (fun _ _ => emitRes_frame ..) _ _).trans (emitRes_frame ..)⟩
    · exact ⟨hlanes, (EmitFrame.foldl (fun _ _ => emitRes_frame ..) _ _).trans (emitRes_frame ..)⟩

theorem randGroup_frame (s : State) (q c : Nat) (i : EInst) (v : VRes) (r gi : Nat) :
    GroupFrame q c (s, i, v) (randGroup s q c i v r gi) := by
  have hlane : ∀ (x : EInst × VRes) (b : Nat × Nat) (a : Int) (w : List Byte),
      EmitFrame x (if laneOn x.1 b.1 then emitRes x.1 x.2 a w false else x) := by
    intro x b a w
    split
    · exact emitRes_frame ..
    · exact .refl x
  simp only [randGroup]
  refine ⟨?_, EmitFrame.foldl (fun x b => hlane x b _ _) _ (i, v)⟩
  split
  · refine ⟨rfl, rfl, ?_, ?_, ?_⟩ <;> rw [State.coreOf_updCoreOf_same]
  · exact .refl q c s

/-- The record of a merged row is read. -/
theorem mergeRecord_frame {s : State} (h : s.guard.armed = []) (q c : Nat) (i : EInst) (r : Nat) (l : List Nat)
    (x : List Word × Bool) :
    ReadFrame q c s (l.foldl (fun ((s, l, st) : State × List Word × Bool) e =>
      let (s, x, st') := vread s q c i 3 (4 * r + e) 8
      (s, l ++ [x], st || st')) (s, x)).1 := by
  refine ReadFrame.foldl_fst (x := (s, x)) (fun x b hx => ?_) l h
  dsimp only
  exact vread_frame hx ..

/-- The record's part of a merge: it is read, combined and written back in a row's first group. -/
def mergeRecord (s : State) (q c : Nat) (i : EInst) (v : VRes) (r : Nat) : State × EInst × VRes :=
  let (s, recs, st) := (List.range 4).foldl (fun ((s, l, st) : State × List Word × Bool) e =>
    let (s, x, st') := vread s q c i 3 (4 * r + e) 8
    (s, l ++ [x], st || st')) (s, [], false)
  let g := fun e => recs.getD e 0
  let m := f32Max (g 0) (g 2)
  let al := mergeScale (g 0) m
  let be := mergeScale (g 2) m
  let l := f32Fma (g 1) al (f32Mul (g 3) be)
  let s := s.updCoreOf q c fun k =>
    { k with veng := { k.veng with alpha := al, beta := be, recStain := st || rowStain k c i r } }
  let (i, v) := emitRes i v (eAddr i 3 c (4 * r)) (leBytes 4 m.toNat) st
  let (i, v) := emitRes i v (eAddr i 3 c (4 * r + 1)) (leBytes 4 l.toNat) st
  (s, i, v)

/-- One active element of a merged row, for the word `n`. -/
def mergeElem (q c n r : Nat) (eng : VEng) (x : State × EInst × VRes) (b : Nat × Nat) : State × EInst × VRes :=
  let (s, i, v) := x
  let (l, j) := b
  if laneOn i l then
    let e := r * runLen i + j
    let (s, a, _) := vread s q c i 0 e (fFmtS n)
    let (s, b, _) := vread s q c i 1 e (fFmtS n)
    let x := f32Fma a eng.alpha (f32Mul b eng.beta)
    let (i, v) := emitRes i v (eAddr i 2 c e)
      (leBytes (elemBytes (fFmtD n)) (toDest (fFmtD n) (fSatV n) x)) eng.recStain
    (s, i, v)
  else (s, i, v)

theorem mergeRecord_keeps {s : State} (h : s.guard.armed = []) (q c : Nat) (i : EInst) (v : VRes) (r : Nat) :
    GroupFrame q c (s, i, v) (mergeRecord s q c i v r) := by
  have hrecord := (mergeRecord_frame h q c i r (List.range 4) ([], false)).vecFrame
  refine ⟨hrecord.trans ?_, (emitRes_frame ..).trans (emitRes_frame ..)⟩
  refine ⟨rfl, rfl, ?_, ?_, ?_⟩ <;> simp only [mergeRecord, State.coreOf_updCoreOf_same]

theorem mergeElem_frame {x : State × EInst × VRes} (h : x.1.guard.armed = []) (q c n r : Nat) (eng : VEng) (b : Nat × Nat) :
    GroupFrame q c x (mergeElem q c n r eng x b) := by
  simp only [mergeElem]
  split
  · have ha := vread_frame h q c x.2.1 0 (r * runLen x.2.1 + b.2) (fFmtS n)
    exact ⟨(ha.trans (vread_frame (ha.quiet h) ..)).vecFrame, emitRes_frame ..⟩
  · exact .refl q c x

theorem mergeGroup_frame {s : State} (h : s.guard.armed = []) (q c : Nat) (i : EInst) (v : VRes) (r gi : Nat) :
    GroupFrame q c (s, i, v) (mergeGroup s q c i v r gi) := by
  have hrecord : GroupFrame q c (s, i, v) (if gi = 0 then mergeRecord s q c i v r else (s, i, v)) := by
    split
    · exact mergeRecord_keeps h ..
    · exact .refl q c _
  have hgroup : mergeGroup s q c i v r gi = (groupLanes (if gi = 0 then mergeRecord s q c i v r else (s, i, v)).2.1 gi).foldl
      (mergeElem q c i.word.toNat r ((if gi = 0 then mergeRecord s q c i v r else (s, i, v)).1.coreOf q c).veng)
      (if gi = 0 then mergeRecord s q c i v r else (s, i, v)) := rfl
  rw [hgroup]
  exact hrecord.trans (GroupFrame.foldl (fun x b hx => mergeElem_frame hx ..) _ (hrecord.state.quiet h))

theorem vectorGroup_frame {s : State} (h : s.guard.armed = []) (q c : Nat) (i : EInst) :
    GroupFrame q c (s, i, { id := i.id }) (vectorGroup s q c i) := by
  simp only [vectorGroup]
  split
  · exact reduceGroup_frame h ..
  · exact reduceGroup_frame h ..
  · exact mxqGroup_frame h ..
  · exact mergeGroup_frame h ..
  · exact randGroup_frame ..
  · refine GroupFrame.foldl (fun x b hx => ?_) _ h
    split
    · exact elementwise_frame hx ..
    · exact .refl q c x

/-! ### The commands of the vector engine (R126, R180) -/

theorem vectorInstrStart_starts {s : State} {q : Cl} {c : Core} {i : EInst} (hclock : islandStopped s q.val = false)
    (hi : (s.coreOf q.val c.val).vq.find? (fun i => !i.started) = some i) (hscore : scoreOk (s.coreOf q.val c.val) i = true)
    (hfed : ∀ j ∈ (s.coreOf q.val c.val).vq, j.started = true → vecFed j = true) :
    execVectorInstrStart q c s = .next (s.putInst q.val c.val .vq { i with started := true }) := by
  have hall : ((s.coreOf q.val c.val).vq.filter (·.started)).all vecFed = true :=
    List.all_eq_true.2 fun j hj => hfed j (List.mem_filter.1 hj).1 (List.mem_filter.1 hj).2
  simp only [execVectorInstrStart, onClock_runs hclock, hi, hscore, hall, Bool.and_self, if_true]

/-- The instruction after one more of its groups. -/
def groupTaken (i : EInst) : EInst :=
  let i := { i with next := i.next + 1 }
  { i with readsOut := i.readsOut || vecFed i }

/-- A group of an instruction, taken: its results wait, and the instruction counts it. -/
def groupAdded (q c : Nat) (x : State × EInst × VRes) : State :=
  (x.1.putInst q c .vq (groupTaken x.2.1)).updCoreOf q c fun k =>
    { k with veng := { k.veng with out := k.veng.out ++ [x.2.2] } }

theorem execVectorGroup_eq {s : State} {q : Cl} {c : Core} {i : EInst} (hclock : islandStopped s q.val = false)
    (hi : (s.coreOf q.val c.val).vq.find? (fun i => i.started && !vecFed i) = some i) :
    execVectorGroup q c s = .next (groupAdded q.val c.val (vectorGroup s q.val c.val i)) := by
  simp only [execVectorGroup, onClock_runs hclock, hi]
  rfl

theorem coreOf_groupAdded (q c : Nat) (x : State × EInst × VRes) : (groupAdded q c x).coreOf q c
    = { Machine.putInst (x.1.coreOf q c) .vq (groupTaken x.2.1) with
        veng := { (x.1.coreOf q c).veng with out := (x.1.coreOf q c).veng.out ++ [x.2.2] } } := by
  rw [groupAdded, State.coreOf_updCoreOf_same, State.coreOf_putInst]
  rfl

theorem vectorGroup_adds {s : State} {q : Cl} {c : Core} {i : EInst} (hclock : islandStopped s q.val = false)
    (hquiet : s.guard.armed = [])
    (hi : (s.coreOf q.val c.val).vq.find? (fun i => i.started && !vecFed i) = some i) :
    ∃ t v j, execVectorGroup q c s = .next t ∧ t.mem = s.mem ∧ (t.coreOf q.val c.val).pad = (s.coreOf q.val c.val).pad
      ∧ (t.coreOf q.val c.val).veng.out = (s.coreOf q.val c.val).veng.out ++ [v] ∧ v.id = i.id
      ∧ j ∈ (t.coreOf q.val c.val).vq ∧ j.id = i.id ∧ j.next = i.next + 1 := by
  obtain ⟨hstate, hemit⟩ := vectorGroup_frame hquiet q.val c.val i
  have hmem : i ∈ ((vectorGroup s q.val c.val i).1.coreOf q.val c.val).queue .vq := by
    have hin := List.mem_of_find?_eq_some hi
    rwa [← hstate.vq] at hin
  refine ⟨_, (vectorGroup s q.val c.val i).2.2, groupTaken (vectorGroup s q.val c.val i).2.1, execVectorGroup_eq hclock hi,
    hstate.mem, ?_, ?_, hemit.res, ?_, hemit.id, congrArg (· + 1) hemit.next⟩
  · rw [coreOf_groupAdded]
    exact (putInst_pad ..).trans hstate.pad
  · rw [coreOf_groupAdded, hstate.out]
  · rw [coreOf_groupAdded]
    exact mem_queue_putInst hmem hemit.id.symm

/-- The results of group `v`, once it is off the list of those that wait. -/
def resultsWritten (s : State) (q c : Nat) (v : VRes) (rest : List VRes) (i : EInst) : State :=
  let x := v.writes.foldl (fun (s, i) (a, b, st) => writeElem s q c .vq i (sgn 64 a) b st) (s, i)
  if vecFed x.2 && !rest.any (fun r => r.id == x.2.id) then x.1.putInst q c .vq { x.2 with writesOut := true } else x.1

theorem resultsWritten_frame {s : State} (h : s.guard.armed = []) (q c : Nat) (v : VRes) (i : EInst) :
    PieceFrame q c (s, i) (v.writes.foldl (fun (s, i) (a, b, st) => writeElem s q c .vq i (sgn 64 a) b st) (s, i)) :=
  PieceFrame.foldl (fun _ _ hx => writeElem_pieceFrame hx ..) _ h

theorem resultsWritten_keeps {s : State} (h : s.guard.armed = []) (q c : Nat) (v : VRes) (rest : List VRes) (i : EInst) :
    (resultsWritten s q c v rest i).mem = s.mem
      ∧ ((resultsWritten s q c v rest i).coreOf q c).veng = (s.coreOf q c).veng := by
  have hframe := resultsWritten_frame h q c v i
  simp only [resultsWritten]
  split
  · refine ⟨hframe.mem, ?_⟩
    rw [State.coreOf_putInst, putInst, CoreSt.setQueue_veng]
    exact hframe.veng
  · exact ⟨hframe.mem, hframe.veng⟩

/-- The writes of an instruction are released with its last group. -/
theorem resultsWritten_releases {s : State} (h : s.guard.armed = []) {q c : Nat} {v : VRes} {rest : List VRes} {i : EInst}
    (hi : i ∈ (s.coreOf q c).vq) (hfed : vecFed i = true) (hlast : ∀ x ∈ rest, x.id ≠ i.id) :
    ∃ j ∈ ((resultsWritten s q c v rest i).coreOf q c).vq, j.id = i.id ∧ j.writesOut = true := by
  have hframe := resultsWritten_frame h q c v i
  simp only [resultsWritten]
  generalize v.writes.foldl (fun (s, i) (a, b, st) => writeElem s q c .vq i (sgn 64 a) b st) (s, i) = x at hframe
  have hid : x.2.id = i.id := by rw [hframe.inst]
  have hfed' : vecFed x.2 = true := by
    rw [hframe.inst]
    exact hfed
  have hnone : (rest.any fun r => r.id == x.2.id) = false := by
    rw [hid]
    exact List.any_eq_false.2 fun r hr => by simpa using hlast r hr
  have hnum : i.id ∈ ((x.1.coreOf q c).queue .vq).map (·.id) := by
    rw [hframe.ids .vq]
    exact List.mem_map_of_mem hi
  obtain ⟨j, hj, hjid⟩ := List.mem_map.1 hnum
  rw [hfed', hnone]
  refine ⟨{ x.2 with writesOut := true }, ?_, hid, rfl⟩
  rw [Bool.not_false, Bool.and_self, if_pos rfl, State.coreOf_putInst]
  exact mem_queue_putInst hj (hjid.trans hid.symm)

theorem execVectorResultWrite_eq {s : State} {q : Cl} {c : Core} {v : VRes} {rest : List VRes}
    (hclock : islandStopped s q.val = false) (hout : (s.coreOf q.val c.val).veng.out = v :: rest) :
    execVectorResultWrite q c s = .next (
      let u := s.updCoreOf q.val c.val fun k => { k with veng := { k.veng with out := rest } }
      match (s.coreOf q.val c.val).vq.find? (fun i => i.id == v.id) with
      | none => u
      | some i => resultsWritten u q.val c.val v rest i) := by
  simp only [execVectorResultWrite, onClock_runs hclock, hout]
  rfl

theorem vectorResultWrite_writes {s : State} {q : Cl} {c : Core} {v : VRes} {rest : List VRes} {i : EInst}
    (hclock : islandStopped s q.val = false) (hquiet : s.guard.armed = [])
    (hout : (s.coreOf q.val c.val).veng.out = v :: rest) :
    ∃ t, execVectorResultWrite q c s = .next t ∧ t.mem = s.mem ∧ (t.coreOf q.val c.val).veng.out = rest
      ∧ ((s.coreOf q.val c.val).vq.find? (fun i => i.id == v.id) = some i → vecFed i = true → (∀ x ∈ rest, x.id ≠ i.id) →
          ∃ j ∈ (t.coreOf q.val c.val).vq, j.id = i.id ∧ j.writesOut = true) := by
  have hexec := execVectorResultWrite_eq hclock hout
  have hcore : (s.updCoreOf q.val c.val fun k => { k with veng := { k.veng with out := rest } }).coreOf q.val c.val
      = { s.coreOf q.val c.val with veng := { (s.coreOf q.val c.val).veng with out := rest } } := State.coreOf_updCoreOf_same ..
  have hmem : (s.updCoreOf q.val c.val fun k => { k with veng := { k.veng with out := rest } }).mem = s.mem := rfl
  have harmed : (s.updCoreOf q.val c.val fun k => { k with veng := { k.veng with out := rest } }).guard.armed = [] := hquiet
  simp only at hexec
  generalize (s.updCoreOf q.val c.val fun k => { k with veng := { k.veng with out := rest } }) = u at hexec hcore hmem harmed
  refine ⟨_, hexec, ?_, ?_, fun hi hfed hlast => ?_⟩
  · split
    · exact hmem
    · exact (resultsWritten_keeps harmed ..).1.trans hmem
  · split
    · rw [hcore]
    · rw [(resultsWritten_keeps harmed ..).2, hcore]
  · rw [hi]
    refine resultsWritten_releases harmed ?_ hfed hlast
    rw [hcore]
    exact List.mem_of_find?_eq_some hi

/-- Settles O19: the start, the group's work as its frame and one result added, and the writes of the oldest group. -/
theorem vectorEngineCommands : Obligations.VectorEngineCommands := by
  intro s q c i k hclock hquiet
  refine ⟨fun hi hscore hfed => ⟨_, vectorInstrStart_starts hclock hi hscore hfed, updCoreOf_only .., State.coreOf_putInst ..⟩,
    vectorGroup_adds hclock hquiet, fun v rest hout => vectorResultWrite_writes hclock hquiet hout⟩
end Sys2Proof.Machine

namespace Sys2Proof.Machine
open Sys2Proof

/-! ### Dockets that finish (R441–R443) -/

/-- A docket still running and unfinished in `u` ends there as it would at once. -/
theorem finishDocket_endsOf {s u : State} {r : Nat} {d : Docket} (status detail : Nat) (hs : (s.ring r).running = some d)
    (hrun : (u.ring r).running = some d) (hres : (u.ring r).result = none) :
    Ends s (finishDocket u r status detail) r status detail := by
  rw [Ends, finishDocket_result u r status detail d hrun hres]
  exact ⟨rfl, hrun.trans hs.symm⟩

theorem finishDocket_clu (s : State) (r status detail q : Nat) : (finishDocket s r status detail).clu q = s.clu q := rfl

theorem finishDocket_mem (s : State) (r status detail : Nat) : (finishDocket s r status detail).mem = s.mem := rfl

theorem finishDocket_cl (s : State) (r status detail : Nat) : (finishDocket s r status detail).cl = s.cl := rfl

/-- What has happened to a ring whose docket is finished is kept by a further finish. -/
theorem finishDocket_ring_done {s : State} {r : Nat} (p status detail : Nat) (h : (s.ring r).result.isSome = true) :
    (finishDocket s p status detail).ring r = s.ring r := by
  by_cases hp : r = p
  · subst hp
    exact finishDocket_late s r status detail h
  · exact finishDocket_other s r p status detail hp

theorem docketsStop_ring_done {s : State} {r : Nat} (job : Nat) (h : (s.ring r).result.isSome = true) :
    (docketsStop s job).ring r = s.ring r := by
  have hfold : ∀ (l : List (Nat × RingSt)) (t : State), (t.ring r).result.isSome = true →
      (l.foldl (stopDocketOf job) t).ring r = t.ring r := by
    intro l
    induction l with
    | nil => exact fun t _ => rfl
    | cons e l ih =>
      intro t ht
      have hone : (stopDocketOf job t e).ring r = t.ring r := by
        unfold stopDocketOf
        split
        · split
          · exact finishDocket_ring_done _ _ _ ht
          · rfl
        · rfl
      rw [List.foldl_cons, ih _ (by rw [hone]; exact ht), hone]
  exact hfold s.hif.ring s h

/-- The stop of a job leaves the ring of a finished docket as it is. -/
theorem jobStop_ring_done {s : State} {r : Nat} (w : Nat) (y : StopWhy) (h : (s.ring r).result.isSome = true) :
    (jobStop s w y).ring r = s.ring r := by
  by_cases hrun : (s.jobAt w).running = true
  · by_cases hnot : (s.jobAt w).stopping = true
    · rw [jobStop, hrun, hnot]
      rfl
    · obtain ⟨u, hkeeps, hstop⟩ := jobStop_starts y hrun (Bool.eq_false_iff.2 hnot)
      have hring : u.ring r = s.ring r := by
        rw [State.ring, hkeeps.hif, sendStops_eq]
        rfl
      rw [hstop, docketsStop_ring_done _ (by rw [hring]; exact h), hring]
  · rw [jobStop_idle s w y (Bool.eq_false_iff.2 hrun)]

theorem jobStop_ends {s t : State} {r status detail : Nat} (w : Nat) (y : StopWhy) (h : Ends s t r status detail) :
    Ends s (jobStop t w y) r status detail := by
  obtain ⟨hres, hrun⟩ := h
  rw [Ends, jobStop_ring_done w y (by rw [hres]; rfl)]
  exact ⟨hres, hrun⟩

/-- A running job is stopping once it has been told to stop. -/
theorem jobStop_stopping {s : State} {w : Nat} (y : StopWhy) (hrun : (s.jobAt w).running = true) :
    ((jobStop s w y).jobAt w).stopping = true := by
  by_cases hnot : (s.jobAt w).stopping = true
  · have hkeep : ∀ (j : Job), (recordWhy j y).stopping = j.stopping := by
      intro j
      cases hab : y.abort <;>
      simp [recordWhy, hab, apply_ite Job.stopping]
    have hstop : jobStop s w y = s.updJob w (recordWhy · y) := by
      simp only [jobStop, hrun, hnot, Bool.not_true, Bool.false_eq_true, if_false, if_true]
    rw [hstop, State.jobAt_updJob_same, hkeep, hnot]
  · rw [jobStop_jobAt y hrun (Bool.eq_false_iff.2 hnot), State.jobAt_updJob_same]

/-! ### `NOP`, and dockets of a job with no window (R447) -/

/-- A docket that runs performs its effect. -/
theorem next_dkDo {s : State} {r op : Nat} {d : Docket} {f : State → Docket → State} {t : State} (h : Runs s r op d)
    (ht : f s d = t) : (Host.Outcome.next (dkDo s r op f) : Ans) = .next t := by
  rw [dkDo_runs f h, ht]

/-- The same in the window of its job. -/
theorem next_dkInWindow {s : State} {r op w : Nat} {d : Docket} {f : State → Docket → Nat → State} {t : State}
    (h : Runs s r op d) (hwin : windowOf s (dkJob d) = some w) (ht : f s d w = t) :
    (Host.Outcome.next (dkInWindow s r op f) : Ans) = .next t := by
  rw [dkInWindow_some f h hwin, ht]

theorem nopDocket_ends {s : State} {r : Ring} {d : Docket} (h : Runs s r.val 0x00 d) :
    ∃ t, execNopDocket r s = .next t ∧ OnlyRing s t r.val ∧ Ends s t r.val stOk 0 :=
  ⟨_, next_dkDo h rfl, finishDocket_ends _ _ h⟩

/-- A docket of a job in no enabled window ends with `JOB`. -/
theorem dkInWindow_job {s : State} {r : Ring} {op : Nat} {d : Docket} (f : State → Docket → Nat → State)
    (h : Runs s r.val op d) (hwin : windowOf s (dkJob d) = none) :
    ∃ t, Host.Outcome.next (dkInWindow s r.val op f) = (.next t : Ans) ∧ OnlyRing s t r.val ∧ Ends s t r.val stJob 0 :=
  ⟨_, congrArg Host.Outcome.next (dkInWindow_none f h hwin), finishDocket_ends _ _ h⟩

theorem jobDockets_end {s : State} {r : Ring} {op : Nat} {c : Instr} {d : Docket}
    (hc : (op, c) ∈ [(0x01, Instr.writeDocket r [] true), (0x02, .readDocket r true), (0x10, .allocDocket r),
      (0x11, .freeDocket r)]) (h : Runs s r.val op d) (hwin : windowOf s (dkJob d) = none) :
    ∃ t, exec c s = .next t ∧ OnlyRing s t r.val ∧ Ends s t r.val stJob 0 := by
  simp only [List.mem_cons, Prod.mk.injEq, List.not_mem_nil, or_false] at hc
  rcases hc with ⟨rfl, rfl⟩ | ⟨rfl, rfl⟩ | ⟨rfl, rfl⟩ | ⟨rfl, rfl⟩
  · exact dkInWindow_job _ h hwin
  · exact dkInWindow_job _ h hwin
  · exact dkInWindow_job _ h hwin
  · exact dkInWindow_job _ h hwin

/-! ### `STREAM` (R117) -/

/-- The block that a `STREAM` brings. -/
def streamBlock (d : Docket) : Block :=
  ⟨d.seq, (List.range (dkF d 32 2)).map fun i => BitVec.ofNat 128 (dkF d (64 + 16 * i) 16)⟩

theorem streamDocket_none {s : State} {r : Ring} {d : Docket} (h : Runs s r.val 0x03 d) (hfed : fedCluster s r.val = none) :
    ∃ t, execStreamDocket r s = .next t ∧ OnlyRing s t r.val ∧ Ends s t r.val stJob 0 := by
  refine ⟨_, next_dkDo h ?_, finishDocket_ends _ _ h⟩
  simp only [hfed]

theorem streamDocket_waits {s : State} {r : Ring} {d : Docket} {q : Nat} (h : Runs s r.val 0x03 d)
    (hfed : fedCluster s r.val = some q) (hwait : 8 ≤ (s.clu q).blocks.length ∨ islandStopped s q = true) :
    execStreamDocket r s = .next s := by
  refine next_dkDo h ?_
  simp only [hfed]
  exact if_pos (by simpa using hwait)

theorem streamDocket_adds {s : State} {r : Ring} {d : Docket} {q : Nat} (h : Runs s r.val 0x03 d)
    (hfed : fedCluster s r.val = some q) (hroom : (s.clu q).blocks.length < 8) (hclock : islandStopped s q = false) :
    ∃ t, execStreamDocket r s = .next t ∧ Ends s t r.val stOk 0
      ∧ t.clu q = { s.clu q with blocks := (s.clu q).blocks ++ [streamBlock d] } ∧ (∀ p, p ≠ q → t.clu p = s.clu p)
      ∧ t.mem = s.mem := by
  obtain ⟨hrun, -, hres, -⟩ := id h
  refine ⟨finishDocket (s.updClu q fun k => { k with blocks := k.blocks ++ [streamBlock d] }) r.val stOk 0,
    next_dkDo h ?_, finishDocket_endsOf _ _ hrun hrun hres, ?_, fun p hp => ?_, rfl⟩
  · simp only [hfed]
    exact if_neg (by simp [hclock, hroom])
  · rw [finishDocket_clu, State.clu_updClu_same]
  · rw [finishDocket_clu, State.clu_updClu_other _ _ _ _ hp]

/-! ### `ALLOC`, `FREE` and `WINDOW` (R196, R447, R448) -/

/-- A run of writes of table entries, each of which meets `P`, leaves such entries there, and every other entry alone. -/
theorem foldl_entries {P : DWord → Prop} {f : State → Nat → State} (base : Nat)
    (hf : ∀ s i, ∃ e, P e ∧ (f s i).mem.table = Tbl.set 0 s.mem.table (base + i) e) (l : List Nat) (s : State) :
    (∀ i ∈ l, P (Tbl.get 0 (l.foldl f s).mem.table (base + i)))
    ∧ ∀ k, (∀ i ∈ l, k ≠ base + i) → Tbl.get 0 (l.foldl f s).mem.table k = Tbl.get 0 s.mem.table k := by
  induction l generalizing s with
  | nil => exact ⟨fun i hi => absurd hi List.not_mem_nil, fun k _ => rfl⟩
  | cons j l ih =>
    obtain ⟨e, he, htable⟩ := hf s j
    obtain ⟨hin, hout⟩ := ih (f s j)
    refine ⟨fun i hi => ?_, fun k hk => ?_⟩
    · by_cases hil : i ∈ l
      · exact hin i hil
      · obtain rfl : i = j := (List.mem_cons.1 hi).resolve_right hil
        rw [List.foldl_cons, hout (base + i) fun m hm => fun heq => hil (by rwa [Nat.add_left_cancel heq]), htable, Tbl.get_set_same]
        exact he
    · rw [List.foldl_cons, hout k fun i hi => hk i (List.mem_cons_of_mem _ hi), htable,
        Tbl.get_set_other _ _ _ _ _ (hk j (List.mem_cons_self ..))]

/-- A write of table entries leaves the clusters, the host interface and the bytes of both tiers alone. -/
structure EntryFrame (s t : State) : Prop where
  cl : t.cl = s.cl
  hif : t.hif = s.hif
  nm : t.mem.nm = s.mem.nm
  hbm : t.mem.hbm = s.mem.hbm

theorem EntryFrame.refl (s : State) : EntryFrame s s := ⟨rfl, rfl, rfl, rfl⟩
theorem EntryFrame.trans {s t u : State} (h : EntryFrame s t) (k : EntryFrame t u) : EntryFrame s u :=
  ⟨k.cl.trans h.cl, k.hif.trans h.hif, k.nm.trans h.nm, k.hbm.trans h.hbm⟩
theorem EntryFrame.foldl {β : Type} {f : State → β → State} (h : ∀ s b, EntryFrame s (f s b)) (l : List β) (s : State) :
    EntryFrame s (l.foldl f s) := by
  induction l generalizing s with
  | nil => exact .refl s
  | cons b l ih => exact (h s b).trans (ih _)

theorem setEntry_table (s : State) (win v : Nat) (e : DWord) :
    (setEntry s win v e).mem.table = Tbl.set 0 s.mem.table (win * 2 ^ 20 + v) e := by
  simp only [setEntry, raisePeak]
  split
  · split
    · rfl
    · rfl
  · rfl

theorem setEntry_entryFrame (s : State) (win v : Nat) (e : DWord) : EntryFrame s (setEntry s win v e) := by
  simp only [setEntry, raisePeak]
  split
  · split
    · exact ⟨rfl, rfl, rfl, rfl⟩
    · exact ⟨rfl, rfl, rfl, rfl⟩
  · exact ⟨rfl, rfl, rfl, rfl⟩

theorem mapOne_entryFrame (s : State) (win v tier stack : Nat) (w c : Bool) (acct : Nat) :
    EntryFrame s (mapOne s win v tier stack w c acct) := by
  obtain ⟨hcl, hhif, hnm, hhbm⟩ := setEntry_entryFrame s win v (mkEntry w c (locOf tier stack)
    ((freeFrames s tier stack).getD (Config.freeNat s.free % (freeFrames s tier stack).length) 0) acct)
  exact ⟨hcl, hhif, hnm, hhbm⟩

theorem entV_mkEntry (w c : Bool) (loc frame acct : Nat) : entV (mkEntry w c loc frame acct) = true := by
  simp only [entV, mkEntry, bitAt, BitVec.toNat_ofNat, beq_iff_eq]
  omega

theorem mapOne_table (s : State) (win v tier stack : Nat) (w c : Bool) (acct : Nat) :
    ∃ e, entV e = true ∧ (mapOne s win v tier stack w c acct).mem.table = Tbl.set 0 s.mem.table (win * 2 ^ 20 + v) e := by
  refine ⟨mkEntry w c (locOf tier stack)
    ((freeFrames s tier stack).getD (Config.freeNat s.free % (freeFrames s tier stack).length) 0) acct, entV_mkEntry .., ?_⟩
  exact setEntry_table ..

/-- Entries outside the run are those of other windows or frames. -/
theorem tableEntry_foldl_other {P : DWord → Prop} {f : State → Nat → State} {w v n : Nat} {s : State}
    (hf : ∀ s i, ∃ e, P e ∧ (f s i).mem.table = Tbl.set 0 s.mem.table (w * 2 ^ 20 + v + i) e) (hn : v + n ≤ 2 ^ 20)
    (x : Fin 16) (y : Fin (2 ^ 20)) (h : x.val ≠ w ∨ y.val < v ∨ v + n ≤ y.val) :
    tableEntry ((List.range n).foldl f s) x.val y.val = tableEntry s x.val y.val := by
  refine (foldl_entries _ hf (List.range n) s).2 _ fun i hi => ?_
  have := List.mem_range.1 hi
  have := y.isLt
  omega

/-- One frame of an `ALLOC` is mapped. -/
def allocFrame (d : Docket) (w : Nat) (s : State) (i : Nat) : State :=
  mapOne s w (dkF d 40 8 / 2 ^ 21 + i) (dkF d 32 1) (allocStack (dkF d 32 1) (dkF d 33 1) i) (bitAt (dkF d 34 1) 0)
    (bitAt (dkF d 34 1) 1) (dkF d 35 1)

theorem allocFrame_table (d : Docket) (w : Nat) (s : State) (i : Nat) :
    ∃ e, entV e = true ∧ (allocFrame d w s i).mem.table
      = Tbl.set 0 s.mem.table (w * 2 ^ 20 + dkF d 40 8 / 2 ^ 21 + i) e := by
  rw [Nat.add_assoc]
  exact mapOne_table ..

/-- An `ALLOC` whose range holds a mapped frame is rejected. -/
theorem allocDocket_refuses {s : State} {r : Ring} {d : Docket} {w : Nat} (h : Runs s r.val 0x10 d)
    (hwin : windowOf s (dkJob d) = some w)
    (hmapped : ∃ i < dkF d 36 4, entV (tableEntry s w (dkF d 40 8 / 2 ^ 21 + i)) = true) :
    ∃ t, execAllocDocket r s = .next t ∧ OnlyRing s t r.val ∧ Ends s t r.val stRefused 0 := by
  refine ⟨_, next_dkInWindow h hwin (if_pos ?_), finishDocket_ends _ _ h⟩
  simpa using hmapped

theorem not_any_mapped {s : State} {w v n : Nat} (h : ∀ i < n, entV (tableEntry s w (v + i)) = false) :
    ¬ ((List.range n).any fun i => entV (tableEntry s w (v + i))) = true := by
  simpa using h

/-- An `ALLOC` for which a stack has too few frames ends with `SHORT`, and maps none. -/
theorem allocDocket_short {s : State} {r : Ring} {d : Docket} {w : Nat} (h : Runs s r.val 0x10 d)
    (hwin : windowOf s (dkJob d) = some w)
    (hfree : ∀ i < dkF d 36 4, entV (tableEntry s w (dkF d 40 8 / 2 ^ 21 + i)) = false)
    (hshort : allocShort s (dkF d 32 1) (dkF d 33 1) (dkF d 36 4) ≠ []) :
    ∃ t x, execAllocDocket r s = .next t ∧ OnlyRing s t r.val ∧ Ends s t r.val stShort x := by
  obtain ⟨a, l, hal⟩ := List.exists_cons_of_ne_nil hshort
  have hexec : ∃ x, execAllocDocket r s = .next (finishDocket s r.val stShort x) := by
    simp only [execAllocDocket, dkInWindow_some _ h hwin, if_neg (not_any_mapped hfree), hal]
    exact ⟨_, rfl⟩
  obtain ⟨x, hexec⟩ := hexec
  exact ⟨_, x, hexec, finishDocket_ends _ _ h⟩

/-- A range that is free, of which the stacks have the frames, is mapped. -/
theorem allocDocket_maps {s : State} {r : Ring} {d : Docket} {w : Nat} (h : Runs s r.val 0x10 d)
    (hwin : windowOf s (dkJob d) = some w) (hn : dkF d 40 8 / 2 ^ 21 + dkF d 36 4 ≤ 2 ^ 20)
    (hfree : ∀ i < dkF d 36 4, entV (tableEntry s w (dkF d 40 8 / 2 ^ 21 + i)) = false)
    (hshort : allocShort s (dkF d 32 1) (dkF d 33 1) (dkF d 36 4) = []) :
    ∃ t, execAllocDocket r s = .next t ∧ Ends s t r.val stOk 0
      ∧ (∀ i < dkF d 36 4, entV (tableEntry t w (dkF d 40 8 / 2 ^ 21 + i)) = true)
      ∧ (∀ (x : Fin 16) (y : Fin (2 ^ 20)), x.val ≠ w ∨ y.val < dkF d 40 8 / 2 ^ 21 ∨ dkF d 40 8 / 2 ^ 21 + dkF d 36 4 ≤ y.val →
          tableEntry t x.val y.val = tableEntry s x.val y.val)
      ∧ t.mem.nm = s.mem.nm ∧ t.mem.hbm = s.mem.hbm ∧ t.cl = s.cl := by
  obtain ⟨hrun, -, hres, -⟩ := id h
  have hframe : EntryFrame s ((List.range (dkF d 36 4)).foldl (allocFrame d w) s) :=
    EntryFrame.foldl (fun _ _ => mapOne_entryFrame ..) _ s
  have hring : ((List.range (dkF d 36 4)).foldl (allocFrame d w) s).ring r.val = s.ring r.val := by
    rw [State.ring, hframe.hif]
    rfl
  refine ⟨finishDocket ((List.range (dkF d 36 4)).foldl (allocFrame d w) s) r.val stOk 0,
    next_dkInWindow h hwin ((if_neg (not_any_mapped hfree)).trans ?_),
    finishDocket_endsOf _ _ hrun (by rw [hring, hrun]) (by rw [hring, hres]), fun i hi => ?_,
    fun x y hxy => tableEntry_foldl_other (allocFrame_table d w) hn x y hxy, hframe.nm, hframe.hbm, hframe.cl⟩
  · simp only [hshort]
    rfl
  · have hmapped := (foldl_entries _ (allocFrame_table d w) (List.range (dkF d 36 4)) s).1 i (List.mem_range.2 hi)
    rwa [Nat.add_assoc] at hmapped

/-- One entry of a `FREE` is cleared. -/
theorem freeEntry_table (w v : Nat) (s : State) (i : Nat) :
    ∃ e : DWord, e = 0 ∧ (setEntry s w (v + i) 0).mem.table = Tbl.set 0 s.mem.table (w * 2 ^ 20 + v + i) e := by
  refine ⟨0, rfl, ?_⟩
  rw [Nat.add_assoc]
  exact setEntry_table ..

/-- Every translation cache is empty after the invalidation, and nothing but them has changed. -/
theorem dropXlat_empty (s : State) : (∀ e : Fin 8, ((dropXlat s).dieMem e.val).xlat = [])
    ∧ (dropXlat s).mem.table = s.mem.table ∧ EntryFrame s (dropXlat s) := by
  have hfold : ∀ (l : List Nat) (s : State), (∀ e, ((l.foldl (fun s d => s.updDieMem d fun m => { m with xlat := [] }) s).dieMem e).xlat
        = if e ∈ l then [] else (s.dieMem e).xlat)
      ∧ (l.foldl (fun s d => s.updDieMem d fun m => { m with xlat := [] }) s).mem.table = s.mem.table := by
    intro l
    induction l with
    | nil => exact fun s => ⟨fun e => rfl, rfl⟩
    | cons d l ih =>
      intro s
      obtain ⟨hdie, htable⟩ := ih (s.updDieMem d fun m => { m with xlat := [] })
      refine ⟨fun e => ?_, htable⟩
      rw [List.foldl_cons, hdie e]
      by_cases he : e = d
      · subst he
        simp
      · simp [he, State.dieMem_updDieMem_other _ _ _ _ he]
  obtain ⟨hdie, htable⟩ := hfold (List.range 8) s
  refine ⟨fun e => (hdie e.val).trans (if_pos (List.mem_range.2 e.isLt)), htable, ?_⟩
  refine EntryFrame.foldl (fun _ _ => ?_) _ s
  exact ⟨rfl, rfl, rfl, rfl⟩

theorem freeDocket_busy {s : State} {r : Ring} {d : Docket} {w : Nat} (h : Runs s r.val 0x11 d)
    (hwin : windowOf s (dkJob d) = some w) (hjob : (s.jobAt w).running = true) :
    ∃ t, execFreeDocket r s = .next t ∧ OnlyRing s t r.val ∧ Ends s t r.val stBusy 0 :=
  ⟨_, next_dkInWindow h hwin (if_pos hjob), finishDocket_ends _ _ h⟩

/-- A `FREE` clears every entry of its range, and the translation caches. -/
theorem freeDocket_clears {s : State} {r : Ring} {d : Docket} {w : Nat} (h : Runs s r.val 0x11 d)
    (hwin : windowOf s (dkJob d) = some w) (hjob : (s.jobAt w).running = false)
    (hn : dkF d 40 8 / 2 ^ 21 + dkF d 36 4 ≤ 2 ^ 20) :
    ∃ t, execFreeDocket r s = .next t ∧ Ends s t r.val stOk 0
      ∧ (∀ i < dkF d 36 4, tableEntry t w (dkF d 40 8 / 2 ^ 21 + i) = 0) ∧ (∀ e : Fin 8, (t.dieMem e.val).xlat = [])
      ∧ t.cl = s.cl
      ∧ ∀ (x : Fin 16) (y : Fin (2 ^ 20)), x.val ≠ w ∨ y.val < dkF d 40 8 / 2 ^ 21 ∨ dkF d 40 8 / 2 ^ 21 + dkF d 36 4 ≤ y.val →
          tableEntry t x.val y.val = tableEntry s x.val y.val := by
  obtain ⟨hrun, -, hres, -⟩ := id h
  have hrange := foldl_entries _ (freeEntry_table w (dkF d 40 8 / 2 ^ 21)) (List.range (dkF d 36 4)) s
  have hother := fun x y hxy => tableEntry_foldl_other (s := s) (freeEntry_table w (dkF d 40 8 / 2 ^ 21)) hn x y hxy
  have hfold : EntryFrame s ((List.range (dkF d 36 4)).foldl (fun s i => setEntry s w (dkF d 40 8 / 2 ^ 21 + i) 0) s) :=
    EntryFrame.foldl (fun _ _ => setEntry_entryFrame ..) _ s
  have hexec : execFreeDocket r s = .next (finishDocket (dropXlat
      ((List.range (dkF d 36 4)).foldl (fun s i => setEntry s w (dkF d 40 8 / 2 ^ 21 + i) 0) s)) r.val stOk 0) := by
    simp only [execFreeDocket, dkInWindow_some _ h hwin, hjob, Bool.false_eq_true, if_false]
  generalize (List.range (dkF d 36 4)).foldl (fun s i => setEntry s w (dkF d 40 8 / 2 ^ 21 + i) 0) s = u at hrange hother hfold hexec
  obtain ⟨hdie, htable, hdrop⟩ := dropXlat_empty u
  have hring : (dropXlat u).ring r.val = s.ring r.val := by
    rw [State.ring, (hfold.trans hdrop).hif]
    rfl
  have hentry : ∀ x y, tableEntry (finishDocket (dropXlat u) r.val stOk 0) x y = tableEntry u x y := by
    intro x y
    rw [tableEntry, tableEntry, finishDocket_mem, htable]
  refine ⟨_, hexec, finishDocket_endsOf _ _ hrun (by rw [hring, hrun]) (by rw [hring, hres]), fun i hi => ?_,
    fun e => ?_, ?_, fun x y hxy => (hentry _ _).trans (hother x y hxy)⟩
  · rw [hentry, tableEntry, ← Nat.add_assoc]
    exact hrange.1 i (List.mem_range.2 hi)
  · rw [State.dieMem, finishDocket_mem]
    exact hdie e
  · rw [finishDocket_cl, (hfold.trans hdrop).cl]

theorem windowDocket_busy {s : State} {r : Ring} {d : Docket} {w : Fin 16} (h : Runs s r.val 0x80 d)
    (hw : dkF d 32 1 = w.val) (hjob : (s.jobAt w.val).running = true) :
    ∃ t, execWindowDocket r s = .next t ∧ OnlyRing s t r.val ∧ Ends s t r.val stBusy 0 :=
  ⟨_, next_dkDo h (if_pos (by rw [hw]; exact hjob)), finishDocket_ends _ _ h⟩

/-- Another enabled window has the job. -/
def otherWindowHas (s : State) (w job : Nat) : Bool :=
  (List.range 16).any fun i => i != w && s.mem.twEn.getLsbD i && (Tbl.get 0 s.mem.twJob i).toNat == job

theorem windowDocket_refuses {s : State} {r : Ring} {d : Docket} {w : Fin 16} (h : Runs s r.val 0x80 d)
    (hw : dkF d 32 1 = w.val) (hjob : (s.jobAt w.val).running = false) (hen : dkF d 33 1 = 1)
    (hother : otherWindowHas s w.val (dkF d 34 2) = true) :
    ∃ t, execWindowDocket r s = .next t ∧ OnlyRing s t r.val ∧ Ends s t r.val stRefused 0 := by
  refine ⟨_, next_dkDo h ((if_neg ?_).trans (if_pos ⟨hen, ?_⟩)), finishDocket_ends _ _ h⟩
  · rw [hw, hjob]
    decide
  · rw [hw]
    exact hother

theorem leNat_lt (l : List Byte) : leNat l < 2 ^ (8 * l.length) := by
  induction l with
  | nil => exact Nat.one_pos
  | cons b l ih =>
    have hb := b.isLt
    rw [leNat, List.length_cons, Nat.mul_add, pow_add]
    omega

/-- A field of `n` bytes. -/
theorem dkF_lt (d : Docket) (i n : Nat) : dkF d i n < 2 ^ (8 * n) :=
  (leNat_lt _).trans_le (Nat.pow_le_pow_right Nat.two_pos (Nat.mul_le_mul_left 8 (List.length_take_le ..)))

/-- The table's registers after window `w` is bound to a job and enabled or disabled. -/
def windowBound (s : State) (w job : Nat) (en : Prop) [Decidable en] : State :=
  { s with mem := { s.mem with
      twEn := if en then s.mem.twEn ||| BitVec.ofNat 16 (2 ^ w) else s.mem.twEn &&& ~~~(BitVec.ofNat 16 (2 ^ w))
      twJob := Tbl.set 0 s.mem.twJob w (BitVec.ofNat 16 job) } }

theorem twEn_windowBound (s : State) (w : Fin 16) (job : Nat) (en : Prop) [Decidable en] :
    ((windowBound s w job en).mem.twEn.getLsbD w = true ↔ en)
    ∧ ∀ x, x ≠ w.val → (windowBound s w job en).mem.twEn.getLsbD x = s.mem.twEn.getLsbD x := by
  by_cases hen : en
  · simp only [windowBound, if_pos hen, BitVec.getLsbD_or, getLsbD_windowBit]
    simp +contextual [hen]
  · simp only [windowBound, if_neg hen, BitVec.getLsbD_and, BitVec.getLsbD_not, getLsbD_windowBit]
    refine ⟨by simp [hen], fun x hx => ?_⟩
    simpa [hx] using BitVec.lt_of_getLsbD

theorem windowDocket_binds {s : State} {r : Ring} {d : Docket} {w : Fin 16} (h : Runs s r.val 0x80 d)
    (hw : dkF d 32 1 = w.val) (hjob : (s.jobAt w.val).running = false)
    (hother : dkF d 33 1 = 1 → otherWindowHas s w.val (dkF d 34 2) = false) :
    ∃ t, execWindowDocket r s = .next t ∧ Ends s t r.val stOk 0 ∧ (Tbl.get 0 t.mem.twJob w.val).toNat = dkF d 34 2
      ∧ (t.mem.twEn.getLsbD w.val = true ↔ dkF d 33 1 = 1) ∧ t.mem.table = s.mem.table ∧ t.cl = s.cl
      ∧ ∀ x, x ≠ w.val → t.mem.twEn.getLsbD x = s.mem.twEn.getLsbD x ∧ Tbl.get 0 t.mem.twJob x = Tbl.get 0 s.mem.twJob x := by
  obtain ⟨hrun, -, hres, -⟩ := id h
  obtain ⟨hself, hrest⟩ := twEn_windowBound s w (dkF d 34 2) (dkF d 33 1 = 1)
  have hjobId : dkF d 34 2 < 2 ^ 16 := dkF_lt d 34 2
  refine ⟨finishDocket (windowBound s w.val (dkF d 34 2) (dkF d 33 1 = 1)) r.val stOk 0,
    next_dkDo h ((if_neg ?_).trans ((if_neg ?_).trans ?_)), finishDocket_endsOf _ _ hrun hrun hres, ?_, hself, rfl, rfl,
    fun x hx => ⟨hrest x hx, Tbl.get_set_other _ _ _ _ _ hx⟩⟩
  · rw [hw, hjob]
    decide
  · rintro ⟨hen, htaken⟩
    rw [hw] at htaken
    exact absurd htaken (Bool.eq_false_iff.1 (hother hen))
  · rw [hw]
    rfl
  · rw [finishDocket_mem, windowBound, Tbl.get_set_same, BitVec.toNat_ofNat, Nat.mod_eq_of_lt hjobId]
end Sys2Proof.Machine

namespace Sys2Proof.Machine
open Sys2Proof

/-! ### Sectors of a mapped range (R448) -/

/-- What translates an address is as it was, and no injection has come. -/
structure XlatFrame (s t : State) : Prop where
  cl : t.cl = s.cl
  hif : t.hif = s.hif
  guard : t.guard = s.guard
  table : t.mem.table = s.mem.table
  mappedOut : t.mem.mappedOut = s.mem.mappedOut
  shelf : ∀ d, (t.dieMem d).shelfWin = (s.dieMem d).shelfWin ∧ (t.dieMem d).shelfTw = (s.dieMem d).shelfTw

theorem XlatFrame.refl (s : State) : XlatFrame s s := ⟨rfl, rfl, rfl, rfl, rfl, fun _ => ⟨rfl, rfl⟩⟩
theorem XlatFrame.trans {s t u : State} (h : XlatFrame s t) (k : XlatFrame t u) : XlatFrame s u where
  cl := k.cl.trans h.cl
  hif := k.hif.trans h.hif
  guard := k.guard.trans h.guard
  table := k.table.trans h.table
  mappedOut := k.mappedOut.trans h.mappedOut
  shelf d := ⟨(k.shelf d).1.trans (h.shelf d).1, (k.shelf d).2.trans (h.shelf d).2⟩

theorem XlatFrame.xlate {s t : State} (h : XlatFrame s t) (win : Nat) (a : Int) (write : Bool) :
    xlate t win a write = xlate s win a write := by
  have hdirect : xlatDirect t win a = xlatDirect s win a := by
    simp only [xlatDirect, cluWin, clu_of_cl h.cl, shelfBytes, (h.shelf _).1, (h.shelf _).2]
    rfl
  have hentry : ∀ e, xlatEntry t e a.toNat write = xlatEntry s e a.toNat write := by
    intro e
    simp only [xlatEntry, entBad, groupOut, h.mappedOut]
    rfl
  rw [Machine.xlate, hdirect, hentry, tableEntry, h.table]
  rfl

theorem dramStore_xlatFrame (s : State) (hbm : Bool) (stack sec : Nat) (data : List Byte) (stain : Bool) :
    XlatFrame s (dramStore s hbm stack sec data stain) := by
  cases hbm
  · exact ⟨rfl, rfl, rfl, rfl, rfl, fun _ => ⟨rfl, rfl⟩⟩
  · exact ⟨rfl, rfl, rfl, rfl, rfl, fun _ => ⟨rfl, rfl⟩⟩

theorem updCached_xlatFrame (s : State) (hbm : Bool) (stack sec : Nat) (f : Cached → Cached) :
    XlatFrame s (updCached s hbm stack sec f) := by
  refine ⟨rfl, rfl, rfl, rfl, rfl, fun d => ?_⟩
  by_cases hd : d = if hbm then stack / 2 else stack
  · subst hd
    rw [updCached, State.dieMem_updDieMem_same]
    exact ⟨rfl, rfl⟩
  · rw [updCached, State.dieMem_updDieMem_other _ _ _ _ hd]
    exact ⟨rfl, rfl⟩

/-- A whole sector is written without a read of the old one. -/
theorem secWrite_whole_xlatFrame (s : State) (p : Place) (data : List Byte) (stain : Bool) :
    XlatFrame s (secWrite s p data wholeEn stain) := by
  have hdram : ∀ hbm stack sec, XlatFrame s (dramWrite s hbm stack sec data wholeEn stain [] .clean none) :=
    fun hbm stack sec => dramStore_xlatFrame s hbm stack sec data stain
  simp only [secWrite]
  split
  · split
    · exact updCached_xlatFrame ..
    · exact hdram ..
  · split
    · exact updCached_xlatFrame ..
    · exact hdram ..
  · exact ⟨rfl, rfl, rfl, rfl, rfl, fun _ => ⟨rfl, rfl⟩⟩
  · exact ⟨rfl, rfl, rfl, rfl, rfl, fun _ => ⟨rfl, rfl⟩⟩

/-- Each of `n` sectors from an address translates for a write. -/
def SectorsMapped (s : State) (win a n : Nat) : Prop := ∀ i < n, ∃ p c, xlate s win ((a + 32 * i : Nat) : Int) true = .ok p c

theorem SectorsMapped.first {s : State} {win a n : Nat} (h : SectorsMapped s win a (n + 1)) :
    ∃ p c, xlate s win a true = .ok p c := h 0 (Nat.succ_pos n)

theorem XlatFrame.sectorsMapped {s t : State} (h : XlatFrame s t) {win a n : Nat} (hm : SectorsMapped s win a (n + 1)) :
    SectorsMapped t win (a + 32) n := by
  intro i hi
  rw [h.xlate, show a + 32 + 32 * i = a + 32 * (i + 1) by omega]
  exact hm (i + 1) (by omega)

theorem moveIn_ok {s : State} {win a n : Nat} {p : Place} {c : Bool} (b : List Byte) (hq : s.guard.armed = [])
    (hp : xlate s win a true = .ok p c) :
    moveIn win (n + 1) s a b =
      let m := moveIn win n (secWrite s p (b.take 32) wholeEn false) (a + 32) (b.drop 32)
      (m.1, m.2.1 + 32, m.2.2) := by
  simp only [moveIn, hp, meetXlat_quiet hq]

theorem moveIn_mapped (win : Nat) : ∀ (n : Nat) (s : State) (a : Nat) (b : List Byte), s.guard.armed = [] →
    SectorsMapped s win a n → (moveIn win n s a b).2 = (32 * n, false) ∧ XlatFrame s (moveIn win n s a b).1
  | 0, s, _, _, _, _ => ⟨rfl, .refl s⟩
  | n + 1, s, a, b, hq, hm => by
    obtain ⟨p, c, hp⟩ := hm.first
    have hone := secWrite_whole_xlatFrame s p (b.take 32) false
    obtain ⟨hmoved, hrest⟩ := moveIn_mapped win n _ (a + 32) (b.drop 32) (by rw [hone.guard]; exact hq) (hone.sectorsMapped hm)
    rw [moveIn_ok b hq hp]
    exact ⟨by simp only [hmoved]; rfl, hone.trans hrest⟩

/-- An address of a cluster buffer translates to its sector (R194). -/
theorem xlate_buffer {s : State} {win q o a : Nat} {write : Bool} {p : Place} {c : Bool} (hq : q < 2560) (ho : o < 2 ^ 20)
    (ha : a = 2 ^ 51 + q * 2 ^ 20 + o) (hp : xlate s win a write = .ok p c) : p = .buf q (o / 32) := by
  have hdirect : xlatDirect s win a = some (if cluWin s q = some win then .ok (.buf q (o / 32)) false else .fault 5) := by
    rw [xlatDirect, if_neg (by omega)]
    dsimp only
    rw [Int.toNat_natCast, if_neg (by omega), if_pos (by omega), show (a - 2 ^ 51) / 2 ^ 20 = q by omega,
      show a % 2 ^ 20 = o by omega]
  rw [xlate, hdirect] at hp
  dsimp only at hp
  split at hp
  · exact ((Xlat.ok.injEq ..).mp hp).1.symm
  · exact nomatch hp

theorem bitAt_wholeEn {i : Nat} (hi : i < 32) : bitAt wholeEn i = true := by
  interval_cases i <;> rfl

/-- Sectors moved into a cluster buffer stand there in order, and no other byte of it changes. -/
theorem moveIn_buffer {win q : Nat} (hq : q < 2560) : ∀ {n o a : Nat} {s : State} (b : List Byte), s.guard.armed = [] →
    o % 32 = 0 → o + 32 * n ≤ 2 ^ 20 → a = 2 ^ 51 + q * 2 ^ 20 + o → SectorsMapped s win a n →
    (∀ i < 32 * n, Tbl.get 0 (moveIn win n s a b).1.mem.buf (q * 2 ^ 20 + o + i) = b.getD i 0)
    ∧ ∀ x, x < q * 2 ^ 20 + o ∨ q * 2 ^ 20 + o + 32 * n ≤ x →
        Tbl.get 0 (moveIn win n s a b).1.mem.buf x = Tbl.get 0 s.mem.buf x
  | 0, _, _, _, _, _, _, _, _, _ => ⟨fun i hi => absurd hi (by omega), fun _ _ => rfl⟩
  | n + 1, o, a, s, b, hquiet, halign, hfit, ha, hm => by
    obtain ⟨p, c, hp⟩ := hm.first
    obtain rfl := xlate_buffer hq (by omega) ha hp
    have hone := secWrite_whole_xlatFrame s (.buf q (o / 32)) (b.take 32) false
    have hsec : o / 32 * 32 = o := by omega
    have hsame := fun i hi => secWrite_buf_same s q (o / 32) (b.take 32) wholeEn false none i hi (bitAt_wholeEn hi)
    have hother := secWrite_buf_other s q (o / 32) (b.take 32) wholeEn false none
    rw [hsec] at hsame hother
    obtain ⟨hin, hout⟩ := moveIn_buffer hq (o := o + 32) (a := a + 32) (b.drop 32) (by rw [hone.guard]; exact hquiet)
      (by omega) (by omega) (by omega) (hone.sectorsMapped hm)
    rw [moveIn_ok b hquiet hp]
    generalize secWrite s (.buf q (o / 32)) (b.take 32) wholeEn false = u at hsame hother hin hout ⊢
    refine ⟨fun i hi => ?_, fun x hx => (hout x (hx.imp (by omega) (by omega))).trans (hother x (hx.imp_right (by omega)))⟩
    by_cases hfirst : i < 32
    · rw [hout _ (by omega), hsame i hfirst, byteAt, List.getD_eq_getElem?_getD, List.getElem?_take_of_lt hfirst, List.getD_eq_getElem?_getD]
    · have hi' := hin (i - 32) (by omega)
      rw [show q * 2 ^ 20 + (o + 32) + (i - 32) = q * 2 ^ 20 + o + i by omega] at hi'
      rw [List.getD_eq_getElem?_getD, List.getElem?_drop, show 32 + (i - 32) = i by omega, ← List.getD_eq_getElem?_getD] at hi'
      exact hi'

/-! ### `WRITE` (R204, R448) -/

theorem xlateBy_host (s : State) (win : Nat) (a : Int) (write : Bool) : xlateBy s hostSrc win a write = xlate s win a write := by
  have hdie : cacheDie hostSrc = none := by decide
  simp only [xlateBy, entryBy, hdie, Option.bind_none, xlate]

theorem sectorsMapped_of_mapped {s : State} {win a n : Nat} (ha : a % 32 = 0) (h : Mapped s hostSrc win a n true) :
    SectorsMapped s win a (n / 32) := by
  intro i hi
  obtain ⟨p, c, hp⟩ := h.2 (32 * i) (by omega)
  rw [xlateBy_host, show (a + 32 * i) / 32 * 32 = a + 32 * i by omega] at hp
  exact ⟨p, c, hp⟩

/-- What a `WRITE` docket does with what its transfer moved. -/
def writeMoved (r : Ring) (d : Docket) (w old : Nat) (hostOk : Bool) (m : State × Nat × Bool) : State :=
  let now := old + m.2.1
  let s := m.1.updRing r.val fun g => { g with moved := now }
  if m.2.2 then jobStop (finishDocket s r.val stFault now) w { cause := 4, cls := evXlatFault }
  else if now = dkF d 56 8 then finishDocket s r.val stOk now
  else if !hostOk then finishDocket s r.val stFault now
  else s

/-- All the bytes of a `WRITE` docket come at once. -/
theorem execWriteDocket_all {s : State} {r : Ring} {d : Docket} {w : Nat} {data : List Byte} (h : Runs s r.val 0x01 d)
    (hwin : windowOf s (dkJob d) = some w) (hup : pcieUp s = true) (hmoved : (s.ring r.val).moved = 0)
    (hlen : dkF d 56 8 = data.length) :
    execWriteDocket r data true s
      = .next (writeMoved r d w 0 true (moveIn w (data.length / 32) s (dkF d 48 8) data)) := by
  refine next_dkInWindow h hwin ?_
  simp only [hup, hmoved, hlen, Bool.not_true, Bool.false_eq_true, if_false, Nat.sub_zero, min_self, Nat.add_zero, writeMoved]

/-- The ring of a docket still runs it after its count of moved bytes is set. -/
theorem updRing_moved_runs {s t : State} {r op n : Nat} {d : Docket} (h : Runs s r op d) (ht : t.hif = s.hif) :
    ((t.updRing r fun g => { g with moved := n }).ring r).running = some d
    ∧ ((t.updRing r fun g => { g with moved := n }).ring r).result = none := by
  obtain ⟨hrun, -, hres, -⟩ := h
  rw [State.ring_updRing_same, State.ring, ht]
  exact ⟨hrun, hres⟩

theorem writeDocket_done {s : State} {r : Ring} {d : Docket} {w : Nat} {data : List Byte} (h : Runs s r.val 0x01 d)
    (hlen : dkF d 56 8 = data.length) (halign : data.length % 32 = 0) {t : State}
    (hframe : XlatFrame s t) :
    ∃ u, writeMoved r d w 0 true (t, 32 * (data.length / 32), false) = u ∧ Ends s u r.val stOk data.length
      ∧ u.cl = s.cl ∧ u.mem = t.mem := by
  have hall : 0 + 32 * (data.length / 32) = data.length := by omega
  obtain ⟨hrun, hres⟩ := updRing_moved_runs (n := data.length) h hframe.hif
  refine ⟨finishDocket (t.updRing r.val fun g => { g with moved := data.length }) r.val stOk data.length, ?_,
    finishDocket_endsOf _ _ h.1 hrun hres, hframe.cl, rfl⟩
  simp only [writeMoved, hall, hlen, Bool.false_eq_true, if_false, if_true]

theorem writeDocket_mapped {s : State} {r : Ring} {d : Docket} {w : Nat} {data : List Byte} (h : Runs s r.val 0x01 d)
    (hwin : windowOf s (dkJob d) = some w) (hup : pcieUp s = true) (hmoved : (s.ring r.val).moved = 0)
    (hlen : dkF d 56 8 = data.length) (halign : data.length % 32 = 0) (ha : dkF d 48 8 % 32 = 0)
    (hm : Mapped s hostSrc w (dkF d 48 8) data.length true) :
    ∃ t, execWriteDocket r data true s = .next t ∧ Ends s t r.val stOk data.length ∧ t.cl = s.cl ∧ t.mem.table = s.mem.table
      ∧ ∀ q o, dkF d 48 8 = 2 ^ 51 + q * 2 ^ 20 + o → q < 2560 → o + data.length ≤ 2 ^ 20 →
          (∀ i, i < data.length → Tbl.get 0 t.mem.buf (q * 2 ^ 20 + o + i) = data.getD i 0)
          ∧ ∀ x, x < q * 2 ^ 20 + o ∨ q * 2 ^ 20 + o + data.length ≤ x → Tbl.get 0 t.mem.buf x = Tbl.get 0 s.mem.buf x := by
  have hsec := sectorsMapped_of_mapped ha hm
  obtain ⟨hcount, hframe⟩ := moveIn_mapped w (data.length / 32) s (dkF d 48 8) data hm.1 hsec
  have hbuffer := fun q o => moveIn_buffer (win := w) (q := q) (n := data.length / 32) (o := o) (a := dkF d 48 8) (s := s) (b := data)
  have hexec := execWriteDocket_all h hwin hup hmoved hlen
  generalize moveIn w (data.length / 32) s (dkF d 48 8) data = m at hcount hframe hexec hbuffer
  obtain ⟨t, c⟩ := m
  obtain rfl : c = (32 * (data.length / 32), false) := hcount
  obtain ⟨u, hu, hends, hcl, hmem⟩ := writeDocket_done (w := w) h hlen halign hframe
  refine ⟨u, by rw [hexec, hu], hends, hcl, by rw [hmem, hframe.table], fun q o hqo hq hfit => ?_⟩
  rw [hmem]
  have hlen32 : 32 * (data.length / 32) = data.length := by omega
  obtain ⟨hin, hout⟩ := hbuffer q o hq hm.1 (by omega) (by rw [hlen32]; exact hfit) hqo hsec
  rw [hlen32] at hin hout
  exact ⟨hin, hout⟩

theorem moveIn_fault {s : State} {win a k : Nat} (n : Nat) (b : List Byte) (h : xlate s win a true = .fault k) :
    ∃ t, moveIn win (n + 1) s a b = (t, 0, true) ∧ 0x20 ∈ t.irq.latch := by
  have hfault : ∀ (t : State) (k : Nat) (inj : Bool), 0x20 ∈ (xlatFault t hostSrc win a k true true inj).irq.latch :=
    fun t k inj => by
      simp only [xlatFault]
      exact raise_latch _ _ rfl (show evXlatFault ≠ evGctStep by decide)
  cases hinj : takeInject s evXlatFault hostSrc win with
  | none => exact ⟨_, by simp only [moveIn, meetXlat, hinj, h], hfault s k false⟩
  | some x => exact ⟨_, by simp only [moveIn, meetXlat, hinj], hfault x.2.useFree (1 + Config.freeNat s.free % 5) true⟩

theorem jobAt_of_hif {s t : State} (h : t.hif = s.hif) (w : Nat) : t.jobAt w = s.jobAt w := by
  rw [State.jobAt, h, State.jobAt]

theorem writeDocket_faults {s : State} {r : Ring} {d : Docket} {w k : Nat} {data : List Byte} (h : Runs s r.val 0x01 d)
    (hwin : windowOf s (dkJob d) = some w) (hup : pcieUp s = true) (hmoved : (s.ring r.val).moved = 0)
    (hlen : dkF d 56 8 = data.length) (halign : data.length % 32 = 0) (hpos : 0 < data.length)
    (hk : xlate s w (dkF d 48 8 : Nat) true = .fault k) :
    ∃ t, execWriteDocket r data true s = .next t ∧ Ends s t r.val stFault 0 ∧ 0x20 ∈ t.irq.latch
      ∧ ((s.jobAt w).running = true → (t.jobAt w).stopping = true) := by
  obtain ⟨n, hn⟩ : ∃ n, data.length / 32 = n + 1 := ⟨data.length / 32 - 1, by omega⟩
  have hexec := execWriteDocket_all h hwin hup hmoved hlen
  have hframe := moveIn_frame w (n + 1) s (dkF d 48 8) data
  obtain ⟨t, hmove, hlatch⟩ := moveIn_fault n data hk
  rw [hmove] at hframe
  rw [hn, hmove] at hexec
  obtain ⟨hrun, hres⟩ := updRing_moved_runs (n := 0) h hframe.hif
  have hends : Ends s (finishDocket (t.updRing r.val fun g => { g with moved := 0 }) r.val stFault 0) r.val stFault 0 :=
    finishDocket_endsOf _ _ h.1 hrun hres
  refine ⟨_, hexec, jobStop_ends w _ hends, (jobStop_grows _ w _).mem _ hlatch, fun hjob => jobStop_stopping _ ?_⟩
  exact (congrArg Job.running (jobAt_of_hif hframe.hif w)).trans hjob

/-! ### `READ` (R448) -/

theorem nmReadWith_guard (s : State) (stack sec : Nat) (upset : List (Nat × Byte)) (inj : Bool) :
    (nmReadWith s stack sec upset inj).1.guard = s.guard := by
  simp only [nmReadWith]
  split
  · rfl
  · exact (corrected_frame ..).guard
  · exact (raise_frame ..).guard

theorem hbmNote_guard (s : State) (stack sec : Nat) (rep : EccReport) : (hbmNote s stack sec rep).guard = s.guard := by
  unfold hbmNote
  split
  · rfl
  · rfl

theorem hbmReadWith_guard (s : State) (stack sec : Nat) (rep : EccReport) (inj : Bool) :
    (hbmReadWith s stack sec rep inj).1.guard = s.guard := by
  have hnote := hbmNote_guard s stack sec rep
  simp only [hbmReadWith]
  split
  · exact hnote
  · exact hnote
  · exact (corrected_frame ..).guard.trans hnote
  · exact (corrected_frame ..).guard.trans hnote
  · exact (raise_frame ..).guard.trans hnote

theorem winRead_stays_quiet {s : State} (h : s.guard.armed = []) (win : Nat) (p : Place) :
    (winRead s win p).1.guard.armed = [] := by
  have hdram : ∀ hbm stack sec, (dramRead s hbm stack sec [] .clean none).1.guard.armed = [] := by
    intro hbm stack sec
    rw [dramRead_quiet h]
    split
    · rw [hbmReadWith_guard, h]
    · rw [nmReadWith_guard, h]
  rw [winRead_quiet h]
  simp only [secRead]
  split
  · split
    · exact h
    · exact hdram ..
  · split
    · exact h
    · exact hdram ..
  · exact h
  · exact h

theorem moveOut_stays_quiet (win : Nat) : ∀ (n : Nat) (s : State) (a : Nat), s.guard.armed = [] →
    (moveOut win n s a).1.guard.armed = []
  | 0, _, _, h => h
  | n + 1, s, a, h => by
    simp only [moveOut, meetXlat_quiet h]
    split
    · next hk =>
      obtain ⟨rfl, -⟩ := (Prod.mk.injEq ..).mp hk
      exact (congrArg Guard.armed (raise_frame ..).guard).trans h
    · next hp =>
      obtain ⟨rfl, -⟩ := (Prod.mk.injEq ..).mp hp
      exact moveOut_stays_quiet win n _ _ (winRead_stays_quiet h _ _)

/-- The bytes that a `READ` docket found leave for the host. -/
def readSent (d : Docket) (s : State) (b : List Byte) : State :=
  if b = [] then s else s.emit (.hostWrite (BitVec.ofNat 64 (dkF d 40 8)) b)

theorem readSent_frame (d : Docket) (s : State) (b : List Byte) :
    (readSent d s b).hif = s.hif ∧ (readSent d s b).cl = s.cl ∧ (readSent d s b).guard = s.guard
    ∧ (b ≠ [] → Out.hostWrite (BitVec.ofNat 64 (dkF d 40 8)) b ∈ (readSent d s b).out) := by
  by_cases hb : b = []
  · rw [readSent, if_pos hb]
    exact ⟨rfl, rfl, rfl, fun h => absurd hb h⟩
  · rw [readSent, if_neg hb]
    exact ⟨rfl, rfl, rfl, fun _ => List.mem_append_right _ (List.mem_singleton_self _)⟩

/-- What a `READ` docket does with what its transfer found. -/
def readMoved (r : Ring) (d : Docket) (w : Nat) (m : State × List Byte × Bool × Bool) : State :=
  let s := readSent d m.1 m.2.1
  if m.2.2.2 then finishDocket s r.val stFault m.2.1.length
  else meetExit s w hostSrc m.2.2.1 (fun s => stainExit (finishDocket s r.val stStained m.2.1.length) w hostSrc (dkF d 48 8))
    fun s => finishDocket s r.val stOk m.2.1.length

theorem execReadDocket_moved {s : State} {r : Ring} {d : Docket} {w : Nat} (h : Runs s r.val 0x02 d)
    (hwin : windowOf s (dkJob d) = some w) (hup : pcieUp s = true) :
    execReadDocket r true s = .next (readMoved r d w (moveOut w (dkF d 56 8 / 32) s (dkF d 48 8))) := by
  refine next_dkInWindow h hwin ?_
  simp only [hup, Bool.not_true, Bool.false_eq_true, if_false, readMoved, readSent]

theorem stainExit_ends {s t : State} {r status detail : Nat} (w src a : Nat) (h : Ends s t r status detail) :
    Ends s (stainExit t w src a) r status detail := by
  refine jobStop_ends w _ ?_
  rw [Ends, State.ring, (raise_frame ..).hif]
  exact h

theorem stainExit_latch (s : State) (w src a : Nat) : 0x44 ∈ (stainExit s w src a).irq.latch :=
  (jobStop_grows ..).mem _ (raise_latch _ _ rfl (show evStainExit ≠ evGctStep by decide))

theorem stainExit_stopping {s : State} {w : Nat} (src a : Nat) (h : (s.jobAt w).running = true) :
    ((stainExit s w src a).jobAt w).stopping = true := by
  refine jobStop_stopping _ ?_
  rw [jobAt_of_hif (raise_frame ..).hif, h]

theorem stainExit_out (s : State) (w src a : Nat) : (stainExit s w src a).out = s.out :=
  (jobStop_frame ..).out.trans (raise_frame ..).out

theorem readDocket_reads {s : State} {r : Ring} {d : Docket} {w : Nat} (hquiet : s.guard.armed = [])
    (h : Runs s r.val 0x02 d) (hwin : windowOf s (dkJob d) = some w) (hup : pcieUp s = true) :
    let got := moveOut w (dkF d 56 8 / 32) s (dkF d 48 8)
    ∃ t, execReadDocket r true s = .next t ∧ (got.2.1 ≠ [] → Out.hostWrite (BitVec.ofNat 64 (dkF d 40 8)) got.2.1 ∈ t.out)
      ∧ (got.2.2.2 = true → Ends s t r.val stFault got.2.1.length)
      ∧ (got.2.2.2 = false → got.2.2.1 = false → Ends s t r.val stOk got.2.1.length ∧ t.cl = s.cl)
      ∧ (got.2.2.2 = false → got.2.2.1 = true → Ends s t r.val stStained got.2.1.length ∧ 0x44 ∈ t.irq.latch
          ∧ ((s.jobAt w).running = true → (t.jobAt w).stopping = true)) := by
  have hframe := moveOut_frame w (dkF d 56 8 / 32) s (dkF d 48 8)
  have hq := moveOut_stays_quiet w (dkF d 56 8 / 32) s (dkF d 48 8) hquiet
  have hexec := execReadDocket_moved h hwin hup
  intro got
  change MemFrame s got.1 at hframe
  change got.1.guard.armed = [] at hq
  change _ = Host.Outcome.next (readMoved r d w got) at hexec
  clear_value got
  obtain ⟨t, b, st, f⟩ := got
  obtain ⟨hhif, hcl, hguard, hsent⟩ := readSent_frame d t b
  have hring : (readSent d t b).ring r.val = s.ring r.val := by rw [State.ring, hhif, hframe.hif]; rfl
  have hjobs : (readSent d t b).jobAt w = s.jobAt w := by rw [State.jobAt, hhif, hframe.hif]; rfl
  obtain ⟨hrun, -, hres, -⟩ := h
  have hends : ∀ st n, Ends s (finishDocket (readSent d t b) r.val st n) r.val st n := fun st n =>
    finishDocket_endsOf st n hrun (by rw [hring, hrun]) (by rw [hring, hres])
  refine ⟨_, hexec, ?_⟩
  simp only [readMoved]
  generalize readSent d t b = u at hcl hguard hsent hjobs hends ⊢
  cases f with
  | true => exact ⟨hsent, fun _ => hends _ _, fun hf => (nomatch hf), fun hf => (nomatch hf)⟩
  | false =>
    rw [if_neg Bool.false_ne_true, meetExit, detect_quiet (by rw [hguard, hq])]
    cases st with
    | false => exact ⟨hsent, fun hf => (nomatch hf), fun _ _ => ⟨hends _ _, hcl.trans hframe.cl⟩, fun _ hst => (nomatch hst)⟩
    | true =>
      rw [if_pos rfl]
      refine ⟨(stainExit_out ..).symm ▸ hsent, fun hf => (nomatch hf), fun _ hst => (nomatch hst), fun _ _ =>
        ⟨stainExit_ends _ _ _ (hends _ _), stainExit_latch .., fun hjob => stainExit_stopping _ _ ?_⟩⟩
      exact (congrArg Job.running hjobs).trans hjob

/-- Settles O49: each docket by its cases. -/
theorem docketsOfMemory : Obligations.DocketsOfMemory := by
  intro s r d
  refine ⟨nopDocket_ends, fun op c hc h hwin => jobDockets_end hc h hwin, ?write, fun w hq h hwin hup =>
    readDocket_reads hq h hwin hup, ?stream, ?alloc, ?free, ?window⟩
  case write =>
    intro w data h hwin hup hmoved hlen halign ha
    exact ⟨writeDocket_mapped h hwin hup hmoved hlen halign ha, fun k hpos hk =>
      writeDocket_faults h hwin hup hmoved hlen halign hpos hk⟩
  case stream =>
    intro h
    exact ⟨streamDocket_none h, fun q hfed => ⟨streamDocket_waits h hfed, streamDocket_adds h hfed⟩⟩
  case alloc =>
    intro w h hwin n v tier hn
    exact ⟨allocDocket_refuses h hwin, fun hfree => ⟨allocDocket_short h hwin hfree, allocDocket_maps h hwin hn hfree⟩⟩
  case free =>
    intro w h hwin
    exact ⟨freeDocket_busy h hwin, freeDocket_clears h hwin⟩
  case window =>
    intro w h hw
    exact ⟨windowDocket_busy h hw, windowDocket_refuses h hw, windowDocket_binds h hw⟩
end Sys2Proof.Machine

namespace Sys2Proof.Machine
open Sys2Proof

/-! ### `LAUNCH`: the book that yields, and the clusters of the window (R406, R444, R445) -/

theorem setSteps_pwr (s : State) (l : List Nat) (f : Nat → Option Nat) : ∃ p, setSteps s l f = { s with pwr := p } := by
  induction l generalizing s with
  | nil => exact ⟨s.pwr, rfl⟩
  | cons i l ih =>
    obtain ⟨p, h⟩ := ih (s.updReg (i / 21) (i % 21) fun k => { k with step := f i })
    exact ⟨p, h⟩

/-- A book of which a region is launched on yields. -/
def launchYield (s : State) (d : Docket) : State :=
  if ((launchPlaces d).filterMap (clRegion s)).any s.pwr.bookGrant.contains then bookYield s else s

theorem launchYield_eq (s : State) (d : Docket) : ∃ g p, launchYield s d = { s with guard := g, pwr := p } := by
  unfold launchYield
  split
  · exact ⟨_, setSteps_pwr ..⟩
  · exact ⟨s.guard, s.pwr, rfl⟩

/-- The clusters that an earlier job left bound to window `w` are free of it. -/
def unbind (w : Nat) (l : List (Nat × Cluster)) (s : State) : State :=
  l.foldl (fun s e => if e.2.win.map (·.val) = some w then s.updClu e.1 fun k => { k with win := none } else s) s

theorem unbind_cons (w : Nat) (e : Nat × Cluster) (l : List (Nat × Cluster)) (s : State) :
    unbind w (e :: l) s
      = unbind w l (if e.2.win.map (·.val) = some w then s.updClu e.1 fun k => { k with win := none } else s) := rfl

theorem unbind_cl (w : Nat) (l : List (Nat × Cluster)) (s : State) : ∃ c, unbind w l s = { s with cl := c } := by
  induction l generalizing s with
  | nil => exact ⟨s.cl, rfl⟩
  | cons e l ih =>
    rw [unbind_cons]
    split
    · exact ih _
    · exact ih s

theorem unbind_mreg (w : Nat) (l : List (Nat × Cluster)) (s : State) (q : Nat) :
    ((unbind w l s).clu q).mreg = (s.clu q).mreg := by
  induction l generalizing s with
  | nil => rfl
  | cons e l ih =>
    rw [unbind_cons, ih]
    split
    · by_cases hq : q = e.1
      · rw [hq, State.clu_updClu_same]
      · rw [State.clu_updClu_other _ _ _ _ hq]
    · rfl

theorem unbind_other (w p : Nat) (l : List (Nat × Cluster)) (s : State)
    (h : ∀ e ∈ l, e.1 = p → e.2.win.map (·.val) ≠ some w) : (unbind w l s).clu p = s.clu p := by
  induction l generalizing s with
  | nil => rfl
  | cons e l ih =>
    rw [unbind_cons, ih _ fun x hx => h x (List.mem_cons_of_mem _ hx)]
    split
    · next hw =>
      exact State.clu_updClu_other _ _ _ _ fun hp => h e List.mem_cons_self hp.symm hw
    · rfl

/-- An entry of a rising table is what the table gives for its key. -/
theorem Tbl.get_of_mem {α : Type} (d : α) {t : Tbl α} (hrise : Tbl.rising t = true) {e : Nat × α} (he : e ∈ t) :
    Tbl.get d t e.1 = e.2 := by
  induction t with
  | nil => exact nomatch he
  | cons x t ih =>
    obtain ⟨j, v⟩ := x
    obtain ⟨hfirst, hrest⟩ := Tbl.rising_head j v t hrise
    rcases List.mem_cons.1 he with rfl | he
    · simp [Tbl.get]
    · have hlt := hfirst e he
      rw [← ih hrest he]
      simp [Tbl.get, Nat.ne_of_lt hlt]

/-- The clusters of the records are loaded. -/
def loadPlaces (d : Docket) (w : Nat) (l : List (Nat × Bool × Nat × Nat)) (s : State) : State :=
  l.foldl (fun s x =>
    match clOfId x.1 with
    | some q => s.updClu q fun k =>
        loadCluster k x.2.1 x.2.2.1 (BitVec.ofNat 64 (dkF d 72 8)) (dkF d 36 4) (launchArgs d) w
    | none => s) s

/-- One record. -/
def loadPlace (d : Docket) (w : Nat) (x : Nat × Bool × Nat × Nat) (s : State) : State :=
  match clOfId x.1 with
  | some q => s.updClu q fun k =>
      loadCluster k x.2.1 x.2.2.1 (BitVec.ofNat 64 (dkF d 72 8)) (dkF d 36 4) (launchArgs d) w
  | none => s

theorem loadPlaces_cons (d : Docket) (w : Nat) (x : Nat × Bool × Nat × Nat) (l : List (Nat × Bool × Nat × Nat)) (s : State) :
    loadPlaces d w (x :: l) s = loadPlaces d w l (loadPlace d w x s) := rfl

/-- A cluster loaded for the docket's job, its mask registers kept. -/
structure Loaded (d : Docket) (w : Nat) (old k : Cluster) : Prop where
  state : k.state = 1
  win : k.win = some (Fin.ofNat 16 w)
  waiting : k.waiting = true
  sreg : k.sreg = launchArgs d
  mreg : k.mreg = old.mreg

theorem loadPlace_clu {d : Docket} {w : Nat} {x : Nat × Bool × Nat × Nat} (s : State) (q : Nat) :
    (clOfId x.1 = some q → Loaded d w (s.clu q) ((loadPlace d w x s).clu q))
    ∧ (clOfId x.1 ≠ some q → (loadPlace d w x s).clu q = s.clu q) := by
  unfold loadPlace
  split
  · next p hp =>
    rw [hp]
    refine ⟨fun h => ?_, fun h => State.clu_updClu_other _ _ _ _ fun hq => h (by rw [hq])⟩
    obtain rfl := (Option.some.injEq ..).mp h
    rw [State.clu_updClu_same]
    exact ⟨rfl, rfl, rfl, rfl, rfl⟩
  · next hp =>
    rw [hp]
    exact ⟨fun h => (nomatch h), fun _ => rfl⟩

theorem loadPlaces_other (d : Docket) (w q : Nat) (l : List (Nat × Bool × Nat × Nat)) (s : State)
    (h : ∀ x ∈ l, clOfId x.1 ≠ some q) : (loadPlaces d w l s).clu q = s.clu q := by
  induction l generalizing s with
  | nil => rfl
  | cons x l ih =>
    rw [loadPlaces_cons, ih _ fun y hy => h y (List.mem_cons_of_mem _ hy),
      (loadPlace_clu (d := d) (w := w) s q).2 (h x List.mem_cons_self)]

theorem Loaded.loadPlaces {d : Docket} {w q : Nat} {old : Cluster} (l : List (Nat × Bool × Nat × Nat)) {s : State}
    (h : Loaded d w old (s.clu q)) : Loaded d w old ((loadPlaces d w l s).clu q) := by
  induction l generalizing s with
  | nil => exact h
  | cons x l ih =>
    rw [loadPlaces_cons]
    apply ih
    by_cases hx : clOfId x.1 = some q
    · obtain ⟨hstate, hwin, hwaiting, hsreg, hmreg⟩ := (loadPlace_clu (d := d) (w := w) s q).1 hx
      exact ⟨hstate, hwin, hwaiting, hsreg, hmreg.trans h.mreg⟩
    · rw [(loadPlace_clu (d := d) (w := w) s q).2 hx]
      exact h

theorem loadPlaces_loads (d : Docket) (w q : Nat) (l : List (Nat × Bool × Nat × Nat)) (s : State)
    (h : ∃ x ∈ l, clOfId x.1 = some q) : Loaded d w (s.clu q) ((loadPlaces d w l s).clu q) := by
  induction l generalizing s with
  | nil => exact nomatch h
  | cons x l ih =>
    rw [loadPlaces_cons]
    by_cases hx : clOfId x.1 = some q
    · exact ((loadPlace_clu (d := d) (w := w) s q).1 hx).loadPlaces l
    · rw [← (loadPlace_clu (d := d) (w := w) s q).2 hx]
      exact ih _ (by simpa [hx] using h)

theorem loadPlaces_cl (d : Docket) (w : Nat) (l : List (Nat × Bool × Nat × Nat)) (s : State) :
    ∃ c, loadPlaces d w l s = { s with cl := c } := by
  induction l generalizing s with
  | nil => exact ⟨s.cl, rfl⟩
  | cons x l ih =>
    rw [loadPlaces_cons, loadPlace]
    split
    · exact ih _
    · exact ih s

theorem mem_launchPlaces {d : Docket} {q : Nat} : q ∈ launchPlaces d ↔ ∃ x ∈ launchRecords d, clOfId x.1 = some q :=
  List.mem_filterMap

/-! ### `LAUNCH` (R304, R444, R445) -/

/-- The job is in its window, and what is kept of an earlier one is gone. -/
def launchJobIn (s : State) (r : Nat) (d : Docket) (w : Nat) : State :=
  let j := launchJob d r
  let bit := BitVec.ofNat 16 (2 ^ w)
  let s := s.updJob w fun _ => j
  { s with
    slc := { s.slc with role := Tbl.set 0 s.slc.role w (BitVec.ofNat 8 (dkF d 33 1)) }
    gct := { s.gct with det := if j.det then s.gct.det ||| bit else s.gct.det &&& ~~~bit
                        nondet := [1, 2, 3].foldl (fun t c => Tbl.set 0 t (w * 4 + c) 0) s.gct.nondet } }

/-- The press steps of a launch that a late switch has held wait. -/
def launchHeld (s : State) (j : Job) : State :=
  { s with slc := { s.slc with holdLaunch := false }
           press := { s.press with
             holdJobs := (s.press.holdJobs.filter (· != j.job)) ++ if s.slc.holdLaunch then [j.job] else []
             saved := if s.press.job = j.job then [] else s.press.saved } }

theorem launch_eq (s : State) (r : Nat) (d : Docket) (w : Nat) :
    launch s r d w =
      let y := launchYield s d
      let u := notMissed y r d
      let t := launchHeld (loadPlaces d w (launchRecords d) (launchJobIn (unbind w u.cl u) r d w)) (launchJob d r)
      if startsLate y r d then lateLaunch t w else t := by
  unfold launch launchYield
  generalize (if ((launchPlaces d).filterMap (clRegion s)).any s.pwr.bookGrant.contains then bookYield s else s) = y
  simp only
  generalize notMissed y r d = u
  rfl

theorem updJob_hif_of {s t : State} (h : t.hif = s.hif) (w : Nat) (f : Job → Job) :
    (t.updJob w f).hif = (s.updJob w f).hif := by
  simp only [State.updJob, h]

theorem notMissed_keeps (s : State) (r : Nat) (d : Docket) :
    (notMissed s r d).cl = s.cl ∧ (notMissed s r d).mem = s.mem ∧ (notMissed s r d).hif = s.hif := ⟨rfl, rfl, rfl⟩

theorem unbind_keeps (w : Nat) (l : List (Nat × Cluster)) (s : State) :
    (unbind w l s).mem = s.mem ∧ (unbind w l s).hif = s.hif := by
  obtain ⟨c, hc⟩ := unbind_cl w l s
  rw [hc]
  exact ⟨rfl, rfl⟩

theorem loadPlaces_keeps (d : Docket) (w : Nat) (l : List (Nat × Bool × Nat × Nat)) (s : State) :
    (loadPlaces d w l s).mem = s.mem ∧ (loadPlaces d w l s).hif = s.hif := by
  obtain ⟨c, hc⟩ := loadPlaces_cl d w l s
  rw [hc]
  exact ⟨rfl, rfl⟩

theorem launchJobIn_keeps (s : State) (r : Nat) (d : Docket) (w : Nat) : (launchJobIn s r d w).mem = s.mem
    ∧ (launchJobIn s r d w).cl = s.cl ∧ (launchJobIn s r d w).hif = (s.updJob w fun _ => launchJob d r).hif :=
  ⟨rfl, rfl, rfl⟩

theorem launchHeld_keeps (s : State) (j : Job) : (launchHeld s j).mem = s.mem ∧ (launchHeld s j).cl = s.cl
    ∧ (launchHeld s j).hif = s.hif := ⟨rfl, rfl, rfl⟩

theorem lateLaunch_keeps (s : State) (w : Nat) : (lateLaunch s w).mem = s.mem ∧ (lateLaunch s w).cl = s.cl
    ∧ (lateLaunch s w).hif = (s.updJob w fun j => { j with late := true }).hif := by
  have h := raise_frame { (s.updJob w fun j => { j with late := true }) with
    gct := { s.gct with late := s.gct.late ||| BitVec.ofNat 16 (2 ^ w) } }
  exact ⟨(h _).mem, (h _).cl, (h _).hif⟩

theorem launchYield_keeps (s : State) (r : Nat) (d : Docket) : (launchYield s d).cl = s.cl
    ∧ (launchYield s d).mem = s.mem ∧ (launchYield s d).hif = s.hif
    ∧ startsLate (launchYield s d) r d = startsLate s r d := by
  obtain ⟨g, p, h⟩ := launchYield_eq s d
  rw [h]
  exact ⟨rfl, rfl, rfl, rfl⟩

/-- The state of a launch just before its clusters are loaded. -/
def launchReady (s : State) (r : Nat) (d : Docket) (w : Nat) : State :=
  let u := notMissed (launchYield s d) r d
  launchJobIn (unbind w u.cl u) r d w

theorem launchReady_keeps (s : State) (r : Nat) (d : Docket) (w : Nat) : (launchReady s r d w).mem = s.mem
    ∧ (launchReady s r d w).cl = (unbind w s.cl (notMissed (launchYield s d) r d)).cl
    ∧ (launchReady s r d w).hif = (s.updJob w fun _ => launchJob d r).hif := by
  obtain ⟨ycl, ymem, yhif, -⟩ := launchYield_keeps s r d
  obtain ⟨ncl, nmem, nhif⟩ := notMissed_keeps (launchYield s d) r d
  obtain ⟨bmem, bhif⟩ := unbind_keeps w s.cl (notMissed (launchYield s d) r d)
  obtain ⟨hmem, hcl, hhif⟩ := launchJobIn_keeps (unbind w s.cl (notMissed (launchYield s d) r d)) r d w
  have hready : launchReady s r d w = launchJobIn (unbind w s.cl (notMissed (launchYield s d) r d)) r d w := by
    rw [launchReady, ncl, ycl]
  rw [hready]
  exact ⟨by rw [hmem, bmem, nmem, ymem], hcl, by rw [hhif]; exact updJob_hif_of (by rw [bhif, nhif, yhif]) _ _⟩

theorem launchReady_mreg (s : State) (r : Nat) (d : Docket) (w q : Nat) :
    ((launchReady s r d w).clu q).mreg = (s.clu q).mreg := by
  rw [clu_of_cl (launchReady_keeps s r d w).2.1, unbind_mreg, clu_of_cl (notMissed_keeps ..).1,
    clu_of_cl (launchYield_keeps s r d).1]

theorem launchReady_other {s : State} (r : Nat) (d : Docket) {w p : Nat} (hrise : Tbl.rising s.cl = true)
    (hp : (s.clu p).win.map (·.val) ≠ some w) : (launchReady s r d w).clu p = s.clu p := by
  rw [clu_of_cl (launchReady_keeps s r d w).2.1, unbind_other, clu_of_cl (notMissed_keeps ..).1,
    clu_of_cl (launchYield_keeps s r d).1]
  rintro e he rfl
  rwa [← Tbl.get_of_mem {} hrise he]

/-- A launch loads its clusters, and changes the host interface in the jobs alone. -/
theorem launch_keeps (s : State) (r : Nat) (d : Docket) (w : Nat) : (launch s r d w).mem = s.mem
    ∧ (launch s r d w).cl = (loadPlaces d w (launchRecords d) (launchReady s r d w)).cl
    ∧ (launch s r d w).hif.ring = s.hif.ring
    ∧ (launch s r d w).jobAt w = { launchJob d r with late := startsLate s r d } := by
  obtain ⟨rmem, -, rhif⟩ := launchReady_keeps s r d w
  obtain ⟨pmem, phif⟩ := loadPlaces_keeps d w (launchRecords d) (launchReady s r d w)
  have hlaunch : launch s r d w = if startsLate s r d then
      lateLaunch (launchHeld (loadPlaces d w (launchRecords d) (launchReady s r d w)) (launchJob d r)) w
      else launchHeld (loadPlaces d w (launchRecords d) (launchReady s r d w)) (launchJob d r) := by
    rw [← (launchYield_keeps s r d).2.2.2]
    exact launch_eq s r d w
  rw [hlaunch]
  generalize loadPlaces d w (launchRecords d) (launchReady s r d w) = t at pmem phif
  obtain ⟨hmem, hcl, hhif⟩ := launchHeld_keeps t (launchJob d r)
  have hall : (launchHeld t (launchJob d r)).hif = (s.updJob w fun _ => launchJob d r).hif := (hhif.trans phif).trans rhif
  have hring : (s.updJob w fun _ => launchJob d r).hif.ring = s.hif.ring := rfl
  have hjob : (launchHeld t (launchJob d r)).jobAt w = launchJob d r := by
    rw [jobAt_of_hif hall, State.jobAt_updJob_same]
  cases startsLate s r d with
  | false =>
    rw [if_neg Bool.false_ne_true, hall, hjob]
    exact ⟨by rw [hmem, pmem, rmem], hcl, hring, rfl⟩
  | true =>
    rw [if_pos rfl]
    obtain ⟨lmem, lcl, lhif⟩ := lateLaunch_keeps (launchHeld t (launchJob d r)) w
    refine ⟨by rw [lmem, hmem, pmem, rmem], lcl.trans hcl, ?_, ?_⟩
    · rw [lhif, ← hring, ← hall]
      rfl
    · rw [jobAt_of_hif lhif, State.jobAt_updJob_same, hjob]

theorem dkBegan_keeps (s : State) (r : Nat) : (dkBegan s r).mem = s.mem ∧ (dkBegan s r).cl = s.cl
    ∧ (dkBegan s r).hif.job = s.hif.job ∧ ((dkBegan s r).ring r) = { s.ring r with began := true } :=
  ⟨rfl, rfl, rfl, State.ring_updRing_same ..⟩

theorem startsLate_dkBegan (s : State) (r : Nat) (d : Docket) : startsLate (dkBegan s r) r d = startsLate s r d := by
  have hgen : ((dkBegan s r).ring r).gen = (s.ring r).gen := by rw [(dkBegan_keeps s r).2.2.2]
  rw [startsLate, hgen]
  rfl

/-- The docket asks for a cluster that serves another job, or for a ring that does not feed its job. -/
def launchConflict (s : State) (d : Docket) : Bool :=
  (launchPlaces d).any (fun q => (servingClusters s).contains q)
    || (launchRecords d).any (fun x => x.2.1 && !streamRingOk s x.2.2.1 (dkJob d))

theorem launchDocket_busy {s : State} {r : Ring} {d : Docket} {w : Nat} (h : Runs s r.val 0x20 d)
    (hwin : windowOf s (dkJob d) = some w) (hrun : (s.jobAt w).running = true) :
    ∃ t, execLaunchDocket r s = .next t ∧ OnlyRing s t r.val ∧ Ends s t r.val stBusy 0 :=
  ⟨_, next_dkInWindow h hwin (if_pos hrun), finishDocket_ends _ _ h⟩

theorem launchDocket_reserved {s : State} {r : Ring} {d : Docket} {w : Nat} (h : Runs s r.val 0x20 d)
    (hwin : windowOf s (dkJob d) = some w) (hrun : (s.jobAt w).running = false) (hconf : launchConflict s d = true) :
    ∃ t, execLaunchDocket r s = .next t ∧ OnlyRing s t r.val ∧ Ends s t r.val stReserved 0 :=
  ⟨_, next_dkInWindow h hwin ((if_neg (Bool.eq_false_iff.1 hrun)).trans (if_pos hconf)), finishDocket_ends _ _ h⟩

/-- A docket in a free window with free clusters and rings does what the slice allows. -/
theorem launchDocket_gate {s : State} {r : Ring} {d : Docket} {w : Nat} (h : Runs s r.val 0x20 d)
    (hwin : windowOf s (dkJob d) = some w) (hrun : (s.jobAt w).running = false) (hconf : launchConflict s d = false) :
    execLaunchDocket r s = .next (match launchGate s with
      | .wait => s
      | .reject st => finishDocket s r.val st 0
      | .go => launch (dkBegan s r.val) r.val d w) :=
  next_dkInWindow h hwin ((if_neg (Bool.eq_false_iff.1 hrun)).trans (if_neg (Bool.eq_false_iff.1 hconf)))

theorem launchDocket_rejected {s : State} {r : Ring} {d : Docket} {w st : Nat} (h : Runs s r.val 0x20 d)
    (hwin : windowOf s (dkJob d) = some w) (hrun : (s.jobAt w).running = false) (hconf : launchConflict s d = false)
    (hgate : launchGate s = .reject st) :
    ∃ t, execLaunchDocket r s = .next t ∧ OnlyRing s t r.val ∧ Ends s t r.val st 0 :=
  ⟨_, by rw [launchDocket_gate h hwin hrun hconf, hgate], finishDocket_ends _ _ h⟩

theorem launchDocket_starts {s : State} {r : Ring} {d : Docket} {w : Nat} (h : Runs s r.val 0x20 d)
    (hwin : windowOf s (dkJob d) = some w) (hrun : (s.jobAt w).running = false) (hconf : launchConflict s d = false)
    (hgate : launchGate s = .go) :
    ∃ t, execLaunchDocket r s = .next t
      ∧ t.jobAt w = { launchJob d r.val with late := startsLate s r.val d }
      ∧ (t.ring r.val).began = true ∧ t.mem = s.mem
      ∧ (∀ q ∈ launchPlaces d, (t.clu q).state = 1 ∧ (t.clu q).win = some (Fin.ofNat 16 w)
          ∧ (t.clu q).waiting = true ∧ (t.clu q).sreg = launchArgs d ∧ (t.clu q).mreg = (s.clu q).mreg)
      ∧ (Tbl.rising s.cl = true → ∀ p, p ∉ launchPlaces d → (s.clu p).win.map (·.val) ≠ some w → t.clu p = s.clu p) := by
  obtain ⟨bmem, bcl, -, bring⟩ := dkBegan_keeps s r.val
  obtain ⟨hmem, hcl, hring, hjob⟩ := launch_keeps (dkBegan s r.val) r.val d w
  refine ⟨_, by rw [launchDocket_gate h hwin hrun hconf, hgate], ?_, ?_, hmem.trans bmem, fun q hq => ?_,
    fun hrise p hp hwinP => ?_⟩
  · rw [hjob, startsLate_dkBegan]
  · rw [State.ring, hring]
    rw [State.ring] at bring
    rw [bring]
  · obtain ⟨hstate, hwinQ, hwaiting, hsreg, hmreg⟩ := loadPlaces_loads d w q (launchRecords d)
      (launchReady (dkBegan s r.val) r.val d w) (mem_launchPlaces.1 hq)
    rw [launchReady_mreg, clu_of_cl bcl] at hmreg
    rw [clu_of_cl hcl]
    exact ⟨hstate, hwinQ, hwaiting, hsreg, hmreg⟩
  · rw [clu_of_cl hcl, loadPlaces_other _ _ _ _ _ fun x hx hxp => hp (mem_launchPlaces.2 ⟨x, hx, hxp⟩),
      launchReady_other _ _ (by rw [bcl]; exact hrise) (by rw [clu_of_cl bcl]; exact hwinP), clu_of_cl bcl]
end Sys2Proof.Machine

namespace Sys2Proof.Machine
open Sys2Proof

/-! ### Packets between links and units (R273, R276)

A packet that moves changes links, package links and what leaves the module, and may report events; what it says is met
later. -/

structure NetFrame (s t : State) : Prop where
  cl : t.cl = s.cl
  mem : t.mem = s.mem
  slc : t.slc = s.slc
  coll : t.coll = s.coll
  guard : t.guard = s.guard
  hif : t.hif = s.hif

theorem NetFrame.refl (s : State) : NetFrame s s := ⟨rfl, rfl, rfl, rfl, rfl, rfl⟩
theorem NetFrame.trans {s t u : State} (h : NetFrame s t) (k : NetFrame t u) : NetFrame s u where
  cl := k.cl.trans h.cl
  mem := k.mem.trans h.mem
  slc := k.slc.trans h.slc
  coll := k.coll.trans h.coll
  guard := k.guard.trans h.guard
  hif := k.hif.trans h.hif
theorem NetFrame.foldl {β : Type} {f : State → β → State} (h : ∀ s b, NetFrame s (f s b)) (l : List β) (s : State) :
    NetFrame s (l.foldl f s) := by
  induction l generalizing s with
  | nil => exact .refl s
  | cons b l ih => exact (h s b).trans (ih _)
theorem NetFrame.ite {s t u : State} {c : Prop} [Decidable c] (h : NetFrame s t) (k : NetFrame s u) :
    NetFrame s (if c then t else u) := by
  split
  · exact h
  · exact k

theorem raise_net (s : State) (e : Ev) : NetFrame s (raise s e) :=
  have h := raise_frame s e
  ⟨h.cl, h.mem, h.slc, h.coll, h.guard, h.hif⟩

theorem updLink_net (s : State) (l : Nat) (f : TLink → TLink) : NetFrame s (s.updLink l f) :=
  ⟨State.updLink_cl .., State.updLink_mem .., State.updLink_slc .., State.updLink_coll .., State.updLink_guard ..,
    State.updLink_hif ..⟩

theorem discardAt_net (s : State) (l n : Nat) : NetFrame s (discardAt s l n) :=
  (updLink_net ..).trans (.ite (.foldl (fun _ _ => raise_net ..) _ _) (.refl _))

theorem badPacket_net (s : State) (l : Nat) (p : Packet) : NetFrame s (badPacket s l p) :=
  .trans (.ite (updLink_net ..) (.refl s)) (raise_net ..)

theorem arrive_net (s : State) (l : Nat) (p : Packet) : NetFrame s (arrive s l p) := by
  refine .ite ?_ ⟨rfl, rfl, rfl, rfl, rfl, rfl⟩
  unfold carryPacket
  split
  · exact ⟨rfl, rfl, rfl, rfl, rfl, rfl⟩
  · exact ⟨rfl, rfl, rfl, rfl, rfl, rfl⟩

theorem ejectFlit_net (s : State) (l vc : Nat) (x : Flit) : NetFrame s (ejectFlit s l vc x) :=
  (updLink_net ..).trans (.ite (arrive_net ..) (.refl _))

theorem drainIn_net : ∀ (n : Nat) (s : State) (l vc : Nat), NetFrame s (drainIn n s l vc)
  | 0, s, _, _ => .refl s
  | n + 1, s, l, vc => by
    simp only [drainIn]
    split
    · split
      · exact ((ejectFlit_net ..).trans (updLink_net ..)).trans (drainIn_net n ..)
      · exact .ite ((updLink_net ..).trans (drainIn_net n ..)) (.refl s)
    · exact .refl s

theorem drainVc_net (s : State) (l vc : Nat) : NetFrame s (drainVc s l vc) := drainIn_net ..

theorem completePartial_net (s : State) (l : Nat) : NetFrame s (completePartial s l) :=
  .foldl (fun t _ => .ite (((updLink_net ..).trans (updLink_net ..)).trans (drainVc_net ..)) (.refl t)) _ s

theorem cutBranches_net (s : State) (l : Nat) : NetFrame s (cutBranches s l) :=
  .foldl (fun t _ => .ite (.refl t)
    (((updLink_net ..).trans (.foldl (fun _ _ => drainVc_net ..) _ _)).trans (discardAt_net ..))) _ s

/-- What a link that leaves UP does before it may break a slice. -/
def linkLeft (s : State) (l : Nat) : State :=
  let n := packetCount (s.link l).outq
  let s := s.updLink l fun k =>
    { k with outq := [], replay := [], resend := [], replays := [], owner := [], ctl := [], retrying := false }
  let s := if n = 0 then s else discardAt s l n
  raise (completePartial (cutBranches s l) l) { cls := evTlDown, src := linkSrc l, detail := l }

theorem linkLeft_net (s : State) (l : Nat) : NetFrame s (linkLeft s l) := by
  unfold linkLeft
  dsimp only
  refine NetFrame.trans ?_ (raise_net ..)
  refine NetFrame.trans ?_ (completePartial_net ..)
  refine NetFrame.trans ?_ (cutBranches_net ..)
  exact (updLink_net ..).trans (.ite (.refl _) (discardAt_net ..))

/-- A link that leaves UP may break a running slice where the module did not fence it itself. -/
theorem leaveUp_cases (s : State) (l : Nat) (state : BitVec 3) (reason : BitVec 8) (why : Nat) :
    ∃ u, NetFrame s u ∧ (leaveUp s l state reason why = u
      ∨ why ≠ 0 ∧ leaveUp s l state reason why = sliceBroken u l why) := by
  have hleave : ∃ t, NetFrame s t ∧ leaveUp s l state reason why = if carries (s.link l) then
      (if why ≠ 0 ∧ interior (linkLeft t l) l = true ∧ sliceRuns (linkLeft t l) = true then sliceBroken (linkLeft t l) l why
        else linkLeft t l) else t :=
    ⟨_, updLink_net .., rfl⟩
  obtain ⟨t, hframe, hleave⟩ := hleave
  rw [hleave]
  split
  · split
    · next hwhy => exact ⟨_, hframe.trans (linkLeft_net ..), .inr ⟨hwhy.1, rfl⟩⟩
    · exact ⟨_, hframe.trans (linkLeft_net ..), .inl rfl⟩
  · exact ⟨t, hframe, .inl rfl⟩

/-- A link that the module fences itself breaks no slice. -/
theorem leaveUp_fenced_net (s : State) (l : Nat) (state : BitVec 3) (reason : BitVec 8) :
    NetFrame s (leaveUp s l state reason 0) := by
  obtain ⟨u, hframe, hu | ⟨hwhy, -⟩⟩ := leaveUp_cases s l state reason 0
  · rw [hu]
    exact hframe
  · exact absurd rfl hwhy

theorem setFence_net (s : State) (l : Nat) (v : Bool) : NetFrame s (setFence s l v) := by
  refine .ite (.refl s) (.ite (.ite ?_ (.ite ?_ ?_)) (.ite ?_ ?_))
  · exact (updLink_net ..).trans (leaveUp_fenced_net ..)
  · exact (updLink_net ..).trans (updLink_net ..)
  · exact updLink_net ..
  · exact (updLink_net ..).trans (updLink_net ..)
  · exact updLink_net ..
end Sys2Proof.Machine

namespace Sys2Proof.Machine
open Sys2Proof

/-! ### `STOP` (R136, R445) -/

theorem Tbl.rising_upd {α : Type} [DecidableEq α] (d : α) {t : Tbl α} (k : Nat) (f : α → α) (h : Tbl.rising t = true) :
    Tbl.rising (upd d t k f) = true := by
  rw [upd, Tbl.set]
  split
  · exact Tbl.rising_erase t k h
  · exact Tbl.rising_put t k _ h

theorem dkBegan_rising {s : State} (r : Nat) (h : Tbl.rising s.hif.ring = true) :
    Tbl.rising (dkBegan s r).hif.ring = true :=
  Tbl.rising_upd (α := RingSt) {} r (fun g => { g with began := true }) h

theorem finishDocket_began (s : State) (p status detail r : Nat) :
    ((finishDocket s p status detail).ring r).began = (s.ring r).began := by
  by_cases hp : r = p
  · rw [hp, finishDocket, State.ring_updRing_same]
    split
    · rfl
    · rfl
  · rw [finishDocket_other s r p status detail hp]

theorem docketsStop_fold (s : State) (job : Nat) : docketsStop s job = s.hif.ring.foldl (stopDocketOf job) s := rfl

/-- The dockets that end with their job have begun or not as before. -/
theorem docketsStop_began (s : State) (job r : Nat) : ((docketsStop s job).ring r).began = (s.ring r).began := by
  rw [docketsStop_fold]
  generalize s.hif.ring = l
  induction l generalizing s with
  | nil => rfl
  | cons e l ih =>
    rw [List.foldl_cons, ih, stopDocketOf]
    split
    · split
      · exact finishDocket_began ..
      · rfl
    · rfl

/-- A `STOP` docket is not itself stopped. -/
theorem docketsStop_stop {s : State} {r : Nat} {d : Docket} (job : Nat) (hrise : Tbl.rising s.hif.ring = true)
    (hrun : (s.ring r).running = some d) (hop : dkOp d = 0x21) : (docketsStop s job).ring r = s.ring r := by
  have hentry : ∀ e ∈ s.hif.ring, e.1 = r → e.2.running = some d := by
    rintro e he rfl
    rw [← Tbl.get_of_mem {} hrise he]
    exact hrun
  rw [docketsStop_fold]
  generalize s.hif.ring = l at hentry
  clear hrise hrun
  induction l generalizing s with
  | nil => rfl
  | cons e l ih =>
    rw [List.foldl_cons, ih fun x hx => hentry x (List.mem_cons_of_mem _ hx), stopDocketOf]
    by_cases he : e.1 = r
    · rw [hentry e List.mem_cons_self he]
      exact congrArg (State.ring · r) (if_neg fun hc => hc.2 hop)
    · split
      · split
        · exact finishDocket_other _ _ _ _ _ (Ne.symm he)
        · rfl
      · rfl

theorem jobStop_ring {s : State} {w : Nat} (y : StopWhy) (r : Nat) (hrun : (s.jobAt w).running = true) :
    ((jobStop s w y).ring r).began = (s.ring r).began
    ∧ ∀ d, Tbl.rising s.hif.ring = true → (s.ring r).running = some d → dkOp d = 0x21 → (jobStop s w y).ring r = s.ring r := by
  by_cases hnot : (s.jobAt w).stopping = true
  · rw [jobStop, hrun, hnot]
    exact ⟨rfl, fun _ _ _ _ => rfl⟩
  · obtain ⟨u, hkeeps, hstop⟩ := jobStop_starts y hrun (Bool.eq_false_iff.2 hnot)
    have hrings : u.hif.ring = s.hif.ring := by
      rw [hkeeps.hif, sendStops_eq]
      rfl
    have hring : u.ring r = s.ring r := by rw [State.ring, hrings, State.ring]
    rw [hstop, docketsStop_began, hring]
    exact ⟨rfl, fun d hrise hd hop => by rw [docketsStop_stop _ (by rw [hrings, hrise]) (by rw [hring, hd]) hop, hring]⟩

theorem stopDocket_none {s : State} {r : Ring} {d : Docket} {w : Nat} (h : Runs s r.val 0x21 d)
    (hwin : windowOf s (dkJob d) = some w) (hrun : (s.jobAt w).running = false) :
    ∃ t, execStopDocket r s = .next t ∧ OnlyRing s t r.val ∧ Ends s t r.val stJob 0 :=
  ⟨_, next_dkInWindow h hwin (if_neg (Bool.eq_false_iff.1 hrun)), finishDocket_ends _ _ h⟩

theorem stopDocket_stops {s : State} {r : Ring} {d : Docket} {w : Nat} (h : Runs s r.val 0x21 d)
    (hwin : windowOf s (dkJob d) = some w) (hrun : (s.jobAt w).running = true) :
    ∃ t, execStopDocket r s = .next t ∧ (t.jobAt w).stopping = true
      ∧ (t.ring r.val).began = true ∧ (Tbl.rising s.hif.ring = true → (t.ring r.val).result = none)
      ∧ ((s.jobAt w).stopping = false → (t.jobAt w).cause = 5
          ∧ ∀ q ∈ (s.jobAt w).clusters, q ∉ (s.jobAt w).clOver → (t.clu q).stopSent = true) := by
  obtain ⟨hd, hop, hres, -⟩ := id h
  have hjob : (dkBegan s r.val).jobAt w = s.jobAt w := rfl
  have hring := (dkBegan_keeps s r.val).2.2.2
  have hrun' : ((dkBegan s r.val).jobAt w).running = true := hrun
  obtain ⟨hbegan, hkeep⟩ := jobStop_ring { cause := 5 } r.val hrun'
  refine ⟨_, next_dkInWindow h hwin (if_pos hrun), jobStop_stopping _ hrun', ?_,
    fun hrise => ?_, fun hnot => ⟨?_, fun q hq hended => ?_⟩⟩
  · rw [hbegan, hring]
  · rw [hkeep d (dkBegan_rising r.val hrise) (by rw [hring]; exact hd) hop, hring]
    exact hres
  · rw [jobStop_jobAt _ hrun' hnot, State.jobAt_updJob_same]
    exact (recordWhy_first _ hnot).1
  · rw [jobStop_clu _ hrun' hnot, if_pos ⟨hq, hended⟩]

/-! ### `PHASE` (R303, R304) -/

theorem phaseDocket_busy {s : State} {r : Ring} {d : Docket} (h : Runs s r.val 0x81 d) (hreq : s.slc.req.isSome = true) :
    ∃ t, execPhaseDocket r s = .next t ∧ OnlyRing s t r.val ∧ Ends s t r.val stBusy 0 :=
  ⟨_, next_dkDo h (if_pos hreq), finishDocket_ends _ _ h⟩

theorem phaseDocket_refused {s : State} {r : Ring} {d : Docket} (h : Runs s r.val 0x81 d) (hreq : s.slc.req = none)
    (hbad : phaseMapOk s (phaseReq s r.val d (phaseBrings s d)) = false
      ∨ phaseClash s (phaseReq s r.val d (phaseBrings s d)) = true) :
    ∃ t, execPhaseDocket r s = .next t ∧ OnlyRing s t r.val ∧ Ends s t r.val stRefused 0 := by
  refine ⟨_, next_dkDo h ((if_neg ?_).trans (if_pos ?_)), finishDocket_ends _ _ h⟩
  · rw [hreq]
    decide
  · rw [Bool.or_eq_true, Bool.not_eq_true']
    exact hbad

/-- The state in which an accepted `PHASE` goes on. -/
def phaseBegun (s : State) (r : Nat) (d : Docket) : State := dkBegan (notMissed s r d) r

theorem phaseDocket_accepted {s : State} {r : Ring} {d : Docket} (h : Runs s r.val 0x81 d) (hreq : s.slc.req = none)
    (hmap : phaseMapOk s (phaseReq s r.val d (phaseBrings s d)) = true)
    (hclash : phaseClash s (phaseReq s r.val d (phaseBrings s d)) = false) :
    let q := phaseReq s r.val d (phaseBrings s d)
    let late := startsLate s r.val d
    let u := phaseBegun s r.val d
    execPhaseDocket r s = .next (if phaseBrings s d then
        phaseRewrite ({ u with slc := { u.slc with req := some q, rounds := 0 } }.setStep 3) q
      else detectAll ({ u with slc := { u.slc with req := some { q with late := late }, rounds := 0 } }.setStep 1)
        evLateApply (srcUnit 0 unitSlice) late latePhase id) := by
  refine next_dkDo h ((if_neg ?_).trans ((if_neg ?_).trans rfl))
  · rw [hreq]
    decide
  · rw [hmap, hclash]
    decide

theorem setStep_slc (s : State) (n : BitVec 3) : (s.setStep n).slc = { s.slc with step := n } := by
  unfold State.setStep
  split
  · exact irqEvent_slc ..
  · rfl

theorem phaseBegun_keeps (s : State) (r : Nat) (d : Docket) : (phaseBegun s r d).slc = s.slc
    ∧ (phaseBegun s r d).mem = s.mem ∧ (phaseBegun s r d).tl = s.tl ∧ (phaseBegun s r d).cl = s.cl
    ∧ (phaseBegun s r d).guard = s.guard ∧ ((phaseBegun s r d).ring r).began = true := by
  refine ⟨rfl, rfl, rfl, rfl, rfl, ?_⟩
  rw [phaseBegun, (dkBegan_keeps _ r).2.2.2]

theorem phaseDocket_waits {s : State} {r : Ring} {d : Docket} (h : Runs s r.val 0x81 d) (hreq : s.slc.req = none)
    (hmap : phaseMapOk s (phaseReq s r.val d (phaseBrings s d)) = true)
    (hclash : phaseClash s (phaseReq s r.val d (phaseBrings s d)) = false) (hbring : phaseBrings s d = false)
    (hlate : startsLate s r.val d = false) (hquiet : s.guard.armed = []) :
    ∃ t, execPhaseDocket r s = .next t ∧ (t.ring r.val).began = true
      ∧ t.slc = { s.slc with req := some (phaseReq s r.val d (phaseBrings s d)), rounds := 0, step := 1 }
      ∧ t.mem = s.mem ∧ t.tl = s.tl ∧ t.cl = s.cl := by
  have hexec := phaseDocket_accepted h hreq hmap hclash
  obtain ⟨hslc, hmem, htl, hcl, hguard, hbegan⟩ := phaseBegun_keeps s r.val d
  simp only [hbring, hlate, Bool.false_eq_true, if_false] at hexec ⊢
  rw [detectAll_quiet (by rw [State.setStep_guard]; exact (congrArg Guard.armed hguard).trans hquiet)] at hexec
  refine ⟨_, hexec, ?_, ?_, ?_, ?_, ?_⟩
  · rw [if_neg Bool.false_ne_true, id, State.ring, State.setStep_hif]
    exact hbegan
  · rw [if_neg Bool.false_ne_true, id, setStep_slc, hslc]
    rfl
  · rw [if_neg Bool.false_ne_true, id, State.setStep_mem]
    exact hmem
  · rw [if_neg Bool.false_ne_true, id, State.setStep_tl]
    exact htl
  · rw [if_neg Bool.false_ne_true, id, State.setStep_cl]
    exact hcl

theorem latePhase_keeps (s : State) : (latePhase s).slc = { s.slc with late := true, holdLaunch := true }
    ∧ 0x43 ∈ (latePhase s).irq.latch ∧ (latePhase s).mem = s.mem := by
  have h := raise_frame { s with slc := { s.slc with late := true, holdLaunch := true } }
    { cls := evLateApply, src := srcUnit 0 unitSlice }
  exact ⟨h.slc, raise_latch _ _ rfl (show evLateApply ≠ evGctStep by decide), h.mem⟩

/-- A late switch is recorded, injected or not. -/
theorem detectAll_latePhase (s : State) (src : Nat) {t : State} (ht : detectAll s evLateApply src true latePhase id = t) :
    t.slc = { s.slc with late := true, holdLaunch := true } ∧ 0x43 ∈ t.irq.latch ∧ t.mem = s.mem := by
  subst ht
  rw [detectAll, detect]
  split
  · next n u hinj =>
    have hu := takeInject_some hinj
    obtain ⟨hslc, hlatch, hmem⟩ := latePhase_keeps { u with guard := { u.guard with injecting := true } }
    refine ⟨hslc.trans ?_, hlatch, hmem.trans ?_⟩
    · rw [hu]
    · rw [hu]
  · exact latePhase_keeps s

theorem phaseDocket_late {s : State} {r : Ring} {d : Docket} (h : Runs s r.val 0x81 d) (hreq : s.slc.req = none)
    (hmap : phaseMapOk s (phaseReq s r.val d (phaseBrings s d)) = true)
    (hclash : phaseClash s (phaseReq s r.val d (phaseBrings s d)) = false) (hbring : phaseBrings s d = false)
    (hlate : startsLate s r.val d = true) :
    ∃ t, execPhaseDocket r s = .next t
      ∧ t.slc = { s.slc with req := some { phaseReq s r.val d (phaseBrings s d) with late := true }, rounds := 0, step := 1,
                             late := true, holdLaunch := true }
      ∧ 0x43 ∈ t.irq.latch ∧ t.mem = s.mem := by
  have hexec := phaseDocket_accepted h hreq hmap hclash
  obtain ⟨hslc, hmem, -, -, -, -⟩ := phaseBegun_keeps s r.val d
  simp only [hbring, hlate, Bool.false_eq_true, if_false] at hexec ⊢
  refine ⟨_, hexec, ?_⟩
  obtain ⟨tslc, tlatch, tmem⟩ := detectAll_latePhase _ (srcUnit 0 unitSlice) rfl
  refine ⟨tslc.trans ?_, tlatch, tmem.trans ?_⟩
  · rw [setStep_slc, hslc]
  · rw [State.setStep_mem]
    exact hmem

/-! ### `PHASE` at a bring-up: the rewrite keeps the slice's record but for what it writes (R300, R503) -/

theorem foldl_slc {β : Type} {f : State → β → State} (h : ∀ s b, (f s b).slc = s.slc) (l : List β) (s : State) :
    (l.foldl f s).slc = s.slc := by
  induction l generalizing s with
  | nil => rfl
  | cons b l ih => rw [List.foldl_cons, ih, h]

theorem flushCache_slc (s : State) (die : Nat) (p : Cached → Bool) : (flushCache s die p).slc = s.slc := by
  refine foldl_slc (fun t c => ?_) _ s
  split
  · exact (dramStore_frame ..).slc
  · rfl

theorem setShelfWindow_slc (s : State) (die w tw : Nat) : (setShelfWindow s die w tw).slc = s.slc := by
  rw [setShelfWindow, State.updDieMem_slc]
  split
  · rfl
  · exact flushCache_slc s die fun _ => true

theorem setShelfCaching_slc (s : State) (die : Nat) (nm hbm : Bool) : (setShelfCaching s die nm hbm).slc = s.slc := by
  rw [setShelfCaching, State.updDieMem_slc, apply_ite State.slc, flushCache_slc, ite_self, apply_ite State.slc,
    flushCache_slc, ite_self]

theorem shelfWriteWith_slc (s : State) (die v : Nat) : (shelfWriteWith s die v false).slc = s.slc := by
  rw [shelfWriteWith, setShelfCaching_slc, if_neg Bool.false_ne_true, setShelfWindow_slc]

theorem setEntry_slc (s : State) (win v : Nat) (e : DWord) : (setEntry s win v e).slc = s.slc := by
  simp only [setEntry]
  split
  · unfold raisePeak
    dsimp only
    split
    · rfl
    · rfl
  · rfl

theorem reacquire_slc (s : State) (was : Option Nat × Option Nat) : (reacquire s was).slc = s.slc := by
  unfold reacquire
  split
  · rfl
  · rfl

/-- The registers and tables that a rewrite writes after the slice's record. -/
def rewriteRest (s : State) (q : PhaseReq) : State :=
  let s := (List.range 8).foldl (fun s d => putSlice s d q.tlSlice.toNat) s
  let s := putFences s q.fence.toNat
  let s := q.shelf.zipIdx.foldl (fun s (v, d) => shelfWriteWith s d v.toNat false) s
  q.items.foldl (fun s i => if i.move then s else setEntry s i.win.toNat i.vframe.toNat i.entry) s

theorem rewriteRest_slc (s : State) (q : PhaseReq) : (rewriteRest s q).slc = s.slc := by
  unfold rewriteRest
  dsimp only
  rw [foldl_slc, foldl_slc (fun _ _ => shelfWriteWith_slc ..), putFences, foldl_slc (fun _ _ => (setFence_net ..).slc),
    foldl_slc (f := fun s d => putSlice s d q.tlSlice.toNat) (fun _ _ => rfl)]
  intro t i
  split
  · rfl
  · exact setEntry_slc ..

theorem dropXlat_slc (s : State) : (dropXlat s).slc = s.slc :=
  foldl_slc (f := fun s d => s.updDieMem d fun m => { m with xlat := [] }) (fun _ _ => rfl) _ s

theorem phaseRewrite_eq (s : State) (q : PhaseReq) : phaseRewrite s q =
    let t := reacquire (dropXlat (rewriteRest
      (putSlcMap (putSlcId { s with slc := { s.slc with drained := true } } q.slcId.toNat) q.slcMap.toNat) q)) (timeRefs s)
    if q.items.any (·.move) then t.setStep 4 else beginResume t := rfl

/-- What the rewrite of a switch leaves of the slice's record. -/
theorem phaseRewrite_slc (s : State) (q : PhaseReq) : (phaseRewrite s q).slc.slice = BitVec.ofNat 8 q.slcId.toNat
    ∧ (phaseRewrite s q).slc.member = bitAt q.slcId.toNat 8 ∧ (phaseRewrite s q).slc.req = s.slc.req
    ∧ (phaseRewrite s q).slc.step = if q.items.any (·.move) then 4 else 5 := by
  have hslc := (reacquire_slc (dropXlat (rewriteRest (putSlcMap (putSlcId { s with slc := { s.slc with drained := true } }
    q.slcId.toNat) q.slcMap.toNat) q)) (timeRefs s)).trans ((dropXlat_slc _).trans (rewriteRest_slc _ q))
  rw [phaseRewrite_eq]
  dsimp only
  generalize reacquire (dropXlat (rewriteRest (putSlcMap (putSlcId { s with slc := { s.slc with drained := true } }
    q.slcId.toNat) q.slcMap.toNat) q)) (timeRefs s) = t at hslc ⊢
  split
  · rw [setStep_slc, hslc]
    exact ⟨rfl, rfl, rfl, rfl⟩
  · rw [beginResume, setStep_slc, hslc]
    exact ⟨rfl, rfl, rfl, rfl⟩

theorem phaseDocket_brings {s : State} {r : Ring} {d : Docket} (h : Runs s r.val 0x81 d) (hreq : s.slc.req = none)
    (hmap : phaseMapOk s (phaseReq s r.val d (phaseBrings s d)) = true)
    (hclash : phaseClash s (phaseReq s r.val d (phaseBrings s d)) = false) (hbring : phaseBrings s d = true) :
    let q := phaseReq s r.val d (phaseBrings s d)
    ∃ t, execPhaseDocket r s = .next t ∧ t.slc.slice = q.slcId.setWidth 8
      ∧ t.slc.member = q.slcId.getLsbD 8 ∧ t.slc.req = some q
      ∧ t.slc.step = (if q.items.any (·.move) then 4 else 5) := by
  intro q
  have hexec := phaseDocket_accepted h hreq hmap hclash
  dsimp only at hexec
  rw [if_pos hbring] at hexec
  obtain ⟨hslice, hmember, hkeep, hstep⟩ := phaseRewrite_slc (({ phaseBegun s r.val d with
    slc := { (phaseBegun s r.val d).slc with req := some q, rounds := 0 } } : State).setStep 3) q
  rw [setStep_slc] at hkeep
  exact ⟨_, hexec, hslice, hmember.trans (bitAt_toNat ..), hkeep, hstep⟩

/-- Settles O50: each docket by its cases. -/
theorem docketsOfJobs : Obligations.DocketsOfJobs := by
  intro s r d
  refine ⟨fun w h hwin => ?launch, fun w h hwin => ⟨stopDocket_none h hwin, stopDocket_stops h hwin⟩, fun h => ?phase⟩
  case launch =>
    refine ⟨launchDocket_busy h hwin, launchDocket_reserved h hwin, fun hrun hconf =>
      ⟨fun st hgate => launchDocket_rejected h hwin hrun hconf hgate, fun hgate => ?_, launchDocket_starts h hwin hrun hconf⟩⟩
    exact (launchDocket_gate h hwin hrun hconf).trans (by rw [hgate])
  case phase =>
    exact ⟨phaseDocket_busy h, phaseDocket_refused h, fun hreq hmap hclash =>
      ⟨phaseDocket_waits h hreq hmap hclash, phaseDocket_late h hreq hmap hclash, phaseDocket_brings h hreq hmap hclash⟩⟩
end Sys2Proof.Machine

namespace Sys2Proof.Machine
open Sys2Proof

/-! ### What a collective's work does to clusters: at most a stop is sent (R446) -/

theorem OnlySends.refl (s : State) : OnlySends s s := .of_cl rfl
theorem OnlySends.foldl {β : Type} {f : State → β → State} (h : ∀ s b, OnlySends s (f s b)) (l : List β) (s : State) :
    OnlySends s (l.foldl f s) := by
  induction l generalizing s with
  | nil => exact .refl s
  | cons b l ih => exact (h s b).trans (ih _)
theorem OnlySends.ite {s t u : State} {c : Prop} [Decidable c] (h : OnlySends s t) (k : OnlySends s u) :
    OnlySends s (if c then t else u) := by
  split
  · exact h
  · exact k

theorem OnlySends.after {s u t : State} (h : OnlySends u t) (hu : u.cl = s.cl) : OnlySends s t := (OnlySends.of_cl hu).trans h

theorem NetFrame.sends {s t : State} (h : NetFrame s t) : OnlySends s t := .of_cl h.cl
theorem raise_sends (s : State) (e : Ev) : OnlySends s (raise s e) := (raise_net s e).sends

theorem guard_sends (s : State) (g : Guard) : OnlySends s { s with guard := g } := .of_cl rfl
theorem slc_sends (s : State) (c : Slc) : OnlySends s { s with slc := c } := .of_cl rfl
theorem press_sends (s : State) (p : Press) : OnlySends s { s with press := p } := .of_cl rfl

theorem underInject_sends {f : State → State} (h : ∀ s, OnlySends s (f s)) (s : State) : OnlySends s (underInject f s) := by
  unfold underInject
  exact (guard_sends ..).trans ((h _).trans (guard_sends ..))

theorem detect_sends {f g : State → State} (hf : ∀ s, OnlySends s (f s)) (hg : ∀ s, OnlySends s (g s)) (s : State)
    (cls src win : Nat) (cond : Bool) : OnlySends s (detect s cls src win cond f g) := by
  rw [detect]
  split
  · next hinj => exact (OnlySends.of_cl (takeInject_frame hinj).cl).trans (underInject_sends hf _)
  · exact .ite (hf s) (hg s)

/-! ### A broken slice (R308, R417) -/

theorem phaseEnd_sends (s : State) (step : BitVec 3) : OnlySends s (phaseEnd s step) := by
  rw [phaseEnd]
  split
  · exact .of_cl (State.setStep_cl ..)
  · exact .refl s

theorem stopAll_sends (s : State) (y : StopWhy) : OnlySends s (stopAll s y) :=
  .foldl (fun _ _ => jobStop_sends ..) _ s

theorem updGuard_sends (s : State) (f : Guard → Guard) : OnlySends s (s.updGuard f) := .of_cl (State.updGuard_cl ..)

theorem guildStop_sends (s : State) : OnlySends s (guildStop s) := by
  rw [guildStop]
  exact (stopAll_sends s _).trans ((updGuard_sends _ _).trans (.ite ((slc_sends ..).trans (phaseEnd_sends ..)) (.refl _)))

theorem flood_sends (s : State) (p : Packet) : OnlySends s (flood s p) :=
  .foldl (fun _ _ => (updLink_net ..).sends) _ s

theorem guildDetect_sends (s : State) (reason suspect : Nat) : OnlySends s (guildDetect s reason suspect) := by
  rw [guildDetect]
  exact .ite ((guildStop_sends s).trans ((updGuard_sends _ _).trans (flood_sends _ _))) (.refl s)

theorem sliceBroken_sends (s : State) (l reason : Nat) : OnlySends s (sliceBroken s l reason) := by
  rw [sliceBroken]
  refine OnlySends.trans ?_ (guildDetect_sends ..)
  refine OnlySends.trans ?_ (stopAll_sends ..)
  exact (slc_sends ..).trans (raise_sends ..)

theorem leaveUp_sends (s : State) (l : Nat) (state : BitVec 3) (reason : BitVec 8) (why : Nat) :
    OnlySends s (leaveUp s l state reason why) := by
  obtain ⟨u, hframe, hu | ⟨-, hu⟩⟩ := leaveUp_cases s l state reason why
  · rw [hu]
    exact hframe.sends
  · rw [hu]
    exact hframe.sends.trans (sliceBroken_sends ..)

/-! ### The injection of packets (R273, R404) -/

theorem meetLink_sends (s : State) (l : Nat) (p : Packet) : OnlySends s (meetLink s l p).1 := by
  have hdown := detect_sends (f := fun s => leaveUp s l 0 0 1) (g := id) (fun _ => leaveUp_sends ..) .refl s evTlDown (linkSrc l)
    (packetWin s p) false
  have hbroken := fun t => detect_sends (f := fun s => sliceBroken s l 1) (g := id) (fun _ => sliceBroken_sends ..) .refl t
    evSliceBroken (srcUnit 0 unitSlice) (packetWin s p) false
  rw [meetLink]
  refine (hdown.trans (hbroken _)).trans ?_
  split
  · next hinj =>
    have hfence : ∀ s, OnlySends s (fenceEntries s l 1) := fun s => .foldl (fun _ _ => raise_sends ..) _ s
    exact (underInject_sends hfence _).after (takeInject_frame hinj).cl
  · exact .refl _

theorem queueOut_sends (s : State) (ply : Nat) (p : Packet) (d : Nat) (plus : Bool) :
    OnlySends s (queueOut s ply p d plus) := by
  rw [queueOut]
  exact (meetLink_sends ..).trans (.ite (updLink_net ..).sends (discardAt_net ..).sends)

theorem inject_sends (s : State) (ply : Nat) (p : Packet) : OnlySends s (inject s ply p) := by
  rw [inject]
  refine (detect_sends (fun _ => (badPacket_net ..).sends) (fun t => ?_) _ _ _ _ _).after (by split <;> rfl)
  split
  · exact OnlySends.trans (.foldl (fun _ _ => queueOut_sends ..) _ _) (.ite (arrive_net ..).sends (.refl _))
  · split
    · exact (arrive_net ..).sends
    · exact queueOut_sends ..

theorem injectHash_sends (s : State) (key : Nat) (p : Packet) : OnlySends s (injectHash s key p) := inject_sends ..

/-! ### Reads and writes of a collective (R204, R330) -/

theorem devStore_sends (s : State) (src win : Nat) (a : Int) (b : List Byte) (stain : Bool) :
    OnlySends s (devStore s src win a b stain) := by
  rw [devStore]
  exact (OnlySends.of_cl (devPut_frame ..).cl).trans (.ite (jobStop_sends ..) (.refl _))

theorem bulkWrite_sends (s : State) (src win a : Nat) (l : List (Byte × Bool)) : OnlySends s (bulkWrite s src win a l) :=
  .foldl (fun _ _ => devStore_sends ..) _ s

theorem bulkStain_sends (s : State) (src win a n : Nat) : OnlySends s (bulkStain s src win a n) := by
  rw [bulkStain]
  exact .ite (.refl s) ((OnlySends.of_cl (bulkRead_frame ..).cl).trans (bulkWrite_sends ..))

theorem readHeader_cl (s : State) (tbl : Nat) : (readHeader s tbl).1.cl = s.cl := (devRead_frame ..).cl

/-! ### The press units (R344, R352, R363) -/

theorem spillOut_sends (s : State) (g : HeldSeg) (vals : List (BitVec 16)) : OnlySends s (spillOut s g vals) :=
  .foldl (fun _ _ => bulkWrite_sends ..) _ s

theorem pressNospace_sends (s : State) (seg : Nat) : OnlySends s (pressNospace s seg) := by
  rw [pressNospace]
  refine OnlySends.trans ?_ (jobStop_sends ..)
  exact (press_sends ..).trans (raise_sends ..)

theorem pressHold_sends (s : State) (k : CollKey) (vals : List (Word × Bool)) : OnlySends s (pressHold s k vals) := by
  rw [pressHold]
  split
  · exact .refl s
  · dsimp only
    split
    · exact .of_cl rfl
    · exact (detect_sends (fun _ => pressNospace_sends ..) (fun _ => spillOut_sends ..) _ _ _ _ _).after rfl

theorem pressDeliver_sends (s : State) (k : CollKey) (q : Word) (flags : Nat) : OnlySends s (pressDeliver s k q flags) := by
  rw [pressDeliver]
  split
  · exact .refl s
  · exact .of_cl rfl

theorem pressContribution_cl {s t : State} {k : CollKey} {x : Word × Nat × Bool} (h : pressContribution s k = some (t, x)) :
    t.cl = s.cl := by
  rw [pressContribution] at h
  split at h
  · exact nomatch h
  · split at h
    · exact nomatch h
    · obtain ⟨rfl, -⟩ := (Prod.mk.injEq ..).mp ((Option.some.injEq ..).mp h)
      exact readHeader_cl ..

theorem lateFold_cl (s : State) (win : Nat) (k : CollKey) (seg shard lo : Nat) (vals : List (Word × Bool)) :
    (lateFold s win k seg shard lo vals).1.cl = s.cl := by
  rw [lateFold]
  split
  · rfl
  · dsimp only
    split
    · rfl
    · split
      · exact readHeader_cl ..
      · exact readHeader_cl ..

theorem lateWrite_sends (s : State) (e : LateEntry) : OnlySends s (lateWrite s e) := by
  rw [lateWrite]
  split
  · exact .refl s
  · next tbl _ =>
    refine OnlySends.trans (.of_cl (readHeader_cl s tbl)) ?_
    dsimp only
    split
    · exact (bulkWrite_sends ..).trans ((bulkWrite_sends ..).trans (.of_cl rfl))
    · exact .of_cl rfl
end Sys2Proof.Machine

namespace Sys2Proof.Machine
open Sys2Proof

/-! ### The work of a context (R320–R337) -/

theorem updCtx_sends (s : State) (k : CollKey) (f : Ctx → Ctx) : OnlySends s (s.updCtx k f) := .of_cl rfl

theorem collMismatch_cl (s : State) (k : CollKey) : (collMismatch s k).cl = s.cl := by
  rw [collMismatch]
  split
  · rfl
  · dsimp only
    split
    · rfl
    · exact (raise_net ..).cl

theorem collMismatch_sends (s : State) (k : CollKey) : OnlySends s (collMismatch s k) := .of_cl (collMismatch_cl s k)

theorem sendMsg_sends (s : State) (x : Ctx) (msg level dest : Nat) (data : List (Byte × Bool)) :
    OnlySends s (sendMsg s x msg level dest data) := injectHash_sends ..

theorem sendChunk_sends (s : State) (x : Ctx) (level dest c off w : Nat) (data : List (Byte × Bool)) :
    OnlySends s (sendChunk s x level dest c off w data) := .foldl (fun _ _ => inject_sends ..) _ s

theorem sendRelease_sends (s : State) (x : Ctx) (vals : List (Word × Bool)) : OnlySends s (sendRelease s x vals) :=
  .foldl (fun t _ => .ite (.refl t) (injectHash_sends ..)) _ s

theorem setResult_sends (s : State) (k : CollKey) (vals : List (Word × Bool)) : OnlySends s (setResult s k vals) := by
  rw [setResult]
  split
  · exact .refl s
  · refine .ite (.refl s) ((sendRelease_sends ..).trans ((updCtx_sends ..).trans (.ite (pressDeliver_sends ..) (.refl _))))

theorem finalNode_sends (s : State) (k : CollKey) (n : Node) (v : List (Word × Bool)) : OnlySends s (finalNode s k n v) := by
  rw [finalNode]
  split
  · exact updCtx_sends ..
  · exact setResult_sends ..
  · exact setResult_sends ..

theorem sendUp_sends (s : State) (x : Ctx) (n : Node) (lv dest : Nat) (v : List (Word × Bool)) :
    OnlySends s (sendUp s x n lv dest v) := by
  rw [sendUp]
  dsimp only
  split
  · exact sendChunk_sends ..
  · exact sendMsg_sends ..
  · exact sendMsg_sends ..

theorem foldLate_cl (s : State) (x : Ctx) (n : Node) (v : List (Word × Bool)) : (foldLate s x n v).1.cl = s.cl := by
  rw [foldLate]
  dsimp only
  split
  · exact lateFold_cl ..
  · rfl

theorem nodeAdvance_sends : ∀ (f : Nat) (s : State) (k : CollKey) (i : Nat), OnlySends s (nodeAdvance f s k i)
  | 0, s, _, _ => .refl s
  | f + 1, s, k, i => by
    rw [nodeAdvance]
    split
    · exact .refl s
    · split
      · exact .refl s
      · split
        · exact .refl s
        · refine .ite (.refl s) (.ite (.ite ?_ (.refl s)) (.ite ?_ (.ite (.refl s) ?_)))
          · exact (nodeAdvance_sends f ..).after rfl
          · exact (finalNode_sends ..).after (foldLate_cl ..)
          · exact (sendUp_sends ..).after (foldLate_cl ..)

theorem advanceAll_sends (s : State) (k : CollKey) : OnlySends s (advanceAll s k) := by
  rw [advanceAll]
  split
  · exact .refl s
  · exact .foldl (fun _ _ => nodeAdvance_sends ..) _ s

theorem noWait_sends (s : State) (k : CollKey) (sender : Nat) : OnlySends s (noWait s k sender) :=
  (advanceAll_sends ..).after rfl

theorem otherOp_sends (s : State) (k : CollKey) (x : Ctx) (p : Packet) (sender : Nat) : OnlySends s (otherOp s k x p sender) :=
  .ite (.refl s) ((noWait_sends ..).after rfl)

theorem childValue_sends (s : State) (k : CollKey) (tag shard chunk level sender : Nat) (v : List (Word × Bool)) :
    OnlySends s (childValue s k tag shard chunk level sender v) := (advanceAll_sends ..).after rfl

theorem pressNorm_sends (s : State) : OnlySends s (pressNorm s) := by
  rw [pressNorm]
  split
  · exact .refl s
  · dsimp only
    split
    · exact .refl s
    · next h =>
      have hcl := pressContribution_cl h
      exact (advanceAll_sends ..).after hcl

theorem shardDone_sends (s : State) (k : CollKey) : OnlySends s (shardDone s k) := by
  rw [shardDone]
  split
  · exact .refl s
  · refine .ite (.refl s) (.ite (.ite ?_ (.refl s)) (.ite ?_ (.refl s)))
    · exact (pressHold_sends ..).trans (pressNorm_sends _)
    · exact (advanceAll_sends ..).after rfl

theorem lateChunk_sends (s : State) (x : Ctx) (i : Incoming) (v : List (Word × Bool)) : OnlySends s (lateChunk s x i v) :=
  .ite (lateWrite_sends ..) (.refl s)

theorem partialChunk_sends (s : State) (k : CollKey) (i : Incoming) (bad : Bool) : OnlySends s (partialChunk s k i bad) := by
  rw [partialChunk]
  split
  · exact .refl s
  · exact .ite (lateChunk_sends ..) ((childValue_sends ..).trans (shardDone_sends ..))

theorem noteArrival_sends (s : State) (k : CollKey) (sender : Nat) : OnlySends s (noteArrival s k sender) := by
  rw [noteArrival]
  split
  · exact .refl s
  · exact .ite (.refl s) (.ite ((bulkWrite_sends ..).after rfl) (.of_cl rfl))

theorem gatherWrite_sends (s : State) (k : CollKey) (die sender off : Nat) (data : List (Byte × Bool)) :
    OnlySends s (gatherWrite s k die sender off data) := by
  rw [gatherWrite]
  refine (noteArrival_sends s k sender).trans ?_
  dsimp only
  split
  · exact .refl _
  · exact (bulkWrite_sends ..).after rfl

theorem crcFailed_sends (s : State) (k : CollKey) (die chunk : Nat) (inj : Bool) : OnlySends s (crcFailed s k die chunk inj) :=
  (raise_sends ..).after rfl

theorem injectChunk_cl (s : State) (k : CollKey) (die : Nat) (last : Bool) (data : List (Byte × Bool)) :
    (injectChunk s k die last data).1.cl = s.cl := by
  rw [injectChunk]
  split
  · split
    · next h => exact (takeInject_frame h).cl
    · rfl
  · rfl


theorem dataPacket_sends (s : State) (k : CollKey) (x : Ctx) (p : Packet) (sender : Nat) :
    OnlySends s (dataPacket s k x p sender) := by
  unfold dataPacket
  lift_lets
  intro b r n die last level vector pc mism off shard chunk
  refine .ite ((collMismatch_sends s k).trans (.ite (noWait_sends ..) (.refl _))) ?_
  have hin := injectChunk_cl s k die last (packetBytes p)
  generalize injectChunk s k die last (packetBytes p) = t at hin
  obtain ⟨t, data, inj⟩ := t
  dsimp -zeta only
  generalize addIncoming x sender level shard chunk data = i
  obtain ⟨i, rest⟩ := i
  dsimp -zeta only
  lift_lets
  intro bad
  beta_reduce
  lift_lets
  intro taken given checked counted placed
  have htaken : OnlySends s taken := .of_cl hin
  have hgiven : OnlySends s given := htaken.trans (.ite (.refl _) (gatherWrite_sends ..))
  have hchecked : OnlySends s checked := hgiven.trans (.ite (crcFailed_sends ..) (.refl _))
  have hcounted : OnlySends s counted :=
    hchecked.trans (.ite (.refl _) ((collMismatch_sends ..).trans (noWait_sends ..)))
  refine .ite hgiven (.ite (hcounted.trans (partialChunk_sends ..)) (OnlySends.trans ?_ (updCtx_sends placed k _)))
  refine hcounted.trans (.ite ?_ (.refl _))
  split
  · exact (bulkStain_sends ..).after rfl
  · exact .refl _

theorem takeMessage_sends (s : State) (k : CollKey) (p : Packet) : OnlySends s (takeMessage s k p) := by
  unfold takeMessage
  split
  · exact .refl s
  · next x _ =>
    lift_lets
    intro sender level msg met
    have hmet : OnlySends s met :=
      .ite (detect_sends (fun _ => (collMismatch_sends ..).trans (otherOp_sends ..)) .refl _ _ _ _ _) (.refl s)
    refine hmet.trans ?_
    clear_value met msg
    split
    · exact childValue_sends ..
    · exact childValue_sends ..
    · exact dataPacket_sends ..
    · exact setResult_sends ..
    · exact childValue_sends ..
    · exact .refl _

theorem takeEarly_sends (s : State) (k : CollKey) : OnlySends s (takeEarly s k) := by
  rw [takeEarly]
  split
  · exact .refl s
  · exact .ite ((updCtx_sends ..).trans (.foldl (fun _ _ => takeMessage_sends ..) _ _)) (.refl s)

theorem giveScalar_sends (s : State) (k : CollKey) : OnlySends s (giveScalar s k) := by
  rw [giveScalar]
  split
  · exact .refl s
  · exact .ite (.ite ((advanceAll_sends ..).after rfl) (.of_cl rfl)) (.refl s)

/-- A context after a start of operation `op`. -/
def withStart (op q addr : Nat) (x : Ctx) : Ctx :=
  { x with op := some (x.op.getD (BitVec.ofNat 3 op))
           starts := x.starts ++ [{ clu := q, addr := BitVec.ofNat 64 addr }] }

/-- A start of operation `op` is noted in the context of its tuple, and the tuple among the cluster's collectives. -/
def noteStart (s : State) (k : CollKey) (op q addr : Nat) : State :=
  let differs := match s.ctxAt k with
    | some x => match x.op with | some o => o.toNat != op | none => false
    | none => false
  let s := s.updCtx k (withStart op q addr)
  let s := if differs then collMismatch s k else s
  s.updClu q fun c => { c with colls := c.colls ++ [k] }

theorem joinCtx_eq (s : State) (k : CollKey) (op q addr : Nat) :
    joinCtx s k op q addr = giveScalar (takeEarly (noteStart s k op q addr) k) k := rfl

theorem noteStart_clu (s : State) (k : CollKey) (op q addr : Nat) :
    (noteStart s k op q addr).clu q = { s.clu q with colls := (s.clu q).colls ++ [k] } := by
  rw [noteStart, State.clu_updClu_same]
  have hcl : ∀ (c : Bool) (t : State), (if c then collMismatch t k else t).cl = t.cl := by
    intro c t
    cases c
    · rfl
    · exact collMismatch_cl t k
  rw [clu_of_cl (hcl _ _)]
  rfl

theorem advance_colls_pc {k j : Cluster} (hsrc : j.src = k.src) (hpc : j.pc = k.pc) (hblocks : j.blocks = k.blocks) :
    (advance j).colls = j.colls ∧ (advance j).pc = (advance k).pc := by
  rw [advance_of_point hsrc hpc hblocks]
  exact ⟨rfl, rfl⟩

/-- A cluster that joins a context and goes on has the tuple among its collectives. -/
theorem joinCtx_clu (s : State) (k : CollKey) (op q addr : Nat) :
    (advance ((joinCtx s k op q addr).clu q)).colls = (s.clu q).colls ++ [k]
    ∧ (advance ((joinCtx s k op q addr).clu q)).pc = (advance (s.clu q)).pc := by
  have hsends := (takeEarly_sends (noteStart s k op q addr) k).trans (giveScalar_sends _ k)
  rw [joinCtx_eq]
  rcases hsends.clu q with h | h
  · rw [h, noteStart_clu]
    exact advance_colls_pc rfl rfl rfl
  · rw [h, noteStart_clu]
    exact advance_colls_pc rfl rfl rfl
end Sys2Proof.Machine

namespace Sys2Proof.Machine
open Sys2Proof

/-! ### What a start leaves in its context (R318) -/

theorem ctxAt_updCtx (s : State) (k : CollKey) {f : Ctx → Ctx} (h : ∀ x, (f x).key = x.key) :
    (s.updCtx k f).ctxAt k = (s.ctxAt k).map f := by
  have hkey : ∀ x : Ctx, ((if x.key == k then f x else x).key == k) = (x.key == k) := by
    intro x
    split
    · rw [h]
    · rfl
  have hfind : ∀ l : List Ctx, (l.map fun x => if x.key == k then f x else x).find? (·.key == k)
      = (l.find? (·.key == k)).map f := by
    intro l
    induction l with
    | nil => rfl
    | cons x l ih =>
      rw [List.map_cons, List.find?_cons, List.find?_cons, hkey, ih]
      split
      · next hx => simp [hx]
      · rfl
  exact hfind s.coll.ctx

/-- The context of tuple `k` keeps its operation and its starts, and no injection has come. -/
structure CtxFrame (k : CollKey) (s t : State) : Prop where
  guard : t.guard = s.guard
  ctx : (t.ctxAt k).map (fun x => (x.op, x.starts)) = (s.ctxAt k).map fun x => (x.op, x.starts)

theorem CtxFrame.refl (k : CollKey) (s : State) : CtxFrame k s s := ⟨rfl, rfl⟩
theorem CtxFrame.trans {k : CollKey} {s t u : State} (h : CtxFrame k s t) (j : CtxFrame k t u) : CtxFrame k s u :=
  ⟨j.guard.trans h.guard, j.ctx.trans h.ctx⟩
theorem CtxFrame.ite {k : CollKey} {s t u : State} {c : Prop} [Decidable c] (h : CtxFrame k s t) (j : CtxFrame k s u) :
    CtxFrame k s (if c then t else u) := by
  split
  · exact h
  · exact j
theorem NetFrame.ctx {s t : State} (h : NetFrame s t) (k : CollKey) : CtxFrame k s t := by
  refine ⟨h.guard, ?_⟩
  rw [State.ctxAt, h.coll]
  rfl

theorem updCtx_ctx (s : State) (k : CollKey) {f : Ctx → Ctx} (hkey : ∀ x, (f x).key = x.key) (hop : ∀ x, (f x).op = x.op)
    (hstarts : ∀ x, (f x).starts = x.starts) : CtxFrame k s (s.updCtx k f) := by
  refine ⟨rfl, ?_⟩
  rw [ctxAt_updCtx s k hkey, Option.map_map]
  congr 1
  funext x
  exact Prod.ext (hop x) (hstarts x)

/-- A quiet state whose context of `k`, if any, is of a barrier or an all-reduce. -/
structure Scalar (k : CollKey) (s : State) : Prop where
  quiet : s.guard.armed = []
  op : ∀ x, s.ctxAt k = some x → x.op = some 0 ∨ x.op = some 1

theorem Scalar.frame {k : CollKey} {s t : State} (h : Scalar k s) (hf : CtxFrame k s t) : Scalar k t := by
  refine ⟨by rw [hf.guard, h.quiet], fun y hy => ?_⟩
  have hctx := hf.ctx
  rw [hy] at hctx
  obtain ⟨x, hx, hop⟩ := Option.map_eq_some_iff.mp hctx.symm
  rw [← (Prod.mk.injEq ..).mp hop |>.1]
  exact h.op x hx

theorem Scalar.not_press {k : CollKey} {s : State} (h : Scalar k s) {x : Ctx} (hx : s.ctxAt k = some x) (b : CollBlk) :
    blkPress (x.op.getD 0).toNat b = false := by
  rcases h.op x hx with hop | hop
  · rw [hop]
    simp [blkPress]
  · rw [hop]
    simp [blkPress]

/-! ### The injection of packets where nothing is armed (R273) -/

theorem NetFrame.foldl_quiet {β : Type} {f : State → β → State} (h : ∀ s b, s.guard.armed = [] → NetFrame s (f s b))
    (l : List β) (s : State) (hs : s.guard.armed = []) : NetFrame s (l.foldl f s) := by
  induction l generalizing s with
  | nil => exact .refl s
  | cons b l ih => exact (h s b hs).trans (ih _ (by rw [(h s b hs).guard, hs]))

theorem meetLink_quiet {s : State} (h : s.guard.armed = []) (l : Nat) (p : Packet) : meetLink s l p = (s, false) := by
  rw [meetLink, detect_quiet h, if_neg Bool.false_ne_true, id, detect_quiet h, if_neg Bool.false_ne_true, id, takeInject_quiet h]

theorem queueOut_net {s : State} (h : s.guard.armed = []) (ply : Nat) (p : Packet) (d : Nat) (plus : Bool) :
    NetFrame s (queueOut s ply p d plus) := by
  rw [queueOut, meetLink_quiet h]
  exact .ite (updLink_net ..) (discardAt_net ..)

theorem inject_net {s : State} (h : s.guard.armed = []) (ply : Nat) (p : Packet) : NetFrame s (inject s ply p) := by
  rw [inject]
  dsimp only
  generalize ht : (if p.cls = 0 ∨ p.cls = 1 then _ else s) = t
  have hsent : NetFrame s t := by
    subst ht
    exact .ite ⟨rfl, rfl, rfl, rfl, rfl, rfl⟩ (.refl s)
  have hquiet : t.guard.armed = [] := by rw [hsent.guard, h]
  refine hsent.trans ?_
  rw [meetHeader, detect_quiet hquiet]
  refine .ite (badPacket_net ..) ?_
  split
  · exact (NetFrame.foldl_quiet (fun _ _ hs => queueOut_net hs ..) _ t hquiet).trans (.ite (arrive_net ..) (.refl _))
  · split
    · exact arrive_net ..
    · exact queueOut_net hquiet ..

theorem sendRelease_net {s : State} (h : s.guard.armed = []) (x : Ctx) (vals : List (Word × Bool)) :
    NetFrame s (sendRelease s x vals) :=
  .foldl_quiet (fun t _ ht => .ite (.refl t) (inject_net ht ..)) _ s h

theorem sendUp_net {s : State} (h : s.guard.armed = []) (x : Ctx) (n : Node) (lv dest : Nat) (v : List (Word × Bool)) :
    NetFrame s (sendUp s x n lv dest v) := by
  rw [sendUp]
  dsimp only
  split
  · exact .foldl_quiet (fun _ _ ht => inject_net ht ..) _ s h
  · exact inject_net h ..
  · exact inject_net h ..

/-! ### A barrier or an all-reduce advances (R325–R327) -/

theorem setResult_ctx {s : State} {k : CollKey} (h : Scalar k s) (vals : List (Word × Bool)) :
    CtxFrame k s (setResult s k vals) := by
  rw [setResult]
  split
  · exact .refl k s
  · next x hx =>
    rw [h.not_press hx, if_neg Bool.false_ne_true]
    split
    · exact .refl k s
    · exact ((sendRelease_net h.quiet ..).ctx k).trans (updCtx_ctx _ k (fun _ => rfl) (fun _ => rfl) fun _ => rfl)

theorem finalNode_ctx {s : State} {k : CollKey} (h : Scalar k s) (n : Node) (v : List (Word × Bool)) :
    CtxFrame k s (finalNode s k n v) := by
  rw [finalNode]
  split
  · exact updCtx_ctx s k (fun _ => rfl) (fun _ => rfl) fun _ => rfl
  · exact setResult_ctx h _
  · exact setResult_ctx h _

theorem foldLate_scalar {s : State} {k : CollKey} (h : Scalar k s) {x : Ctx} (hx : s.ctxAt k = some x) (n : Node)
    (v : List (Word × Bool)) : foldLate s x n v = (s, v) := by
  rw [foldLate]
  dsimp only
  rw [h.not_press hx, if_neg fun hc => Bool.false_ne_true hc.2.1]

theorem nodeAdvance_ctx {k : CollKey} : ∀ (f : Nat) {s : State} (i : Nat), Scalar k s → CtxFrame k s (nodeAdvance f s k i)
  | 0, s, _, _ => .refl k s
  | f + 1, s, i, h => by
    have hset : ∀ g, CtxFrame k s (s.updCtx k fun x => { x with nodes := alter x.nodes i g }) := fun g =>
      updCtx_ctx s k (fun _ => rfl) (fun _ => rfl) fun _ => rfl
    rw [nodeAdvance]
    split
    · exact .refl k s
    · next x hx =>
      split
      · exact .refl k s
      · split
        · exact .refl k s
        · dsimp only
          rw [foldLate_scalar h hx]
          refine .ite (.refl k s) (.ite (.ite ?_ (.refl k s)) (.ite ?_ (.ite (.refl k s) ?_)))
          · exact (hset _).trans (nodeAdvance_ctx f i (h.frame (hset _)))
          · exact (hset _).trans (finalNode_ctx (h.frame (hset _)) ..)
          · exact (hset _).trans ((sendUp_net (h.frame (hset _)).quiet ..).ctx k)

theorem advanceAll_ctx {k : CollKey} {s : State} (h : Scalar k s) : CtxFrame k s (advanceAll s k) := by
  have hfold : ∀ (l : List Nat) (s : State), Scalar k s → CtxFrame k s (l.foldl (fun s i => nodeAdvance 5 s k i) s) := by
    intro l
    induction l with
    | nil => exact fun s _ => .refl k s
    | cons i l ih => exact fun s hs => (nodeAdvance_ctx 5 i hs).trans (ih _ (hs.frame (nodeAdvance_ctx 5 i hs)))
  rw [advanceAll]
  split
  · exact .refl k s
  · exact hfold _ s h

theorem putNode_keeps (x : Ctx) (tag shard chunk : Nat) (f : Node → Node) :
    (putNode x tag shard chunk f).key = x.key ∧ (putNode x tag shard chunk f).op = x.op
    ∧ (putNode x tag shard chunk f).starts = x.starts := by
  rw [putNode]
  dsimp only
  split
  · exact ⟨rfl, rfl, rfl⟩
  · exact ⟨rfl, rfl, rfl⟩

theorem giveScalar_ctx {s : State} (k : CollKey) (h : s.guard.armed = []) : CtxFrame k s (giveScalar s k) := by
  rw [giveScalar]
  split
  · exact .refl k s
  · next x hx =>
    split
    · next hop =>
      have hscalar : Scalar k s := by
        refine ⟨h, fun y hy => ?_⟩
        obtain rfl := (Option.some.injEq ..).mp (hx.symm.trans hy)
        simp only [Bool.or_eq_true, beq_iff_eq, Bool.and_eq_true] at hop
        exact hop.imp_right And.left
      dsimp only
      generalize List.foldl _ x.die (List.range 8) = dies
      have hdies : CtxFrame k s (s.updCtx k fun x => { x with die := dies }) :=
        updCtx_ctx s k (fun _ => rfl) (fun _ => rfl) fun _ => rfl
      refine .ite (hdies.trans ?_) hdies
      have hown := updCtx_ctx (s.updCtx k fun x => { x with die := dies }) k (f := fun y => giveOwn y 0 0 0 (packageStage y))
        (fun y => (putNode_keeps y ..).1) (fun y => (putNode_keeps y ..).2.1) fun y => (putNode_keeps y ..).2.2
      exact hown.trans (advanceAll_ctx ((hscalar.frame hdies).frame hown))
    · exact .refl k s

/-- A context in which no message waits takes none. -/
theorem takeEarly_ctx {s : State} {k : CollKey} {x : Ctx} (hx : s.ctxAt k = some x) (hearly : x.early = []) :
    CtxFrame k s (takeEarly s k) := by
  rw [takeEarly, hx]
  dsimp only
  rw [hearly]
  exact .ite (updCtx_ctx s k (fun _ => rfl) (fun _ => rfl) fun _ => rfl) (.refl k s)

/-- A mismatch keeps what a context holds but for its marks. -/
theorem collMismatch_ctx (s : State) (k : CollKey) : (collMismatch s k).guard = s.guard
    ∧ (collMismatch s k).ctxAt k = (s.ctxAt k).map fun x => { x with mismatch := true, stained := true } := by
  rw [collMismatch]
  split
  · next hx => exact ⟨rfl, by rw [hx]; rfl⟩
  · next x hx =>
    have hmark := ctxAt_updCtx s k (f := fun x => { x with mismatch := true, stained := true }) fun _ => rfl
    dsimp only
    split
    · exact ⟨rfl, hmark⟩
    · have hraise := fun t e => raise_net t e
      refine ⟨(hraise _ _).guard, ?_⟩
      rw [State.ctxAt, (hraise _ _).coll]
      exact hmark

theorem noteStart_ctx {s : State} {k : CollKey} {x : Ctx} (op q addr : Nat) (hx : s.ctxAt k = some x) :
    (noteStart s k op q addr).guard = s.guard ∧ ∃ y, (noteStart s k op q addr).ctxAt k = some y ∧ y.early = x.early
      ∧ y.op.isSome = true ∧ y.starts = x.starts ++ [{ clu := q, addr := BitVec.ofNat 64 addr }] := by
  have hjoin : (s.updCtx k (withStart op q addr)).ctxAt k = some (withStart op q addr x) := by
    rw [ctxAt_updCtx s k (f := withStart op q addr) fun _ => rfl, hx]
    rfl
  have hguard : (s.updCtx k (withStart op q addr)).guard = s.guard := rfl
  unfold noteStart
  generalize s.updCtx k (withStart op q addr) = t at hjoin hguard ⊢
  obtain ⟨mguard, mctx⟩ := collMismatch_ctx t k
  rw [hjoin] at mctx
  have hmark : ∀ c : Bool, (if c then collMismatch t k else t).guard = s.guard ∧ ∃ y,
      (if c then collMismatch t k else t).ctxAt k = some y ∧ y.early = x.early ∧ y.op.isSome = true
      ∧ y.starts = x.starts ++ [{ clu := q, addr := BitVec.ofNat 64 addr }] := by
    intro c
    cases c
    · exact ⟨hguard, _, hjoin, rfl, rfl, rfl⟩
    · exact ⟨mguard.trans hguard, _, mctx, rfl, rfl, rfl⟩
  exact hmark _

/-- A start in a context where no message waits stands among its starts. -/
theorem joinCtx_ctx {s : State} {k : CollKey} {x : Ctx} (op q addr : Nat) (hq : s.guard.armed = [])
    (hx : s.ctxAt k = some x) (hearly : x.early = []) :
    ∃ y, (joinCtx s k op q addr).ctxAt k = some y ∧ y.op.isSome = true
      ∧ ∃ st ∈ y.starts, st.clu = q ∧ st.addr = BitVec.ofNat 64 addr := by
  obtain ⟨hguard, y, hy, yearly, yop, ystarts⟩ := noteStart_ctx op q addr hx
  have htaken := takeEarly_ctx hy (yearly.trans hearly)
  have hframe := htaken.trans (giveScalar_ctx k (by rw [htaken.guard, hguard, hq]))
  have hctx := hframe.ctx
  rw [hy] at hctx
  obtain ⟨z, hz, heq⟩ := Option.map_eq_some_iff.mp hctx
  obtain ⟨zop, zstarts⟩ := (Prod.mk.injEq ..).mp heq
  rw [joinCtx_eq]
  exact ⟨z, hz, by rw [zop, yop], _, by rw [zstarts, ystarts]; exact List.mem_append_right _ (List.mem_singleton_self _), rfl, rfl⟩

/-! ### `CSTART` and `CWAIT` (R132, R315, R318) -/

theorem cluStop_clu (s : State) (q : Nat) (y : StopWhy) : OnlySends s (cluStop s q y) ∧ LatchGrows s (cluStop s q y) := by
  rw [cluStop]
  split
  · exact ⟨jobStop_sends .., jobStop_grows ..⟩
  · exact ⟨.refl s, .refl s⟩

/-- A refused start halts its cluster at its word. -/
theorem refuseStart_halts (s : State) (q detail : Nat) : ((refuseStart s q detail).clu q).halted = true
    ∧ ((refuseStart s q detail).clu q).pc = (s.clu q).pc ∧ 0x30 ∈ (refuseStart s q detail).irq.latch := by
  have hlatch : 0x30 ∈ (raiseSeq s q evCollBadcomm 2 detail).irq.latch :=
    raise_latch _ _ rfl (show evCollBadcomm ≠ evGctStep by decide)
  have hclu : (raiseSeq s q evCollBadcomm 2 detail).clu q = s.clu q := clu_of_cl (raise_frame ..).cl q
  rw [refuseStart, haltStop]
  generalize raiseSeq s q evCollBadcomm 2 detail = t at hlatch hclu ⊢
  obtain ⟨hsends, hgrows⟩ := cluStop_clu (t.updClu q fun k => { k with halted := true }) q { cause := 4, cls := evCollBadcomm }
  refine ⟨?_, ?_, hgrows.mem _ hlatch⟩
  · rcases hsends.clu q with h | h
    · rw [h, State.clu_updClu_same]
    · rw [h, State.clu_updClu_same]
  · rcases hsends.clu q with h | h
    · rw [h, State.clu_updClu_same, hclu]
    · rw [h, State.clu_updClu_same, hclu]

theorem Issues.quiet {s : State} {q : Cl} {op : Nat} {w : BitVec 120} (h : Issues s q op w) : s.guard.armed = [] := by
  obtain ⟨-, -, -, -, -, hquiet⟩ := h
  exact hquiet

theorem meetTuple_quiet {s : State} (h : s.guard.armed = []) (q : Nat) (k : CollKey) (g : State → Did) :
    meetTuple s q k g = g s := by
  rw [meetTuple, takeInject_quiet h]

theorem meetWait_quiet {s : State} (h : s.guard.armed = []) (q : Nat) : meetWait s q = s := by
  rw [meetWait, detect_quiet h, if_neg Bool.false_ne_true, id]

/-- The cases of R315 at a `CSTART`. -/
def startRefused (s : State) (q : Nat) (k : CollKey) : Bool :=
  tupleRefused s q k || decide (256 ≤ (k.seq - (recOf s k).doneBase).toNat) || (s.clu q).colls.contains k

theorem startRefused_eq_true {s : State} {q : Nat} {k : CollKey} : startRefused s q k = true ↔
    tupleRefused s q k = true ∨ 256 ≤ (k.seq - (recOf s k).doneBase).toNat ∨ (s.clu q).colls.contains k = true := by
  simp [startRefused, or_assoc]

theorem startRefused_eq_false {s : State} {q : Nat} {k : CollKey} : startRefused s q k = false ↔
    tupleRefused s q k = false ∧ (k.seq - (recOf s k).doneBase).toNat < 256 ∧ (s.clu q).colls.contains k = false := by
  simp [startRefused, and_assoc]

theorem cstart_earlier {s : State} {op q n : Nat} (hop : fSub n % 16 = op)
    (hout : outDone (s.clu q) (s.clu q).nextId = false) : cstart op q n s = .stall s 3 := by
  simp only [cstart, hop, hout, ne_eq, not_true_eq_false, if_false, Bool.not_false, if_true]

/-- A start whose earlier writes are done meets its tuple. -/
theorem cstart_meets {s : State} {op q n : Nat} (hq : s.guard.armed = []) (hop : fSub n % 16 = op)
    (hout : outDone (s.clu q) (s.clu q).nextId = true) :
    cstart op q n s =
      let k := tupleOf (sReg (s.clu q) (fRa n))
      if startRefused s q k then .halt (refuseStart s q (tupleNat k))
      else if 16 ≤ (s.clu q).colls.length then .stall s 4
      else if (s.ctxAt k).isSome then .go (joinCtx s k op q (sReg (s.clu q) (fRb n)))
      else if 256 ≤ s.coll.ctx.length then .stall { s with coll := { s.coll with exhaust := true } } 4
      else .go (joinCtx (newCtx s { key := k }) k op q (sReg (s.clu q) (fRb n))) := by
  simp only [cstart, hop, hout, ne_eq, not_true_eq_false, if_false, Bool.not_true, Bool.false_eq_true, meetTuple_quiet hq,
    meetWait_quiet hq, startRefused]

theorem newCtx_ctxAt {s : State} {k : CollKey} (h : s.ctxAt k = none) :
    (newCtx s { key := k }).ctxAt k = some ({ key := k } : Ctx) := by
  have hnew : (newCtx s { key := k }).ctxAt k = (s.coll.ctx ++ [({ key := k } : Ctx)]).find? (·.key == k) := rfl
  have hold : s.coll.ctx.find? (·.key == k) = none := h
  rw [hnew, List.find?_append, hold]
  simp

/-- A word that goes on once its cluster has joined a context. -/
theorem seqOp_joins {s u : State} {q : Cl} {w : BitVec 120} {op addr : Nat} {k : CollKey} (h : Issues s q 0x67 w)
    (hclu : u.clu q.val = s.clu q.val) (hq : u.guard.armed = [])
    (hbody : cstart op q.val (wordOf 0x67 w) s = .go (joinCtx u k op q.val addr)) :
    ∃ t, seqOp 0x67 q w (cstart op) s = .next t ∧ (t.clu q.val).colls = (s.clu q.val).colls ++ [k]
      ∧ (t.clu q.val).pc = (advance (s.clu q.val)).pc
      ∧ ∀ x, u.ctxAt k = some x → x.early = [] → ∃ y, t.ctxAt k = some y ∧ y.op.isSome = true
          ∧ ∃ st ∈ y.starts, st.clu = q.val ∧ st.addr = BitVec.ofNat 64 addr := by
  obtain ⟨hcolls, hpc⟩ := joinCtx_clu u k op q.val addr
  rw [hclu] at hcolls hpc
  refine ⟨_, seqOp_issues _ h, ?_⟩
  rw [hbody, settle_go, State.clu_updClu_same]
  exact ⟨hcolls, hpc, fun x hx hearly => joinCtx_ctx op q.val addr hq hx hearly⟩

/-- A start that finds room and a context joins it. -/
theorem cstart_joins {s : State} {q : Cl} {w : BitVec 120} {op : Nat} {k : CollKey} (h : Issues s q 0x67 w)
    (hk : tupleOf (sReg (s.clu q.val) (fRa (wordOf 0x67 w))) = k) (hop : fSub (wordOf 0x67 w) % 16 = op)
    (hout : outDone (s.clu q.val) (s.clu q.val).nextId = true) (hfree : startRefused s q.val k = false)
    (hroom : (s.clu q.val).colls.length < 16) (hctx : (s.ctxAt k).isSome = true ∨ s.coll.ctx.length < 256) :
    ∃ t, seqOp 0x67 q w (cstart op) s = .next t ∧ (t.clu q.val).colls = (s.clu q.val).colls ++ [k]
      ∧ (t.clu q.val).pc = (advance (s.clu q.val)).pc
      ∧ ((∀ x, s.ctxAt k = some x → x.early = []) → ∃ x, t.ctxAt k = some x ∧ x.op.isSome = true
          ∧ ∃ st ∈ x.starts, st.clu = q.val ∧ st.addr = sVal (s.clu q.val) (fRb (wordOf 0x67 w))) := by
  have hquiet : s.guard.armed = [] := h.quiet
  have hbody := cstart_meets hquiet hop hout
  rw [hk] at hbody
  dsimp only at hbody
  rw [hfree, if_neg Bool.false_ne_true, if_neg (by omega)] at hbody
  cases hx : s.ctxAt k with
  | some x =>
    rw [hx, if_pos Option.isSome_some] at hbody
    obtain ⟨t, ht, hcolls, hpc, hjoin⟩ := seqOp_joins h rfl hquiet hbody
    exact ⟨t, ht, hcolls, hpc, fun hearly => hjoin x hx (hearly x rfl)⟩
  | none =>
    rw [hx] at hbody hctx
    have hlen : s.coll.ctx.length < 256 := hctx.resolve_left (by decide)
    rw [if_neg (by decide), if_neg (by omega)] at hbody
    obtain ⟨t, ht, hcolls, hpc, hjoin⟩ := seqOp_joins (u := newCtx s { key := k }) h rfl hquiet hbody
    exact ⟨t, ht, hcolls, hpc, fun _ => hjoin _ (newCtx_ctxAt hx) rfl⟩

theorem cstart_full {s : State} {q : Cl} {w : BitVec 120} {op : Nat} {k : CollKey} (h : Issues s q 0x67 w)
    (hk : tupleOf (sReg (s.clu q.val) (fRa (wordOf 0x67 w))) = k) (hop : fSub (wordOf 0x67 w) % 16 = op)
    (hout : outDone (s.clu q.val) (s.clu q.val).nextId = true) (hfree : startRefused s q.val k = false)
    (hfull : 16 ≤ (s.clu q.val).colls.length) :
    ∃ t, seqOp 0x67 q w (cstart op) s = .next t ∧ OnlyCluster s t q.val
      ∧ t.clu q.val = { s.clu q.val with state := 4, stall := (s.clu q.val).stall + 1 } := by
  refine seqOp_stall (n := 4) h ?_
  rw [cstart_meets h.quiet hop hout, hk]
  dsimp only
  rw [hfree, if_neg Bool.false_ne_true, if_pos hfull]

theorem cstart_exhausts {s : State} {q : Cl} {w : BitVec 120} {op : Nat} {k : CollKey} (h : Issues s q 0x67 w)
    (hk : tupleOf (sReg (s.clu q.val) (fRa (wordOf 0x67 w))) = k) (hop : fSub (wordOf 0x67 w) % 16 = op)
    (hout : outDone (s.clu q.val) (s.clu q.val).nextId = true) (hfree : startRefused s q.val k = false)
    (hroom : (s.clu q.val).colls.length < 16) (hctx : s.ctxAt k = none) (hnone : 256 ≤ s.coll.ctx.length) :
    ∃ t, seqOp 0x67 q w (cstart op) s = .next t
      ∧ t = { s with cl := t.cl, coll := { s.coll with exhaust := true } } ∧ (∀ p, p ≠ q.val → t.clu p = s.clu p)
      ∧ t.clu q.val = { s.clu q.val with state := 4, stall := (s.clu q.val).stall + 1 } := by
  have hbody : cstart op q.val (wordOf 0x67 w) s = .stall { s with coll := { s.coll with exhaust := true } } 4 := by
    rw [cstart_meets h.quiet hop hout, hk]
    dsimp only
    rw [hfree, if_neg Bool.false_ne_true, if_neg (by omega), hctx, if_neg (by decide), if_pos hnone]
  refine ⟨_, seqOp_issues _ h, ?_⟩
  rw [hbody, settle_stall]
  exact ⟨rfl, fun p hp => State.clu_updClu_other _ _ _ _ hp, State.clu_updClu_same ..⟩

theorem cstart_refuses {s : State} {q : Cl} {w : BitVec 120} {op : Nat} {k : CollKey} (h : Issues s q 0x67 w)
    (hk : tupleOf (sReg (s.clu q.val) (fRa (wordOf 0x67 w))) = k) (hop : fSub (wordOf 0x67 w) % 16 = op)
    (hout : outDone (s.clu q.val) (s.clu q.val).nextId = true) (href : startRefused s q.val k = true) :
    ∃ t, seqOp 0x67 q w (cstart op) s = .next t ∧ (t.clu q.val).halted = true ∧ (t.clu q.val).pc = (s.clu q.val).pc
      ∧ 0x30 ∈ t.irq.latch := by
  refine ⟨_, seqOp_issues _ h, ?_⟩
  rw [cstart_meets h.quiet hop hout, hk]
  dsimp only
  rw [href, if_pos rfl, settle_halt]
  exact refuseStart_halts ..

/-! ### `CWAIT` (R132, R163) -/

/-- What a `CWAIT` does with its tuple. -/
def cwaitTuple (q n : Nat) (s : State) : Did :=
  let k := tupleOf (sReg (s.clu q) (fRa n))
  meetTuple s q k fun s =>
    if tupleRefused s q k then .halt (refuseStart s q (tupleNat k))
    else if (s.clu q).colls.contains k then .stall s 3
    else .go s

theorem cwaitTuple_quiet {s : State} (hq : s.guard.armed = []) (q n : Nat) : cwaitTuple q n s =
    let k := tupleOf (sReg (s.clu q) (fRa n))
    if tupleRefused s q k then .halt (refuseStart s q (tupleNat k))
    else if (s.clu q).colls.contains k then .stall s 3
    else .go s := by
  rw [cwaitTuple, meetTuple_quiet hq]

/-- Settles O13: a start that stalls, is refused or joins, for each operation alike; then the waits. -/
theorem collectiveStarts : Obligations.CollectiveStarts := by
  intro s q w n k key start waits
  have hwaits : ∀ op c, exec c s = seqOp 0x67 q w (cstart op) s → waits op c := by
    intro op c hc h hop
    rw [hc]
    refine ⟨fun hout => seqOp_stall h (cstart_earlier hop hout), fun hout hok hseq hnew => ?_, fun hout hbad =>
      cstart_refuses h rfl hop hout (startRefused_eq_true.2 hbad)⟩
    have hfree : startRefused s q.val key = false := startRefused_eq_false.2 ⟨hok, hseq, hnew⟩
    exact ⟨cstart_full h rfl hop hout hfree, cstart_exhausts h rfl hop hout hfree⟩
  have hstart : ∀ op c, exec c s = seqOp 0x67 q w (cstart op) s → start op c := by
    intro op c hc h hop hout hok hseq hnew hroom hctx
    rw [hc]
    exact cstart_joins h rfl hop hout (startRefused_eq_false.2 ⟨hok, hseq, hnew⟩) hroom hctx
  refine ⟨⟨hwaits 0 _ rfl, hwaits 1 _ rfl, hwaits 2 _ rfl, hwaits 3 _ rfl, hwaits 4 _ rfl, hwaits 5 _ rfl⟩,
    ⟨hstart 0 _ rfl, hstart 1 _ rfl, hstart 2 _ rfl, hstart 3 _ rfl, hstart 4 _ rfl, hstart 5 _ rfl⟩,
    fun h hok => ⟨fun hnew => ?_, fun hold => ?_⟩, fun h hbad => ?_⟩
  · change ∃ t, seqOp 0x68 q w cwaitTuple s = .next t ∧ _
    refine seqOp_pass h ?_
    rw [cwaitTuple_quiet h.quiet]
    dsimp only
    rw [hok, hnew, if_neg Bool.false_ne_true, if_neg Bool.false_ne_true]
  · change ∃ t, seqOp 0x68 q w cwaitTuple s = .next t ∧ _
    refine seqOp_stall (n := 3) h ?_
    rw [cwaitTuple_quiet h.quiet]
    dsimp only
    rw [hok, hold, if_neg Bool.false_ne_true, if_pos rfl]
  · refine ⟨_, seqOp_issues cwaitTuple h, ?_⟩
    rw [cwaitTuple_quiet h.quiet]
    dsimp only
    rw [hbad, if_pos rfl, settle_halt]
    exact refuseStart_halts ..
end Sys2Proof.Machine

namespace Sys2Proof.Machine
open Sys2Proof

/-! ### The field of the Reed–Solomon codes (R208)

A product by a power of α is repeated doubling, so products of powers add their exponents; every element but 0 is
a power of α, so the laws of the field that the decoder needs follow from sums of exponents. -/

theorem zero_xor_byte (a : Byte) : 0 ^^^ a = a := BitVec.zero_xor

theorem xor_zero_byte (a : Byte) : a ^^^ 0 = a := BitVec.xor_zero

theorem gfDouble_xor (a b : Byte) : gfDouble (a ^^^ b) = gfDouble a ^^^ gfDouble b := by
  unfold gfDouble
  rw [BitVec.msb_xor, BitVec.shiftLeft_xor_distrib]
  cases a.msb <;> cases b.msb <;> simp only [Bool.xor_true, Bool.xor_false, Bool.not_true, Bool.not_false, if_true,
    if_false, Bool.false_eq_true]
  · ac_rfl
  · ac_rfl
  · rw [show ∀ x y z : Byte, x ^^^ z ^^^ (y ^^^ z) = x ^^^ y ^^^ (z ^^^ z) from fun x y z => by ac_rfl,
      BitVec.xor_self, BitVec.xor_zero]

theorem ite_xor_xor (p q : Bool) (x y a : Byte) :
    (if (p ^^ q) = true then x ^^^ y ^^^ a else x ^^^ y)
      = (if p = true then x ^^^ a else x) ^^^ (if q = true then y ^^^ a else y) := by
  cases p <;> cases q <;> simp only [Bool.xor_true, Bool.xor_false, Bool.not_true, Bool.not_false, if_true,
    if_false, Bool.false_eq_true]
  · ac_rfl
  · ac_rfl
  · rw [show x ^^^ a ^^^ (y ^^^ a) = x ^^^ y ^^^ (a ^^^ a) by ac_rfl, BitVec.xor_self, BitVec.xor_zero]

theorem gfMulAux_xor : ∀ (n : Nat) (a b c x y : Byte),
    gfMulAux n a (b ^^^ c) (x ^^^ y) = gfMulAux n a b x ^^^ gfMulAux n a c y
  | 0, _, _, _, _, _ => rfl
  | n + 1, a, b, c, x, y => by
    rw [gfMulAux, gfMulAux, gfMulAux, ← gfMulAux_xor n, BitVec.ushiftRight_xor_distrib, BitVec.getLsbD_xor,
      ite_xor_xor]

theorem gfMul_xor (a b c : Byte) : gfMul a (b ^^^ c) = gfMul a b ^^^ gfMul a c := gfMulAux_xor 8 a b c 0 0

theorem gfMulAux_xor_left : ∀ (n : Nat) (a b c x y : Byte),
    gfMulAux n (a ^^^ b) c (x ^^^ y) = gfMulAux n a c x ^^^ gfMulAux n b c y
  | 0, _, _, _, _, _ => rfl
  | n + 1, a, b, c, x, y => by
    rw [gfMulAux, gfMulAux, gfMulAux, ← gfMulAux_xor_left n, gfDouble_xor]
    congr 1
    split
    · ac_rfl
    · rfl

theorem gfMul_xor_left (a b c : Byte) : gfMul (a ^^^ b) c = gfMul a c ^^^ gfMul b c := gfMulAux_xor_left 8 a b c 0 0

theorem gfMulAux_double : ∀ (n : Nat) (a b x : Byte), gfMulAux n (gfDouble a) b (gfDouble x) = gfDouble (gfMulAux n a b x)
  | 0, _, _, _ => rfl
  | n + 1, a, b, x => by
    rw [gfMulAux, gfMulAux, ← gfMulAux_double n, ← gfDouble_xor, apply_ite gfDouble]

theorem gfMul_double (a b : Byte) : gfMul (gfDouble a) b = gfDouble (gfMul a b) := gfMulAux_double 8 a b 0

theorem gfMul_zero (a : Byte) : gfMul a 0 = 0 := by
  have h := gfMul_xor a 0 0
  rw [xor_zero_byte] at h
  exact h.trans BitVec.xor_self

theorem one_gfMul (b : Byte) : gfMul 1 b = b := by
  revert b
  decide

theorem gfPow_gfMul_assoc (b c : Byte) : ∀ i, gfMul (gfMul (gfPow i) b) c = gfMul (gfPow i) (gfMul b c)
  | 0 => by rw [gfPow, one_gfMul, one_gfMul]
  | i + 1 => by rw [gfPow, gfMul_double, gfMul_double, gfMul_double, gfPow_gfMul_assoc b c i]

theorem gfMul_gfPow (j : Nat) : ∀ i, gfMul (gfPow i) (gfPow j) = gfPow (i + j)
  | 0 => by rw [gfPow, one_gfMul, Nat.zero_add]
  | i + 1 => by rw [gfPow, gfMul_double, gfMul_gfPow j i, Nat.add_right_comm, gfPow]

theorem gfExp_gfPow (i : Nat) : ∀ n, gfExp (gfPow i) n = gfPow (i * n)
  | 0 => rfl
  | n + 1 => by rw [gfExp, gfExp_gfPow i n, gfMul_gfPow, Nat.mul_succ, Nat.add_comm]

theorem gfPow_255 : gfPow 255 = 1 := by decide +kernel

theorem gfPow_mul_255 : ∀ i, gfPow (i * 255) = 1
  | 0 => rfl
  | i + 1 => by rw [Nat.succ_mul, ← gfMul_gfPow, gfPow_mul_255 i, gfPow_255, one_gfMul]

/-! ### Logarithms -/

theorem gfLogFrom_some : ∀ (n k : Nat) (a : Byte) (i : Nat), gfLogFrom n k (gfPow k) a = some i → gfPow i = a
  | 0, _, _, _, h => nomatch h
  | n + 1, k, a, i, h => by
    rw [gfLogFrom] at h
    split at h
    · next ha =>
      obtain rfl := (Option.some.injEq ..).mp h
      exact ha
    · exact gfLogFrom_some n (k + 1) a i h

theorem gfLog_isSome (a : Byte) (h : a ≠ 0) : (gfLog a).isSome = true := by
  revert a
  decide +kernel

/-- Every element but 0 is a power of α. -/
theorem exists_gfPow (a : Byte) (h : a ≠ 0) : ∃ i, gfPow i = a := by
  obtain ⟨i, hi⟩ := Option.isSome_iff_exists.mp (gfLog_isSome a h)
  exact ⟨i, gfLogFrom_some 255 0 a i hi⟩

theorem gfLog_gfPow (p : Nat) (h : p < 36) : gfLog (gfPow p) = some p := by
  revert p
  decide +kernel

theorem gfMul_gfInv (a : Byte) (h : a ≠ 0) : gfMul a (gfInv a) = 1 := by
  obtain ⟨i, rfl⟩ := exists_gfPow a h
  rw [gfInv, gfExp_gfPow, gfMul_gfPow, Nat.add_comm, ← Nat.mul_succ, gfPow_mul_255]

theorem zero_gfMul (a : Byte) : gfMul 0 a = 0 := by
  have h := gfMul_xor_left 0 0 a
  rw [xor_zero_byte] at h
  exact h.trans BitVec.xor_self

theorem gfMul_comm (a b : Byte) : gfMul a b = gfMul b a := by
  by_cases ha : a = 0
  · rw [ha, zero_gfMul, gfMul_zero]
  by_cases hb : b = 0
  · rw [hb, zero_gfMul, gfMul_zero]
  obtain ⟨i, rfl⟩ := exists_gfPow a ha
  obtain ⟨j, rfl⟩ := exists_gfPow b hb
  rw [gfMul_gfPow, gfMul_gfPow, Nat.add_comm]

theorem gfMul_assoc (a b c : Byte) : gfMul (gfMul a b) c = gfMul a (gfMul b c) := by
  by_cases ha : a = 0
  · rw [ha, zero_gfMul, zero_gfMul, zero_gfMul]
  obtain ⟨i, rfl⟩ := exists_gfPow a ha
  exact gfPow_gfMul_assoc b c i

theorem gfMul_left_comm (a b c : Byte) : gfMul a (gfMul b c) = gfMul b (gfMul a c) := by
  rw [← gfMul_assoc, gfMul_comm a, gfMul_assoc]

/-! ### Values of a code word's polynomial -/

theorem gfEval_append (j : Nat) (b : List Byte) : ∀ a : List Byte,
    gfEval (gfPow j) (a ++ b) = gfEval (gfPow j) a ^^^ gfMul (gfPow (j * a.length)) (gfEval (gfPow j) b)
  | [] => by rw [List.nil_append, gfEval, zero_xor_byte, List.length_nil, Nat.mul_zero, gfPow, one_gfMul]
  | c :: a => by
    rw [List.cons_append, gfEval, gfEval, gfEval_append j b a, gfMul_xor, ← gfPow_gfMul_assoc, gfMul_gfPow,
      List.length_cons, Nat.mul_succ, Nat.add_comm, BitVec.xor_assoc]

/-- An error `e` of symbol `p` adds `e` times the `p`-th power to the value. -/
theorem gfEval_fixSym (j : Nat) (e : Byte) : ∀ (w : List Byte) (p : Nat), p < w.length →
    gfEval (gfPow j) (fixSym w p e) = gfEval (gfPow j) w ^^^ gfMul (gfPow (j * p)) e
  | c :: w, 0, _ => by
    rw [Nat.mul_zero, gfPow, one_gfMul]
    change (c ^^^ e) ^^^ _ = (c ^^^ _) ^^^ e
    ac_rfl
  | c :: w, p + 1, h => by
    change c ^^^ gfMul _ (gfEval _ (fixSym w p e)) = (c ^^^ _) ^^^ _
    rw [gfEval_fixSym j e w p (Nat.lt_of_succ_lt_succ h), gfMul_xor, ← gfPow_gfMul_assoc, gfMul_gfPow,
      Nat.mul_succ, Nat.add_comm, BitVec.xor_assoc]

/-! ### The three check symbols of near memory (R208) -/

/-- Lagrange polynomial of check position `i` of a code with `n` check symbols after `k` symbols, as `rsCheck` forms it. -/
def checkPoly (n k i : Nat) : List Byte :=
  (((List.range n).filter (· != i)).map fun l => ((List.range n).map fun i => gfPow (k + i)).getD l 0).foldl
    (fun p x => List.zipWith (· ^^^ ·) (0 :: p) ((p.map (gfMul x)) ++ [0])) [1]

/-- Its denominator. -/
def checkDen (n k i : Nat) : Byte :=
  (((List.range n).filter (· != i)).map fun l => ((List.range n).map fun i => gfPow (k + i)).getD l 0).foldl
    (fun d x => gfMul d (((List.range n).map fun i => gfPow (k + i)).getD i 0 ^^^ x)) 1

/-- Check symbol of the coefficients `p` and the inverse `d` for three syndromes. -/
def checkSym (p : List Byte) (d s0 s1 s2 : Byte) : Byte :=
  gfMul ((List.zipWith gfMul p [s0, s1, s2]).foldl (· ^^^ ·) 0) d

/-- The check symbols of 33 symbols with the syndromes given. -/
def nmChecks (s0 s1 s2 : Byte) : List Byte :=
  [checkSym [47, 210, 1] 62 s0 s1 s2, checkSym [153, 187, 1] 33 s0 s1 s2, checkSym [194, 105, 1] 31 s0 s1 s2]

theorem rsCheck_eq_map (n : Nat) (d : List Byte) : rsCheck n d = (List.range n).map fun i =>
    gfMul ((List.zipWith gfMul (checkPoly n d.length i) (syndromes n d)).foldl (· ^^^ ·) 0)
      (gfInv (checkDen n d.length i)) := rfl

theorem checkPoly_checkDen_near : (List.range 3).map (fun i => (checkPoly 3 33 i, gfInv (checkDen 3 33 i)))
    = [([47, 210, 1], 62), ([153, 187, 1], 33), ([194, 105, 1], 31)] := by decide +kernel

theorem rsCheck_near (d : List Byte) (h : d.length = 33) :
    rsCheck 3 d = nmChecks (gfEval (gfPow 0) d) (gfEval (gfPow 1) d) (gfEval (gfPow 2) d) := by
  rw [rsCheck_eq_map, h]
  calc _ = ((List.range 3).map fun i => (checkPoly 3 33 i, gfInv (checkDen 3 33 i))).map
        fun x => gfMul ((List.zipWith gfMul x.1 (syndromes 3 d)).foldl (· ^^^ ·) 0) x.2 := List.map_map.symm
    _ = _ := by rw [checkPoly_checkDen_near]; rfl

theorem checkSym_xor (a b c : Byte) (d s0 s1 s2 r0 r1 r2 : Byte) :
    checkSym [a, b, c] d (s0 ^^^ r0) (s1 ^^^ r1) (s2 ^^^ r2)
      = checkSym [a, b, c] d s0 s1 s2 ^^^ checkSym [a, b, c] d r0 r1 r2 := by
  simp only [checkSym, List.zipWith, List.foldl, gfMul_xor, gfMul_xor_left, zero_xor_byte]
  ac_rfl

/-- What three check symbols add to the value at α^j. -/
def checkVal (j : Nat) (s0 s1 s2 : Byte) : Byte := gfMul (gfPow (j * 33)) (gfEval (gfPow j) (nmChecks s0 s1 s2))

theorem checkVal_xor (j : Nat) (s0 s1 s2 r0 r1 r2 : Byte) :
    checkVal j (s0 ^^^ r0) (s1 ^^^ r1) (s2 ^^^ r2) = checkVal j s0 s1 s2 ^^^ checkVal j r0 r1 r2 := by
  simp only [checkVal, nmChecks, gfEval, checkSym_xor, gfMul_xor, gfMul_zero, xor_zero_byte]
  ac_rfl

theorem checkSym_scale (a b c d s0 s1 s2 x : Byte) :
    checkSym [a, b, c] d (gfMul x s0) (gfMul x s1) (gfMul x s2) = gfMul x (checkSym [a, b, c] d s0 s1 s2) := by
  simp only [checkSym, List.zipWith, List.foldl, gfMul_left_comm _ x, ← gfMul_xor, gfMul_assoc, zero_xor_byte]

theorem checkVal_scale (j : Nat) (s0 s1 s2 x : Byte) :
    checkVal j (gfMul x s0) (gfMul x s1) (gfMul x s2) = gfMul x (checkVal j s0 s1 s2) := by
  simp only [checkVal, nmChecks, gfEval, checkSym_scale, gfMul_zero, xor_zero_byte, gfMul_left_comm _ x, ← gfMul_xor]

theorem checkVal_unit : ∀ j < 3,
    checkVal j 1 0 0 = [1, 0, 0].getD j 0 ∧ checkVal j 0 1 0 = [0, 1, 0].getD j 0 ∧ checkVal j 0 0 1 = [0, 0, 1].getD j 0 := by
  decide +kernel

theorem gfMul_one (a : Byte) : gfMul a 1 = a := by rw [gfMul_comm, one_gfMul]

/-- The check symbols cancel the syndromes: both sides are linear, and the unit vectors agree. -/
theorem checkVal_eq (s0 s1 s2 : Byte) (j : Nat) (hj : j < 3) : checkVal j s0 s1 s2 = [s0, s1, s2].getD j 0 := by
  have hlin : checkVal j s0 s1 s2
      = gfMul s0 (checkVal j 1 0 0) ^^^ gfMul s1 (checkVal j 0 1 0) ^^^ gfMul s2 (checkVal j 0 0 1) := by
    simp only [← checkVal_scale, ← checkVal_xor, gfMul_one, gfMul_zero, xor_zero_byte, zero_xor_byte]
  obtain ⟨h0, h1, h2⟩ := checkVal_unit j hj
  rw [hlin, h0, h1, h2]
  obtain rfl | rfl | rfl : j = 0 ∨ j = 1 ∨ j = 2 := by omega
  all_goals simp only [List.getD_cons_zero, List.getD_cons_succ, gfMul_one, gfMul_zero, xor_zero_byte, zero_xor_byte]

/-! ### The code word of near memory: it has no syndrome, and one wrong symbol is found and mended (R208, R210) -/

theorem cut_length (l : List Byte) (i n : Nat) : (cut l i n).length = n := by rw [cut, List.length_map, List.length_range]

theorem cut_all (l : List Byte) : cut l 0 l.length = l := by
  refine List.ext_getElem (cut_length ..) fun i _ h => ?_
  simp only [cut, List.getElem_map, List.getElem_range, Nat.zero_add, byteAt, List.getD_eq_getElem _ _ h]

theorem byteAt_append_left (a b : List Byte) (i : Nat) (h : i < a.length) : byteAt (a ++ b) i = byteAt a i :=
  List.getD_append _ _ _ _ h

theorem cut_append_left (a b : List Byte) : cut (a ++ b) 0 a.length = a := by
  refine Eq.trans (List.map_congr_left fun i hi => ?_) (cut_all a)
  rw [Nat.zero_add, byteAt_append_left _ _ _ (List.mem_range.mp hi)]

theorem nmEncode_length (data : List Byte) (st : Bool) : (nmEncode data st).length = 36 := by
  have h : (cut data 0 32 ++ [BitVec.ofNat 8 (b2n st)]).length = 33 := by
    rw [List.length_append, cut_length, List.length_singleton]
  rw [nmEncode, List.length_append, h, rsCheck_near _ h]
  rfl

theorem gfEval_nmEncode (data : List Byte) (st : Bool) (j : Nat) (hj : j < 3) : gfEval (gfPow j) (nmEncode data st) = 0 := by
  have h : (cut data 0 32 ++ [BitVec.ofNat 8 (b2n st)]).length = 33 := by
    rw [List.length_append, cut_length, List.length_singleton]
  have hv := checkVal_eq (gfEval (gfPow 0) (cut data 0 32 ++ [BitVec.ofNat 8 (b2n st)]))
    (gfEval (gfPow 1) (cut data 0 32 ++ [BitVec.ofNat 8 (b2n st)]))
    (gfEval (gfPow 2) (cut data 0 32 ++ [BitVec.ofNat 8 (b2n st)])) j hj
  rw [nmEncode, gfEval_append, h, rsCheck_near _ h]
  refine (congrArg _ hv).trans ?_
  obtain rfl | rfl | rfl : j = 0 ∨ j = 1 ∨ j = 2 := by omega
  all_goals exact BitVec.xor_self

theorem fixSym_fixSym (e : Byte) : ∀ (w : List Byte) (p : Nat), fixSym (fixSym w p e) p e = w
  | [], _ => rfl
  | c :: w, 0 => congrArg (· :: w) ((BitVec.xor_assoc ..).trans ((congrArg (c ^^^ ·) BitVec.xor_self).trans BitVec.xor_zero))
  | c :: w, p + 1 => congrArg (c :: ·) (fixSym_fixSym e w p)

/-- The syndromes of one wrong symbol. -/
theorem gfEval_wrong (data : List Byte) (st : Bool) (p : Nat) (hp : p < 36) (e : Byte) (j : Nat) (hj : j < 3) :
    gfEval (gfPow j) (fixSym (nmEncode data st) p e) = gfMul e (gfPow (p * j)) := by
  rw [gfEval_fixSym j e _ p (nmEncode_length data st ▸ hp), gfEval_nmEncode data st j hj, zero_xor_byte, gfMul_comm,
    Nat.mul_comm]

theorem syndromes_wrong (data : List Byte) (st : Bool) (p : Nat) (hp : p < 36) (e : Byte) :
    syndromes 3 (fixSym (nmEncode data st) p e) = [e, gfMul e (gfPow p), gfMul e (gfPow (p * 2))] := by
  have h := gfEval_wrong data st p hp e
  change [gfEval _ _, gfEval _ _, gfEval _ _] = _
  rw [h 0 (by decide), h 1 (by decide), h 2 (by decide), Nat.mul_zero, gfPow, gfMul_one, Nat.mul_one]

theorem rsDecode1_wrong (data : List Byte) (st : Bool) (p : Nat) (hp : p < 36) (e : Byte) (he : e ≠ 0) :
    rsDecode1 3 (fixSym (nmEncode data st) p e) = .corrected p e := by
  have hlen : (fixSym (nmEncode data st) p e).length = 36 := (alter_length ..).trans (nmEncode_length data st)
  have hx : gfMul (gfMul e (gfPow p)) (gfInv e) = gfPow p := by
    rw [gfMul_comm e, gfMul_assoc, gfMul_gfInv e he, gfMul_one]
  have hbeq : (e == 0) = false := beq_false_of_ne he
  simp only [rsDecode1, syndromes_wrong data st p hp e, List.all_cons, hbeq, Bool.false_and, Bool.false_eq_true, if_false,
    List.getD_cons_zero, List.getD_cons_succ, he, hx, gfLog_gfPow p hp, hlen]
  rw [if_pos]
  simp [gfExp_gfPow, hp, List.range_succ]
  exact (gfMul_one e).symm

/-- One wrong symbol of a near-memory sector is corrected (R210). -/
theorem nmDecode_wrong (data : List Byte) (hd : data.length = 32) (st : Bool) (p : Nat) (hp : p < 36) (e : Byte) (he : e ≠ 0) :
    nmDecode (fixSym (nmEncode data st) p e) = { data := data, stain := st, how := 1, pos := p, err := e } := by
  have hcut : cut (nmEncode data st) 0 32 = data := by
    rw [nmEncode, List.append_assoc, show cut data 0 32 = data from hd ▸ cut_all data]
    exact hd ▸ cut_append_left data _
  have hmeta : byteAt (nmEncode data st) 32 = BitVec.ofNat 8 (b2n st) := by
    rw [nmEncode, List.append_assoc, byteAt, List.getD_append_right _ _ _ _ (cut_length ..).le, cut_length]
    rfl
  rw [nmDecode, rsDecode1_wrong data st p hp e he]
  simp only [fixSym_fixSym, hcut, hmeta]
  cases st <;> rfl
end Sys2Proof.Machine

namespace Sys2Proof.Machine
open Sys2Proof

/-! ### Sectors of DRAM: what a read reports and what a store leaves (R208–R212, R216) -/

theorem hbmData_length (s : State) (k o : Nat) : (hbmData s k o).length = 32 := by
  rw [hbmData, List.length_map, List.length_range]

theorem map_range_foldl_set (t : Tbl Byte) (base n : Nat) (b : List Byte) :
    ((List.range n).map fun i =>
      Tbl.get 0 ((List.range n).foldl (fun t i => Tbl.set 0 t (base + i) (byteAt b i)) t) (base + i)) = cut b 0 n :=
  List.map_congr_left fun i hi => by
    rw [Tbl.get_foldl_set_range 0 base (byteAt b) n t i (List.mem_range.mp hi), Nat.zero_add]

theorem hbmData_hbmStore (s : State) (k o : Nat) (b : List Byte) (st : Bool) :
    hbmData (hbmStore s k o b st) k o = cut b 0 32 := map_range_foldl_set ..

theorem hbmStained_hbmStore (s : State) (k o : Nat) (b : List Byte) (st : Bool) : hbmStained (hbmStore s k o b st) k o = st :=
  Tbl.get_set_same ..

theorem hbmReport_hbmStore (s : State) (k o : Nat) (b : List Byte) (st : Bool) :
    hbmReport (hbmStore s k o b st) k o .clean = .clean := by
  rw [hbmReport, if_pos rfl]
  exact Tbl.get_set_same .clean s.mem.hbmErr (k * 2 ^ 31 + o) .clean

/-- What a read of an HBM4 sector answers and leaves, when the stack reports `r` (R211, R216). -/
structure HbmReadSays (s : State) (k o : Nat) (r : EccReport) (x : State × List Byte × Bool) : Prop where
  bytes : x.2.1 = escapeBytes r (hbmData s k o)
  stain : x.2.2 = (hbmStained s k o || r == .uncorrected)
  stained : hbmStained x.1 k o = (hbmStained s k o || r == .uncorrected)
  hbm : x.1.mem.hbm = s.mem.hbm
  report : hbmReport x.1 k o .clean = r
  latch : r = .uncorrected → 0x22 ∈ x.1.irq.latch

theorem hbmReport_hbmNote (s : State) (k o : Nat) (rep : EccReport) :
    hbmReport (hbmNote s k o rep) k o .clean = hbmReport s k o rep := by
  by_cases h : rep = .clean
  · rw [hbmNote, if_pos h, h]
  · rw [hbmNote, if_neg h]
    exact (Tbl.get_set_same ..).trans (if_neg h).symm

theorem hbmNote_bytes (s : State) (k o : Nat) (rep : EccReport) :
    (hbmNote s k o rep).mem.hbm = s.mem.hbm ∧ (hbmNote s k o rep).mem.hbmStain = s.mem.hbmStain := by
  by_cases h : rep = .clean
  · rw [hbmNote, if_pos h]
    exact ⟨rfl, rfl⟩
  · rw [hbmNote, if_neg h]
    exact ⟨rfl, rfl⟩

theorem hbmReport_of_mem {s t : State} (h : t.mem = s.mem) (k o : Nat) (rep : EccReport) :
    hbmReport t k o rep = hbmReport s k o rep := by rw [hbmReport, hbmReport, h]

theorem hbmStained_of_mem {s t : State} (h : t.mem = s.mem) (k o : Nat) : hbmStained t k o = hbmStained s k o := by
  rw [hbmStained, hbmStained, h]

theorem hbmReadWith_says (s : State) (k o : Nat) (rep : EccReport) (inj : Bool) :
    HbmReadSays s k o (hbmReport s k o rep) (hbmReadWith s k o rep inj) := by
  obtain ⟨hb, hst⟩ := hbmNote_bytes s k o rep
  have hr := hbmReport_hbmNote s k o rep
  have hs : hbmStained (hbmNote s k o rep) k o = hbmStained s k o := by rw [hbmStained, hbmStained, hst]
  simp only [hbmReadWith]
  generalize hbmNote s k o rep = n at hb hr hs
  generalize hbmReport s k o rep = r at hr
  have hquiet : r ≠ .uncorrected → ∀ t : State, t.mem = n.mem →
      HbmReadSays s k o r (t, escapeBytes r (hbmData s k o), hbmStained n k o) := fun hne t hm =>
    have hor : (hbmStained s k o || r == .uncorrected) = hbmStained s k o := by rw [beq_false_of_ne hne, Bool.or_false]
    ⟨rfl, hs.trans hor.symm, (hbmStained_of_mem hm ..).trans (hs.trans hor.symm), (congrArg Mem.hbm hm).trans hb,
      (hbmReport_of_mem hm ..).trans hr, fun h => absurd h hne⟩
  match r with
  | .clean => exact hquiet (by decide) _ rfl
  | .escaped false l => exact hquiet (fun h => nomatch h) _ rfl
  | .corrected => exact hquiet (by decide) _ (corrected_frame ..).mem
  | .escaped true l => exact hquiet (fun h => nomatch h) _ (corrected_frame ..).mem
  | .uncorrected =>
    refine ⟨rfl, (Bool.or_true _).symm, ?_, ?_, ?_, fun _ => raise_latch _ _ rfl (show evHbmUe ≠ evGctStep by decide)⟩
    · exact (hbmStained_of_mem (raise_frame ..).mem ..).trans ((Tbl.get_set_same ..).trans (Bool.or_true _).symm)
    · exact (congrArg Mem.hbm (raise_frame ..).mem).trans hb
    · exact (hbmReport_of_mem (raise_frame ..).mem ..).trans hr

/-- The activation of a bank changes no sector. -/
theorem activate_uncached {s : State} {k o : Nat} (h : cachedAt s true k o = none) : activate s true k o = hbmActivate s k o := by
  rw [activate, h]
  rfl

theorem cachedAt_hbmActivate (s : State) (k o : Nat) (hbm : Bool) (k' o' : Nat) :
    cachedAt (hbmActivate s k o) hbm k' o' = cachedAt s hbm k' o' := rfl

theorem hbmReadWith_activated_says (s : State) (k o : Nat) (rep : EccReport) :
    HbmReadSays s k o (hbmReport s k o rep) (hbmReadWith (hbmActivate s k o) k o rep) :=
  have h := hbmReadWith_says (hbmActivate s k o) k o rep false
  ⟨h.bytes, h.stain, h.stained, h.hbm, h.report, h.latch⟩

/-- A controller's request for a sector that exists and waits for no retrain window reads it. -/
theorem readReq_sector {s : State} {hbm : Bool} {k o : Nat} (he : sectorExists hbm k o = true)
    (hw : inWindow s hbm k o = false) (data : List Byte) (en : BitVec 32) (st : Bool)
    (upset : List (Nat × Byte)) (rep : EccReport) :
    readReq s hbm (.sector k o data en st) upset rep =
      let x := ctlRead (activate s hbm k o) hbm k o none upset rep
      { x.1 with mem := { x.1.mem with resp := some x.2 } } := by
  rw [readReq, he, hw]
  rfl

theorem hbmSectorRead_says {s : State} {k o : Nat} (rep : EccReport) (he : sectorExists true k o = true)
    (hw : inWindow s true k o = false) (hc : cachedAt s true k o = none) :
    ∃ t, exec (.hbmSectorRead (.sector k o [] 0 false) rep) s = .next t
      ∧ t.mem.resp = some (escapeBytes (hbmReport s k o rep) (hbmData s k o),
          hbmStained s k o || hbmReport s k o rep == .uncorrected)
      ∧ hbmStained t k o = (hbmStained s k o || hbmReport s k o rep == .uncorrected)
      ∧ t.mem.hbm = s.mem.hbm ∧ hbmReport t k o .clean = hbmReport s k o rep
      ∧ (hbmReport s k o rep = .uncorrected → 0x22 ∈ t.irq.latch) := by
  have hread : ctlRead (activate s true k o) true k o none [] rep = hbmReadWith (hbmActivate s k o) k o rep := by
    rw [activate_uncached hc, ctlRead, cachedAt_hbmActivate, hc]
    rfl
  have h := hbmReadWith_activated_says s k o rep
  refine ⟨_, congrArg Host.Outcome.next (readReq_sector he hw ..), ?_⟩
  rw [hread]
  exact ⟨congrArg some (Prod.ext h.bytes h.stain), h.stained, h.hbm, h.report, h.latch⟩

theorem hbmPatrolScrub_says {s : State} {k o : Nat} (rep : EccReport) (he : sectorExists true k o = true)
    (hw : inWindow s true k o = false) :
    ∃ t, exec (.patrolScrub true k o [] rep) s = .next t
      ∧ ((∀ l, hbmReport s k o rep ≠ .escaped true l) → hbmData t k o = hbmData s k o)
      ∧ hbmStained t k o = (hbmStained s k o || hbmReport s k o rep == .uncorrected)
      ∧ (hbmReport s k o rep = .corrected → hbmReport t k o .clean = .clean) := by
  have h : HbmReadSays s k o (hbmReport s k o rep) (dramRead s true k o [] rep) := hbmReadWith_says s k o rep false
  change ∃ t, execPatrolScrub true k o [] rep s = .next t ∧ _
  simp only [execPatrolScrub, he, hw, Bool.not_false, Bool.and_self, if_true]
  generalize dramRead s true k o [] rep = x at h
  generalize hbmReport s k o rep = r at h
  refine ⟨_, rfl, ?_⟩
  have hstored : ((∀ l, r ≠ .escaped true l) → escapeBytes r (hbmData s k o) = hbmData s k o) →
      (((∀ l, r ≠ .escaped true l) → hbmData (hbmStore x.1 k o x.2.1 x.2.2) k o = hbmData s k o)
      ∧ hbmStained (hbmStore x.1 k o x.2.1 x.2.2) k o = (hbmStained s k o || r == .uncorrected)
      ∧ (r = .corrected → hbmReport (hbmStore x.1 k o x.2.1 x.2.2) k o .clean = .clean)) := fun heq =>
    ⟨fun hne => by rw [hbmData_hbmStore, h.bytes, heq hne]; exact hbmData_length s k o ▸ cut_all _,
      (hbmStained_hbmStore ..).trans h.stain, fun _ => hbmReport_hbmStore ..⟩
  have hkept : hbmData x.1 k o = hbmData s k o := by rw [hbmData, hbmData, h.hbm]
  match r with
  | .clean => exact ⟨fun _ => hkept, h.stained, fun hr => nomatch hr⟩
  | .escaped false l => exact ⟨fun _ => hkept, h.stained, fun hr => nomatch hr⟩
  | .corrected => exact hstored fun _ => rfl
  | .uncorrected => exact hstored fun _ => rfl
  | .escaped true l => exact hstored fun hne => absurd rfl (hne l)

/-! ### Near memory -/

theorem nmStore_remade {s : State} {k o : Nat} (b : List Byte) (st : Bool) : nmRemadeAt (nmStore s k o b st) k o = false := by
  by_cases h : nmRemadeAt s k o = true
  · have hdone : (nmStore s k o b st).mem.nmDone = Tbl.set false s.mem.nmDone (k * 2 ^ 31 + o) true := if_pos h
    rw [nmRemadeAt, hdone, Tbl.get_set_same, Bool.not_true, Bool.and_false]
  · have hdone : (nmStore s k o b st).mem.nmDone = s.mem.nmDone := if_neg h
    rw [nmRemadeAt, hdone]
    exact Bool.eq_false_iff.mpr h

/-- A sector stored is held as its code word. -/
theorem nmSyms_nmStore (s : State) (k o : Nat) (b : List Byte) (st : Bool) :
    nmSyms (nmStore s k o b st) k o = nmEncode b st := by
  rw [nmSyms, nmStore_remade, if_neg Bool.false_ne_true]
  exact (map_range_foldl_set ..).trans (nmEncode_length b st ▸ cut_all _)

theorem nmSyms_of_mem {s t : State} (h : t.mem = s.mem) (k o : Nat) : nmSyms t k o = nmSyms s k o := by
  rw [nmSyms, nmSyms, nmRemadeAt, nmRemadeAt, h]

/-- A scrub of a sector with one wrong symbol stores the right code word again and reports it (R212). -/
theorem nmPatrolScrub_wrong {s : State} {k o : Nat} {data : List Byte} {st : Bool} {p : Nat} {e : Byte}
    (hx : sectorExists false k o = true) (hw : inWindow s false k o = false) (hsyms : nmSyms s k o = nmEncode data st)
    (hd : data.length = 32) (hp : p < 36) (he : e ≠ 0) :
    ∃ t, exec (.patrolScrub false k o [(p, e)] .clean) s = .next t
      ∧ nmSyms t k o = nmEncode data st ∧ 0x48 ∈ t.irq.latch ∧ t.cl = s.cl := by
  change ∃ t, execPatrolScrub false k o [(p, e)] .clean s = .next t ∧ _
  have hread : dramRead s false k o [(p, e)] .clean =
      (updNmCh (corrected s (srcUnit k unitNm) (nmChan o + 2 ^ 8 * p + 2 ^ 16 * e.toNat)) k (nmChan o) fun c =>
        { c with lane := (errLanes p e).foldl (fun t l => upd 0 t l (· + 1)) c.lane }, data, st) := by
    change nmReadWith s k o [(p, e)] = _
    simp only [nmReadWith, List.foldl, hsyms, nmDecode_wrong data hd st p hp e he]
  obtain ⟨c, f, hread, hlatch, hcl⟩ : ∃ c f, dramRead s false k o [(p, e)] .clean = (updNmCh c k (nmChan o) f, data, st)
      ∧ 0x48 ∈ c.irq.latch ∧ c.cl = s.cl := ⟨_, _, hread, corrected_latch .., (corrected_frame ..).cl⟩
  simp only [execPatrolScrub, hx, hw, Bool.not_false, Bool.and_self, if_true, hread, Bool.false_eq_true, if_false]
  exact ⟨_, rfl, nmSyms_nmStore .., hlatch, hcl⟩

/-- A read of a sector that cannot be decoded delivers it stained, stores it so and reports it (R210). -/
theorem nmSectorRead_bad {s : State} {k o : Nat} {upset : List (Nat × Byte)} {r : Decoded}
    (hr : nmDecode (upset.foldl (fun w u => fixSym w u.1 u.2) (nmSyms s k o)) = r)
    (hx : sectorExists false k o = true) (hw : inWindow s false k o = false) (hc : cachedAt s false k o = none)
    (hbad : r.how = 2) :
    ∃ t, exec (.nmSectorRead (.sector k o [] 0 false) upset) s = .next t ∧ t.mem.resp = some (r.data, true)
      ∧ nmSyms t k o = nmEncode r.data true ∧ 0x21 ∈ t.irq.latch ∧ t.cl = s.cl := by
  obtain ⟨u, hread, hmem, hlatch, hcl⟩ : ∃ u, ctlRead (activate s false k o) false k o none upset .clean = (u, r.data, true)
      ∧ u.mem = (nmStore s k o r.data true).mem ∧ 0x21 ∈ u.irq.latch ∧ u.cl = s.cl := by
    refine ⟨raise (nmStore s k o r.data true) { cls := evNmUe, src := srcUnit k unitNm, stained := true,
                                                detail := k * 2 ^ 36 + o * 32 },
      ?_, (raise_frame ..).mem, raise_latch _ _ rfl (show evNmUe ≠ evGctStep by decide), (raise_frame ..).cl⟩
    change ctlRead s false k o none upset .clean = _
    rw [ctlRead, hc]
    change nmReadWith s k o upset = _
    simp only [nmReadWith, hr, hbad]
  have hsyms : nmSyms u k o = nmEncode r.data true := (nmSyms_of_mem hmem k o).trans (nmSyms_nmStore ..)
  refine ⟨_, congrArg Host.Outcome.next (readReq_sector hx hw ..), ?_⟩
  rw [hread]
  exact ⟨rfl, hsyms, hlatch, hcl⟩
end Sys2Proof.Machine

namespace Sys2Proof.Machine
open Sys2Proof

/-! ### Words of SRAM: what is put there is read there (R114, R213) -/

theorem tblSector_put {t : Tbl Byte} {base : Nat} {b : List Byte} (h : b.length = 32) :
    tblSector (tblPutSector t base b) base = b := by
  have hrange := map_range_foldl_set t base 32 b
  rw [tblSector, tblPutSector, h, hrange]
  exact h ▸ cut_all b

theorem tblSector_length (t : Tbl Byte) (base : Nat) : (tblSector t base).length = 32 := by
  rw [tblSector, List.length_map, List.length_range]

theorem mergeBytes_whole (old : List Byte) {b : List Byte} (h : b.length = 32) : mergeBytes old b wholeEn = b := by
  refine Eq.trans (List.map_congr_left fun i hi => ?_) (h ▸ cut_all b)
  rw [bitAt_wholeEn (List.mem_range.mp hi), if_pos rfl, Nat.zero_add]

/-- A sector of a cluster buffer or of a shelf holds what was last written there whole. -/
theorem secRead_secWrite_sram (s : State) {p : Place} (hp : (∃ q o, p = .buf q o) ∨ ∃ d o, p = .shelf d o) {b : List Byte}
    (h : b.length = 32) (st : Bool) : (secRead (secWrite s p b wholeEn st) p).2 = (b, st) := by
  obtain ⟨q, o, rfl⟩ | ⟨d, o, rfl⟩ := hp
  all_goals
    simp only [secRead, secWrite, mergeBytes_whole _ h, tblSector_put h, Tbl.get_set_same]
    cases st <;> rfl

theorem getElem?_alter {α : Type} (f : α → α) : ∀ (l : List α) (i : Nat), (alter l i f)[i]? = l[i]?.map f
  | [], _ => rfl
  | _ :: _, 0 => rfl
  | _ :: l, i + 1 => getElem?_alter f l i

theorem paste_length (l v : List Byte) (i : Nat) (h : i + v.length ≤ l.length) : (paste l i v).length = l.length := by
  rw [paste, List.length_map, List.length_range, Nat.max_eq_left h]

theorem padBytes_put_of_length {k : CoreSt} {t : Tbl Byte} {a n : Nat} {b : List Byte} (h : b.length = n)
    (hk : k.pad = tblPutSector t a b) : padBytes k a n = b := h ▸ padBytes_put hk

theorem sramSector_scratch (s : State) (q : Cl) (c : Core) (w : Fin 8192) {b : List Byte} (h : b.length = 32) (st : Bool) :
    sramSector (sramPut s (.scratch q c w) b st) (.scratch q c w) = some (b, st) := by
  simp only [sramSector, sramPut, State.coreOf_updCoreOf_same, padStained, Tbl.get_set_same, Bool.not_not]
  rw [padBytes_put_of_length h rfl]

theorem sramSector_buffer (s : State) (q : Cl) (w : Fin 131072) {b : List Byte} (h : b.length = 32) (st : Bool) :
    sramSector (sramPut s (.buffer q w) b st) (.buffer q w) = some (b, st) :=
  congrArg some (secRead_secWrite_sram s (.inl ⟨_, _, rfl⟩) h st)

theorem sramSector_shelf (s : State) (d : Die) (w : Fin 25165824) {b : List Byte} (st : Bool)
    (hw : w.val * 8 < shelfBytes s d.val) (h : b.length = 32) :
    sramSector (sramPut s (.shelf d w) b st) (.shelf d w) = some (b, st) := by
  have hput : sramPut s (.shelf d w) b st = secWrite s (.shelf d.val (w.val / 4)) b wholeEn st := if_pos hw
  have hsec := secRead_secWrite_sram s (p := .shelf d.val (w.val / 4)) (.inr ⟨_, _, rfl⟩) h st
  rw [hput]
  exact (if_pos hw).trans (congrArg some hsec)

theorem sramSector_cached (s : State) (d : Die) (w : Fin 25165824) {b : List Byte} (st : Bool)
    (hw : ¬w.val * 8 < shelfBytes s d.val) (hheld : sramSector s (.shelf d w) ≠ none) :
    sramSector (sramPut s (.shelf d w) b st) (.shelf d w) = some (b, st) := by
  have hput : sramPut s (.shelf d w) b st = s.updDieMem d.val fun m =>
      { m with cache := alter m.cache ((w.val * 8 - shelfBytes s d.val) / 32) fun c =>
          { c with data := b, stain := st, dirty := true } } := if_neg hw
  have hbytes : shelfBytes (sramPut s (.shelf d w) b st) d.val = shelfBytes s d.val := by
    rw [hput, shelfBytes, State.dieMem_updDieMem_same, shelfBytes]
  simp only [sramSector, hbytes, if_neg hw] at hheld ⊢
  obtain ⟨c, hc⟩ := Option.ne_none_iff_exists'.mp (mt Option.map_eq_none_iff.mpr hheld)
  rw [hput, State.dieMem_updDieMem_same, getElem?_alter, hc]
  rfl

/-- The word's place within its sector. -/
theorem sramWord_place (p : SramPlace) : 8 * (sramWord p % 4) + 8 ≤ 32 := by omega

/-- A word written into its sector of addressed SRAM stands there, with the stain given. -/
theorem sramSector_sramPut {s : State} {p : SramPlace} {sec : List Byte} {st0 : Bool} (hs : sramSector s p = some (sec, st0))
    (hp : isSeqReg p = false) (v : List Byte) (hv : v.length = 8) (st : Bool) :
    sramSector (sramPut s p (paste sec (8 * (sramWord p % 4)) v) st) p
      = some (paste sec (8 * (sramWord p % 4)) v, st) := by
  have hlen : sec.length = 32 → (paste sec (8 * (sramWord p % 4)) v).length = 32 := fun h => by
    rw [paste_length _ _ _ (by rw [hv, h]; exact sramWord_place p), h]
  cases p with
  | scratch q c w =>
    obtain rfl := congrArg Prod.fst ((Option.some.injEq ..).mp hs)
    exact sramSector_scratch s q c w (hlen (by simp only [padBytes, List.length_map, List.length_range])) st
  | buffer q w =>
    obtain rfl := congrArg Prod.fst ((Option.some.injEq ..).mp hs)
    exact sramSector_buffer s q w (hlen (tblSector_length ..)) st
  | shelf d w =>
    by_cases hw : w.val * 8 < shelfBytes s d.val
    · obtain rfl := congrArg Prod.fst ((Option.some.injEq ..).mp ((if_pos hw).symm.trans hs))
      exact sramSector_shelf s d w st hw (hlen (tblSector_length ..))
    · exact sramSector_cached s d w st hw fun h => nomatch hs.symm.trans h
  | sreg q r => exact nomatch hp
  | ldesc q l w => exact nomatch hp

/-- A stained word put back leaves its sector, or its register, stained. -/
theorem sramSector_sramPut_stained {s : State} {p : SramPlace} {sec : List Byte} {st0 : Bool}
    (hs : sramSector s p = some (sec, st0)) (v : List Byte) (hv : v.length = 8) :
    ∃ all, sramSector (sramPut s p (paste sec (8 * (sramWord p % 4)) v) true) p = some (all, true) := by
  by_cases hp : isSeqReg p = false
  · exact ⟨_, sramSector_sramPut hs hp v hv true⟩
  · cases p with
    | sreg q r =>
      have hr : r.val ≠ 0 := fun h => nomatch (if_pos h).symm.trans hs
      refine ⟨_, (if_neg hr).trans (congrArg (fun st => some (_, st)) ?_)⟩
      rw [sramPut, State.clu_updClu_same, sStain_putS_same _ _ _ hr r.isLt]
    | ldesc q l w =>
      refine ⟨_, congrArg (fun st => some (_, st)) ?_⟩
      rw [sramPut, State.clu_updClu_same, lStain, getLsbD_setBit, if_pos rfl, decide_eq_true l.isLt]
      rfl
    | _ => exact absurd rfl hp

/-! ### A checked read of a word -/

theorem sramSector_of_parts {s t : State} (hcl : t.cl = s.cl) (hmem : t.mem = s.mem) (p : SramPlace) :
    sramSector t p = sramSector s p := by
  cases p with
  | shelf d w =>
    simp only [sramSector, secRead, shelfBytes, State.dieMem, hmem]
    rfl
  | _ => simp only [sramSector, State.coreOf, State.clu, secRead, hcl, hmem]

/-- The answer to a read stands in the response alone. -/
def sramAnswer (x : State × List Byte × Bool) : State := { x.1 with mem := { x.1.mem with resp := some x.2 } }

theorem sramSector_sramAnswer (x : State × List Byte × Bool) (p : SramPlace) :
    sramSector (sramAnswer x) p = sramSector x.1 p := by cases p <;> rfl

theorem exec_sramAccess_read {s : State} {p : SramPlace} {sec : List Byte} {st : Bool} (flips : List (Fin 72))
    (hs : sramSector s p = some (sec, st)) (hi : sramInject s p = none) :
    exec (.sramAccess p none flips) s = .next (sramAnswer (sramRead s p sec st (oddFlips flips) false)) := by
  change execSramAccess p none flips s = _
  simp only [execSramAccess, hs, hi]
  rfl

theorem exec_sramAccess_injected {s u : State} {p : SramPlace} {sec : List Byte} {st : Bool} (flips : List (Fin 72))
    {l : List Nat} (hs : sramSector s p = some (sec, st)) (hi : sramInject s p = some (u, l)) :
    exec (.sramAccess p none flips) s = .next (sramAnswer (sramRead u p sec st l true)) := by
  change execSramAccess p none flips s = _
  simp only [execSramAccess, hs, hi]
  rfl

theorem flipBits_length (l : List Nat) : ∀ b : List Byte, (flipBits b l).length = b.length := by
  induction l with
  | nil => exact fun _ => rfl
  | cons i l ih =>
    intro b
    refine (ih _).trans ?_
    by_cases hi : i < 64
    · exact (congrArg List.length (if_pos hi)).trans (alter_length ..)
    · exact congrArg List.length (if_neg hi)

theorem sramPut_guard (s : State) (p : SramPlace) (b : List Byte) (st : Bool) : (sramPut s p b st).guard = s.guard := by
  cases p with
  | shelf d w =>
    rw [sramPut]
    split
    · rfl
    · rfl
  | _ => rfl

theorem sramCls_listed (p : SramPlace) : classListed (sramCls p) = true ∧ sramCls p ≠ evGctStep := by
  by_cases h : isSeqReg p = true
  · rw [sramCls, if_pos h]
    decide
  · rw [sramCls, if_neg h]
    decide

theorem sramCls_latch (s : State) (p : SramPlace) (e : Ev) (h : e.cls = sramCls p) : 16 + sramCls p ∈ (raise s e).irq.latch :=
  h ▸ raise_latch s e (h ▸ (sramCls_listed p).1) (h ▸ (sramCls_listed p).2)

/-- Two flipped bits are found and not mended: the word is delivered stained, and its sector stays so (R114, R213). -/
theorem sramRead_detected {s : State} {p : SramPlace} {sec : List Byte} {st : Bool} {flips : List Nat} (inj : Bool)
    (hs : sramSector s p = some (sec, st)) (hf : flips.length = 2) :
    ∃ t word all, sramAnswer (sramRead s p sec st flips inj) = t ∧ t.mem.resp = some (word, true)
      ∧ sramSector t p = some (all, true) ∧ 16 + sramCls p ∈ t.irq.latch ∧ t.guard = s.guard := by
  obtain ⟨all, hall⟩ := sramSector_sramPut_stained hs (flipBits (cut sec (8 * (sramWord p % 4)) 8) flips)
    ((flipBits_length ..).trans (cut_length ..))
  have hg := sramPut_guard s p (paste sec (8 * (sramWord p % 4)) (flipBits (cut sec (8 * (sramWord p % 4)) 8) flips)) true
  simp only [sramRead, hf, secded]
  generalize sramPut s p _ true = u at hall hg
  refine ⟨_, _, all, rfl, rfl, ?_, sramCls_latch u p _ rfl, (raise_frame u _).guard.trans hg⟩
  exact (sramSector_sramAnswer ..).trans ((sramSector_of_parts (raise_frame u _).cl (raise_frame u _).mem p).trans hall)

/-! ### Flipped bits -/

theorem oddFlips_length {l : List (Fin 72)} (h : l.Nodup) : (oddFlips l).length = l.length := by
  have hperm : List.Perm ((List.finRange 72).filter fun i => l.count i % 2 == 1) l := by
    refine (List.perm_ext_iff_of_nodup ((List.nodup_finRange 72).filter _) h).mpr fun i => ?_
    simp only [List.mem_filter, List.mem_finRange, true_and]
    by_cases hi : i ∈ l
    · simp [hi, List.count_eq_one_of_mem h hi]
    · simp [hi, List.count_eq_zero_of_not_mem hi]
  rw [oddFlips, List.length_map, hperm.length_eq]

/-! ### Writes and reads of a word by command -/

theorem exec_sramAccess_write {s : State} {p : SramPlace} {sec : List Byte} {st : Bool} (v : BitVec 64)
    (flips : List (Fin 72)) (hs : sramSector s p = some (sec, st)) (hp : isSeqReg p = false) :
    exec (.sramAccess p (some (v, 0xFF)) flips) s
      = .next (sramPut s p (paste sec (8 * (sramWord p % 4)) (leBytes 8 v.toNat)) st) := by
  change execSramAccess p (some (v, 0xFF)) flips s = _
  simp only [execSramAccess, hs, hp, Bool.false_eq_true, or_false]
  rfl

theorem exec_sramAccess_write_seqReg {s : State} {p : SramPlace} {sec : List Byte} {st : Bool} (v : BitVec 64)
    (hs : sramSector s p = some (sec, st)) (hp : isSeqReg p = true) :
    exec (.sramAccess p (some (v, 0xFF)) []) s = .next s := by
  change execSramAccess p (some (v, 0xFF)) [] s = _
  simp only [execSramAccess, hs, hp, or_true, if_true]

/-- A whole word written stands in its sector and keeps the sector's stain; a register is not written so (R114, R213). -/
theorem sramAccess_write_says {s : State} {p : SramPlace} {sec : List Byte} {st : Bool} (hs : sramSector s p = some (sec, st))
    (v : BitVec 64) : ∃ t, exec (.sramAccess p (some (v, 0xFF)) []) s = .next t
      ∧ (isSeqReg p = true → t = s)
      ∧ (isSeqReg p = false → sramSector t p = some (paste sec (8 * (sramWord p % 4)) (leBytes 8 v.toNat), st)) := by
  by_cases hp : isSeqReg p = true
  · exact ⟨s, exec_sramAccess_write_seqReg v hs hp, fun _ => rfl, fun h => nomatch hp.symm.trans h⟩
  · have hp := Bool.eq_false_iff.mpr hp
    exact ⟨_, exec_sramAccess_write v [] hs hp, fun h => absurd (hp.symm.trans h) Bool.false_ne_true,
      fun _ => sramSector_sramPut hs hp _ (leBytes_length ..) st⟩

/-- With at most one flipped bit the stored word is delivered with its stain, and a flip is reported (R213). -/
theorem sramAccess_read_mended {s : State} {p : SramPlace} {sec : List Byte} {st : Bool} (hq : s.guard.armed = [])
    (hs : sramSector s p = some (sec, st)) : ∀ flips : List (Fin 72), flips.length ≤ 1 →
    ∃ t, exec (.sramAccess p none flips) s = .next t ∧ t.cl = s.cl
      ∧ t.mem = { s.mem with resp := some (cut sec (8 * (sramWord p % 4)) 8, st) } ∧ (flips ≠ [] → 0x48 ∈ t.irq.latch)
  | [], _ => by
    refine ⟨_, exec_sramAccess_read [] hs (sramInject_quiet hq p), ?_⟩
    have hclean := List.length_eq_zero_iff.mp (oddFlips_length (l := []) List.nodup_nil)
    rw [hclean]
    exact ⟨rfl, rfl, fun h => absurd rfl h⟩
  | [a], _ => by
    refine ⟨_, exec_sramAccess_read [a] hs (sramInject_quiet hq p), ?_⟩
    simp only [sramRead, oddFlips_length (List.nodup_singleton a), List.length_singleton, secded]
    have hframe := corrected_frame s (sramSrc s p) (sramDetail p) false
    have hlatch := corrected_latch s (sramSrc s p) (sramDetail p)
    generalize corrected s (sramSrc s p) (sramDetail p) = u at hframe hlatch
    refine ⟨hframe.cl, ?_, fun _ => hlatch⟩
    rw [sramAnswer, hframe.mem]
  | _ :: _ :: _, h => absurd h (by simp)

/-- Two different flipped bits are reported under the class of the place (R114, R213). -/
theorem sramAccess_read_bad {s : State} {p : SramPlace} {sec : List Byte} {st : Bool} (hq : s.guard.armed = [])
    (hs : sramSector s p = some (sec, st)) (a b : Fin 72) (h : a ≠ b) :
    ∃ t word all, exec (.sramAccess p none [a, b]) s = .next t ∧ t.mem.resp = some (word, true)
      ∧ sramSector t p = some (all, true) ∧ 16 + sramCls p ∈ t.irq.latch := by
  have hl : (oddFlips [a, b]).length = 2 := oddFlips_length (by simpa using h)
  obtain ⟨t, word, all, rfl, hresp, hsec, hlatch, -⟩ := sramRead_detected false hs hl
  exact ⟨_, word, all, exec_sramAccess_read [a, b] hs (sramInject_quiet hq p), hresp, hsec, hlatch⟩

/-- The last use of an injection of two flips empties the list of those armed (R404). -/
theorem sramInject_last {s : State} {p : SramPlace} {w : Nat} {i : Inject} (ha : s.guard.armed = [i])
    (hcls : i.cls.toNat = sramCls p) (hsrc : i.src.toNat = sramSrc s p) (hwin : i.win = w) (hleft : i.left = 1)
    (hweight : i.weight = 2) (hw : sramWin s p = some w) :
    ∃ u l, sramInject s p = some (u, l) ∧ l.length = 2 ∧ u.guard.armed = [] ∧ u.cl = s.cl ∧ u.mem = s.mem := by
  have htake : takeInject s (sramCls p) (sramSrc s p) w = some (2, { s with guard := { s.guard with armed := [] } }) := by
    simp [takeInject, ha, hcls, hsrc, hwin, hleft, hweight]
  have hinj : sramInject s p = some ({ s with guard := { s.guard with armed := [] }, free := s.free + 2 },
      freePlaces { s with guard := { s.guard with armed := [] } } 2 72) := by rw [sramInject, hw, Option.bind_some, htake]
  exact ⟨_, _, hinj, rfl, rfl, rfl, rfl⟩

theorem sramAccess_read_injected {s : State} {p : SramPlace} {sec : List Byte} {st : Bool} {w : Nat} {i : Inject}
    (ha : s.guard.armed = [i]) (hcls : i.cls.toNat = sramCls p) (hsrc : i.src.toNat = sramSrc s p) (hwin : i.win = w)
    (hleft : i.left = 1) (hweight : i.weight = 2) (hw : sramWin s p = some w) (hs : sramSector s p = some (sec, st)) :
    ∃ t word all, exec (.sramAccess p none []) s = .next t ∧ t.mem.resp = some (word, true)
      ∧ sramSector t p = some (all, true) ∧ 16 + sramCls p ∈ t.irq.latch ∧ t.guard.armed = [] := by
  obtain ⟨u, l, hi, hl, harmed, hcl, hmem⟩ := sramInject_last ha hcls hsrc hwin hleft hweight hw
  obtain ⟨t, word, all, rfl, hresp, hsec, hlatch, hguard⟩ :=
    sramRead_detected true ((sramSector_of_parts hcl hmem p).trans hs) hl
  exact ⟨_, word, all, exec_sramAccess_injected [] hs hi, hresp, hsec, hlatch, (congrArg _ hguard).trans harmed⟩

theorem byteAt_paste (l v : List Byte) (o i : Nat) (h : i < l.length) :
    byteAt (paste l o v) i = if o ≤ i ∧ i < o + v.length then byteAt v (i - o) else byteAt l i := by
  have hi : i < (paste l o v).length := by
    rw [paste, List.length_map, List.length_range]
    exact lt_of_lt_of_le h (Nat.le_max_left ..)
  rw [byteAt, List.getD_eq_getElem _ _ hi]
  simp only [paste, List.getElem_map, List.getElem_range]

theorem byteAt_padBytes (k : CoreSt) (a n i : Nat) (h : i < n) : byteAt (padBytes k a n) i = Tbl.get 0 k.pad (a + i) := by
  simp [byteAt, padBytes, h]

/-- The bytes of a scratchpad after a word of it was written in its sector. -/
theorem get_tblPutSector_word (k : CoreSt) (w x : Nat) {v : List Byte} (hv : v.length = 8) :
    Tbl.get 0 (tblPutSector k.pad (w / 4 * 32) (paste (padBytes k (w / 4 * 32) 32) (8 * (w % 4)) v)) x
      = if 8 * w ≤ x ∧ x < 8 * w + 8 then byteAt v (x - 8 * w) else Tbl.get 0 k.pad x := by
  have hpad : (padBytes k (w / 4 * 32) 32).length = 32 := by simp only [padBytes, List.length_map, List.length_range]
  have hlen : (paste (padBytes k (w / 4 * 32) 32) (8 * (w % 4)) v).length = 32 := by
    rw [paste_length _ _ _ (by rw [hv, hpad]; omega), hpad]
  by_cases hx : w / 4 * 32 ≤ x ∧ x < w / 4 * 32 + 32
  · obtain ⟨i, rfl⟩ := Nat.exists_eq_add_of_le hx.1
    have hi : i < 32 := by omega
    rw [tblPutSector_same _ _ _ i (hi.trans_eq hlen.symm), byteAt_paste _ _ _ _ (hi.trans_eq hpad.symm), byteAt_padBytes _ _ _ _ hi, hv]
    by_cases hw : 8 * (w % 4) ≤ i ∧ i < 8 * (w % 4) + 8
    · rw [if_pos hw, if_pos (by omega), show i - 8 * (w % 4) = w / 4 * 32 + i - 8 * w by omega]
    · rw [if_neg hw, if_neg (by omega)]
  · rw [tblPutSector_other _ _ _ x (by omega), if_neg (by omega)]

/-- A word written into a scratchpad changes no other byte there and no stain (R213). -/
theorem sramAccess_scratch_write (s : State) (q : Cl) (c : Core) (w : Fin 8192) (v : BitVec 64) (flips : List (Fin 72)) :
    ∃ t, exec (.sramAccess (.scratch q c w) (some (v, 0xFF)) flips) s = .next t ∧ OnlyCore s t q.val c.val
      ∧ padBytes (t.coreOf q.val c.val) (8 * w.val) 8 = leBytes 8 v.toNat
      ∧ (∀ x, (x < 8 * w.val ∨ 8 * w.val + 8 ≤ x) →
          Tbl.get 0 (t.coreOf q.val c.val).pad x = Tbl.get 0 (s.coreOf q.val c.val).pad x)
      ∧ ∀ x, padStained (t.coreOf q.val c.val) x = padStained (s.coreOf q.val c.val) x := by
  refine ⟨_, exec_sramAccess_write v flips (p := .scratch q c w) rfl rfl, updCoreOf_only .., ?_⟩
  simp only [sramPut, State.coreOf_updCoreOf_same]
  generalize s.coreOf q.val c.val = k
  have hget := fun x => get_tblPutSector_word k w.val x (leBytes_length 8 v.toNat)
  refine ⟨?_, fun x hx => (hget x).trans (if_neg (by omega)), fun x => ?_⟩
  · refine Eq.trans (List.map_congr_left fun i hi => ?_) ((leBytes_length 8 v.toNat) ▸ cut_all (leBytes 8 v.toNat))
    have hi := List.mem_range.mp hi
    refine (hget _).trans ((if_pos (by omega)).trans ?_)
    rw [Nat.add_sub_cancel_left, Nat.zero_add]
  · by_cases hx : x = w.val / 4
    · rw [hx, padStained, Tbl.get_set_same, Bool.not_not]
    · rw [padStained, Tbl.get_set_other _ _ _ _ _ hx, padStained]

/-- Settles O23, kind of memory by kind: the sectors of HBM4 as their stack reports them, those of near memory by their
code, words of SRAM and registers by SECDED, with flips met and flips injected. -/
theorem memoryErrorReports : Obligations.MemoryErrorReports := by
  unfold Obligations.MemoryErrorReports
  refine ⟨fun s k o rep he hw => ⟨hbmSectorRead_says rep he hw, hbmPatrolScrub_says rep he hw⟩,
    fun s k o data st p e hx hw => ⟨nmPatrolScrub_wrong hx hw, fun upset hc hbad => nmSectorRead_bad rfl hx hw hc hbad⟩,
    fun s p sec st hq hs => ⟨sramAccess_write_says hs, sramAccess_read_mended hq hs, sramAccess_read_bad hq hs⟩,
    fun s p sec st w i ha hcls hsrc hwin hleft hweight hw hs =>
      sramAccess_read_injected ha hcls hsrc hwin hleft hweight hw hs,
    sramAccess_scratch_write⟩
end Sys2Proof.Machine

namespace Sys2Proof.Machine
open Sys2Proof

/-! ### The arithmetic of Table 5.7 on 64-bit words -/

theorem sgn_toNat (a : BitVec 64) : sgn 64 a.toNat = a.toInt := by
  have hiff : a.toNat < 2 ^ (64 - 1) ↔ 2 * a.toNat < 2 ^ 64 := by omega
  simp only [sgn, BitVec.toInt_eq_toNat_cond, Nat.mod_eq_of_lt a.isLt, hiff]

theorem ltS_toNat (a b : BitVec 64) : ltS a.toNat b.toNat = a.slt b := by
  rw [ltS, sgn_toNat, sgn_toNat, BitVec.slt]

theorem ofNat_wrap (x : Int) : BitVec.ofNat 64 (wrap 64 x) = BitVec.ofInt 64 x := by
  refine BitVec.eq_of_toNat_eq ?_
  rw [wrap, BitVec.toNat_ofNat, BitVec.toNat_ofInt]
  omega

theorem ofNat_add (a b : BitVec 64) : BitVec.ofNat 64 ((a.toNat + b.toNat) % 2 ^ 64) = a + b := by
  refine BitVec.eq_of_toNat_eq ?_
  rw [BitVec.toNat_ofNat, Nat.mod_mod, BitVec.toNat_add]

theorem ofNat_sub (a b : BitVec 64) : BitVec.ofNat 64 ((a.toNat + 2 ^ 64 - b.toNat) % 2 ^ 64) = a - b := by
  refine BitVec.eq_of_toNat_eq ?_
  rw [BitVec.toNat_ofNat, Nat.mod_mod, BitVec.toNat_sub]
  congr 1
  omega

theorem ofNat_mul (a b : BitVec 64) : BitVec.ofNat 64 (a.toNat * b.toNat % 2 ^ 64) = a * b := by
  refine BitVec.eq_of_toNat_eq ?_
  rw [BitVec.toNat_ofNat, Nat.mod_mod, BitVec.toNat_mul]

/-- The high half of a product is that of the product of the operands as 128-bit words. -/
theorem ofNat_mulhu (a b : BitVec 64) :
    BitVec.ofNat 64 (a.toNat * b.toNat / 2 ^ 64) = ((a.setWidth 128 * b.setWidth 128) >>> 64).setWidth 64 := by
  have hfits : a.toNat * b.toNat < 2 ^ 128 := Nat.mul_lt_mul'' (c := 2 ^ 64) (d := 2 ^ 64) a.isLt b.isLt
  refine BitVec.eq_of_toNat_eq ?_
  simp only [BitVec.toNat_ofNat, BitVec.toNat_setWidth, BitVec.toNat_ushiftRight, BitVec.toNat_mul,
    Nat.shiftRight_eq_div_pow, Nat.mod_eq_of_lt (Nat.lt_trans a.isLt (by decide : 2 ^ 64 < 2 ^ 128)),
    Nat.mod_eq_of_lt (Nat.lt_trans b.isLt (by decide : 2 ^ 64 < 2 ^ 128)), Nat.mod_eq_of_lt hfits]

theorem ofNat_and (a b : BitVec 64) : BitVec.ofNat 64 (a.toNat &&& b.toNat) = a &&& b := by
  rw [← BitVec.toNat_and, BitVec.ofNat_toNat, BitVec.setWidth_eq]

theorem ofNat_or (a b : BitVec 64) : BitVec.ofNat 64 (a.toNat ||| b.toNat) = a ||| b := by
  rw [← BitVec.toNat_or, BitVec.ofNat_toNat, BitVec.setWidth_eq]

theorem ofNat_xor (a b : BitVec 64) : BitVec.ofNat 64 (a.toNat ^^^ b.toNat) = a ^^^ b := by
  rw [← BitVec.toNat_xor, BitVec.ofNat_toNat, BitVec.setWidth_eq]

theorem ofNat_shl (a : BitVec 64) (n : Nat) : BitVec.ofNat 64 (a.toNat * 2 ^ n % 2 ^ 64) = a <<< n := by
  refine BitVec.eq_of_toNat_eq ?_
  rw [BitVec.toNat_ofNat, Nat.mod_mod, BitVec.toNat_shiftLeft, Nat.shiftLeft_eq]

theorem ofNat_shr (a : BitVec 64) (n : Nat) : BitVec.ofNat 64 (a.toNat / 2 ^ n) = a >>> n := by
  rw [← Nat.shiftRight_eq_div_pow, ← BitVec.toNat_ushiftRight, BitVec.ofNat_toNat, BitVec.setWidth_eq]

theorem ofNat_sra (a : BitVec 64) (n : Nat) :
    BitVec.ofNat 64 (wrap 64 (sgn 64 a.toNat / (2 ^ n : Nat))) = a.sshiftRight n := by
  rw [ofNat_wrap, sgn_toNat, ← Int.shiftRight_eq_div_pow, BitVec.sshiftRight]

theorem ofNat_b2n (b : Bool) : BitVec.ofNat 64 (b2n b) = if b then 1 else 0 := by
  cases b <;> rfl

theorem ofNat_slt (a b : BitVec 64) : BitVec.ofNat 64 (b2n (ltS a.toNat b.toNat)) = if a.slt b then 1 else 0 := by
  rw [ofNat_b2n, ltS_toNat]

theorem ofNat_sltu (a b : BitVec 64) :
    BitVec.ofNat 64 (b2n (decide (a.toNat < b.toNat))) = if a.ult b then 1 else 0 :=
  ofNat_b2n _

/-- A choice between two operands. -/
theorem ofNat_ite (p : Bool) (a b : BitVec 64) :
    BitVec.ofNat 64 (if p then a.toNat else b.toNat) = if p then a else b := by
  rw [apply_ite (BitVec.ofNat 64), BitVec.ofNat_toNat, BitVec.ofNat_toNat, BitVec.setWidth_eq, BitVec.setWidth_eq]

theorem ofNat_min (a b : BitVec 64) :
    BitVec.ofNat 64 (if ltS a.toNat b.toNat then a.toNat else b.toNat) = if a.slt b then a else b := by
  rw [ofNat_ite, ltS_toNat]

theorem ofNat_max (a b : BitVec 64) :
    BitVec.ofNat 64 (if ltS a.toNat b.toNat then b.toNat else a.toNat) = if a.slt b then b else a := by
  rw [ofNat_ite, ltS_toNat]

/-! ### Scalar instructions (Table 5.7, R145, R147) -/

/-- A word that puts a function of RA and RB in RD, as the function is on 64-bit words. -/
theorem seqOp_alu2 {s : State} {q : Cl} {op : Nat} {w : BitVec 120} {f : Nat → Nat → Nat}
    {g : BitVec 64 → BitVec 64 → BitVec 64} (hfg : ∀ a b, BitVec.ofNat 64 (f a.toNat b.toNat) = g a b)
    (h : Issues s q op w) :
    let k := s.clu q.val
    let n := wordOf op w
    ∃ t, seqOp op q w (alu2 f) s = .next t
      ∧ WroteScalar s t q.val (fRd n) (g (sVal k (fRa n)) (sVal k (fRb n))) (sStain k (fRa n) || sStain k (fRb n)) := by
  intro k n
  rw [← hfg, toNat_sVal, toNat_sVal]
  exact seqOp_putScalar h rfl rfl

/-- A word that puts a function of RA, and of the word's own fields, in RD. -/
theorem seqOp_alu1 {s : State} {q : Cl} {op : Nat} {w : BitVec 120} {f : Nat → Nat → Nat} {g : BitVec 64 → BitVec 64}
    (hfg : ∀ a : BitVec 64, BitVec.ofNat 64 (f (wordOf op w) a.toNat) = g a) (h : Issues s q op w) :
    let k := s.clu q.val
    let n := wordOf op w
    ∃ t, seqOp op q w (fun q n => alu1 (f n) q n) s = .next t
      ∧ WroteScalar s t q.val (fRd n) (g (sVal k (fRa n))) (sStain k (fRa n)) := by
  intro k n
  rw [← hfg, toNat_sVal]
  exact seqOp_putScalar h rfl rfl

/-- A word that puts an unstained value in RD. -/
theorem seqOp_aluConst {s : State} {q : Cl} {op : Nat} {w : BitVec 120} {f : Nat → Nat → State → Nat} {v : BitVec 64}
    (hv : BitVec.ofNat 64 (f q.val (wordOf op w) s) = v) (h : Issues s q op w) :
    ∃ t, seqOp op q w (fun q n s => aluConst (f q n s) q n s) s = .next t
      ∧ WroteScalar s t q.val (fRd (wordOf op w)) v false := by
  rw [← hv]
  exact seqOp_putScalar h rfl rfl

theorem execAddi_writes {s : State} {q : Cl} {w : BitVec 120} (h : Issues s q 0x2E w) :
    let k := s.clu q.val
    let n := wordOf 0x2E w
    ∃ t, execAddi q w s = .next t
      ∧ WroteScalar s t q.val (fRd n) (sVal k (fRa n) + immOf n) (sStain k (fRa n)) := by
  refine seqOp_alu1 (f := fun n a => (a + fImm n) % 2 ^ 64) (g := fun a => a + immOf (wordOf 0x2E w)) (fun a => ?_) h
  rw [← ofNat_add, toNat_immOf]

theorem execLi_writes {s : State} {q : Cl} {w : BitVec 120} (h : Issues s q 0x2F w) :
    ∃ t, execLi q w s = .next t ∧ WroteScalar s t q.val (fRd (wordOf 0x2F w)) (immOf (wordOf 0x2F w)) false :=
  seqOp_aluConst (f := fun _ n _ => fImm n) rfl h

/-- Settles O3: each instruction of two registers by its function on words, then those with an immediate. -/
theorem scalarIntegerResults : Obligations.ScalarIntegerResults := by
  intro s q w two bit
  have htwo : ∀ op c f g, exec c s = seqOp op q w (alu2 f) s →
      (∀ a b : BitVec 64, BitVec.ofNat 64 (f a.toNat b.toNat) = g a b) → two op c g := by
    intro op c f g hc hfg h
    rw [hc]
    exact seqOp_alu2 hfg h
  clear_value two
  exact ⟨htwo _ _ _ _ rfl ofNat_add, htwo _ _ _ _ rfl ofNat_sub, htwo _ _ _ _ rfl ofNat_mul, htwo _ _ _ _ rfl ofNat_mulhu,
    htwo _ _ _ _ rfl ofNat_and, htwo _ _ _ _ rfl ofNat_or, htwo _ _ _ _ rfl ofNat_xor,
    htwo _ _ _ _ rfl fun a b => ofNat_shl a (b.toNat % 64), htwo _ _ _ _ rfl fun a b => ofNat_shr a (b.toNat % 64),
    htwo _ _ _ _ rfl fun a b => ofNat_sra a (b.toNat % 64), htwo _ _ _ _ rfl ofNat_slt, htwo _ _ _ _ rfl ofNat_sltu,
    htwo _ _ _ _ rfl ofNat_min, htwo _ _ _ _ rfl ofNat_max, execAddi_writes, execLi_writes⟩

/-- An FP32 result with bits [63:32] clear (R145). -/
theorem ofNat_fp2 (f : Word → Word → Word) (a b : BitVec 64) :
    BitVec.ofNat 64 (fp2 f a.toNat b.toNat) = (f (a.setWidth 32) (b.setWidth 32)).setWidth 64 := by
  rw [fp2, BitVec.ofNat_toNat, BitVec.ofNat_toNat, BitVec.ofNat_toNat]

theorem execFcvtFi_writes {s : State} {q : Cl} {w : BitVec 120} (h : Issues s q 0x34 w) :
    let k := s.clu q.val
    let n := wordOf 0x34 w
    ∃ t, execFcvtFi q w s = .next t
      ∧ WroteScalar s t q.val (fRd n) ((toF32 (Num.ofInt (sVal k (fRa n)).toInt 0)).setWidth 64) (sStain k (fRa n)) := by
  refine seqOp_alu1 (f := fun _ a => (toF32 (Num.ofInt (sgn 64 a) 0)).toNat)
    (g := fun a => (toF32 (Num.ofInt a.toInt 0)).setWidth 64) (fun a => ?_) h
  rw [sgn_toNat, BitVec.ofNat_toNat]

theorem execFcvtIf_writes {s : State} {q : Cl} {w : BitVec 120} (h : Issues s q 0x35 w) :
    let k := s.clu q.val
    let n := wordOf 0x35 w
    ∃ t, execFcvtIf q w s = .next t
      ∧ WroteScalar s t q.val (fRd n)
          (BitVec.ofInt 64 ((f32 ((sVal k (fRa n)).setWidth 32)).toIntSat (-(2 ^ 63)) (2 ^ 63 - 1))) (sStain k (fRa n)) := by
  refine seqOp_alu1 (f := fun _ a => wrap 64 ((f32 (BitVec.ofNat 32 a)).toIntSat (-(2 ^ 63)) (2 ^ 63 - 1)))
    (g := fun a => BitVec.ofInt 64 ((f32 (a.setWidth 32)).toIntSat (-(2 ^ 63)) (2 ^ 63 - 1))) (fun a => ?_) h
  rw [ofNat_wrap, BitVec.ofNat_toNat]

/-- Settles O4: the operations of two registers by `ofNat_fp2`, then the two conversions. -/
theorem scalarFloatResults : Obligations.ScalarFloatResults := by
  intro s q w k lo two one
  exact ⟨seqOp_alu2 (ofNat_fp2 f32Add), seqOp_alu2 (ofNat_fp2 f32Mul), seqOp_alu2 (ofNat_fp2 f32Max),
    seqOp_alu2 (ofNat_fp2 f32Min), execFcvtFi_writes, execFcvtIf_writes⟩

/-! ### Identities, stain bits and mask registers (R147, R432) -/

/-- The identity that SUB selects. -/
theorem identity_eq (s : State) (q sub : Nat) : identity s q sub
    = if sub = 0 then 32 * clId q else if sub = 1 then logicalCoord s else cluJob s q := by
  unfold identity
  split
  · rfl
  · rfl
  · rename_i h0 h1
    rw [if_neg h0, if_neg h1]

theorem execRdid_writes {s : State} {q : Cl} {w : BitVec 120} (h : Issues s q 0x36 w) :
    let n := wordOf 0x36 w
    ∃ t, execRdid q w s = .next t ∧ WroteScalar s t q.val (fRd n) (BitVec.ofNat 64 (
      if fSub n = 0 then 32 * clId q.val else if fSub n = 1 then logicalCoord s else cluJob s q.val)) false := by
  intro n
  rw [← identity_eq]
  exact seqOp_aluConst (f := fun q n s => identity s q (fSub n)) rfl h

theorem execSstn_writes {s : State} {q : Cl} {w : BitVec 120} (h : Issues s q 0x37 w) :
    ∃ t, execSstn q w s = .next t ∧ WroteScalar s t q.val (fRd (wordOf 0x37 w))
      (if sStain (s.clu q.val) (fRa (wordOf 0x37 w)) then 1 else 0) false :=
  seqOp_aluConst (f := fun q n s => b2n (sStain (s.clu q) (fRa n))) (ofNat_b2n _) h

theorem execMget_writes {s : State} {q : Cl} {w : BitVec 120} (h : Issues s q 0x39 w) :
    let k := s.clu q.val
    let m := fSub (wordOf 0x39 w) % 8
    ∃ t, execMget q w s = .next t ∧ WroteScalar s t q.val (fRd (wordOf 0x39 w)) ((Tbl.get 0 k.mreg m).setWidth 64)
      (k.mstain.getLsbD m) := by
  intro k m
  rw [← BitVec.ofNat_toNat]
  exact seqOp_putScalar h rfl rfl

/-- Mask register `m` of a cluster put to `v` with stain `st`. -/
def putM (k : Cluster) (m : Nat) (v : BitVec 16) (st : Bool) : Cluster :=
  { k with mreg := Tbl.set 0 k.mreg m v, mstain := BitVec.ofNat 8 (setSeg k.mstain.toNat m m (b2n st)) }

theorem advance_putM (k : Cluster) (m : Nat) (v : BitVec 16) (st : Bool) :
    advance (putM k m v st) = { advance k with mreg := (putM k m v st).mreg, mstain := (putM k m v st).mstain } := by
  rw [advance_point k]
  exact advance_of_point rfl rfl rfl

theorem execMset_writes {s : State} {q : Cl} {w : BitVec 120} (h : Issues s q 0x38 w) :
    let k := s.clu q.val
    let n := wordOf 0x38 w
    let m := fSub n % 8
    ∃ t, execMset q w s = .next t ∧ OnlyCluster s t q.val
      ∧ t.clu q.val = { advance k with mreg := (t.clu q.val).mreg, mstain := (t.clu q.val).mstain }
      ∧ Tbl.get 0 (t.clu q.val).mreg m = (sVal k (fRa n)).setWidth 16
      ∧ (t.clu q.val).mstain.getLsbD m = sStain k (fRa n)
      ∧ ∀ j, j ≠ m → Tbl.get 0 (t.clu q.val).mreg j = Tbl.get 0 k.mreg j
          ∧ (t.clu q.val).mstain.getLsbD j = k.mstain.getLsbD j := by
  intro k n m
  obtain ⟨t, hnext, honly, hclu⟩ := seqOp_go (body := fun q n s => .go (s.updClu q fun k =>
    putM k (fSub n % 8) (BitVec.ofNat 16 (sReg k (fRa n))) (sStain k (fRa n)))) h rfl
  refine ⟨t, hnext, honly, ?_⟩
  rw [hclu, advance_mreg, advance_mstain]
  refine ⟨advance_putM .., ?_, ?_, fun j hj => ⟨Tbl.get_set_other _ _ _ _ _ hj, ?_⟩⟩
  · refine (Tbl.get_set_same ..).trans ?_
    rw [← toNat_sVal, BitVec.ofNat_toNat]
  · refine (getLsbD_setBit ..).trans ?_
    rw [if_pos rfl, decide_eq_true (subWord_lt n), Bool.true_and]
  · exact (getLsbD_setBit ..).trans (if_neg hj)

/-- Settles O5, one instruction after another. -/
theorem scalarMoves : Obligations.ScalarMoves := by
  intro s q w k m
  exact ⟨execRdid_writes, execSstn_writes, execMget_writes, execMset_writes⟩

end Sys2Proof.Machine

namespace Sys2Proof.Machine
open Sys2Proof

/-! ### Where control goes (R145, R146, Table 5.6) -/

theorem fOp_wordOf {op : Nat} (w : BitVec 120) (h : op < 256) : fOp (wordOf op w) = op := by
  simp only [fOp, wordOf]
  omega

/-- The opcodes of `J`, `JAL` and the branches, whose target IMM gives. -/
def isRelative (op : Nat) : Prop := op = 3 ∨ op = 4 ∨ (6 ≤ op ∧ op ≤ 0x0C)

/-- The checks of a word with a relative target (R118, R165). -/
theorem reasons_relative {s : State} {q op : Nat} {w : BitVec 120} (hop : isRelative op) :
    why (outsideBlock (s.clu q) (branchTarget (s.clu q) (wordOf op w))) 0x08 ⊆ reasons s q (wordOf op w) := by
  have hlt : op < 256 := by unfold isRelative at hop; omega
  simp only [reasons, scalarReasons, fOp_wordOf w hlt]
  obtain rfl | rfl | ⟨hlo, hhi⟩ := hop
  · exact List.subset_append_right _ _
  · exact List.subset_append_right _ _
  · interval_cases op <;> exact List.subset_append_right _ _

/-- In a block, a relative word that passes its checks names a target in the block (R118). -/
theorem branchTarget_inside {s : State} {q : Cl} {op : Nat} {w : BitVec 120} (hop : isRelative op) (h : Issues s q op w) :
    outsideBlock (s.clu q.val) (branchTarget (s.clu q.val) (wordOf op w)) = false := by
  obtain ⟨-, -, -, -, hlow, -⟩ := h
  have hsub := reasons_relative (s := s) (q := q.val) (w := w) hop
  rw [lowest_eq_none hlow] at hsub
  exact why_eq_nil.1 (List.subset_nil.1 hsub)

/-- A signed 64-bit value is its word, or its word less 2^64. -/
theorem sgn_eq_or {n : Nat} (h : n < 2 ^ 64) : sgn 64 n = n ∨ sgn 64 n = (n : Int) - 2 ^ 64 := by
  rw [sgn, Nat.mod_eq_of_lt h]
  split
  · exact .inl rfl
  · exact .inr rfl

/-- A target that passes the check of R118 is `branchPc` (R146). -/
theorem ofNat_branchTarget {k : Cluster} {n : Nat} (h : outsideBlock k (branchTarget k n) = false) :
    BitVec.ofNat 64 (branchTarget k n).toNat = branchPc k n := by
  have himm : fImm n < 2 ^ 64 := Nat.mod_lt _ (by decide)
  have hsgn := sgn_eq_or himm
  refine BitVec.eq_of_toNat_eq ?_
  unfold outsideBlock at h
  unfold branchPc
  unfold branchTarget fImmS at h ⊢
  cases hsrc : k.src with
  | true =>
    rw [hsrc] at h
    simp only [if_true, Bool.true_and, Bool.or_eq_false_iff, decide_eq_false_iff_not] at h ⊢
    rw [BitVec.toNat_ofNat, BitVec.toNat_add, toNat_immOf]
    omega
  | false =>
    simp only [Bool.false_eq_true, if_false, wrap, Int.toNat_natCast, BitVec.toNat_ofNat, BitVec.toNat_setWidth,
      BitVec.toNat_add, BitVec.toNat_mul, toNat_immOf, BitVec.reduceToNat]
    omega

/-- The link value is the location of the following word (R145). -/
theorem ofNat_linkValue (k : Cluster) :
    BitVec.ofNat 64 (linkValue k) = if k.src then k.pc + 1 else ((k.pc + 16).setWidth 52).setWidth 64 := by
  refine BitVec.eq_of_toNat_eq ?_
  unfold linkValue
  split
  · rw [BitVec.toNat_ofNat, BitVec.toNat_add]
    rfl
  · rw [BitVec.toNat_ofNat, BitVec.toNat_setWidth, BitVec.toNat_setWidth, BitVec.toNat_add]
    simp only [BitVec.reduceToNat]
    omega

/-- A word that goes to `pc`. -/
theorem seqOp_jump {s : State} {q : Cl} {op t : Nat} {w : BitVec 120} {body : Nat → Nat → State → Did} {pc : DWord}
    (h : Issues s q op w) (hbody : body q.val (wordOf op w) s = .jump s t) (hpc : BitVec.ofNat 64 t = pc) :
    seqOp op q w body s = .next (s.updClu q.val fun _ => goTo pc (s.clu q.val)) := by
  rw [seqOp_issues _ h, hbody, settle_jump, hpc]
  rfl

/-- A word that takes its relative branch. -/
theorem seqOp_taken {s : State} {q : Cl} {op : Nat} {w : BitVec 120} {body : Nat → Nat → State → Did}
    (hop : isRelative op) (h : Issues s q op w) (hbody : body q.val (wordOf op w) s = takeBranch q.val (wordOf op w) s) :
    seqOp op q w body s = .next (s.updClu q.val fun _ => goTo (branchPc (s.clu q.val) (wordOf op w)) (s.clu q.val)) :=
  seqOp_jump h hbody (ofNat_branchTarget (branchTarget_inside hop h))

/-- A word that goes on with the following one. -/
theorem seqOp_next {s : State} {q : Cl} {op : Nat} {w : BitVec 120} {body : Nat → Nat → State → Did}
    (h : Issues s q op w) (hbody : body q.val (wordOf op w) s = .go s) :
    seqOp op q w body s = .next (s.updClu q.val fun _ => advance (s.clu q.val)) := by
  rw [seqOp_issues _ h, hbody]
  rfl

/-- A conditional branch goes to its target where its condition holds, and on where it does not. -/
theorem seqOp_branch {s : State} {q : Cl} {op : Nat} {w : BitVec 120} {body : Nat → Nat → State → Did} {c : Bool}
    (hop : isRelative op) (h : Issues s q op w)
    (hbody : body q.val (wordOf op w) s = if c then takeBranch q.val (wordOf op w) s else .go s) :
    seqOp op q w body s = .next (s.updClu q.val fun _ =>
      if c then goTo (branchPc (s.clu q.val) (wordOf op w)) (s.clu q.val) else advance (s.clu q.val)) := by
  cases c with
  | true => exact seqOp_taken hop h hbody
  | false => exact seqOp_next h hbody

/-- A branch that compares RA with RB, as the test is on 64-bit words. -/
theorem seqOp_branchIf {s : State} {q : Cl} {op : Nat} {w : BitVec 120} {f : Nat → Nat → Bool}
    {g : BitVec 64 → BitVec 64 → Bool} (hop : isRelative op) (hfg : ∀ a b : BitVec 64, f a.toNat b.toNat = g a b)
    (h : Issues s q op w) :
    let k := s.clu q.val
    let n := wordOf op w
    seqOp op q w (branchIf f) s = .next (s.updClu q.val fun _ =>
      if g (sVal k (fRa n)) (sVal k (fRb n)) then goTo (branchPc k n) k else advance k) := by
  intro k n
  refine seqOp_branch hop h ?_
  rw [← hfg, toNat_sVal, toNat_sVal]
  rfl

theorem beq_toNat (a b : BitVec 64) : (a.toNat == b.toNat) = (a == b) := by
  rw [Bool.eq_iff_iff, beq_iff_eq, beq_iff_eq, BitVec.toNat_inj]

theorem bne_toNat (a b : BitVec 64) : (a.toNat != b.toNat) = (a != b) := by
  rw [bne, bne, beq_toNat]

theorem uge_toNat (a b : BitVec 64) : decide (b.toNat ≤ a.toNat) = !a.ult b := by
  rw [BitVec.ult, ← decide_not, decide_eq_decide, Nat.not_lt]

theorem goTo_putS (pc : DWord) (k : Cluster) (r v : Nat) (st : Bool) :
    goTo pc (putS k r v st) = { goTo pc k with sreg := (putS k r v st).sreg, sstain := (putS k r v st).sstain } := by
  rw [putS_regs]
  rfl

/-- A link value that is put before control goes to `pc` is written to RD alone. -/
theorem wroteLink_of_putS {s t : State} {q n v : Nat} {pc : DWord} (honly : OnlyCluster s t q)
    (hclu : t.clu q = goTo pc (putS (s.clu q) (fRd n) v false)) :
    WroteLink s t q (fRd n) (BitVec.ofNat 64 v) pc := by
  refine ⟨honly, ?_, fun h => ?_, fun h => ?_, fun r h => ?_⟩
  · rw [hclu, goTo_putS]
  · rw [hclu]
    exact ⟨sVal_putS_same _ _ _ h, sStain_putS_same _ _ _ h (fRd_lt n)⟩
  · rw [h]
    exact ⟨rfl, rfl⟩
  · rw [hclu]
    exact ⟨sVal_putS_other _ _ _ h, sStain_putS_other _ _ _ h⟩

theorem execJal_links {s : State} {q : Cl} {w : BitVec 120} (h : Issues s q 0x04 w) :
    let k := s.clu q.val
    let n := wordOf 0x04 w
    ∃ t, execJal q w s = .next t
      ∧ WroteLink s t q.val (fRd n) (if k.src then k.pc + 1 else ((k.pc + 16).setWidth 52).setWidth 64) (branchPc k n) := by
  intro k n
  rw [← ofNat_linkValue, ← ofNat_branchTarget (branchTarget_inside (.inr (.inl rfl)) h)]
  refine ⟨_, seqOp_issues _ h, wroteLink_of_putS ((updClu_only ..).trans (updClu_only ..)) ?_⟩
  rw [settle_jump, State.clu_updClu_same, State.clu_updClu_same]
  rfl

theorem execNop_passes {s : State} {q : Cl} {w : BitVec 120} (h : Issues s q 0x00 w) :
    execNop q w s = .next (s.updClu q.val fun _ => advance (s.clu q.val)) :=
  seqOp_next h rfl

theorem execEndw_ends {s : State} {q : Cl} {w : BitVec 120} (h : Issues s q 0x01 w) :
    execEndw q w s = .next (s.updClu q.val fun _ => { s.clu q.val with ending := true, state := 1 }) :=
  seqOp_issues _ h

theorem execJmp_goes {s : State} {q : Cl} {w : BitVec 120} (h : Issues s q 0x03 w) :
    execJmp q w s = .next (s.updClu q.val fun _ => goTo (branchPc (s.clu q.val) (wordOf 0x03 w)) (s.clu q.val)) :=
  seqOp_taken (.inl rfl) h rfl

theorem execJr_goes {s : State} {q : Cl} {w : BitVec 120} (h : Issues s q 0x05 w) :
    execJr q w s = .next (s.updClu q.val fun _ => goTo (sVal (s.clu q.val) (fRa (wordOf 0x05 w))) (s.clu q.val)) :=
  seqOp_jump h rfl rfl

theorem execBstn_branches {s : State} {q : Cl} {w : BitVec 120} (h : Issues s q 0x0C w) :
    execBstn q w s = .next (s.updClu q.val fun _ => if sStain (s.clu q.val) (fRa (wordOf 0x0C w)) then
      goTo (branchPc (s.clu q.val) (wordOf 0x0C w)) (s.clu q.val) else advance (s.clu q.val)) :=
  seqOp_branch (.inr (.inr (by decide))) h rfl

/-- Settles O6: the words that go on, then those that jump, then the branches. -/
theorem controlTransfers : Obligations.ControlTransfers := by
  intro s q w k br
  have hbr : ∀ op c f g, exec c s = seqOp op q w (branchIf f) s → isRelative op →
      (∀ a b : BitVec 64, f a.toNat b.toNat = g a b) → br op c g := by
    intro op c f g hc hop hfg h
    rw [hc]
    exact seqOp_branchIf hop hfg h
  have hbetween : ∀ op, 6 ≤ op ∧ op ≤ 0x0C → isRelative op := fun op h => .inr (.inr h)
  clear_value br
  exact ⟨execNop_passes, execEndw_ends, execJmp_goes, execJal_links, execJr_goes,
    hbr _ _ _ _ rfl (hbetween _ (by decide)) beq_toNat, hbr _ _ _ _ rfl (hbetween _ (by decide)) bne_toNat,
    hbr _ _ _ _ rfl (hbetween _ (by decide)) ltS_toNat,
    hbr _ _ _ _ rfl (hbetween _ (by decide)) fun a b => congrArg not (ltS_toNat a b),
    hbr _ _ _ _ rfl (hbetween _ (by decide)) fun _ _ => rfl, hbr _ _ _ _ rfl (hbetween _ (by decide)) uge_toNat,
    execBstn_branches⟩

end Sys2Proof.Machine

namespace Sys2Proof.Machine
open Sys2Proof

/-! ### Words that stop the job (R164, R165, R446) -/

theorem lowest_eq_listMin (l : List Nat) : lowest l = l.min? := by
  cases l with
  | nil => rfl
  | cons a l => exact List.min?_cons'.symm

/-- `lowest` gives the least code of a list (R165). -/
theorem lowest_eq_some {l : List Nat} {r : Nat} (hmem : r ∈ l) (hmin : ∀ x ∈ l, r ≤ x) : lowest l = some r := by
  rw [lowest_eq_listMin]
  exact List.min?_eq_some_iff.2 ⟨hmem, hmin⟩

/-- An attempt at the word at the issue point that no stained register holds back and that gives a reason code (R165). -/
theorem seqOp_illegal {s : State} {q : Cl} {op r : Nat} {w : BitVec 120} (body : Nat → Nat → State → Did)
    (hcan : canIssue (s.clu q.val) = true) (hclock : islandStopped s q.val = false)
    (hfetch : fetchAt (s.clu q.val) = .word (wordOf op w)) (hstain : stainStops (s.clu q.val) (wordOf op w) = false)
    (hquiet : s.guard.armed = []) (hlow : lowest (reasons s q.val (wordOf op w)) = some r) :
    seqOp op q w body s = .next (illegal s.useFree q.val (wordLoc (s.clu q.val)) r) := by
  simp [seqOp, seqIssue, checkedIssue, readRa_quiet hquiet, detect_quiet hquiet, hcan, hclock, hfetch, hstain, hlow]

/-- An attempt at the word at the issue point that a stained register holds back (R164). -/
theorem seqOp_stained {s : State} {q : Cl} {op : Nat} {w : BitVec 120} (body : Nat → Nat → State → Did)
    (hcan : canIssue (s.clu q.val) = true) (hclock : islandStopped s q.val = false)
    (hfetch : fetchAt (s.clu q.val) = .word (wordOf op w)) (hstain : stainStops (s.clu q.val) (wordOf op w) = true)
    (hquiet : s.guard.armed = []) :
    seqOp op q w body s = .next (stainCtrl s q.val (wordLoc (s.clu q.val))) := by
  simp [seqOp, seqIssue, checkedIssue, readRa_quiet hquiet, detect_quiet hquiet, hcan, hclock, hfetch, hstain]

/-- What the sequencer of a running job that is not yet stopping leaves when an event of class `cls` halts it for `y`. -/
structure StoppedAt (s t : State) (q : Nat) (v : Fin 16) (cls : Nat) (y : StopWhy) : Prop where
  halted : (t.clu q).halted = true
  pc : (t.clu q).pc = (s.clu q).pc
  latch : 16 + cls ∈ t.irq.latch
  stopping : (t.jobAt v.val).stopping = true
  cause : (t.jobAt v.val).cause = BitVec.ofNat 8 y.cause
  reason : (s.jobAt v.val).reason = 0 → (t.jobAt v.val).reason = BitVec.ofNat 8 y.reason

/-- The reason code that a job without one keeps (R446). -/
theorem recordWhy_reason {j : Job} (y : StopWhy) (h : j.reason = 0) : (recordWhy j y).reason = BitVec.ofNat 8 y.reason := by
  obtain ⟨cause, reason, abort, cls, cluster⟩ := y
  cases abort with
  | none => simp [recordWhy, h, apply_ite Job.reason]
  | some b => simp [recordWhy, h, apply_ite Job.reason]

/-- An event and the halt that follows it stop the job of the cluster (R396, R446). -/
theorem haltStop_raise {s : State} {q : Nat} {v : Fin 16} (e : Ev) (y : StopWhy) (hlisted : classListed e.cls = true)
    (hstep : e.cls ≠ evGctStep) (hwin : (s.clu q).win = some v) (hrun : (s.jobAt v.val).running = true)
    (hnot : (s.jobAt v.val).stopping = false) : StoppedAt s (haltStop (raise s e) q y) q v e.cls y := by
  have hclu := clu_of_cl (raise_frame s e).cl q
  have hjobs : (raise s e).jobAt v.val = s.jobAt v.val := by rw [State.jobAt, (raise_frame s e).hif, State.jobAt]
  have hlatch := raise_latch s e hlisted hstep
  generalize raise s e = u at hclu hjobs hlatch ⊢
  rw [haltStop_eq y (by rw [hclu, hwin])]
  generalize hz : ({ y with cluster := clId q } : StopWhy) = z
  have hsame : (u.updClu q fun k => { k with halted := true }).jobAt v.val = s.jobAt v.val := hjobs
  have hself := jobStop_jobAt z (by rw [hsame, hrun]) (by rw [hsame, hnot]) v.val
  rw [State.jobAt_updJob_same, hsame] at hself
  have hsent := (jobStop_sends (u.updClu q fun k => { k with halted := true }) v.val z).clu q
  rw [State.clu_updClu_same, hclu] at hsent
  subst hz
  refine ⟨?_, ?_, (jobStop_grows ..).mem _ hlatch, ?_, ?_, fun h => ?_⟩
  · rcases hsent with h | h <;> rw [h]
  · rcases hsent with h | h <;> rw [h]
  · rw [hself]
  · rw [hself]
    exact (recordWhy_first _ hnot).1
  · rw [hself]
    exact recordWhy_reason _ h

/-- A word with the lowest code `r` stops the job with CAUSE 3. -/
theorem illegal_stops {s : State} {q : Nat} {v : Fin 16} (loc r : Nat) (hwin : (s.clu q).win = some v)
    (hrun : (s.jobAt v.val).running = true) (hnot : (s.jobAt v.val).stopping = false) :
    StoppedAt s (illegal s q loc r) q v evIllegal { cause := 3, reason := r, cls := evIllegal } :=
  haltStop_raise _ _ rfl (show evIllegal ≠ evGctStep by decide) hwin hrun hnot

/-- A word that a stained register holds back stops the job with CAUSE 4. -/
theorem stainCtrl_stops {s : State} {q : Nat} {v : Fin 16} (loc : Nat) (hwin : (s.clu q).win = some v)
    (hrun : (s.jobAt v.val).running = true) (hnot : (s.jobAt v.val).stopping = false) :
    StoppedAt s (stainCtrl s q loc) q v evStainCtrl { cause := 4, cls := evStainCtrl } :=
  haltStop_raise _ _ rfl (show evStainCtrl ≠ evGctStep by decide) hwin hrun hnot

/-- The words that take control, or an operand of it, from RA (Table 5.17). -/
theorem stainStops_ra (k : Cluster) {op : Nat} (w : BitVec 120) (h : op = 0x05 ∨ op = 0x63 ∨ op = 0x67 ∨ op = 0x68) :
    stainStops k (wordOf op w) = sStain k (fRa (wordOf op w)) := by
  have hlt : op < 0x80 := by omega
  simp only [stainStops, fOp_wordOf w (Nat.lt_trans hlt (by decide)), if_neg (Nat.not_le.2 hlt), if_pos h]

theorem stainStops_beq (k : Cluster) (w : BitVec 120) :
    stainStops k (wordOf 0x06 w) = (sStain k (fRa (wordOf 0x06 w)) || sStain k (fRb (wordOf 0x06 w))) := by
  simp only [stainStops, fOp_wordOf w (op := 0x06) (by decide)]
  rfl

/-- Settles O14: the attempt ends in `illegal` or in `stainCtrl`, and both are an event and the halt that stops the job. -/
theorem wordsThatStopTheJob : Obligations.WordsThatStopTheJob := by
  refine ⟨?_, ?_⟩
  · intro s q w v r bad
    have hbad : ∀ op c body, exec c s = seqOp op q w body s → bad op c := by
      intro op c body hc hcan hclock hfetch hstain hquiet hmem hmin hwin hrun hnot
      rw [hc, seqOp_illegal body hcan hclock hfetch hstain hquiet (lowest_eq_some hmem hmin)]
      obtain ⟨hhalted, hpc, hlatch, hstopping, hcause, hreason⟩ :=
        illegal_stops (s := s.useFree) (wordLoc (s.clu q.val)) r hwin hrun hnot
      exact ⟨_, rfl, hhalted, hpc, hlatch, hstopping, hcause, hreason⟩
    clear_value bad
    exact ⟨hbad _ _ _ rfl, hbad _ _ _ rfl, hbad _ _ _ rfl, hbad _ _ _ (show execLdw q w s = _ from rfl), hbad _ _ _ rfl,
      hbad _ _ _ rfl, hbad _ _ _ rfl⟩
  · intro s q w v k stops ra
    have hstops : ∀ op c st body, exec c s = seqOp op q w body s → stainStops k (wordOf op w) = st → stops op c st := by
      intro op c st body hc hst hcan hclock hfetch hstained hquiet hwin hrun hnot
      rw [hc, seqOp_stained body hcan hclock hfetch (hst.trans hstained) hquiet]
      obtain ⟨hhalted, hpc, hlatch, hstopping, hcause, -⟩ := stainCtrl_stops (wordLoc (s.clu q.val)) hwin hrun hnot
      exact ⟨_, rfl, hhalted, hpc, hlatch, hstopping, hcause⟩
    clear_value stops
    exact ⟨hstops _ _ _ _ (show execJr q w s = _ from rfl) (stainStops_ra k w (by decide)),
      hstops _ _ _ _ (show execWaits q w s = _ from rfl) (stainStops_ra k w (by decide)),
      hstops _ _ _ _ (show execCwait q w s = _ from rfl) (stainStops_ra k w (by decide)),
      hstops _ _ _ _ rfl (stainStops_ra k w (by decide)), hstops _ _ _ _ rfl (stainStops_beq k w)⟩

end Sys2Proof.Machine

namespace Sys2Proof.Machine
open Sys2Proof

/-! ### A near-memory sector read as it was stored (R209) -/

theorem cut_nmEncode {data : List Byte} (h : data.length = 32) (st : Bool) : cut (nmEncode data st) 0 32 = data := by
  rw [nmEncode, List.append_assoc, show cut data 0 32 = data from h ▸ cut_all data]
  exact h ▸ cut_append_left data _

theorem byteAt_nmEncode_stain (data : List Byte) (st : Bool) : byteAt (nmEncode data st) 32 = BitVec.ofNat 8 (b2n st) := by
  rw [nmEncode, List.append_assoc, byteAt, List.getD_append_right _ _ _ _ (cut_length ..).le, cut_length]
  rfl

theorem rsDecode1_nmEncode (data : List Byte) (st : Bool) : rsDecode1 3 (nmEncode data st) = .clean := by
  have hsyn : syndromes 3 (nmEncode data st) = [0, 0, 0] := by
    change [gfEval _ _, gfEval _ _, gfEval _ _] = _
    rw [gfEval_nmEncode data st 0 (by decide), gfEval_nmEncode data st 1 (by decide), gfEval_nmEncode data st 2 (by decide)]
  rw [rsDecode1, hsyn]
  rfl

theorem nmDecode_nmEncode {data : List Byte} (h : data.length = 32) (st : Bool) :
    nmDecode (nmEncode data st) = { data := data, stain := st, how := 0 } := by
  rw [nmDecode, rsDecode1_nmEncode]
  simp only [cut_nmEncode h, byteAt_nmEncode_stain]
  cases st <;> rfl

/-- A sector whose symbols are a code word is read as it stands, and the read changes nothing. -/
theorem nmReadWith_clean {s : State} {k o : Nat} {data : List Byte} {st : Bool} (hsyms : nmSyms s k o = nmEncode data st)
    (h : data.length = 32) (inj : Bool) : nmReadWith s k o [] inj = (s, data, st) := by
  simp only [nmReadWith, List.foldl_nil, hsyms, nmDecode_nmEncode h]

/-- The same of an HBM4 sector of which the stack reports no error (R211). -/
theorem hbmReadWith_clean {s : State} {k o : Nat} (h : hbmReport s k o .clean = .clean) (inj : Bool) :
    hbmReadWith s k o .clean inj = (s, hbmData s k o, hbmStained s k o) := by
  simp only [hbmReadWith, h]
  rfl

/-! ### A controller's access through the shelf (R207, R230) -/

theorem activate_frame (s : State) (hbm : Bool) (k o : Nat) : MemFrame s (activate s hbm k o) := by
  rw [activate]
  split
  · exact mem_frame s _
  · exact .refl s

theorem cachedAt_activate (s : State) (hbm : Bool) (k o : Nat) (hbm' : Bool) (k' o' : Nat) :
    cachedAt (activate s hbm k o) hbm' k' o' = cachedAt s hbm' k' o' := by
  rw [activate]
  split
  · exact cachedAt_hbmActivate ..
  · rfl

/-- A sector that the shelf holds opens no row. -/
theorem activate_cached {s : State} {hbm : Bool} {k o : Nat} {x : Cached} (h : cachedAt s hbm k o = some x) :
    activate s hbm k o = s := by
  cases hbm with
  | false => rfl
  | true =>
    rw [activate, h]
    rfl

theorem ctlRead_cached {s : State} {hbm : Bool} {k o : Nat} {x : Cached} (h : cachedAt s hbm k o = some x) (win : Option Nat)
    (upset : List (Nat × Byte)) (rep : EccReport) : ctlRead s hbm k o win upset rep = (s, x.data, x.stain) := by
  rw [ctlRead, h]

theorem ctlRead_uncached {s : State} {hbm : Bool} {k o : Nat} (h : cachedAt s hbm k o = none) (win : Option Nat)
    (upset : List (Nat × Byte)) (rep : EccReport) : ctlRead s hbm k o win upset rep = dramRead s hbm k o upset rep win := by
  rw [ctlRead, h]

theorem ctlWrite_frame (s : State) (hbm : Bool) (k o : Nat) (data : List Byte) (en : Nat) (st : Bool)
    (upset : List (Nat × Byte)) (rep : EccReport) (win : Option Nat) :
    MemFrame s (ctlWrite s hbm k o data en st upset rep win) := by
  rw [ctlWrite]
  split
  · exact updCached_frame ..
  · exact dramWrite_frame ..

/-- A whole write of a sector that the shelf does not hold is a store below the shelf. -/
theorem ctlWrite_whole {s : State} {hbm : Bool} {k o : Nat} (h : cachedAt s hbm k o = none) (data : List Byte) (st : Bool)
    (upset : List (Nat × Byte)) (rep : EccReport) (win : Option Nat) :
    ctlWrite s hbm k o data wholeEn st upset rep win = dramStore s hbm k o data st := by
  rw [ctlWrite, h]
  exact if_pos (by decide)

/-! ### Outstanding accesses of a stream -/

theorem State.acc_updAcc_same {s : State} {q c : Nat} {d : StreamDir} {i : Nat} {a : SAcc} (h : s.acc q c d i = some a)
    (f : SAcc → SAcc) : (s.updAcc q c d i f).acc q c d i = some (f a) := by
  rw [State.acc, State.updAcc, State.coreOf_updCoreOf_same, CoreSt.accs_setAccs_same, getElem?_alter]
  exact congrArg (Option.map f) h

theorem State.pad_updAcc_same (s : State) (q c : Nat) (d : StreamDir) (i : Nat) (f : SAcc → SAcc) :
    ((s.updAcc q c d i f).coreOf q c).pad = (s.coreOf q c).pad := by
  rw [State.updAcc, State.coreOf_updCoreOf_same, CoreSt.setAccs_pad]

theorem State.coreOf_of_cl {s t : State} (h : t.cl = s.cl) (q c : Nat) : t.coreOf q c = s.coreOf q c := by
  rw [State.coreOf, State.coreOf, clu_of_cl h]

theorem State.acc_of_cl {s t : State} (h : t.cl = s.cl) (q c : Nat) (d : StreamDir) (i : Nat) :
    t.acc q c d i = s.acc q c d i := by
  rw [State.acc, State.acc, State.coreOf_of_cl h]

/-- An access that is ready is one of the list. -/
theorem acc_of_readyAcc {s : State} {q c : Nat} {d : StreamDir} {i : Nat} {hbm write : Bool} {a : SAcc}
    (h : readyAcc s q c d i hbm write = some a) : s.acc q c d i = some a := by
  unfold readyAcc at h
  split at h
  · rename_i b hb
    split at h
    · exact hb.trans h
    · exact nomatch h
  · exact nomatch h

/-- The access stands as `a`, and its scratchpad, the other clusters and the host interface are as they were. -/
structure AccDone (s t : State) (q c : Nat) (d : StreamDir) (i : Nat) (a : SAcc) : Prop where
  acc : t.acc q c d i = some a
  pad : (t.coreOf q c).pad = (s.coreOf q c).pad
  other : ∀ p, p ≠ q → t.clu p = s.clu p
  hif : t.hif = s.hif

/-- A change of memory, and then of one access, is no other change of the clusters. -/
theorem MemFrame.accDone {s t : State} (hframe : MemFrame s t) {q c : Nat} {d : StreamDir} {i : Nat} {a : SAcc}
    (h : s.acc q c d i = some a) (f : SAcc → SAcc) : AccDone s (t.updAcc q c d i f) q c d i (f a) where
  acc := State.acc_updAcc_same ((State.acc_of_cl hframe.cl ..).trans h) f
  pad := (State.pad_updAcc_same ..).trans (congrArg CoreSt.pad (State.coreOf_of_cl hframe.cl ..))
  other p hp := (State.clu_updClu_other _ _ _ _ hp).trans (clu_of_cl hframe.cl p)
  hif := hframe.hif

/-! ### Reads of a stream's sector (R185, R207, R208, R211, R230) -/

section
variable {s : State} {q : Cl} {c : Core} {d : StreamDir} {i : Nat} {a : SAcc} {hbm : Bool}

/-- A read that is ready takes what the controller reads. -/
theorem readReq_ready (ha : readyAcc s q.val c.val d i hbm false = some a) {upset : List (Nat × Byte)} {rep : EccReport}
    {t : State} {data : List Byte} {st : Bool}
    (hread : ctlRead (activate s hbm a.stack a.place) hbm a.stack a.place (cluWin s q.val) upset rep = (t, data, st)) :
    readReq s hbm (.stream q c d i) upset rep
      = t.updAcc q.val c.val d i fun x => { x with data := data, stain := st, phase := 3 } := by
  simp only [readReq, ha, hread]

theorem readReq_ready_cached (ha : readyAcc s q.val c.val d i hbm false = some a) {x : Cached}
    (hc : cachedAt s hbm a.stack a.place = some x) (upset : List (Nat × Byte)) (rep : EccReport) :
    readReq s hbm (.stream q c d i) upset rep
      = s.updAcc q.val c.val d i fun y => { y with data := x.data, stain := x.stain, phase := 3 } := by
  refine readReq_ready ha ?_
  rw [activate_cached hc, ctlRead_cached hc]

/-- Of HBM4 the row of the sector is opened first, and its bytes and its bit of the stain map are delivered. -/
theorem readReq_ready_hbm (hquiet : s.guard.armed = []) (ha : readyAcc s q.val c.val d i true false = some a)
    (hc : cachedAt s true a.stack a.place = none) (hclean : hbmReport s a.stack a.place .clean = .clean) :
    readReq s true (.stream q c d i) [] .clean
      = (hbmActivate s a.stack a.place).updAcc q.val c.val d i fun x =>
          { x with data := hbmData s a.stack a.place, stain := hbmStained s a.stack a.place, phase := 3 } := by
  have hquiet' : (hbmActivate s a.stack a.place).guard.armed = [] := hquiet
  have hclean' : hbmReport (hbmActivate s a.stack a.place) a.stack a.place .clean = .clean := hclean
  refine readReq_ready ha ?_
  rw [activate_uncached hc, ctlRead_uncached ((cachedAt_hbmActivate ..).trans hc), dramRead_quiet hquiet', if_pos rfl]
  exact hbmReadWith_clean hclean' false

theorem readReq_ready_near (hquiet : s.guard.armed = []) (ha : readyAcc s q.val c.val d i false false = some a)
    (hc : cachedAt s false a.stack a.place = none) {data : List Byte} {st : Bool}
    (hsyms : nmSyms s a.stack a.place = nmEncode data st) (hlen : data.length = 32) :
    readReq s false (.stream q c d i) [] .clean
      = s.updAcc q.val c.val d i fun x => { x with data := data, stain := st, phase := 3 } := by
  refine readReq_ready ha ?_
  change ctlRead s false a.stack a.place (cluWin s q.val) [] .clean = _
  rw [ctlRead_uncached hc, dramRead_quiet hquiet, if_neg Bool.false_ne_true]
  exact nmReadWith_clean hsyms hlen false

/-! ### Writes of a stream's sector (R186, R207, R230) -/

theorem writeReq_ready (ha : readyAcc s q.val c.val d i hbm true = some a) (upset : List (Nat × Byte)) (rep : EccReport) :
    writeReq s hbm (.stream q c d i) upset rep
      = (ctlWrite (activate s hbm a.stack a.place) hbm a.stack a.place a.data a.en a.stain upset rep (cluWin s q.val)).updAcc
          q.val c.val d i fun x => { x with phase := 3 } := by
  rw [writeReq, ha]

theorem writeReq_ready_done (ha : readyAcc s q.val c.val d i hbm true = some a) (upset : List (Nat × Byte)) (rep : EccReport) :
    AccDone s (writeReq s hbm (.stream q c d i) upset rep) q.val c.val d i { a with phase := 3 } := by
  rw [writeReq_ready ha]
  exact ((activate_frame ..).trans (ctlWrite_frame ..)).accDone (acc_of_readyAcc ha) _

/-- A write of a whole sector that the shelf does not hold leaves the memory that a store of it leaves. -/
theorem writeReq_ready_whole_mem (ha : readyAcc s q.val c.val d i hbm true = some a)
    (hc : cachedAt s hbm a.stack a.place = none) (hen : a.en = wholeEn) (upset : List (Nat × Byte)) (rep : EccReport) :
    (writeReq s hbm (.stream q c d i) upset rep).mem
      = (dramStore (activate s hbm a.stack a.place) hbm a.stack a.place a.data a.stain).mem := by
  rw [writeReq_ready ha, hen, ctlWrite_whole ((cachedAt_activate ..).trans hc)]
  rfl

theorem writeReq_ready_hbm_stores (ha : readyAcc s q.val c.val d i true true = some a)
    (hc : cachedAt s true a.stack a.place = none) (hen : a.en = wholeEn) (rep : EccReport) :
    hbmData (writeReq s true (.stream q c d i) [] rep) a.stack a.place = cut a.data 0 32
      ∧ hbmStained (writeReq s true (.stream q c d i) [] rep) a.stack a.place = a.stain := by
  have hmem : _ = (hbmStore (activate s true a.stack a.place) a.stack a.place a.data a.stain).mem :=
    writeReq_ready_whole_mem ha hc hen [] rep
  refine ⟨?_, (hbmStained_of_mem hmem ..).trans (hbmStained_hbmStore ..)⟩
  rw [hbmData, hmem]
  exact hbmData_hbmStore ..

theorem writeReq_ready_near_stores (ha : readyAcc s q.val c.val d i false true = some a)
    (hc : cachedAt s false a.stack a.place = none) (hen : a.en = wholeEn) (upset : List (Nat × Byte)) :
    nmSyms (writeReq s false (.stream q c d i) upset .clean) a.stack a.place = nmEncode a.data a.stain :=
  (nmSyms_of_mem (writeReq_ready_whole_mem ha hc hen upset .clean) ..).trans (nmSyms_nmStore ..)
end

/-- Settles O24: a read as one change of its access after what the controller reads, cached or not; a write by the frame of
the memory's own work, and by what a store leaves where it is whole. -/
theorem streamSectorAccesses : Obligations.StreamSectorAccesses := by
  intro s q c d i a hquiet reads wrote
  refine ⟨fun ha => ⟨fun x hc => ?_, fun hc hclean => ?_⟩, fun ha => ⟨fun x hc => ?_, fun data st hc hsyms hlen => ?_⟩,
    fun ha => ?_, fun ha => ?_⟩
  · exact ⟨_, rfl, readReq_ready_cached ha hc [] .clean⟩
  · have hacc : (hbmActivate s a.stack a.place).acc q.val c.val d i = some a := acc_of_readyAcc ha
    refine ⟨_, congrArg Host.Outcome.next (readReq_ready_hbm hquiet ha hc hclean), ?_, State.acc_updAcc_same hacc _⟩
    exact updCoreOf_only (hbmActivate s a.stack a.place) ..
  · exact ⟨_, rfl, readReq_ready_cached ha hc [] .clean⟩
  · exact ⟨_, rfl, readReq_ready_near hquiet ha hc hsyms hlen⟩
  · have hdone := writeReq_ready_done ha [] .clean
    exact ⟨_, rfl, ⟨hdone.acc, hdone.pad, hdone.other, hdone.hif⟩, fun hc hen => writeReq_ready_hbm_stores ha hc hen .clean⟩
  · have hdone := writeReq_ready_done ha [] .clean
    exact ⟨_, rfl, ⟨hdone.acc, hdone.pad, hdone.other, hdone.hif⟩, fun hc hen => writeReq_ready_near_stores ha hc hen []⟩
end Sys2Proof.Machine

namespace Sys2Proof.Machine
open Sys2Proof

/-! ### One link changes (R241) -/

theorem irqEvent_eq (s : State) (n : Nat) : irqEvent s n = { s with irq := (irqEvent s n).irq } := by
  unfold irqEvent
  split
  · rfl
  · rfl

theorem OnlyLink.refl (s : State) (l : Nat) : OnlyLink s s l := ⟨rfl, fun _ _ => rfl⟩

theorem OnlyLink.trans {s t u : State} {l : Nat} (h : OnlyLink s t l) (k : OnlyLink t u l) : OnlyLink s u l := by
  refine ⟨k.1.trans ?_, fun m hm => (k.2 m hm).trans (h.2 m hm)⟩
  rw [h.1]

theorem OnlyLink.ite {s t u : State} {l : Nat} {c : Prop} [Decidable c] (h : OnlyLink s t l) (k : OnlyLink s u l) :
    OnlyLink s (if c then t else u) l := by
  split
  · exact h
  · exact k

theorem updLink_only (s : State) (l : Nat) (f : TLink → TLink) : OnlyLink s (s.updLink l f) l := by
  refine ⟨?_, fun m hm => State.link_updLink_other s m l f hm⟩
  dsimp only [State.updLink]
  split
  · rfl
  · rw [irqEvent_tl]
    exact irqEvent_eq ..

/-- A command that changes one link: what the other parts of the state and the link are after it. -/
theorem next_updLink {s : State} {l : Nat} {f : TLink → TLink} {v : TLink} {a : Ans} (ha : a = .next (s.updLink l f))
    (hf : f (s.link l) = v) : ∃ t, a = .next t ∧ OnlyLink s t l ∧ t.link l = v :=
  ⟨_, ha, updLink_only .., (State.link_updLink_same ..).trans hf⟩

/-! ### Training (R244, R246, R265, R291, R495) -/

theorem signalDetect_next {s : State} {l : Link} (hen : linkEn s l.val = true) (hboot : s.boot.state ≠ 2)
    (htrain : (s.link l.val).train = 1) :
    execLinkTrainSignalDetect l s = .next (s.updLink l.val fun k => { k with train := 2, state := 1 }) := by
  refine congrArg Host.Outcome.next (if_pos ?_)
  simpa [hen, htrain] using hboot

theorem trainRestart_next {s : State} {l : Link} (hen : linkEn s l.val = true) (htrain : (s.link l.val).train = 1) :
    execLinkTrainRestart l s = .next (s.updLink l.val startTraining) := by
  refine congrArg Host.Outcome.next (if_pos ?_)
  simp [hen, htrain]

theorem trainEqualised_next {s : State} {l : Link} (htrain : (s.link l.val).train = 2) :
    execLinkTrainEqualised l s = .next (s.updLink l.val fun k => { k with train := 3 }) := by
  refine congrArg Host.Outcome.next (if_pos ?_)
  simp [htrain]

theorem flitLock_next {s : State} {l : Link} (htrain : (s.link l.val).train = 4) :
    execLinkFlitLock l s = .next (s.updLink l.val fun k => { k with train := 5, locked := true }) := by
  refine congrArg Host.Outcome.next (if_pos ?_)
  simp [htrain]

theorem lockLoss_next {s : State} {l : Link} (hen : linkEn s l.val = true) (hcarries : carries (s.link l.val) = false)
    (htrain : (s.link l.val).train ≠ 0) :
    execFlitLockLoss l s = .next (s.updLink l.val fun k =>
      if k.state = 3 ∧ k.fence = true then { k with locked := false, pstate := 0, preason := 0 } else startTraining k) := by
  refine if_pos ?_
  simp [hen, hcarries, htrain]

theorem lanesFound_permuted {s : State} {l : Link} (htrain : (s.link l.val).train = 3) (tx rx : BitVec 9) :
    execLinkTrainLanesFound l tx rx false s = .next (s.updLink l.val fun k => { k with state := 5, reason := 4 }) :=
  (if_neg (not_not_intro htrain)).trans (if_pos rfl)

theorem lanesFound_few {s : State} {l : Link} (htrain : (s.link l.val).train = 3) {tx rx : BitVec 9}
    (hfew : laneCount (tx &&& ~~~(s.link l.val).recTx) < 4 ∨ laneCount (rx &&& ~~~(s.link l.val).recRx) < 4) :
    execLinkTrainLanesFound l tx rx true s
      = .next (s.updLink l.val fun k => { k with state := 6, reason := 2, train := 0 }) :=
  (if_neg (not_not_intro htrain)).trans ((if_neg Bool.false_ne_true).trans (if_pos hfew))

/-- The link that goes on to flit lock on lanes `t` and `r`. -/
def lanesKept (t r : BitVec 9) (k : TLink) : TLink :=
  { k with train := 4, txLanes := t, rxLanes := r, txHalf := k.recTxHalf || decide (laneCount t < 8),
           rxHalf := k.recRxHalf || decide (laneCount r < 8),
           cal := k.cal ||| BitVec.ofNat 4 (2 ^ k.band.toNat), usedBand := k.band }

theorem lanesFound_kept {s : State} {l : Link} (htrain : (s.link l.val).train = 3) {tx rx : BitVec 9}
    (htx : 4 ≤ laneCount (tx &&& ~~~(s.link l.val).recTx)) (hrx : 4 ≤ laneCount (rx &&& ~~~(s.link l.val).recRx)) :
    execLinkTrainLanesFound l tx rx true s = .next (s.updLink l.val
      (lanesKept (tx &&& ~~~(s.link l.val).recTx) (rx &&& ~~~(s.link l.val).recRx))) :=
  (if_neg (not_not_intro htrain)).trans ((if_neg Bool.false_ne_true).trans
    (if_neg (not_or_intro (Nat.not_lt.2 htx) (Nat.not_lt.2 hrx))))

/-- The calibration of the present band is held after it is added. -/
theorem getLsbD_calibrated (cal : BitVec 4) (b : BitVec 2) :
    (cal ||| BitVec.ofNat 4 (2 ^ b.toNat)).getLsbD b.toNat = true := by
  revert cal b
  decide

/-- Settles O33: one lemma for each command and outcome of the training. -/
theorem linkTraining : Obligations.LinkTraining := by
  intro s l
  refine ⟨fun hen hboot htrain => next_updLink (signalDetect_next hen hboot htrain) rfl,
    fun hen htrain => next_updLink (trainRestart_next hen htrain) rfl,
    fun htrain => next_updLink (trainEqualised_next htrain) rfl,
    fun htrain tx rx => ⟨next_updLink (lanesFound_permuted htrain tx rx) rfl,
      fun hfew => next_updLink (lanesFound_few htrain hfew) rfl, fun htx hrx => ?kept⟩,
    fun htrain => next_updLink (flitLock_next htrain) rfl,
    fun hen hcarries htrain => next_updLink (lockLoss_next hen hcarries htrain) rfl⟩
  case kept =>
    obtain ⟨t, hnext, honly, hlink⟩ := next_updLink (lanesFound_kept htrain htx hrx) rfl
    refine ⟨t, hnext, honly, ?_⟩
    rw [hlink]
    exact ⟨rfl, rfl, rfl, getLsbD_calibrated .., rfl, rfl⟩
end Sys2Proof.Machine

namespace Sys2Proof.Machine
open Sys2Proof

/-! ### What the traffic through the routers leaves of the links (R258, R260, R276, R308)

Flits that move, are discarded or are flooded change a link's buffers, routes and counts. The rest of each link stays, and
a link that is not UP gets no new flits to send. -/

/-- A link without what traffic through its router changes. -/
def TLink.still (k : TLink) : TLink :=
  { k with inbuf := [], route := [], coming := [], outq := [], eject := [], owed := [], myFreed := [], cnt := [] }

/-- The outputs of the second state are those of the first and then others, none of which is a wire flit. -/
def NoFlitOut (s t : State) : Prop :=
  ∃ frames, t.out = s.out ++ frames ∧ ∀ o ∈ frames, ∀ m f lanes, o ≠ .flit m f lanes

theorem NoFlitOut.of_out {s t : State} (h : t.out = s.out) : NoFlitOut s t :=
  ⟨[], h.trans (List.append_nil _).symm, fun _ ho => absurd ho List.not_mem_nil⟩

theorem NoFlitOut.trans {s t u : State} (h : NoFlitOut s t) (k : NoFlitOut t u) : NoFlitOut s u := by
  obtain ⟨a, ha, hna⟩ := h
  obtain ⟨b, hb, hnb⟩ := k
  refine ⟨a ++ b, by rw [hb, ha, List.append_assoc], fun o ho => ?_⟩
  rcases List.mem_append.1 ho with ho | ho
  · exact hna o ho
  · exact hnb o ho

structure TrafficFrame (s t : State) : Prop where
  still : ∀ m, (t.link m).still = (s.link m).still
  outq : ∀ m, (s.link m).state ≠ 2 → (t.link m).outq = (s.link m).outq
  tl : t.tl = { s.tl with link := t.tl.link, arrived := t.tl.arrived }
  grows : LatchGrows s t
  out : NoFlitOut s t
  broken : s.slc.broken = true → t.slc.broken = true

theorem TrafficFrame.refl (s : State) : TrafficFrame s s :=
  ⟨fun _ => rfl, fun _ _ => rfl, rfl, .refl s, .of_out rfl, id⟩

theorem TrafficFrame.state {s t : State} (h : TrafficFrame s t) (m : Nat) : (t.link m).state = (s.link m).state :=
  (congrArg TLink.state (h.still m) :)

theorem TrafficFrame.trans {s t u : State} (h : TrafficFrame s t) (k : TrafficFrame t u) : TrafficFrame s u where
  still m := (k.still m).trans (h.still m)
  outq m hm := (k.outq m (by rwa [h.state])).trans (h.outq m hm)
  tl := k.tl.trans (by rw [h.tl])
  grows := h.grows.trans k.grows
  out := h.out.trans k.out
  broken := k.broken ∘ h.broken

theorem TrafficFrame.foldl {β : Type} {f : State → β → State} (h : ∀ s b, TrafficFrame s (f s b)) (l : List β) (s : State) :
    TrafficFrame s (l.foldl f s) := by
  induction l generalizing s with
  | nil => exact .refl s
  | cons b l ih => exact (h s b).trans (ih _)

theorem TrafficFrame.ite {s t u : State} {c : Prop} [Decidable c] (h : TrafficFrame s t) (k : TrafficFrame s u) :
    TrafficFrame s (if c then t else u) := by
  split
  · exact h
  · exact k

theorem State.link_of_tl {s t : State} (h : t.tl = s.tl) (m : Nat) : t.link m = s.link m := by
  rw [State.link, h, State.link]

/-- What changes no link and sends no flit. -/
theorem TrafficFrame.of_parts {s t : State} (htl : t.tl = s.tl) (hgrows : LatchGrows s t) (hout : t.out = s.out)
    (hslc : t.slc = s.slc) : TrafficFrame s t where
  still m := congrArg TLink.still (State.link_of_tl htl m)
  outq m _ := congrArg TLink.outq (State.link_of_tl htl m)
  tl := by rw [htl]
  grows := hgrows
  out := .of_out hout
  broken := by
    rw [hslc]
    exact id

theorem raise_traffic (s : State) (e : Ev) : TrafficFrame s (raise s e) :=
  have h := raise_frame s e
  .of_parts h.tl (raise_grows ..) h.out h.slc

theorem irqEvent_grows_of_irq {s t : State} (h : t.irq = s.irq) (n : Nat) : LatchGrows s (irqEvent t n) :=
  (LatchGrows.of_irq h).trans (irqEvent_grows t n)

theorem updLink_grows (s : State) (l : Nat) (f : TLink → TLink) : LatchGrows s (s.updLink l f) := by
  dsimp only [State.updLink]
  split
  · exact .of_irq rfl
  · exact irqEvent_grows_of_irq (by rfl) _

theorem updLink_tl (s : State) (l : Nat) (f : TLink → TLink) :
    (s.updLink l f).tl = { s.tl with link := (s.updLink l f).tl.link } :=
  congrArg State.tl (updLink_only s l f).1

@[simp] theorem updLink_arrived (s : State) (l : Nat) (f : TLink → TLink) : (s.updLink l f).tl.arrived = s.tl.arrived :=
  (congrArg Tl.arrived (updLink_tl s l f) :)

/-- A change of what traffic changes of a link, where it queues flits only on a link that is UP. -/
theorem updLink_traffic {s : State} {l : Nat} {f : TLink → TLink} (hstill : (f (s.link l)).still = (s.link l).still)
    (hout : (s.link l).state ≠ 2 → (f (s.link l)).outq = (s.link l).outq) : TrafficFrame s (s.updLink l f) where
  still m := by
    by_cases hm : m = l
    · rw [hm, State.link_updLink_same, hstill]
    · rw [State.link_updLink_other s m l f hm]
  outq m hstate := by
    by_cases hm : m = l
    · rw [hm] at hstate ⊢
      rw [State.link_updLink_same, hout hstate]
    · rw [State.link_updLink_other s m l f hm]
  tl := (updLink_tl s l f).trans (by rw [updLink_arrived])
  grows := updLink_grows ..
  out := .of_out (State.updLink_out ..)
  broken := by
    rw [State.updLink_slc]
    exact id

/-! ### The routers (R273, R276) -/

theorem tlCount_traffic (s : State) (l kind n : Nat) : TrafficFrame s (tlCount s l kind n) :=
  updLink_traffic rfl fun _ => rfl

theorem discardAt_traffic (s : State) (l n : Nat) : TrafficFrame s (discardAt s l n) :=
  (tlCount_traffic ..).trans (.ite (.foldl (fun _ _ => raise_traffic ..) _ _) (.refl _))

theorem badPacket_traffic (s : State) (l : Nat) (p : Packet) : TrafficFrame s (badPacket s l p) :=
  .trans (.ite (tlCount_traffic ..) (.refl s)) (raise_traffic ..)

theorem atTarget_traffic (s : State) (l : Nat) (p : Packet) : TrafficFrame s (atTarget s l p) :=
  ⟨fun _ => rfl, fun _ _ => rfl, rfl, .of_irq rfl, .of_out rfl, id⟩

theorem queueFrames_traffic (s : State) (k : Nat) (up : Bool) (l : Nat) (p : Packet) :
    TrafficFrame s (queueFrames s k up l p) where
  still _ := rfl
  outq _ _ := rfl
  tl := rfl
  grows := .of_irq rfl
  out := ⟨_, rfl, fun o ho m f lanes hflit => by
    obtain ⟨x, -, hx⟩ := List.mem_map.1 ho
    rw [hflit] at hx
    cases hx⟩
  broken := id

theorem arrive_traffic (s : State) (l : Nat) (p : Packet) : TrafficFrame s (arrive s l p) := by
  refine .ite ?_ (atTarget_traffic ..)
  unfold carryPacket
  split
  · exact atTarget_traffic ..
  · exact queueFrames_traffic ..

theorem ejectFlit_traffic (s : State) (l vc : Nat) (x : Flit) : TrafficFrame s (ejectFlit s l vc x) :=
  (updLink_traffic rfl fun _ => rfl).trans (.ite (arrive_traffic ..) (.refl _))

theorem drainIn_traffic : ∀ (n : Nat) (s : State) (l vc : Nat), TrafficFrame s (drainIn n s l vc)
  | 0, s, _, _ => .refl s
  | n + 1, s, l, vc => by
    simp only [drainIn]
    split
    · split
      · exact ((ejectFlit_traffic ..).trans (updLink_traffic rfl fun _ => rfl)).trans (drainIn_traffic n ..)
      · exact .ite ((updLink_traffic rfl fun _ => rfl).trans (drainIn_traffic n ..)) (.refl s)
    · exact .refl s

theorem drainVc_traffic (s : State) (l vc : Nat) : TrafficFrame s (drainVc s l vc) := drainIn_traffic ..

theorem completePartial_traffic (s : State) (l : Nat) : TrafficFrame s (completePartial s l) :=
  .foldl (fun t _ => .ite (((updLink_traffic rfl fun _ => rfl).trans (tlCount_traffic ..)).trans (drainVc_traffic ..))
    (.refl t)) _ s

theorem cutBranches_traffic (s : State) (l : Nat) : TrafficFrame s (cutBranches s l) :=
  .foldl (fun t _ => .ite (.refl t) (((updLink_traffic rfl fun _ => rfl).trans
    (.foldl (fun _ _ => drainVc_traffic ..) _ _)).trans (discardAt_traffic ..))) _ s

/-! ### A broken slice (R308, R417) -/

theorem stopAll_traffic (s : State) (y : StopWhy) : TrafficFrame s (stopAll s y) :=
  have h := stopAll_frame s y
  .of_parts h.tl (.foldl (fun _ _ => jobStop_grows ..) _ _) h.out h.slc

theorem irqEvent_unless_grows {s t : State} (h : LatchGrows s t) (c : Prop) [Decidable c] (n : Nat) :
    LatchGrows s (if c then t else irqEvent t n) :=
  .ite h (h.trans (irqEvent_grows t n))

theorem updGuard_grows (s : State) (f : Guard → Guard) : LatchGrows s (s.updGuard f) := by
  have h : LatchGrows s { s with guard := f s.guard } := .of_irq rfl
  rw [State.updGuard]
  exact irqEvent_unless_grows (irqEvent_unless_grows (irqEvent_unless_grows h _ 4) _ 178) _ 179

theorem updGuard_traffic (s : State) (f : Guard → Guard) : TrafficFrame s (s.updGuard f) :=
  .of_parts (State.updGuard_tl ..) (updGuard_grows ..) (State.updGuard_out ..) (State.updGuard_slc ..)

theorem slcColl_traffic {s : State} {c : Slc} (h : s.slc.broken = true → c.broken = true) (d : Coll) :
    TrafficFrame s { s with slc := c, coll := d } :=
  ⟨fun _ => rfl, fun _ _ => rfl, rfl, .of_irq rfl, .of_out rfl, h⟩

theorem setStep_grows (s : State) (n : BitVec 3) : LatchGrows s (s.setStep n) := by
  rw [State.setStep]
  split
  · exact irqEvent_grows_of_irq (by rfl) _
  · exact .of_irq rfl

theorem setStep_traffic (s : State) (n : BitVec 3) : TrafficFrame s (s.setStep n) where
  still m := congrArg TLink.still (State.link_of_tl (State.setStep_tl ..) m)
  outq m _ := congrArg TLink.outq (State.link_of_tl (State.setStep_tl ..) m)
  tl := by rw [State.setStep_tl]
  grows := setStep_grows ..
  out := .of_out (State.setStep_out ..)
  broken h := by
    rw [setStep_slc]
    exact h

theorem finishDocket_traffic (s : State) (r status detail : Nat) : TrafficFrame s (finishDocket s r status detail) :=
  have h := finishDocket_frame s r status detail
  .of_parts h.tl (.of_irq rfl) h.out h.slc

theorem phaseEnd_traffic (s : State) (step : BitVec 3) : TrafficFrame s (phaseEnd s step) := by
  rw [phaseEnd]
  split
  · dsimp only
    refine TrafficFrame.trans ?_ (finishDocket_traffic ..)
    refine TrafficFrame.trans ?_ (setStep_traffic ..)
    refine slcColl_traffic ?_ _
    exact id
  · exact .refl s

theorem guildStop_traffic (s : State) : TrafficFrame s (guildStop s) := by
  have hstop := (stopAll_traffic s { cause := 6, cls := evGuildFault }).trans
    (updGuard_traffic _ fun g => { g with gStopped := true })
  rw [guildStop]
  generalize (stopAll s { cause := 6, cls := evGuildFault }).updGuard (fun g => { g with gStopped := true }) = u at hstop
  dsimp only
  split
  · refine hstop.trans (TrafficFrame.trans ?_ (phaseEnd_traffic ..))
    refine slcColl_traffic ?_ _
    exact id
  · exact hstop

/-- A neighbour that the guild's messages reach lies beyond a link that is UP. -/
theorem upNeighbours_up (s : State) : ∀ x ∈ upNeighbours s, (s.link x.2).state = 2 := by
  rw [upNeighbours]
  generalize List.range 8 = l
  suffices h : ∀ acc : List (Nat × Nat), (∀ x ∈ acc, (s.link x.2).state = 2) → ∀ x ∈ l.foldl _ acc, (s.link x.2).state = 2 from
    h [] fun _ hx => absurd hx List.not_mem_nil
  induction l with
  | nil => exact fun _ h => h
  | cons i l ih =>
    intro acc hacc
    rw [List.foldl_cons]
    refine ih _ ?_
    dsimp only
    split
    · exact hacc
    · split
      · next ply hply =>
        intro x hx
        rcases List.mem_append.1 hx with hx | hx
        · exact hacc x hx
        · rw [List.mem_singleton.1 hx]
          exact eq_of_beq (List.find?_some hply :)
      · exact hacc

theorem flood_traffic (s : State) (p : Packet) : TrafficFrame s (flood s p) := by
  rw [flood]
  have hup := upNeighbours_up s
  generalize upNeighbours s = l at hup
  suffices h : ∀ (l : List (Nat × Nat)) (t : State), TrafficFrame s t → (∀ x ∈ l, (s.link x.2).state = 2) →
      TrafficFrame s (l.foldl _ t) from h l s (.refl s) hup
  intro l
  induction l with
  | nil => exact fun _ h _ => h
  | cons x l ih =>
    intro t ht hl
    rw [List.foldl_cons]
    refine ih _ (ht.trans (updLink_traffic rfl fun hstate => ?_)) fun y hy => hl y (List.mem_cons_of_mem _ hy)
    exact absurd ((ht.state x.2).trans (hl x List.mem_cons_self)) hstate

theorem guildDetect_traffic (s : State) (reason suspect : Nat) : TrafficFrame s (guildDetect s reason suspect) :=
  .ite ((guildStop_traffic s).trans ((updGuard_traffic ..).trans (flood_traffic ..))) (.refl s)

theorem sliceBroken_eq (s : State) (l reason : Nat) : sliceBroken s l reason = guildDetect
    (stopAll (raise { s with slc := { s.slc with broken := true } }
      { cls := evSliceBroken, src := srcUnit 0 unitSlice, detail := l }) { cause := 7, cls := evSliceBroken })
    reason (partner (stopAll (raise { s with slc := { s.slc with broken := true } }
      { cls := evSliceBroken, src := srcUnit 0 unitSlice, detail := l }) { cause := 7, cls := evSliceBroken }) l) := rfl

theorem sliceBroken_traffic (s : State) (l reason : Nat) :
    TrafficFrame { s with slc := { s.slc with broken := true } } (sliceBroken s l reason) := by
  rw [sliceBroken_eq]
  exact (raise_traffic ..).trans ((stopAll_traffic ..).trans (guildDetect_traffic ..))

end Sys2Proof.Machine

namespace Sys2Proof.Machine
open Sys2Proof

/-! ### A link that leaves UP (R276, R308) -/

/-- A link as it leaves UP for a state. -/
def leaving (state : BitVec 3) (reason : BitVec 8) (k : TLink) : TLink :=
  let k := { k with state := state, reason := reason, window := false }
  if state = 3 then k else dropWindows k

/-- A link that has lost what it was to send. -/
def emptied (k : TLink) : TLink :=
  { k with outq := [], replay := [], resend := [], replays := [], owner := [], ctl := [], retrying := false }

theorem leaving_state (state : BitVec 3) (reason : BitVec 8) (k : TLink) : (leaving state reason k).state = state := by
  unfold leaving
  split
  · rfl
  · rfl

theorem leaving_fence (state : BitVec 3) (reason : BitVec 8) (k : TLink) : (leaving state reason k).fence = k.fence := by
  unfold leaving
  split
  · rfl
  · rfl

theorem leaving_txMarked (state : BitVec 3) (reason : BitVec 8) (k : TLink) :
    (leaving state reason k).txMarked = k.txMarked := by
  unfold leaving
  split
  · rfl
  · rfl

theorem linkLeft_traffic (s : State) (l : Nat) : TrafficFrame (s.updLink l emptied) (linkLeft s l) := by
  unfold linkLeft
  dsimp only
  refine TrafficFrame.trans ?_ (raise_traffic ..)
  refine TrafficFrame.trans ?_ (completePartial_traffic ..)
  refine TrafficFrame.trans ?_ (cutBranches_traffic ..)
  exact .ite (.refl _) (discardAt_traffic ..)

theorem linkLeft_latch (s : State) (l : Nat) : 0x29 ∈ (linkLeft s l).irq.latch := by
  unfold linkLeft
  exact raise_latch _ _ rfl (show evTlDown ≠ evGctStep by decide)

theorem leaveUp_eq {s : State} {l : Nat} (h : carries (s.link l) = true) (state : BitVec 3) (reason : BitVec 8) (why : Nat) :
    leaveUp s l state reason why =
      let t := linkLeft (s.updLink l (leaving state reason)) l
      if why ≠ 0 ∧ interior t l = true ∧ sliceRuns t = true then sliceBroken t l why else t := by
  have hleave : leaveUp s l state reason why = if carries (s.link l) then
      (let t := linkLeft (s.updLink l (leaving state reason)) l
       if why ≠ 0 ∧ interior t l = true ∧ sliceRuns t = true then sliceBroken t l why else t)
      else s.updLink l (leaving state reason) := rfl
  rw [hleave, if_pos h]

/-- The link record after it has left UP, but for what later traffic changes. -/
def gone (state : BitVec 3) (reason : BitVec 8) (k : TLink) : TLink := emptied (leaving state reason k)

theorem gone_state (state : BitVec 3) (reason : BitVec 8) (k : TLink) : (gone state reason k).state = state :=
  leaving_state ..

theorem gone_fence (state : BitVec 3) (reason : BitVec 8) (k : TLink) : (gone state reason k).fence = k.fence :=
  leaving_fence ..

theorem gone_txMarked (state : BitVec 3) (reason : BitVec 8) (k : TLink) : (gone state reason k).txMarked = k.txMarked :=
  leaving_txMarked ..

theorem TrafficFrame.of_slc {s t : State} {c : Slc} (h : TrafficFrame { s with slc := c } t)
    (hc : s.slc.broken = true → c.broken = true) : TrafficFrame s t :=
  (slcColl_traffic hc s.coll).trans h

/-- The slice that a link is interior to is read from the coordinates, not from the links. -/
theorem interior_of_tl {s t : State} {links : Tbl TLink} {arrived : List (Nat × Packet)}
    (htl : t.tl = { s.tl with link := links, arrived := arrived }) (hslc : t.slc = s.slc) (l : Nat) :
    interior t l = interior s l := by
  have hreads : interior t l = interior { s with tl := t.tl, slc := t.slc } l := rfl
  rw [hreads, htl, hslc]
  rfl

theorem updLink_interior (s : State) (l : Nat) (f : TLink → TLink) (m : Nat) : interior (s.updLink l f) m = interior s m :=
  interior_of_tl (updLink_tl ..) (State.updLink_slc ..) m

theorem sliceRuns_of_slc {s t : State} (h : t.slc = s.slc) : sliceRuns t = sliceRuns s := by
  rw [sliceRuns, h, sliceRuns]

theorem linkLeft_interior (s : State) (l m : Nat) : interior (linkLeft s l) m = interior s m := by
  rw [← updLink_interior s l emptied m]
  exact interior_of_tl (linkLeft_traffic s l).tl ((linkLeft_net ..).slc.trans (State.updLink_slc ..).symm) m

theorem linkLeft_link {s : State} {l : Nat} (h : (s.link l).state ≠ 2) :
    ((linkLeft s l).link l).still = (emptied (s.link l)).still ∧ ((linkLeft s l).link l).outq = [] := by
  have hframe := linkLeft_traffic s l
  refine ⟨?_, ?_⟩
  · rw [hframe.still, State.link_updLink_same]
  · rw [hframe.outq l, State.link_updLink_same]
    · rfl
    · rw [State.link_updLink_same]
      exact h

/-- What a link that leaves UP for another state is left as, and what it may break. -/
theorem leaveUp_left {s : State} {l : Nat} (h : carries (s.link l) = true) {state : BitVec 3} (hstate : state ≠ 2)
    (reason : BitVec 8) (why : Nat) :
    ((leaveUp s l state reason why).link l).still = (gone state reason (s.link l)).still
    ∧ ((leaveUp s l state reason why).link l).outq = []
    ∧ 0x29 ∈ (leaveUp s l state reason why).irq.latch
    ∧ (why ≠ 0 → interior s l = true → sliceRuns s = true → (leaveUp s l state reason why).slc.broken = true) := by
  have hlink := State.link_updLink_same s l (leaving state reason)
  have hnew : ((s.updLink l (leaving state reason)).link l).state = state := by rw [hlink, leaving_state]
  obtain ⟨hstill, hout⟩ := linkLeft_link (hnew.trans_ne hstate)
  have hlatch := linkLeft_latch (s.updLink l (leaving state reason)) l
  rw [hlink] at hstill
  rw [leaveUp_eq h]
  dsimp only
  rw [linkLeft_interior, updLink_interior, sliceRuns_of_slc ((linkLeft_net ..).slc.trans (State.updLink_slc ..))]
  generalize linkLeft (s.updLink l (leaving state reason)) l = t at hstill hout hlatch ⊢
  split
  · have hbreak := sliceBroken_traffic t l why
    have hframe := hbreak.of_slc fun _ => rfl
    have hkeeps : (t.link l).state = (gone state reason (s.link l)).state := (congrArg TLink.state hstill :)
    rw [gone_state] at hkeeps
    exact ⟨(hframe.still l).trans hstill, (hframe.outq l (hkeeps.trans_ne hstate)).trans hout, hframe.grows.mem _ hlatch,
      fun _ _ _ => hbreak.broken rfl⟩
  · next hnot => exact ⟨hstill, hout, hlatch, fun hwhy hin hruns => absurd ⟨hwhy, hin, hruns⟩ hnot⟩

section
variable {s : State} {l : Nat} (h : carries (s.link l) = true) {state : BitVec 3} (hstate : state ≠ 2)
  (reason : BitVec 8) (why : Nat)
include h hstate

theorem leaveUp_state : ((leaveUp s l state reason why).link l).state = state := by
  have hkeeps : ((leaveUp s l state reason why).link l).state = (gone state reason (s.link l)).state :=
    (congrArg TLink.state (leaveUp_left h hstate reason why).1 :)
  rw [hkeeps, gone_state]

theorem leaveUp_replay : ((leaveUp s l state reason why).link l).replay = [] :=
  (congrArg TLink.replay (leaveUp_left h hstate reason why).1 :)

theorem leaveUp_fence : ((leaveUp s l state reason why).link l).fence = (s.link l).fence := by
  have hkeeps : ((leaveUp s l state reason why).link l).fence = (gone state reason (s.link l)).fence :=
    (congrArg TLink.fence (leaveUp_left h hstate reason why).1 :)
  rw [hkeeps, gone_fence]

theorem leaveUp_txMarked : ((leaveUp s l state reason why).link l).txMarked = (s.link l).txMarked := by
  have hkeeps : ((leaveUp s l state reason why).link l).txMarked = (gone state reason (s.link l)).txMarked :=
    (congrArg TLink.txMarked (leaveUp_left h hstate reason why).1 :)
  rw [hkeeps, gone_txMarked]
end
end Sys2Proof.Machine

namespace Sys2Proof.Machine
open Sys2Proof

/-! ### The link control registers (R241, R286, R291, R309) -/

theorem setEn_same {s : State} {l : Nat} {v : Bool} (h : v = linkEn s l) : setEn s l v = s := if_pos (.inr h)

theorem setEn_changed {s : State} {l : Nat} {v : Bool} (hsize : torusN s (linkDim l) ≠ 1) (h : v ≠ linkEn s l) :
    setEn s l v = if v then s.updLink l fun k => startTraining { k with en := some true }
      else (if carries (s.link l) then leaveUp s l 0 0 3 else s).updLink l fun k =>
        { startTraining k with en := some false, train := 0, ctl := [] } :=
  if_neg (not_or_intro hsize h)

/-- Outside a rewrite a write that asks for no window sets EN alone. -/
theorem linkCtlWrite_en {s t : State} {l : Nat} {v : Word} (hen : setEn s l (v.getLsbD 0) = t) (hdrained : t.slc.drained = false)
    (hretrain : v.getLsbD 2 = false) : linkCtlWrite s l v.toNat = t := by
  rw [linkCtlWrite, bitAt_toNat, bitAt_toNat, bitAt_toNat, hen, hretrain]
  exact (if_neg Bool.false_ne_true).trans (if_neg (Bool.eq_false_iff.1 hdrained))

theorem linkCtlWrite_fence {s : State} {l : Nat} {v : Word} (hen : v.getLsbD 0 = linkEn s l) (hretrain : v.getLsbD 2 = false)
    (hdrained : s.slc.drained = true) : linkCtlWrite s l v.toNat = setFence s l (v.getLsbD 1) := by
  rw [linkCtlWrite, bitAt_toNat, bitAt_toNat, bitAt_toNat, setEn_same hen, hretrain]
  exact (if_neg Bool.false_ne_true).trans (if_pos hdrained)

theorem linkCtlWrite_retrain {s : State} {l : Nat} {v : Word} (hen : v.getLsbD 0 = linkEn s l) (hretrain : v.getLsbD 2 = true)
    (hdrained : s.slc.drained = false) : linkCtlWrite s l v.toNat = askWindow s l false := by
  rw [linkCtlWrite, bitAt_toNat, bitAt_toNat, bitAt_toNat, setEn_same hen, hretrain]
  exact (if_pos rfl).trans (congrArg (askWindow · l false) (if_neg (Bool.eq_false_iff.1 hdrained)))

theorem linkEn_updLink {s : State} {l : Nat} {f : TLink → TLink} {v : Bool} (hsize : torusN s (linkDim l) ≠ 1)
    (hf : (f (s.link l)).en = some v) : linkEn (s.updLink l f) l = v := by
  have htorus : torusN (s.updLink l f) (linkDim l) = torusN s (linkDim l) := by rw [torusN, updLink_tl, torusN]
  rw [linkEn, State.link_updLink_same, hf, htorus, decide_eq_true hsize]
  rfl

/-- EN that holds a link is set: the link begins its training. -/
theorem linkCtlWrite_enables {s : State} {l : Nat} {v : Word} (hsize : torusN s (linkDim l) ≠ 1)
    (hdrained : s.slc.drained = false) (hretrain : v.getLsbD 2 = false) (hset : v.getLsbD 0 = true)
    (hheld : linkEn s l = false) :
    linkCtlWrite s l v.toNat = s.updLink l fun k => startTraining { k with en := some true } := by
  refine linkCtlWrite_en ?_ ((congrArg Slc.drained (State.updLink_slc ..)).trans hdrained) hretrain
  rw [setEn_changed hsize (by rw [hset, hheld]; decide), hset]
  rfl

/-- EN of a link that carries no packets is cleared: the link is held DOWN. -/
theorem linkCtlWrite_holds {s : State} {l : Nat} {v : Word} (hsize : torusN s (linkDim l) ≠ 1)
    (hdrained : s.slc.drained = false) (hretrain : v.getLsbD 2 = false) (hclear : v.getLsbD 0 = false)
    (hen : linkEn s l = true) (hcarries : carries (s.link l) = false) :
    linkCtlWrite s l v.toNat = s.updLink l fun k => { startTraining k with en := some false, train := 0, ctl := [] } := by
  refine linkCtlWrite_en ?_ ((congrArg Slc.drained (State.updLink_slc ..)).trans hdrained) hretrain
  rw [setEn_changed hsize (by rw [hclear, hen]; decide), hclear, hcarries]
  rfl

/-- FENCE takes what is written, whatever else the change makes of the link. -/
theorem setFence_fence (s : State) (l : Nat) (v : Bool) : ((setFence s l v).link l).fence = v := by
  have hput := State.link_updLink_same s l fun k => { k with fence := v }
  by_cases hsame : (s.link l).fence = v
  · rw [setFence, if_pos hsame]
    exact hsame
  rw [setFence, if_neg hsame]
  generalize s.updLink l (fun k => { k with fence := v }) = t at hput
  have hv : (t.link l).fence = v := congrArg TLink.fence hput
  dsimp only
  split
  · split
    · next hcarries =>
      rw [← hv]
      have hup : carries (t.link l) = true := by rwa [hput]
      exact leaveUp_fence hup (by decide) 0 0
    · split
      · rw [State.link_updLink_same]
        exact hv
      · exact hv
  · split
    · rw [State.link_updLink_same]
      exact hv
    · exact hv

/-- A link that carries packets when it is fenced is FENCED and keeps none to send. -/
theorem setFence_fences {s : State} {l : Nat} (hclear : (s.link l).fence = false) (hcarries : carries (s.link l) = true) :
    ((setFence s l true).link l).state = 3 ∧ ((setFence s l true).link l).replay = [] := by
  have hput := State.link_updLink_same s l fun k => { k with fence := true }
  have hup : carries ((s.updLink l fun k => { k with fence := true }).link l) = true := by rwa [hput]
  have hset : setFence s l true = leaveUp (s.updLink l fun k => { k with fence := true }) l 3 0 0 :=
    (if_neg (by rw [hclear]; decide)).trans ((if_pos rfl).trans (if_pos hcarries))
  rw [hset]
  exact ⟨leaveUp_state hup (by decide) 0 0, leaveUp_replay hup (by decide) 0 0⟩

/-- A link that asks for a window is pending, and stands in the queue. -/
theorem askWindow_eq (s : State) (l : Nat) (head : Bool) : ∃ asked, l ∈ asked ∧ askWindow s l head =
    { s.updLink l (fun k => { k with pending := true }) with
      tl := { (s.updLink l fun k => { k with pending := true }).tl with asked := asked } } := by
  unfold askWindow
  dsimp only
  split
  · exact ⟨_, List.mem_cons_self, rfl⟩
  · split
    · next h => exact ⟨_, List.contains_iff_mem.1 h, rfl⟩
    · exact ⟨_, List.mem_append_right _ List.mem_cons_self, rfl⟩

theorem askWindow_link (s : State) (l : Nat) (head : Bool) (m : Nat) :
    (askWindow s l head).link m = (s.updLink l fun k => { k with pending := true }).link m := by
  obtain ⟨asked, -, h⟩ := askWindow_eq s l head
  rw [h]
  rfl

theorem askWindow_link_same (s : State) (l : Nat) (head : Bool) :
    (askWindow s l head).link l = { s.link l with pending := true } := by
  rw [askWindow_link, State.link_updLink_same]

theorem askWindow_asked (s : State) (l : Nat) (head : Bool) : l ∈ (askWindow s l head).tl.asked := by
  obtain ⟨asked, hasked, h⟩ := askWindow_eq s l head
  rw [h]
  exact hasked

theorem tlSliceWrite_kept {s : State} (h : s.slc.drained = false) (die v : Nat) : tlSliceWrite s die v = s :=
  if_neg (Bool.eq_false_iff.1 h)

theorem tlSliceWrite_drained {s : State} (h : s.slc.drained = true) (die v : Nat) : tlSliceWrite s die v = putSlice s die v :=
  if_pos h

theorem ofNat_high12 (v : Word) : BitVec.ofNat 12 (v.toNat / 2 ^ 12) = (v >>> 12).setWidth 12 := by
  apply BitVec.eq_of_toNat_eq
  simp [Nat.shiftRight_eq_div_pow]

/-- What a write of `TL_SLICE` in a rewrite leaves. -/
theorem putSlice_puts (s : State) (die : Nat) (v : Word) :
    Tbl.get 0 (putSlice s die v.toNat).tl.base die = v.setWidth 12
    ∧ Tbl.get none (putSlice s die v.toNat).tl.k die = some ((v >>> 12).setWidth 12)
    ∧ ∀ e, e ≠ die → Tbl.get 0 (putSlice s die v.toNat).tl.base e = Tbl.get 0 s.tl.base e
        ∧ Tbl.get none (putSlice s die v.toNat).tl.k e = Tbl.get none s.tl.k e := by
  refine ⟨(Tbl.get_set_same ..).trans (BitVec.ofNat_toNat ..), (Tbl.get_set_same ..).trans (congrArg some (ofNat_high12 v)),
    fun e he => ⟨Tbl.get_set_other _ _ _ _ _ he, Tbl.get_set_other none s.tl.k die e (some (BitVec.ofNat 12 (v.toNat / 2 ^ 12))) he⟩⟩

/-- A write by a management processor is the write of its register. -/
theorem next_isMp {s t u : State} {a : Agent} (ha : isMp a = true) (h : t = u) :
    Host.Outcome.next (if isMp a then t else s) = (.next u : Ans) := by
  rw [if_pos ha, h]

/-- Settles O32: EN outside a rewrite, FENCE inside and outside one, RETRAIN, and `TL_SLICE`. -/
theorem linkControlRegisters : Obligations.LinkControlRegisters := by
  intro s a l v ha
  refine ⟨fun hsize hdrained hretrain => ⟨fun hset hheld => ?enables, fun hclear hen hcarries => ?holds⟩,
    fun hen hretrain => ⟨fun hdrained => ?fences, fun hdrained => ?kept⟩, fun hen hretrain hdrained => ?retrain,
    fun die => ⟨fun hdrained => next_isMp ha (tlSliceWrite_kept hdrained ..), fun hdrained => ?slice⟩⟩
  case enables =>
    have hlink := State.link_updLink_same s l.val fun k => startTraining { k with en := some true }
    refine ⟨_, next_isMp ha (linkCtlWrite_enables hsize hdrained hretrain hset hheld), updLink_only ..,
      linkEn_updLink hsize rfl, ?_⟩
    rw [hlink]
    exact ⟨rfl, rfl, rfl⟩
  case holds =>
    have hlink := State.link_updLink_same s l.val fun k =>
      { startTraining k with en := some false, train := 0, ctl := [] }
    refine ⟨_, next_isMp ha (linkCtlWrite_holds hsize hdrained hretrain hclear hen hcarries), updLink_only ..,
      linkEn_updLink hsize rfl, ?_⟩
    rw [hlink]
    exact ⟨rfl, rfl⟩
  case fences =>
    refine ⟨_, next_isMp ha (linkCtlWrite_fence hen hretrain hdrained), setFence_fence .., fun hclear hv hcarries => ?_⟩
    rw [hv]
    exact setFence_fences hclear hcarries
  case kept => exact next_isMp ha (linkCtlWrite_en (setEn_same hen) hdrained hretrain)
  case retrain =>
    refine ⟨_, next_isMp ha (linkCtlWrite_retrain hen hretrain hdrained), ?_, askWindow_asked .., fun m hm => ?_⟩
    · exact askWindow_link_same ..
    · rw [askWindow_link, State.link_updLink_other _ _ _ _ hm]
  case slice =>
    exact ⟨_, next_isMp ha (tlSliceWrite_drained hdrained ..), rfl, putSlice_puts ..⟩
end Sys2Proof.Machine

namespace Sys2Proof.Machine
open Sys2Proof

/-! ### A good flit (R250, R252, R255, R258) -/

theorem OnlyLink.tl {s t : State} {l : Nat} (h : OnlyLink s t l) : t.tl = { s.tl with link := t.tl.link } :=
  congrArg State.tl h.1

theorem OnlyLink.guard {s t : State} {l : Nat} (h : OnlyLink s t l) : t.guard = s.guard := (congrArg State.guard h.1 :)

theorem OnlyLink.shuttered {s t : State} {l : Nat} (h : OnlyLink s t l) : shuttered t = shuttered s :=
  congrArg (fun b : Boot => b.state == 3) (congrArg State.boot h.1 :)

/-- The check of a beacon reads the coordinates and the flit alone. -/
theorem OnlyLink.beaconCheck {s t : State} {l : Nat} (h : OnlyLink s t l) (m : Nat) (w : List Byte) :
    beaconCheck t m w = beaconCheck s m w := by
  have hreads : Machine.beaconCheck t m w = Machine.beaconCheck { s with tl := t.tl } m w := rfl
  rw [hreads, h.tl]
  rfl

/-- The word of a good flit moves the replay buffer and the credits alone. -/
theorem applyWord_eq (k : TLink) (n : Nat) : applyWord k n = { k with
    replay := (applyWord k n).replay, replays := (applyWord k n).replays, resend := (applyWord k n).resend
    freed := (applyWord k n).freed } := by
  unfold applyWord ackThrough
  dsimp only
  split
  · split
    · rfl
    · rfl
  · split
    · rfl
    · rfl

theorem applyWord_cnt (k : TLink) (c : Tbl DWord) (n : Nat) :
    applyWord { k with cnt := c } n = { applyWord k n with cnt := c } := by
  unfold applyWord ackThrough
  dsimp only
  split
  · split
    · rfl
    · rfl
  · split
    · rfl
    · rfl

theorem applyWord_replay (k : TLink) (n : Nat) : (applyWord k n).replay =
    if k.replay.any (fun x => x.seq.toNat == n / 2 ^ 17 % 512) then
      (k.replay.dropWhile fun x => x.seq.toNat != n / 2 ^ 17 % 512).drop 1 else k.replay := by
  have hcredits : (applyWord k n).replay = (ackThrough k (n / 2 ^ 17 % 512)).replay := by
    unfold applyWord
    dsimp only
    split
    · rfl
    · rfl
  rw [hcredits, ackThrough]
  split
  · rfl
  · rfl

theorem countFixed_only (s : State) (l fixed : Nat) : OnlyLink s (countFixed s l fixed) l :=
  .ite (.refl s l) (updLink_only ..)

theorem countFixed_link (s : State) (l fixed : Nat) :
    ∃ c, (countFixed s l fixed).link l = { s.link l with cnt := c } := by
  unfold countFixed
  split
  · exact ⟨_, rfl⟩
  · exact ⟨_, State.link_updLink_same ..⟩

theorem goodFlit_only (s : State) (l : Nat) (w : List Byte) (fixed : Nat) : OnlyLink s (goodFlit s l w fixed) l :=
  (countFixed_only ..).trans (updLink_only ..)

theorem goodFlit_link (s : State) (l : Nat) (w : List Byte) (fixed : Nat) :
    ∃ c, (goodFlit s l w fixed).link l = { applyWord (s.link l) (linkWord w) with cnt := c } := by
  obtain ⟨c, hc⟩ := countFixed_link s l fixed
  refine ⟨c, ?_⟩
  rw [goodFlit, State.link_updLink_same, hc, applyWord_cnt]

/-- A link that has got a good flit, without what the flit's word and the counts change. -/
def TLink.unmoved (k : TLink) : TLink :=
  { k with replay := [], replays := [], resend := [], freed := [], cnt := [] }

theorem goodFlit_unmoved (s : State) (l : Nat) (w : List Byte) (fixed : Nat) :
    ((goodFlit s l w fixed).link l).unmoved = (s.link l).unmoved := by
  obtain ⟨c, hc⟩ := goodFlit_link s l w fixed
  rw [hc, applyWord_eq]
  rfl

/-- A flit that the link hears is counted, its word is applied, and then it is dealt with. -/
theorem flitIn_heard {s : State} {l : Nat} {flit w : List Byte} {kind sub fixed : Nat} (h : Hears s l flit kind sub w fixed)
    (f : State → List Byte → State) : flitIn s l flit kind sub f = f (goodFlit s l w fixed) w := by
  obtain ⟨hen, hhears, hunwire, hkind, hsub⟩ := h
  rw [flitIn, hen, hhears, hunwire]
  exact (if_pos rfl).trans (if_pos ⟨hkind, hsub⟩)

/-! ### Beacons (R247, R291) -/

/-- The state in which the partner's state has been noted. -/
def beaconNoted (s : State) (l : Nat) (w : List Byte) : State :=
  s.updLink l fun k => { k with pstate := BitVec.ofNat 3 (byteAt w 11).toNat, preason := byteAt w 12 }

theorem beaconNoted_only (s : State) (l : Nat) (w : List Byte) : OnlyLink s (beaconNoted s l w) l := updLink_only ..

theorem beaconNoted_link (s : State) (l : Nat) (w : List Byte) : (beaconNoted s l w).link l =
    { s.link l with pstate := BitVec.ofNat 3 (byteAt w 11).toNat, preason := byteAt w 12 } := State.link_updLink_same ..

theorem carries_state {k j : TLink} (h : k.state = j.state) : carries k = carries j := by
  rw [carries, h, carries]

theorem beaconIn_passes {s : State} {l : Nat} {w : List Byte} (hlisted : (byteAt w 11).toNat < 8)
    (hcheck : beaconCheck s l w = 0) :
    beaconIn s l w = beaconMove (beaconNoted s l w) l (s.link l).pstate.toNat (byteAt w 11).toNat (byteAt w 12) := by
  have hnoted := ((beaconNoted_only s l w).beaconCheck l w).trans hcheck
  refine (if_pos hlisted).trans ?_
  dsimp only [beaconNoted] at hnoted ⊢
  rw [hnoted]
  rfl

theorem beaconIn_mismatches {s : State} {l : Nat} {w : List Byte} (hlisted : (byteAt w 11).toNat < 8)
    (hcheck : beaconCheck s l w = 1) (hcarries : carries (s.link l) = false) :
    beaconIn s l w = (beaconNoted s l w).updLink l fun k => { k with state := 5, reason := 1 } := by
  have hnoted := ((beaconNoted_only s l w).beaconCheck l w).trans hcheck
  have hidle : carries ((beaconNoted s l w).link l) = false := by rwa [beaconNoted_link]
  refine (if_pos hlisted).trans ?_
  dsimp only [beaconNoted] at hnoted hidle ⊢
  rw [hnoted]
  exact if_neg (Bool.eq_false_iff.1 hidle)

/-- A link that trains, waits or is fenced follows the beacon of a partner that is UP or FENCED. -/
theorem beaconMove_follows {s : State} {l was p : Nat} (reason : BitVec 8) (hp : p = 2 ∨ p = 3)
    (hstate : (s.link l).state = 1 ∨ (s.link l).state = 3 ∨ (s.link l).state = 5) (hshut : shuttered s = false) :
    beaconMove s l was p reason = fenceMove s l was p := by
  have hfive : p ≠ 5 := by omega
  have hkept : partnerLost p = false := by
    rcases hp with rfl | rfl
    · rfl
    · rfl
  have hlive : (carries (s.link l) || (s.link l).state == 1 || (s.link l).state == 3 || (s.link l).state == 5) = true := by
    rcases hstate with h | h | h
    · simp [h]
    · simp [h]
    · simp [h]
  rw [beaconMove, if_neg hfive, if_neg (Bool.eq_false_iff.1 hkept), hshut]
  exact (if_pos hlive).trans (if_neg Bool.false_ne_true)

/-- A link follows its partner's state `p`, with its partner's FENCE bit `held`. -/
def followed (s : State) (l p : Nat) (held : Bool) : State :=
  if carries (s.link l) then (if p = 3 ∧ held = true then leaveUp s l 3 0 3 else s)
  else s.updLink l fun k => if k.fence || held then { k with state := 3, reason := 0 } else goUp k

theorem fenceMove_eq (s : State) (l was p : Nat) : fenceMove s l was p =
    followed (if (p = 2 ∨ p = 7) ∨ (p = 3 ∧ was = 2) then s else s.useFree) l p (partnerFence s was p) := rfl

theorem fenceMove_up {s : State} {l : Nat} (was : Nat) (hcarries : carries (s.link l) = false) :
    fenceMove s l was 2 = s.updLink l fun k => if k.fence then { k with state := 3, reason := 0 } else goUp k := by
  rw [fenceMove_eq, if_pos (.inl (.inl rfl)), followed, if_neg (Bool.eq_false_iff.1 hcarries),
    show partnerFence s was 2 = false from rfl]
  simp only [Bool.or_false]

/-- After a beacon of FENCED a link stays FENCED whose own FENCE bit is set. -/
theorem fenceMove_fenced {s : State} {l : Nat} (was : Nat) (hcarries : carries (s.link l) = false)
    (hfence : (s.link l).fence = true) :
    ((fenceMove s l was 3).link l).state = 3 ∧ (fenceMove s l was 3).boot = s.boot := by
  rw [fenceMove_eq]
  generalize hu : (if (3 = 2 ∨ 3 = 7) ∨ (3 = 3 ∧ was = 2) then s else s.useFree) = u
  have hlink : u.link l = s.link l := by
    rw [← hu]
    split
    · rfl
    · rfl
  have hboot : u.boot = s.boot := by
    rw [← hu]
    split
    · rfl
    · rfl
  rw [followed, hlink, if_neg (Bool.eq_false_iff.1 hcarries), State.link_updLink_same, hlink, hfence, State.updLink_boot]
  exact ⟨rfl, hboot⟩

/-! ### Data flits and retries (R254, R258) -/

theorem injectFlit_quiet {s : State} (h : s.guard.armed = []) (l : Nat) (x : Flit) : injectFlit s l x = s := by
  unfold injectFlit
  split
  · cases hwin : windowOf s (flitHeader x).job.toNat with
    | none => rfl
    | some w => rw [Option.bind_some, takeInject_quiet h]
  · rfl

/-- Without a route nothing leaves an input buffer. -/
theorem drainVc_unrouted {s : State} {l vc : Nat} (h : Tbl.get none (s.link l).route vc = none) : drainVc s l vc = s := by
  rw [drainVc, drainIn, h]

/-- The state in which an accepted flit has been counted. -/
def flitCounted (s : State) (l : Nat) : State :=
  (tlCount s l 8 1).updLink l fun k => { k with rxSeq := k.rxSeq + 1, retrying := false }

theorem flitCounted_link (s : State) (l : Nat) : ∃ c, (flitCounted s l).link l =
    { s.link l with rxSeq := (s.link l).rxSeq + 1, retrying := false, cnt := c } := by
  refine ⟨upd 0 (s.link l).cnt 8 (· + BitVec.ofNat 64 1), ?_⟩
  rw [flitCounted, State.link_updLink_same, tlCount, State.link_updLink_same]

theorem acceptFlit_eq (s : State) (l : Nat) (x : Flit) : acceptFlit s l x =
    if x.vc.toNat < 6 then drainVc ((flitCounted s l).updLink l fun k =>
      { k with inbuf := upd [] k.inbuf x.vc.toNat (· ++ [x]), coming := comingAfter k.coming x.vc.toNat x }) l x.vc.toNat
    else flitCounted s l := rfl

theorem acceptFlit_traffic (s : State) (l : Nat) (x : Flit) : TrafficFrame (flitCounted s l) (acceptFlit s l x) := by
  rw [acceptFlit_eq]
  generalize flitCounted s l = t
  exact .ite ((updLink_traffic rfl fun _ => rfl).trans (drainVc_traffic ..)) (.refl t)

/-- An accepted flit advances the expected SEQ and ends the retry. -/
theorem acceptFlit_counts (s : State) (l : Nat) (x : Flit) :
    ((acceptFlit s l x).link l).rxSeq = (s.link l).rxSeq + 1 ∧ ((acceptFlit s l x).link l).retrying = false := by
  have h := (acceptFlit_traffic s l x).still l
  obtain ⟨c, hc⟩ := flitCounted_link s l
  rw [hc] at h
  exact ⟨(congrArg TLink.rxSeq h :), (congrArg TLink.retrying h :)⟩

/-- A flit of a packet that has no route yet waits in its buffer. -/
theorem acceptFlit_buffers {s : State} {l : Nat} {x : Flit} (hvc : x.vc.toNat < 6)
    (hroute : Tbl.get none (s.link l).route x.vc.toNat = none) :
    Tbl.get [] ((acceptFlit s l x).link l).inbuf x.vc.toNat = Tbl.get [] (s.link l).inbuf x.vc.toNat ++ [x] := by
  obtain ⟨c, hc⟩ := flitCounted_link s l
  rw [acceptFlit_eq, if_pos hvc, drainVc_unrouted, State.link_updLink_same, hc]
  · exact Tbl.get_set_same ..
  · rw [State.link_updLink_same, hc]
    exact hroute

theorem dataFlit_good {s : State} {l : Link} {flit w : List Byte} {fixed : Nat} (hstate : (s.link l.val).state = 2)
    (hunwire : unwire flit = some (w, fixed)) (hkind : lwKind (linkWord w) = 1) (hquiet : s.guard.armed = []) :
    let x : Flit := { dataFlit (w.take 64) with time := copyStamp s (linkDie l.val) }
    execDataFlitReceive l flit s = .next (if x.seq = (s.link l.val).rxSeq then acceptFlit (goodFlit s l.val w fixed) l.val x
      else countFixed s l.val fixed) := by
  have hinject := injectFlit_quiet ((congrArg Guard.armed (goodFlit_only s l.val w fixed).guard).trans hquiet) l.val
    { dataFlit (w.take 64) with time := copyStamp s (linkDie l.val) }
  refine (if_neg (not_not_intro hstate)).trans ?_
  rw [hunwire]
  refine (if_neg (not_not_intro hkind)).trans ?_
  dsimp only
  rw [hinject]

theorem dataFlit_fails {s : State} {l : Link} {flit : List Byte} (hstate : (s.link l.val).state = 2)
    (hunwire : unwire flit = none) (hretry : (s.link l.val).retrying = false) :
    execDataFlitReceive l flit s = .next ((tlCount s l.val 1 1).updLink l.val fun k =>
      { k with retrying := true, ctl := (1, []) :: k.ctl }) := by
  refine (if_neg (not_not_intro hstate)).trans ?_
  rw [hunwire]
  dsimp only
  rw [failedFlit, hretry]
  rfl

/-- A link whose buffered flits from a SEQ go again. -/
def resending (again : List Flit) (k : TLink) : TLink :=
  { k with resend := again, replays := again.foldl (fun t x => upd 0 t x.seq.toNat (· + 1)) k.replays }

/-- What a replay from SEQ `e` does where a buffered flit has it (R255, R256). -/
theorem replayFrom_eq {s : State} {l e : Nat} {again : List Flit}
    (hagain : ((s.link l).replay.dropWhile fun x => x.seq.toNat != e) = again) (h : again ≠ []) :
    replayFrom s l e =
      let t := (tlCount s l 2 1).updLink l (resending again)
      if again.any fun x => Tbl.get 0 (s.link l).replays x.seq.toNat + 1 == replayThr t (linkDie l) then askWindow t l true
      else t := by
  rw [replayFrom, hagain]
  exact if_neg h

theorem replayFrom_resends {s : State} {l e : Nat} {again : List Flit}
    (hagain : ((s.link l).replay.dropWhile fun x => x.seq.toNat != e) = again) (h : again ≠ []) :
    ((replayFrom s l e).link l).resend = again := by
  rw [replayFrom_eq hagain h]
  dsimp only
  split
  · rw [askWindow_link_same, State.link_updLink_same]
    rfl
  · rw [State.link_updLink_same]
    rfl

/-! ### The commands of the receiver -/

theorem beacon_mismatches {s : State} {l : Link} {flit w : List Byte} {fixed : Nat} (h : Hears s l.val flit 2 3 w fixed)
    (hcarries : carries (s.link l.val) = false) (hlisted : (byteAt w 11).toNat < 8)
    (hpartner : fieldAt w 8 2 ≠ partner s l.val) : ∃ t, execBeaconReceive l flit s = .next t ∧ OnlyLink s t l.val
      ∧ (t.link l.val).state = 5 ∧ (t.link l.val).reason = 1 ∧ (t.link l.val).pstate.toNat = (byteAt w 11).toNat := by
  have hgood := goodFlit_only s l.val w fixed
  have hcheck := (hgood.beaconCheck l.val w).trans (if_pos hpartner)
  have hidle : carries ((goodFlit s l.val w fixed).link l.val) = false :=
    (carries_state (congrArg TLink.state (goodFlit_unmoved s l.val w fixed) :)).trans hcarries
  refine ⟨_, congrArg Host.Outcome.next ((flitIn_heard h _).trans (beaconIn_mismatches hlisted hcheck hidle)),
    hgood.trans ((beaconNoted_only ..).trans (updLink_only ..)), ?_⟩
  rw [State.link_updLink_same, beaconNoted_link]
  exact ⟨rfl, rfl, by rw [BitVec.toNat_ofNat, Nat.mod_eq_of_lt hlisted]⟩

/-- The link after a beacon that passes is as the partner's state moves it. -/
theorem beacon_passes {s : State} {l : Link} {flit w : List Byte} {fixed p : Nat} (h : Hears s l.val flit 2 3 w fixed)
    (hlisted : (byteAt w 11).toNat < 8) (hcheck : beaconCheck s l.val w = 0) (hp : (byteAt w 11).toNat = p)
    (hmoves : p = 2 ∨ p = 3)
    (hstate : (s.link l.val).state = 1 ∨ (s.link l.val).state = 3 ∨ (s.link l.val).state = 5)
    (hshut : shuttered s = false) : ∃ u was, OnlyLink s u l.val ∧ (u.link l.val).state = (s.link l.val).state
      ∧ (u.link l.val).fence = (s.link l.val).fence
      ∧ execBeaconReceive l flit s = .next (fenceMove u l.val was p) := by
  have hgood := goodFlit_only s l.val w fixed
  have hsame := goodFlit_unmoved s l.val w fixed
  have honly := hgood.trans (beaconNoted_only (goodFlit s l.val w fixed) l.val w)
  have hkeeps : ((beaconNoted (goodFlit s l.val w fixed) l.val w).link l.val).state = (s.link l.val).state := by
    rw [beaconNoted_link]
    exact (congrArg TLink.state hsame :)
  have hmove := beaconIn_passes hlisted ((hgood.beaconCheck l.val w).trans hcheck)
  rw [hp, beaconMove_follows _ hmoves (by rwa [hkeeps]) (honly.shuttered.trans hshut)] at hmove
  refine ⟨_, _, honly, hkeeps, ?_, congrArg Host.Outcome.next ((flitIn_heard h _).trans hmove)⟩
  rw [beaconNoted_link]
  exact (congrArg TLink.fence hsame :)

theorem beacon_ups {s : State} {l : Link} {flit w : List Byte} {fixed : Nat} (h : Hears s l.val flit 2 3 w fixed)
    (hcarries : carries (s.link l.val) = false) (hlisted : (byteAt w 11).toNat < 8) (hcheck : beaconCheck s l.val w = 0)
    (hp : (byteAt w 11).toNat = 2)
    (hstate : (s.link l.val).state = 1 ∨ (s.link l.val).state = 3 ∨ (s.link l.val).state = 5)
    (hshut : shuttered s = false) : ∃ t, execBeaconReceive l flit s = .next t ∧ OnlyLink s t l.val
      ∧ (t.link l.val).state = (if (s.link l.val).fence then 3 else 2)
      ∧ ((s.link l.val).fence = false →
          (t.link l.val).txSeq = 0 ∧ (t.link l.val).rxSeq = 0 ∧ (t.link l.val).replay = []) := by
  obtain ⟨u, was, honly, hkeeps, hfence, hnext⟩ := beacon_passes h hlisted hcheck hp (.inl rfl) hstate hshut
  rw [fenceMove_up was ((carries_state hkeeps).trans hcarries)] at hnext
  refine ⟨_, hnext, honly.trans (updLink_only ..), ?_, fun hclear => ?_⟩
  · rw [State.link_updLink_same, hfence]
    split
    · rfl
    · rfl
  · rw [State.link_updLink_same, hfence, hclear]
    exact ⟨rfl, rfl, rfl⟩

theorem beacon_fenced {s : State} {l : Link} {flit w : List Byte} {fixed : Nat} (h : Hears s l.val flit 2 3 w fixed)
    (hcarries : carries (s.link l.val) = false) (hlisted : (byteAt w 11).toNat < 8) (hcheck : beaconCheck s l.val w = 0)
    (hp : (byteAt w 11).toNat = 3) (hset : (s.link l.val).fence = true)
    (hstate : (s.link l.val).state = 1 ∨ (s.link l.val).state = 3 ∨ (s.link l.val).state = 5)
    (hshut : shuttered s = false) : ∃ t, execBeaconReceive l flit s = .next t ∧ (t.link l.val).state = 3
      ∧ beaconState t (t.link l.val) = 3 := by
  obtain ⟨u, was, honly, hkeeps, hfence, hnext⟩ := beacon_passes h hlisted hcheck hp (.inr rfl) hstate hshut
  obtain ⟨hthree, hboot⟩ := fenceMove_fenced was ((carries_state hkeeps).trans hcarries) (hfence.trans hset)
  refine ⟨_, hnext, hthree, ?_⟩
  rw [beaconState, shuttered, hboot, ← shuttered, honly.shuttered, hshut, hthree]
  rfl

theorem idleFlit_acknowledges {s : State} {l : Link} {flit w : List Byte} {fixed : Nat} (h : Hears s l.val flit 0 0 w fixed) :
    ∃ t, execIdleFlitReceive l flit s = .next t ∧ OnlyLink s t l.val
      ∧ (t.link l.val).inbuf = (s.link l.val).inbuf ∧ (t.link l.val).rxSeq = (s.link l.val).rxSeq
      ∧ (t.link l.val).replay = (applyWord (s.link l.val) (linkWord w)).replay := by
  have hsame := goodFlit_unmoved s l.val w fixed
  obtain ⟨c, hc⟩ := goodFlit_link s l.val w fixed
  exact ⟨_, congrArg Host.Outcome.next (flitIn_heard h _), goodFlit_only .., (congrArg TLink.inbuf hsame :),
    (congrArg TLink.rxSeq hsame :), (congrArg TLink.replay hc :)⟩

/-- A data flit is accepted where it has the expected SEQ, and is otherwise discarded with its credits. -/
theorem dataFlit_received {s : State} {l : Link} {flit w : List Byte} {fixed : Nat} (hstate : (s.link l.val).state = 2)
    (hunwire : unwire flit = some (w, fixed)) (hkind : lwKind (linkWord w) = 1) (hquiet : s.guard.armed = []) :
    let x := dataFlit (w.take 64)
    ∃ t, execDataFlitReceive l flit s = .next t
      ∧ (x.seq = (s.link l.val).rxSeq → (t.link l.val).rxSeq = (s.link l.val).rxSeq + 1 ∧ (t.link l.val).retrying = false
        ∧ (x.vc.toNat < 6 → Tbl.get none (s.link l.val).route x.vc.toNat = none →
            Tbl.get [] (t.link l.val).inbuf x.vc.toNat
              = Tbl.get [] (s.link l.val).inbuf x.vc.toNat ++ [{ x with time := copyStamp s (linkDie l.val) }]))
      ∧ (x.seq ≠ (s.link l.val).rxSeq → (t.link l.val).rxSeq = (s.link l.val).rxSeq
        ∧ (t.link l.val).inbuf = (s.link l.val).inbuf ∧ (t.link l.val).freed = (s.link l.val).freed) := by
  intro x
  have hsame := goodFlit_unmoved s l.val w fixed
  have hnext := dataFlit_good hstate hunwire hkind hquiet
  by_cases hseq : x.seq = (s.link l.val).rxSeq
  · refine ⟨_, hnext.trans (congrArg Host.Outcome.next (if_pos hseq)), fun _ => ?_, fun hne => absurd hseq hne⟩
    obtain ⟨hcount, hretry⟩ := acceptFlit_counts (goodFlit s l.val w fixed) l.val
      { x with time := copyStamp s (linkDie l.val) }
    refine ⟨hcount.trans (congrArg (· + 1) (congrArg TLink.rxSeq hsame :)), hretry, fun hvc hroute => ?_⟩
    have hbuf := acceptFlit_buffers (s := goodFlit s l.val w fixed) (l := l.val)
      (x := { x with time := copyStamp s (linkDie l.val) }) hvc
      ((congrArg (fun k : TLink => Tbl.get none k.route x.vc.toNat) hsame :).trans hroute)
    exact hbuf.trans (congrArg (· ++ _) (congrArg (fun k : TLink => Tbl.get [] k.inbuf x.vc.toNat) hsame :))
  · obtain ⟨c, hc⟩ := countFixed_link s l.val fixed
    refine ⟨_, hnext.trans (congrArg Host.Outcome.next (if_neg hseq)), fun h => absurd h hseq, fun _ => ?_⟩
    rw [hc]
    exact ⟨rfl, rfl, rfl⟩

theorem dataFlit_asksAgain {s : State} {l : Link} {flit : List Byte} (hstate : (s.link l.val).state = 2)
    (hunwire : unwire flit = none) (hretry : (s.link l.val).retrying = false) :
    ∃ t, execDataFlitReceive l flit s = .next t ∧ OnlyLink s t l.val ∧ (t.link l.val).retrying = true
      ∧ (t.link l.val).ctl = (1, []) :: (s.link l.val).ctl ∧ (t.link l.val).rxSeq = (s.link l.val).rxSeq
      ∧ (t.link l.val).inbuf = (s.link l.val).inbuf := by
  refine ⟨_, dataFlit_fails hstate hunwire hretry, (updLink_only ..).trans (updLink_only ..), ?_⟩
  rw [State.link_updLink_same, tlCount, State.link_updLink_same]
  exact ⟨rfl, rfl, rfl, rfl⟩

theorem retryReq_resends {s : State} {l : Link} {flit w : List Byte} {fixed : Nat} {again : List Flit}
    (h : Hears s l.val flit 2 1 w fixed) (hstate : (s.link l.val).state = 2)
    (hagain : ((applyWord (s.link l.val) (linkWord w)).replay.dropWhile fun x => x.seq.toNat != fieldAt w 6 2) = again)
    (hsome : again ≠ []) : ∃ t, execRetryReqReceive l flit s = .next t ∧ (t.link l.val).resend = again := by
  obtain ⟨c, hc⟩ := goodFlit_link s l.val w fixed
  have hup : ((goodFlit s l.val w fixed).link l.val).state = 2 :=
    (congrArg TLink.state (goodFlit_unmoved s l.val w fixed) :).trans hstate
  exact ⟨_, congrArg Host.Outcome.next ((flitIn_heard h _).trans (if_pos hup)),
    replayFrom_resends (by rw [hc]; exact hagain) hsome⟩

theorem creditSync_sets {s : State} {l : Link} {flit w : List Byte} {fixed : Nat} (h : Hears s l.val flit 2 2 w fixed) :
    ∃ t, execCreditSyncReceive l flit s = .next t ∧ OnlyLink s t l.val
      ∧ ∀ vc < 6, Tbl.get 0 (t.link l.val).freed vc = fieldAt w (8 + 2 * vc) 2 := by
  refine ⟨_, congrArg Host.Outcome.next (flitIn_heard h _), (goodFlit_only ..).trans (updLink_only ..), fun vc hvc => ?_⟩
  rw [State.link_updLink_same]
  have hset := Tbl.get_foldl_set_range 0 0 (fun i => fieldAt w (8 + 2 * i) 2) 6
    ((goodFlit s l.val w fixed).link l.val).freed vc hvc
  simpa only [Nat.zero_add] using hset

theorem retrainReq_asks {s : State} {l : Link} {flit w : List Byte} {fixed : Nat} (h : Hears s l.val flit 2 4 w fixed) :
    ∃ t, execRetrainReqReceive l flit s = .next t ∧ OnlyLink s t l.val
      ∧ BitVec.ofNat 64 (fieldAt w 8 8) ∈ (t.link l.val).askedT ∧ ∀ n ∈ (s.link l.val).askedT, n ∈ (t.link l.val).askedT := by
  have hasked : ((goodFlit s l.val w fixed).link l.val).askedT = (s.link l.val).askedT :=
    (congrArg TLink.askedT (goodFlit_unmoved s l.val w fixed) :)
  refine ⟨_, congrArg Host.Outcome.next (flitIn_heard h _), (goodFlit_only ..).trans (updLink_only ..), ?_⟩
  rw [State.link_updLink_same]
  dsimp only
  rw [hasked]
  split
  · next hin => exact ⟨List.contains_iff_mem.1 hin, fun _ hn => hn⟩
  · exact ⟨List.mem_append_right _ (List.mem_singleton.2 rfl), fun _ hn => List.mem_append_left _ hn⟩

/-- Settles O34, flit by flit. -/
theorem linkFlitsReceived : Obligations.LinkFlitsReceived := by
  intro s l flit w fixed
  refine ⟨fun h hcarries hlisted => ⟨beacon_mismatches h hcarries hlisted, beacon_ups h hcarries hlisted,
    beacon_fenced h hcarries hlisted⟩, fun h => ?idle, dataFlit_received, dataFlit_asksAgain,
    fun h hstate => retryReq_resends h hstate rfl, creditSync_sets, retrainReq_asks⟩
  case idle =>
    obtain ⟨t, hnext, honly, hinbuf, hseq, hreplay⟩ := idleFlit_acknowledges h
    exact ⟨t, hnext, honly, hinbuf, hseq, hreplay.trans (applyWord_replay ..)⟩
end Sys2Proof.Machine

namespace Sys2Proof.Machine
open Sys2Proof

/-! ### The messages queued for a slot (R247, R258, R263) -/

theorem beaconSend_next {s : State} {l : Link} (hen : linkEn s l.val = true) (hstate : (s.link l.val).state ≠ 0) :
    execBeaconSend l s = .next (s.updLink l.val fun k => { k with ctl := k.ctl ++ [(3, beaconBytes s l.val)] }) := by
  refine congrArg Host.Outcome.next (if_pos ?_)
  simpa [hen] using hstate

theorem creditSyncSend_next {s : State} {l : Link} (hstate : (s.link l.val).state = 2) :
    execCreditSyncSend l s = .next (s.updLink l.val fun k => { k with ctl := k.ctl ++ [(2, [])] }) :=
  congrArg Host.Outcome.next (if_pos hstate)

theorem retrainReqSend_next {s : State} {l : Link} {n : DWord} (hgrant : (s.link l.val).windowT = some n)
    (htrained : trained (s.link l.val) = true) : execRetrainReqSend l s
      = .next (s.updLink l.val fun k => { k with ctl := k.ctl ++ [(4, [4, 0, 0, 0] ++ leBytes 8 n.toNat)] }) := by
  rw [execRetrainReqSend, hgrant]
  exact congrArg Host.Outcome.next (if_pos htrained)

/-! ### The flit slot (R252, R255, R262) -/

theorem wireFlit_length (word : Nat) (payload : List Byte) : (wireFlit word payload).length = 72 := by
  simp [wireFlit, rsCheck_eq_map, cut_length]

/-- A state that differs from the first by no wire flit, and in which the link sends on the same lanes. -/
structure SlotReady (s u : State) (l : Nat) : Prop where
  out : NoFlitOut s u
  lanes : (u.link l).txLanes = (s.link l).txLanes
  half : (u.link l).txHalf = (s.link l).txHalf

theorem SlotReady.trans {s t u : State} {l : Nat} (h : SlotReady s t l) (k : SlotReady t u l) : SlotReady s u l :=
  ⟨h.out.trans k.out, k.lanes.trans h.lanes, k.half.trans h.half⟩

theorem TrafficFrame.slotReady {s t : State} (h : TrafficFrame s t) (l : Nat) : SlotReady s t l :=
  ⟨h.out, (congrArg TLink.txLanes (h.still l) :), (congrArg TLink.txHalf (h.still l) :)⟩

theorem SlotReady.updLink {s u : State} {l : Nat} (h : SlotReady s u l) {f : TLink → TLink}
    (hlanes : ∀ k, (f k).txLanes = k.txLanes) (hhalf : ∀ k, (f k).txHalf = k.txHalf) : SlotReady s (u.updLink l f) l := by
  refine h.trans ⟨.of_out (State.updLink_out ..), ?_, ?_⟩
  · rw [State.link_updLink_same, hlanes]
  · rw [State.link_updLink_same, hhalf]

theorem SlotReady.refl (s : State) (l : Nat) : SlotReady s s l := ⟨.of_out rfl, rfl, rfl⟩

/-- One 72-byte flit has been sent, on the link's lanes, after outputs that are no wire flits. -/
def SlotSent (s t : State) (l : Nat) : Prop :=
  ∃ b frames, t.out = s.out ++ frames ++ [.flit l b (spreadFlit (s.link l).txLanes (s.link l).txHalf b)] ∧ b.length = 72
    ∧ ∀ o ∈ frames, ∀ m f lanes, o ≠ .flit m f lanes

theorem putWire_eq (s : State) (l kind : Nat) (x : Flit) (payload : List Byte) : putWire s l kind x payload =
    (s.updLink l fun _ => (outWord (s.link l) kind x).2).emit (.flit l (wireFlit (outWord (s.link l) kind x).1 payload)
      (spreadFlit (s.link l).txLanes (s.link l).txHalf (wireFlit (outWord (s.link l) kind x).1 payload))) := rfl

theorem putWire_sent {s u : State} {l : Nat} (h : SlotReady s u l) (kind : Nat) (x : Flit) (payload : List Byte) :
    SlotSent s (putWire u l kind x payload) l := by
  obtain ⟨frames, hout, hnone⟩ := h.out
  refine ⟨_, frames, ?_, wireFlit_length (outWord (u.link l) kind x).1 payload, hnone⟩
  rw [putWire_eq, h.lanes, h.half]
  exact congrArg (· ++ _) ((State.updLink_out ..).trans hout)

theorem putWire_ctl (s : State) (l kind : Nat) (x : Flit) (payload : List Byte) :
    ((putWire s l kind x payload).link l).ctl = (s.link l).ctl :=
  (congrArg TLink.ctl (State.link_updLink_same s l fun _ => (outWord (s.link l) kind x).2) :)

/-- A link from which a control message goes; a CREDIT_SYNC holds every credit owed. -/
def ctlTaken (m : Nat × List Byte) (rest : List (Nat × List Byte)) (k : TLink) : TLink :=
  { k with ctl := rest, owed := if m.1 = 2 then [] else k.owed }

theorem sendCtl_eq (s : State) (l : Nat) (m : Nat × List Byte) (rest : List (Nat × List Byte)) :
    sendCtl s l m rest = putWire (s.updLink l (ctlTaken m rest)) l 2 {}
      (ctlPayload ((s.updLink l (ctlTaken m rest)).link l) m) := rfl

theorem sendCtl_sent (s : State) (l : Nat) (m : Nat × List Byte) (rest : List (Nat × List Byte)) :
    SlotSent s (sendCtl s l m rest) l ∧ ((sendCtl s l m rest).link l).ctl = rest := by
  rw [sendCtl_eq]
  refine ⟨putWire_sent ((SlotReady.refl s l).updLink (f := ctlTaken m rest) (fun _ => rfl) fun _ => rfl) .., ?_⟩
  rw [putWire_ctl, State.link_updLink_same, ctlTaken]

theorem sendIdle_sent {s u : State} {l : Nat} (h : SlotReady s u l) : SlotSent s (sendIdle u l) l := putWire_sent h ..

theorem takeSource_ready (s : State) (l vc : Nat) (src : Nat × Nat) : SlotReady s (takeSource s l vc src) l := by
  unfold takeSource
  split
  · exact (SlotReady.refl s l).updLink (fun _ => rfl) fun _ => rfl
  · exact ((updLink_traffic rfl fun _ => rfl).trans (drainVc_traffic ..)).slotReady l

/-- The stamp of a synchronisation packet changes the counter's record alone. -/
theorem stampOut_state (s : State) (l : Nat) (x : Flit) : ∃ g, (stampOut s l x).1 = { s with gct := g } := by
  unfold stampOut
  split
  · dsimp only
    split
    · exact ⟨_, rfl⟩
    · split
      · exact ⟨s.gct, rfl⟩
      · exact ⟨s.gct, rfl⟩
  · exact ⟨s.gct, rfl⟩

theorem stampOut_ready (s : State) (l : Nat) (x : Flit) : SlotReady s (stampOut s l x).1 l := by
  obtain ⟨g, hg⟩ := stampOut_state s l x
  rw [hg]
  exact ⟨.of_out rfl, rfl, rfl⟩

theorem sendData_sent (s : State) (l vc : Nat) (src : Nat × Nat) (x : Flit) : SlotSent s (sendData s l vc src x) l := by
  rw [sendData]
  dsimp only
  apply putWire_sent
  refine SlotReady.updLink ?_ (fun _ => rfl) fun _ => rfl
  exact (stampOut_ready s l _).trans ((takeSource_ready _ l vc src).trans ((tlCount_traffic _ l 7 1).slotReady l))

/-- A slot without a control message sends one flit too. -/
theorem dataSlot_sent {s : State} {l : Nat} (h : (s.link l).ctl = []) : SlotSent s (dataSlot s l) l := by
  rw [dataSlot, h]
  dsimp only
  split
  · apply sendIdle_sent
    exact (SlotReady.refl s l).updLink (fun _ => rfl) fun _ => rfl
  · split
    · apply putWire_sent
      exact (SlotReady.refl s l).updLink (fun _ => rfl) fun _ => rfl
    · split
      · exact sendData_sent ..
      · exact sendIdle_sent (.refl s l)

theorem flitSlot_sends {s : State} {l : Link} (hen : linkEn s l.val = true) (hstate : (s.link l.val).state ≠ 0)
    (hwindow : (s.link l.val).window = false) : ∃ t, execFlitSlotSend l s = .next t ∧ SlotSent s t l.val
      ∧ ∀ m rest, (s.link l.val).ctl = m :: rest → (t.link l.val).ctl = rest := by
  have hopen : ¬(!linkEn s l.val || (s.link l.val).state == 0 || (s.link l.val).window) = true := by
    simpa [hen, hwindow] using hstate
  cases hctl : (s.link l.val).ctl with
  | cons m rest =>
    obtain ⟨hsent, hrest⟩ := sendCtl_sent s l.val m rest
    refine ⟨sendCtl s l.val m rest, (if_neg hopen).trans ?_, hsent, fun _ _ h => hrest.trans (List.cons.inj h).2⟩
    rw [hctl, dataSlot, hctl]
    exact ite_self _
  | nil =>
    have hnone : ∀ m rest t, [] = m :: rest → (State.link t l.val).ctl = rest := fun _ _ _ h => nomatch h
    by_cases hup : (s.link l.val).state = 2
    · exact ⟨_, (if_neg hopen).trans (if_pos hup), dataSlot_sent hctl, fun m rest => hnone m rest _⟩
    · refine ⟨sendIdle s l.val, (if_neg hopen).trans ((if_neg hup).trans ?_), sendIdle_sent (.refl s l.val),
        fun m rest => hnone m rest _⟩
      rw [hctl]

/-! ### The replay timeout (R255, R256) -/

/-- Each flit that goes again counts one replay for its SEQ. -/
theorem get_countReplays (q : BitVec 9) : ∀ (again : List Flit) (t : Tbl Nat),
    Tbl.get 0 (again.foldl (fun t x => upd 0 t x.seq.toNat (· + 1)) t) q.toNat
      = Tbl.get 0 t q.toNat + (again.map (·.seq)).count q := by
  intro again
  induction again with
  | nil => exact fun _ => rfl
  | cons x again ih =>
    intro t
    rw [List.foldl_cons, ih, List.map_cons]
    by_cases hx : x.seq = q
    · rw [hx, List.count_cons_self, upd, Tbl.get_set_same]
      omega
    · have hkey : q.toNat ≠ x.seq.toNat := fun h => hx (BitVec.eq_of_toNat_eq h.symm)
      rw [List.count_cons_of_ne hx, upd, Tbl.get_set_other _ _ _ _ _ hkey]

theorem replayTimeout_resends {s : State} {l : Link} {x : Flit} {rest : List Flit} (hstate : (s.link l.val).state = 2)
    (hreplay : (s.link l.val).replay = x :: rest) : ∃ t, execReplayTimeout l s = .next t
      ∧ (t.link l.val).resend = (s.link l.val).replay
      ∧ (((s.link l.val).replay.map (·.seq)).Nodup → ∀ y ∈ (s.link l.val).replay,
          Tbl.get 0 (t.link l.val).replays y.seq.toNat = Tbl.get 0 (s.link l.val).replays y.seq.toNat + 1)
      ∧ ((∃ y ∈ (s.link l.val).replay, Tbl.get 0 (s.link l.val).replays y.seq.toNat + 1 = replayThr s (linkDie l.val)) →
          l.val ∈ t.tl.asked ∧ (t.link l.val).pending = true) := by
  have hagain : ((s.link l.val).replay.dropWhile fun y => y.seq.toNat != x.seq.toNat) = (s.link l.val).replay := by
    rw [hreplay]
    exact List.dropWhile_cons_of_neg (by simp)
  have hnext : execReplayTimeout l s = .next (replayFrom s l.val x.seq.toNat) := by
    rw [execReplayTimeout, hreplay]
    exact congrArg Host.Outcome.next (if_pos hstate)
  have heq := replayFrom_eq hagain (by rw [hreplay]; exact List.cons_ne_nil _ _)
  have hlink : (((tlCount s l.val 2 1).updLink l.val (resending (s.link l.val).replay)).link l.val)
      = resending (s.link l.val).replay ((tlCount s l.val 2 1).link l.val) := State.link_updLink_same ..
  have hcount : ((tlCount s l.val 2 1).link l.val).replays = (s.link l.val).replays := by
    rw [tlCount, State.link_updLink_same]
  have hthr : replayThr ((tlCount s l.val 2 1).updLink l.val (resending (s.link l.val).replay)) (linkDie l.val)
      = replayThr s (linkDie l.val) := by
    rw [replayThr, updLink_tl, tlCount, updLink_tl, replayThr]
  dsimp only at heq
  rw [hthr] at heq
  generalize (tlCount s l.val 2 1).updLink l.val (resending (s.link l.val).replay) = u at heq hlink
  have hreplays : ((s.link l.val).replay.map (·.seq)).Nodup → ∀ y ∈ (s.link l.val).replay,
      Tbl.get 0 (u.link l.val).replays y.seq.toNat = Tbl.get 0 (s.link l.val).replays y.seq.toNat + 1 := by
    intro hnodup y hy
    rw [hlink, resending, get_countReplays, hcount, List.count_eq_one_of_mem hnodup (List.mem_map_of_mem hy)]
  have hresend : (u.link l.val).resend = (s.link l.val).replay := by rw [hlink, resending]
  by_cases hany : ((s.link l.val).replay.any fun y =>
      Tbl.get 0 (s.link l.val).replays y.seq.toNat + 1 == replayThr s (linkDie l.val)) = true
  · rw [if_pos hany] at heq
    have hask := askWindow_link_same u l.val true
    refine ⟨_, hnext, ?_⟩
    rw [heq, hask]
    exact ⟨hresend, hreplays, fun _ => ⟨askWindow_asked .., rfl⟩⟩
  · rw [if_neg hany] at heq
    refine ⟨_, hnext, ?_⟩
    rw [heq]
    refine ⟨hresend, hreplays, fun ⟨y, hy, hreach⟩ => absurd ?_ hany⟩
    exact List.any_eq_true.2 ⟨y, hy, beq_iff_eq.2 hreach⟩

end Sys2Proof.Machine

namespace Sys2Proof.Machine
open Sys2Proof

/-! ### Retrain windows (R263, R384) -/

/-- The ledger entries of a link's darns and width changes change no link. -/
theorem notes_tl (s : State) (src detail n : Nat) :
    ((List.range n).foldl (fun s _ => corrected s src detail) s).tl = s.tl :=
  (EventFrame.foldl (fun _ _ => corrected_frame ..) (List.range n) s).tl

/-- A link whose pending darns and widths are applied and recorded. -/
def darned (k : TLink) : TLink :=
  let t := keptLanes k.txLanes k.txMarked
  let r := keptLanes k.rxLanes k.rxMarked
  let th := k.txHalf || decide (laneCount t < 8)
  let rh := k.rxHalf || decide (laneCount r < 8)
  { k with txLanes := t, rxLanes := r, txHalf := th, rxHalf := rh, recTx := k.recTx ||| k.txMarked,
           recRx := k.recRx ||| k.rxMarked, recTxHalf := th, recRxHalf := rh, txMarked := 0, rxMarked := 0 }

theorem applyDarns_link_same (s : State) (l : Nat) : (applyDarns s l).link l = darned (s.link l) := by
  unfold applyDarns
  dsimp only
  rw [State.link_of_tl (notes_tl ..), State.link_of_tl (notes_tl ..), State.link_of_tl (notes_tl ..),
    State.link_of_tl (notes_tl ..), State.link_updLink_same]
  rfl

theorem applyDarns_link_other (s : State) {l m : Nat} (h : m ≠ l) : (applyDarns s l).link m = s.link m := by
  unfold applyDarns
  dsimp only
  rw [State.link_of_tl (notes_tl ..), State.link_of_tl (notes_tl ..), State.link_of_tl (notes_tl ..),
    State.link_of_tl (notes_tl ..), State.link_updLink_other _ _ _ _ h]

/-- What a window that begins at count `n` makes of the links. -/
theorem beginWindow_link (s : State) (l : Nat) (n : DWord) :
    ((beginWindow s l n).link l).window = true ∧ ((beginWindow s l n).link l).began = n
    ∧ ((beginWindow s l n).link l).state = (if (s.link l).state = 2 then 7 else (s.link l).state)
    ∧ ((beginWindow s l n).link l).cal.getLsbD (s.link l).band.toNat = true
    ∧ ∀ m, m ≠ l → (beginWindow s l n).link m = s.link m := by
  rw [beginWindow]
  rw [applyDarns_link_same, State.link_updLink_same, tlCount, State.link_updLink_same]
  refine ⟨rfl, rfl, rfl, getLsbD_calibrated .., fun m hm => ?_⟩
  rw [applyDarns_link_other _ hm, State.link_updLink_other _ _ _ _ hm, State.link_updLink_other _ _ _ _ hm]

theorem windowStart_begins {s : State} {l : Link} {n : DWord} (hdue : dueCount s (s.link l.val) = some n)
    (htrained : trained (s.link l.val) = true) : ∃ t, execLinkRetrainWindowStart l s = .next t
      ∧ (t.link l.val).window = true ∧ (t.link l.val).began = n
      ∧ (t.link l.val).state = (if (s.link l.val).state = 2 then 7 else (s.link l.val).state)
      ∧ (t.link l.val).cal.getLsbD (s.link l.val).band.toNat = true ∧ ∀ m, m ≠ l.val → t.link m = s.link m := by
  have hnext : execLinkRetrainWindowStart l s = .next (beginWindow (s.updLink l.val fun k =>
      { k with askedT := k.askedT.filter (· != n) }) l.val n) := by
    rw [execLinkRetrainWindowStart, if_pos htrained, hdue]
  obtain ⟨hwindow, hbegan, hstate, hcal, hother⟩ := beginWindow_link (s.updLink l.val fun k =>
    { k with askedT := k.askedT.filter (· != n) }) l.val n
  rw [State.link_updLink_same] at hstate hcal
  exact ⟨_, hnext, hwindow, hbegan, hstate, hcal, fun m hm => (hother m hm).trans (State.link_updLink_other _ _ _ _ hm)⟩

theorem fencedStart_begins {s : State} {l : Link} (htrained : trained (s.link l.val) = true)
    (hfenced : (s.link l.val).state = 3) (hasked : (s.link l.val).askedT ≠ []) :
    ∃ t, execFencedRetrainStart l s = .next t ∧ (t.link l.val).window = true ∧ (t.link l.val).state = 3
      ∧ (t.link l.val).began = s.gct.count := by
  have hholds : (trained (s.link l.val) && (s.link l.val).state == 3 && (s.link l.val).askedT != []) = true := by
    simpa [htrained, hfenced] using hasked
  obtain ⟨hwindow, hbegan, hstate, -, -⟩ := beginWindow_link (s.updLink l.val fun k => { k with askedT := [] }) l.val
    s.gct.count
  rw [State.link_updLink_same, hfenced] at hstate
  exact ⟨_, congrArg Host.Outcome.next (if_pos hholds), hwindow, hstate, hbegan⟩

/-- Slow mode marks the link and asks for a window. -/
theorem slowMode_link (s : State) (l : Nat) :
    ∃ slow pending, (slowMode s l).link l = { s.link l with slow := slow, pending := pending } := by
  unfold slowMode
  dsimp only
  split
  · exact ⟨_, _, rfl⟩
  · refine ⟨true, true, ?_⟩
    rw [askWindow_link_same, State.link_updLink_same]

theorem slowMode_uncalibrated {s : State} {l : Nat} (h : (s.link l).cal.getLsbD (s.link l).band.toNat = false) :
    ((slowMode s l).link l) = { s.link l with slow := true, pending := true } ∧ l ∈ (slowMode s l).tl.asked := by
  have hslow : slowMode s l = askWindow (s.updLink l fun k => { k with slow := true }) l false :=
    if_neg (Bool.eq_false_iff.1 h)
  rw [hslow, askWindow_link_same, State.link_updLink_same]
  exact ⟨rfl, askWindow_asked ..⟩

theorem windowEnd_resumes {s : State} {l : Link} (hwindow : (s.link l.val).window = true)
    (hcount : (s.link l.val).began.toNat + 40000 ≤ s.gct.count.toNat) :
    ∃ t, execLinkRetrainWindowEnd l s = .next t ∧ (t.link l.val).window = false
      ∧ (t.link l.val).state = (if (s.link l.val).state = 7 then 2 else (s.link l.val).state)
      ∧ (t.link l.val).windowT
        = (if (s.link l.val).windowT = some (s.link l.val).began then none else (s.link l.val).windowT)
      ∧ (t.link l.val).resend = (s.link l.val).replay := by
  refine ⟨_, if_pos ⟨hwindow, hcount⟩, ?_⟩
  generalize hu : s.updLink l.val _ = u
  obtain ⟨slow, pending, hlink⟩ := slowMode_link u l.val
  rw [hlink, ← hu, State.link_updLink_same]
  exact ⟨rfl, rfl, rfl, rfl⟩

/-! ### Lanes above the threshold (R264) -/

theorem overThr_keeps (thr i : Nat) : ∀ (l : List (Fin 9 × Nat)) (m : BitVec 9), m.getLsbD i = true →
    (l.foldl (fun m x => if thr ≠ 0 ∧ thr < x.2 then m ||| BitVec.ofNat 9 (2 ^ x.1.val) else m) m).getLsbD i = true := by
  intro l
  induction l with
  | nil => exact fun _ h => h
  | cons x l ih =>
    intro m h
    rw [List.foldl_cons]
    refine ih _ ?_
    split
    · rw [BitVec.getLsbD_or, h, Bool.true_or]
    · exact h

theorem getLsbD_laneBit (i : Fin 9) : (BitVec.ofNat 9 (2 ^ i.val)).getLsbD i.val = true := by
  revert i
  decide

/-- A lane whose count exceeds the threshold is among those over it. -/
theorem overThr_mem {thr : Nat} {e : Fin 9 × Nat} (hthr : thr ≠ 0) (hover : thr < e.2) :
    ∀ (l : List (Fin 9 × Nat)), e ∈ l → (overThr thr l).getLsbD e.1.val = true := by
  intro l
  unfold overThr
  generalize (0 : BitVec 9) = m
  induction l generalizing m with
  | nil => exact fun h => absurd h List.not_mem_nil
  | cons x l ih =>
    intro hmem
    rw [List.foldl_cons]
    rcases List.mem_cons.1 hmem with rfl | hmem
    · refine overThr_keeps thr _ l _ ?_
      rw [if_pos ⟨hthr, hover⟩, BitVec.getLsbD_or, getLsbD_laneBit, Bool.or_true]
    · exact ih _ hmem

/-- A link with fewer than four lanes left is FAILED; the marks stay. -/
theorem failLanes_link (s : State) (l : Nat) : ((failLanes s l).link l).txMarked = (s.link l).txMarked
    ∧ (laneCount (keptLanes (s.link l).txLanes (s.link l).txMarked) < 4 → ((failLanes s l).link l).state = 6) := by
  unfold failLanes
  dsimp only
  split
  · split
    · next hcarries =>
      exact ⟨leaveUp_txMarked hcarries (by decide) 1 3, fun _ => leaveUp_state hcarries (by decide) 1 3⟩
    · rw [State.link_updLink_same]
      exact ⟨rfl, fun _ => rfl⟩
  · next hmany => exact ⟨rfl, fun hfew => absurd (.inl hfew) hmany⟩

/-- A link whose lanes above the threshold are marked. -/
def lanesMarked (tx rx : BitVec 9) (k : TLink) : TLink :=
  { k with txMarked := k.txMarked ||| (tx &&& k.txLanes), rxMarked := k.rxMarked ||| (rx &&& k.rxLanes) }

theorem laneEpoch_marks {s : State} {l : Link} (tx rx : List (Fin 9 × Nat)) (hdown : (s.link l.val).state ≠ 0)
    (htrain : (s.link l.val).state ≠ 1) (hfailed : (s.link l.val).state ≠ 6) :
    ∃ t, execTlLaneEpochEnd l tx rx s = .next t
      ∧ (∀ e ∈ tx, laneThr s (linkDie l.val) ≠ 0 → laneThr s (linkDie l.val) < e.2 →
          (s.link l.val).txLanes.getLsbD e.1.val = true → (t.link l.val).txMarked.getLsbD e.1.val = true)
      ∧ (laneCount (keptLanes (s.link l.val).txLanes (t.link l.val).txMarked) < 4 → (t.link l.val).state = 6) := by
  have hnext : execTlLaneEpochEnd l tx rx s = .next (failLanes (s.updLink l.val (lanesMarked
      (overThr (laneThr s (linkDie l.val)) tx) (overThr (laneThr s (linkDie l.val)) rx))) l.val) :=
    if_neg (not_or_intro hdown (not_or_intro htrain hfailed))
  obtain ⟨hmarks, hfails⟩ := failLanes_link (s.updLink l.val (lanesMarked
    (overThr (laneThr s (linkDie l.val)) tx) (overThr (laneThr s (linkDie l.val)) rx))) l.val
  rw [State.link_updLink_same] at hmarks hfails
  refine ⟨_, hnext, fun e he hthr hover hlane => ?_, fun hfew => hfails ?_⟩
  · rw [hmarks, lanesMarked, BitVec.getLsbD_or, BitVec.getLsbD_and, overThr_mem hthr hover tx he, hlane, Bool.true_and,
      Bool.or_true]
  · rwa [hmarks] at hfew

/-! ### Bands (R261, R262) -/

theorem nextBand_hot (b : BitVec 2) {t : Int} (h : 340 ≤ t) : nextBand b.toNat t = 3 := by
  have hb : b.toNat ≤ 3 := Nat.le_of_lt_succ b.isLt
  have hreached : bandReached t = 3 := if_pos h
  have hbound : bandBound 3 = 340 := rfl
  rw [nextBand, hreached, Nat.max_eq_right hb, bandDown, hbound]
  exact if_neg (by omega)

/-- A link that enters band 3. -/
def hotter (k : TLink) : TLink :=
  { k with band := 3, usedBand := if k.cal.getLsbD 3 && !k.window then 3 else k.usedBand }

theorem linkTemp_enters {s : State} {l : Nat} {temp : Int} (h : 340 ≤ temp) (hband : (s.link l).band ≠ 3) :
    linkTemp s l temp = if (s.link l).window then s.updLink l hotter else slowMode (s.updLink l hotter) l := by
  have hnew := nextBand_hot (s.link l).band h
  have hmoves : nextBand (s.link l).band.toNat temp ≠ (s.link l).band.toNat := fun hsame =>
    hband (BitVec.eq_of_toNat_eq (hsame.symm.trans hnew))
  refine (if_neg hmoves).trans ?_
  rw [hnew]
  rfl

theorem linkTemp_hot {s : State} {l : Link} {temp : Int} (h : 340 ≤ temp) :
    ∃ t, execLinkTempSample l temp s = .next t ∧ (t.link l.val).band = 3
      ∧ ((s.link l.val).band ≠ 3 → (s.link l.val).window = false → (s.link l.val).cal.getLsbD 3 = false →
          (t.link l.val).slow = true ∧ (t.link l.val).pending = true ∧ l.val ∈ t.tl.asked) := by
  by_cases hband : (s.link l.val).band = 3
  · refine ⟨s, congrArg Host.Outcome.next (if_pos ((nextBand_hot _ h).trans ?_)), hband, fun hne => absurd hband hne⟩
    rw [hband]
    rfl
  · have hlink := State.link_updLink_same s l.val hotter
    refine ⟨_, congrArg Host.Outcome.next (linkTemp_enters h hband), ?_, fun _ hclosed hcal => ?_⟩
    · split
      · rw [hlink]
        rfl
      · obtain ⟨slow, pending, hslow⟩ := slowMode_link (s.updLink l.val hotter) l.val
        rw [hslow, hlink]
        rfl
    · rw [hclosed, if_neg Bool.false_ne_true]
      obtain ⟨hslow, hasked⟩ := slowMode_uncalibrated (s := s.updLink l.val hotter) (l := l.val) (by rw [hlink]; exact hcal)
      rw [hslow]
      exact ⟨rfl, rfl, hasked⟩

/-- Settles O35: the messages, the slot, the timeout, the windows, the lanes and the band, one lemma each. -/
theorem linkSlotsAndWindows : Obligations.LinkSlotsAndWindows := by
  intro s l
  refine ⟨fun hen hstate => next_updLink (beaconSend_next hen hstate) rfl,
    fun hstate => next_updLink (creditSyncSend_next hstate) rfl,
    fun n hgrant htrained => next_updLink (retrainReqSend_next hgrant htrained) rfl, fun hen hstate hwindow => ?slot,
    fun x rest => replayTimeout_resends, fun n => windowStart_begins, fencedStart_begins, windowEnd_resumes,
    laneEpoch_marks, fun temp => linkTemp_hot⟩
  case slot =>
    obtain ⟨t, hnext, ⟨b, frames, hout, hlength, hnone⟩, hctl⟩ := flitSlot_sends hen hstate hwindow
    exact ⟨t, b, frames, hnext, hout, hlength, hnone, hctl⟩
end Sys2Proof.Machine

namespace Sys2Proof.Machine
open Sys2Proof

/-! ### Head flits (R268, R271, R273, R276) -/

/-- A route is given to an input VC, and what can go goes. -/
def routed (s : State) (l vc : Nat) (r : Route) : State :=
  drainVc (s.updLink l fun k => { k with route := Tbl.set none k.route vc (some r) }) l vc

/-- A head flit at the front of an input VC that has no route. -/
structure HeadWaits (s : State) (l vc : Nat) (x : Flit) (rest : List Flit) : Prop where
  quiet : s.guard.armed = []
  route : Tbl.get none (s.link l).route vc = none
  inbuf : Tbl.get [] (s.link l).inbuf vc = x :: rest
  head : x.head = true

section
variable {s : State} {l : Link} {vc : Fin 6} {x : Flit} {rest : List Flit}

theorem routerHead_next (h : HeadWaits s l.val vc.val x rest) : execRouterHeadFlit l vc s =
    .next (if badHeader s (linkDie l.val) vc.val (flitHeader x) || noTurn s l.val (flitHeader x) then
        routed (badPacket s l.val (flitHeader x)) l.val vc.val {}
      else
        let b := branchesOf s l.val vc.val (flitHeader x) (directions s l.val (flitHeader x)).1
        routed b.1 l.val vc.val { branches := b.2, eject := (directions s l.val (flitHeader x)).2 }) := by
  rw [execRouterHeadFlit, h.route, h.inbuf]
  dsimp only
  rw [h.head, detect_quiet h.quiet]
  rfl

theorem routerHead_good (h : HeadWaits s l.val vc.val x rest)
    (hgood : badHeader s (linkDie l.val) vc.val (flitHeader x) = false) (hturn : noTurn s l.val (flitHeader x) = false)
    {ds : List (Nat × Bool)} {ej : Bool} (hdirs : directions s l.val (flitHeader x) = (ds, ej)) :
    execRouterHeadFlit l vc s = .next (routed (branchesOf s l.val vc.val (flitHeader x) ds).1 l.val vc.val
      { branches := (branchesOf s l.val vc.val (flitHeader x) ds).2, eject := ej }) := by
  rw [routerHead_next h, hgood, hturn, hdirs]
  rfl
end

theorem State.route_updLink (s : State) (l vc : Nat) (r : Route) :
    Tbl.get none ((s.updLink l fun k => { k with route := Tbl.set none k.route vc (some r) }).link l).route vc = some r := by
  rw [State.link_updLink_same]
  exact Tbl.get_set_same none (s.link l).route vc (some r)

/-- An input VC whose packet is not ejected hands over no packet. -/
theorem drainIn_arrived (l vc : Nat) : ∀ (n : Nat) (s : State),
    (∀ r, Tbl.get none (s.link l).route vc = some r → r.eject = false) → (drainIn n s l vc).tl.arrived = s.tl.arrived := by
  intro n
  induction n with
  | zero => exact fun _ _ => rfl
  | succ n ih =>
    intro s hroute
    rw [drainIn]
    split
    · next r x rest hr hbuf =>
      have hnot := hroute r hr
      rw [hnot]
      dsimp only [Bool.false_and]
      split
      · next hsome => exact absurd hsome (by simp)
      · split
        · refine (ih _ fun q hq => ?_).trans (updLink_arrived ..)
          rw [State.link_updLink_same, freeFront] at hq
          dsimp only at hq
          rw [Tbl.get_set_same] at hq
          split at hq
          · cases hq
          · cases hq
            exact hnot
        · rfl
    · rfl

theorem routed_arrived (s : State) (l vc : Nat) {r : Route} (h : r.eject = false) :
    (routed s l vc r).tl.arrived = s.tl.arrived := by
  refine (drainIn_arrived l vc _ _ fun q hq => ?_).trans (updLink_arrived ..)
  rw [State.route_updLink] at hq
  cases hq
  exact h

theorem routed_grows (s : State) (l vc : Nat) (r : Route) : LatchGrows s (routed s l vc r) :=
  (updLink_grows ..).trans (drainVc_traffic ..).grows

/-! ### What an input VC does with its front flit (R258, R260, R273) -/

section
variable {s : State} {l vc : Nat} {r : Route} {x : Flit} {rest : List Flit}
  (hroute : Tbl.get none (s.link l).route vc = some r) (hbuf : Tbl.get [] (s.link l).inbuf vc = x :: rest)

/-- The front flit has been sent by every branch and ejected where it must be. -/
def frontDone (r : Route) : Bool :=
  r.branches.all (fun b => decide (r.gone < b.sent)) && (!r.eject || decide (r.gone < r.ejected))

include hroute hbuf

theorem drainIn_ejects {y : Flit} (heject : r.eject = true) (hfree : ejectHeld s l vc = false)
    (hflit : packetFlit (x :: rest) (r.ejected - r.gone) = some y) (n : Nat) :
    drainIn (n + 1) s l vc = drainIn n ((ejectFlit s l vc y).updLink l fun k =>
      { k with route := Tbl.set none k.route vc (some { r with ejected := r.ejected + 1 }) }) l vc := by
  rw [drainIn, hroute, hbuf]
  dsimp only
  rw [heject, hfree, hflit]
  rfl

theorem drainIn_frees (hflit : packetFlit (x :: rest) (r.ejected - r.gone) = none) (hdone : frontDone r = true) (n : Nat) :
    drainIn (n + 1) s l vc = drainIn n (s.updLink l fun k => freeFront k vc r x rest) l vc := by
  rw [drainIn, hroute, hbuf]
  dsimp only
  rw [hflit, ite_self]
  exact if_pos hdone

/-- A front flit that cannot be ejected now, or need not, and is not done with stays. -/
theorem drainVc_stays (heject : (r.eject && !ejectHeld s l vc) = false) (hdone : frontDone r = false) :
    drainVc s l vc = s := by
  rw [drainVc, drainIn, hroute, hbuf]
  dsimp only
  rw [heject, if_neg Bool.false_ne_true]
  exact if_neg (Bool.eq_false_iff.1 hdone)
end

/-- The route ends with the tail. -/
theorem freeFront_route (k : TLink) (vc : Nat) (r : Route) {x : Flit} (rest : List Flit) (h : x.tail = true) :
    Tbl.get none (freeFront k vc r x rest).route vc = none :=
  (Tbl.get_set_same none k.route vc (if x.tail then none else some { r with gone := r.gone + 1 })).trans (if_pos h)

theorem drainIn_unrouted {s : State} {l vc : Nat} (h : Tbl.get none (s.link l).route vc = none) (n : Nat) :
    drainIn n s l vc = s := by
  cases n with
  | zero => rfl
  | succ n => rw [drainIn, h]

/-- Whether a VC's ejection is held is read from the collective engines, not from the links. -/
theorem updLink_ejectHeld (s : State) (m : Nat) (f : TLink → TLink) (l vc : Nat) :
    ejectHeld (s.updLink m f) l vc = ejectHeld s l vc := by
  have hreads : ejectHeld (s.updLink m f) l vc
    = ejectHeld { s with tl := (s.updLink m f).tl, coll := (s.updLink m f).coll } l vc := rfl
  rw [hreads, updLink_tl, State.updLink_coll]
  rfl

/-- A one-flit packet for the link's base die arrives as it is ejected. -/
theorem ejectFlit_arrives {s : State} {l : Link} {vc : Nat} {x : Flit} (htail : x.tail = true)
    (hempty : Tbl.get [] (s.link l.val).eject vc = []) (hdie : (flitHeader x).tdie.toNat = linkDie l.val) :
    ejectFlit s l.val vc x = atTarget (s.updLink l.val fun k => { k with eject := Tbl.set [] k.eject vc [] }) l.val
      (packetOf [x]) := by
  have hpath : packagePath (linkDie l.val) (packetOf [x]).tdie.toNat = [] := if_pos hdie.symm
  rw [ejectFlit, htail, hempty]
  refine (if_pos rfl).trans ((if_pos l.isLt).trans ?_)
  rw [carryPacket, List.nil_append, hpath]
  rfl

theorem atTarget_link (s : State) (l : Nat) (p : Packet) (m : Nat) : (atTarget s l p).link m = s.link m := rfl

/-- The state in which the one flit of a packet has been ejected on a VC with route `r`. -/
def ejectedWhole (s : State) (l vc : Nat) (x : Flit) (r : Route) : State :=
  (atTarget (s.updLink l fun k => { k with eject := Tbl.set [] k.eject vc [] }) l (packetOf [x])).updLink l fun k =>
    { k with route := Tbl.set none k.route vc (some r) }

theorem ejectedWhole_arrived (s : State) (l vc : Nat) (x : Flit) (r : Route) :
    (ejectedWhole s l vc x r).tl.arrived = s.tl.arrived ++ [(l, packetOf [x])] := by
  rw [ejectedWhole, updLink_arrived]
  exact congrArg (· ++ _) (updLink_arrived ..)

theorem ejectedWhole_inbuf (s : State) (l vc : Nat) (x : Flit) (r : Route) :
    ((ejectedWhole s l vc x r).link l).inbuf = (s.link l).inbuf := by
  rw [ejectedWhole, State.link_updLink_same, atTarget_link, State.link_updLink_same]

/-- A one-flit packet that is for this module and die arrives, and its buffer is free. -/
theorem drainVc_ejects {s : State} {l : Link} {vc : Nat} {x : Flit} {rest : List Flit}
    (hroute : Tbl.get none (s.link l.val).route vc = some { eject := true })
    (hbuf : Tbl.get [] (s.link l.val).inbuf vc = x :: rest) (htail : x.tail = true)
    (hempty : Tbl.get [] (s.link l.val).eject vc = []) (hdie : (flitHeader x).tdie.toNat = linkDie l.val)
    (hfree : ejectHeld s l.val vc = false) :
    (drainVc s l.val vc).tl.arrived = s.tl.arrived ++ [(l.val, packetOf [x])]
    ∧ Tbl.get [] ((drainVc s l.val vc).link l.val).inbuf vc = rest := by
  have hbuf' : Tbl.get [] ((ejectedWhole s l.val vc x { eject := true, ejected := 1 }).link l.val).inbuf vc = x :: rest := by
    rw [ejectedWhole_inbuf, hbuf]
  have hflit : packetFlit (x :: rest) (1 - 0) = none := if_pos (by simp [htail])
  have hfuel : 2 * (x :: rest).length + 2 = 2 * rest.length + 2 + 1 + 1 := by
    rw [List.length_cons]
    omega
  have hdrain : drainVc s l.val vc = (ejectedWhole s l.val vc x { eject := true, ejected := 1 }).updLink l.val fun k =>
      freeFront k vc { eject := true, ejected := 1 } x rest := by
    rw [drainVc, hbuf, hfuel, drainIn_ejects hroute hbuf rfl hfree rfl, ejectFlit_arrives htail hempty hdie]
    refine (drainIn_frees (State.route_updLink ..) hbuf' hflit rfl _).trans (drainIn_unrouted ?_ _)
    rw [State.link_updLink_same, freeFront_route _ _ _ _ htail]
  rw [hdrain, updLink_arrived, ejectedWhole_arrived, State.link_updLink_same]
  exact ⟨rfl, Tbl.get_set_same ..⟩

/-! ### Where a head flit goes (R271, R275) -/

/-- A packet for this module has no next link. -/
theorem nextHop_here (s : State) (die c src : Nat) : nextHop s die c c src = none := by
  rw [nextHop, List.findSome?_eq_none_iff]
  intro d _
  rw [direction, dirIn, if_pos rfl]
  rfl

theorem noTurn_here {s : State} {l : Nat} {p : Packet} (hdest : p.dest.toNat = myCoord s) : noTurn s l p = false := by
  rw [noTurn, hdest, nextHop_here]
  exact Bool.and_false _

theorem directions_here {s : State} {l : Nat} {p : Packet} (huni : p.mc = false) (hdest : p.dest.toNat = myCoord s) :
    directions s l p = ([], true) := by
  rw [directions, huni, hdest, nextHop_here]
  rfl

theorem directions_on {s : State} {l d : Nat} {plus : Bool} {p : Packet} (huni : p.mc = false)
    (hhop : nextHop s (linkDie l) (myCoord s) p.dest.toNat p.src.toNat = some (d, plus)) :
    directions s l p = ([(d, plus)], false) := by
  rw [directions, huni, hhop]
  rfl

theorem branchesOf_one {s : State} (hquiet : s.guard.armed = []) {l vc d : Nat} {plus : Bool} {p : Packet}
    (hcarries : carries (s.link (linkNum (l / 8) d plus)) = true) : branchesOf s l vc p [(d, plus)]
      = (s, [{ link := linkNum (l / 8) d plus, vc := outVc s p.cls.toNat d plus (d == linkDim l && vc % 2 == 1) }]) := by
  rw [branchesOf, List.foldl_cons, List.foldl_nil]
  dsimp only
  rw [meetLink_quiet hquiet]
  dsimp only
  rw [hcarries]
  rfl

section
variable {s : State} {l : Link} {vc : Fin 6} {x : Flit} {rest : List Flit}

/-- A bad packet, or one that no router may turn, is discarded. -/
theorem routerHead_discards (h : HeadWaits s l.val vc.val x rest)
    (hbad : badHeader s (linkDie l.val) vc.val (flitHeader x) = true ∨ noTurn s l.val (flitHeader x) = true) :
    ∃ t, execRouterHeadFlit l vc s = .next t ∧ t.tl.arrived = s.tl.arrived ∧ 0x28 ∈ t.irq.latch := by
  have hnext := routerHead_next h
  rw [if_pos (Bool.or_eq_true_iff.2 hbad)] at hnext
  have hlatch : 0x28 ∈ (badPacket s l.val (flitHeader x)).irq.latch :=
    raise_latch _ _ rfl (show evTlBadpkt ≠ evGctStep by decide)
  have harrived : (badPacket s l.val (flitHeader x)).tl.arrived = s.tl.arrived := by
    rw [badPacket, (raise_frame ..).tl, if_pos l.isLt, tlCount, updLink_arrived]
  exact ⟨_, hnext, (routed_arrived _ _ _ rfl).trans harrived, (routed_grows ..).mem _ hlatch⟩

/-- A packet for this module waits for its ejection where a packet holds its VC's ejection buffer. -/
theorem routerHead_waits (h : HeadWaits s l.val vc.val x rest)
    (hgood : badHeader s (linkDie l.val) vc.val (flitHeader x) = false) (huni : (flitHeader x).mc = false)
    (hdest : (flitHeader x).dest.toNat = myCoord s) (hheld : ejectHeld s l.val vc.val = true) :
    ∃ t, execRouterHeadFlit l vc s = .next t ∧ t.tl.arrived = s.tl.arrived
      ∧ Tbl.get [] (t.link l.val).inbuf vc.val = x :: rest := by
  have hnext := routerHead_good h hgood (noTurn_here hdest) (directions_here huni hdest)
  have hbuf : Tbl.get [] ((s.updLink l.val fun k =>
      { k with route := Tbl.set none k.route vc.val (some { eject := true }) }).link l.val).inbuf vc.val = x :: rest := by
    rw [State.link_updLink_same]
    exact h.inbuf
  refine ⟨_, hnext, ?_⟩
  rw [branchesOf, List.foldl_nil, routed, drainVc_stays (State.route_updLink ..) hbuf (by rw [updLink_ejectHeld, hheld]; rfl) rfl]
  exact ⟨updLink_arrived .., hbuf⟩

/-- A one-flit packet for this module and die arrives with its data. -/
theorem routerHead_ejects (h : HeadWaits s l.val vc.val x rest)
    (hgood : badHeader s (linkDie l.val) vc.val (flitHeader x) = false) (huni : (flitHeader x).mc = false)
    (hdest : (flitHeader x).dest.toNat = myCoord s) (htail : x.tail = true)
    (hempty : Tbl.get [] (s.link l.val).eject vc.val = []) (hdie : (flitHeader x).tdie.toNat = linkDie l.val)
    (hfree : ejectHeld s l.val vc.val = false) :
    ∃ t, execRouterHeadFlit l vc s = .next t ∧ t.tl.arrived = s.tl.arrived ++ [(l.val, packetOf [x])]
      ∧ Tbl.get [] (t.link l.val).inbuf vc.val = rest := by
  have hnext := routerHead_good h hgood (noTurn_here hdest) (directions_here huni hdest)
  have hlink := State.link_updLink_same s l.val fun k =>
    { k with route := Tbl.set none k.route vc.val (some { eject := true }) }
  obtain ⟨harrived, hinbuf⟩ := drainVc_ejects (State.route_updLink s l.val vc.val { eject := true })
    (by rw [hlink]; exact h.inbuf) htail (by rw [hlink]; exact hempty) hdie ((updLink_ejectHeld ..).trans hfree)
  exact ⟨_, hnext, harrived.trans (congrArg (· ++ _) (updLink_arrived ..)), hinbuf⟩

/-- A packet for another module gets one branch, on its next link, and waits for its slots there. -/
theorem routerHead_branches (h : HeadWaits s l.val vc.val x rest)
    (hgood : badHeader s (linkDie l.val) vc.val (flitHeader x) = false) (huni : (flitHeader x).mc = false) {d : Nat} {plus : Bool}
    (hhop : nextHop s (linkDie l.val) (myCoord s) (flitHeader x).dest.toNat (flitHeader x).src.toNat = some (d, plus))
    (hcarries : carries (s.link (linkNum (l.val / 8) d plus)) = true) (hturn : noTurn s l.val (flitHeader x) = false) :
    ∃ t r, execRouterHeadFlit l vc s = .next t ∧ Tbl.get none (t.link l.val).route vc.val = some r
      ∧ r.eject = false ∧ r.branches.map (·.link) = [linkNum (l.val / 8) d plus] ∧ t.tl.arrived = s.tl.arrived := by
  have hnext := routerHead_good h hgood hturn (directions_on huni hhop)
  rw [branchesOf_one h.quiet hcarries] at hnext
  have hbuf : ∀ r : Route, Tbl.get [] ((s.updLink l.val fun k =>
      { k with route := Tbl.set none k.route vc.val (some r) }).link l.val).inbuf vc.val = x :: rest := by
    intro r
    rw [State.link_updLink_same]
    exact h.inbuf
  refine ⟨_, ?r, hnext, ?route, ?eject, ?branches, routed_arrived _ _ _ rfl⟩
  case route =>
    rw [routed, drainVc_stays (State.route_updLink ..) (hbuf _) rfl rfl]
    exact State.route_updLink ..
  case eject => rfl
  case branches => rfl
end

/-! ### The delivery of a packet (R267, R268, R301) -/

/-- The state in which the oldest packet has been taken and counted. -/
def packetTaken (s : State) (p : Packet) (rest : List (Nat × Packet)) : State :=
  countDelivered { s with tl := { s.tl with arrived := rest } } p

theorem packetTaken_counted {p : Packet} (h : p.cls = 0 ∨ p.cls = 1) (s : State) (rest : List (Nat × Packet)) :
    packetTaken s p rest = { s with tl := { s.tl with arrived := rest, delivered := s.tl.delivered + 1 } } := if_pos h

theorem packetTaken_windowOf (s : State) (p : Packet) (rest : List (Nat × Packet)) (job : Nat) :
    windowOf (packetTaken s p rest) job = windowOf s job := by
  unfold packetTaken countDelivered
  split
  · rfl
  · rfl

section
variable {s : State} {l : Nat} {p : Packet} {rest : List (Nat × Packet)} (harrived : s.tl.arrived = (l, p) :: rest)
include harrived

theorem packetDeliver_bound (hjob : ¬(p.cls = 2 ∧ p.job = 0)) {w : Nat} (hwin : windowOf s p.job.toNat = some w) :
    execPacketDeliver s = .next (handOver (packetTaken s p rest) l p w) := by
  have hwin' := (packetTaken_windowOf s p rest p.job.toNat).trans hwin
  rw [execPacketDeliver, harrived]
  refine (if_neg hjob).trans ?_
  dsimp only [packetTaken] at hwin' ⊢
  rw [hwin']

theorem packetDeliver_unbound (hjob : ¬(p.cls = 2 ∧ p.job = 0)) (hwin : windowOf s p.job.toNat = none) :
    execPacketDeliver s = .next (badPacket (packetTaken s p rest) l p) := by
  have hwin' := (packetTaken_windowOf s p rest p.job.toNat).trans hwin
  rw [execPacketDeliver, harrived]
  refine (if_neg hjob).trans ?_
  dsimp only [packetTaken] at hwin' ⊢
  rw [hwin']

theorem packetDeliver_jobless (hcls : p.cls = 2) (hjob : p.job = 0) :
    execPacketDeliver s = .next (handOver (packetTaken s p rest) l p 0) := by
  rw [execPacketDeliver, harrived]
  exact if_pos ⟨hcls, hjob⟩

theorem packetDeliver_collective (hcls : p.cls = 1) (hunit : p.tunit = 3) (hbound : (windowOf s p.job.toNat).isSome = true) :
    ∃ t, execPacketDeliver s = .next t ∧ t = { s with tl := { s.tl with
      arrived := rest, collIn := s.tl.collIn ++ [{ link := l, pkt := p }], delivered := s.tl.delivered + 1 } } := by
  obtain ⟨w, hwin⟩ := Option.isSome_iff_exists.1 hbound
  refine ⟨_, packetDeliver_bound harrived (fun h => ?_) hwin, ?_⟩
  · rw [hcls] at h
    exact absurd h.1 (by decide)
  · rw [packetTaken_counted (.inr hcls), handOver, hunit]
    rfl

theorem packetDeliver_guild (hcls : p.cls = 2) (hunit : p.tunit = 4) (hjob : p.job = 0) :
    execPacketDeliver s = .next { s with tl := { s.tl with arrived := rest, guildIn := s.tl.guildIn ++ [p] } } := by
  have htaken : packetTaken s p rest = { s with tl := { s.tl with arrived := rest } } := by
    refine if_neg ?_
    rw [hcls]
    decide
  rw [packetDeliver_jobless harrived hcls hjob, htaken, handOver, hunit]
  rfl

theorem packetDeliver_discards (hcls : p.cls = 0 ∨ p.cls = 1) (hwin : windowOf s p.job.toNat = none) :
    ∃ t, execPacketDeliver s = .next t ∧ t.tl.arrived = rest ∧ t.mem = s.mem ∧ t.tl.delivered = s.tl.delivered + 1
      ∧ 0x28 ∈ t.irq.latch := by
  have hjob : ¬(p.cls = 2 ∧ p.job = 0) := by
    rintro ⟨htwo, -⟩
    rw [htwo] at hcls
    exact absurd hcls (by decide)
  have hframe := badPacket_traffic (packetTaken s p rest) l p
  refine ⟨_, packetDeliver_unbound harrived hjob hwin, ?_, (badPacket_net ..).mem.trans ?_, ?_,
    raise_latch _ _ rfl (show evTlBadpkt ≠ evGctStep by decide)⟩
  · rw [badPacket, (raise_frame ..).tl, apply_ite State.tl, apply_ite Tl.arrived, tlCount, updLink_arrived, ite_self,
      packetTaken_counted hcls]
  · rw [packetTaken_counted hcls]
  · rw [hframe.tl, packetTaken_counted hcls]
end

/-! ### A link that loses its partner (R276, R308) -/

theorem linkLeaveUp_leaves {s : State} {l : Link} (hcarries : carries (s.link l.val) = true) :
    ∃ t, execLinkLeaveUp l s = .next t ∧ (t.link l.val).state = 0 ∧ (t.link l.val).train = 1
      ∧ (t.link l.val).replay = [] ∧ (t.link l.val).outq = [] ∧ 0x29 ∈ t.irq.latch
      ∧ (interior s l.val = true → sliceRuns s = true → t.slc.broken = true) := by
  obtain ⟨-, hout, hlatch, hbreaks⟩ := leaveUp_left hcarries (state := 0) (by decide) 0 1
  refine ⟨_, if_pos hcarries, ?_⟩
  rw [State.link_updLink_same, State.updLink_slc]
  exact ⟨rfl, rfl, leaveUp_replay hcarries (by decide) 0 1, hout, (updLink_grows ..).mem _ hlatch, hbreaks (by decide)⟩

/-- Settles O36: the head flit by what its header gives, the packet by its class and job, and the lost link. -/
theorem routingAndDelivery : Obligations.RoutingAndDelivery := by
  intro s l vc x rest
  refine ⟨fun hquiet hroute hbuf hhead => ?head, fun j q more harrived => ⟨packetDeliver_collective harrived,
    packetDeliver_guild harrived, packetDeliver_discards harrived⟩, linkLeaveUp_leaves⟩
  case head =>
    have h : HeadWaits s l.val vc.val x rest := ⟨hquiet, hroute, hbuf, hhead⟩
    exact ⟨routerHead_discards h, fun hgood huni => ⟨routerHead_waits h hgood huni, routerHead_ejects h hgood huni,
      fun d plus => routerHead_branches h hgood huni⟩⟩
end Sys2Proof.Machine
